-- ==== Sys2Proof/Word.lean ====
section
/-! DEFINITION. The word types of the LZ-9600 and their plainest arithmetic (R10, R27, R59). -/

namespace Sys2Proof

/-- A byte of memory (R10: multi-byte values are little-endian). -/
abbrev Byte := BitVec 8
/-- The 32-bit scalar and per-thread register width (R27). -/
abbrev Word := BitVec 32
/-- A 64-bit value: a register pair, an address, a tick (R6, R27, R303). -/
abbrev DWord := BitVec 64
/-- A set of the 96 threads of a warp, bit t for thread t (R17, R22). -/
abbrev Mask := BitVec 96
/-- A register field of an instruction word (R86, R88). -/
abbrev Reg := BitVec 6

/-- The low word of a 64-bit value (R27: the even register of a pair). -/
def DWord.lo (d : DWord) : Word := d.setWidth 32
/-- The high word of a 64-bit value (R27: the odd register of a pair). -/
def DWord.hi (d : DWord) : Word := (d >>> 32).setWidth 32
/-- A 64-bit value from its low and high words (R27). -/
def DWord.ofWords (lo hi : Word) : DWord := (hi.setWidth 64 <<< 32) ||| lo.setWidth 64

end Sys2Proof
end

