-- ==== Sys2Proof/Machine/Float.lean ====
section
/-! DEFINITION. The floating formats and exact arithmetic of chapter 2 (R61 to R84): values as exact dyadic numbers,
one rounding function, and the special functions of R172 evaluated in 768-bit fixed point. -/

namespace Sys2Proof.Machine

/-- The flags of R66. They exist for the length of one instruction. -/
structure FFlags where
  nv : Bool := false
  dz : Bool := false
  ov : Bool := false
  uf : Bool := false
  nx : Bool := false
  nan : Bool := false
  inf : Bool := false
  deriving DecidableEq, Repr

/-- Elements of one thread OR their flags (R66). -/
def FFlags.or (a b : FFlags) : FFlags :=
  { nv := a.nv || b.nv, dz := a.dz || b.dz, ov := a.ov || b.ov, uf := a.uf || b.uf,
    nx := a.nx || b.nx, nan := a.nan || b.nan, inf := a.inf || b.inf }

/-- A binary floating format (R61, R63). `ieee` is false for E4M3 and E2M1, which have no infinity. `flush` says
whether FTZ acts on it (R65); `maxEnc` is the largest finite magnitude's encoding; `qnan` the canonical NaN. -/
structure Fmt where
  ebits : Nat
  mbits : Nat
  bias : Nat
  ieee : Bool
  flush : Bool
  maxEnc : Nat
  qnan : Nat
  deriving DecidableEq, Repr

/-- FP64 (R61). -/
def Fmt.fp64 : Fmt := ⟨11, 52, 1023, true, true, 0x7FEFFFFFFFFFFFFF, 0x7FF8000000000000⟩
/-- FP32 (R61). -/
def Fmt.fp32 : Fmt := ⟨8, 23, 127, true, true, 0x7F7FFFFF, 0x7FC00000⟩
/-- FP16 (R61). -/
def Fmt.fp16 : Fmt := ⟨5, 10, 15, true, true, 0x7BFF, 0x7E00⟩
/-- BF16 (R61). -/
def Fmt.bf16 : Fmt := ⟨8, 7, 127, true, true, 0x7F7F, 0x7FC0⟩
/-- E4M3 (R63). -/
def Fmt.e4m3 : Fmt := ⟨4, 3, 7, false, false, 0x7E, 0x7F⟩
/-- E5M2 (R63). -/
def Fmt.e5m2 : Fmt := ⟨5, 2, 15, true, false, 0x7B, 0x7E⟩
/-- E2M1 (R72), without its special code. -/
def Fmt.e2m1 : Fmt := ⟨2, 1, 1, false, false, 7, 0⟩

/-- The width of a format in bits. -/
def Fmt.width (f : Fmt) : Nat := 1 + f.ebits + f.mbits

/-- An exact value: (-1)^neg * m * 2^e, an infinity, or a NaN (signalling or not). -/
inductive Val where
  | nan (sig : Bool)
  | inf (neg : Bool)
  | fin (neg : Bool) (m : Nat) (e : Int)
  deriving DecidableEq, Repr

/-- Zero of a sign. -/
def Val.zero (neg : Bool) : Val := .fin neg 0 0

/-- Whether a bit pattern's NaN is signalling (R64). -/
def Fmt.isSig (f : Fmt) (frac : Nat) : Bool := f.ieee && (frac / 2 ^ (f.mbits - 1) % 2 == 0)

/-- The exact value of a bit pattern (R61, R63). -/
def Fmt.decode (f : Fmt) (b : Nat) : Val :=
  let neg := b / 2 ^ (f.ebits + f.mbits) % 2 == 1
  let ex := b / 2 ^ f.mbits % 2 ^ f.ebits
  let fr := b % 2 ^ f.mbits
  if f.ieee && ex == 2 ^ f.ebits - 1 then
    if fr = 0 then .inf neg else .nan (f.isSig fr)
  else if !f.ieee && ex * 2 ^ f.mbits + fr > f.maxEnc then .nan false
  else if ex = 0 then
    if fr = 0 then .zero neg else .fin neg fr (1 - (f.bias : Int) - f.mbits)
  else .fin neg (fr + 2 ^ f.mbits) ((ex : Int) - f.bias - f.mbits)

/-- The value of an operand under FTZ (R65). -/
def Fmt.input (f : Fmt) (ftz : Bool) (b : Nat) : Val :=
  let neg := b / 2 ^ (f.ebits + f.mbits) % 2 == 1
  if ftz && f.flush && b / 2 ^ f.mbits % 2 ^ f.ebits == 0 then .zero neg else f.decode b

def Val.isNan : Val → Bool
  | .nan _ => true
  | _ => false
def Val.isSig : Val → Bool
  | .nan s => s
  | _ => false
def Val.isInf : Val → Bool
  | .inf _ => true
  | _ => false
def Val.isZero : Val → Bool
  | .fin _ m _ => m == 0
  | _ => false
def Val.sign : Val → Bool
  | .nan _ => false
  | .inf n => n
  | .fin n _ _ => n
/-- The value with its sign inverted. -/
def Val.neg : Val → Val
  | .nan s => .nan s
  | .inf n => .inf !n
  | .fin n m e => .fin (!n) m e
/-- The value with a given sign. -/
def Val.withSign (neg : Bool) : Val → Val
  | .nan s => .nan s
  | .inf _ => .inf neg
  | .fin _ m e => .fin neg m e
/-- The value times 2^n. -/
def Val.scale (n : Int) : Val → Val
  | .fin s m e => .fin s m (if m = 0 then e else e + n)
  | v => v

/-- The rounding modes of R67. `rsr r` carries the random value of R68. -/
inductive Rnd where
  | rne | rtz | rdn | rup | rna
  | rsr (r : Nat)
  deriving DecidableEq, Repr

/-- Whether a magnitude `m` cut at bit `s` (with `sticky` for what lies below it) rounds up (R67, R68). -/
def Rnd.up (md : Rnd) (neg : Bool) (m s : Nat) (sticky : Bool) : Bool :=
  let rem := m % 2 ^ s
  let half := 2 ^ s / 2
  let inexact := rem != 0 || sticky
  match md with
  | .rne => decide (rem > half) || (rem == half && s != 0 && (sticky || m / 2 ^ s % 2 == 1))
  | .rna => decide (rem ≥ half) && s != 0
  | .rtz => false
  | .rdn => neg && inexact
  | .rup => !neg && inexact
  | .rsr r => decide ((if s ≥ 32 then rem / 2 ^ (s - 32) else rem * 2 ^ (32 - s)) + r ≥ 2 ^ 32)

/-- A magnitude cut at bit `s`: the rounded quotient and whether anything was lost. The cut is capped, since
nothing above the magnitude's own bits can matter. -/
def roundAt (md : Rnd) (neg : Bool) (m s : Nat) (sticky : Bool) : Nat × Bool :=
  let cap := s > Nat.log2 m + 40
  let m' := if cap && (m != 0 || sticky) then 1 else m
  let s' := if cap then 48 else s
  let k := if cap then false else sticky
  (m' / 2 ^ s' + (if md.up neg m' s' k then 1 else 0), m' % 2 ^ s' != 0 || k)

/-- A delivered element: its bits, its flags, and whether its exact value was not representable (R68: whether the
generator steps). -/
structure FRes where
  bits : Nat
  fl : FFlags := {}
  step : Bool := false
  deriving DecidableEq, Repr

/-- The canonical NaN (R64). -/
def Fmt.nanRes (f : Fmt) (nv : Bool) : FRes := { bits := f.qnan, fl := { nv := nv, nan := true } }

/-- A sign on a magnitude's encoding. -/
def Fmt.pack (f : Fmt) (neg : Bool) (enc : Nat) : Nat := (if neg then 2 ^ (f.ebits + f.mbits) else 0) + enc

/-- An infinity of a format, as an exact result (R71 for E4M3: `sat` or the canonical NaN). DESIGN CHOICE (log 99): no
rounding takes place, so that RSR does not step the generator for an infinity that the format cannot hold (R68). -/
def Fmt.infRes (f : Fmt) (sat neg : Bool) : FRes :=
  if f.ieee then { bits := f.pack neg ((2 ^ f.ebits - 1) * 2 ^ f.mbits), fl := { inf := true } }
  else if sat then { bits := f.pack neg f.maxEnc, fl := { nx := true } }
  else { bits := f.qnan, fl := { nx := true, nan := true } }

/-- The default result of an overflow (R67), with the saturation of R71. -/
def Fmt.overflow (f : Fmt) (md : Rnd) (sat neg : Bool) : FRes :=
  let toMax := sat || (match md with
    | .rtz => true
    | .rup => neg
    | .rdn => !neg
    | _ => false)
  if toMax then { bits := f.pack neg f.maxEnc, fl := { ov := true, nx := true }, step := true }
  else if f.ieee then
    { bits := f.pack neg ((2 ^ f.ebits - 1) * 2 ^ f.mbits), fl := { ov := true, nx := true, inf := true }, step := true }
  else { bits := f.qnan, fl := { ov := true, nx := true, nan := true }, step := true }

/-- Rounds an exact non-zero magnitude `m * 2^e` (plus something below its last bit when `sticky`) to a format
(R65 to R67, R71). -/
def Fmt.round (f : Fmt) (md : Rnd) (ftz sat neg : Bool) (m : Nat) (e : Int) (sticky : Bool) : FRes :=
  let emin : Int := 1 - (f.bias : Int)
  let top : Int := (Nat.log2 m : Int) + e
  let q : Int := (if top < emin then emin else top) - f.mbits
  let cut := fun (q : Int) =>
    if q ≤ e then (m * 2 ^ (e - q).toNat, sticky) else roundAt md neg m (q - e).toNat sticky
  let r := cut q
  let enc : Int := (q - (emin - f.mbits)) * 2 ^ f.mbits + r.1
  if enc > f.maxEnc then f.overflow md sat neg
  else
    let tiny := decide (top < emin) && !((cut (top - f.mbits)).1 == 2 ^ (f.mbits + 1) && decide (top + 1 = emin))
    let flushed := ftz && f.flush && decide (0 < enc ∧ enc < 2 ^ f.mbits)
    let nx := r.2 || flushed
    { bits := f.pack neg (if flushed then 0 else enc.toNat), fl := { uf := tiny && nx, nx := nx }, step := r.2 }

/-- Delivers an exact value in a format: one rounding (R67). `nv` is the invalid flag found on the way. -/
def Fmt.deliver (f : Fmt) (md : Rnd) (ftz sat : Bool) (v : Val) (nv : Bool) : FRes :=
  let r := match v with
    | .nan _ => f.nanRes nv
    | .inf n => f.infRes sat n
    | .fin n m e => if m = 0 then { bits := f.pack n 0 } else f.round md ftz sat n m e false
  { r with fl := { r.fl with nv := nv } }

/-- The signed integer a finite value denotes in units of 2^e0 (e0 at most the value's exponent). -/
def Val.units (e0 : Int) : Val → Int
  | .fin n m e => (if n then -1 else 1) * ((m : Int) * 2 ^ (e - e0).toNat)
  | _ => 0

/-- The exponent of a value's last bit; a zero has none of its own. -/
def Val.low (d : Int) : Val → Int
  | .fin _ m e => if m = 0 then d else min d e
  | _ => d

/-- A common exponent of a list of values. -/
def Val.lowest (vs : List Val) : Int :=
  match vs.filter (fun v => !v.isZero && !v.isInf && !v.isNan) with
  | [] => 0
  | .fin _ _ e :: rest => rest.foldl (fun d v => v.low d) e
  | _ :: rest => rest.foldl (fun d v => v.low d) 0

/-- The exact sum of addends, with the signs of zero of R165 and R80: all addends zeros of one sign give that sign, any
other exact zero is +0, or -0 under RDN. -/
def Val.sum (md : Rnd) (vs : List Val) : Val :=
  if vs.any Val.isNan || (vs.any (fun v => v == .inf false) && vs.any (fun v => v == .inf true)) then .nan false
  else if vs.any (fun v => v == .inf false) then .inf false
  else if vs.any (fun v => v == .inf true) then .inf true
  else
    let e := Val.lowest vs
    let s : Int := vs.foldl (fun a v => a + v.units e) 0
    if s = 0 then
      if vs.all (fun v => v.isZero && v.sign) then .zero true
      else if vs.all (fun v => v.isZero && !v.sign) then .zero false
      else .zero (md == .rdn)
    else .fin (decide (s < 0)) s.natAbs e

/-- The exact product: NaN for 0 times an infinity. -/
def Val.mul (a b : Val) : Val :=
  match a, b with
  | .nan _, _ => .nan false
  | _, .nan _ => .nan false
  | .inf n, v => if v.isZero then .nan false else .inf (n != v.sign)
  | v, .inf n => if v.isZero then .nan false else .inf (n != v.sign)
  | .fin n m e, .fin n' m' e' => if m = 0 ∨ m' = 0 then .zero (n != n') else .fin (n != n') (m * m') (e + e')

/-- Whether a sum of non-NaN values meets opposite infinities (NV of R66). -/
def Val.clash (vs : List Val) : Bool :=
  vs.any (fun v => v == .inf false) && vs.any (fun v => v == .inf true)

/-- Whether a product is 0 times an infinity (NV of R66). -/
def Val.zeroInf (a b : Val) : Bool := (a.isZero && b.isInf) || (a.isInf && b.isZero)

/-- The order of two values that are not NaN: the sign of a - b. Zeros are equal. -/
def Val.cmp (a b : Val) : Ordering :=
  match a, b with
  | .inf n, .inf n' => if n = n' then .eq else if n then .lt else .gt
  | .inf n, _ => if n then .lt else .gt
  | _, .inf n => if n then .gt else .lt
  | a, b =>
    let e := Val.lowest [a, b]
    compare (a.units e) (b.units e)

/-- a is the smaller for FMIN: -0 lies below +0 (R64). -/
def Val.below (a b : Val) : Bool :=
  match Val.cmp a b with
  | .lt => true
  | .gt => false
  | .eq => a.isZero && b.isZero && a.sign && !b.sign

/-! ### Arithmetic on elements (R165 to R173) -/

/-- FADD, FSUB and the FMA forms: the sum of exact addends, rounded once. -/
def Fmt.addRes (f : Fmt) (md : Rnd) (ftz : Bool) (a b : Val) : FRes :=
  f.deliver md ftz false (Val.sum md [a, b]) (a.isSig || b.isSig || (!a.isNan && !b.isNan && Val.clash [a, b]))

/-- FMUL (R166). -/
def Fmt.mulRes (f : Fmt) (md : Rnd) (ftz : Bool) (a b : Val) : FRes :=
  f.deliver md ftz false (a.mul b) (a.isSig || b.isSig || Val.zeroInf a b)

/-- FMA forms (R168): `np` negates the product, `nd` the addend. -/
def Fmt.fmaRes (f : Fmt) (md : Rnd) (ftz np nd : Bool) (a b d : Val) : FRes :=
  let p := if np then (a.mul b).neg else a.mul b
  let d' := if nd then d.neg else d
  f.deliver md ftz false (Val.sum md [p, d'])
    (a.isSig || b.isSig || d.isSig || Val.zeroInf a b || (!p.isNan && !d.isNan && Val.clash [p, d']))

/-- FMIN, FMAX, FMINNUM, FMAXNUM (R64, R166): an operand delivered unchanged. -/
def Fmt.minmaxRes (f : Fmt) (max num : Bool) (a b : Val) : FRes :=
  let nv := a.isSig || b.isSig
  let pick := if max then (if a.below b then b else a) else (if b.below a then b else a)
  let v := if a.isNan && b.isNan then .nan false
    else if a.isNan then (if num then b else .nan false)
    else if b.isNan then (if num then a else .nan false)
    else pick
  f.deliver .rne false false v nv

/-- FSCALE (R167). -/
def Fmt.scaleRes (f : Fmt) (md : Rnd) (ftz : Bool) (a : Val) (n : Int) : FRes :=
  f.deliver md ftz false (a.scale n) a.isSig

/-- The quotient of two non-zero finite magnitudes with 72 bits or more and a sticky bit. -/
def divMag (m : Nat) (e : Int) (m' : Nat) (e' : Int) : Nat × Int × Bool :=
  let k := 72 + Nat.log2 m'
  (m * 2 ^ k / m', e - e' - k, m * 2 ^ k % m' != 0)

/-- FDIV (R172). -/
def Fmt.divRes (f : Fmt) (md : Rnd) (ftz : Bool) (a b : Val) : FRes :=
  let s := a.sign != b.sign
  match a, b with
  | .nan x, y => f.nanRes (x || y.isSig)
  | x, .nan y => f.nanRes (x.isSig || y)
  | .inf _, .inf _ => f.nanRes true
  | .inf _, _ => f.deliver md ftz false (.inf s) false
  | _, .inf _ => f.deliver md ftz false (.zero s) false
  | .fin _ m e, .fin _ m' e' =>
    if m' = 0 then
      if m = 0 then f.nanRes true
      else
        let r := f.infRes false s
        { r with fl := { r.fl with dz := true } }
    else if m = 0 then f.deliver md ftz false (.zero s) false
    else
      let q := divMag m e m' e'
      f.round md ftz false s q.1 q.2.1 q.2.2

/-- The integer square root by bits, from bit `k` down. -/
def sqrtBits : Nat → Nat → Nat → Nat
  | 0, _, r => r
  | k + 1, n, r => sqrtBits k n (if (r + 2 ^ k) * (r + 2 ^ k) ≤ n then r + 2 ^ k else r)

/-- The integer square root. -/
def isqrt (n : Nat) : Nat := sqrtBits (Nat.log2 n / 2 + 1) n 0

/-- FSQRT (R172). -/
def Fmt.sqrtRes (f : Fmt) (md : Rnd) (ftz : Bool) (a : Val) : FRes :=
  match a with
  | .nan x => f.nanRes x
  | .inf n => if n then f.nanRes true else f.deliver md ftz false a false
  | .fin n m e =>
    if m = 0 then f.deliver md ftz false a false
    else if n then f.nanRes true
    else
      let h : Int := if e % 2 = 0 then 160 else 161
      let x := m * 2 ^ h.toNat
      let r := isqrt x
      f.round md ftz false false r ((e - h) / 2) (r * r != x)

/-- FRSQ (R172). -/
def Fmt.rsqRes (f : Fmt) (md : Rnd) (ftz : Bool) (a : Val) : FRes :=
  match a with
  | .nan x => f.nanRes x
  | .inf n => if n then f.nanRes true else f.deliver md ftz false (.zero false) false
  | .fin n m e =>
    if m = 0 then
      let r := f.infRes false n
      { r with fl := { r.fl with dz := true } }
    else if n then f.nanRes true
    else
      let odd := e % 2 != 0
      let m' := if odd then 2 * m else m
      let e' := if odd then e - 1 else e
      let k := 80 + Nat.log2 m'
      let r := isqrt (2 ^ (2 * k) / m')
      f.round md ftz false false r (-(e' / 2) - k) (r * r * m' != 2 ^ (2 * k))

/-- FRND (R171). -/
def Fmt.rndRes (f : Fmt) (md : Rnd) (a : Val) : FRes :=
  match a with
  | .fin n m e =>
    if m = 0 ∨ e ≥ 0 then f.deliver .rne false false a false
    else
      let r := roundAt md n m (-e).toNat false
      let d := f.deliver .rne false false (if r.1 = 0 then .zero n else .fin n r.1 0) false
      { d with fl := { d.fl with nx := r.2 } }
  | v => f.deliver .rne false false v v.isSig

/-- The class mask of stored bits (R170). -/
def Fmt.classOf (f : Fmt) (b : Nat) : Nat :=
  let sub := b / 2 ^ f.mbits % 2 ^ f.ebits == 0
  match f.decode b with
  | .nan true => 2 ^ 8
  | .nan false => 2 ^ 9
  | .inf n => if n then 1 else 2 ^ 7
  | .fin n m _ => if m = 0 then (if n then 2 ^ 3 else 2 ^ 4)
    else if sub then (if n then 2 ^ 2 else 2 ^ 5) else (if n then 2 else 2 ^ 6)

/-! ### The special functions (R172): 768-bit fixed point -/

/-- The fixed-point unit. -/
def fxOne : Nat := 2 ^ 768

/-- Σ x^(2k+1)/(2k+1) from term `k`, with alternating sign when `alt`: atanh and atan of `num/den`. -/
def atanTerms (alt : Bool) (n2 d2 : Nat) : Nat → Nat → Nat → Int
  | 0, _, _ => 0
  | fuel + 1, k, p =>
    (if alt && k % 2 == 1 then -1 else 1) * ((p / (2 * k + 1) : Nat) : Int) + atanTerms alt n2 d2 fuel (k + 1) (p * n2 / d2)

/-- atan (`alt`) or atanh of num/den. -/
def fxAtan (alt : Bool) (num den : Nat) : Nat :=
  (atanTerms alt (num * num) (den * den) 260 0 (fxOne * num / den)).toNat

/-- ln 2 = 2 atanh(1/3). -/
def fxLn2 : Nat := 2 * fxAtan false 1 3

/-- π = 16 atan(1/5) - 4 atan(1/239). -/
def fxPi : Nat := 16 * (atanTerms true 1 25 340 0 (fxOne / 5)).toNat - 4 * fxAtan true 1 239

/-- Σ x^k/k! from term `k`. -/
def expTerms (x : Nat) : Nat → Nat → Nat → Nat
  | 0, _, _ => 0
  | fuel + 1, k, p => p + expTerms x fuel (k + 1) (p * x / fxOne / (k + 1))

/-- e^x for x below 1. -/
def fxExp (x : Nat) : Nat := expTerms x 160 0 fxOne

/-- e^(-y) for a fixed-point y. -/
def fxExpNeg (y : Nat) : Nat :=
  let n := y / fxLn2
  fxOne * fxOne / fxExp (y % fxLn2) / 2 ^ n

/-- Σ (-1)^k x^(2k+j)/(2k+j)! : cosine for j = 0, sine for j = 1. -/
def trigTerms (x2 j : Nat) : Nat → Nat → Nat → Int
  | 0, _, _ => 0
  | fuel + 1, k, p =>
    (if k % 2 = 1 then -1 else 1) * (p : Int)
      + trigTerms x2 j fuel (k + 1) (p * x2 / fxOne / ((2 * k + j + 1) * (2 * k + j + 2)))

/-- The sine of x in [0, π/2]. -/
def fxSin (x : Nat) : Nat := (trigTerms (x * x / fxOne) 1 100 0 x).toNat
/-- The cosine of x in [0, π/2]. -/
def fxCos (x : Nat) : Nat := (trigTerms (x * x / fxOne) 0 100 0 fxOne).toNat

/-- ln of x in [1, 2]. -/
def fxLn (x : Nat) : Nat := 2 * (atanTerms false ((x - fxOne) * (x - fxOne)) ((x + fxOne) * (x + fxOne)) 260 0
  (fxOne * (x - fxOne) / (x + fxOne))).toNat

/-- A magnitude as fixed point. -/
def fxOf (m : Nat) (e : Int) : Nat :=
  if e + 768 ≥ 0 then m * 2 ^ (e + 768).toNat else m / 2 ^ (-(e + 768)).toNat

/-- Delivers a fixed-point magnitude that is not exactly representable, RNE (R172). -/
def Fmt.fxRes (f : Fmt) (ftz neg : Bool) (x : Nat) : FRes :=
  if x = 0 then f.round .rne ftz false neg 1 (-768) true else f.round .rne ftz false neg x (-768) true

/-- The six functions of R172 that round RNE whatever the mode. -/
inductive FunOp where
  | exp2 | log2 | sin | cos | tanh | sig
  deriving DecidableEq, Repr

/-- 2^(±m·2^e). -/
def Fmt.exp2Fin (f : Fmt) (ftz n : Bool) (m : Nat) (e : Int) : FRes :=
  if decide ((Nat.log2 m : Int) + e > 12) then
    if n then f.fxRes ftz false 0 else f.overflow .rne false false
  else if e ≥ 0 then
    let k : Int := (m : Int) * 2 ^ e.toNat
    f.deliver .rne ftz false (.fin false 1 (if n then -k else k)) false
  else
    let w := m / 2 ^ (-e).toNat
    let fr := fxOf (m % 2 ^ (-e).toNat) e
    if m % 2 ^ (-e).toNat = 0 then f.deliver .rne ftz false (.fin false 1 (if n then -(w : Int) else w)) false
    else
      let x := fxExp (fr * fxLn2 / fxOne)
      if n then f.round .rne ftz false false (fxOne * fxOne / x) (-768 - (w : Int)) true
      else f.round .rne ftz false false x (-768 + (w : Int)) true

/-- log2 of a positive magnitude. -/
def Fmt.log2Fin (f : Fmt) (ftz : Bool) (m : Nat) (e : Int) : FRes :=
  let l := Nat.log2 m
  let top : Int := (l : Int) + e
  if m = 2 ^ l then f.deliver .rne ftz false (if top = 0 then .zero false else .fin (decide (top < 0)) top.natAbs 0) false
  else
    let y : Int := top * fxOne + (fxLn (fxOne * m / 2 ^ l) * fxOne / fxLn2 : Nat)
    f.fxRes ftz (decide (y < 0)) y.natAbs

/-- sin and cos of a non-zero magnitude, with exact range reduction. -/
def Fmt.trigFin (f : Fmt) (ftz cos n : Bool) (m : Nat) (e : Int) : FRes :=
  let x := fxOf m e
  let h := fxPi / 2
  let k := x / h
  let r := x % h
  let j := (k + (if cos then 1 else 0)) % 4
  let v := if j % 2 = 0 then fxSin r else fxCos r
  f.fxRes ftz ((decide (j ≥ 2)) != (n && !cos)) v

/-- tanh of a non-zero magnitude. -/
def Fmt.tanhFin (f : Fmt) (ftz n : Bool) (m : Nat) (e : Int) : FRes :=
  let y := if decide ((Nat.log2 m : Int) + e > 6) then 128 * fxOne else fxOf m e
  let t := fxExpNeg (2 * y)
  f.fxRes ftz n ((fxOne - t) * fxOne / (fxOne + t))

/-- The logistic function of a non-zero magnitude. -/
def Fmt.sigFin (f : Fmt) (ftz n : Bool) (m : Nat) (e : Int) : FRes :=
  let y := if decide ((Nat.log2 m : Int) + e > 8) then 512 * fxOne else fxOf m e
  let t := fxExpNeg y
  f.fxRes ftz false ((if n then t else fxOne) * fxOne / (fxOne + t))

/-- The special functions with their special cases (R172). -/
def Fmt.funRes (f : Fmt) (op : FunOp) (ftz : Bool) (a : Val) : FRes :=
  let one : Val := .fin false 1 0
  let ex := fun v => f.deliver .rne ftz false v false
  match a with
  | .nan x => f.nanRes x
  | .inf n =>
    match op with
    | .exp2 => ex (if n then .zero false else .inf false)
    | .log2 => if n then f.nanRes true else ex (.inf false)
    | .sin => f.nanRes true
    | .cos => f.nanRes true
    | .tanh => ex (one.withSign n)
    | .sig => ex (if n then .zero false else one)
  | .fin n m e =>
    if m = 0 then
      match op with
      | .exp2 => ex one
      | .log2 =>
        let r := f.infRes false true
        { r with fl := { r.fl with dz := true } }
      | .sin => ex a
      | .cos => ex one
      | .tanh => ex a
      | .sig => ex (.fin false 1 (-1))
    else
      match op with
      | .exp2 => f.exp2Fin ftz n m e
      | .log2 => if n then f.nanRes true else f.log2Fin ftz m e
      | .sin => f.trigFin ftz false n m e
      | .cos => f.trigFin ftz true n m e
      | .tanh => f.tanhFin ftz n m e
      | .sig => f.sigFin ftz n m e

/-! ### Conversions to and from integers (R176, R177) -/

/-- A float rounded to an integer range (R71, R176). DESIGN CHOICE (log 98): R71 and R176 state no result for an infinity; it clamps by
sign, sets NV and NX, and does not step the generator. -/
def toIntRes (md : Rnd) (lo hi : Int) (v : Val) : Int × FFlags × Bool :=
  match v with
  | .nan _ => (0, { nv := true }, false)
  | .inf n => (if n then lo else hi, { nv := true, nx := true }, false)
  | .fin n m e =>
    let r := if e ≥ 0 then (m * 2 ^ (min e 100).toNat, false) else roundAt md n m (-e).toNat false
    let x : Int := if n then -(r.1 : Int) else r.1
    if x < lo then (lo, { nv := true, nx := true }, true)
    else if x > hi then (hi, { nv := true, nx := true }, true)
    else (x, { nx := r.2 }, r.2)

/-- An integer as an exact value (R177). -/
def Val.ofInt (x : Int) : Val := .fin (decide (x < 0)) x.natAbs 0

/-! ### E2M1X (R72 to R76) -/

/-- The value of an element of a block (R73). -/
def e2m1xVal (scale special code : Nat) : Val :=
  if scale = 0xFF then .nan false
  else ((if code = 8 then Fmt.e4m3.decode special else if code = 0 then .zero false else Fmt.e2m1.decode code)).scale
    ((scale : Int) - 127)

/-- A quantised block: its scale, special and 32 codes. -/
structure QBlock where
  scale : Nat
  special : Nat
  codes : List Nat
  nx : Bool
  nan : Bool
  deriving DecidableEq, Repr

/-- The NaN block (R76). -/
def QBlock.nanBlock : QBlock := { scale := 0xFF, special := 0x7F, codes := List.replicate 32 0, nx := false, nan := true }

/-- The magnitude order of two finite values: |a| <= |b| * c * 2^s. -/
def magLe (a : Val) (c : Nat) (s : Int) : Bool :=
  Val.cmp (a.withSign false) (.fin false c s) != .gt

/-- The smallest e in 0 .. 254 from `e` on that satisfies a test. -/
def leastScale (p : Nat → Bool) : Nat → Nat → Nat
  | 0, e => e
  | fuel + 1, e => if p e then e else leastScale p fuel (e + 1)

/-- The index of the first greatest magnitude. -/
def argMaxMag : List Val → Nat → Nat → Val → Nat
  | [], _, best, _ => best
  | v :: rest, i, best, bv =>
    if Val.cmp (bv.withSign false) (v.withSign false) == .lt then argMaxMag rest (i + 1) i v else argMaxMag rest (i + 1) best bv

/-- The greatest magnitude. -/
def maxMag (vs : List Val) : Val :=
  vs.foldl (fun b v => if Val.cmp b (v.withSign false) == .lt then v.withSign false else b) (.zero false)

/-- The block quantisation of R76. -/
def qntBlock (sat : Bool) (xs : List Val) : QBlock :=
  if xs.any Val.isNan then .nanBlock
  else if xs.any Val.isInf && !sat then .nanBlock
  else
    let ys := xs.map fun v => if v.isInf then .fin v.sign (2 ^ 24 - 1) 104 else v
    let m1 := maxMag ys
    if m1.isZero then { scale := 0, special := 0, codes := List.replicate 32 0, nx := false, nan := false }
    else
      let j := argMaxMag ys 0 0 (.zero false)
      let m2 := maxMag (ys.zipIdx.filterMap fun p => if p.2 = j then none else some p.1)
      let e := leastScale (fun e => magLe m2 6 ((e : Int) - 127) && magLe m1 448 ((e : Int) - 127)) 254 0
      let sc : Int := 127 - (e : Int)
      let sp := Fmt.e4m3.deliver .rne false false ((ys.getD j (.zero false)).scale sc) false
      let cs := ys.zipIdx.map fun p =>
        if p.2 = j then ({ bits := 8 } : FRes)
        else
          let r := Fmt.e2m1.deliver .rne false false (p.1.scale sc) false
          if r.bits % 8 = 0 then { r with bits := 0 } else r
      { scale := e, special := sp.bits, codes := cs.map FRes.bits
        nx := sp.fl.nx || cs.any (fun r => r.fl.nx) || xs.any Val.isInf, nan := false }

end Sys2Proof.Machine
end

