-- ==== Sys2Proof/Machine/Flags.lean ====
section
/-! DEFINITION. Comparison conditions, combining rules and predicates (R150, R151, R169), and the rounding a word takes from
the mode register (R32, R67, R98). -/

namespace Sys2Proof.Machine

/-- The integer conditions 0 to 9 of R150. -/
def intCond (cc : Nat) (x y : Word) : Bool :=
  match cc with
  | 0 => x == y
  | 1 => x != y
  | 2 => x.slt y
  | 3 => x.sle y
  | 4 => y.slt x
  | 5 => y.sle x
  | 6 => x.ult y
  | 7 => x.ule y
  | 8 => y.ult x
  | _ => y.ule x

/-- The combining rules of R150. -/
def combine (rule : Nat) (old c : Bool) : Bool :=
  match rule with
  | 0 => c
  | 1 => old && c
  | 2 => old || c
  | _ => xor old c

/-- The floating conditions of R169 on two elements: codes 6 and 7 are UNO and ORD. -/
def floatCond (cc : Nat) (a b : Val) : Bool :=
  let un := a.isNan || b.isNan
  let o := Val.cmp a b
  match cc with
  | 0 => !un && o == .eq
  | 1 => un || o != .eq
  | 2 => !un && o == .lt
  | 3 => !un && o != .gt
  | 4 => !un && o == .gt
  | 5 => !un && o != .lt
  | 6 => un
  | _ => !un

/-! ### The mode value (R98) -/

def modeFtz (m : BitVec 11) : Bool := m.getLsbD 10
def modeSat (m : BitVec 11) : Bool := m.getLsbD 9
def modeSr (m : BitVec 11) : Bool := m.getLsbD 8

/-- The rounding field. -/
def modeField (m : BitVec 11) : Rnd :=
  match (m >>> 5).toNat % 8 with
  | 1 => .rtz
  | 2 => .rdn
  | 3 => .rup
  | 4 => .rna
  | _ => .rne

/-- The rounding of arithmetic: RNE while the SR bit is set (R67). -/
def modeArith (m : BitVec 11) : Rnd := if modeSr m then .rne else modeField m

/-- A mode value written outside MODE: RND 5 to 7 are stored as 0 (R137, R260). -/
def cleanMode (m : BitVec 11) : BitVec 11 := if (m >>> 5).toNat % 8 ≥ 5 then m &&& ~~~(0xE0#11) else m

end Sys2Proof.Machine
end

