-- ==== Sys2Proof/Syntax.lean ====
section
/-! DEFINITION. The steps of the LZ-9600 as syntax: one constructor per row of spec/opcode_table.json. A row with a word
encoding carries its fields (R86; `m` is the switch marker S of bit 31, R91); a LIT row carries its literal word `lit`
(R95); a row that is an event, a packet, a command or a fabric transaction carries the operands that name what it acts on. -/

namespace Sys2Proof

/-- The kinds of access a translation is checked for (R309). -/
inductive Access where
  | read | write | fetch | atomic
  deriving DecidableEq, Repr

/-- The buffers that hardware zeroes when they change owner and that an access waits for (R53, R54). -/
inductive ZeroBuf where
  | frame (n : Nat)
  | quantum (core q : Nat)
  | window (wid : Nat)
  | scratch (wg : Nat)
  deriving DecidableEq, Repr

/-- Where an uncorrectable error strikes (R334, R378). -/
inductive ErrTarget where
  | vreg (wid reg thread half : Nat)
  | sreg (wid reg : Nat)
  | memory (pa : Nat)
  | state (part : Nat)
  deriving DecidableEq, Repr

/-- Where a parity error strikes (R311). -/
inductive ParityTarget where
  | lastPage (core lane : Nat)
  | coreTlb (core page : Nat)
  | clusterTlb (cluster page : Nat)
  deriving DecidableEq, Repr

/-- A firmware image (R469): its header fields, the key and the signature it presents, and its parts. -/
structure FwImage where
  version : Nat
  svn : Nat
  header : List Byte
  key : List Byte
  sig : List Byte
  parts : List (List Byte)
  digests : List (List Byte)
  deriving DecidableEq, Repr

/-- The counts of an estimator over a window (R448). `p4` counts products in quarters. -/
structure PowerSample where
  t : Nat := 0
  p4 : Nat := 0
  vl : Nat := 0
  sr : Nat := 0
  l : Nat := 0
  cycles : Nat := 0
  deriving DecidableEq, Repr

/-- A link control word as a port receives it (R7, R418, R419). -/
structure LinkWord where
  ack : Nat
  stop : Option Nat
  go : Option Nat
  switchTick : Option DWord
  tagOk : Bool
  deriving DecidableEq, Repr

/-- The SPDM requests of R422, in the order of its table. -/
inductive SpdmReq where
  | getVersion
  | getCapabilities
  | negotiateAlgorithms
  | getDigests
  | getCertificate
  | getMeasurements
  | keyExchange
  | finish
  | keyUpdate
  | endSession
  deriving DecidableEq, Repr

/-- An algorithm that a switch may select (R422). -/
inductive SpdmAlg where
  | ecdsaBrainpoolP384r1
  | ecdhSecp384r1
  | sha384
  | aes256Gcm
  | other
  deriving DecidableEq, Repr

/-- What a switch selects in NEGOTIATE_ALGORITHMS (R422). -/
structure SpdmAlgs where
  signature : SpdmAlg
  keyExchange : SpdmAlg
  hash : SpdmAlg
  aead : SpdmAlg
  /-- Whether it selects an option beside these. -/
  options : Bool
  deriving DecidableEq, Repr

/-- What a link-local SPDM message of the switch brings about at a port (R422 to R424). -/
inductive SpdmMsg where
  /-- The answer to FINISH: the session is established. -/
  | established
  | failed
  | endSession
  /-- The answer to KEY_UPDATE, and its failure. -/
  | keyUpdated
  | keyUpdateFailed
  /-- The answer to NEGOTIATE_ALGORITHMS. -/
  | algorithms (a : SpdmAlgs)
  /-- The answer to another request. -/
  | other
  deriving DecidableEq, Repr

/-- How the control node answers an access to a SYS page (R276, R502). -/
inductive SysAnswer where
  | data (bytes : List Byte)
  | ack
  | refuse
  deriving DecidableEq, Repr

/-- A fabric transaction: the header of R410 and its payload (R412). -/
structure Txn where
  typ : Nat
  src : Nat
  dst : Nat
  plane : Nat
  seq : Nat
  addr : Nat
  ten : Nat
  ctx : Nat
  aux : Nat
  op : Nat
  len : Nat
  tidx : Nat
  resent : Bool
  last : Bool
  payload : List Byte
  deriving DecidableEq, Repr

/-- One constructor per row of the table: the events, then the instruction words, each in the table's order. -/
inductive Instr where
  /-- QUOTA_TRANSFER_COMPLETE (R131). -/
  | quotaTransferComplete (wid : Nat)
  /-- LONG_LATENCY_WRITE (R92). -/
  | longLatencyWrite (wid id t : Nat)
  /-- TRANSLATION_WALK (R312). -/
  | translationWalk (core ctx : Nat) (va : DWord) (kind : Access)
  /-- ZEROING_COMPLETE (R54). -/
  | zeroingComplete (buf : ZeroBuf)
  /-- FRESP_ANSWER (R314). -/
  | frespAnswer (part idx : Nat) (refuse : Bool)
  /-- FRESP_KICK (R314). -/
  | frespKick (part : Nat)
  /-- SHOOTDOWN_REQUEST (R310). -/
  | shootdownRequest (part : Nat) (asid : Option Nat) (va : Option DWord)
  /-- UNCORRECTABLE_ERROR (R334). -/
  | uncorrectableError (tgt : ErrTarget)
  /-- ENGINE_ENTRY_START (R227). -/
  | engineEntryStart (wg q : Nat)
  /-- COPY_COMPLETE (R224). -/
  | copyComplete (wg q : Nat)
  /-- MMA_START (R235). -/
  | mmaStart (core id : Nat)
  /-- MMA_COMPLETE (R235). -/
  | mmaComplete (core id : Nat)
  /-- COLL_COMPLETE (R246). -/
  | collComplete (wg q : Nat)
  /-- SEED_WRITE (R69). -/
  | seedWrite (wid : Nat) (v : Word)
  /-- CONTROL_REGISTER_WRITE (R50). -/
  | controlRegisterWrite (wid : Nat) (n : BitVec 12) (v : Word)
  /-- MODULE_RESET (R475). -/
  | moduleReset
  /-- RECOVERY_IMAGE (R470). -/
  | recoveryImage (img : FwImage)
  /-- HOCP_TICK_LOAD (R7). -/
  | hocpTickLoad (t : DWord)
  /-- WAKE_WRITE (R340). -/
  | wakeWrite (q : Nat) (tail : Word)
  /-- LAUNCH (R354). -/
  | launch (q : Nat)
  /-- XCOPY (R350). -/
  | xcopy (q : Nat)
  /-- XCOPY_COMPLETE (R350). -/
  | xcopyComplete (q idx : Nat)
  /-- SIGNAL (R346). -/
  | signal (q : Nat)
  /-- COND (R347). -/
  | cond (q : Nat)
  /-- COND_REREAD (R347). -/
  | condReread (q : Nat)
  /-- FENCE_PACKET (R349). -/
  | fencePacket (q : Nat)
  /-- FENCE_PACKET_COMPLETE (R349). -/
  | fencePacketComplete (q : Nat)
  /-- WAITORD (R348). -/
  | waitord (q : Nat)
  /-- CONTRACT (R386). -/
  | contract (q : Nat)
  /-- WORKGROUP_PLACE (R360). -/
  | workgroupPlace (l : Nat)
  /-- WORKGROUP_RELEASE (R361). -/
  | workgroupRelease (wg : Nat)
  /-- WORKGROUP_RETIRE (R363). -/
  | workgroupRetire (wg : Nat)
  /-- BIND (R342). -/
  | bind (q : Nat)
  /-- UNBIND (R342). -/
  | unbind (q : Nat)
  /-- QUEUE_STOP (R342). -/
  | queueStop (q : Nat)
  /-- QUEUE_START (R342). -/
  | queueStart (q : Nat)
  /-- QUEUE_RESET (R342). -/
  | queueReset (q : Nat)
  /-- SKIP (R342). -/
  | skipOp (q : Nat)
  /-- QCB_AUDIT (R338). -/
  | qcbAudit (q : Nat)
  /-- SHADOW_EXCHANGE (R370). -/
  | shadowExchange (core : Nat)
  /-- STAGING_COMPLETE (R370). -/
  | stagingComplete (core ctx : Nat)
  /-- LOAD (R373). -/
  | loadOp (ctx : Nat)
  /-- SAVE (R373). -/
  | saveOp (ctx : Nat)
  /-- RESTORE (R373). -/
  | restore (ctx : Nat)
  /-- DISCARD (R373). -/
  | discard (ctx : Nat)
  /-- QUEUE_HANG (R377). -/
  | queueHang (q : Nat)
  /-- QUIESCE_DONE (R379). -/
  | quiesceDone (part : Nat)
  /-- WRITEBACK_DONE (R379). -/
  | writebackDone (part : Nat)
  /-- ZERO_DONE (R379). -/
  | zeroDone (part : Nat)
  /-- REPLAY_DONE (R379). -/
  | replayDone (part : Nat)
  /-- CLUSTER_RETENTION_EXIT (R381). -/
  | clusterRetentionExit (c : Nat)
  /-- JOIN_TIMEOUT_EXPIRY (R122). -/
  | joinTimeoutExpiry (wid e : Nat)
  /-- REGANG_TIMEOUT_EXPIRY (R126). -/
  | regangTimeoutExpiry (wid e : Nat)
  /-- BEAT_INTERVAL_END (R383). -/
  | beatIntervalEnd (ctx : Nat)
  /-- CONTROLLER_STEP (R390). -/
  | controllerStep (ctx : Nat)
  /-- EQUINOX_GRANT (R395). -/
  | equinoxGrant (part : Nat)
  /-- GRANT_RISE (R392). -/
  | grantRise (ctx : Nat)
  /-- GRANT_FALL (R393). -/
  | grantFall (ctx : Nat)
  /-- WC_AGE_DRAIN (R281). -/
  | wcAgeDrain (core id : Nat)
  /-- L1_DIRTY_AGE_WRITEBACK (R274). -/
  | l1DirtyAgeWriteback (core line : Nat)
  /-- POWER_ESTIMATE, with what the model does not count itself: a share of each cluster, lines of HBM, and flits that were sent again
  (R448, R450). -/
  | powerEstimate (samples : List PowerSample) (hbmLines flits : Nat)
  /-- WEIGHT_REFIT, with the shunt energy of each of the second's milliseconds in pJ (R449). -/
  | weightRefit (pair : Nat) (shunt : List Nat)
  /-- STEP_CHANGE_REQUEST (R445). -/
  | stepChangeRequest (c n : Nat)
  /-- STEP_CHANGE_DONE (R446). -/
  | stepChangeDone (c : Nat)
  /-- PAGE_AGE_SCAN (R332). -/
  | pageAgeScan
  /-- USAGE_RECORD_WRITE (R467). -/
  | usageRecordWrite (part : Nat)
  /-- TIMESLICE_BOUNDARY (R461). -/
  | timesliceBoundary
  /-- SCHEDULE_START (R460). -/
  | scheduleStart
  /-- SCHEDULE_STOP (R463). -/
  | scheduleStop
  /-- CREATE (R456). -/
  | create (part : Nat)
  /-- UPDATE (R456). -/
  | update (part : Nat)
  /-- DESTROY (R457). -/
  | destroy (part : Nat)
  /-- DESTROY_ZEROING_DONE (R457). -/
  | destroyZeroingDone (part : Nat)
  /-- RESETPART (R456). -/
  | resetpart (part : Nat)
  /-- GENERATE (R464). -/
  | generate (slot : Nat)
  /-- ZERO (R464). -/
  | zeroOp (slot : Nat)
  /-- ATTESTATION_REQUEST (R473). -/
  | attestationRequest
  /-- ATTESTATION_REQUEST_HOCP (R473). -/
  | attestationRequestHocp (part : Nat) (nonce : List Byte)
  /-- STOPTICK_ARM (R432). -/
  | stoptickArm (t : DWord)
  /-- STOPTICK (R432). -/
  | stoptick
  /-- CORE_DUMP_WRITE (R442). -/
  | coreDumpWrite (wid : Nat)
  /-- FABID_WRITE (R425). -/
  | fabidWrite (peer : Nat)
  /-- PORTCFG_WRITE (R424). -/
  | portcfgWrite (port : Nat) (v : Word)
  /-- LOCK (R424). -/
  | lock (port : Nat)
  /-- PORT_START (R424). -/
  | portStart (port : Nat)
  /-- PORT_STOP (R424). -/
  | portStop (port : Nat)
  /-- KEYUPDATE (R423). -/
  | keyupdate (port : Nat)
  /-- PEER_LOST_CLEAR (R421). -/
  | peerLostClear (peer : Nat)
  /-- LINK_CONTROL_WORD (R419). -/
  | linkControlWord (port : Nat) (w : LinkWord)
  /-- LINK_DOWN (R424). -/
  | linkDown (port : Nat)
  /-- SPDM (R422). -/
  | spdm (port : Nat) (msg : SpdmMsg)
  /-- PSTATE (R412). -/
  | pstate (plane : Nat) (map : BitVec 512)
  /-- PATH_DOWN (R420). -/
  | pathDown (plane peer : Nat)
  /-- PEER_LOST (R421). -/
  | peerLost (peer : Nat)
  /-- RD (R413). -/
  | rd (x : Txn)
  /-- RDATA (R412). -/
  | rdata (x : Txn)
  /-- WR (R413). -/
  | wr (x : Txn)
  /-- WRM (R413). -/
  | wrm (x : Txn)
  /-- DONE (R412). -/
  | doneOp (x : Txn)
  /-- FABRIC_ATOM (R413). -/
  | fabricAtom (x : Txn)
  /-- ARES (R412). -/
  | ares (x : Txn)
  /-- TICKET (R323). -/
  | ticket (x : Txn)
  /-- BUSY (R415). -/
  | busy (x : Txn)
  /-- BUSY_RETRY (R415). -/
  | busyRetry (plane peer : Nat)
  /-- REFUSE (R501). -/
  | refuse (x : Txn)
  /-- NOTICE (R414). -/
  | notice (x : Txn)
  /-- NOTEACK (R414). -/
  | noteack (x : Txn)
  /-- PLANEQ (R420). -/
  | planeq (x : Txn)
  /-- PLANEA (R420). -/
  | planea (x : Txn)
  /-- BEATMRG: the header with the payload up to ILOG, then N and the minimum (R403, R417). -/
  | beatmrg (x : Txn) (n least : Nat)
  /-- COLLD (R416). -/
  | colld (x : Txn)
  /-- SYSTEM_MEMORY_ANSWER (R276). -/
  | systemMemoryAnswer (id : Nat) (ans : SysAnswer)
  /-- HOCP_WRITE (R340). -/
  | hocpWrite (pa : Nat) (v : Word)
  /-- HOCP_BLOCK_TRANSFER (R275). -/
  | hocpBlockTransfer (pa len : Nat) (data : Option (List Byte))
  /-- SCHEDULER_FAULT (R378). -/
  | schedulerFault (part : Nat)
  /-- PARITY_ERROR (R311). -/
  | parityError (tgt : ParityTarget)
  /-- EVICTED_PAGE_RESTORE (R333). -/
  | evictedPageRestore (part idx frame : Nat) (data : List Byte)
  /-- FIRMWARE_UPDATE (R470). -/
  | firmwareUpdate (img : FwImage)
  /-- DBGCTL_WRITE (R264). -/
  | dbgctlWrite (ctx : Nat) (v : Word)
  /-- FLIT_DROP (R411). -/
  | flitDrop (port : Nat)
  /-- NOP (R130). -/
  | nop (m : Bool)
  /-- YIELD (R123). -/
  | yield (m : Bool)
  /-- WAITALL (R130). -/
  | waitall (m : Bool)
  /-- EXIT (R130). -/
  | exit (m : Bool)
  /-- ERET (R135). -/
  | eret (m : Bool)
  /-- BEAT (R130). -/
  | beat (m : Bool)
  /-- BEATN (R130). -/
  | beatn (m : Bool) (a : BitVec 6)
  /-- UNGANG (R124). -/
  | ungang (m : Bool)
  /-- GETMODE (R130). -/
  | getmode (m : Bool) (d : BitVec 6)
  /-- MODE (R99). -/
  | mode (m : Bool) (d : BitVec 5) (i : BitVec 11)
  /-- BRA (R118). -/
  | bra (m : Bool) (i : BitVec 24)
  /-- CALL (R118). -/
  | call (m : Bool) (i : BitVec 24)
  /-- BRQ (R118). -/
  | brq (m : Bool) (n : BitVec 1) (q : BitVec 3) (i : BitVec 18)
  /-- BRP (R119). -/
  | brp (m : Bool) (n : BitVec 1) (p : BitVec 3) (i : BitVec 18)
  /-- BRX (R118). -/
  | brx (m : Bool) (a : BitVec 6)
  /-- CALLX (R118). -/
  | callx (m : Bool) (d a : BitVec 6)
  /-- RET (R118). -/
  | ret (m : Bool) (a : BitVec 6)
  /-- BRV (R119). -/
  | brv (m : Bool) (a : BitVec 6)
  /-- JOIN (R121). -/
  | join (m : Bool) (d : BitVec 6) (i : BitVec 12)
  /-- REGANG (R125). -/
  | regang (m : Bool) (d a : BitVec 6) (i : BitVec 12)
  /-- BAR (R129). -/
  | bar (m : Bool) (g : BitVec 8)
  /-- BARA (R129). -/
  | bara (m : Bool) (g : BitVec 8)
  /-- BARW (R129). -/
  | barw (m : Bool) (g : BitVec 8)
  /-- TRAP (R136). -/
  | trap (m : Bool) (i : BitVec 18)
  /-- RDC (R132). -/
  | rdc (m : Bool) (d : BitVec 6) (i : BitVec 12)
  /-- WRC (R132). -/
  | wrc (m : Bool) (a : BitVec 6) (i : BitVec 12)
  /-- SETQUOTA_GIVE (R131). -/
  | setquotaGive (m : Bool) (b : BitVec 6)
  /-- SETQUOTA_QUERY (R131). -/
  | setquotaQuery (m : Bool) (d : BitVec 6)
  /-- SYSV_TID (R132). -/
  | sysvTid (m : Bool) (d : BitVec 6)
  /-- SYSV_LANE (R132). -/
  | sysvLane (m : Bool) (d : BitVec 6)
  /-- SYSV_RANK (R132). -/
  | sysvRank (m : Bool) (d : BitVec 6)
  /-- SYSV_WID (R132). -/
  | sysvWid (m : Bool) (d : BitVec 6)
  /-- SYSV_WGID (R132). -/
  | sysvWgid (m : Bool) (d : BitVec 6)
  /-- SYSV_WGX (R132). -/
  | sysvWgx (m : Bool) (d : BitVec 6)
  /-- SYSV_WGY (R132). -/
  | sysvWgy (m : Bool) (d : BitVec 6)
  /-- SYSV_WGZ (R132). -/
  | sysvWgz (m : Bool) (d : BitVec 6)
  /-- SYSV_ROLE (R132). -/
  | sysvRole (m : Bool) (d : BitVec 6)
  /-- SYSV_CORE (R132). -/
  | sysvCore (m : Bool) (d : BitVec 6)
  /-- SYSV_SLICE (R132). -/
  | sysvSlice (m : Bool) (d : BitVec 6)
  /-- SYSV_LAUNCH (R132). -/
  | sysvLaunch (m : Bool) (d : BitVec 6)
  /-- SYSV_TICK (R132). -/
  | sysvTick (m : Bool) (d : BitVec 6)
  /-- SYSV_GROUPS (R132). -/
  | sysvGroups (m : Bool) (d : BitVec 6)
  /-- SYSV_PART (R132). -/
  | sysvPart (m : Bool) (d : BitVec 6)
  /-- ADD_SCALAR (R144). -/
  | addScalar (m : Bool) (d a b : BitVec 6)
  /-- ADD_VECTOR (R144). -/
  | addVector (m : Bool) (d a b : BitVec 6)
  /-- SUB_SCALAR (R144). -/
  | subScalar (m : Bool) (d a b : BitVec 6)
  /-- SUB_VECTOR (R144). -/
  | subVector (m : Bool) (d a b : BitVec 6)
  /-- AND_SCALAR (R144). -/
  | andScalar (m : Bool) (d a b : BitVec 6)
  /-- AND_VECTOR (R144). -/
  | andVector (m : Bool) (d a b : BitVec 6)
  /-- OR_SCALAR (R144). -/
  | orScalar (m : Bool) (d a b : BitVec 6)
  /-- OR_VECTOR (R144). -/
  | orVector (m : Bool) (d a b : BitVec 6)
  /-- XOR_SCALAR (R144). -/
  | xorScalar (m : Bool) (d a b : BitVec 6)
  /-- XOR_VECTOR (R144). -/
  | xorVector (m : Bool) (d a b : BitVec 6)
  /-- ANDN_SCALAR (R144). -/
  | andnScalar (m : Bool) (d a b : BitVec 6)
  /-- ANDN_VECTOR (R144). -/
  | andnVector (m : Bool) (d a b : BitVec 6)
  /-- ORN_SCALAR (R144). -/
  | ornScalar (m : Bool) (d a b : BitVec 6)
  /-- ORN_VECTOR (R144). -/
  | ornVector (m : Bool) (d a b : BitVec 6)
  /-- SHL_SCALAR (R145). -/
  | shlScalar (m : Bool) (d a b : BitVec 6)
  /-- SHL_VECTOR (R145). -/
  | shlVector (m : Bool) (d a b : BitVec 6)
  /-- SHR_SCALAR (R145). -/
  | shrScalar (m : Bool) (d a b : BitVec 6)
  /-- SHR_VECTOR (R145). -/
  | shrVector (m : Bool) (d a b : BitVec 6)
  /-- SRA_SCALAR (R145). -/
  | sraScalar (m : Bool) (d a b : BitVec 6)
  /-- SRA_VECTOR (R145). -/
  | sraVector (m : Bool) (d a b : BitVec 6)
  /-- ROT_SCALAR (R145). -/
  | rotScalar (m : Bool) (d a b : BitVec 6)
  /-- ROT_VECTOR (R145). -/
  | rotVector (m : Bool) (d a b : BitVec 6)
  /-- MIN_SCALAR (R144). -/
  | minScalar (m : Bool) (d a b : BitVec 6)
  /-- MIN_VECTOR (R144). -/
  | minVector (m : Bool) (d a b : BitVec 6)
  /-- MAX_SCALAR (R144). -/
  | maxScalar (m : Bool) (d a b : BitVec 6)
  /-- MAX_VECTOR (R144). -/
  | maxVector (m : Bool) (d a b : BitVec 6)
  /-- MINN_SCALAR (R144). -/
  | minnScalar (m : Bool) (d a b : BitVec 6)
  /-- MINN_VECTOR (R144). -/
  | minnVector (m : Bool) (d a b : BitVec 6)
  /-- MAXN_SCALAR (R144). -/
  | maxnScalar (m : Bool) (d a b : BitVec 6)
  /-- MAXN_VECTOR (R144). -/
  | maxnVector (m : Bool) (d a b : BitVec 6)
  /-- ABS_SCALAR (R144). -/
  | absScalar (m : Bool) (d a : BitVec 6)
  /-- ABS_VECTOR (R144). -/
  | absVector (m : Bool) (d a : BitVec 6)
  /-- NEG_SCALAR (R144). -/
  | negScalar (m : Bool) (d a : BitVec 6)
  /-- NEG_VECTOR (R144). -/
  | negVector (m : Bool) (d a : BitVec 6)
  /-- ADDSAT_SCALAR (R144). -/
  | addsatScalar (m : Bool) (d a b : BitVec 6)
  /-- ADDSAT_VECTOR (R144). -/
  | addsatVector (m : Bool) (d a b : BitVec 6)
  /-- SUBSAT_SCALAR (R144). -/
  | subsatScalar (m : Bool) (d a b : BitVec 6)
  /-- SUBSAT_VECTOR (R144). -/
  | subsatVector (m : Bool) (d a b : BitVec 6)
  /-- ADDSATN_SCALAR (R144). -/
  | addsatnScalar (m : Bool) (d a b : BitVec 6)
  /-- ADDSATN_VECTOR (R144). -/
  | addsatnVector (m : Bool) (d a b : BitVec 6)
  /-- SUBSATN_SCALAR (R144). -/
  | subsatnScalar (m : Bool) (d a b : BitVec 6)
  /-- SUBSATN_VECTOR (R144). -/
  | subsatnVector (m : Bool) (d a b : BitVec 6)
  /-- ADDI_SCALAR (R146). -/
  | addiScalar (m : Bool) (d a : BitVec 6) (i : BitVec 12)
  /-- ADDI_VECTOR (R146). -/
  | addiVector (m : Bool) (d a : BitVec 6) (i : BitVec 12)
  /-- SHLI_SCALAR (R146). -/
  | shliScalar (m : Bool) (d a : BitVec 6) (n : BitVec 5)
  /-- SHLI_VECTOR (R146). -/
  | shliVector (m : Bool) (d a : BitVec 6) (n : BitVec 5)
  /-- SHRI_SCALAR (R146). -/
  | shriScalar (m : Bool) (d a : BitVec 6) (n : BitVec 5)
  /-- SHRI_VECTOR (R146). -/
  | shriVector (m : Bool) (d a : BitVec 6) (n : BitVec 5)
  /-- SRAI_SCALAR (R146). -/
  | sraiScalar (m : Bool) (d a : BitVec 6) (n : BitVec 5)
  /-- SRAI_VECTOR (R146). -/
  | sraiVector (m : Bool) (d a : BitVec 6) (n : BitVec 5)
  /-- ROTI_SCALAR (R146). -/
  | rotiScalar (m : Bool) (d a : BitVec 6) (n : BitVec 5)
  /-- ROTI_VECTOR (R146). -/
  | rotiVector (m : Bool) (d a : BitVec 6) (n : BitVec 5)
  /-- MUL_SCALAR (R147). -/
  | mulScalar (m : Bool) (d a b : BitVec 6)
  /-- MUL_VECTOR (R147). -/
  | mulVector (m : Bool) (d a b : BitVec 6)
  /-- MULHI_SCALAR (R147). -/
  | mulhiScalar (m : Bool) (d a b : BitVec 6)
  /-- MULHI_VECTOR (R147). -/
  | mulhiVector (m : Bool) (d a b : BitVec 6)
  /-- MULHIN_SCALAR (R147). -/
  | mulhinScalar (m : Bool) (d a b : BitVec 6)
  /-- MULHIN_VECTOR (R147). -/
  | mulhinVector (m : Bool) (d a b : BitVec 6)
  /-- MAD_SCALAR (R147). -/
  | madScalar (m : Bool) (d a b : BitVec 6)
  /-- MAD_VECTOR (R147). -/
  | madVector (m : Bool) (d a b : BitVec 6)
  /-- MULW_SCALAR (R147). -/
  | mulwScalar (m : Bool) (d a b : BitVec 6)
  /-- MULW_VECTOR (R147). -/
  | mulwVector (m : Bool) (d a b : BitVec 6)
  /-- MULWN_SCALAR (R147). -/
  | mulwnScalar (m : Bool) (d a b : BitVec 6)
  /-- MULWN_VECTOR (R147). -/
  | mulwnVector (m : Bool) (d a b : BitVec 6)
  /-- DIV_SCALAR (R148). -/
  | divScalar (m : Bool) (d a b : BitVec 6)
  /-- DIV_VECTOR (R148). -/
  | divVector (m : Bool) (d a b : BitVec 6)
  /-- DIVN_SCALAR (R148). -/
  | divnScalar (m : Bool) (d a b : BitVec 6)
  /-- DIVN_VECTOR (R148). -/
  | divnVector (m : Bool) (d a b : BitVec 6)
  /-- REM_SCALAR (R148). -/
  | remScalar (m : Bool) (d a b : BitVec 6)
  /-- REM_VECTOR (R148). -/
  | remVector (m : Bool) (d a b : BitVec 6)
  /-- REMN_SCALAR (R148). -/
  | remnScalar (m : Bool) (d a b : BitVec 6)
  /-- REMN_VECTOR (R148). -/
  | remnVector (m : Bool) (d a b : BitVec 6)
  /-- POPC_SCALAR (R149). -/
  | popcScalar (m : Bool) (d a : BitVec 6)
  /-- POPC_VECTOR (R149). -/
  | popcVector (m : Bool) (d a : BitVec 6)
  /-- CLZ_SCALAR (R149). -/
  | clzScalar (m : Bool) (d a : BitVec 6)
  /-- CLZ_VECTOR (R149). -/
  | clzVector (m : Bool) (d a : BitVec 6)
  /-- CTZ_SCALAR (R149). -/
  | ctzScalar (m : Bool) (d a : BitVec 6)
  /-- CTZ_VECTOR (R149). -/
  | ctzVector (m : Bool) (d a : BitVec 6)
  /-- BREV_SCALAR (R149). -/
  | brevScalar (m : Bool) (d a : BitVec 6)
  /-- BREV_VECTOR (R149). -/
  | brevVector (m : Bool) (d a : BitVec 6)
  /-- BFX_SCALAR (R149). -/
  | bfxScalar (m : Bool) (d a b : BitVec 6)
  /-- BFX_VECTOR (R149). -/
  | bfxVector (m : Bool) (d a b : BitVec 6)
  /-- BFXN_SCALAR (R149). -/
  | bfxnScalar (m : Bool) (d a b : BitVec 6)
  /-- BFXN_VECTOR (R149). -/
  | bfxnVector (m : Bool) (d a b : BitVec 6)
  /-- BFI_SCALAR (R149). -/
  | bfiScalar (m : Bool) (d a b : BitVec 6)
  /-- BFI_VECTOR (R149). -/
  | bfiVector (m : Bool) (d a b : BitVec 6)
  /-- BSWAP_SCALAR (R149). -/
  | bswapScalar (m : Bool) (d a : BitVec 6)
  /-- BSWAP_VECTOR (R149). -/
  | bswapVector (m : Bool) (d a : BitVec 6)
  /-- CMP_SCALAR (R151). -/
  | cmpScalar (m : Bool) (mm : BitVec 2) (c : BitVec 4) (d : BitVec 3) (a b : BitVec 6)
  /-- CMP_VECTOR (R151). -/
  | cmpVector (m : Bool) (mm : BitVec 2) (c : BitVec 4) (r k : BitVec 1) (d : BitVec 3) (a b : BitVec 6)
  /-- CMPI_SCALAR (R152). -/
  | cmpiScalar (m : Bool) (d : BitVec 3) (a : BitVec 6) (c : BitVec 4) (i : BitVec 8)
  /-- CMPI_VECTOR (R152). -/
  | cmpiVector (m : Bool) (r k : BitVec 1) (d : BitVec 3) (a : BitVec 6) (c : BitVec 4) (i : BitVec 8)
  /-- SEL_SCALAR (R153). -/
  | selScalar (m : Bool) (n : BitVec 1) (p : BitVec 3) (d a b : BitVec 6)
  /-- SEL_VECTOR (R153). -/
  | selVector (m : Bool) (n k : BitVec 1) (p : BitVec 3) (d a b : BitVec 6)
  /-- MOVI_SCALAR (R154). -/
  | moviScalar (m : Bool) (d : BitVec 6) (i : BitVec 18)
  /-- MOVI_VECTOR (R154). -/
  | moviVector (m : Bool) (d : BitVec 6) (i : BitVec 18)
  /-- MOVHI_SCALAR (R154). -/
  | movhiScalar (m : Bool) (d : BitVec 6) (i : BitVec 18)
  /-- MOVHI_VECTOR (R154). -/
  | movhiVector (m : Bool) (d : BitVec 6) (i : BitVec 18)
  /-- MOVL_SCALAR (R155). -/
  | movlScalar (m : Bool) (d : BitVec 6) (lit : BitVec 32)
  /-- MOVL_VECTOR (R155). -/
  | movlVector (m : Bool) (d : BitVec 6) (t : BitVec 4) (lit : BitVec 32)
  /-- ADDL_SCALAR (R155). -/
  | addlScalar (m : Bool) (d a : BitVec 6) (lit : BitVec 32)
  /-- ADDL_VECTOR (R155). -/
  | addlVector (m : Bool) (d a : BitVec 6) (lit : BitVec 32)
  /-- ANDL_SCALAR (R155). -/
  | andlScalar (m : Bool) (d a : BitVec 6) (lit : BitVec 32)
  /-- ANDL_VECTOR (R155). -/
  | andlVector (m : Bool) (d a : BitVec 6) (lit : BitVec 32)
  /-- ORL_SCALAR (R155). -/
  | orlScalar (m : Bool) (d a : BitVec 6) (lit : BitVec 32)
  /-- ORL_VECTOR (R155). -/
  | orlVector (m : Bool) (d a : BitVec 6) (lit : BitVec 32)
  /-- CMPL_SCALAR (R155). -/
  | cmplScalar (m : Bool) (d : BitVec 3) (a : BitVec 6) (mm : BitVec 2) (c : BitVec 4) (lit : BitVec 32)
  /-- CMPL_VECTOR (R155). -/
  | cmplVector (m : Bool) (r k : BitVec 1) (d : BitVec 3) (a : BitVec 6) (mm : BitVec 2) (c : BitVec 4) (lit : BitVec 32)
  /-- MOV_SCALAR (R156). -/
  | movScalar (m : Bool) (d a : BitVec 6)
  /-- MOV_VECTOR (R156). -/
  | movVector (m : Bool) (d a : BitVec 6)
  /-- MOVSV (R156). -/
  | movsv (m : Bool) (d a : BitVec 6) (t : BitVec 4)
  /-- MOVVS (R156). -/
  | movvs (m : Bool) (d a : BitVec 6)
  /-- MOVP_SCALAR (R156). -/
  | movpScalar (m : Bool) (d a : BitVec 3) (n : BitVec 1)
  /-- MOVP_VECTOR (R156). -/
  | movpVector (m : Bool) (d : BitVec 3) (k : BitVec 1) (a : BitVec 3) (n : BitVec 1)
  /-- LEA_SCALAR (R157). -/
  | leaScalar (m : Bool) (h : BitVec 3) (d a b : BitVec 6)
  /-- LEA_VECTOR (R157). -/
  | leaVector (m : Bool) (h : BitVec 3) (d a b : BitVec 6)
  /-- ADD64_SCALAR (R158). -/
  | add64Scalar (m : Bool) (d a b : BitVec 6)
  /-- ADD64_VECTOR (R158). -/
  | add64Vector (m : Bool) (d a b : BitVec 6)
  /-- SUB64_SCALAR (R158). -/
  | sub64Scalar (m : Bool) (d a b : BitVec 6)
  /-- SUB64_VECTOR (R158). -/
  | sub64Vector (m : Bool) (d a b : BitVec 6)
  /-- CMP64_SCALAR (R158). -/
  | cmp64Scalar (m : Bool) (d a b : BitVec 6)
  /-- CMP64_VECTOR (R158). -/
  | cmp64Vector (m : Bool) (d a b : BitVec 6)
  /-- SHL64_SCALAR (R158). -/
  | shl64Scalar (m : Bool) (d a b : BitVec 6)
  /-- SHL64_VECTOR (R158). -/
  | shl64Vector (m : Bool) (d a b : BitVec 6)
  /-- SHR64_SCALAR (R158). -/
  | shr64Scalar (m : Bool) (d a b : BitVec 6)
  /-- SHR64_VECTOR (R158). -/
  | shr64Vector (m : Bool) (d a b : BitVec 6)
  /-- MUL64_SCALAR (R158). -/
  | mul64Scalar (m : Bool) (d a b : BitVec 6)
  /-- MUL64_VECTOR (R158). -/
  | mul64Vector (m : Bool) (d a b : BitVec 6)
  /-- FADD (R166). -/
  | fadd (m : Bool) (d a b : BitVec 6)
  /-- FSUB (R166). -/
  | fsub (m : Bool) (d a b : BitVec 6)
  /-- FMUL (R166). -/
  | fmul (m : Bool) (d a b : BitVec 6)
  /-- FMIN (R166). -/
  | fmin (m : Bool) (d a b : BitVec 6)
  /-- FMAX (R166). -/
  | fmax (m : Bool) (d a b : BitVec 6)
  /-- FMINNUM (R166). -/
  | fminnum (m : Bool) (d a b : BitVec 6)
  /-- FMAXNUM (R166). -/
  | fmaxnum (m : Bool) (d a b : BitVec 6)
  /-- FCPYS (R166). -/
  | fcpys (m : Bool) (d a b : BitVec 6)
  /-- FSCALE (R167). -/
  | fscale (m : Bool) (d a b : BitVec 6)
  /-- FMA (R168). -/
  | fma (m : Bool) (d a b : BitVec 6)
  /-- FMS (R168). -/
  | fms (m : Bool) (d a b : BitVec 6)
  /-- FNMA (R168). -/
  | fnma (m : Bool) (d a b : BitVec 6)
  /-- FNMS (R168). -/
  | fnms (m : Bool) (d a b : BitVec 6)
  /-- FCMP (R169). -/
  | fcmp (m : Bool) (mm : BitVec 2) (c : BitVec 4) (r k : BitVec 1) (d : BitVec 3) (a b : BitVec 6)
  /-- FABS (R171). -/
  | fabs (m : Bool) (d a : BitVec 6)
  /-- FNEG (R171). -/
  | fneg (m : Bool) (d a : BitVec 6)
  /-- FCLASS (R170). -/
  | fclass (m : Bool) (d a : BitVec 6)
  /-- FRND (R171). -/
  | frnd (m : Bool) (d a : BitVec 6)
  /-- FRCP (R172). -/
  | frcp (m : Bool) (d a : BitVec 6)
  /-- FRSQ (R172). -/
  | frsq (m : Bool) (d a : BitVec 6)
  /-- FSQRT (R172). -/
  | fsqrt (m : Bool) (d a : BitVec 6)
  /-- FEXP2 (R172). -/
  | fexp2 (m : Bool) (d a : BitVec 6)
  /-- FLOG2 (R172). -/
  | flog2 (m : Bool) (d a : BitVec 6)
  /-- FSIN (R172). -/
  | fsin (m : Bool) (d a : BitVec 6)
  /-- FCOS (R172). -/
  | fcos (m : Bool) (d a : BitVec 6)
  /-- FTANH (R172). -/
  | ftanh (m : Bool) (d a : BitVec 6)
  /-- FSIG (R172). -/
  | fsig (m : Bool) (d a : BitVec 6)
  /-- FDIV (R172). -/
  | fdiv (m : Bool) (d a b : BitVec 6)
  /-- DOT2 (R173). -/
  | dot2 (m : Bool) (d a b : BitVec 6)
  /-- DOT4 (R173). -/
  | dot4 (m : Bool) (d a b : BitVec 6)
  /-- DOT8 (R173). -/
  | dot8 (m : Bool) (d a b : BitVec 6)
  /-- CVT (R175). -/
  | cvt (m : Bool) (p : BitVec 2) (t : BitVec 4) (d a : BitVec 6)
  /-- CVTI (R176). -/
  | cvti (m : Bool) (p : BitVec 2) (t : BitVec 4) (d a : BitVec 6) (u : BitVec 1)
  /-- CVTF (R177). -/
  | cvtf (m : Bool) (p : BitVec 2) (t : BitVec 4) (d a : BitVec 6) (u : BitVec 1)
  /-- QNT (R179). -/
  | qnt (m : Bool) (h : BitVec 1) (d a b : BitVec 6)
  /-- DQNT (R180). -/
  | dqnt (m : Bool) (h : BitVec 1) (t : BitVec 4) (d a b : BitVec 6)
  /-- PACK (R178). -/
  | pack (m : Bool) (d a b : BitVec 6)
  /-- UNPACKLO (R178). -/
  | unpacklo (m : Bool) (d a : BitVec 6)
  /-- UNPACKHI (R178). -/
  | unpackhi (m : Bool) (d a : BitVec 6)
  /-- RETAG (R181). -/
  | retag (m : Bool) (d a : BitVec 6) (t : BitVec 4)
  /-- TAGQ (R182). -/
  | tagq (m : Bool) (d a : BitVec 6)
  /-- XPREV (R195). -/
  | xprev (m : Bool) (c : BitVec 1) (d a b : BitVec 6)
  /-- XIDX (R195). -/
  | xidx (m : Bool) (d a b : BitVec 6)
  /-- XBC (R195). -/
  | xbc (m : Bool) (l : BitVec 1) (d a b : BitVec 6)
  /-- XSCAN (R196). -/
  | xscan (m : Bool) (x : BitVec 1) (o : BitVec 3) (d a : BitVec 6)
  /-- XRED (R196). -/
  | xred (m : Bool) (x : BitVec 1) (o : BitVec 3) (d a : BitVec 6)
  /-- VOTE_BALLOT (R198). -/
  | voteBallot (m : Bool) (n : BitVec 1) (d a : BitVec 6)
  /-- VOTE_ANY (R198). -/
  | voteAny (m : Bool) (n : BitVec 1) (d : BitVec 3) (a : BitVec 6)
  /-- VOTE_ALL (R198). -/
  | voteAll (m : Bool) (n : BitVec 1) (d : BitVec 3) (a : BitVec 6)
  /-- MATCH (R199). -/
  | matchOp (m : Bool) (d a : BitVec 6) (c : BitVec 1)
  /-- MATCHF (R199). -/
  | matchf (m : Bool) (d a : BitVec 6) (c : BitVec 1)
  /-- XSWZ_LANE (R197). -/
  | xswzLane (m : Bool) (d a : BitVec 6) (l : BitVec 8)
  /-- XSWZ_RX (R197). -/
  | xswzRx (m : Bool) (d a : BitVec 6) (mm : BitVec 5)
  /-- XSWZ_REV (R197). -/
  | xswzRev (m : Bool) (d a : BitVec 6)
  /-- LDG (R200). -/
  | ldg (m : Bool) (h : BitVec 2) (c : BitVec 1) (w : BitVec 3) (d a b : BitVec 6)
  /-- STG (R200). -/
  | stg (m : Bool) (h : BitVec 2) (c : BitVec 1) (w : BitVec 3) (d a b : BitVec 6)
  /-- LDGX (R200). -/
  | ldgx (m : Bool) (h : BitVec 2) (w : BitVec 3) (d a : BitVec 6) (t : BitVec 4)
  /-- STGX (R200). -/
  | stgx (m : Bool) (h : BitVec 2) (w : BitVec 3) (d a : BitVec 6)
  /-- LDS (R200). -/
  | lds (m : Bool) (c : BitVec 1) (w : BitVec 3) (d a b : BitVec 6)
  /-- STS (R200). -/
  | sts (m : Bool) (c : BitVec 1) (w : BitVec 3) (d a b : BitVec 6)
  /-- LDU (R200). -/
  | ldu (m : Bool) (h : BitVec 2) (c : BitVec 1) (w : BitVec 3) (d a b : BitVec 6)
  /-- STU (R200). -/
  | stu (m : Bool) (h : BitVec 2) (c : BitVec 1) (w : BitVec 3) (d a b : BitVec 6)
  /-- LDP (R201). -/
  | ldp (m : Bool) (w : BitVec 3) (d a b : BitVec 6)
  /-- STP (R201). -/
  | stp (m : Bool) (w : BitVec 3) (d a b : BitVec 6)
  /-- ATOM (R204). -/
  | atom (m : Bool) (x r : BitVec 1) (o : BitVec 4) (d a : BitVec 6) (k : BitVec 2) (c : BitVec 3)
  /-- ATOMS (R204). -/
  | atoms (m : Bool) (x r : BitVec 1) (o : BitVec 4) (d a : BitVec 6) (k : BitVec 2) (c : BitVec 3)
  /-- CAS (R205). -/
  | cas (m : Bool) (y x : BitVec 1) (d a : BitVec 6) (k : BitVec 2) (c : BitVec 3)
  /-- FATOM (R206). -/
  | fatom (m : Bool) (y r : BitVec 1) (o : BitVec 2) (d a : BitVec 6) (k : BitVec 2) (c : BitVec 3)
  /-- LDA (R207). -/
  | lda (m : Bool) (y : BitVec 1) (w : BitVec 3) (d a : BitVec 6) (c : BitVec 3)
  /-- STREL (R207). -/
  | strel (m : Bool) (y : BitVec 1) (w : BitVec 3) (d a : BitVec 6) (c : BitVec 3)
  /-- FENCE (R208). -/
  | fence (m : Bool) (k : BitVec 2) (c : BitVec 3)
  /-- PREF (R209). -/
  | pref (m : Bool) (c l : BitVec 1) (a b : BitVec 6)
  /-- CMAINT (R210). -/
  | cmaint (m : Bool) (l v : BitVec 1) (a b : BitVec 6)
  /-- RDRAIN (R211). -/
  | rdrain (m : Bool) (l : BitVec 1) (a : BitVec 6)
  /-- TDEF (R220). -/
  | tdef (m : Bool) (k : BitVec 2) (t : BitVec 4) (d : BitVec 5) (a b : BitVec 6)
  /-- TFREE (R222). -/
  | tfree (m : Bool) (a : BitVec 5)
  /-- TSTATE (R223). -/
  | tstate (m : Bool) (d : BitVec 6) (a : BitVec 5)
  /-- TWAIT (R223). -/
  | twait (m : Bool) (a : BitVec 5)
  /-- CLAIM (R221). -/
  | claim (m : Bool) (a : BitVec 5)
  /-- CLAIMT (R221). -/
  | claimt (m : Bool) (d : BitVec 3) (a : BitVec 5)
  /-- RELEASE (R222). -/
  | release (m : Bool) (a : BitVec 5)
  /-- CPY (R229). -/
  | cpy (m : Bool) (x : BitVec 1) (e : BitVec 3) (d a : BitVec 5) (b : BitVec 6)
  /-- CPYG (R232). -/
  | cpyg (m : Bool) (y x z : BitVec 1) (e : BitVec 3) (d : BitVec 5) (a : BitVec 4)
  /-- MMA (R234). -/
  | mma (m : Bool) (d a b : BitVec 5)
  /-- MMAZ (R234). -/
  | mmaz (m : Bool) (d a b : BitVec 5)
  /-- ACCRD (R239). -/
  | accrd (m : Bool) (d : BitVec 6) (a : BitVec 5) (b : BitVec 6)
  /-- ACCRDC (R239). -/
  | accrdc (m : Bool) (d : BitVec 6) (a : BitVec 5) (b : BitVec 6)
  /-- ACCWR (R239). -/
  | accwr (m : Bool) (d : BitVec 5) (a b : BitVec 6)
  /-- ACCZ (R239). -/
  | accz (m : Bool) (d : BitVec 5)
  /-- ACCMAX (R239). -/
  | accmax (m : Bool) (d : BitVec 6) (a : BitVec 5)
  /-- ACCSUM (R239). -/
  | accsum (m : Bool) (d : BitVec 6) (a : BitVec 5)
  /-- ACCEXP (R240). -/
  | accexp (m : Bool) (d : BitVec 5) (a b : BitVec 6)
  /-- ACCSCL (R239). -/
  | accscl (m : Bool) (d : BitVec 5) (a : BitVec 6)
  /-- ACCMASK (R241). -/
  | accmask (m : Bool) (d : BitVec 5) (a b : BitVec 6)
  /-- MFENCE (R237). -/
  | mfence (m : Bool) (l : BitVec 1) (a : BitVec 5)
  /-- QFENCE (R228). -/
  | qfence (m : Bool) (mm : BitVec 8)
  /-- COLL (R244). -/
  | coll (m : Bool) (x : BitVec 1) (e : BitVec 3) (a : BitVec 6) (b : BitVec 5)
  /-- COLLI (R242). -/
  | colli (m : Bool) (d a : BitVec 6)
  /-- WSET (R253). -/
  | wset (m : Bool) (n : BitVec 4) (d : BitVec 6) (a : BitVec 3)
  /-- WCLR (R257). -/
  | wclr (m : Bool) (a : BitVec 6)
  /-- WSTAT (R257). -/
  | wstat (m : Bool) (d a : BitVec 6)
  /-- WARM (R257). -/
  | warm (m : Bool) (a b : BitVec 6)
  /-- HREAD (R260). -/
  | hread (m : Bool) (mm : BitVec 3) (d a b : BitVec 6)
  /-- HWRITE (R260). -/
  | hwrite (m : Bool) (mm : BitVec 3) (d a b : BitVec 6)
  /-- HSTOP (R262). -/
  | hstop (m : Bool) (a b : BitVec 6)
  /-- HSTEP (R263). -/
  | hstep (m : Bool) (a b : BitVec 6)
  /-- HRESUME (R265). -/
  | hresume (m : Bool) (a b : BitVec 6)
  /-- INVLP (R266). -/
  | invlp (m : Bool) (a b : BitVec 6)
  /-- TLBINV (R266). -/
  | tlbinv (m : Bool) (a : BitVec 6)
  /-- PMREAD (R268). -/
  | pmread (m : Bool) (d a : BitVec 6)
  /-- TRACEM (R270). -/
  | tracem (m : Bool) (a b : BitVec 6)
  /-- RPCHK (R271). -/
  | rpchk (m : Bool) (a : BitVec 6)
  deriving DecidableEq, Repr

end Sys2Proof
end

