-- ==== Sys2Proof/Config.lean ====
section
/-! DEFINITION. What an implementation fixes and the spec leaves open: free values with no body, so that no proof can
see them. Each is named in the assumption log. -/

namespace Sys2Proof.Config

/-- The ticks, beyond the least the spec gives, that the n-th open latency takes (R91, R224, R344: the spec bounds few). -/
opaque delay : Nat → Nat
/-- Whether the n-th machine step's word still finds HAZCHK as it was before a write of another warp (R52). -/
opaque lag : Nat → Bool
/-- The n-th choice that the spec leaves to the implementation (R227, R360: an engine, a core, a slot). -/
opaque choice : Nat → Nat
/-- SHA-384 of a list of bytes, 48 bytes (R374, R468, R469). The spec names the function and not its text. -/
opaque sha384 : List Byte → List Byte
/-- The signature of a digest with the device identity key, r then s, 96 bytes (R468). -/
opaque sign : List Byte → List Byte
/-- Whether a key and a signature fit a digest (R374, R470). -/
opaque verify : List Byte → List Byte → List Byte → Bool
/-- The key whose hash the fuses hold (R470). -/
opaque fuseKeyHash : List Byte
/-- DEVID (R471) and the certificate chain of the identity key (R472). -/
opaque devid : DWord
opaque chain : List Byte
/-- Whether a source device's attestation report meets the target's policy (R474). -/
opaque policy : List Byte → Bool
/-- What a byte of HBM deciphers to under a later key than it was enciphered with: the key's number, and its address (R465). -/
opaque decipher : Nat → Nat → Byte
/-- The n-th value of the device's random generator, as a key (R464). -/
opaque random : Nat → Nat
/-- The layout of the 512 bytes of warp state and the 256 bytes
of counts that a dump writes, as functions of the words they show (R442 names what they hold and not where). -/
opaque dumpWords : List Nat → List Byte
/-- The retry time of the n-th BUSY, 2 to 255 us (R412). -/
opaque retry : Nat → Nat
/-- The bytes of the n-th SPDM message that the device sends (R422 names the messages, SPDM 1.3 their bytes). -/
opaque spdm : Nat → List Byte

end Sys2Proof.Config
end

