-- ==== Sys2Proof/WellFormed.lean ====
section
/-! DEFINITION. Which instructions are well formed: the conditions an entry states as ILLEGAL beyond the fixed bits of
its row (R87, R88, R99, R102), and the ranges of the identifiers an event names. -/

namespace Sys2Proof

/-- MODE (R99): no bit in an unselected field, no guard index or sense without GE, RND 0 to 4. -/
def modeOk (d : BitVec 5) (i : BitVec 11) : Bool :=
  (d.getLsbD 0 || i.extractLsb' 0 5 == 0#5) && (d.getLsbD 1 || i.extractLsb' 5 3 == 0#3)
    && (d.getLsbD 2 || !i.getLsbD 8) && (d.getLsbD 3 || !i.getLsbD 9) && (d.getLsbD 4 || !i.getLsbD 10)
    && (!d.getLsbD 0 || i.getLsbD 3 || i.extractLsb' 0 5 == 0#5) && (!d.getLsbD 1 || i.extractLsb' 5 3 < 5#3)

/-- The reduction bit of a vector compare needs a q destination (R151). -/
def redOk (r k : BitVec 1) : Bool := r == 0#1 || k == 1#1

/-- A 32-bit tag code, 0x1 to 0xC (R77, R155, R156). -/
def tag32 (t : BitVec 4) : Bool := 0#4 < t && t < 13#4

/-- A float destination tag of CVT and CVTF (R175, R177). -/
def floatTag (t : BitVec 4) : Bool := (3#4 < t && t < 9#4) || t == 13#4

/-- An integer destination tag of CVTI (R176). -/
def intTag (t : BitVec 4) : Bool := t == 2#4 || t == 3#4 || t == 11#4 || t == 12#4 || t == 14#4

/-- The destination of a w32.x4 access is a multiple of 4 (R187). The pair widths are checked with the registers (R79). -/
def quadOk (w : BitVec 3) (d : BitVec 6) : Bool := w != 7#3 || d % 4#6 == 0#6

/-- A store has no signed width (R187, R193). -/
def storeOk (w : BitVec 3) : Bool := w != 1#3 && w != 3#3

/-- The private widths (R193). -/
def privOk (w : BitVec 3) : Bool := w == 4#3 || w == 6#3 || w == 7#3

/-- The tag codes LDGX allows for a width (R200). -/
def ldgxTag (w : BitVec 3) (t : BitVec 4) : Bool :=
  t == 0#4 || ((w == 4#3 || w == 6#3 || w == 7#3) && t < 13#4) || (w == 5#3 && (t == 1#4 || t == 13#4 || t == 14#4))

/-- A scope code, at most WORKGROUP for a scratchpad form (R202). -/
def scopeOk (scr : BitVec 1) (c : BitVec 3) : Bool := if scr == 1#1 then c < 2#3 else c < 6#3

/-- The tags a tile kind allows (R213, R219). -/
def tileTag (k : BitVec 2) (t : BitVec 4) : Bool :=
  if k == 0#2 then 0#4 < t && t < 13#4 && t != 0xA#4
  else if k == 1#2 then (4#4 < t && t < 10#4) || t == 0xB#4
  else if k == 2#2 then t == 2#4 || t == 4#4 else false

/-- The entry conditions of every instruction, and the ranges of an event's identifiers. -/
def Instr.wellFormed : Instr → Bool
  | .quotaTransferComplete wid => decide (wid < 20480)
  | .longLatencyWrite wid _ _ => decide (wid < 20480)
  | .translationWalk core _ _ _ => decide (core < 160)
  | .zeroingComplete _ => true
  | .frespAnswer part _ _ => decide (part < 16)
  | .frespKick part => decide (part < 16)
  | .shootdownRequest part _ _ => decide (part < 16)
  | .uncorrectableError _ => true
  | .engineEntryStart _ q => decide (q < 8)
  | .copyComplete _ q => decide (q < 8)
  | .mmaStart core _ => decide (core < 160)
  | .mmaComplete core _ => decide (core < 160)
  | .collComplete _ q => decide (q < 8)
  | .seedWrite wid _ => decide (wid < 20480)
  | .controlRegisterWrite wid _ _ => decide (wid < 20480)
  | .moduleReset => true
  | .recoveryImage _ => true
  | .hocpTickLoad _ => true
  | .wakeWrite q _ => decide (q < 1024)
  | .launch q => decide (q < 1024)
  | .xcopy q => decide (q < 1024)
  | .xcopyComplete q _ => decide (q < 1024)
  | .signal q => decide (q < 1024)
  | .cond q => decide (q < 1024)
  | .condReread q => decide (q < 1024)
  | .fencePacket q => decide (q < 1024)
  | .fencePacketComplete q => decide (q < 1024)
  | .waitord q => decide (q < 1024)
  | .contract q => decide (q < 1024)
  | .workgroupPlace _ => true
  | .workgroupRelease _ => true
  | .workgroupRetire _ => true
  | .bind q => decide (q < 1024)
  | .unbind q => decide (q < 1024)
  | .queueStop q => decide (q < 1024)
  | .queueStart q => decide (q < 1024)
  | .queueReset q => decide (q < 1024)
  | .skipOp q => decide (q < 1024)
  | .qcbAudit q => decide (q < 1024)
  | .shadowExchange core => decide (core < 160)
  | .stagingComplete core _ => decide (core < 160)
  | .loadOp _ => true
  | .saveOp _ => true
  | .restore _ => true
  | .discard _ => true
  | .queueHang q => decide (q < 1024)
  | .quiesceDone part => decide (part < 16)
  | .writebackDone part => decide (part < 16)
  | .zeroDone part => decide (part < 16)
  | .replayDone part => decide (part < 16)
  | .clusterRetentionExit c => decide (c < 40)
  | .joinTimeoutExpiry wid _ => decide (wid < 20480)
  | .regangTimeoutExpiry wid _ => decide (wid < 20480)
  | .beatIntervalEnd _ => true
  | .controllerStep _ => true
  | .equinoxGrant part => decide (part < 16)
  | .grantRise _ => true
  | .grantFall _ => true
  | .wcAgeDrain core _ => decide (core < 160)
  | .l1DirtyAgeWriteback core _ => decide (core < 160)
  | .powerEstimate _ _ _ => true
  | .weightRefit _ _ => true
  | .stepChangeRequest c _ => decide (c < 40)
  | .stepChangeDone c => decide (c < 40)
  | .pageAgeScan => true
  | .usageRecordWrite part => decide (part < 16)
  | .timesliceBoundary => true
  | .scheduleStart => true
  | .scheduleStop => true
  | .create part => decide (part < 16)
  | .update part => decide (part < 16)
  | .destroy part => decide (part < 16)
  | .destroyZeroingDone part => decide (part < 16)
  | .resetpart part => decide (part < 16)
  | .generate _ => true
  | .zeroOp _ => true
  | .attestationRequest => true
  | .attestationRequestHocp part _ => decide (part < 16)
  | .stoptickArm _ => true
  | .stoptick => true
  | .coreDumpWrite wid => decide (wid < 20480)
  | .fabidWrite peer => decide (peer < 512)
  | .portcfgWrite port _ => decide (port < 24)
  | .lock port => decide (port < 24)
  | .portStart port => decide (port < 24)
  | .portStop port => decide (port < 24)
  | .keyupdate port => decide (port < 24)
  | .peerLostClear peer => decide (peer < 512)
  | .linkControlWord port _ => decide (port < 24)
  | .linkDown port => decide (port < 24)
  | .spdm port _ => decide (port < 24)
  | .pstate _ _ => true
  | .pathDown _ peer => decide (peer < 512)
  | .peerLost peer => decide (peer < 512)
  | .rd _ => true
  | .rdata _ => true
  | .wr _ => true
  | .wrm _ => true
  | .doneOp _ => true
  | .fabricAtom _ => true
  | .ares _ => true
  | .ticket _ => true
  | .busy _ => true
  | .busyRetry _ peer => decide (peer < 512)
  | .refuse _ => true
  | .notice _ => true
  | .noteack _ => true
  | .planeq _ => true
  | .planea _ => true
  | .beatmrg _ _ _ => true
  | .colld _ => true
  | .systemMemoryAnswer _ _ => true
  | .hocpWrite _ _ => true
  | .hocpBlockTransfer _ _ _ => true
  | .schedulerFault part => decide (part < 16)
  | .parityError _ => true
  | .evictedPageRestore part _ _ _ => decide (part < 16)
  | .firmwareUpdate _ => true
  | .dbgctlWrite _ _ => true
  | .flitDrop port => decide (port < 24)
  | .nop _ => true
  | .yield _ => true
  | .waitall _ => true
  | .exit _ => true
  | .eret _ => true
  | .beat _ => true
  | .beatn _ _ => true
  | .ungang _ => true
  | .getmode _ _ => true
  | .mode _ d i => modeOk d i
  | .bra _ _ => true
  | .call _ _ => true
  | .brq _ _ _ _ => true
  | .brp _ _ _ _ => true
  | .brx _ _ => true
  | .callx _ _ _ => true
  | .ret _ _ => true
  | .brv _ _ => true
  | .join _ _ i => i != 0xFFF#12
  | .regang _ _ _ i => i != 0xFFF#12
  | .bar _ _ => true
  | .bara _ _ => true
  | .barw _ _ => true
  | .trap _ _ => true
  | .rdc _ _ _ => true
  | .wrc _ _ _ => true
  | .setquotaGive _ _ => true
  | .setquotaQuery _ _ => true
  | .sysvTid _ _ => true
  | .sysvLane _ _ => true
  | .sysvRank _ _ => true
  | .sysvWid _ _ => true
  | .sysvWgid _ _ => true
  | .sysvWgx _ _ => true
  | .sysvWgy _ _ => true
  | .sysvWgz _ _ => true
  | .sysvRole _ _ => true
  | .sysvCore _ _ => true
  | .sysvSlice _ _ => true
  | .sysvLaunch _ _ => true
  | .sysvTick _ _ => true
  | .sysvGroups _ _ => true
  | .sysvPart _ _ => true
  | .addScalar _ _ _ _ => true
  | .addVector _ _ _ _ => true
  | .subScalar _ _ _ _ => true
  | .subVector _ _ _ _ => true
  | .andScalar _ _ _ _ => true
  | .andVector _ _ _ _ => true
  | .orScalar _ _ _ _ => true
  | .orVector _ _ _ _ => true
  | .xorScalar _ _ _ _ => true
  | .xorVector _ _ _ _ => true
  | .andnScalar _ _ _ _ => true
  | .andnVector _ _ _ _ => true
  | .ornScalar _ _ _ _ => true
  | .ornVector _ _ _ _ => true
  | .shlScalar _ _ _ _ => true
  | .shlVector _ _ _ _ => true
  | .shrScalar _ _ _ _ => true
  | .shrVector _ _ _ _ => true
  | .sraScalar _ _ _ _ => true
  | .sraVector _ _ _ _ => true
  | .rotScalar _ _ _ _ => true
  | .rotVector _ _ _ _ => true
  | .minScalar _ _ _ _ => true
  | .minVector _ _ _ _ => true
  | .maxScalar _ _ _ _ => true
  | .maxVector _ _ _ _ => true
  | .minnScalar _ _ _ _ => true
  | .minnVector _ _ _ _ => true
  | .maxnScalar _ _ _ _ => true
  | .maxnVector _ _ _ _ => true
  | .absScalar _ _ _ => true
  | .absVector _ _ _ => true
  | .negScalar _ _ _ => true
  | .negVector _ _ _ => true
  | .addsatScalar _ _ _ _ => true
  | .addsatVector _ _ _ _ => true
  | .subsatScalar _ _ _ _ => true
  | .subsatVector _ _ _ _ => true
  | .addsatnScalar _ _ _ _ => true
  | .addsatnVector _ _ _ _ => true
  | .subsatnScalar _ _ _ _ => true
  | .subsatnVector _ _ _ _ => true
  | .addiScalar _ _ _ _ => true
  | .addiVector _ _ _ _ => true
  | .shliScalar _ _ _ _ => true
  | .shliVector _ _ _ _ => true
  | .shriScalar _ _ _ _ => true
  | .shriVector _ _ _ _ => true
  | .sraiScalar _ _ _ _ => true
  | .sraiVector _ _ _ _ => true
  | .rotiScalar _ _ _ _ => true
  | .rotiVector _ _ _ _ => true
  | .mulScalar _ _ _ _ => true
  | .mulVector _ _ _ _ => true
  | .mulhiScalar _ _ _ _ => true
  | .mulhiVector _ _ _ _ => true
  | .mulhinScalar _ _ _ _ => true
  | .mulhinVector _ _ _ _ => true
  | .madScalar _ _ _ _ => true
  | .madVector _ _ _ _ => true
  | .mulwScalar _ _ _ _ => true
  | .mulwVector _ _ _ _ => true
  | .mulwnScalar _ _ _ _ => true
  | .mulwnVector _ _ _ _ => true
  | .divScalar _ _ _ _ => true
  | .divVector _ _ _ _ => true
  | .divnScalar _ _ _ _ => true
  | .divnVector _ _ _ _ => true
  | .remScalar _ _ _ _ => true
  | .remVector _ _ _ _ => true
  | .remnScalar _ _ _ _ => true
  | .remnVector _ _ _ _ => true
  | .popcScalar _ _ _ => true
  | .popcVector _ _ _ => true
  | .clzScalar _ _ _ => true
  | .clzVector _ _ _ => true
  | .ctzScalar _ _ _ => true
  | .ctzVector _ _ _ => true
  | .brevScalar _ _ _ => true
  | .brevVector _ _ _ => true
  | .bfxScalar _ _ _ _ => true
  | .bfxVector _ _ _ _ => true
  | .bfxnScalar _ _ _ _ => true
  | .bfxnVector _ _ _ _ => true
  | .bfiScalar _ _ _ _ => true
  | .bfiVector _ _ _ _ => true
  | .bswapScalar _ _ _ => true
  | .bswapVector _ _ _ => true
  | .cmpScalar _ _ c _ _ _ => c < 10#4
  | .cmpVector _ _ c r k _ _ _ => c < 10#4 && redOk r k
  | .cmpiScalar _ _ _ c _ => c < 10#4
  | .cmpiVector _ r k _ _ c _ => c < 10#4 && redOk r k
  | .selScalar _ _ _ _ _ _ => true
  | .selVector _ _ _ _ _ _ _ => true
  | .moviScalar _ _ _ => true
  | .moviVector _ _ _ => true
  | .movhiScalar _ _ _ => true
  | .movhiVector _ _ _ => true
  | .movlScalar _ _ _ => true
  | .movlVector _ _ t _ => tag32 t
  | .addlScalar _ _ _ _ => true
  | .addlVector _ _ _ _ => true
  | .andlScalar _ _ _ _ => true
  | .andlVector _ _ _ _ => true
  | .orlScalar _ _ _ _ => true
  | .orlVector _ _ _ _ => true
  | .cmplScalar _ _ _ _ c _ => c < 10#4
  | .cmplVector _ r k _ _ _ c _ => c < 10#4 && redOk r k
  | .movScalar _ _ _ => true
  | .movVector _ _ _ => true
  | .movsv _ _ _ t => tag32 t
  | .movvs _ _ _ => true
  | .movpScalar _ _ _ _ => true
  | .movpVector _ _ _ _ _ => true
  | .leaScalar _ _ _ _ _ => true
  | .leaVector _ _ _ _ _ => true
  | .add64Scalar _ _ _ _ => true
  | .add64Vector _ _ _ _ => true
  | .sub64Scalar _ _ _ _ => true
  | .sub64Vector _ _ _ _ => true
  | .cmp64Scalar _ _ _ _ => true
  | .cmp64Vector _ _ _ _ => true
  | .shl64Scalar _ _ _ _ => true
  | .shl64Vector _ _ _ _ => true
  | .shr64Scalar _ _ _ _ => true
  | .shr64Vector _ _ _ _ => true
  | .mul64Scalar _ _ _ _ => true
  | .mul64Vector _ _ _ _ => true
  | .fadd _ _ _ _ => true
  | .fsub _ _ _ _ => true
  | .fmul _ _ _ _ => true
  | .fmin _ _ _ _ => true
  | .fmax _ _ _ _ => true
  | .fminnum _ _ _ _ => true
  | .fmaxnum _ _ _ _ => true
  | .fcpys _ _ _ _ => true
  | .fscale _ _ _ _ => true
  | .fma _ _ _ _ => true
  | .fms _ _ _ _ => true
  | .fnma _ _ _ _ => true
  | .fnms _ _ _ _ => true
  | .fcmp _ _ c r k _ _ _ => c < 8#4 && redOk r k
  | .fabs _ _ _ => true
  | .fneg _ _ _ => true
  | .fclass _ _ _ => true
  | .frnd _ _ _ => true
  | .frcp _ _ _ => true
  | .frsq _ _ _ => true
  | .fsqrt _ _ _ => true
  | .fexp2 _ _ _ => true
  | .flog2 _ _ _ => true
  | .fsin _ _ _ => true
  | .fcos _ _ _ => true
  | .ftanh _ _ _ => true
  | .fsig _ _ _ => true
  | .fdiv _ _ _ _ => true
  | .dot2 _ _ _ _ => true
  | .dot4 _ _ _ _ => true
  | .dot8 _ _ _ _ => true
  | .cvt _ _ t _ _ => floatTag t
  | .cvti _ _ t _ _ u => intTag t && (u == 0#1 || t == 0xB#4 || t == 0xC#4)
  | .cvtf _ _ t _ _ _ => floatTag t
  | .qnt _ _ _ a _ => a % 8#6 == 0#6
  | .dqnt _ _ t d _ _ => (t == 4#4 && d % 8#6 == 0#6) || ((t == 5#4 || t == 6#4) && d % 4#6 == 0#6)
  | .pack _ _ _ _ => true
  | .unpacklo _ _ _ => true
  | .unpackhi _ _ _ => true
  | .retag _ _ _ t => t != 0#4 && t != 0xF#4
  | .tagq _ _ _ => true
  | .xprev _ _ _ _ _ => true
  | .xidx _ _ _ _ => true
  | .xbc _ l _ _ b => l == 0#1 || b == 0#6
  | .xscan _ _ _ _ _ => true
  | .xred _ _ _ _ _ => true
  | .voteBallot _ _ d a => a < 8#6 && d < 62#6
  | .voteAny _ _ _ a => a < 8#6
  | .voteAll _ _ _ a => a < 8#6
  | .matchOp _ _ _ _ => true
  | .matchf _ _ _ _ => true
  | .xswzLane _ _ _ _ => true
  | .xswzRx _ _ _ _ => true
  | .xswzRev _ _ _ => true
  | .ldg _ _ _ w d _ _ => quadOk w d
  | .stg _ _ _ w d _ _ => quadOk w d && storeOk w
  | .ldgx _ _ w d _ t => quadOk w d && ldgxTag w t
  | .stgx _ _ w d _ => quadOk w d && storeOk w
  | .lds _ _ w d _ _ => quadOk w d
  | .sts _ _ w d _ _ => quadOk w d && storeOk w
  | .ldu _ _ _ w d _ _ => quadOk w d
  | .stu _ _ _ w d _ _ => quadOk w d && storeOk w
  | .ldp _ w d _ _ => quadOk w d && privOk w
  | .stp _ w d _ _ => quadOk w d && privOk w
  | .atom _ _ _ o _ _ _ c => o < 12#4 && c < 6#3
  | .atoms _ _ _ o _ _ _ c => o < 12#4 && c < 2#3
  | .cas _ y x d _ _ c => scopeOk y c && (x == 0#1 || d % 4#6 == 0#6)
  | .fatom _ y _ o _ _ _ c => o != 3#2 && scopeOk y c
  | .lda _ y w _ _ c => w < 6#3 && scopeOk y c
  | .strel _ y w _ _ c => w < 6#3 && storeOk w && scopeOk y c
  | .fence _ k c => k != 3#2 && c < 6#3
  | .pref _ _ _ _ _ => true
  | .cmaint _ _ _ _ _ => true
  | .rdrain _ l a => l == 0#1 || a == 0#6
  | .tdef _ k t _ _ _ => tileTag k t
  | .tfree _ _ => true
  | .tstate _ _ _ => true
  | .twait _ _ => true
  | .claim _ _ => true
  | .claimt _ _ _ => true
  | .release _ _ => true
  | .cpy _ _ _ _ _ _ => true
  | .cpyg _ _ x z _ _ _ => x == 0#1 || z == 1#1
  | .mma _ _ _ _ => true
  | .mmaz _ _ _ _ => true
  | .accrd _ _ _ _ => true
  | .accrdc _ _ _ _ => true
  | .accwr _ _ _ _ => true
  | .accz _ _ => true
  | .accmax _ _ _ => true
  | .accsum _ _ _ => true
  | .accexp _ _ _ _ => true
  | .accscl _ _ _ => true
  | .accmask _ _ _ _ => true
  | .mfence _ l a => l == 0#1 || a == 0#5
  | .qfence _ _ => true
  | .coll _ x _ _ b => x == 1#1 || b == 0#5
  | .colli _ _ _ => true
  | .wset _ _ _ _ => true
  | .wclr _ _ => true
  | .wstat _ _ _ => true
  | .warm _ _ _ => true
  | .hread _ _ _ _ _ => true
  | .hwrite _ _ _ _ _ => true
  | .hstop _ _ _ => true
  | .hstep _ _ _ => true
  | .hresume _ _ _ => true
  | .invlp _ _ _ => true
  | .tlbinv _ _ => true
  | .pmread _ _ _ => true
  | .tracem _ _ _ => true
  | .rpchk _ _ => true

end Sys2Proof
end

