-- ==== Sys2Proof/Decode.lean ====
section
/-! DEFINITION. The decoder (R86 to R102), total on any bytes and refusing by name, and the encoder beside it. A word
is a number below 2^32; `w / 2^lo` is the field that begins at bit `lo`. -/

namespace Sys2Proof

/-- Why a word is no instruction (R102). -/
inductive Reject where
  /-- Fewer bytes than the instruction's words. -/
  | short
  /-- Major 0x7F, undefined in every implementation. -/
  | undefinedMajor
  /-- A reserved major (R100). -/
  | reservedMajor
  /-- A reserved form or selector, or a must-be-zero bit that is set. -/
  | reservedForm
  /-- A condition that the instruction's own entry states as ILLEGAL. -/
  | entryCondition
  deriving DecidableEq, Repr

/-- Bits [lo + n - 1 : lo] of a word. -/
def fld (w lo n : Nat) : Nat := w / 2 ^ lo % 2 ^ n

/-- Major 0x00 (R100, R101). -/
def dec00 (w : Nat) (m : Bool) : Option Instr :=
  if fld w 0 24 = 0 then some (.nop m)
  else if fld w 0 24 = 262144 then some (.yield m)
  else if fld w 0 24 = 524288 then some (.waitall m)
  else if fld w 0 24 = 786432 then some (.exit m)
  else if fld w 0 24 = 1048576 then some (.eret m)
  else if fld w 0 24 = 1310720 then some (.beat m)
  else if fld w 0 6 = 0 ∧ fld w 12 12 = 384 then some (.beatn m (.ofNat 6 (w / 2 ^ 6)))
  else if fld w 0 24 = 1835008 then some (.ungang m)
  else if fld w 0 12 = 0 ∧ fld w 18 6 = 8 then some (.getmode m (.ofNat 6 (w / 2 ^ 12)))
  else none

/-- Major 0x01 (R100, R101). -/
def dec01 (w : Nat) (m : Bool) : Option Instr :=
  if fld w 11 7 = 0 ∧ fld w 23 1 = 0 then some (.mode m (.ofNat 5 (w / 2 ^ 18)) (.ofNat 11 (w / 2 ^ 0)))
  else none

/-- Major 0x02 (R100, R101). -/
def dec02 (w : Nat) (m : Bool) : Option Instr :=
  some (.bra m (.ofNat 24 (w / 2 ^ 0)))

/-- Major 0x03 (R100, R101). -/
def dec03 (w : Nat) (m : Bool) : Option Instr :=
  some (.call m (.ofNat 24 (w / 2 ^ 0)))

/-- Major 0x04 (R100, R101). -/
def dec04 (w : Nat) (m : Bool) : Option Instr :=
  if fld w 22 2 = 0 then some (.brq m (.ofNat 1 (w / 2 ^ 21)) (.ofNat 3 (w / 2 ^ 18)) (.ofNat 18 (w / 2 ^ 0)))
  else none

/-- Major 0x05 (R100, R101). -/
def dec05 (w : Nat) (m : Bool) : Option Instr :=
  if fld w 22 2 = 0 then some (.brp m (.ofNat 1 (w / 2 ^ 21)) (.ofNat 3 (w / 2 ^ 18)) (.ofNat 18 (w / 2 ^ 0)))
  else none

/-- Major 0x06 (R100, R101). -/
def dec06 (w : Nat) (m : Bool) : Option Instr :=
  if fld w 0 6 = 0 ∧ fld w 12 12 = 0 then some (.brx m (.ofNat 6 (w / 2 ^ 6)))
  else if fld w 0 6 = 0 ∧ fld w 18 6 = 1 then some (.callx m (.ofNat 6 (w / 2 ^ 12)) (.ofNat 6 (w / 2 ^ 6)))
  else if fld w 0 6 = 0 ∧ fld w 12 12 = 128 then some (.ret m (.ofNat 6 (w / 2 ^ 6)))
  else if fld w 0 6 = 0 ∧ fld w 12 12 = 192 then some (.brv m (.ofNat 6 (w / 2 ^ 6)))
  else none

/-- Major 0x07 (R100, R101). -/
def dec07 (w : Nat) (m : Bool) : Option Instr :=
  if fld w 12 6 = 0 then some (.join m (.ofNat 6 (w / 2 ^ 18)) (.ofNat 12 (w / 2 ^ 0)))
  else none

/-- Major 0x08 (R100, R101). -/
def dec08 (w : Nat) (m : Bool) : Option Instr :=
  some (.regang m (.ofNat 6 (w / 2 ^ 18)) (.ofNat 6 (w / 2 ^ 12)) (.ofNat 12 (w / 2 ^ 0)))

/-- Major 0x09 (R100, R101). -/
def dec09 (w : Nat) (m : Bool) : Option Instr :=
  if fld w 8 16 = 0 then some (.bar m (.ofNat 8 (w / 2 ^ 0)))
  else if fld w 8 16 = 1 then some (.bara m (.ofNat 8 (w / 2 ^ 0)))
  else if fld w 8 16 = 2 then some (.barw m (.ofNat 8 (w / 2 ^ 0)))
  else none

/-- Major 0x0A (R100, R101). -/
def dec0A (w : Nat) (m : Bool) : Option Instr :=
  if fld w 18 6 = 0 then some (.trap m (.ofNat 18 (w / 2 ^ 0)))
  else none

/-- Major 0x0B (R100, R101). -/
def dec0B (w : Nat) (m : Bool) : Option Instr :=
  if fld w 12 6 = 0 then some (.rdc m (.ofNat 6 (w / 2 ^ 18)) (.ofNat 12 (w / 2 ^ 0)))
  else none

/-- Major 0x0C (R100, R101). -/
def dec0C (w : Nat) (m : Bool) : Option Instr :=
  if fld w 18 6 = 0 then some (.wrc m (.ofNat 6 (w / 2 ^ 12)) (.ofNat 12 (w / 2 ^ 0)))
  else none

/-- Major 0x0D (R100, R101). -/
def dec0D (w : Nat) (m : Bool) : Option Instr :=
  if fld w 6 18 = 0 then some (.setquotaGive m (.ofNat 6 (w / 2 ^ 0)))
  else if fld w 0 12 = 0 ∧ fld w 18 6 = 1 then some (.setquotaQuery m (.ofNat 6 (w / 2 ^ 12)))
  else none

/-- Major 0x0E (R100, R101). -/
def dec0E (w : Nat) (m : Bool) : Option Instr :=
  if fld w 0 12 = 0 ∧ fld w 18 6 = 0 then some (.sysvTid m (.ofNat 6 (w / 2 ^ 12)))
  else if fld w 0 12 = 0 ∧ fld w 18 6 = 1 then some (.sysvLane m (.ofNat 6 (w / 2 ^ 12)))
  else if fld w 0 12 = 0 ∧ fld w 18 6 = 2 then some (.sysvRank m (.ofNat 6 (w / 2 ^ 12)))
  else if fld w 0 12 = 0 ∧ fld w 18 6 = 3 then some (.sysvWid m (.ofNat 6 (w / 2 ^ 12)))
  else if fld w 0 12 = 0 ∧ fld w 18 6 = 4 then some (.sysvWgid m (.ofNat 6 (w / 2 ^ 12)))
  else if fld w 0 12 = 0 ∧ fld w 18 6 = 5 then some (.sysvWgx m (.ofNat 6 (w / 2 ^ 12)))
  else if fld w 0 12 = 0 ∧ fld w 18 6 = 6 then some (.sysvWgy m (.ofNat 6 (w / 2 ^ 12)))
  else if fld w 0 12 = 0 ∧ fld w 18 6 = 7 then some (.sysvWgz m (.ofNat 6 (w / 2 ^ 12)))
  else if fld w 0 12 = 0 ∧ fld w 18 6 = 8 then some (.sysvRole m (.ofNat 6 (w / 2 ^ 12)))
  else if fld w 0 12 = 0 ∧ fld w 18 6 = 9 then some (.sysvCore m (.ofNat 6 (w / 2 ^ 12)))
  else if fld w 0 12 = 0 ∧ fld w 18 6 = 10 then some (.sysvSlice m (.ofNat 6 (w / 2 ^ 12)))
  else if fld w 0 12 = 0 ∧ fld w 18 6 = 11 then some (.sysvLaunch m (.ofNat 6 (w / 2 ^ 12)))
  else if fld w 0 12 = 0 ∧ fld w 18 6 = 12 then some (.sysvTick m (.ofNat 6 (w / 2 ^ 12)))
  else if fld w 0 12 = 0 ∧ fld w 18 6 = 13 then some (.sysvGroups m (.ofNat 6 (w / 2 ^ 12)))
  else if fld w 0 12 = 0 ∧ fld w 18 6 = 14 then some (.sysvPart m (.ofNat 6 (w / 2 ^ 12)))
  else none

/-- Major 0x10 (R100, R101). -/
def dec10 (w : Nat) (m : Bool) : Option Instr :=
  if fld w 18 6 = 0 then some (.addScalar m (.ofNat 6 (w / 2 ^ 12)) (.ofNat 6 (w / 2 ^ 6)) (.ofNat 6 (w / 2 ^ 0)))
  else if fld w 18 6 = 1 then some (.subScalar m (.ofNat 6 (w / 2 ^ 12)) (.ofNat 6 (w / 2 ^ 6)) (.ofNat 6 (w / 2 ^ 0)))
  else if fld w 18 6 = 2 then some (.andScalar m (.ofNat 6 (w / 2 ^ 12)) (.ofNat 6 (w / 2 ^ 6)) (.ofNat 6 (w / 2 ^ 0)))
  else if fld w 18 6 = 3 then some (.orScalar m (.ofNat 6 (w / 2 ^ 12)) (.ofNat 6 (w / 2 ^ 6)) (.ofNat 6 (w / 2 ^ 0)))
  else if fld w 18 6 = 4 then some (.xorScalar m (.ofNat 6 (w / 2 ^ 12)) (.ofNat 6 (w / 2 ^ 6)) (.ofNat 6 (w / 2 ^ 0)))
  else if fld w 18 6 = 5 then some (.andnScalar m (.ofNat 6 (w / 2 ^ 12)) (.ofNat 6 (w / 2 ^ 6)) (.ofNat 6 (w / 2 ^ 0)))
  else if fld w 18 6 = 6 then some (.ornScalar m (.ofNat 6 (w / 2 ^ 12)) (.ofNat 6 (w / 2 ^ 6)) (.ofNat 6 (w / 2 ^ 0)))
  else if fld w 18 6 = 7 then some (.shlScalar m (.ofNat 6 (w / 2 ^ 12)) (.ofNat 6 (w / 2 ^ 6)) (.ofNat 6 (w / 2 ^ 0)))
  else if fld w 18 6 = 8 then some (.shrScalar m (.ofNat 6 (w / 2 ^ 12)) (.ofNat 6 (w / 2 ^ 6)) (.ofNat 6 (w / 2 ^ 0)))
  else if fld w 18 6 = 9 then some (.sraScalar m (.ofNat 6 (w / 2 ^ 12)) (.ofNat 6 (w / 2 ^ 6)) (.ofNat 6 (w / 2 ^ 0)))
  else if fld w 18 6 = 10 then some (.rotScalar m (.ofNat 6 (w / 2 ^ 12)) (.ofNat 6 (w / 2 ^ 6)) (.ofNat 6 (w / 2 ^ 0)))
  else if fld w 18 6 = 11 then some (.minScalar m (.ofNat 6 (w / 2 ^ 12)) (.ofNat 6 (w / 2 ^ 6)) (.ofNat 6 (w / 2 ^ 0)))
  else if fld w 18 6 = 12 then some (.maxScalar m (.ofNat 6 (w / 2 ^ 12)) (.ofNat 6 (w / 2 ^ 6)) (.ofNat 6 (w / 2 ^ 0)))
  else if fld w 18 6 = 13 then some (.minnScalar m (.ofNat 6 (w / 2 ^ 12)) (.ofNat 6 (w / 2 ^ 6)) (.ofNat 6 (w / 2 ^ 0)))
  else if fld w 18 6 = 14 then some (.maxnScalar m (.ofNat 6 (w / 2 ^ 12)) (.ofNat 6 (w / 2 ^ 6)) (.ofNat 6 (w / 2 ^ 0)))
  else if fld w 0 6 = 0 ∧ fld w 18 6 = 15 then some (.absScalar m (.ofNat 6 (w / 2 ^ 12)) (.ofNat 6 (w / 2 ^ 6)))
  else if fld w 0 6 = 0 ∧ fld w 18 6 = 16 then some (.negScalar m (.ofNat 6 (w / 2 ^ 12)) (.ofNat 6 (w / 2 ^ 6)))
  else if fld w 18 6 = 17 then some (.addsatScalar m (.ofNat 6 (w / 2 ^ 12)) (.ofNat 6 (w / 2 ^ 6)) (.ofNat 6 (w / 2 ^ 0)))
  else if fld w 18 6 = 18 then some (.subsatScalar m (.ofNat 6 (w / 2 ^ 12)) (.ofNat 6 (w / 2 ^ 6)) (.ofNat 6 (w / 2 ^ 0)))
  else if fld w 18 6 = 19 then some (.addsatnScalar m (.ofNat 6 (w / 2 ^ 12)) (.ofNat 6 (w / 2 ^ 6)) (.ofNat 6 (w / 2 ^ 0)))
  else if fld w 18 6 = 20 then some (.subsatnScalar m (.ofNat 6 (w / 2 ^ 12)) (.ofNat 6 (w / 2 ^ 6)) (.ofNat 6 (w / 2 ^ 0)))
  else none

/-- Major 0x11 (R100, R101). -/
def dec11 (w : Nat) (m : Bool) : Option Instr :=
  some (.addiScalar m (.ofNat 6 (w / 2 ^ 18)) (.ofNat 6 (w / 2 ^ 12)) (.ofNat 12 (w / 2 ^ 0)))

/-- Major 0x12 (R100, R101). -/
def dec12 (w : Nat) (m : Bool) : Option Instr :=
  if fld w 5 7 = 0 then some (.shliScalar m (.ofNat 6 (w / 2 ^ 18)) (.ofNat 6 (w / 2 ^ 12)) (.ofNat 5 (w / 2 ^ 0)))
  else if fld w 5 7 = 32 then some (.shriScalar m (.ofNat 6 (w / 2 ^ 18)) (.ofNat 6 (w / 2 ^ 12)) (.ofNat 5 (w / 2 ^ 0)))
  else if fld w 5 7 = 64 then some (.sraiScalar m (.ofNat 6 (w / 2 ^ 18)) (.ofNat 6 (w / 2 ^ 12)) (.ofNat 5 (w / 2 ^ 0)))
  else if fld w 5 7 = 96 then some (.rotiScalar m (.ofNat 6 (w / 2 ^ 18)) (.ofNat 6 (w / 2 ^ 12)) (.ofNat 5 (w / 2 ^ 0)))
  else none

/-- Major 0x13 (R100, R101). -/
def dec13 (w : Nat) (m : Bool) : Option Instr :=
  if fld w 18 6 = 0 then some (.mulScalar m (.ofNat 6 (w / 2 ^ 12)) (.ofNat 6 (w / 2 ^ 6)) (.ofNat 6 (w / 2 ^ 0)))
  else if fld w 18 6 = 1 then some (.mulhiScalar m (.ofNat 6 (w / 2 ^ 12)) (.ofNat 6 (w / 2 ^ 6)) (.ofNat 6 (w / 2 ^ 0)))
  else if fld w 18 6 = 2 then some (.mulhinScalar m (.ofNat 6 (w / 2 ^ 12)) (.ofNat 6 (w / 2 ^ 6)) (.ofNat 6 (w / 2 ^ 0)))
  else if fld w 18 6 = 3 then some (.madScalar m (.ofNat 6 (w / 2 ^ 12)) (.ofNat 6 (w / 2 ^ 6)) (.ofNat 6 (w / 2 ^ 0)))
  else if fld w 18 6 = 4 then some (.mulwScalar m (.ofNat 6 (w / 2 ^ 12)) (.ofNat 6 (w / 2 ^ 6)) (.ofNat 6 (w / 2 ^ 0)))
  else if fld w 18 6 = 5 then some (.mulwnScalar m (.ofNat 6 (w / 2 ^ 12)) (.ofNat 6 (w / 2 ^ 6)) (.ofNat 6 (w / 2 ^ 0)))
  else if fld w 18 6 = 6 then some (.divScalar m (.ofNat 6 (w / 2 ^ 12)) (.ofNat 6 (w / 2 ^ 6)) (.ofNat 6 (w / 2 ^ 0)))
  else if fld w 18 6 = 7 then some (.divnScalar m (.ofNat 6 (w / 2 ^ 12)) (.ofNat 6 (w / 2 ^ 6)) (.ofNat 6 (w / 2 ^ 0)))
  else if fld w 18 6 = 8 then some (.remScalar m (.ofNat 6 (w / 2 ^ 12)) (.ofNat 6 (w / 2 ^ 6)) (.ofNat 6 (w / 2 ^ 0)))
  else if fld w 18 6 = 9 then some (.remnScalar m (.ofNat 6 (w / 2 ^ 12)) (.ofNat 6 (w / 2 ^ 6)) (.ofNat 6 (w / 2 ^ 0)))
  else none

/-- Major 0x14 (R100, R101). -/
noncomputable def dec14 (w : Nat) (m : Bool) : Option Instr :=
  if fld w 0 6 = 0 ∧ fld w 18 6 = 0 then some (.popcScalar m (.ofNat 6 (w / 2 ^ 12)) (.ofNat 6 (w / 2 ^ 6)))
  else if fld w 0 6 = 0 ∧ fld w 18 6 = 1 then some (.clzScalar m (.ofNat 6 (w / 2 ^ 12)) (.ofNat 6 (w / 2 ^ 6)))
  else if fld w 0 6 = 0 ∧ fld w 18 6 = 2 then some (.ctzScalar m (.ofNat 6 (w / 2 ^ 12)) (.ofNat 6 (w / 2 ^ 6)))
  else if fld w 0 6 = 0 ∧ fld w 18 6 = 3 then some (.brevScalar m (.ofNat 6 (w / 2 ^ 12)) (.ofNat 6 (w / 2 ^ 6)))
  else if fld w 18 6 = 4 then some (.bfxScalar m (.ofNat 6 (w / 2 ^ 12)) (.ofNat 6 (w / 2 ^ 6)) (.ofNat 6 (w / 2 ^ 0)))
  else if fld w 18 6 = 5 then some (.bfxnScalar m (.ofNat 6 (w / 2 ^ 12)) (.ofNat 6 (w / 2 ^ 6)) (.ofNat 6 (w / 2 ^ 0)))
  else if fld w 18 6 = 6 then some (.bfiScalar m (.ofNat 6 (w / 2 ^ 12)) (.ofNat 6 (w / 2 ^ 6)) (.ofNat 6 (w / 2 ^ 0)))
  else if fld w 0 6 = 0 ∧ fld w 18 6 = 7 then some (.bswapScalar m (.ofNat 6 (w / 2 ^ 12)) (.ofNat 6 (w / 2 ^ 6)))
  else none

/-- Major 0x15 (R100, R101). -/
noncomputable def dec15 (w : Nat) (m : Bool) : Option Instr :=
  if fld w 15 3 = 0 then some (.cmpScalar m (.ofNat 2 (w / 2 ^ 22)) (.ofNat 4 (w / 2 ^ 18)) (.ofNat 3 (w / 2 ^ 12)) (.ofNat 6 (w / 2 ^ 6)) (.ofNat 6 (w / 2 ^ 0)))
  else none

/-- Major 0x16 (R100, R101). -/
noncomputable def dec16 (w : Nat) (m : Bool) : Option Instr :=
  if fld w 21 3 = 0 then some (.cmpiScalar m (.ofNat 3 (w / 2 ^ 18)) (.ofNat 6 (w / 2 ^ 12)) (.ofNat 4 (w / 2 ^ 8)) (.ofNat 8 (w / 2 ^ 0)))
  else none

/-- Major 0x17 (R100, R101). -/
noncomputable def dec17 (w : Nat) (m : Bool) : Option Instr :=
  if fld w 21 1 = 1 ∧ fld w 23 1 = 0 then some (.selScalar m (.ofNat 1 (w / 2 ^ 22)) (.ofNat 3 (w / 2 ^ 18)) (.ofNat 6 (w / 2 ^ 12)) (.ofNat 6 (w / 2 ^ 6)) (.ofNat 6 (w / 2 ^ 0)))
  else none

/-- Major 0x18 (R100, R101). -/
noncomputable def dec18 (w : Nat) (m : Bool) : Option Instr :=
  some (.moviScalar m (.ofNat 6 (w / 2 ^ 18)) (.ofNat 18 (w / 2 ^ 0)))

/-- Major 0x19 (R100, R101). -/
noncomputable def dec19 (w : Nat) (m : Bool) : Option Instr :=
  some (.movhiScalar m (.ofNat 6 (w / 2 ^ 18)) (.ofNat 18 (w / 2 ^ 0)))

/-- Major 0x1A (R100, R101). -/
noncomputable def dec1A (w lit : Nat) (m : Bool) : Option Instr :=
  if fld w 18 6 = 0 ∧ fld w 0 12 = 0 then some (.movlScalar m (.ofNat 6 (w / 2 ^ 12)) (.ofNat 32 lit))
  else if fld w 18 6 = 1 ∧ fld w 0 6 = 0 then some (.addlScalar m (.ofNat 6 (w / 2 ^ 12)) (.ofNat 6 (w / 2 ^ 6)) (.ofNat 32 lit))
  else if fld w 18 6 = 2 ∧ fld w 0 6 = 0 then some (.andlScalar m (.ofNat 6 (w / 2 ^ 12)) (.ofNat 6 (w / 2 ^ 6)) (.ofNat 32 lit))
  else if fld w 18 6 = 3 ∧ fld w 0 6 = 0 then some (.orlScalar m (.ofNat 6 (w / 2 ^ 12)) (.ofNat 6 (w / 2 ^ 6)) (.ofNat 32 lit))
  else if fld w 18 6 = 4 ∧ fld w 15 3 = 0 then some (.cmplScalar m (.ofNat 3 (w / 2 ^ 12)) (.ofNat 6 (w / 2 ^ 6)) (.ofNat 2 (w / 2 ^ 4)) (.ofNat 4 (w / 2 ^ 0)) (.ofNat 32 lit))
  else none

/-- Major 0x1B (R100, R101). -/
noncomputable def dec1B (w : Nat) (m : Bool) : Option Instr :=
  if fld w 0 6 = 0 ∧ fld w 18 6 = 0 then some (.movScalar m (.ofNat 6 (w / 2 ^ 12)) (.ofNat 6 (w / 2 ^ 6)))
  else if fld w 1 5 = 0 ∧ fld w 9 3 = 0 ∧ fld w 15 9 = 24 then some (.movpScalar m (.ofNat 3 (w / 2 ^ 12)) (.ofNat 3 (w / 2 ^ 6)) (.ofNat 1 (w / 2 ^ 0)))
  else none

/-- Major 0x1C (R100, R101). -/
noncomputable def dec1C (w : Nat) (m : Bool) : Option Instr :=
  if fld w 21 3 = 0 then some (.leaScalar m (.ofNat 3 (w / 2 ^ 18)) (.ofNat 6 (w / 2 ^ 12)) (.ofNat 6 (w / 2 ^ 6)) (.ofNat 6 (w / 2 ^ 0)))
  else none

/-- Major 0x1D (R100, R101). -/
noncomputable def dec1D (w : Nat) (m : Bool) : Option Instr :=
  if fld w 18 6 = 0 then some (.add64Scalar m (.ofNat 6 (w / 2 ^ 12)) (.ofNat 6 (w / 2 ^ 6)) (.ofNat 6 (w / 2 ^ 0)))
  else if fld w 18 6 = 1 then some (.sub64Scalar m (.ofNat 6 (w / 2 ^ 12)) (.ofNat 6 (w / 2 ^ 6)) (.ofNat 6 (w / 2 ^ 0)))
  else if fld w 18 6 = 2 then some (.cmp64Scalar m (.ofNat 6 (w / 2 ^ 12)) (.ofNat 6 (w / 2 ^ 6)) (.ofNat 6 (w / 2 ^ 0)))
  else if fld w 18 6 = 3 then some (.shl64Scalar m (.ofNat 6 (w / 2 ^ 12)) (.ofNat 6 (w / 2 ^ 6)) (.ofNat 6 (w / 2 ^ 0)))
  else if fld w 18 6 = 4 then some (.shr64Scalar m (.ofNat 6 (w / 2 ^ 12)) (.ofNat 6 (w / 2 ^ 6)) (.ofNat 6 (w / 2 ^ 0)))
  else if fld w 18 6 = 5 then some (.mul64Scalar m (.ofNat 6 (w / 2 ^ 12)) (.ofNat 6 (w / 2 ^ 6)) (.ofNat 6 (w / 2 ^ 0)))
  else none

/-- Major 0x20 (R100, R101). -/
def dec20 (w : Nat) (m : Bool) : Option Instr :=
  if fld w 18 6 = 0 then some (.addVector m (.ofNat 6 (w / 2 ^ 12)) (.ofNat 6 (w / 2 ^ 6)) (.ofNat 6 (w / 2 ^ 0)))
  else if fld w 18 6 = 1 then some (.subVector m (.ofNat 6 (w / 2 ^ 12)) (.ofNat 6 (w / 2 ^ 6)) (.ofNat 6 (w / 2 ^ 0)))
  else if fld w 18 6 = 2 then some (.andVector m (.ofNat 6 (w / 2 ^ 12)) (.ofNat 6 (w / 2 ^ 6)) (.ofNat 6 (w / 2 ^ 0)))
  else if fld w 18 6 = 3 then some (.orVector m (.ofNat 6 (w / 2 ^ 12)) (.ofNat 6 (w / 2 ^ 6)) (.ofNat 6 (w / 2 ^ 0)))
  else if fld w 18 6 = 4 then some (.xorVector m (.ofNat 6 (w / 2 ^ 12)) (.ofNat 6 (w / 2 ^ 6)) (.ofNat 6 (w / 2 ^ 0)))
  else if fld w 18 6 = 5 then some (.andnVector m (.ofNat 6 (w / 2 ^ 12)) (.ofNat 6 (w / 2 ^ 6)) (.ofNat 6 (w / 2 ^ 0)))
  else if fld w 18 6 = 6 then some (.ornVector m (.ofNat 6 (w / 2 ^ 12)) (.ofNat 6 (w / 2 ^ 6)) (.ofNat 6 (w / 2 ^ 0)))
  else if fld w 18 6 = 7 then some (.shlVector m (.ofNat 6 (w / 2 ^ 12)) (.ofNat 6 (w / 2 ^ 6)) (.ofNat 6 (w / 2 ^ 0)))
  else if fld w 18 6 = 8 then some (.shrVector m (.ofNat 6 (w / 2 ^ 12)) (.ofNat 6 (w / 2 ^ 6)) (.ofNat 6 (w / 2 ^ 0)))
  else if fld w 18 6 = 9 then some (.sraVector m (.ofNat 6 (w / 2 ^ 12)) (.ofNat 6 (w / 2 ^ 6)) (.ofNat 6 (w / 2 ^ 0)))
  else if fld w 18 6 = 10 then some (.rotVector m (.ofNat 6 (w / 2 ^ 12)) (.ofNat 6 (w / 2 ^ 6)) (.ofNat 6 (w / 2 ^ 0)))
  else if fld w 18 6 = 11 then some (.minVector m (.ofNat 6 (w / 2 ^ 12)) (.ofNat 6 (w / 2 ^ 6)) (.ofNat 6 (w / 2 ^ 0)))
  else if fld w 18 6 = 12 then some (.maxVector m (.ofNat 6 (w / 2 ^ 12)) (.ofNat 6 (w / 2 ^ 6)) (.ofNat 6 (w / 2 ^ 0)))
  else if fld w 18 6 = 13 then some (.minnVector m (.ofNat 6 (w / 2 ^ 12)) (.ofNat 6 (w / 2 ^ 6)) (.ofNat 6 (w / 2 ^ 0)))
  else if fld w 18 6 = 14 then some (.maxnVector m (.ofNat 6 (w / 2 ^ 12)) (.ofNat 6 (w / 2 ^ 6)) (.ofNat 6 (w / 2 ^ 0)))
  else if fld w 0 6 = 0 ∧ fld w 18 6 = 15 then some (.absVector m (.ofNat 6 (w / 2 ^ 12)) (.ofNat 6 (w / 2 ^ 6)))
  else if fld w 0 6 = 0 ∧ fld w 18 6 = 16 then some (.negVector m (.ofNat 6 (w / 2 ^ 12)) (.ofNat 6 (w / 2 ^ 6)))
  else if fld w 18 6 = 17 then some (.addsatVector m (.ofNat 6 (w / 2 ^ 12)) (.ofNat 6 (w / 2 ^ 6)) (.ofNat 6 (w / 2 ^ 0)))
  else if fld w 18 6 = 18 then some (.subsatVector m (.ofNat 6 (w / 2 ^ 12)) (.ofNat 6 (w / 2 ^ 6)) (.ofNat 6 (w / 2 ^ 0)))
  else if fld w 18 6 = 19 then some (.addsatnVector m (.ofNat 6 (w / 2 ^ 12)) (.ofNat 6 (w / 2 ^ 6)) (.ofNat 6 (w / 2 ^ 0)))
  else if fld w 18 6 = 20 then some (.subsatnVector m (.ofNat 6 (w / 2 ^ 12)) (.ofNat 6 (w / 2 ^ 6)) (.ofNat 6 (w / 2 ^ 0)))
  else none

/-- Major 0x21 (R100, R101). -/
def dec21 (w : Nat) (m : Bool) : Option Instr :=
  some (.addiVector m (.ofNat 6 (w / 2 ^ 18)) (.ofNat 6 (w / 2 ^ 12)) (.ofNat 12 (w / 2 ^ 0)))

/-- Major 0x22 (R100, R101). -/
def dec22 (w : Nat) (m : Bool) : Option Instr :=
  if fld w 5 7 = 0 then some (.shliVector m (.ofNat 6 (w / 2 ^ 18)) (.ofNat 6 (w / 2 ^ 12)) (.ofNat 5 (w / 2 ^ 0)))
  else if fld w 5 7 = 32 then some (.shriVector m (.ofNat 6 (w / 2 ^ 18)) (.ofNat 6 (w / 2 ^ 12)) (.ofNat 5 (w / 2 ^ 0)))
  else if fld w 5 7 = 64 then some (.sraiVector m (.ofNat 6 (w / 2 ^ 18)) (.ofNat 6 (w / 2 ^ 12)) (.ofNat 5 (w / 2 ^ 0)))
  else if fld w 5 7 = 96 then some (.rotiVector m (.ofNat 6 (w / 2 ^ 18)) (.ofNat 6 (w / 2 ^ 12)) (.ofNat 5 (w / 2 ^ 0)))
  else none

/-- Major 0x23 (R100, R101). -/
def dec23 (w : Nat) (m : Bool) : Option Instr :=
  if fld w 18 6 = 0 then some (.mulVector m (.ofNat 6 (w / 2 ^ 12)) (.ofNat 6 (w / 2 ^ 6)) (.ofNat 6 (w / 2 ^ 0)))
  else if fld w 18 6 = 1 then some (.mulhiVector m (.ofNat 6 (w / 2 ^ 12)) (.ofNat 6 (w / 2 ^ 6)) (.ofNat 6 (w / 2 ^ 0)))
  else if fld w 18 6 = 2 then some (.mulhinVector m (.ofNat 6 (w / 2 ^ 12)) (.ofNat 6 (w / 2 ^ 6)) (.ofNat 6 (w / 2 ^ 0)))
  else if fld w 18 6 = 3 then some (.madVector m (.ofNat 6 (w / 2 ^ 12)) (.ofNat 6 (w / 2 ^ 6)) (.ofNat 6 (w / 2 ^ 0)))
  else if fld w 18 6 = 4 then some (.mulwVector m (.ofNat 6 (w / 2 ^ 12)) (.ofNat 6 (w / 2 ^ 6)) (.ofNat 6 (w / 2 ^ 0)))
  else if fld w 18 6 = 5 then some (.mulwnVector m (.ofNat 6 (w / 2 ^ 12)) (.ofNat 6 (w / 2 ^ 6)) (.ofNat 6 (w / 2 ^ 0)))
  else if fld w 18 6 = 6 then some (.divVector m (.ofNat 6 (w / 2 ^ 12)) (.ofNat 6 (w / 2 ^ 6)) (.ofNat 6 (w / 2 ^ 0)))
  else if fld w 18 6 = 7 then some (.divnVector m (.ofNat 6 (w / 2 ^ 12)) (.ofNat 6 (w / 2 ^ 6)) (.ofNat 6 (w / 2 ^ 0)))
  else if fld w 18 6 = 8 then some (.remVector m (.ofNat 6 (w / 2 ^ 12)) (.ofNat 6 (w / 2 ^ 6)) (.ofNat 6 (w / 2 ^ 0)))
  else if fld w 18 6 = 9 then some (.remnVector m (.ofNat 6 (w / 2 ^ 12)) (.ofNat 6 (w / 2 ^ 6)) (.ofNat 6 (w / 2 ^ 0)))
  else none

/-- Major 0x24 (R100, R101). -/
noncomputable def dec24 (w : Nat) (m : Bool) : Option Instr :=
  if fld w 0 6 = 0 ∧ fld w 18 6 = 0 then some (.popcVector m (.ofNat 6 (w / 2 ^ 12)) (.ofNat 6 (w / 2 ^ 6)))
  else if fld w 0 6 = 0 ∧ fld w 18 6 = 1 then some (.clzVector m (.ofNat 6 (w / 2 ^ 12)) (.ofNat 6 (w / 2 ^ 6)))
  else if fld w 0 6 = 0 ∧ fld w 18 6 = 2 then some (.ctzVector m (.ofNat 6 (w / 2 ^ 12)) (.ofNat 6 (w / 2 ^ 6)))
  else if fld w 0 6 = 0 ∧ fld w 18 6 = 3 then some (.brevVector m (.ofNat 6 (w / 2 ^ 12)) (.ofNat 6 (w / 2 ^ 6)))
  else if fld w 18 6 = 4 then some (.bfxVector m (.ofNat 6 (w / 2 ^ 12)) (.ofNat 6 (w / 2 ^ 6)) (.ofNat 6 (w / 2 ^ 0)))
  else if fld w 18 6 = 5 then some (.bfxnVector m (.ofNat 6 (w / 2 ^ 12)) (.ofNat 6 (w / 2 ^ 6)) (.ofNat 6 (w / 2 ^ 0)))
  else if fld w 18 6 = 6 then some (.bfiVector m (.ofNat 6 (w / 2 ^ 12)) (.ofNat 6 (w / 2 ^ 6)) (.ofNat 6 (w / 2 ^ 0)))
  else if fld w 0 6 = 0 ∧ fld w 18 6 = 7 then some (.bswapVector m (.ofNat 6 (w / 2 ^ 12)) (.ofNat 6 (w / 2 ^ 6)))
  else none

/-- Major 0x25 (R100, R101). -/
noncomputable def dec25 (w : Nat) (m : Bool) : Option Instr :=
  if fld w 17 1 = 0 then some (.cmpVector m (.ofNat 2 (w / 2 ^ 22)) (.ofNat 4 (w / 2 ^ 18)) (.ofNat 1 (w / 2 ^ 16)) (.ofNat 1 (w / 2 ^ 15)) (.ofNat 3 (w / 2 ^ 12)) (.ofNat 6 (w / 2 ^ 6)) (.ofNat 6 (w / 2 ^ 0)))
  else none

/-- Major 0x26 (R100, R101). -/
noncomputable def dec26 (w : Nat) (m : Bool) : Option Instr :=
  if fld w 23 1 = 0 then some (.cmpiVector m (.ofNat 1 (w / 2 ^ 22)) (.ofNat 1 (w / 2 ^ 21)) (.ofNat 3 (w / 2 ^ 18)) (.ofNat 6 (w / 2 ^ 12)) (.ofNat 4 (w / 2 ^ 8)) (.ofNat 8 (w / 2 ^ 0)))
  else none

/-- Major 0x27 (R100, R101). -/
noncomputable def dec27 (w : Nat) (m : Bool) : Option Instr :=
  if fld w 23 1 = 0 then some (.selVector m (.ofNat 1 (w / 2 ^ 22)) (.ofNat 1 (w / 2 ^ 21)) (.ofNat 3 (w / 2 ^ 18)) (.ofNat 6 (w / 2 ^ 12)) (.ofNat 6 (w / 2 ^ 6)) (.ofNat 6 (w / 2 ^ 0)))
  else none

/-- Major 0x28 (R100, R101). -/
noncomputable def dec28 (w : Nat) (m : Bool) : Option Instr :=
  some (.moviVector m (.ofNat 6 (w / 2 ^ 18)) (.ofNat 18 (w / 2 ^ 0)))

/-- Major 0x29 (R100, R101). -/
noncomputable def dec29 (w : Nat) (m : Bool) : Option Instr :=
  some (.movhiVector m (.ofNat 6 (w / 2 ^ 18)) (.ofNat 18 (w / 2 ^ 0)))

/-- Major 0x2A (R100, R101). -/
noncomputable def dec2A (w lit : Nat) (m : Bool) : Option Instr :=
  if fld w 18 6 = 0 ∧ fld w 10 2 = 0 ∧ fld w 0 6 = 0 then some (.movlVector m (.ofNat 6 (w / 2 ^ 12)) (.ofNat 4 (w / 2 ^ 6)) (.ofNat 32 lit))
  else if fld w 18 6 = 1 ∧ fld w 0 6 = 0 then some (.addlVector m (.ofNat 6 (w / 2 ^ 12)) (.ofNat 6 (w / 2 ^ 6)) (.ofNat 32 lit))
  else if fld w 18 6 = 2 ∧ fld w 0 6 = 0 then some (.andlVector m (.ofNat 6 (w / 2 ^ 12)) (.ofNat 6 (w / 2 ^ 6)) (.ofNat 32 lit))
  else if fld w 18 6 = 3 ∧ fld w 0 6 = 0 then some (.orlVector m (.ofNat 6 (w / 2 ^ 12)) (.ofNat 6 (w / 2 ^ 6)) (.ofNat 32 lit))
  else if fld w 18 6 = 4 ∧ fld w 17 1 = 0 then some (.cmplVector m (.ofNat 1 (w / 2 ^ 16)) (.ofNat 1 (w / 2 ^ 15)) (.ofNat 3 (w / 2 ^ 12)) (.ofNat 6 (w / 2 ^ 6)) (.ofNat 2 (w / 2 ^ 4)) (.ofNat 4 (w / 2 ^ 0)) (.ofNat 32 lit))
  else none

/-- Major 0x2B (R100, R101). -/
noncomputable def dec2B (w : Nat) (m : Bool) : Option Instr :=
  if fld w 0 6 = 0 ∧ fld w 18 6 = 0 then some (.movVector m (.ofNat 6 (w / 2 ^ 12)) (.ofNat 6 (w / 2 ^ 6)))
  else if fld w 4 2 = 0 ∧ fld w 18 6 = 1 then some (.movsv m (.ofNat 6 (w / 2 ^ 12)) (.ofNat 6 (w / 2 ^ 6)) (.ofNat 4 (w / 2 ^ 0)))
  else if fld w 0 6 = 0 ∧ fld w 18 6 = 2 then some (.movvs m (.ofNat 6 (w / 2 ^ 12)) (.ofNat 6 (w / 2 ^ 6)))
  else if fld w 1 5 = 0 ∧ fld w 10 2 = 0 ∧ fld w 15 9 = 24 then some (.movpVector m (.ofNat 3 (w / 2 ^ 12)) (.ofNat 1 (w / 2 ^ 9)) (.ofNat 3 (w / 2 ^ 6)) (.ofNat 1 (w / 2 ^ 0)))
  else none

/-- Major 0x2C (R100, R101). -/
noncomputable def dec2C (w : Nat) (m : Bool) : Option Instr :=
  if fld w 21 3 = 0 then some (.leaVector m (.ofNat 3 (w / 2 ^ 18)) (.ofNat 6 (w / 2 ^ 12)) (.ofNat 6 (w / 2 ^ 6)) (.ofNat 6 (w / 2 ^ 0)))
  else none

/-- Major 0x2D (R100, R101). -/
noncomputable def dec2D (w : Nat) (m : Bool) : Option Instr :=
  if fld w 18 6 = 0 then some (.add64Vector m (.ofNat 6 (w / 2 ^ 12)) (.ofNat 6 (w / 2 ^ 6)) (.ofNat 6 (w / 2 ^ 0)))
  else if fld w 18 6 = 1 then some (.sub64Vector m (.ofNat 6 (w / 2 ^ 12)) (.ofNat 6 (w / 2 ^ 6)) (.ofNat 6 (w / 2 ^ 0)))
  else if fld w 18 6 = 2 then some (.cmp64Vector m (.ofNat 6 (w / 2 ^ 12)) (.ofNat 6 (w / 2 ^ 6)) (.ofNat 6 (w / 2 ^ 0)))
  else if fld w 18 6 = 3 then some (.shl64Vector m (.ofNat 6 (w / 2 ^ 12)) (.ofNat 6 (w / 2 ^ 6)) (.ofNat 6 (w / 2 ^ 0)))
  else if fld w 18 6 = 4 then some (.shr64Vector m (.ofNat 6 (w / 2 ^ 12)) (.ofNat 6 (w / 2 ^ 6)) (.ofNat 6 (w / 2 ^ 0)))
  else if fld w 18 6 = 5 then some (.mul64Vector m (.ofNat 6 (w / 2 ^ 12)) (.ofNat 6 (w / 2 ^ 6)) (.ofNat 6 (w / 2 ^ 0)))
  else none

/-- Major 0x30 (R100, R101). -/
noncomputable def dec30 (w : Nat) (m : Bool) : Option Instr :=
  if fld w 18 6 = 0 then some (.fadd m (.ofNat 6 (w / 2 ^ 12)) (.ofNat 6 (w / 2 ^ 6)) (.ofNat 6 (w / 2 ^ 0)))
  else if fld w 18 6 = 1 then some (.fsub m (.ofNat 6 (w / 2 ^ 12)) (.ofNat 6 (w / 2 ^ 6)) (.ofNat 6 (w / 2 ^ 0)))
  else if fld w 18 6 = 2 then some (.fmul m (.ofNat 6 (w / 2 ^ 12)) (.ofNat 6 (w / 2 ^ 6)) (.ofNat 6 (w / 2 ^ 0)))
  else if fld w 18 6 = 3 then some (.fmin m (.ofNat 6 (w / 2 ^ 12)) (.ofNat 6 (w / 2 ^ 6)) (.ofNat 6 (w / 2 ^ 0)))
  else if fld w 18 6 = 4 then some (.fmax m (.ofNat 6 (w / 2 ^ 12)) (.ofNat 6 (w / 2 ^ 6)) (.ofNat 6 (w / 2 ^ 0)))
  else if fld w 18 6 = 5 then some (.fminnum m (.ofNat 6 (w / 2 ^ 12)) (.ofNat 6 (w / 2 ^ 6)) (.ofNat 6 (w / 2 ^ 0)))
  else if fld w 18 6 = 6 then some (.fmaxnum m (.ofNat 6 (w / 2 ^ 12)) (.ofNat 6 (w / 2 ^ 6)) (.ofNat 6 (w / 2 ^ 0)))
  else if fld w 18 6 = 7 then some (.fcpys m (.ofNat 6 (w / 2 ^ 12)) (.ofNat 6 (w / 2 ^ 6)) (.ofNat 6 (w / 2 ^ 0)))
  else if fld w 18 6 = 8 then some (.fscale m (.ofNat 6 (w / 2 ^ 12)) (.ofNat 6 (w / 2 ^ 6)) (.ofNat 6 (w / 2 ^ 0)))
  else none

/-- Major 0x31 (R100, R101). -/
noncomputable def dec31 (w : Nat) (m : Bool) : Option Instr :=
  if fld w 18 6 = 0 then some (.fma m (.ofNat 6 (w / 2 ^ 12)) (.ofNat 6 (w / 2 ^ 6)) (.ofNat 6 (w / 2 ^ 0)))
  else if fld w 18 6 = 1 then some (.fms m (.ofNat 6 (w / 2 ^ 12)) (.ofNat 6 (w / 2 ^ 6)) (.ofNat 6 (w / 2 ^ 0)))
  else if fld w 18 6 = 2 then some (.fnma m (.ofNat 6 (w / 2 ^ 12)) (.ofNat 6 (w / 2 ^ 6)) (.ofNat 6 (w / 2 ^ 0)))
  else if fld w 18 6 = 3 then some (.fnms m (.ofNat 6 (w / 2 ^ 12)) (.ofNat 6 (w / 2 ^ 6)) (.ofNat 6 (w / 2 ^ 0)))
  else none

/-- Major 0x32 (R100, R101). -/
noncomputable def dec32 (w : Nat) (m : Bool) : Option Instr :=
  if fld w 17 1 = 0 then some (.fcmp m (.ofNat 2 (w / 2 ^ 22)) (.ofNat 4 (w / 2 ^ 18)) (.ofNat 1 (w / 2 ^ 16)) (.ofNat 1 (w / 2 ^ 15)) (.ofNat 3 (w / 2 ^ 12)) (.ofNat 6 (w / 2 ^ 6)) (.ofNat 6 (w / 2 ^ 0)))
  else none

/-- Major 0x33 (R100, R101). -/
noncomputable def dec33 (w : Nat) (m : Bool) : Option Instr :=
  if fld w 0 6 = 0 ∧ fld w 18 6 = 0 then some (.fabs m (.ofNat 6 (w / 2 ^ 12)) (.ofNat 6 (w / 2 ^ 6)))
  else if fld w 0 6 = 0 ∧ fld w 18 6 = 1 then some (.fneg m (.ofNat 6 (w / 2 ^ 12)) (.ofNat 6 (w / 2 ^ 6)))
  else if fld w 0 6 = 0 ∧ fld w 18 6 = 2 then some (.fclass m (.ofNat 6 (w / 2 ^ 12)) (.ofNat 6 (w / 2 ^ 6)))
  else if fld w 0 6 = 0 ∧ fld w 18 6 = 3 then some (.frnd m (.ofNat 6 (w / 2 ^ 12)) (.ofNat 6 (w / 2 ^ 6)))
  else if fld w 0 6 = 0 ∧ fld w 18 6 = 4 then some (.frcp m (.ofNat 6 (w / 2 ^ 12)) (.ofNat 6 (w / 2 ^ 6)))
  else if fld w 0 6 = 0 ∧ fld w 18 6 = 5 then some (.frsq m (.ofNat 6 (w / 2 ^ 12)) (.ofNat 6 (w / 2 ^ 6)))
  else if fld w 0 6 = 0 ∧ fld w 18 6 = 6 then some (.fsqrt m (.ofNat 6 (w / 2 ^ 12)) (.ofNat 6 (w / 2 ^ 6)))
  else if fld w 0 6 = 0 ∧ fld w 18 6 = 7 then some (.fexp2 m (.ofNat 6 (w / 2 ^ 12)) (.ofNat 6 (w / 2 ^ 6)))
  else if fld w 0 6 = 0 ∧ fld w 18 6 = 8 then some (.flog2 m (.ofNat 6 (w / 2 ^ 12)) (.ofNat 6 (w / 2 ^ 6)))
  else if fld w 0 6 = 0 ∧ fld w 18 6 = 9 then some (.fsin m (.ofNat 6 (w / 2 ^ 12)) (.ofNat 6 (w / 2 ^ 6)))
  else if fld w 0 6 = 0 ∧ fld w 18 6 = 10 then some (.fcos m (.ofNat 6 (w / 2 ^ 12)) (.ofNat 6 (w / 2 ^ 6)))
  else if fld w 0 6 = 0 ∧ fld w 18 6 = 11 then some (.ftanh m (.ofNat 6 (w / 2 ^ 12)) (.ofNat 6 (w / 2 ^ 6)))
  else if fld w 0 6 = 0 ∧ fld w 18 6 = 12 then some (.fsig m (.ofNat 6 (w / 2 ^ 12)) (.ofNat 6 (w / 2 ^ 6)))
  else none

/-- Major 0x34 (R100, R101). -/
noncomputable def dec34 (w : Nat) (m : Bool) : Option Instr :=
  if fld w 18 6 = 0 then some (.fdiv m (.ofNat 6 (w / 2 ^ 12)) (.ofNat 6 (w / 2 ^ 6)) (.ofNat 6 (w / 2 ^ 0)))
  else none

/-- Major 0x35 (R100, R101). -/
noncomputable def dec35 (w : Nat) (m : Bool) : Option Instr :=
  if fld w 18 6 = 0 then some (.dot2 m (.ofNat 6 (w / 2 ^ 12)) (.ofNat 6 (w / 2 ^ 6)) (.ofNat 6 (w / 2 ^ 0)))
  else if fld w 18 6 = 1 then some (.dot4 m (.ofNat 6 (w / 2 ^ 12)) (.ofNat 6 (w / 2 ^ 6)) (.ofNat 6 (w / 2 ^ 0)))
  else if fld w 18 6 = 2 then some (.dot8 m (.ofNat 6 (w / 2 ^ 12)) (.ofNat 6 (w / 2 ^ 6)) (.ofNat 6 (w / 2 ^ 0)))
  else none

/-- Major 0x36 (R100, R101). -/
noncomputable def dec36 (w : Nat) (m : Bool) : Option Instr :=
  if fld w 0 6 = 0 then some (.cvt m (.ofNat 2 (w / 2 ^ 22)) (.ofNat 4 (w / 2 ^ 18)) (.ofNat 6 (w / 2 ^ 12)) (.ofNat 6 (w / 2 ^ 6)))
  else none

/-- Major 0x37 (R100, R101). -/
noncomputable def dec37 (w : Nat) (m : Bool) : Option Instr :=
  if fld w 1 5 = 0 then some (.cvti m (.ofNat 2 (w / 2 ^ 22)) (.ofNat 4 (w / 2 ^ 18)) (.ofNat 6 (w / 2 ^ 12)) (.ofNat 6 (w / 2 ^ 6)) (.ofNat 1 (w / 2 ^ 0)))
  else none

/-- Major 0x38 (R100, R101). -/
noncomputable def dec38 (w : Nat) (m : Bool) : Option Instr :=
  if fld w 1 5 = 0 then some (.cvtf m (.ofNat 2 (w / 2 ^ 22)) (.ofNat 4 (w / 2 ^ 18)) (.ofNat 6 (w / 2 ^ 12)) (.ofNat 6 (w / 2 ^ 6)) (.ofNat 1 (w / 2 ^ 0)))
  else none

/-- Major 0x39 (R100, R101). -/
noncomputable def dec39 (w : Nat) (m : Bool) : Option Instr :=
  if fld w 19 5 = 0 then some (.qnt m (.ofNat 1 (w / 2 ^ 18)) (.ofNat 6 (w / 2 ^ 12)) (.ofNat 6 (w / 2 ^ 6)) (.ofNat 6 (w / 2 ^ 0)))
  else none

/-- Major 0x3A (R100, R101). -/
noncomputable def dec3A (w : Nat) (m : Bool) : Option Instr :=
  if fld w 23 1 = 0 then some (.dqnt m (.ofNat 1 (w / 2 ^ 22)) (.ofNat 4 (w / 2 ^ 18)) (.ofNat 6 (w / 2 ^ 12)) (.ofNat 6 (w / 2 ^ 6)) (.ofNat 6 (w / 2 ^ 0)))
  else none

/-- Major 0x3B (R100, R101). -/
noncomputable def dec3B (w : Nat) (m : Bool) : Option Instr :=
  if fld w 18 6 = 0 then some (.pack m (.ofNat 6 (w / 2 ^ 12)) (.ofNat 6 (w / 2 ^ 6)) (.ofNat 6 (w / 2 ^ 0)))
  else if fld w 0 6 = 0 ∧ fld w 18 6 = 1 then some (.unpacklo m (.ofNat 6 (w / 2 ^ 12)) (.ofNat 6 (w / 2 ^ 6)))
  else if fld w 0 6 = 0 ∧ fld w 18 6 = 2 then some (.unpackhi m (.ofNat 6 (w / 2 ^ 12)) (.ofNat 6 (w / 2 ^ 6)))
  else none

/-- Major 0x3C (R100, R101). -/
noncomputable def dec3C (w : Nat) (m : Bool) : Option Instr :=
  if fld w 4 2 = 0 ∧ fld w 18 6 = 0 then some (.retag m (.ofNat 6 (w / 2 ^ 12)) (.ofNat 6 (w / 2 ^ 6)) (.ofNat 4 (w / 2 ^ 0)))
  else if fld w 0 6 = 0 ∧ fld w 18 6 = 1 then some (.tagq m (.ofNat 6 (w / 2 ^ 12)) (.ofNat 6 (w / 2 ^ 6)))
  else none

/-- Major 0x40 (R100, R101). -/
noncomputable def dec40 (w : Nat) (m : Bool) : Option Instr :=
  if fld w 19 5 = 0 then some (.xprev m (.ofNat 1 (w / 2 ^ 18)) (.ofNat 6 (w / 2 ^ 12)) (.ofNat 6 (w / 2 ^ 6)) (.ofNat 6 (w / 2 ^ 0)))
  else none

/-- Major 0x41 (R100, R101). -/
noncomputable def dec41 (w : Nat) (m : Bool) : Option Instr :=
  if fld w 18 6 = 0 then some (.xidx m (.ofNat 6 (w / 2 ^ 12)) (.ofNat 6 (w / 2 ^ 6)) (.ofNat 6 (w / 2 ^ 0)))
  else none

/-- Major 0x42 (R100, R101). -/
noncomputable def dec42 (w : Nat) (m : Bool) : Option Instr :=
  if fld w 19 5 = 0 then some (.xbc m (.ofNat 1 (w / 2 ^ 18)) (.ofNat 6 (w / 2 ^ 12)) (.ofNat 6 (w / 2 ^ 6)) (.ofNat 6 (w / 2 ^ 0)))
  else none

/-- Major 0x43 (R100, R101). -/
noncomputable def dec43 (w : Nat) (m : Bool) : Option Instr :=
  if fld w 0 6 = 0 ∧ fld w 22 2 = 0 then some (.xscan m (.ofNat 1 (w / 2 ^ 21)) (.ofNat 3 (w / 2 ^ 18)) (.ofNat 6 (w / 2 ^ 12)) (.ofNat 6 (w / 2 ^ 6)))
  else none

/-- Major 0x44 (R100, R101). -/
noncomputable def dec44 (w : Nat) (m : Bool) : Option Instr :=
  if fld w 0 6 = 0 ∧ fld w 21 1 = 0 ∧ fld w 23 1 = 0 then some (.xred m (.ofNat 1 (w / 2 ^ 22)) (.ofNat 3 (w / 2 ^ 18)) (.ofNat 6 (w / 2 ^ 12)) (.ofNat 6 (w / 2 ^ 6)))
  else none

/-- Major 0x45 (R100, R101). -/
noncomputable def dec45 (w : Nat) (m : Bool) : Option Instr :=
  if fld w 0 6 = 0 ∧ fld w 19 5 = 0 then some (.voteBallot m (.ofNat 1 (w / 2 ^ 18)) (.ofNat 6 (w / 2 ^ 12)) (.ofNat 6 (w / 2 ^ 6)))
  else if fld w 0 6 = 0 ∧ fld w 15 3 = 0 ∧ fld w 19 5 = 1 then some (.voteAny m (.ofNat 1 (w / 2 ^ 18)) (.ofNat 3 (w / 2 ^ 12)) (.ofNat 6 (w / 2 ^ 6)))
  else if fld w 0 6 = 0 ∧ fld w 15 3 = 0 ∧ fld w 19 5 = 2 then some (.voteAll m (.ofNat 1 (w / 2 ^ 18)) (.ofNat 3 (w / 2 ^ 12)) (.ofNat 6 (w / 2 ^ 6)))
  else none

/-- Major 0x46 (R100, R101). -/
noncomputable def dec46 (w : Nat) (m : Bool) : Option Instr :=
  if fld w 1 5 = 0 ∧ fld w 18 6 = 0 then some (.matchOp m (.ofNat 6 (w / 2 ^ 12)) (.ofNat 6 (w / 2 ^ 6)) (.ofNat 1 (w / 2 ^ 0)))
  else if fld w 1 5 = 0 ∧ fld w 18 6 = 1 then some (.matchf m (.ofNat 6 (w / 2 ^ 12)) (.ofNat 6 (w / 2 ^ 6)) (.ofNat 1 (w / 2 ^ 0)))
  else none

/-- Major 0x47 (R100, R101). -/
noncomputable def dec47 (w : Nat) (m : Bool) : Option Instr :=
  if fld w 8 4 = 0 then some (.xswzLane m (.ofNat 6 (w / 2 ^ 18)) (.ofNat 6 (w / 2 ^ 12)) (.ofNat 8 (w / 2 ^ 0)))
  else if fld w 5 7 = 32 then some (.xswzRx m (.ofNat 6 (w / 2 ^ 18)) (.ofNat 6 (w / 2 ^ 12)) (.ofNat 5 (w / 2 ^ 0)))
  else if fld w 0 12 = 2048 then some (.xswzRev m (.ofNat 6 (w / 2 ^ 18)) (.ofNat 6 (w / 2 ^ 12)))
  else none

/-- Major 0x48 (R100, R101). -/
noncomputable def dec48 (w : Nat) (m : Bool) : Option Instr :=
  some (.ldg m (.ofNat 2 (w / 2 ^ 22)) (.ofNat 1 (w / 2 ^ 21)) (.ofNat 3 (w / 2 ^ 18)) (.ofNat 6 (w / 2 ^ 12)) (.ofNat 6 (w / 2 ^ 6)) (.ofNat 6 (w / 2 ^ 0)))

/-- Major 0x49 (R100, R101). -/
noncomputable def dec49 (w : Nat) (m : Bool) : Option Instr :=
  some (.stg m (.ofNat 2 (w / 2 ^ 22)) (.ofNat 1 (w / 2 ^ 21)) (.ofNat 3 (w / 2 ^ 18)) (.ofNat 6 (w / 2 ^ 12)) (.ofNat 6 (w / 2 ^ 6)) (.ofNat 6 (w / 2 ^ 0)))

/-- Major 0x4A (R100, R101). -/
noncomputable def dec4A (w : Nat) (m : Bool) : Option Instr :=
  if fld w 4 2 = 0 ∧ fld w 21 1 = 0 then some (.ldgx m (.ofNat 2 (w / 2 ^ 22)) (.ofNat 3 (w / 2 ^ 18)) (.ofNat 6 (w / 2 ^ 12)) (.ofNat 6 (w / 2 ^ 6)) (.ofNat 4 (w / 2 ^ 0)))
  else none

/-- Major 0x4B (R100, R101). -/
noncomputable def dec4B (w : Nat) (m : Bool) : Option Instr :=
  if fld w 0 6 = 0 ∧ fld w 21 1 = 0 then some (.stgx m (.ofNat 2 (w / 2 ^ 22)) (.ofNat 3 (w / 2 ^ 18)) (.ofNat 6 (w / 2 ^ 12)) (.ofNat 6 (w / 2 ^ 6)))
  else none

/-- Major 0x4C (R100, R101). -/
noncomputable def dec4C (w : Nat) (m : Bool) : Option Instr :=
  if fld w 22 2 = 0 then some (.lds m (.ofNat 1 (w / 2 ^ 21)) (.ofNat 3 (w / 2 ^ 18)) (.ofNat 6 (w / 2 ^ 12)) (.ofNat 6 (w / 2 ^ 6)) (.ofNat 6 (w / 2 ^ 0)))
  else none

/-- Major 0x4D (R100, R101). -/
noncomputable def dec4D (w : Nat) (m : Bool) : Option Instr :=
  if fld w 22 2 = 0 then some (.sts m (.ofNat 1 (w / 2 ^ 21)) (.ofNat 3 (w / 2 ^ 18)) (.ofNat 6 (w / 2 ^ 12)) (.ofNat 6 (w / 2 ^ 6)) (.ofNat 6 (w / 2 ^ 0)))
  else none

/-- Major 0x4E (R100, R101). -/
noncomputable def dec4E (w : Nat) (m : Bool) : Option Instr :=
  some (.ldu m (.ofNat 2 (w / 2 ^ 22)) (.ofNat 1 (w / 2 ^ 21)) (.ofNat 3 (w / 2 ^ 18)) (.ofNat 6 (w / 2 ^ 12)) (.ofNat 6 (w / 2 ^ 6)) (.ofNat 6 (w / 2 ^ 0)))

/-- Major 0x4F (R100, R101). -/
noncomputable def dec4F (w : Nat) (m : Bool) : Option Instr :=
  some (.stu m (.ofNat 2 (w / 2 ^ 22)) (.ofNat 1 (w / 2 ^ 21)) (.ofNat 3 (w / 2 ^ 18)) (.ofNat 6 (w / 2 ^ 12)) (.ofNat 6 (w / 2 ^ 6)) (.ofNat 6 (w / 2 ^ 0)))

/-- Major 0x50 (R100, R101). -/
noncomputable def dec50 (w : Nat) (m : Bool) : Option Instr :=
  if fld w 21 3 = 0 then some (.ldp m (.ofNat 3 (w / 2 ^ 18)) (.ofNat 6 (w / 2 ^ 12)) (.ofNat 6 (w / 2 ^ 6)) (.ofNat 6 (w / 2 ^ 0)))
  else none

/-- Major 0x51 (R100, R101). -/
noncomputable def dec51 (w : Nat) (m : Bool) : Option Instr :=
  if fld w 21 3 = 0 then some (.stp m (.ofNat 3 (w / 2 ^ 18)) (.ofNat 6 (w / 2 ^ 12)) (.ofNat 6 (w / 2 ^ 6)) (.ofNat 6 (w / 2 ^ 0)))
  else none

/-- Major 0x52 (R100, R101). -/
noncomputable def dec52 (w : Nat) (m : Bool) : Option Instr :=
  if fld w 5 1 = 0 then some (.atom m (.ofNat 1 (w / 2 ^ 23)) (.ofNat 1 (w / 2 ^ 22)) (.ofNat 4 (w / 2 ^ 18)) (.ofNat 6 (w / 2 ^ 12)) (.ofNat 6 (w / 2 ^ 6)) (.ofNat 2 (w / 2 ^ 3)) (.ofNat 3 (w / 2 ^ 0)))
  else none

/-- Major 0x53 (R100, R101). -/
noncomputable def dec53 (w : Nat) (m : Bool) : Option Instr :=
  if fld w 5 1 = 0 then some (.atoms m (.ofNat 1 (w / 2 ^ 23)) (.ofNat 1 (w / 2 ^ 22)) (.ofNat 4 (w / 2 ^ 18)) (.ofNat 6 (w / 2 ^ 12)) (.ofNat 6 (w / 2 ^ 6)) (.ofNat 2 (w / 2 ^ 3)) (.ofNat 3 (w / 2 ^ 0)))
  else none

/-- Major 0x54 (R100, R101). -/
noncomputable def dec54 (w : Nat) (m : Bool) : Option Instr :=
  if fld w 5 1 = 0 ∧ fld w 20 4 = 0 then some (.cas m (.ofNat 1 (w / 2 ^ 19)) (.ofNat 1 (w / 2 ^ 18)) (.ofNat 6 (w / 2 ^ 12)) (.ofNat 6 (w / 2 ^ 6)) (.ofNat 2 (w / 2 ^ 3)) (.ofNat 3 (w / 2 ^ 0)))
  else none

/-- Major 0x55 (R100, R101). -/
noncomputable def dec55 (w : Nat) (m : Bool) : Option Instr :=
  if fld w 5 1 = 0 ∧ fld w 22 2 = 0 then some (.fatom m (.ofNat 1 (w / 2 ^ 21)) (.ofNat 1 (w / 2 ^ 20)) (.ofNat 2 (w / 2 ^ 18)) (.ofNat 6 (w / 2 ^ 12)) (.ofNat 6 (w / 2 ^ 6)) (.ofNat 2 (w / 2 ^ 3)) (.ofNat 3 (w / 2 ^ 0)))
  else none

/-- Major 0x56 (R100, R101). -/
noncomputable def dec56 (w : Nat) (m : Bool) : Option Instr :=
  if fld w 3 3 = 0 ∧ fld w 22 2 = 0 then some (.lda m (.ofNat 1 (w / 2 ^ 21)) (.ofNat 3 (w / 2 ^ 18)) (.ofNat 6 (w / 2 ^ 12)) (.ofNat 6 (w / 2 ^ 6)) (.ofNat 3 (w / 2 ^ 0)))
  else none

/-- Major 0x57 (R100, R101). -/
noncomputable def dec57 (w : Nat) (m : Bool) : Option Instr :=
  if fld w 3 3 = 0 ∧ fld w 22 2 = 0 then some (.strel m (.ofNat 1 (w / 2 ^ 21)) (.ofNat 3 (w / 2 ^ 18)) (.ofNat 6 (w / 2 ^ 12)) (.ofNat 6 (w / 2 ^ 6)) (.ofNat 3 (w / 2 ^ 0)))
  else none

/-- Major 0x58 (R100, R101). -/
noncomputable def dec58 (w : Nat) (m : Bool) : Option Instr :=
  if fld w 0 18 = 0 ∧ fld w 23 1 = 0 then some (.fence m (.ofNat 2 (w / 2 ^ 21)) (.ofNat 3 (w / 2 ^ 18)))
  else none

/-- Major 0x59 (R100, R101). -/
noncomputable def dec59 (w : Nat) (m : Bool) : Option Instr :=
  if fld w 12 6 = 0 ∧ fld w 20 4 = 0 then some (.pref m (.ofNat 1 (w / 2 ^ 19)) (.ofNat 1 (w / 2 ^ 18)) (.ofNat 6 (w / 2 ^ 6)) (.ofNat 6 (w / 2 ^ 0)))
  else none

/-- Major 0x5A (R100, R101). -/
noncomputable def dec5A (w : Nat) (m : Bool) : Option Instr :=
  if fld w 12 6 = 0 ∧ fld w 20 4 = 0 then some (.cmaint m (.ofNat 1 (w / 2 ^ 19)) (.ofNat 1 (w / 2 ^ 18)) (.ofNat 6 (w / 2 ^ 6)) (.ofNat 6 (w / 2 ^ 0)))
  else none

/-- Major 0x5B (R100, R101). -/
noncomputable def dec5B (w : Nat) (m : Bool) : Option Instr :=
  if fld w 0 6 = 0 ∧ fld w 12 6 = 0 ∧ fld w 19 5 = 0 then some (.rdrain m (.ofNat 1 (w / 2 ^ 18)) (.ofNat 6 (w / 2 ^ 6)))
  else none

/-- Major 0x60 (R100, R101). -/
noncomputable def dec60 (w : Nat) (m : Bool) : Option Instr :=
  if fld w 17 1 = 0 then some (.tdef m (.ofNat 2 (w / 2 ^ 22)) (.ofNat 4 (w / 2 ^ 18)) (.ofNat 5 (w / 2 ^ 12)) (.ofNat 6 (w / 2 ^ 6)) (.ofNat 6 (w / 2 ^ 0)))
  else none

/-- Major 0x61 (R100, R101). -/
noncomputable def dec61 (w : Nat) (m : Bool) : Option Instr :=
  if fld w 0 6 = 0 ∧ fld w 11 13 = 0 then some (.tfree m (.ofNat 5 (w / 2 ^ 6)))
  else if fld w 0 6 = 0 ∧ fld w 11 1 = 0 ∧ fld w 18 6 = 1 then some (.tstate m (.ofNat 6 (w / 2 ^ 12)) (.ofNat 5 (w / 2 ^ 6)))
  else if fld w 0 6 = 0 ∧ fld w 11 13 = 256 then some (.twait m (.ofNat 5 (w / 2 ^ 6)))
  else if fld w 0 6 = 0 ∧ fld w 11 13 = 384 then some (.claim m (.ofNat 5 (w / 2 ^ 6)))
  else if fld w 0 6 = 0 ∧ fld w 11 1 = 0 ∧ fld w 15 9 = 32 then some (.claimt m (.ofNat 3 (w / 2 ^ 12)) (.ofNat 5 (w / 2 ^ 6)))
  else if fld w 0 6 = 0 ∧ fld w 11 13 = 640 then some (.release m (.ofNat 5 (w / 2 ^ 6)))
  else none

/-- Major 0x62 (R100, R101). -/
noncomputable def dec62 (w : Nat) (m : Bool) : Option Instr :=
  if fld w 11 1 = 0 ∧ fld w 17 1 = 0 ∧ fld w 22 2 = 0 then some (.cpy m (.ofNat 1 (w / 2 ^ 21)) (.ofNat 3 (w / 2 ^ 18)) (.ofNat 5 (w / 2 ^ 12)) (.ofNat 5 (w / 2 ^ 6)) (.ofNat 6 (w / 2 ^ 0)))
  else none

/-- Major 0x63 (R100, R101). -/
noncomputable def dec63 (w : Nat) (m : Bool) : Option Instr :=
  if fld w 0 8 = 0 ∧ fld w 17 1 = 0 then some (.cpyg m (.ofNat 1 (w / 2 ^ 23)) (.ofNat 1 (w / 2 ^ 22)) (.ofNat 1 (w / 2 ^ 21)) (.ofNat 3 (w / 2 ^ 18)) (.ofNat 5 (w / 2 ^ 12)) (.ofNat 4 (w / 2 ^ 8)))
  else none

/-- Major 0x64 (R100, R101). -/
noncomputable def dec64 (w : Nat) (m : Bool) : Option Instr :=
  if fld w 5 1 = 0 ∧ fld w 11 1 = 0 ∧ fld w 17 7 = 0 then some (.mma m (.ofNat 5 (w / 2 ^ 12)) (.ofNat 5 (w / 2 ^ 6)) (.ofNat 5 (w / 2 ^ 0)))
  else if fld w 5 1 = 0 ∧ fld w 11 1 = 0 ∧ fld w 17 7 = 2 then some (.mmaz m (.ofNat 5 (w / 2 ^ 12)) (.ofNat 5 (w / 2 ^ 6)) (.ofNat 5 (w / 2 ^ 0)))
  else none

/-- Major 0x65 (R100, R101). -/
noncomputable def dec65 (w : Nat) (m : Bool) : Option Instr :=
  if fld w 11 1 = 0 ∧ fld w 18 6 = 0 then some (.accrd m (.ofNat 6 (w / 2 ^ 12)) (.ofNat 5 (w / 2 ^ 6)) (.ofNat 6 (w / 2 ^ 0)))
  else if fld w 11 1 = 0 ∧ fld w 18 6 = 1 then some (.accrdc m (.ofNat 6 (w / 2 ^ 12)) (.ofNat 5 (w / 2 ^ 6)) (.ofNat 6 (w / 2 ^ 0)))
  else if fld w 17 7 = 4 then some (.accwr m (.ofNat 5 (w / 2 ^ 12)) (.ofNat 6 (w / 2 ^ 6)) (.ofNat 6 (w / 2 ^ 0)))
  else if fld w 0 12 = 0 ∧ fld w 17 7 = 6 then some (.accz m (.ofNat 5 (w / 2 ^ 12)))
  else if fld w 0 6 = 0 ∧ fld w 11 1 = 0 ∧ fld w 18 6 = 4 then some (.accmax m (.ofNat 6 (w / 2 ^ 12)) (.ofNat 5 (w / 2 ^ 6)))
  else if fld w 0 6 = 0 ∧ fld w 11 1 = 0 ∧ fld w 18 6 = 5 then some (.accsum m (.ofNat 6 (w / 2 ^ 12)) (.ofNat 5 (w / 2 ^ 6)))
  else if fld w 17 7 = 12 then some (.accexp m (.ofNat 5 (w / 2 ^ 12)) (.ofNat 6 (w / 2 ^ 6)) (.ofNat 6 (w / 2 ^ 0)))
  else if fld w 0 6 = 0 ∧ fld w 17 7 = 14 then some (.accscl m (.ofNat 5 (w / 2 ^ 12)) (.ofNat 6 (w / 2 ^ 6)))
  else if fld w 17 7 = 16 then some (.accmask m (.ofNat 5 (w / 2 ^ 12)) (.ofNat 6 (w / 2 ^ 6)) (.ofNat 6 (w / 2 ^ 0)))
  else none

/-- Major 0x66 (R100, R101). -/
noncomputable def dec66 (w : Nat) (m : Bool) : Option Instr :=
  if fld w 0 6 = 0 ∧ fld w 11 7 = 0 ∧ fld w 19 5 = 0 then some (.mfence m (.ofNat 1 (w / 2 ^ 18)) (.ofNat 5 (w / 2 ^ 6)))
  else none

/-- Major 0x67 (R100, R101). -/
noncomputable def dec67 (w : Nat) (m : Bool) : Option Instr :=
  if fld w 8 16 = 0 then some (.qfence m (.ofNat 8 (w / 2 ^ 0)))
  else none

/-- Major 0x68 (R100, R101). -/
noncomputable def dec68 (w : Nat) (m : Bool) : Option Instr :=
  if fld w 5 1 = 0 ∧ fld w 12 6 = 0 ∧ fld w 22 2 = 0 then some (.coll m (.ofNat 1 (w / 2 ^ 21)) (.ofNat 3 (w / 2 ^ 18)) (.ofNat 6 (w / 2 ^ 6)) (.ofNat 5 (w / 2 ^ 0)))
  else none

/-- Major 0x69 (R100, R101). -/
noncomputable def dec69 (w : Nat) (m : Bool) : Option Instr :=
  if fld w 0 6 = 0 ∧ fld w 18 6 = 0 then some (.colli m (.ofNat 6 (w / 2 ^ 12)) (.ofNat 6 (w / 2 ^ 6)))
  else none

/-- Major 0x70 (R100, R101). -/
noncomputable def dec70 (w : Nat) (m : Bool) : Option Instr :=
  if fld w 0 9 = 0 ∧ fld w 22 2 = 0 then some (.wset m (.ofNat 4 (w / 2 ^ 18)) (.ofNat 6 (w / 2 ^ 12)) (.ofNat 3 (w / 2 ^ 9)))
  else none

/-- Major 0x71 (R100, R101). -/
noncomputable def dec71 (w : Nat) (m : Bool) : Option Instr :=
  if fld w 0 6 = 0 ∧ fld w 12 12 = 0 then some (.wclr m (.ofNat 6 (w / 2 ^ 6)))
  else if fld w 0 6 = 0 ∧ fld w 18 6 = 1 then some (.wstat m (.ofNat 6 (w / 2 ^ 12)) (.ofNat 6 (w / 2 ^ 6)))
  else if fld w 12 12 = 128 then some (.warm m (.ofNat 6 (w / 2 ^ 6)) (.ofNat 6 (w / 2 ^ 0)))
  else none

/-- Major 0x72 (R100, R101). -/
noncomputable def dec72 (w : Nat) (m : Bool) : Option Instr :=
  if fld w 21 3 = 0 then some (.hread m (.ofNat 3 (w / 2 ^ 18)) (.ofNat 6 (w / 2 ^ 12)) (.ofNat 6 (w / 2 ^ 6)) (.ofNat 6 (w / 2 ^ 0)))
  else none

/-- Major 0x73 (R100, R101). -/
noncomputable def dec73 (w : Nat) (m : Bool) : Option Instr :=
  if fld w 21 3 = 0 then some (.hwrite m (.ofNat 3 (w / 2 ^ 18)) (.ofNat 6 (w / 2 ^ 12)) (.ofNat 6 (w / 2 ^ 6)) (.ofNat 6 (w / 2 ^ 0)))
  else none

/-- Major 0x74 (R100, R101). -/
noncomputable def dec74 (w : Nat) (m : Bool) : Option Instr :=
  if fld w 12 12 = 0 then some (.hstop m (.ofNat 6 (w / 2 ^ 6)) (.ofNat 6 (w / 2 ^ 0)))
  else if fld w 12 12 = 64 then some (.hstep m (.ofNat 6 (w / 2 ^ 6)) (.ofNat 6 (w / 2 ^ 0)))
  else if fld w 12 12 = 128 then some (.hresume m (.ofNat 6 (w / 2 ^ 6)) (.ofNat 6 (w / 2 ^ 0)))
  else none

/-- Major 0x75 (R100, R101). -/
noncomputable def dec75 (w : Nat) (m : Bool) : Option Instr :=
  if fld w 12 12 = 0 then some (.invlp m (.ofNat 6 (w / 2 ^ 6)) (.ofNat 6 (w / 2 ^ 0)))
  else if fld w 0 6 = 0 ∧ fld w 12 12 = 64 then some (.tlbinv m (.ofNat 6 (w / 2 ^ 6)))
  else none

/-- Major 0x76 (R100, R101). -/
noncomputable def dec76 (w : Nat) (m : Bool) : Option Instr :=
  if fld w 0 6 = 0 ∧ fld w 18 6 = 0 then some (.pmread m (.ofNat 6 (w / 2 ^ 12)) (.ofNat 6 (w / 2 ^ 6)))
  else none

/-- Major 0x77 (R100, R101). -/
noncomputable def dec77 (w : Nat) (m : Bool) : Option Instr :=
  if fld w 12 12 = 0 then some (.tracem m (.ofNat 6 (w / 2 ^ 6)) (.ofNat 6 (w / 2 ^ 0)))
  else none

/-- Major 0x78 (R100, R101). -/
noncomputable def dec78 (w : Nat) (m : Bool) : Option Instr :=
  if fld w 0 6 = 0 ∧ fld w 12 12 = 0 then some (.rpchk m (.ofNat 6 (w / 2 ^ 6)))
  else none

/-- A word with the literal that follows it: its major's decoder. -/
noncomputable def decodeMajor (w lit : Nat) : Option Instr :=
  let m := decide (fld w 31 1 = 1)
  match fld w 24 7 with
  | 0x00 => dec00 w m
  | 0x01 => dec01 w m
  | 0x02 => dec02 w m
  | 0x03 => dec03 w m
  | 0x04 => dec04 w m
  | 0x05 => dec05 w m
  | 0x06 => dec06 w m
  | 0x07 => dec07 w m
  | 0x08 => dec08 w m
  | 0x09 => dec09 w m
  | 0x0A => dec0A w m
  | 0x0B => dec0B w m
  | 0x0C => dec0C w m
  | 0x0D => dec0D w m
  | 0x0E => dec0E w m
  | 0x10 => dec10 w m
  | 0x11 => dec11 w m
  | 0x12 => dec12 w m
  | 0x13 => dec13 w m
  | 0x14 => dec14 w m
  | 0x15 => dec15 w m
  | 0x16 => dec16 w m
  | 0x17 => dec17 w m
  | 0x18 => dec18 w m
  | 0x19 => dec19 w m
  | 0x1A => dec1A w lit m
  | 0x1B => dec1B w m
  | 0x1C => dec1C w m
  | 0x1D => dec1D w m
  | 0x20 => dec20 w m
  | 0x21 => dec21 w m
  | 0x22 => dec22 w m
  | 0x23 => dec23 w m
  | 0x24 => dec24 w m
  | 0x25 => dec25 w m
  | 0x26 => dec26 w m
  | 0x27 => dec27 w m
  | 0x28 => dec28 w m
  | 0x29 => dec29 w m
  | 0x2A => dec2A w lit m
  | 0x2B => dec2B w m
  | 0x2C => dec2C w m
  | 0x2D => dec2D w m
  | 0x30 => dec30 w m
  | 0x31 => dec31 w m
  | 0x32 => dec32 w m
  | 0x33 => dec33 w m
  | 0x34 => dec34 w m
  | 0x35 => dec35 w m
  | 0x36 => dec36 w m
  | 0x37 => dec37 w m
  | 0x38 => dec38 w m
  | 0x39 => dec39 w m
  | 0x3A => dec3A w m
  | 0x3B => dec3B w m
  | 0x3C => dec3C w m
  | 0x40 => dec40 w m
  | 0x41 => dec41 w m
  | 0x42 => dec42 w m
  | 0x43 => dec43 w m
  | 0x44 => dec44 w m
  | 0x45 => dec45 w m
  | 0x46 => dec46 w m
  | 0x47 => dec47 w m
  | 0x48 => dec48 w m
  | 0x49 => dec49 w m
  | 0x4A => dec4A w m
  | 0x4B => dec4B w m
  | 0x4C => dec4C w m
  | 0x4D => dec4D w m
  | 0x4E => dec4E w m
  | 0x4F => dec4F w m
  | 0x50 => dec50 w m
  | 0x51 => dec51 w m
  | 0x52 => dec52 w m
  | 0x53 => dec53 w m
  | 0x54 => dec54 w m
  | 0x55 => dec55 w m
  | 0x56 => dec56 w m
  | 0x57 => dec57 w m
  | 0x58 => dec58 w m
  | 0x59 => dec59 w m
  | 0x5A => dec5A w m
  | 0x5B => dec5B w m
  | 0x60 => dec60 w m
  | 0x61 => dec61 w m
  | 0x62 => dec62 w m
  | 0x63 => dec63 w m
  | 0x64 => dec64 w m
  | 0x65 => dec65 w m
  | 0x66 => dec66 w m
  | 0x67 => dec67 w m
  | 0x68 => dec68 w m
  | 0x69 => dec69 w m
  | 0x70 => dec70 w m
  | 0x71 => dec71 w m
  | 0x72 => dec72 w m
  | 0x73 => dec73 w m
  | 0x74 => dec74 w m
  | 0x75 => dec75 w m
  | 0x76 => dec76 w m
  | 0x77 => dec77 w m
  | 0x78 => dec78 w m
  | _ => none

/-- Whether a major is assigned (R100). -/
def majorAssigned (mj : Nat) : Bool :=
  decide (mj ≤ 0x0E) || decide (0x10 ≤ mj ∧ mj ≤ 0x1D) || decide (0x20 ≤ mj ∧ mj ≤ 0x2D) || decide (0x30 ≤ mj ∧ mj ≤ 0x3C)
    || decide (0x40 ≤ mj ∧ mj ≤ 0x5B) || decide (0x60 ≤ mj ∧ mj ≤ 0x69) || decide (0x70 ≤ mj ∧ mj ≤ 0x78)

/-- Whether a word is the first of a literal pair (R95). -/
def isLitWord (w : Nat) : Bool := fld w 24 7 == 0x1A || fld w 24 7 == 0x2A

/-- The number of words an instruction has (R95). -/
def Instr.words : Instr → Nat
  | .movlScalar .. => 2
  | .movlVector .. => 2
  | .addlScalar .. => 2
  | .addlVector .. => 2
  | .andlScalar .. => 2
  | .andlVector .. => 2
  | .orlScalar .. => 2
  | .orlVector .. => 2
  | .cmplScalar .. => 2
  | .cmplVector .. => 2
  | _ => 1

/-- The instruction a word and the word after it stand for (R86 to R102). -/
noncomputable def decodeWord (w lit : Nat) : Except Reject Instr :=
  if fld w 24 7 = 0x7F then .error .undefinedMajor
  else if !majorAssigned (fld w 24 7) then .error .reservedMajor
  else match decodeMajor w lit with
    | none => .error .reservedForm
    | some i => if i.wellFormed then .ok i else .error .entryCondition

/-- A little-endian number (R10). -/
def leNat : List Byte → Nat
  | [] => 0
  | b :: rest => b.toNat + 256 * leNat rest

/-- The bytes of a number, little-endian. -/
def leBytes : Nat → Nat → List Byte
  | 0, _ => []
  | n + 1, v => BitVec.ofNat 8 v :: leBytes n (v / 256)

/-- The instruction at the head of a list of bytes, with the bytes after it. -/
noncomputable def decode (bs : List Byte) : Except Reject (Instr × List Byte) :=
  if bs.length < 4 then .error .short
  else
    let w := leNat (bs.take 4)
    if isLitWord w && decide (bs.length < 8) then .error .short
    else
      match decodeWord w (leNat ((bs.drop 4).take 4)) with
      | .error e => .error e
      | .ok i => .ok (i, bs.drop (4 * i.words))

/-- A word: its marker, its fixed bits and its fields, each at its lowest bit (R86). -/
def word (m : Bool) (fixed : Nat) (fs : List (Nat × Nat)) : Nat :=
  (if m then 2 ^ 31 else 0) + fixed + (fs.map fun f => f.2 * 2 ^ f.1).sum

/-- The words of an instruction (R86, and the encoding tables of R114, R143, R155, R164, R193, R219 and R249); an
event has none. -/
def encode : Instr → List Nat
  | .nop m => [word m 0x00000000 []]
  | .yield m => [word m 0x00040000 []]
  | .waitall m => [word m 0x00080000 []]
  | .exit m => [word m 0x000C0000 []]
  | .eret m => [word m 0x00100000 []]
  | .beat m => [word m 0x00140000 []]
  | .beatn m a => [word m 0x00180000 [(6, a.toNat)]]
  | .ungang m => [word m 0x001C0000 []]
  | .getmode m d => [word m 0x00200000 [(12, d.toNat)]]
  | .mode m d i => [word m 0x01000000 [(18, d.toNat), (0, i.toNat)]]
  | .bra m i => [word m 0x02000000 [(0, i.toNat)]]
  | .call m i => [word m 0x03000000 [(0, i.toNat)]]
  | .brq m n q i => [word m 0x04000000 [(21, n.toNat), (18, q.toNat), (0, i.toNat)]]
  | .brp m n p i => [word m 0x05000000 [(21, n.toNat), (18, p.toNat), (0, i.toNat)]]
  | .brx m a => [word m 0x06000000 [(6, a.toNat)]]
  | .callx m d a => [word m 0x06040000 [(12, d.toNat), (6, a.toNat)]]
  | .ret m a => [word m 0x06080000 [(6, a.toNat)]]
  | .brv m a => [word m 0x060C0000 [(6, a.toNat)]]
  | .join m d i => [word m 0x07000000 [(18, d.toNat), (0, i.toNat)]]
  | .regang m d a i => [word m 0x08000000 [(18, d.toNat), (12, a.toNat), (0, i.toNat)]]
  | .bar m g => [word m 0x09000000 [(0, g.toNat)]]
  | .bara m g => [word m 0x09000100 [(0, g.toNat)]]
  | .barw m g => [word m 0x09000200 [(0, g.toNat)]]
  | .trap m i => [word m 0x0A000000 [(0, i.toNat)]]
  | .rdc m d i => [word m 0x0B000000 [(18, d.toNat), (0, i.toNat)]]
  | .wrc m a i => [word m 0x0C000000 [(12, a.toNat), (0, i.toNat)]]
  | .setquotaGive m b => [word m 0x0D000000 [(0, b.toNat)]]
  | .setquotaQuery m d => [word m 0x0D040000 [(12, d.toNat)]]
  | .sysvTid m d => [word m 0x0E000000 [(12, d.toNat)]]
  | .sysvLane m d => [word m 0x0E040000 [(12, d.toNat)]]
  | .sysvRank m d => [word m 0x0E080000 [(12, d.toNat)]]
  | .sysvWid m d => [word m 0x0E0C0000 [(12, d.toNat)]]
  | .sysvWgid m d => [word m 0x0E100000 [(12, d.toNat)]]
  | .sysvWgx m d => [word m 0x0E140000 [(12, d.toNat)]]
  | .sysvWgy m d => [word m 0x0E180000 [(12, d.toNat)]]
  | .sysvWgz m d => [word m 0x0E1C0000 [(12, d.toNat)]]
  | .sysvRole m d => [word m 0x0E200000 [(12, d.toNat)]]
  | .sysvCore m d => [word m 0x0E240000 [(12, d.toNat)]]
  | .sysvSlice m d => [word m 0x0E280000 [(12, d.toNat)]]
  | .sysvLaunch m d => [word m 0x0E2C0000 [(12, d.toNat)]]
  | .sysvTick m d => [word m 0x0E300000 [(12, d.toNat)]]
  | .sysvGroups m d => [word m 0x0E340000 [(12, d.toNat)]]
  | .sysvPart m d => [word m 0x0E380000 [(12, d.toNat)]]
  | .addScalar m d a b => [word m 0x10000000 [(12, d.toNat), (6, a.toNat), (0, b.toNat)]]
  | .addVector m d a b => [word m 0x20000000 [(12, d.toNat), (6, a.toNat), (0, b.toNat)]]
  | .subScalar m d a b => [word m 0x10040000 [(12, d.toNat), (6, a.toNat), (0, b.toNat)]]
  | .subVector m d a b => [word m 0x20040000 [(12, d.toNat), (6, a.toNat), (0, b.toNat)]]
  | .andScalar m d a b => [word m 0x10080000 [(12, d.toNat), (6, a.toNat), (0, b.toNat)]]
  | .andVector m d a b => [word m 0x20080000 [(12, d.toNat), (6, a.toNat), (0, b.toNat)]]
  | .orScalar m d a b => [word m 0x100C0000 [(12, d.toNat), (6, a.toNat), (0, b.toNat)]]
  | .orVector m d a b => [word m 0x200C0000 [(12, d.toNat), (6, a.toNat), (0, b.toNat)]]
  | .xorScalar m d a b => [word m 0x10100000 [(12, d.toNat), (6, a.toNat), (0, b.toNat)]]
  | .xorVector m d a b => [word m 0x20100000 [(12, d.toNat), (6, a.toNat), (0, b.toNat)]]
  | .andnScalar m d a b => [word m 0x10140000 [(12, d.toNat), (6, a.toNat), (0, b.toNat)]]
  | .andnVector m d a b => [word m 0x20140000 [(12, d.toNat), (6, a.toNat), (0, b.toNat)]]
  | .ornScalar m d a b => [word m 0x10180000 [(12, d.toNat), (6, a.toNat), (0, b.toNat)]]
  | .ornVector m d a b => [word m 0x20180000 [(12, d.toNat), (6, a.toNat), (0, b.toNat)]]
  | .shlScalar m d a b => [word m 0x101C0000 [(12, d.toNat), (6, a.toNat), (0, b.toNat)]]
  | .shlVector m d a b => [word m 0x201C0000 [(12, d.toNat), (6, a.toNat), (0, b.toNat)]]
  | .shrScalar m d a b => [word m 0x10200000 [(12, d.toNat), (6, a.toNat), (0, b.toNat)]]
  | .shrVector m d a b => [word m 0x20200000 [(12, d.toNat), (6, a.toNat), (0, b.toNat)]]
  | .sraScalar m d a b => [word m 0x10240000 [(12, d.toNat), (6, a.toNat), (0, b.toNat)]]
  | .sraVector m d a b => [word m 0x20240000 [(12, d.toNat), (6, a.toNat), (0, b.toNat)]]
  | .rotScalar m d a b => [word m 0x10280000 [(12, d.toNat), (6, a.toNat), (0, b.toNat)]]
  | .rotVector m d a b => [word m 0x20280000 [(12, d.toNat), (6, a.toNat), (0, b.toNat)]]
  | .minScalar m d a b => [word m 0x102C0000 [(12, d.toNat), (6, a.toNat), (0, b.toNat)]]
  | .minVector m d a b => [word m 0x202C0000 [(12, d.toNat), (6, a.toNat), (0, b.toNat)]]
  | .maxScalar m d a b => [word m 0x10300000 [(12, d.toNat), (6, a.toNat), (0, b.toNat)]]
  | .maxVector m d a b => [word m 0x20300000 [(12, d.toNat), (6, a.toNat), (0, b.toNat)]]
  | .minnScalar m d a b => [word m 0x10340000 [(12, d.toNat), (6, a.toNat), (0, b.toNat)]]
  | .minnVector m d a b => [word m 0x20340000 [(12, d.toNat), (6, a.toNat), (0, b.toNat)]]
  | .maxnScalar m d a b => [word m 0x10380000 [(12, d.toNat), (6, a.toNat), (0, b.toNat)]]
  | .maxnVector m d a b => [word m 0x20380000 [(12, d.toNat), (6, a.toNat), (0, b.toNat)]]
  | .absScalar m d a => [word m 0x103C0000 [(12, d.toNat), (6, a.toNat)]]
  | .absVector m d a => [word m 0x203C0000 [(12, d.toNat), (6, a.toNat)]]
  | .negScalar m d a => [word m 0x10400000 [(12, d.toNat), (6, a.toNat)]]
  | .negVector m d a => [word m 0x20400000 [(12, d.toNat), (6, a.toNat)]]
  | .addsatScalar m d a b => [word m 0x10440000 [(12, d.toNat), (6, a.toNat), (0, b.toNat)]]
  | .addsatVector m d a b => [word m 0x20440000 [(12, d.toNat), (6, a.toNat), (0, b.toNat)]]
  | .subsatScalar m d a b => [word m 0x10480000 [(12, d.toNat), (6, a.toNat), (0, b.toNat)]]
  | .subsatVector m d a b => [word m 0x20480000 [(12, d.toNat), (6, a.toNat), (0, b.toNat)]]
  | .addsatnScalar m d a b => [word m 0x104C0000 [(12, d.toNat), (6, a.toNat), (0, b.toNat)]]
  | .addsatnVector m d a b => [word m 0x204C0000 [(12, d.toNat), (6, a.toNat), (0, b.toNat)]]
  | .subsatnScalar m d a b => [word m 0x10500000 [(12, d.toNat), (6, a.toNat), (0, b.toNat)]]
  | .subsatnVector m d a b => [word m 0x20500000 [(12, d.toNat), (6, a.toNat), (0, b.toNat)]]
  | .addiScalar m d a i => [word m 0x11000000 [(18, d.toNat), (12, a.toNat), (0, i.toNat)]]
  | .addiVector m d a i => [word m 0x21000000 [(18, d.toNat), (12, a.toNat), (0, i.toNat)]]
  | .shliScalar m d a n => [word m 0x12000000 [(18, d.toNat), (12, a.toNat), (0, n.toNat)]]
  | .shliVector m d a n => [word m 0x22000000 [(18, d.toNat), (12, a.toNat), (0, n.toNat)]]
  | .shriScalar m d a n => [word m 0x12000400 [(18, d.toNat), (12, a.toNat), (0, n.toNat)]]
  | .shriVector m d a n => [word m 0x22000400 [(18, d.toNat), (12, a.toNat), (0, n.toNat)]]
  | .sraiScalar m d a n => [word m 0x12000800 [(18, d.toNat), (12, a.toNat), (0, n.toNat)]]
  | .sraiVector m d a n => [word m 0x22000800 [(18, d.toNat), (12, a.toNat), (0, n.toNat)]]
  | .rotiScalar m d a n => [word m 0x12000C00 [(18, d.toNat), (12, a.toNat), (0, n.toNat)]]
  | .rotiVector m d a n => [word m 0x22000C00 [(18, d.toNat), (12, a.toNat), (0, n.toNat)]]
  | .mulScalar m d a b => [word m 0x13000000 [(12, d.toNat), (6, a.toNat), (0, b.toNat)]]
  | .mulVector m d a b => [word m 0x23000000 [(12, d.toNat), (6, a.toNat), (0, b.toNat)]]
  | .mulhiScalar m d a b => [word m 0x13040000 [(12, d.toNat), (6, a.toNat), (0, b.toNat)]]
  | .mulhiVector m d a b => [word m 0x23040000 [(12, d.toNat), (6, a.toNat), (0, b.toNat)]]
  | .mulhinScalar m d a b => [word m 0x13080000 [(12, d.toNat), (6, a.toNat), (0, b.toNat)]]
  | .mulhinVector m d a b => [word m 0x23080000 [(12, d.toNat), (6, a.toNat), (0, b.toNat)]]
  | .madScalar m d a b => [word m 0x130C0000 [(12, d.toNat), (6, a.toNat), (0, b.toNat)]]
  | .madVector m d a b => [word m 0x230C0000 [(12, d.toNat), (6, a.toNat), (0, b.toNat)]]
  | .mulwScalar m d a b => [word m 0x13100000 [(12, d.toNat), (6, a.toNat), (0, b.toNat)]]
  | .mulwVector m d a b => [word m 0x23100000 [(12, d.toNat), (6, a.toNat), (0, b.toNat)]]
  | .mulwnScalar m d a b => [word m 0x13140000 [(12, d.toNat), (6, a.toNat), (0, b.toNat)]]
  | .mulwnVector m d a b => [word m 0x23140000 [(12, d.toNat), (6, a.toNat), (0, b.toNat)]]
  | .divScalar m d a b => [word m 0x13180000 [(12, d.toNat), (6, a.toNat), (0, b.toNat)]]
  | .divVector m d a b => [word m 0x23180000 [(12, d.toNat), (6, a.toNat), (0, b.toNat)]]
  | .divnScalar m d a b => [word m 0x131C0000 [(12, d.toNat), (6, a.toNat), (0, b.toNat)]]
  | .divnVector m d a b => [word m 0x231C0000 [(12, d.toNat), (6, a.toNat), (0, b.toNat)]]
  | .remScalar m d a b => [word m 0x13200000 [(12, d.toNat), (6, a.toNat), (0, b.toNat)]]
  | .remVector m d a b => [word m 0x23200000 [(12, d.toNat), (6, a.toNat), (0, b.toNat)]]
  | .remnScalar m d a b => [word m 0x13240000 [(12, d.toNat), (6, a.toNat), (0, b.toNat)]]
  | .remnVector m d a b => [word m 0x23240000 [(12, d.toNat), (6, a.toNat), (0, b.toNat)]]
  | .popcScalar m d a => [word m 0x14000000 [(12, d.toNat), (6, a.toNat)]]
  | .popcVector m d a => [word m 0x24000000 [(12, d.toNat), (6, a.toNat)]]
  | .clzScalar m d a => [word m 0x14040000 [(12, d.toNat), (6, a.toNat)]]
  | .clzVector m d a => [word m 0x24040000 [(12, d.toNat), (6, a.toNat)]]
  | .ctzScalar m d a => [word m 0x14080000 [(12, d.toNat), (6, a.toNat)]]
  | .ctzVector m d a => [word m 0x24080000 [(12, d.toNat), (6, a.toNat)]]
  | .brevScalar m d a => [word m 0x140C0000 [(12, d.toNat), (6, a.toNat)]]
  | .brevVector m d a => [word m 0x240C0000 [(12, d.toNat), (6, a.toNat)]]
  | .bfxScalar m d a b => [word m 0x14100000 [(12, d.toNat), (6, a.toNat), (0, b.toNat)]]
  | .bfxVector m d a b => [word m 0x24100000 [(12, d.toNat), (6, a.toNat), (0, b.toNat)]]
  | .bfxnScalar m d a b => [word m 0x14140000 [(12, d.toNat), (6, a.toNat), (0, b.toNat)]]
  | .bfxnVector m d a b => [word m 0x24140000 [(12, d.toNat), (6, a.toNat), (0, b.toNat)]]
  | .bfiScalar m d a b => [word m 0x14180000 [(12, d.toNat), (6, a.toNat), (0, b.toNat)]]
  | .bfiVector m d a b => [word m 0x24180000 [(12, d.toNat), (6, a.toNat), (0, b.toNat)]]
  | .bswapScalar m d a => [word m 0x141C0000 [(12, d.toNat), (6, a.toNat)]]
  | .bswapVector m d a => [word m 0x241C0000 [(12, d.toNat), (6, a.toNat)]]
  | .cmpScalar m mm c d a b => [word m 0x15000000 [(22, mm.toNat), (18, c.toNat), (12, d.toNat), (6, a.toNat), (0, b.toNat)]]
  | .cmpVector m mm c r k d a b => [word m 0x25000000 [(22, mm.toNat), (18, c.toNat), (16, r.toNat), (15, k.toNat), (12, d.toNat), (6, a.toNat), (0, b.toNat)]]
  | .cmpiScalar m d a c i => [word m 0x16000000 [(18, d.toNat), (12, a.toNat), (8, c.toNat), (0, i.toNat)]]
  | .cmpiVector m r k d a c i => [word m 0x26000000 [(22, r.toNat), (21, k.toNat), (18, d.toNat), (12, a.toNat), (8, c.toNat), (0, i.toNat)]]
  | .selScalar m n p d a b => [word m 0x17200000 [(22, n.toNat), (18, p.toNat), (12, d.toNat), (6, a.toNat), (0, b.toNat)]]
  | .selVector m n k p d a b => [word m 0x27000000 [(22, n.toNat), (21, k.toNat), (18, p.toNat), (12, d.toNat), (6, a.toNat), (0, b.toNat)]]
  | .moviScalar m d i => [word m 0x18000000 [(18, d.toNat), (0, i.toNat)]]
  | .moviVector m d i => [word m 0x28000000 [(18, d.toNat), (0, i.toNat)]]
  | .movhiScalar m d i => [word m 0x19000000 [(18, d.toNat), (0, i.toNat)]]
  | .movhiVector m d i => [word m 0x29000000 [(18, d.toNat), (0, i.toNat)]]
  | .movlScalar m d lit => [word m 0x1A000000 [(12, d.toNat)], lit.toNat]
  | .movlVector m d t lit => [word m 0x2A000000 [(12, d.toNat), (6, t.toNat)], lit.toNat]
  | .addlScalar m d a lit => [word m 0x1A040000 [(12, d.toNat), (6, a.toNat)], lit.toNat]
  | .addlVector m d a lit => [word m 0x2A040000 [(12, d.toNat), (6, a.toNat)], lit.toNat]
  | .andlScalar m d a lit => [word m 0x1A080000 [(12, d.toNat), (6, a.toNat)], lit.toNat]
  | .andlVector m d a lit => [word m 0x2A080000 [(12, d.toNat), (6, a.toNat)], lit.toNat]
  | .orlScalar m d a lit => [word m 0x1A0C0000 [(12, d.toNat), (6, a.toNat)], lit.toNat]
  | .orlVector m d a lit => [word m 0x2A0C0000 [(12, d.toNat), (6, a.toNat)], lit.toNat]
  | .cmplScalar m d a mm c lit => [word m 0x1A100000 [(12, d.toNat), (6, a.toNat), (4, mm.toNat), (0, c.toNat)], lit.toNat]
  | .cmplVector m r k d a mm c lit => [word m 0x2A100000 [(16, r.toNat), (15, k.toNat), (12, d.toNat), (6, a.toNat), (4, mm.toNat), (0, c.toNat)], lit.toNat]
  | .movScalar m d a => [word m 0x1B000000 [(12, d.toNat), (6, a.toNat)]]
  | .movVector m d a => [word m 0x2B000000 [(12, d.toNat), (6, a.toNat)]]
  | .movsv m d a t => [word m 0x2B040000 [(12, d.toNat), (6, a.toNat), (0, t.toNat)]]
  | .movvs m d a => [word m 0x2B080000 [(12, d.toNat), (6, a.toNat)]]
  | .movpScalar m d a n => [word m 0x1B0C0000 [(12, d.toNat), (6, a.toNat), (0, n.toNat)]]
  | .movpVector m d k a n => [word m 0x2B0C0000 [(12, d.toNat), (9, k.toNat), (6, a.toNat), (0, n.toNat)]]
  | .leaScalar m h d a b => [word m 0x1C000000 [(18, h.toNat), (12, d.toNat), (6, a.toNat), (0, b.toNat)]]
  | .leaVector m h d a b => [word m 0x2C000000 [(18, h.toNat), (12, d.toNat), (6, a.toNat), (0, b.toNat)]]
  | .add64Scalar m d a b => [word m 0x1D000000 [(12, d.toNat), (6, a.toNat), (0, b.toNat)]]
  | .add64Vector m d a b => [word m 0x2D000000 [(12, d.toNat), (6, a.toNat), (0, b.toNat)]]
  | .sub64Scalar m d a b => [word m 0x1D040000 [(12, d.toNat), (6, a.toNat), (0, b.toNat)]]
  | .sub64Vector m d a b => [word m 0x2D040000 [(12, d.toNat), (6, a.toNat), (0, b.toNat)]]
  | .cmp64Scalar m d a b => [word m 0x1D080000 [(12, d.toNat), (6, a.toNat), (0, b.toNat)]]
  | .cmp64Vector m d a b => [word m 0x2D080000 [(12, d.toNat), (6, a.toNat), (0, b.toNat)]]
  | .shl64Scalar m d a b => [word m 0x1D0C0000 [(12, d.toNat), (6, a.toNat), (0, b.toNat)]]
  | .shl64Vector m d a b => [word m 0x2D0C0000 [(12, d.toNat), (6, a.toNat), (0, b.toNat)]]
  | .shr64Scalar m d a b => [word m 0x1D100000 [(12, d.toNat), (6, a.toNat), (0, b.toNat)]]
  | .shr64Vector m d a b => [word m 0x2D100000 [(12, d.toNat), (6, a.toNat), (0, b.toNat)]]
  | .mul64Scalar m d a b => [word m 0x1D140000 [(12, d.toNat), (6, a.toNat), (0, b.toNat)]]
  | .mul64Vector m d a b => [word m 0x2D140000 [(12, d.toNat), (6, a.toNat), (0, b.toNat)]]
  | .fadd m d a b => [word m 0x30000000 [(12, d.toNat), (6, a.toNat), (0, b.toNat)]]
  | .fsub m d a b => [word m 0x30040000 [(12, d.toNat), (6, a.toNat), (0, b.toNat)]]
  | .fmul m d a b => [word m 0x30080000 [(12, d.toNat), (6, a.toNat), (0, b.toNat)]]
  | .fmin m d a b => [word m 0x300C0000 [(12, d.toNat), (6, a.toNat), (0, b.toNat)]]
  | .fmax m d a b => [word m 0x30100000 [(12, d.toNat), (6, a.toNat), (0, b.toNat)]]
  | .fminnum m d a b => [word m 0x30140000 [(12, d.toNat), (6, a.toNat), (0, b.toNat)]]
  | .fmaxnum m d a b => [word m 0x30180000 [(12, d.toNat), (6, a.toNat), (0, b.toNat)]]
  | .fcpys m d a b => [word m 0x301C0000 [(12, d.toNat), (6, a.toNat), (0, b.toNat)]]
  | .fscale m d a b => [word m 0x30200000 [(12, d.toNat), (6, a.toNat), (0, b.toNat)]]
  | .fma m d a b => [word m 0x31000000 [(12, d.toNat), (6, a.toNat), (0, b.toNat)]]
  | .fms m d a b => [word m 0x31040000 [(12, d.toNat), (6, a.toNat), (0, b.toNat)]]
  | .fnma m d a b => [word m 0x31080000 [(12, d.toNat), (6, a.toNat), (0, b.toNat)]]
  | .fnms m d a b => [word m 0x310C0000 [(12, d.toNat), (6, a.toNat), (0, b.toNat)]]
  | .fcmp m mm c r k d a b => [word m 0x32000000 [(22, mm.toNat), (18, c.toNat), (16, r.toNat), (15, k.toNat), (12, d.toNat), (6, a.toNat), (0, b.toNat)]]
  | .fabs m d a => [word m 0x33000000 [(12, d.toNat), (6, a.toNat)]]
  | .fneg m d a => [word m 0x33040000 [(12, d.toNat), (6, a.toNat)]]
  | .fclass m d a => [word m 0x33080000 [(12, d.toNat), (6, a.toNat)]]
  | .frnd m d a => [word m 0x330C0000 [(12, d.toNat), (6, a.toNat)]]
  | .frcp m d a => [word m 0x33100000 [(12, d.toNat), (6, a.toNat)]]
  | .frsq m d a => [word m 0x33140000 [(12, d.toNat), (6, a.toNat)]]
  | .fsqrt m d a => [word m 0x33180000 [(12, d.toNat), (6, a.toNat)]]
  | .fexp2 m d a => [word m 0x331C0000 [(12, d.toNat), (6, a.toNat)]]
  | .flog2 m d a => [word m 0x33200000 [(12, d.toNat), (6, a.toNat)]]
  | .fsin m d a => [word m 0x33240000 [(12, d.toNat), (6, a.toNat)]]
  | .fcos m d a => [word m 0x33280000 [(12, d.toNat), (6, a.toNat)]]
  | .ftanh m d a => [word m 0x332C0000 [(12, d.toNat), (6, a.toNat)]]
  | .fsig m d a => [word m 0x33300000 [(12, d.toNat), (6, a.toNat)]]
  | .fdiv m d a b => [word m 0x34000000 [(12, d.toNat), (6, a.toNat), (0, b.toNat)]]
  | .dot2 m d a b => [word m 0x35000000 [(12, d.toNat), (6, a.toNat), (0, b.toNat)]]
  | .dot4 m d a b => [word m 0x35040000 [(12, d.toNat), (6, a.toNat), (0, b.toNat)]]
  | .dot8 m d a b => [word m 0x35080000 [(12, d.toNat), (6, a.toNat), (0, b.toNat)]]
  | .cvt m p t d a => [word m 0x36000000 [(22, p.toNat), (18, t.toNat), (12, d.toNat), (6, a.toNat)]]
  | .cvti m p t d a u => [word m 0x37000000 [(22, p.toNat), (18, t.toNat), (12, d.toNat), (6, a.toNat), (0, u.toNat)]]
  | .cvtf m p t d a u => [word m 0x38000000 [(22, p.toNat), (18, t.toNat), (12, d.toNat), (6, a.toNat), (0, u.toNat)]]
  | .qnt m h d a b => [word m 0x39000000 [(18, h.toNat), (12, d.toNat), (6, a.toNat), (0, b.toNat)]]
  | .dqnt m h t d a b => [word m 0x3A000000 [(22, h.toNat), (18, t.toNat), (12, d.toNat), (6, a.toNat), (0, b.toNat)]]
  | .pack m d a b => [word m 0x3B000000 [(12, d.toNat), (6, a.toNat), (0, b.toNat)]]
  | .unpacklo m d a => [word m 0x3B040000 [(12, d.toNat), (6, a.toNat)]]
  | .unpackhi m d a => [word m 0x3B080000 [(12, d.toNat), (6, a.toNat)]]
  | .retag m d a t => [word m 0x3C000000 [(12, d.toNat), (6, a.toNat), (0, t.toNat)]]
  | .tagq m d a => [word m 0x3C040000 [(12, d.toNat), (6, a.toNat)]]
  | .xprev m c d a b => [word m 0x40000000 [(18, c.toNat), (12, d.toNat), (6, a.toNat), (0, b.toNat)]]
  | .xidx m d a b => [word m 0x41000000 [(12, d.toNat), (6, a.toNat), (0, b.toNat)]]
  | .xbc m l d a b => [word m 0x42000000 [(18, l.toNat), (12, d.toNat), (6, a.toNat), (0, b.toNat)]]
  | .xscan m x o d a => [word m 0x43000000 [(21, x.toNat), (18, o.toNat), (12, d.toNat), (6, a.toNat)]]
  | .xred m x o d a => [word m 0x44000000 [(22, x.toNat), (18, o.toNat), (12, d.toNat), (6, a.toNat)]]
  | .voteBallot m n d a => [word m 0x45000000 [(18, n.toNat), (12, d.toNat), (6, a.toNat)]]
  | .voteAny m n d a => [word m 0x45080000 [(18, n.toNat), (12, d.toNat), (6, a.toNat)]]
  | .voteAll m n d a => [word m 0x45100000 [(18, n.toNat), (12, d.toNat), (6, a.toNat)]]
  | .matchOp m d a c => [word m 0x46000000 [(12, d.toNat), (6, a.toNat), (0, c.toNat)]]
  | .matchf m d a c => [word m 0x46040000 [(12, d.toNat), (6, a.toNat), (0, c.toNat)]]
  | .xswzLane m d a l => [word m 0x47000000 [(18, d.toNat), (12, a.toNat), (0, l.toNat)]]
  | .xswzRx m d a mm => [word m 0x47000400 [(18, d.toNat), (12, a.toNat), (0, mm.toNat)]]
  | .xswzRev m d a => [word m 0x47000800 [(18, d.toNat), (12, a.toNat)]]
  | .ldg m h c w d a b => [word m 0x48000000 [(22, h.toNat), (21, c.toNat), (18, w.toNat), (12, d.toNat), (6, a.toNat), (0, b.toNat)]]
  | .stg m h c w d a b => [word m 0x49000000 [(22, h.toNat), (21, c.toNat), (18, w.toNat), (12, d.toNat), (6, a.toNat), (0, b.toNat)]]
  | .ldgx m h w d a t => [word m 0x4A000000 [(22, h.toNat), (18, w.toNat), (12, d.toNat), (6, a.toNat), (0, t.toNat)]]
  | .stgx m h w d a => [word m 0x4B000000 [(22, h.toNat), (18, w.toNat), (12, d.toNat), (6, a.toNat)]]
  | .lds m c w d a b => [word m 0x4C000000 [(21, c.toNat), (18, w.toNat), (12, d.toNat), (6, a.toNat), (0, b.toNat)]]
  | .sts m c w d a b => [word m 0x4D000000 [(21, c.toNat), (18, w.toNat), (12, d.toNat), (6, a.toNat), (0, b.toNat)]]
  | .ldu m h c w d a b => [word m 0x4E000000 [(22, h.toNat), (21, c.toNat), (18, w.toNat), (12, d.toNat), (6, a.toNat), (0, b.toNat)]]
  | .stu m h c w d a b => [word m 0x4F000000 [(22, h.toNat), (21, c.toNat), (18, w.toNat), (12, d.toNat), (6, a.toNat), (0, b.toNat)]]
  | .ldp m w d a b => [word m 0x50000000 [(18, w.toNat), (12, d.toNat), (6, a.toNat), (0, b.toNat)]]
  | .stp m w d a b => [word m 0x51000000 [(18, w.toNat), (12, d.toNat), (6, a.toNat), (0, b.toNat)]]
  | .atom m x r o d a k c => [word m 0x52000000 [(23, x.toNat), (22, r.toNat), (18, o.toNat), (12, d.toNat), (6, a.toNat), (3, k.toNat), (0, c.toNat)]]
  | .atoms m x r o d a k c => [word m 0x53000000 [(23, x.toNat), (22, r.toNat), (18, o.toNat), (12, d.toNat), (6, a.toNat), (3, k.toNat), (0, c.toNat)]]
  | .cas m y x d a k c => [word m 0x54000000 [(19, y.toNat), (18, x.toNat), (12, d.toNat), (6, a.toNat), (3, k.toNat), (0, c.toNat)]]
  | .fatom m y r o d a k c => [word m 0x55000000 [(21, y.toNat), (20, r.toNat), (18, o.toNat), (12, d.toNat), (6, a.toNat), (3, k.toNat), (0, c.toNat)]]
  | .lda m y w d a c => [word m 0x56000000 [(21, y.toNat), (18, w.toNat), (12, d.toNat), (6, a.toNat), (0, c.toNat)]]
  | .strel m y w d a c => [word m 0x57000000 [(21, y.toNat), (18, w.toNat), (12, d.toNat), (6, a.toNat), (0, c.toNat)]]
  | .fence m k c => [word m 0x58000000 [(21, k.toNat), (18, c.toNat)]]
  | .pref m c l a b => [word m 0x59000000 [(19, c.toNat), (18, l.toNat), (6, a.toNat), (0, b.toNat)]]
  | .cmaint m l v a b => [word m 0x5A000000 [(19, l.toNat), (18, v.toNat), (6, a.toNat), (0, b.toNat)]]
  | .rdrain m l a => [word m 0x5B000000 [(18, l.toNat), (6, a.toNat)]]
  | .tdef m k t d a b => [word m 0x60000000 [(22, k.toNat), (18, t.toNat), (12, d.toNat), (6, a.toNat), (0, b.toNat)]]
  | .tfree m a => [word m 0x61000000 [(6, a.toNat)]]
  | .tstate m d a => [word m 0x61040000 [(12, d.toNat), (6, a.toNat)]]
  | .twait m a => [word m 0x61080000 [(6, a.toNat)]]
  | .claim m a => [word m 0x610C0000 [(6, a.toNat)]]
  | .claimt m d a => [word m 0x61100000 [(12, d.toNat), (6, a.toNat)]]
  | .release m a => [word m 0x61140000 [(6, a.toNat)]]
  | .cpy m x e d a b => [word m 0x62000000 [(21, x.toNat), (18, e.toNat), (12, d.toNat), (6, a.toNat), (0, b.toNat)]]
  | .cpyg m y x z e d a => [word m 0x63000000 [(23, y.toNat), (22, x.toNat), (21, z.toNat), (18, e.toNat), (12, d.toNat), (8, a.toNat)]]
  | .mma m d a b => [word m 0x64000000 [(12, d.toNat), (6, a.toNat), (0, b.toNat)]]
  | .mmaz m d a b => [word m 0x64040000 [(12, d.toNat), (6, a.toNat), (0, b.toNat)]]
  | .accrd m d a b => [word m 0x65000000 [(12, d.toNat), (6, a.toNat), (0, b.toNat)]]
  | .accrdc m d a b => [word m 0x65040000 [(12, d.toNat), (6, a.toNat), (0, b.toNat)]]
  | .accwr m d a b => [word m 0x65080000 [(12, d.toNat), (6, a.toNat), (0, b.toNat)]]
  | .accz m d => [word m 0x650C0000 [(12, d.toNat)]]
  | .accmax m d a => [word m 0x65100000 [(12, d.toNat), (6, a.toNat)]]
  | .accsum m d a => [word m 0x65140000 [(12, d.toNat), (6, a.toNat)]]
  | .accexp m d a b => [word m 0x65180000 [(12, d.toNat), (6, a.toNat), (0, b.toNat)]]
  | .accscl m d a => [word m 0x651C0000 [(12, d.toNat), (6, a.toNat)]]
  | .accmask m d a b => [word m 0x65200000 [(12, d.toNat), (6, a.toNat), (0, b.toNat)]]
  | .mfence m l a => [word m 0x66000000 [(18, l.toNat), (6, a.toNat)]]
  | .qfence m mm => [word m 0x67000000 [(0, mm.toNat)]]
  | .coll m x e a b => [word m 0x68000000 [(21, x.toNat), (18, e.toNat), (6, a.toNat), (0, b.toNat)]]
  | .colli m d a => [word m 0x69000000 [(12, d.toNat), (6, a.toNat)]]
  | .wset m n d a => [word m 0x70000000 [(18, n.toNat), (12, d.toNat), (9, a.toNat)]]
  | .wclr m a => [word m 0x71000000 [(6, a.toNat)]]
  | .wstat m d a => [word m 0x71040000 [(12, d.toNat), (6, a.toNat)]]
  | .warm m a b => [word m 0x71080000 [(6, a.toNat), (0, b.toNat)]]
  | .hread m mm d a b => [word m 0x72000000 [(18, mm.toNat), (12, d.toNat), (6, a.toNat), (0, b.toNat)]]
  | .hwrite m mm d a b => [word m 0x73000000 [(18, mm.toNat), (12, d.toNat), (6, a.toNat), (0, b.toNat)]]
  | .hstop m a b => [word m 0x74000000 [(6, a.toNat), (0, b.toNat)]]
  | .hstep m a b => [word m 0x74040000 [(6, a.toNat), (0, b.toNat)]]
  | .hresume m a b => [word m 0x74080000 [(6, a.toNat), (0, b.toNat)]]
  | .invlp m a b => [word m 0x75000000 [(6, a.toNat), (0, b.toNat)]]
  | .tlbinv m a => [word m 0x75040000 [(6, a.toNat)]]
  | .pmread m d a => [word m 0x76000000 [(12, d.toNat), (6, a.toNat)]]
  | .tracem m a b => [word m 0x77000000 [(6, a.toNat), (0, b.toNat)]]
  | .rpchk m a => [word m 0x78000000 [(6, a.toNat)]]
  | .quotaTransferComplete _ => []
  | .longLatencyWrite _ _ _ => []
  | .translationWalk _ _ _ _ => []
  | .zeroingComplete _ => []
  | .frespAnswer _ _ _ => []
  | .frespKick _ => []
  | .shootdownRequest _ _ _ => []
  | .uncorrectableError _ => []
  | .engineEntryStart _ _ => []
  | .copyComplete _ _ => []
  | .mmaStart _ _ => []
  | .mmaComplete _ _ => []
  | .collComplete _ _ => []
  | .seedWrite _ _ => []
  | .controlRegisterWrite _ _ _ => []
  | .moduleReset => []
  | .recoveryImage _ => []
  | .hocpTickLoad _ => []
  | .wakeWrite _ _ => []
  | .launch _ => []
  | .xcopy _ => []
  | .xcopyComplete _ _ => []
  | .signal _ => []
  | .cond _ => []
  | .condReread _ => []
  | .fencePacket _ => []
  | .fencePacketComplete _ => []
  | .waitord _ => []
  | .contract _ => []
  | .workgroupPlace _ => []
  | .workgroupRelease _ => []
  | .workgroupRetire _ => []
  | .bind _ => []
  | .unbind _ => []
  | .queueStop _ => []
  | .queueStart _ => []
  | .queueReset _ => []
  | .skipOp _ => []
  | .qcbAudit _ => []
  | .shadowExchange _ => []
  | .stagingComplete _ _ => []
  | .loadOp _ => []
  | .saveOp _ => []
  | .restore _ => []
  | .discard _ => []
  | .queueHang _ => []
  | .quiesceDone _ => []
  | .writebackDone _ => []
  | .zeroDone _ => []
  | .replayDone _ => []
  | .clusterRetentionExit _ => []
  | .joinTimeoutExpiry _ _ => []
  | .regangTimeoutExpiry _ _ => []
  | .beatIntervalEnd _ => []
  | .controllerStep _ => []
  | .equinoxGrant _ => []
  | .grantRise _ => []
  | .grantFall _ => []
  | .wcAgeDrain _ _ => []
  | .l1DirtyAgeWriteback _ _ => []
  | .powerEstimate _ _ _ => []
  | .weightRefit _ _ => []
  | .stepChangeRequest _ _ => []
  | .stepChangeDone _ => []
  | .pageAgeScan => []
  | .usageRecordWrite _ => []
  | .timesliceBoundary => []
  | .scheduleStart => []
  | .scheduleStop => []
  | .create _ => []
  | .update _ => []
  | .destroy _ => []
  | .destroyZeroingDone _ => []
  | .resetpart _ => []
  | .generate _ => []
  | .zeroOp _ => []
  | .attestationRequest => []
  | .attestationRequestHocp _ _ => []
  | .stoptickArm _ => []
  | .stoptick => []
  | .coreDumpWrite _ => []
  | .fabidWrite _ => []
  | .portcfgWrite _ _ => []
  | .lock _ => []
  | .portStart _ => []
  | .portStop _ => []
  | .keyupdate _ => []
  | .peerLostClear _ => []
  | .linkControlWord _ _ => []
  | .linkDown _ => []
  | .spdm _ _ => []
  | .pstate _ _ => []
  | .pathDown _ _ => []
  | .peerLost _ => []
  | .rd _ => []
  | .rdata _ => []
  | .wr _ => []
  | .wrm _ => []
  | .doneOp _ => []
  | .fabricAtom _ => []
  | .ares _ => []
  | .ticket _ => []
  | .busy _ => []
  | .busyRetry _ _ => []
  | .refuse _ => []
  | .notice _ => []
  | .noteack _ => []
  | .planeq _ => []
  | .planea _ => []
  | .beatmrg _ _ _ => []
  | .colld _ => []
  | .systemMemoryAnswer _ _ => []
  | .hocpWrite _ _ => []
  | .hocpBlockTransfer _ _ _ => []
  | .schedulerFault _ => []
  | .parityError _ => []
  | .evictedPageRestore _ _ _ _ => []
  | .firmwareUpdate _ => []
  | .dbgctlWrite _ _ => []
  | .flitDrop _ => []

/-- The bytes of an instruction, each word little-endian (R10, R89). -/
def encodeBytes (i : Instr) : List Byte := (encode i).flatMap (leBytes 4)

/-- The decoder's answer for an instruction whose bits are `w`, first word in the low bits; the bits above `nbits` are
zero up to the longest instruction. -/
noncomputable def decodeTableWord (nbits w : Nat) : Option Instr :=
  match decode (leBytes 8 (w % 2 ^ nbits)) with
  | .ok (i, _) => some i
  | .error _ => none

end Sys2Proof
end

