-- ==== Sys2Proof/Machine/Store.lean ====
section
/-! DEFINITION. The one canonical form of every keyed collection of the machine: a list of (key, value) pairs with
strictly rising keys that lists no value equal to what an unlisted key reads as, so that equal contents are equal data. -/

namespace Sys2Proof.Machine

/-- A sparse collection keyed by numbers. What an unlisted key reads as is given where it is read. -/
abbrev Store (α : Type) := List (Nat × α)

/-- The value at a key; `d` is what an unlisted key reads as. -/
def Store.get {α : Type} (d : α) (m : Store α) (k : Nat) : α :=
  match m with
  | [] => d
  | (j, v) :: rest => if j = k then v else Store.get d rest k

/-- Removes a key. -/
def Store.erase {α : Type} (m : Store α) (k : Nat) : Store α :=
  m.filter fun e => e.1 ≠ k

/-- Inserts a listed value at its place. -/
def Store.insert {α : Type} (m : Store α) (k : Nat) (v : α) : Store α :=
  match m with
  | [] => [(k, v)]
  | (j, x) :: rest =>
    if j < k then (j, x) :: Store.insert rest k v
    else if j = k then (k, v) :: rest
    else (k, v) :: (j, x) :: rest

/-- Writes a value; writing what an unlisted key reads as removes the entry. -/
def Store.set {α : Type} [DecidableEq α] (d : α) (m : Store α) (k : Nat) (v : α) : Store α :=
  if v = d then Store.erase m k else Store.insert m k v

/-- The canonical form: keys strictly rising, and no entry equal to `d`. -/
def Store.wf {α : Type} [DecidableEq α] (d : α) (m : Store α) : Bool :=
  decide (m.Pairwise fun a b => a.1 < b.1) && m.all fun e => decide (e.2 ≠ d)

/-- Keeps the listed entries that satisfy a test. -/
def Store.keep {α : Type} (m : Store α) (p : Nat → α → Bool) : Store α :=
  m.filter fun e => p e.1 e.2

/-- Rewrites every listed value, dropping those that become `d`. -/
def Store.mapVals {α : Type} [DecidableEq α] (d : α) (m : Store α) (f : Nat → α → α) : Store α :=
  (m.map fun e => (e.1, f e.1 e.2)).filter fun e => e.2 ≠ d

/-- Writes one value at each of a list of keys. -/
def Store.setAll {α : Type} [DecidableEq α] (d : α) (m : Store α) (kvs : List (Nat × α)) : Store α :=
  kvs.foldl (fun acc kv => Store.set d acc kv.1 kv.2) m

/-- The bytes at consecutive keys. -/
def Store.range {α : Type} (d : α) (m : Store α) (k n : Nat) : List α :=
  (List.range n).map fun i => Store.get d m (k + i)

end Sys2Proof.Machine
end

