-- ==== Sys2Proof/Machine/State.lean ====
section
/-! DEFINITION. The whole state of the LZ-9600 as plain data. Every keyed collection is a `Store` in canonical form, whose
unlisted keys read as the default given beside the field. Each field's line names its width, the rule of spec/ that names
it and its value at reset: `zero`, `empty` or a number where the spec gives one, or the log entry that chose it. -/

namespace Sys2Proof.Machine

/-- The states of a split-table entry (R34, R117). -/
inductive SplitState where
  | invalid | running | ready | parked | joinWait | gangWait | suspended
  deriving DecidableEq, Repr

/-- One entry of the split table (R34). -/
structure Split where
  /-- VALID and STATE, 4 bits (R34, R117); reset: invalid -/
  state : SplitState := .invalid
  /-- PC, 32 bits (R34); reset: zero -/
  pc : Word := 0
  /-- M, 96 bits (R34); reset: zero -/
  m : Mask := 0
  /-- A, 96 bits (R34; s61 to s63 are this field of the running split, R22); reset: zero -/
  a : Mask := 0
  /-- JOINID, 12 bits (R34); reset: 0xFFF -/
  joinid : BitVec 12 := 0xFFF
  /-- TIMEOUT, 32 bits (R34); reset: zero -/
  timeout : Word := 0
  /-- ORDER, 3 bits (R34); reset: zero -/
  order : Nat := 0
  /-- TRAPM, 1 bit (R34); reset: zero -/
  trapm : Bool := false
  /-- The group and phase a PARKED split waits on (R129); reset: zero -/
  parkGroup : Nat := 0
  parkPhase : Word := 0
  /-- TIMEOUT fell to 0 in this tick, and the entry expires at its end (R122); reset: false -/
  due : Bool := false
  /-- The set N of a REGANG, 32 bits (R125); reset: zero -/
  gangSet : Word := 0
  /-- Whether a GANGWAIT was released while the entry was SUSPENDED (R126, R135); reset: false -/
  released : Bool := false
  /-- The moment the entry entered JOINWAIT or became ready, in machine steps (R122, R368); reset: zero -/
  since : Nat := 0
  deriving DecidableEq, Repr

/-- A long-latency result that is outstanding (R91, R92). `held` threads have no data yet. -/
structure Pending where
  id : Nat := 0
  scalar : Bool := false
  regs : List Nat := []
  threads : Mask := 0
  held : Mask := 0
  /-- Arrived data, keyed register * 96 + thread. -/
  data : Store Word := []
  /-- Arrived data that memory reports uncorrectable, keyed likewise (R334). -/
  poison : Store Bool := []
  /-- The tile that a row operation reads, whose PEND it keeps up (R223). -/
  tile : Option Nat := none
  deriving DecidableEq, Repr

/-- The spaces an addressed word reaches (R188). -/
inductive Space where
  | global | scratch | priv
  deriving DecidableEq, Repr

/-- What an addressed word does per thread (R200 to R210). -/
inductive MemKind where
  /-- A load; `signed` extends a narrow value. -/
  | load (signed : Bool)
  | store
  /-- ATOM and ATOMS: operation, width 64, returns. -/
  | atom (op : Nat) (w64 ret : Bool)
  | cas (w64 : Bool)
  /-- FATOM: operation, data tag, returns. -/
  | fatom (op tag : Nat) (ret : Bool)
  /-- CMAINT: invalidates, reaches L2. -/
  | maint (inv l2 : Bool)
  deriving DecidableEq, Repr

/-- An addressed word as it is performed and as the operand log holds it (R190, R315): WORD is kept as the operation it
decodes to. -/
structure MemOp where
  kind : MemKind
  space : Space
  /-- Bytes per access and number of consecutive elements (R187). -/
  bytes : Nat
  count : Nat
  /-- Destination registers, and whether they are scalar (R184). -/
  dst : List Nat
  scalar : Bool := false
  /-- Executes once for the lowest active thread (R25). -/
  uniform : Bool := false
  /-- Scope and ordering codes; ordering 0 for a plain access (R202). -/
  scope : Nat := 0
  acq : Bool := false
  rel : Bool := false
  /-- STREL, LDA and atomics are sent to a peer directly (R276). -/
  direct : Bool := false
  hint : Nat := 0
  /-- The long-latency record its results go to. -/
  pend : Option Nat := none
  pc : Word := 0
  mode : BitVec 11 := 0
  /-- Issued in trap mode: a word of a handler (R328). -/
  handler : Bool := false
  deriving DecidableEq, Repr

/-- One thread of an addressed word: its address and its data words (SRC of R315). -/
structure Lane where
  t : Nat
  addr : DWord
  data : List Word := []
  /-- The register of R335 that carries poison, as TRAPADDR names it. -/
  poison : Option Nat := none
  /-- Its thread is active, so that its access passes the watches (R254). -/
  shown : Bool := true
  /-- Performed by a replay from the operand log (R500). -/
  again : Bool := false
  deriving DecidableEq, Repr

/-- What an operand-log entry waits for (R315). -/
inductive LogWait where
  | service (part idx : Nat)
  | dirty (part : Nat)
  | refused (cause : Nat) (addr : DWord)
  /-- Reserved for the answers of a remote word (R316). -/
  | remote
  /-- Held behind an earlier entry for its page (R317). -/
  | behind (page : Nat)
  /-- A store or atomic whose thread's earlier load has not returned its value (R291). -/
  | order
  /-- The wait has ended; the entry replays next (R318). -/
  | ready
  deriving DecidableEq, Repr

/-- An operand-log entry (R315): the held threads, and those whose remote answers have not come (R316). -/
structure LogEntry where
  id : Nat
  op : MemOp
  /-- MASK from NEXT upward, with SRC (R315). -/
  lanes : List Lane
  wait : LogWait
  /-- The page its first held thread waits on, as `pageKey` numbers it, or 0 (R317). -/
  page : Nat := 0
  /-- The threads sent to a peer or to the control node, until their answers have come (R316). -/
  out : List Lane := []
  /-- Those of them that were refused: thread, cause, address (R501). -/
  refused : List (Nat × Nat × DWord) := []
  /-- Its deferred trap has been raised, and no ERET has replayed it since (R319, R320). -/
  raised : Bool := false
  deriving DecidableEq, Repr

/-- The trap registers of a warp (R137). -/
structure TrapRegs where
  /-- TRAPPC, 32 bits (R137); reset: zero -/
  pc : Word := 0
  /-- TRAPCAUSE.CAUSE and SECOND, 8 bits each (R137); reset: zero -/
  cause : BitVec 8 := 0
  second : BitVec 8 := 0
  /-- TRAPADDR, 64 bits (R137); reset: zero -/
  addr : DWord := 0
  /-- TRAPFIRST, 32 bits (R96, R137); reset: zero -/
  first : Word := 0
  /-- TRAPSLOT.SLOT, 7 bits, and PARTIAL (R137); reset: zero -/
  slot : BitVec 7 := 0
  partialBit : Bool := false
  /-- TRAPMASK, 96 bits (R137); reset: zero -/
  mask : Mask := 0
  /-- TRAPMODE, 11 bits (R137); reset: zero -/
  mode : BitVec 11 := 0
  /-- TRAPSUSP, 24 bits, three per entry (R137); reset: zero -/
  susp : BitVec 24 := 0
  deriving DecidableEq, Repr

/-- What a warp is parked on besides its split's state; the reasons of R435. -/
inductive Park where
  | none
  /-- A switch marker (R92). -/
  | marker
  /-- The word at the PC is retried (R225, R208, R316). -/
  | retry
  /-- A tile or engine wait, counted as TILEWAIT (R225). -/
  | tile
  /-- Trap entry waits for results that no log entry holds (R94, R133): what the trap then saves, CAUSE, SLOT, TRAPADDR, TRAPFIRST,
  PARTIAL and TRAPPC. -/
  | trapEntry (cause slot : Nat) (addr : DWord) (first : Word) (part : Bool) (pc : Word)
  /-- A SETQUOTA waits for pending writes and then transfers; whether it is marked (R92, R131). -/
  | quota (m : Bool)
  /-- WAITALL (R130). -/
  | waitall
  /-- HSTEP waits for the stepped word (R264); whether it is marked (R92). -/
  | hstep (target : Nat) (m : Bool)
  /-- A fetch waits for service (R312): the record, the byte address, and TRAPFIRST of a pair's second word (R96). -/
  | fetch (part idx : Nat) (va : DWord) (first : Word)
  deriving DecidableEq, Repr

/-- A warp (R17 to R44, R128, R137, R201, R258, R315, R321, R439). -/
structure Warp where
  /-- Resident in its slot, 1 bit (R1, R29); reset: false -/
  resident : Bool := false
  /-- Its workgroup and its number and role in it (R39, R40); reset: zero -/
  wg : Nat := 0
  num : Nat := 0
  role : Nat := 0
  /-- Live threads, 96 bits (R21); reset: zero -/
  live : Mask := 0
  /-- The split table of 8 entries (R34); reset: empty -/
  splits : Store Split := []
  /-- s0 to s60, 32 bits each (R27); s61 to s63 are A of the running split; reset: zero -/
  sregs : Store Word := []
  /-- Poison of scalar registers, 1 bit each (R334); reset: zero -/
  spoison : BitVec 64 := 0
  /-- v0 to v63 of 96 threads, 32 bits, keyed register * 96 + thread (R27); reset: zero -/
  vregs : Store Word := []
  /-- Format tags, 4 bits per vector register (R30, R77); reset: NONE -/
  tags : Store (BitVec 4) := []
  /-- U bits, 1 bit per vector register (R30); reset: clear -/
  u : BitVec 64 := 0
  /-- Poison of vector halves, keyed (register * 96 + thread) * 2 + half (R334); reset: clear -/
  vpoison : Store Bool := []
  /-- p0 to p7, 96 bits each (R27, R31); reset: false -/
  preds : Store Mask := []
  /-- q0 to q7 (R27); reset: false -/
  q : BitVec 8 := 0
  /-- The mode register, 11 bits (R32, R98); reset: zero -/
  mode : BitVec 11 := 0
  /-- Scalar count N, 16 to 64 (R28); reset: zero -/
  nsregs : Nat := 0
  /-- Vector allotment a, 8 to 64 (R29); reset: zero -/
  allot : Nat := 0
  /-- A SETQUOTA gift on its way: recipient and count (R131); reset: zero -/
  giveTo : Nat := 0
  giveK : Nat := 0
  /-- The trap registers (R137); reset: zero -/
  trap : TrapRegs := {}
  /-- A double trap holds every thread halted (R138); reset: false -/
  doubled : Bool := false
  /-- LOGSTAT.DEFER and REFIDX, LOGPC, LOGCTL.DROP (R321); reset: zero -/
  logDefer : Bool := false
  logRef : Nat := 0
  logPc : Word := 0
  logDrop : Bool := false
  /-- The operand log, 4 entries, oldest first (R315); reset: empty -/
  log : List LogEntry := []
  /-- Outstanding long-latency results (R91); reset: empty -/
  pending : List Pending := []
  /-- What the warp is parked on (R92, R225); reset: none -/
  park : Park := .none
  /-- A first word that acts only from a thread upward (R135, R265); reset: zero -/
  resumeFrom : Nat := 0
  /-- The cycle of its cluster from which the warp's next word is ready (R19, R141, R368); reset: zero -/
  readyAt : Nat := 0
  /-- The cycle after the first of those in which the split has been ready without a break, 0 while it is not (R368); reset: zero -/
  readySince : Nat := 0
  /-- The cycle in which YIELD bars the warp (R130); reset: zero -/
  yieldAt : Nat := 0
  /-- The cycle and the PC of its last issued word, which tell a gang's common issue (R368); reset: zero -/
  issuedAt : Nat := 0
  issuedPc : Word := 0
  /-- The threads of a store that has performed in part and waits for a write-combining entry, latched at its issue (R22, R280); reset:
  empty -/
  rest : List Lane := []
  /-- Halts that wait for that store to end: the threads, or the whole warp, the cause and the watch (R258, R262); reset: empty -/
  stops : List (Option Mask × Nat × Nat) := []
  /-- The word at the PC has been tried, and has presented its PC (R254); reset: false -/
  tried : Bool := false
  /-- Gang, or 0 for none (R37), and the targets it has branched to that another member has yet to reach (R38); reset: zero, empty -/
  gang : Nat := 0
  gangPath : List Word := []
  /-- The generators of R69: their seed, and those that have stepped, 32 bits per thread; reset: zero -/
  seedBase : Word := 0
  lfsr : Store Word := []
  /-- Counts a, masks X and phases seen per group, 32, 96 and 16 bits (R128, R300); reset: zero -/
  barA : Store Word := []
  barX : Store Mask := []
  seen : Store Word := []
  /-- THALT, 96 bits, and HPC, 32 bits per thread (R258); reset: zero -/
  thalt : Mask := 0
  hpc : Store Word := []
  /-- WHALT, HALTSLOT and PARTIAL (R258); reset: zero -/
  whalt : Bool := false
  haltSlot : Nat := 0
  haltPartial : Bool := false
  /-- HALTCAUSE cause code and watch number (R260); reset: zero -/
  haltCause : Nat := 0
  haltWatch : Nat := 0
  /-- PRIVBASE, 64 bits, and PRIVSIZE, 24 bits (R201); reset: zero -/
  privBase : DWord := 0
  privSize : Nat := 0
  /-- The retired count RC and the check-point ordinal (R439); reset: zero -/
  rc : Nat := 0
  ordinal : Nat := 0
  /-- The record area of the warp, sampled at release: mode, log size and base (R431, R439); reset: zero -/
  rrMode : Nat := 0
  rrLog : Nat := 0
  rrBase : DWord := 0
  /-- The name below which a parked MFENCE waits for MMAs, with its PC (R237); reset: none -/
  mark : Option (Word × Nat) := .none
  /-- A word to step: its unit, its thread and the warp that waits in HSTEP (R263); reset: none -/
  step : Option (Nat × Nat × Nat) := .none
  /-- What the warp was parked on when the fetch of a stepped word began to wait (R264); reset: none -/
  stepPark : Park := .none
  /-- A release or fence whose wait met a lost peer or a refused write: cause and address (R298, R327); reset: none -/
  owed : Option (Nat × DWord) := .none
  /-- The scope of the release it last began, plus 1 (R298); reset: zero -/
  relWait : Nat := 0
  deriving DecidableEq, Repr

/-- The kinds and states of a tile (R45, R224). -/
inductive TileKind where
  | scr | opnd | acc
  deriving DecidableEq, Repr
inductive TileState where
  | empty | filling | ready | draining
  deriving DecidableEq, Repr

/-- A tile-table entry (R45, R213, R223). -/
structure Tile where
  /-- Reserved by a workgroup's window (R46); reset: false -/
  used : Bool := false
  /-- KIND, 2 bits (R45); reset: SCR -/
  kind : TileKind := .scr
  /-- BASE: offset (SCR), first quantum (OPND), first column (ACC) (R45); reset: zero -/
  base : Nat := 0
  /-- The logical accumulator of an ACC tile (R213); reset: zero -/
  lacc : Nat := 0
  /-- SHAPE (R45); reset: zero -/
  rows : Nat := 0
  cols : Nat := 0
  /-- TAG, 4 bits (R45); reset: NONE -/
  tag : Nat := 0
  /-- STATE, 2 bits (R45); reset: EMPTY -/
  state : TileState := .empty
  /-- READERS, 0 to 255 (R45); reset: zero -/
  readers : Nat := 0
  /-- OWNER: the workgroup (R45); reset: zero -/
  owner : Nat := 0
  /-- BOUND of R223; reset: false -/
  bound : Bool := false
  /-- ERR with its cause and address (R233); reset: false -/
  err : Bool := false
  errCause : Nat := 0
  errAddr : DWord := 0
  /-- Work that names the tile and has not completed (PEND of R223): copies and collectives, and MMAs; reset: zero -/
  work : Nat := 0
  mmas : Nat := 0
  /-- The queue of the pending fills or drains (R224); reset: zero -/
  queue : Nat := 0
  /-- The last pending drain has FREE (R224); reset: false -/
  free : Bool := false
  /-- The tile was EMPTY when its first pending fill was posted, and the cells written since (R224); reset: false -/
  fresh : Bool := false
  deriving DecidableEq, Repr

/-- The entries of an engine queue (R227 to R232, R244). -/
inductive EngineWork where
  /-- CPY: destination and source tiles, row and column offset, FREE. -/
  | cpy (dst src row col : Nat) (free : Bool)
  /-- CPYG: the tile, direction, FREE, T, BASE, PITCH, BPOFF. -/
  | cpyg (tile : Nat) (store free trans : Bool) (base : DWord) (pitch bpoff : Nat)
  /-- QFENCE: its number and the queues it names. -/
  | marker (id mask : Nat)
  /-- COLL: the handle, its round (R488), and its tile. -/
  | coll (handle round : Nat) (tile : Option Nat)
  deriving DecidableEq, Repr

/-- An engine-queue entry with the mode it latched (R229). -/
structure EngineEntry where
  id : Nat
  work : EngineWork
  /-- The warp that posted it (R295). -/
  wid : Nat := 0
  mode : BitVec 11 := 0
  started : Bool := false
  /-- The chunk at which the copy started or goes on, and the cycle of its cluster in which it did (R247). -/
  chunk : Nat := 0
  since : Nat := 0
  /-- A fault wait: the record it waits on, its address, and a refusal with its cause and address (R232, R233). -/
  waitRec : Option (Nat × Nat) := none
  waitVa : DWord := 0
  refused : Option (Nat × DWord) := none
  /-- Its remote accesses have been sent, those without an answer, and the bytes that have come,
  each plus 1, keyed by address (R232). -/
  asked : Bool := false
  out : Nat := 0
  got : Store Nat := []
  /-- A collective: its own elements as sent and its new residual, once sent (R245, R488). -/
  own : List Word := []
  res : List Word := []
  /-- Its results are written, and it waits for what they went to elsewhere before it signals (R246). -/
  stored : Bool := false
  deriving DecidableEq, Repr

/-- A queued or running MMA (R235). -/
structure Mma where
  id : Nat
  wg : Nat
  dst : Nat
  a : Nat
  b : Nat
  zero : Bool
  running : Bool := false
  /-- Its start time has come, and it waits for the engine (R235). -/
  due : Bool := false
  /-- The next K step, 0 to 128 (R247), and the steps that single elements have taken, keyed as the accumulator (R236). -/
  step : Nat := 0
  ahead : Store Nat := []
  /-- The cycle of its cluster in which it started to run (R235). -/
  since : Nat := 0
  deriving DecidableEq, Repr

/-- A watch (R252 to R257). -/
structure Watch where
  valid : Bool := false
  armed : Bool := false
  hit : Bool := false
  cntovf : Bool := false
  count : Word := 0
  lastT : Nat := 0
  lastW : Nat := 0
  src : Nat := 0
  cmp : Nat := 0
  act : Nat := 0
  chain : Bool := false
  oneshot : Bool := false
  space : Nat := 0
  tlo : Nat := 0
  thi : Nat := 0
  anyctx : Bool := false
  warps : Word := 0
  va : DWord := 0
  vb : DWord := 0
  part : Nat := 0
  ctx : Nat := 0
  deriving DecidableEq, Repr

/-- A write-combining entry (R280, R281). -/
structure WcEntry where
  id : Nat
  ctx : Nat
  peer : Nat
  line : Nat
  mask : BitVec 128 := 0
  bytes : Store Byte := []
  /-- A drain is in flight. -/
  sent : Bool := false
  /-- The ticket that holds it (R323). -/
  ticket : Option Nat := none
  deriving DecidableEq, Repr

/-- What a ticket or a sent request resolves: a log entry's lane or a write-combining entry (R323). -/
inductive RemoteLink where
  | lane (wid log t : Nat)
  | wc (core id : Nat)
  /-- An engine's access: workgroup and queue. -/
  | engine (wg q : Nat)
  /-- A scarab's access for the packet of a queue, and one of a running XCOPY. -/
  | queue (q : Nat)
  | xcopy (q idx : Nat)
  deriving DecidableEq, Repr

/-- A request this device has sent and not had answered (R410, R418). -/
structure Sent where
  x : Txn
  link : RemoteLink
  core : Nat
  /-- Its place in send order (R323). -/
  ord : Nat := 0
  /-- Answered BUSY and waiting to be resent (R415). -/
  busied : Bool := false
  /-- It comes from a ticket, which has held it (R324, R414). -/
  replayed : Bool := false
  deriving DecidableEq, Repr

/-- A ticket-table entry (R323). -/
structure TicketEntry where
  ctx : Nat
  peer : Nat
  page : Nat
  ticket : Nat
  /-- The plane of the first answer, and of its notice. -/
  plane : Nat := 0
  /-- REPLAY: the notice has come and the linked accesses are being resent. -/
  replay : Bool := false
  /-- The linked accesses, in send order. -/
  links : List Sent := []
  deriving DecidableEq, Repr

/-- A cached translation (R309). -/
structure Tlb where
  part : Nat
  asid : Nat
  ctx : Nat
  vpage : Nat
  /-- log2 of the page's bytes: 13, 23 or 33 (R305). -/
  size : Nat
  pa : Nat
  rd : Bool
  wr : Bool
  ex : Bool
  sys : Bool
  d : Bool
  gen : Nat := 0
  deriving DecidableEq, Repr

/-- A core (R1, R45 to R48, R235, R273, R280, R309, R323, R370). -/
structure Core where
  /-- The tile table, 32 entries (R45); reset: empty -/
  tiles : Store Tile := []
  /-- Operand quanta, 16: owner workgroup + 1, and last owner + 1 (R47, R53); reset: zero -/
  qOwner : Store Nat := []
  qLast : Store Nat := []
  /-- Elements of operand quanta, keyed quantum * 2^17 + index; E2M1X scale and special beside them (R47); reset: zero -/
  quanta : Store Nat := []
  side : Store Nat := []
  /-- Accumulator tiles, 4: owner + 1, last owner + 1, elements keyed tile * 2^16 + row * 192 + column (R48); reset: zero -/
  accOwner : Store Nat := []
  accLast : Store Nat := []
  acc : Store Word := []
  /-- Progress counters, 0 to 127, keyed tile * 6 + block, and whether an MMA is held over the block (R48, R260); reset: zero -/
  prog : Store Nat := []
  progHeld : Store Bool := []
  /-- The matrix engine's queue of 8 (R235); reset: empty -/
  mmas : List Mma := []
  /-- The 16 watches (R252); reset: cleared -/
  watches : Store Watch := []
  /-- The write-combining buffer, 32 entries, oldest first (R280); reset: empty -/
  wc : List WcEntry := []
  /-- The ticket table, 32 entries (R323); reset: empty -/
  tickets : List TicketEntry := []
  /-- The core TLB, 1024 entries, newest first (R309); reset: empty -/
  tlb : List Tlb := []
  /-- The last-page registers, 64, keyed lane (R309); reset: invalid -/
  lastPage : Store (Option Tlb) := []
  /-- The instruction cache, 64 KiB, newest first: launch, physical address and word (R1, R104); reset: empty -/
  icache : List (Nat × Nat × Word) := []
  /-- L1 lines in order of allocation with their placement class: 0 streaming, 1 normal, 2 keep (R189, R273); reset: empty -/
  l1lines : List (Nat × Nat) := []
  /-- The context staged in the shadow bank + 1, and whether staging is complete (R370); reset: zero -/
  shadow : Nat := 0
  shadowReady : Bool := false
  /-- The core is exchanging with its bank (R370, R433); reset: false -/
  swapping : Bool := false
  deriving DecidableEq, Repr

/-- A byte of a core's L1 (R273, R274). -/
structure L1Byte where
  val : Byte
  dirty : Bool
  since : Nat
  priv : Bool
  /-- Dirty, in a 32-byte unit that one store has replaced whole (R334). -/
  whole : Bool := false
  deriving DecidableEq, Repr

/-- A race-checked sector (R300). WRITER and READER are the warp's number in its workgroup + 1; READER 2^32 is MANY. -/
structure Sector where
  writer : Nat := 0
  wph : BitVec 16 := 0
  reader : Nat := 0
  rph : BitVec 16 := 0
  deriving DecidableEq, Repr

/-- A workgroup resident on a core (R39 to R46, R227). -/
structure Workgroup where
  resident : Bool := false
  core : Nat := 0
  launch : Nat := 0
  wgid : Nat := 0
  /-- Its warps, by number (R40). -/
  warps : List Nat := []
  /-- First entry and count of its tile window (R46). -/
  tbase : Nat := 0
  tcount : Nat := 0
  /-- Accumulator tiles bound to its logical accumulators, + 1 (R215). -/
  accs : Store Nat := []
  /-- Scratchpad bytes (R39) and its race sectors (R300). -/
  scratchLen : Nat := 0
  scratch : Store Byte := []
  sectors : Store Sector := []
  /-- Engine queues e0 to e7, 16 entries each (R227). -/
  queues : Store (List EngineEntry) := []
  /-- The copy engine each queue is bound to (R227). -/
  engines : Store Nat := []
  /-- Generators of the queues (R231): seed and those that have stepped, keyed queue * 96 + t. -/
  seed : Word := 0
  lfsr : Store Word := []
  /-- Engines are stopped by ENGHALT or a dump (R264, R441). -/
  engHalt : Bool := false
  /-- Its warps stop at an instruction boundary and wait to be pre-empted (R369); reset: false -/
  stopping : Bool := false
  /-- The launch + 1 for whose room it is to leave its core (R353, R369); reset: zero -/
  roomFor : Nat := 0
  /-- Pre-empted: its warps and its core's part stand in its context's save (R369, R371). -/
  out : Bool := false
  deriving DecidableEq, Repr

/-- A group-table entry (R42). -/
structure Group where
  valid : Bool := false
  roles : BitVec 4 := 0
  warps : Word := 0
  wgsel : Nat := 0
  blocklog : Nat := 0
  deriving DecidableEq, Repr

/-- A role (R40, R356). -/
structure Role where
  entry : Word := 0
  warps : Nat := 0
  vregs : Nat := 0
  sregs : Nat := 0
  threads : Nat := 0
  deriving DecidableEq, Repr

/-- A tile record of a launch (R357). -/
structure TileRec where
  kind : Nat := 0
  tag : Nat := 0
  rows : Nat := 0
  cols : Nat := 0
  lacc : Nat := 0
  col : Nat := 0
  base : Nat := 0
  deriving DecidableEq, Repr

/-- A launch (R354 to R363). -/
structure Launch where
  active : Bool := false
  queue : Nat := 0
  index : Nat := 0
  ctx : Nat := 0
  id : Word := 0
  sigAddr : DWord := 0
  sigVal : DWord := 0
  arg : DWord := 0
  /-- RINGBASE of its queue, by which a queue bound later takes the launch up again (R374). -/
  ring : DWord := 0
  codebase : DWord := 0
  database : DWord := 0
  privArea : DWord := 0
  privWords : Nat := 0
  scratch : Nat := 0
  gridX : Nat := 0
  gridY : Nat := 0
  gridZ : Nat := 0
  isResident : Bool := false
  roles : List Role := []
  tiles : List TileRec := []
  groups : Store Group := []
  /-- Ranges: offset, length, group (R299). -/
  races : List (Nat × Nat × Nat) := []
  /-- The next WGID to place and the number retired (R360, R363). -/
  next : Nat := 0
  retired : Nat := 0
  /-- The completed count c of each group (R128), keyed group * 2^32 + the block or workgroup it belongs to. -/
  barC : Store Word := []
  /-- Warps that have ended, keyed wgid * 32 + warp number (R44). -/
  ended : Store Bool := []
  deriving DecidableEq, Repr

/-- A beat contract (R384). -/
structure Contract where
  target : Nat := 0
  ilog : Nat := 0
  cls : Nat := 0
  res : Nat := 0
  kp : Nat := 0
  ki : Nat := 0
  imax : Nat := 0
  dfloor : Nat := 0
  dceil : Nat := 0
  group : Nat := 0
  gsize : Nat := 0
  floors : List Nat := []
  ceils : List Nat := []
  activeBit : Bool := false
  keepi : Bool := false
  deriving DecidableEq, Repr

/-- The loop state of a context (R400, R402). -/
structure Loop where
  /-- BEATCNT, 32 bits (R402); reset: zero -/
  count : Word := 0
  /-- BEATLAST.USED and LOCAL (R402); reset: zero -/
  used : Nat := 0
  lcl : Nat := 0
  /-- E, I, D, G and the demand of the previous step (R390, R402); reset: zero -/
  e : Int := 0
  i : Int := 0
  d : Nat := 0
  g : Nat := 0
  dprev : Nat := 0
  /-- Positions of SLOTS, CORES, WAYS, SHARE, CLK (R385, R402); reset: empty -/
  pos : List Nat := []
  /-- Granted cores (R387), and those of a class-0 contract that wait until their cluster runs at the promise clock (R393);
  reset: empty -/
  cores : List Nat := []
  coming : List Nat := []
  /-- The cores that a class-0 demand is about to be granted, whose clusters come up to the promise clock ahead (R392, R393);
  reset: empty -/
  ahead : List Nat := []
  /-- The L2 ways held under a contract (R385, R393); reset: empty -/
  ways : List Nat := []
  /-- IW (R394); reset: 4 -/
  iw : Nat := 4
  /-- RUN, HELD, SUSP, GMISS (R398, R402); reset: zero -/
  run : Nat := 0
  held : Bool := false
  susp : Bool := false
  gmiss : Bool := false
  /-- The contract in force and the one waiting for an interval end (R388); reset: none -/
  contract : Option Contract := none
  waiting : Option Contract := none
  /-- A step waits for its group merge (R392, R403); reset: false -/
  merging : Bool := false
  /-- The T of its latest beat report (R417); reset: zero -/
  reported : Nat := 0
  /-- The interval that ended was WITHHELD, the lowest step seen, and the measured counts of the run (R397 to R399); reset: zero -/
  withheld : Bool := false
  lowStep : Nat := 0
  meas : List Nat := []
  /-- The grant in force during the interval, and the demand under a new step; reset: zero -/
  gPrev : Nat := 0
  /-- Beats counted and breaches recorded in this second (R467); reset: zero -/
  beatsSec : Nat := 0
  breachSec : Nat := 0
  /-- The interval that runs has been WITHHELD so far, and the lowest step of its clusters (R397, R399); reset: false, 23 -/
  withheldNow : Bool := false
  lowNow : Nat := 23
  deriving DecidableEq, Repr

/-- A collective handle (R242). -/
structure Handle where
  used : Bool := false
  desc : DWord := 0
  /-- COLLs posted and not complete, and whether any has been performed (R242, R243). -/
  posted : Nat := 0
  first : Bool := false
  /-- The round of R416. -/
  round : Nat := 0
  deriving DecidableEq, Repr

/-- The registers and state of a context (R49 to R52, R70, R137, R267, R282, R283, R308, R372, R402, R431). -/
structure Ctx where
  /-- CTXSTAT.BUSY, LIVE, SAVED, ERR (R373); reset: zero -/
  busy : Bool := false
  live : Bool := false
  saved : Bool := false
  err : Nat := 0
  /-- TVEC, 32 bits (R137); reset: zero -/
  tvec : Word := 0
  /-- EXECCFG.HAZCHK and HAZLOCK (R52); reset: zero -/
  hazchk : Bool := false
  hazlock : Bool := false
  /-- The last write of HAZCHK: the value before it, the moment, and the warp that wrote it + 1 (R52); reset: zero -/
  hazOld : Bool := false
  hazAt : Nat := 0
  hazBy : Nat := 0
  /-- SEED, 32 bits (R70); reset: zero -/
  seed : Word := 0
  /-- MEMCFG.FENCE_STRICT, PLTRAP, WCAGE, SCOPEMAX (R282); reset: zero, WCAGE 7 -/
  strict : Bool := false
  pltrap : Bool := false
  wcage : Nat := 7
  scopemax : Nat := 0
  /-- STATUS.FDEMOTE, PEERLOST, LOSTPEER (R283); reset: zero -/
  fdemote : Bool := false
  peerlost : Bool := false
  lostpeer : Nat := 0
  /-- PTROOT [39:13] and ASIDR (R308); reset: zero -/
  ptroot : Nat := 0
  asid : Nat := 0
  /-- DBGCTL, 4 bits, and DBGSTAT, 5 bits with STEPCAUSE (R267); reset: zero -/
  dbgctl : BitVec 4 := 0
  dbgstat : BitVec 5 := 0
  stepcause : BitVec 8 := 0
  /-- TRACECTL.ON, WRAP, TRAPS, TRLOG; TRACEBASE, TRACEPTR, TRACEOVF and the count at the last TRACECTL write (R430, R431); reset: zero, TRLOG 10 -/
  trOn : Bool := false
  trWrap : Bool := false
  trTraps : Bool := false
  trlog : Nat := 10
  tracebase : DWord := 0
  traceptr : Word := 0
  traceovf : Nat := 0
  traceMark : Word := 0
  /-- RRCTL.MODE, OVF, RRLOG and RRAREA (R431); reset: zero, RRLOG 8 -/
  rrMode : Nat := 0
  rrOvf : Bool := false
  rrlog : Nat := 8
  rrarea : DWord := 0
  /-- DUMPCTL.ON and CAUSES, DUMPBASE, DUMPSIZE; a dump is running (R431, R441); reset: zero -/
  dumpOn : Bool := false
  dumpCauses : BitVec 20 := 0
  dumpbase : DWord := 0
  dumpsize : Word := 0
  dumping : Bool := false
  /-- The record a dump waits on with its page, and the pages that translation refused it (R442); reset: none, empty -/
  dumpWait : Option (Nat × Nat × Nat) := none
  dumpBad : List Nat := []
  /-- The tick of the trap that dumps, and its warp (R441); reset: zero -/
  dumpAt : Nat := 0
  dumpBy : Nat := 0
  /-- SAVEBASE and SAVESIZE of the context record (R372); reset: zero -/
  savebase : Nat := 0
  savesize : Nat := 0
  /-- Loop state (R400); reset: none -/
  loop : Loop := {}
  /-- The 16 collective handles (R242); reset: free -/
  handles : Store Handle := []
  /-- Event counts by id, keyed scope * 2^16 + id (R268, R436, R437); reset: zero -/
  counts : Store Nat := []
  /-- A refused or lost buffered write that the next release traps for: cause, address (R327, R501); reset: none -/
  wcFault : Option (Nat × DWord) := none
  /-- A refused posted SYS store likewise (R501); reset: none -/
  sysFault : Option (Nat × DWord) := none
  /-- Posted SYS stores that await their acknowledgement (R276); reset: zero -/
  sysOut : Nat := 0
  /-- The context held a grant or issued a word in this second, granted positions x ticks up to the tick of their last change, and energy in pJ (R467); reset: zero -/
  usedSec : Bool := false
  posMs : List Nat := []
  posAt : Nat := 0
  energy : Nat := 0
  /-- A SAVE is taking its workgroups off their cores (R373); reset: false -/
  out : Bool := false
  deriving DecidableEq, Repr

/-- The states of a partition (R457) and of its reset (R379). -/
inductive PartState where
  | free | active | resetting | destroying
  deriving DecidableEq, Repr
inductive ResetState where
  | run | quiesce | writeback | zero | replay
  deriving DecidableEq, Repr

/-- A partition: its cached entry (R455) and what the machine keeps for it. -/
structure Part where
  /-- PSTAT.STATE (R457); reset: FREE -/
  state : PartState := .free
  /-- The cached entry, 256 bytes (R455, R456); reset: empty -/
  entry : Store Byte := []
  /-- The reset machine, its cause and a cause that waits (R378, R379); reset: run -/
  reset : ResetState := .run
  cause : Nat := 0
  nextCause : Nat := 0
  /-- NEXT of the four rings, 24 bits each: fault queue, dirty log, supervisor, hypervisor (R376); reset: zero -/
  next : Store Nat := []
  /-- Events held for lack of ring space, and OVF, keyed ring (R375); reset: empty -/
  heldEv : Store (List (List Byte)) := []
  ovf : Store Nat := []
  /-- Fault records open: index, asid, page, ctx, kind, remote peer + 1 (R313, R314); reset: empty -/
  faults : List (Nat × Nat × Nat × Nat × Nat × Nat) := []
  /-- DIRTY_FULL has been sent for this fill (R330); reset: false -/
  dirtyFull : Bool := false
  /-- The usage log: SEQ, records of the open block, DIGEST of the last block, first and last tick (R467, R468); reset: zero -/
  useq : Nat := 0
  urecs : List (List Byte) := []
  udigest : List Byte := []
  ufirst : Nat := 0
  ulast : Nat := 0
  /-- A DESTROY waits for a reset to end (R457); reset: false -/
  destroyWait : Bool := false
  /-- Contexts whose queues stayed STOPPED through a reset (R379); reset: empty -/
  stoppedQ : List Nat := []
  /-- New values of an UPDATE that wait for the next interval end (R457); reset: none -/
  updated : Option (Store Byte) := none
  deriving DecidableEq, Repr

/-- The states of a queue (R342). -/
inductive QState where
  | unbound | idle | active | waiting | stopped
  deriving DecidableEq, Repr

/-- A running XCOPY (R350): its packet, what it waits for, and the bytes that have come from elsewhere, each plus 1. -/
structure XCopy where
  /-- Its own name, and the index of its packet; whether its end completes that packet: the signal of an ended launch completes none
  (R345, R363). -/
  run : Nat
  idx : Nat
  counts : Bool := true
  /-- Its queue has been unbound since, and stops for it no more (R342). -/
  orphan : Bool := false
  /-- The context it acts for. -/
  ctx : Nat := 0
  src : Nat := 0
  dst : Nat := 0
  len : Nat := 0
  /-- Where and what it signals at its end, and whether a message goes to the control node (R346). -/
  sigAddr : Option Nat := none
  sigVal : Nat := 0
  msg : Bool := false
  /-- The signal is a release at SYSTEM scope, whose drains have begun (R281, R346). -/
  sys : Bool := false
  drained : Bool := false
  waitRec : Option (Nat × Nat) := none
  refused : Bool := false
  out : Nat := 0
  asked : Bool := false
  /-- Its bytes are written, and its signal is not. -/
  copied : Bool := false
  got : Store Nat := []
  deriving DecidableEq, Repr

/-- A hardware queue (R337 to R343). -/
structure Queue where
  /-- STATE (R342); reset: UNBOUND -/
  state : QState := .unbound
  /-- ERR (R343); reset: zero -/
  err : Nat := 0
  /-- QCB physical address of the BIND (R337); reset: zero -/
  qcb : Nat := 0
  /-- Cached P fields and ring (R338); reset: zero -/
  asid : Nat := 0
  part : Nat := 0
  cls : Nat := 0
  ctx : Nat := 0
  ringbase : DWord := 0
  ringlog : Nat := 0
  /-- HEAD, TAIL as last read, DONEPOS, DONEORD (R337); reset: zero -/
  head : Word := 0
  tail : Word := 0
  donepos : Word := 0
  doneord : DWord := 0
  /-- Started packets that have not completed, by index (R344); reset: empty -/
  inflight : List Nat := []
  /-- A packet's event is scheduled; reset: false -/
  busy : Bool := false
  /-- The launch being placed + 1 (R360); reset: zero -/
  placing : Nat := 0
  /-- STOP arrived while placing (R382); reset: false -/
  stopWait : Bool := false
  /-- The tick of the last advance of HEAD or retirement (R377); reset: zero -/
  advance : Nat := 0
  /-- A wait with NOWD (R347, R348); reset: false -/
  nowd : Bool := false
  /-- The wakes that HEAD has yet to pass: the TAIL of each and its order at L2 (R352); reset: empty -/
  wakes : List (Word × Nat) := []
  /-- The packet at HEAD as it was read at its start (R344); reset: empty -/
  pkt : List Byte := []
  /-- Running XCOPYs (R350); reset: empty -/
  copies : List XCopy := []
  /-- The packet at HEAD waits for service of a page or for bytes from elsewhere: the record, the event to run again, a refusal,
  the lines asked for, and the bytes that have come, each plus 1 (R343, R344); reset: none -/
  waitRec : Option (Nat × Nat) := none
  waitEv : Option Instr := none
  refused : Bool := false
  out : Nat := 0
  got : Store Nat := []
  /-- A write has reached its TAIL word at the home L2, of which the scarab is yet to be notified (R340); reset: false -/
  rung : Bool := false
  deriving DecidableEq, Repr

/-- The lock states of a port (R424). -/
inductive PortState where
  | unlocked | locked | run | error
  deriving DecidableEq, Repr

/-- A fabric port (R418 to R425). -/
structure Port where
  /-- PORTCFG.EN, LOOP, TAGMAX (R425); reset: zero, TAGMAX 3 -/
  en : Bool := false
  loopback : Bool := false
  tagmax : Nat := 3
  /-- LOCKST, LINKUP, SESSION, ERRCAUSE, DROPS (R425); reset: zero -/
  state : PortState := .unlocked
  linkup : Bool := false
  session : Bool := false
  errcause : Nat := 0
  drops : Nat := 0
  /-- Flit counters sent, received and acknowledged, 64 bits (R418); reset: zero -/
  sentCnt : Nat := 0
  rcvdCnt : Nat := 0
  ackCnt : Nat := 0
  /-- Consecutive tag failures (R418); reset: zero -/
  tagFail : Nat := 0
  /-- Stopped virtual channels (R419); reset: zero -/
  stopped : BitVec 4 := 0
  /-- The counters sent and received at the last key change, and whether a KEY_UPDATE runs (R423); reset: zero -/
  keyAt : Nat := 0
  keyRcvd : Nat := 0
  keyUpdating : Bool := false
  /-- The latest PSTATE map of the plane, and whether one has come (R420); reset: zero -/
  pstate : BitVec 512 := 0
  pstateSeen : Bool := false
  /-- The tick of the last word received (R420, R424); reset: zero -/
  heard : Nat := 0
  /-- No word has come for 4 us (R420); reset: false -/
  quiet : Bool := false
  /-- The switch's tick less the device's, as last heard (R7); reset: none -/
  skew : Option Int := none
  /-- The SPDM request that awaits its answer (R422); reset: none -/
  asking : Option SpdmReq := none
  deriving DecidableEq, Repr

/-- A path to a peer on a plane (R420). -/
structure Path where
  /-- It was up and is timing out (R420); reset: false -/
  timing : Bool := false
  /-- It has been timing out for 20 us (R420); reset: false -/
  down : Bool := false
  deriving DecidableEq, Repr

/-- An owner's ticket key (R322, R414). -/
structure OwnerKey where
  ticket : Nat
  ten : Nat
  src : Nat
  ctx : Nat
  page : Nat
  plane : Nat
  part : Nat
  record : Nat
  /-- The kind of the access that drew the ticket (R313). -/
  acc : Access := .read
  noticed : Bool := false
  /-- The next TIDX to perform, and resends that came early (R414). -/
  nextIdx : Nat := 0
  early : List Txn := []
  deriving DecidableEq, Repr

/-- What an answered access to control-node memory resolves (R276, R316). -/
structure SysReq where
  id : Nat
  link : RemoteLink
  ctx : Nat
  addr : DWord
  isStore : Bool
  bytes : List Byte
  len : Nat
  /-- A posted store, for which no operand-log entry stands (R276, R501). -/
  posted : Bool := false
  deriving DecidableEq, Repr

/-- A saved or pre-empted context: what the machine's own layout of a save area holds (R371, R374). Warps are keyed
workgroup * 32 + number, and the part of a core that a workgroup held is keyed by the workgroup. -/
structure Saved where
  warps : Store Warp := []
  /-- Workgroups, launches and registers, after a SAVE only. -/
  wgs : Store Workgroup := []
  launches : Store Launch := []
  cores : Store Core := []
  regs : Ctx := {}
  /-- Ticketed write-combining entries, with what links them to their tickets (R323, R371). -/
  wc : List WcEntry := []
  tickets : List TicketEntry := []
  /-- Replay notices that came while it was switched out: peer, plane, ticket, code (R326). -/
  notices : List (Nat × Nat × Nat × Nat) := []
  /-- A SAVE has written the area (R373): its first byte, its size, and the bytes it wrote. -/
  whole : Bool := false
  base : Nat := 0
  size : Nat := 0
  image : List Byte := []
  deriving DecidableEq, Repr

/-- A cluster's clock, throttle and estimator (R444 to R454). -/
structure Cluster where
  /-- CLKSTEP.CUR, TGT, CHANGING (R454); reset: zero -/
  step : Nat := 0
  /-- When CUR was last set, and the thousandths of a cycle that had passed then (R4); reset: zero -/
  since : Nat := 0
  base : Nat := 0
  target : Nat := 0
  changing : Bool := false
  /-- The latest request waiting (R446); reset: none -/
  queued : Option Nat := none
  /-- When the ramp of the supply began, and from how many mV (R446); reset: zero, 650 -/
  rampAt : Nat := 0
  rampFrom : Nat := 650
  /-- The step asked for by contexts (R444); reset: zero -/
  request : Nat := 0
  /-- PATTERN (R454); reset: 0xFFFF_FFFF -/
  pattern : Word := 0xFFFFFFFF
  /-- KCAP and KBAL (R454); reset: 32 -/
  kcap : Nat := 32
  kbal : Nat := 32
  /-- ESTPWR in mW (R454); reset: zero -/
  est : Nat := 0
  /-- DENYCNT (R454); reset: zero -/
  deny : Nat := 0
  /-- us for which the pair has been over 10 % or under 5 % imbalance (R453); reset: zero -/
  heavyUs : Nat := 0
  calmUs : Nat := 0
  /-- Its cycle at the last power estimate (R448); reset: zero -/
  estAt : Nat := 0
  /-- Cluster TLB, 4096 entries (R309); reset: empty -/
  tlb : List Tlb := []
  deriving DecidableEq, Repr

/-- The refit state of a series pair (R449): six weights and the 6 x 6 matrix P, exact rationals; reset: nominal, 10^6 I. -/
structure Refit where
  w : List Rat := []
  p : List (List Rat) := []
  /-- The summed counts of the pair in each millisecond since the last refit, the latest first (R449); reset: none -/
  xs : List (List Rat) := []
  deriving DecidableEq, Repr

/-- A slice's choice state (R365, R366). -/
structure Slice where
  /-- DEF of the resident contexts in order of arrival (R366); reset: empty -/
  defs : List (Nat × Int) := []
  /-- The cycle after that of the last issued word, and the cycle from which the lane pipe is free (R365); reset: zero -/
  issued : Nat := 0
  pipe : Nat := 0
  /-- The cycle after that in which a word last took the lane pipe; the model's own book; reset: zero -/
  taken : Nat := 0
  /-- The words of each context that have issued since the last power estimate (R467); reset: empty -/
  words : Store Nat := []
  /-- The lane operations of its words, and the accesses of 32 bytes that they make, since then (R448; log 56); reset: zero -/
  vl : Nat := 0
  sr : Nat := 0
  deriving DecidableEq, Repr

/-- A collective chunk received (R416). -/
structure CollChunk where
  ctx : Nat
  handle : Nat
  src : Nat
  round : Nat
  off : Nat
  bytes : List Byte
  deriving DecidableEq, Repr

/-- A message to the control node over HOCP (R346, R376, R473). -/
inductive HocpMsg where
  | signal (q : Nat) (v : DWord)
  | report (bytes : List Byte)
  | block (pa : Nat) (bytes : List Byte)
  | sysRead (id : Nat) (addr : DWord) (len part ten : Nat)
  | sysWrite (id : Nat) (addr : DWord) (bytes : List Byte) (part ten : Nat)
  | sysAtom (id : Nat) (addr : DWord) (op : Nat) (bytes : List Byte) (part ten : Nat)
  deriving DecidableEq, Repr

/-- The machine. -/
structure State where
  /-- The global tick, 64 bits (R6); reset: zero -/
  tick : DWord := 0
  /-- The model's own counters: of machine steps, of names given out, and of free values drawn (log 1); reset: zero -/
  serial : Nat := 0
  names : Nat := 0
  free : Nat := 0
  /-- The context + 1 of the memory access that came last, whose WAYS an L2 allocation keeps to (R385; log 22); reset: zero -/
  memCtx : Nat := 0
  /-- The lines that the home L2 has missed; the model's own counter, from which event 0x101 is taken (R437); reset: zero -/
  l2Misses : Nat := 0
  /-- Since the last power estimate: T, P and SR of the engines of each core and the lines that it moves, as far as its slices do not
  count them (R448; log 56), and the lines of HBM read or written (R450); reset: zero -/
  work : Store PowerSample := []
  hbmMoves : Nat := 0
  /-- The flits that the ports had sent and received by then, and the estimates so far (R449, R450); reset: zero -/
  flitsAt : Nat := 0
  estimates : Nat := 0
  /-- Nanoseconds since reset, and the pass over the cycles that begin in this one (R4, R433; log 7); reset: zero -/
  time : Nat := 0
  sub : Nat := 0
  /-- What is due: tick and event (log 2); reset: the first power estimate after 1 us (R448), the loss of peers whose
  paths never come up (R421), the first age scan at 4 ms (R332) -/
  calendar : List (Nat × Instr) := [(1000, .powerEstimate [] 0 0), (500000, .peerLost 0), (4000000, .pageAgeScan)]
  /-- The warp whose word executes (log 3); reset: zero -/
  cur : Nat := 0
  /-- The slice that chooses next in this cycle, and the slices (R365, R366); reset: zero -/
  slicePtr : Nat := 0
  slices : Store Slice := []
  /-- The warps, keyed core * 128 + slot (R1); reset: none resident -/
  warps : Store Warp := []
  /-- Workgroups and launches, keyed by the dispatcher's own numbers; reset: none -/
  wgs : Store Workgroup := []
  launches : Store Launch := []
  /-- The cores, 160 (R1); reset: empty -/
  cores : Store Core := []
  /-- HBM bytes by physical address (R304; R475: every frame is zeroed); reset: zero -/
  hbm : Store Byte := []
  /-- Bytes the home L2 holds newer than HBM (R275); reset: empty -/
  l2 : Store (Option Byte) := []
  /-- The lines of the two L2s, each 96 MiB in 32768 sets of 24 ways, keyed set * 32 + way: the line's number and its placement
  class, 1 streaming, 2 normal, 3 keep, 0 for an empty way (R2, R189); reset: empty -/
  l2Ways : Store (Nat × Nat) := []
  /-- L1 bytes, keyed core * 2^40 + physical address (R273); reset: empty -/
  l1 : Store (Option L1Byte) := []
  /-- Uncorrectable reports of 32-byte units, by address / 32 (R334); reset: none -/
  poisoned : Store Bool := []
  /-- The bytes of a reported unit that the last write there has replaced, with the write's name (R334); the model's own book; reset:
  empty -/
  written : Store (Nat × BitVec 32) := []
  /-- The frame table (R304): owner partition + 1, 17 for the hypervisor, 18 for none, 0 as at reset; reset: log 4 -/
  frames : Store Nat := []
  /-- Ages of pages by frame (R332) and frames pinned by a QCB (R337); reset: zero -/
  ages : Store Nat := []
  pinned : Store Bool := []
  /-- The package generation of last-page registers, 16 bits (R310); reset: zero -/
  gen : Nat := 0
  /-- The contexts, partitions and queues; reset: empty -/
  ctxs : Store Ctx := []
  parts : Store Part := []
  queues : Store Queue := []
  /-- Buffers whose zeroing is not complete (R53, R54); reset: empty -/
  zeroing : List ZeroBuf := []
  /-- Contexts saved or switched out (R371); reset: none -/
  saves : Store Saved := []
  /-- QSEL, QBASE, QPRIV0, QPRIV1, WDOG (R341); reset: zero, WDOG 2000 -/
  qsel : Nat := 0
  qbase : Nat := 0
  qpriv0 : BitVec 22 := 0
  qpriv1 : Word := 0
  wdog : Nat := 2000
  /-- CTXSEL (R373), RINGSEL (R376); reset: zero -/
  ctxsel : Nat := 0
  ringsel : BitVec 6 := 0
  /-- ATTREQ, ATTSTAT (R473); reset: zero -/
  attreq : Nat := 0
  attBusy : Bool := false
  attDone : Bool := false
  /-- PTBASE, the partition last named in PCMD, PSTAT.BUSY and ERR (R459); reset: zero -/
  ptbase : Nat := 0
  plast : Nat := 0
  pbusy : Bool := false
  perr : Nat := 0
  /-- KEYSTAT.HELD and the key of each slot (R459, R464); reset: slot 0 held -/
  keysHeld : Word := 1
  keys : Store Nat := []
  /-- The number of the last change of the key that an owner's frames carry, rising with each, and what it was when a line, under
  the key 2n, or a whole frame, under 2n + 1, was last enciphered (R465); reset: zero -/
  keyGen : Store Nat := []
  lineGen : Store Nat := []
  /-- TSCL, TSCTL.EN, TSLEND, TSSTAT.RUNNING, TSSLOT0-7, the epoch, the slot in force + 1, and the
  boundary it began at (R459 to R463); reset: zero -/
  tscl : BitVec 40 := 0
  tsEn : Bool := false
  tslend : BitVec 16 := 0
  tsRunning : Bool := false
  tsslots : Store Word := []
  tsEpoch : Nat := 0
  tsSlot : Nat := 0
  tsStart : Nat := 0
  /-- STOPTICK, STOPCTL.ARM and STOPPED (R432); reset: zero -/
  stoptick : DWord := 0
  stopArm : Bool := false
  stopped : Bool := false
  /-- A START has been issued, a load taken after a port had left CONFIG_UNLOCKED, the tick of the last slew, and a tick that is
  held (R7); reset: zero -/
  begun : Bool := false
  reloaded : Bool := false
  slewAt : Nat := 0
  holdTick : Bool := false
  /-- FABID, PORTSEL, PEERSEL (R425); reset: zero -/
  fabid : Nat := 0
  portsel : Nat := 0
  peersel : Nat := 0
  /-- The ports, 24 (R405); reset: CONFIG_UNLOCKED -/
  ports : Store Port := []
  /-- Paths that time out, keyed plane * 512 + peer, the plane in place of a computed one plus 1, keyed peer * 24 + plane (R420),
  and LOST of PEERSTAT (R425); reset: none, none, zero -/
  paths : Store Path := []
  remap : Store Nat := []
  lost : Store Bool := []
  /-- The tick, plus 1, from which every path to a peer has been timing out (R421); reset: zero, which is from the reset on -/
  timingFrom : Store Nat := []
  /-- The next SEQ, keyed peer * 24 + plane (R410); reset: zero -/
  seqs : Store Nat := []
  /-- Requests sent and not answered, oldest first; requests waiting to be sent (R410, R415, R420); reset: empty -/
  sent : List Sent := []
  unsent : List Sent := []
  /-- Requester's busy holds, keyed peer * 24 + plane: busy (R415); reset: none -/
  busyHold : Store Bool := []
  /-- Failed planes to a peer that wait for PLANEA (R420), keyed peer * 24 + plane; reset: none -/
  settling : Store Bool := []
  /-- Owner: LASTSEQ and answer records, keyed source * 24 + plane (R413); reset: empty -/
  lastseq : Store Nat := []
  records : Store (List (List Byte)) := []
  /-- Owner: plane queries that wait until their path is down here too (R420); reset: none -/
  queries : List Txn := []
  /-- Owner: tick at which the busy window of a source and plane ends (R415); reset: zero -/
  busyEnd : Store Nat := []
  /-- Owner: ticket keys (R322); reset: none -/
  keysOut : List OwnerKey := []
  /-- Transactions that wait at their port, oldest first: for GO on their virtual channel (R419), for new keys (R423), and replay
  notices and acknowledgements for a path (R414, R420); reset: empty -/
  stalled : List Txn := []
  /-- Transactions and messages sent out (R409, R346); reset: empty -/
  fabOut : List Txn := []
  hocpOut : List HocpMsg := []
  /-- Collective chunks received and not consumed (R416); reset: empty -/
  collIn : List CollChunk := []
  /-- Accesses to control-node memory in flight (R276); reset: empty -/
  sysReqs : List SysReq := []
  /-- PWRSEL, PWRCAP, the actions of R452 in order, us below 90 % of the cap (R452, R454); reset: zero, CAP 300 -/
  pwrsel : Nat := 0
  pwrcap : Nat := 300
  capActs : List (Nat × Bool) := []
  calmUs : Nat := 0
  /-- The clusters, 40, and the refits of the 20 pairs (R444, R449); reset: step 0, nominal -/
  clusters : Store Cluster := []
  refits : Store Refit := []
  /-- Slot counts of slices by leaf, keyed slice * 32 + leaf (R433, R436); reset: zero -/
  slots : Store Nat := []
  /-- The image in flash, fuse counter, RECOVERY, an image staged (R469, R470); reset: log 5 -/
  flash : Option FwImage := none
  fuseSvn : Nat := 0
  recovery : Bool := false
  staged : Option FwImage := none
  running : Option FwImage := none
  /-- Bring-up has reached step 5 (R475); reset: true -/
  up : Bool := true
  deriving DecidableEq, Repr

/-- Why a run stops. -/
inductive Fault where
  /-- No warp is resident in the slot that is to execute a word. Raised by every word meaning; safe: hardware issues words
  of resident warps only (R365). -/
  | noWarp
  /-- A physical address beyond HBM (R304) is accessed. Raised by a command that names one; safe: the spec gives such an
  address no bytes. -/
  | noMemory
  deriving DecidableEq, Repr

/-- Why an instruction has no meaning here. -/
inductive Refusal where
  /-- The instruction is not modelled yet. Raised by Dispatch only; safe. -/
  | notModelled (mnemonic : String)
  deriving DecidableEq, Repr

/-- The machine after module reset and bring-up (R475). -/
def State.reset : State := {}

end Sys2Proof.Machine
end

