-- ==== Sys2Proof/Machine/Ops.lean ====
section
/-! DEFINITION. The named operations over the state: access to its parts, the registers of a warp (chapter 1), the split
table and path order (chapter 4), memory and its caches (chapter 10), and the taking of and the return from a trap (R133
to R138). -/

namespace Sys2Proof.Machine

/-- What a word or an event answers. -/
abbrev Out := Host.Outcome State Fault Refusal

/-! ### Parts of the state -/

def State.warp (s : State) (w : Nat) : Warp := Store.get {} s.warps w
def State.setWarp (s : State) (w : Nat) (x : Warp) : State := { s with warps := Store.set {} s.warps w x }
def State.modWarp (s : State) (w : Nat) (f : Warp → Warp) : State := s.setWarp w (f (s.warp w))
def State.core (s : State) (c : Nat) : Core := Store.get {} s.cores c
def State.modCore (s : State) (c : Nat) (f : Core → Core) : State := { s with cores := Store.set {} s.cores c (f (s.core c)) }
def State.wg (s : State) (g : Nat) : Workgroup := Store.get {} s.wgs g
def State.modWg (s : State) (g : Nat) (f : Workgroup → Workgroup) : State := { s with wgs := Store.set {} s.wgs g (f (s.wg g)) }
def State.launch (s : State) (l : Nat) : Launch := Store.get {} s.launches l
def State.modLaunch (s : State) (l : Nat) (f : Launch → Launch) : State :=
  { s with launches := Store.set {} s.launches l (f (s.launch l)) }
def State.ctx (s : State) (c : Nat) : Ctx := Store.get {} s.ctxs c
def State.modCtx (s : State) (c : Nat) (f : Ctx → Ctx) : State := { s with ctxs := Store.set {} s.ctxs c (f (s.ctx c)) }
def State.part (s : State) (p : Nat) : Part := Store.get {} s.parts p
def State.modPart (s : State) (p : Nat) (f : Part → Part) : State := { s with parts := Store.set {} s.parts p (f (s.part p)) }
def State.queue (s : State) (q : Nat) : Queue := Store.get {} s.queues q
def State.modQueue (s : State) (q : Nat) (f : Queue → Queue) : State := { s with queues := Store.set {} s.queues q (f (s.queue q)) }
def State.port (s : State) (p : Nat) : Port := Store.get {} s.ports p
def State.modPort (s : State) (p : Nat) (f : Port → Port) : State := { s with ports := Store.set {} s.ports p (f (s.port p)) }
def State.cluster (s : State) (c : Nat) : Cluster := Store.get {} s.clusters c
def State.modCluster (s : State) (c : Nat) (f : Cluster → Cluster) : State :=
  { s with clusters := Store.set {} s.clusters c (f (s.cluster c)) }

/-- The core, slot, slice and cluster of a warp (R1: warp id 8s + w on its core, four cores to a cluster). -/
def coreOf (w : Nat) : Nat := w / 128
def slotOf (w : Nat) : Nat := w % 128
def sliceOf (w : Nat) : Nat := w % 128 / 8
def clusterOf (core : Nat) : Nat := core / 4
/-- The slice of a warp among all slices: slice k of core c is 16c + k. -/
def sliceKey (w : Nat) : Nat := coreOf w * 16 + sliceOf w

/-- The context, launch and partition of a warp. -/
def State.launchOf (s : State) (w : Nat) : Launch := s.launch (s.wg (s.warp w).wg).launch
def State.ctxOf (s : State) (w : Nat) : Nat := (s.launchOf w).ctx

/-! ### Time and names -/

/-- A name that has not been given out. -/
def State.fresh (s : State) : Nat × State := (s.names, { s with names := s.names + 1 })
/-- Puts an event on the calendar. -/
def State.at (s : State) (t : Nat) (e : Instr) : State := { s with calendar := s.calendar ++ [(t, e)] }
/-- An event at a fixed distance in ticks. -/
def State.after (s : State) (n : Nat) (e : Instr) : State := s.at (s.tick.toNat + n) e
/-- An event at an open distance of at least one tick. -/
def State.soon (s : State) (e : Instr) : State :=
  { s.at (s.tick.toNat + 1 + Config.delay s.free) e with free := s.free + 1 }
/-- An event at an open distance of at most `n` ticks. -/
def State.within (s : State) (n : Nat) (e : Instr) : State :=
  { s.at (s.tick.toNat + 1 + Config.delay s.free % (max n 1)) e with free := s.free + 1 }
/-- An event at an open distance of at least `n` ticks. -/
def State.notBefore (s : State) (n : Nat) (e : Instr) : State :=
  { s.at (s.tick.toNat + n + Config.delay s.free) e with free := s.free + 1 }
/-- A choice below `n` that the spec leaves open. -/
def State.choose (s : State) (n : Nat) : Nat × State := (Config.choice s.free % (max n 1), { s with free := s.free + 1 })
/-- Takes events off the calendar. -/
def State.cancel (s : State) (p : Instr → Bool) : State := { s with calendar := s.calendar.filter fun e => !p e.2 }
/-- The clock of a cluster in MHz, which is thousandths of a cycle in a nanosecond (R4). -/
def Cluster.clock (c : Cluster) : Nat := 740 + 25 * c.step
/-- The supply voltage in mV of a step (R444). -/
def voltage (n : Nat) : Nat := 650 + 10 * n
/-- The supply of a cluster at a tick, in mV: it ramps at 10 mV in a us, up before a rise of the frequency and down after a fall (R446). -/
def Cluster.supply (c : Cluster) (t : Nat) : Nat :=
  let d := (t - c.rampAt) / 100
  if !c.changing then voltage c.step
  else if c.rampFrom ≤ voltage c.target then min (voltage c.target) (c.rampFrom + d)
  else if c.step = c.target then max (voltage c.target) (c.rampFrom - d)
  else c.rampFrom
/-- The other cluster of a series pair (R445). -/
def partner (c : Nat) : Nat := if c % 2 = 0 then c + 1 else c - 1
/-- Cycles of a cluster's clock as ticks, rounded up (R4, R6). -/
def State.cycles (s : State) (core n : Nat) : Nat :=
  let f := (s.cluster (clusterOf core)).clock
  (n * 1000 + f - 1) / f
/-- The thousandths of a cycle that a cluster's clock has run by a moment (R4). -/
def Cluster.run (c : Cluster) (t : Nat) : Nat := c.base + (t - c.since) * c.clock
/-- The number of a core's first cycle that begins in this nanosecond, or later. -/
def State.cycleFrom (s : State) (core : Nat) : Nat := ((s.cluster (clusterOf core)).run s.time + 999) / 1000
/-- The number of its first cycle that begins after this nanosecond. -/
def State.cycleEnd (s : State) (core : Nat) : Nat := ((s.cluster (clusterOf core)).run (s.time + 1) + 999) / 1000
/-- The number of the cycle in which a core stands in this pass. -/
def State.cycle (s : State) (core : Nat) : Nat := min (s.cycleFrom core + s.sub) (s.cycleEnd core)
/-- Whether a cycle of a core's clock begins in this pass (R4). -/
def State.ticks (s : State) (core : Nat) : Bool := decide (s.cycle core < s.cycleEnd core)
/-- The cycle of a warp. -/
def State.now (s : State) (w : Nat) : Nat := s.cycle (coreOf w)
/-- The core in whose cycles the distance of an event on the calendar counts, and whether it bounds the event from below (R447). -/
def State.cycled (s : State) : Instr → Option (Nat × Bool)
  | .mmaComplete c _ => some (c, false)
  | .mmaStart c _ => some (c, true)
  | .copyComplete g _ => some ((Store.get ({} : Workgroup) s.wgs g).core, true)
  | .quotaTransferComplete w => some (coreOf w, false)
  | _ => none
/-- Puts a cluster at a clock step from now on; what counts its cycles goes on at the new clock (R4, R446, R447). -/
def State.setStep (s : State) (cl n : Nat) : State :=
  let old := (s.cluster cl).clock
  let new := 740 + 25 * n
  let now := s.tick.toNat
  { s.modCluster cl fun c => { c with step := n, base := c.run s.time, since := s.time } with
    calendar := s.calendar.map fun e => match s.cycled e.2 with
      | some (c, least) => if clusterOf c = cl ∧ e.1 > now then (now + max 1 (((e.1 - now) * old + if least then new - 1 else 0) / new), e.2) else e
      | none => e }

/-! ### Masks of threads -/

/-- The 32 threads from 32k on. -/
def maskWord (m : Mask) (k : Nat) : Word := (m >>> (32 * k)).setWidth 32
/-- Replaces the 32 threads from 32k on. -/
def maskSet (m : Mask) (k : Nat) (v : Word) : Mask :=
  (m &&& ~~~((BitVec.setWidth 96 (0xFFFFFFFF : Word)) <<< (32 * k))) ||| (v.setWidth 96 <<< (32 * k))
/-- One thread. -/
def bit (t : Nat) : Mask := 1#96 <<< t
/-- The threads of a mask in increasing index (R20). -/
def threads (m : Mask) : List Nat := (List.range 96).filter fun t => m.getLsbD t
/-- The lowest thread of a mask, 0 for the empty one. -/
def lowest (m : Mask) : Nat := ((threads m).head?).getD 0
/-- The mask of the threads that satisfy a test. -/
def maskOf (p : Nat → Bool) : Mask := (List.range 96).foldl (fun m t => if p t then m ||| bit t else m) 0
/-- The threads at or above one. -/
def fromThread (t : Nat) : Mask := BitVec.allOnes 96 <<< t

/-! ### The split table (R34 to R36) -/

def Warp.split (w : Warp) (e : Nat) : Split := Store.get {} w.splits e
def Warp.setSplit (w : Warp) (e : Nat) (x : Split) : Warp := { w with splits := Store.set {} w.splits e x }
/-- The entries that are valid. -/
def Warp.valid (w : Warp) : List Nat := (List.range 8).filter fun e => (w.split e).state != .invalid
/-- The running entry, 8 when there is none. -/
def Warp.run (w : Warp) : Nat := (((List.range 8).filter fun e => (w.split e).state == .running).head?).getD 8
/-- The running split. -/
def Warp.cur (w : Warp) : Split := w.split w.run
def Warp.setCur (w : Warp) (x : Split) : Warp := if w.run < 8 then w.setSplit w.run x else w
def Warp.pc (w : Warp) : Word := w.cur.pc
def Warp.setPc (w : Warp) (pc : Word) : Warp := w.setCur { w.cur with pc := pc }
/-- The warp is in trap mode. -/
def Warp.inTrap (w : Warp) : Bool := w.valid.any fun e => (w.split e).trapm

/-- Renumbers ORDER from 0 upward in the order of a list of entries (R35, R117). -/
def Warp.reorder (w : Warp) (es : List Nat) : Warp :=
  es.zipIdx.foldl (fun w p => w.setSplit p.1 { w.split p.1 with order := p.2 }) w

/-- Inserts an entry by its ORDER. -/
def insertOrder (w : Warp) (e : Nat) : List Nat → List Nat
  | [] => [e]
  | x :: rest => if (w.split x).order ≤ (w.split e).order then x :: insertOrder w e rest else e :: x :: rest

/-- The valid entries by ORDER. -/
def Warp.byOrder (w : Warp) : List Nat := w.valid.foldl (fun l e => insertOrder w e l) []

/-! ### Registers (R22, R27, R28) -/

/-- A scalar register; s0 reads zero, s61 to s63 are the running split's A. -/
def Warp.readS (w : Warp) (r : Nat) : Word :=
  if r = 0 then 0 else if r ≥ 61 then maskWord w.cur.a (r - 61) else Store.get 0 w.sregs r

/-- Writes a scalar register, clearing its poison: s0 keeps zero, and A stays within M (R22). -/
def Warp.writeS (w : Warp) (r : Nat) (v : Word) : Warp :=
  if r = 0 then w
  else if r ≥ 61 then
    { w.setCur { w.cur with a := maskSet w.cur.a (r - 61) v &&& w.cur.m } with spoison := w.spoison &&& ~~~(1#64 <<< r) }
  else { w with sregs := Store.set 0 w.sregs r v, spoison := w.spoison &&& ~~~(1#64 <<< r) }

/-- A scalar pair (R27). -/
def Warp.readS2 (w : Warp) (r : Nat) : DWord := DWord.ofWords (w.readS r) (w.readS (r + 1))
def Warp.writeS2 (w : Warp) (r : Nat) (v : DWord) : Warp := (w.writeS r v.lo).writeS (r + 1) v.hi

def Warp.readV (w : Warp) (r t : Nat) : Word := Store.get 0 w.vregs (r * 96 + t)
/-- Writes one thread's element, clearing its poison (R335). -/
def Warp.writeV (w : Warp) (r t : Nat) (v : Word) : Warp :=
  { w with vregs := Store.set 0 w.vregs (r * 96 + t) v
           vpoison := Store.erase (Store.erase w.vpoison ((r * 96 + t) * 2)) ((r * 96 + t) * 2 + 1) }
def Warp.readV2 (w : Warp) (r t : Nat) : DWord := DWord.ofWords (w.readV r t) (w.readV (r + 1) t)
def Warp.tag (w : Warp) (r : Nat) : BitVec 4 := Store.get 0 w.tags r
def Warp.setTag (w : Warp) (r : Nat) (t : BitVec 4) : Warp := { w with tags := Store.set 0 w.tags r t }
def Warp.uBit (w : Warp) (r : Nat) : Bool := w.u.getLsbD r
def Warp.setU (w : Warp) (r : Nat) (b : Bool) : Warp :=
  { w with u := if b then w.u ||| (1#64 <<< r) else w.u &&& ~~~(1#64 <<< r) }
def Warp.pred (w : Warp) (p : Nat) : Mask := Store.get 0 w.preds p
def Warp.setPred (w : Warp) (p : Nat) (m : Mask) : Warp := { w with preds := Store.set 0 w.preds p m }
def Warp.setQ (w : Warp) (k : Nat) (b : Bool) : Warp :=
  { w with q := if b then w.q ||| (1#8 <<< k) else w.q &&& ~~~(1#8 <<< k) }
/-- Whether a half of an element is poisoned (R334). -/
def Warp.poisonV (w : Warp) (r t h : Nat) : Bool := Store.get false w.vpoison ((r * 96 + t) * 2 + h)
def Warp.markV (w : Warp) (r t h : Nat) : Warp := { w with vpoison := Store.set false w.vpoison ((r * 96 + t) * 2 + h) true }

/-! ### The active set (R21) -/

/-- guard(w, t) of R21 as a mask. -/
def Warp.guard (w : Warp) : Mask :=
  if w.mode.getLsbD 3 then
    (if w.mode.getLsbD 4 then ~~~(w.pred (w.mode.toNat % 8)) else w.pred (w.mode.toNat % 8))
  else BitVec.allOnes 96
/-- halted(w, t) of R21 as a mask. -/
def Warp.halted (w : Warp) : Mask := if w.whalt || w.doubled then BitVec.allOnes 96 else w.thalt
/-- active(w, t) of R21 as a mask. -/
def Warp.activeAll (w : Warp) : Mask := w.cur.a &&& w.guard &&& ~~~w.thalt
/-- The active threads for which the word acts: of a resumed word, those from its thread on (R21, R135). -/
def Warp.active (w : Warp) : Mask := w.activeAll &&& fromThread w.resumeFrom
/-- The thread a check of the whole word reports: the lowest active one, or the lowest of M (R79, R103). -/
def Warp.reportSlot (w : Warp) : Nat := if w.active = 0 then lowest w.cur.m else lowest w.active

/-! ### The generators (R69) -/

/-- One step of the shift register (R69). -/
def lfsrStep (x : Word) : Word := if x.getLsbD 0 then (x >>> 1) ^^^ 0x80200003 else x >>> 1
/-- The seed of a generator: `index` as R69 and R231 form it. -/
def lfsrSeed (seed : Word) (index : Nat) : Word :=
  let x := seed ^^^ BitVec.ofNat 32 (index * 0x9E3779B9)
  if x = 0 then 1 else x
/-- The generator of a thread; one that has not stepped holds its seed. -/
def Warp.gen (w : Warp) (id t : Nat) : Word := Store.get (lfsrSeed w.seedBase (id * 96 + t)) w.lfsr t
def Warp.setGen (w : Warp) (t : Nat) (x : Word) : Warp := { w with lfsr := Store.insert w.lfsr t x }

/-! ### Privilege (R49, R491, R495) -/

/-- The partition a context belongs to (R455), or none. -/
def Part.field (p : Part) (off n : Nat) : Nat := leNat (Store.range 0 p.entry off n)
def Part.ctxbase (p : Part) : Nat := p.field 36 4
def Part.ctxcount (p : Part) : Nat := p.field 40 2
def State.partOf (s : State) (ctx : Nat) : Option Nat :=
  if ctx = 0 then none
  else ((List.range 16).filter fun p =>
    (s.part p).state != .free && decide ((s.part p).ctxbase ≤ ctx ∧ ctx < (s.part p).ctxbase + (s.part p).ctxcount)).head?
/-- The partition number of a context, 16 for none. -/
def State.partNum (s : State) (ctx : Nat) : Nat := (s.partOf ctx).getD 16
/-- A context's level: 0 U, 1 S for a partition's first context, 2 H for context 0 (R49, R491, R495). -/
def State.levelOf (s : State) (ctx : Nat) : Nat :=
  if ctx = 0 then 2
  else match s.partOf ctx with
    | some p => if (s.part p).ctxbase = ctx then 1 else 0
    | none => 0

/-! ### Frames, channels and keys (R1, R304, R465) -/

/-- The number of physical addresses of HBM (R304). -/
def hbmSize : Nat := 0xC000000000

/-- The HBM channel of a frame, its stack, and its home die (R1, R275, R304). -/
def channelOf (frame : Nat) : Nat := frame % 384
def stackOf (frame : Nat) : Nat := channelOf frame / 32
def dieOf (frame : Nat) : Nat := stackOf frame / 6

/-- The owner of a frame: partition + 1, 17 for the hypervisor, 18 for none (R304). -/
def State.ownerOf (s : State) (n : Nat) : Nat :=
  match Store.get 0 s.frames n with
  | 0 => if n < 2 ^ 17 then 17 else 18
  | c => c

/-- The last change of the key under which a frame is enciphered, and the last before a line was written to HBM: by itself, or with
its whole frame (R464, R465). -/
def State.keyNow (s : State) (pa : Nat) : Nat := Store.get 0 s.keyGen (s.ownerOf (pa / 8192))
def State.keyThen (s : State) (pa : Nat) : Nat := max (Store.get 0 s.lineGen (2 * (pa / 128))) (Store.get 0 s.lineGen (2 * (pa / 8192) + 1))

/-- Whether all that HBM holds was enciphered under the keys in force (R465). -/
def State.keysStand (s : State) : Prop := ∀ pa, s.keyNow pa = s.keyThen pa

/-- A byte of HBM, deciphered under the key in force: a line enciphered under an earlier key gives a value that is open (R3, R465). -/
def State.hbmRead (s : State) (pa : Nat) : Byte :=
  if s.keyNow pa = s.keyThen pa then Store.get 0 s.hbm pa else Config.decipher (s.keyNow pa) pa

/-! ### Memory: HBM, L2 and L1 (R272 to R279) -/

/-- The canonical form of memory: HBM, the home L2's newer bytes and the L1s' bytes are each listed with strictly rising keys and
no entry that an unlisted key would read as, so that equal memories are equal data. -/
def Memory.wf (s : State) : Bool := Store.wf 0 s.hbm && Store.wf none s.l2 && Store.wf none s.l1

/-- The 32768 sets of 24 ways of each die's L2, 96 MiB in lines of 128 bytes; the set of a line is this model's choice (R2). -/
def l2Set (line : Nat) : Nat := dieOf (line / 64) * 32768 + line % 32768
/-- The key of a way of a set. -/
def wayKey (set way : Nat) : Nat := set * 32 + way

/-- The way of its home L2 in which a line stands. -/
def State.l2Way (s : State) (line : Nat) : Option Nat :=
  (List.range 24).find? fun w =>
    let e := Store.get (0, 0) s.l2Ways (wayKey (l2Set line) w)
    e.2 != 0 && e.1 == line

/-- A byte of HBM as the home L2 has it: a line that stands there is plaintext whatever has become of its key (R465). -/
def State.homeByte (s : State) (pa : Nat) : Byte :=
  if s.keyGen.isEmpty || (s.l2Way (pa / 128)).isSome then Store.get 0 s.hbm pa else s.hbmRead pa

/-- A byte at its home L2 (R275). -/
def State.l2Read (s : State) (pa : Nat) : Byte :=
  match Store.get none s.l2 pa with
  | some b => b
  | none => s.homeByte pa

/-- A line of HBM is enciphered anew, as it reads (R465). -/
def State.recipher (s : State) (line : Nat) : State :=
  { s with hbm := (List.range 128).foldl (fun m i => Store.set 0 m (line * 128 + i) (s.homeByte (line * 128 + i))) s.hbm
           lineGen := Store.set 0 s.lineGen (2 * line) (s.keyNow (line * 128)) }

/-- Lines that are about to be written in part are enciphered anew where an earlier key stands over them. -/
def State.recipherAll (s : State) (lines : List Nat) : State :=
  if s.keyGen.isEmpty then s
  else (lines.filter fun l => s.keyNow (l * 128) != s.keyThen (l * 128)).foldl State.recipher s

/-- The units of some bytes that memory reports uncorrectable. -/
def State.reportedUnits (s : State) (pa n : Nat) : List Nat :=
  (s.poisoned.map Prod.fst).filter fun u => decide (u * 32 < pa + n ∧ pa < u * 32 + 32)

/-- The bytes of a unit that lie in a range. -/
def unitMask (u pa n : Nat) : BitVec 32 :=
  (List.range 32).foldl (fun (m : BitVec 32) i => if pa ≤ u * 32 + i ∧ u * 32 + i < pa + n then m ||| (1#32 <<< i) else m) 0

/-- A part of the write of name `id` replaces some bytes of reported units. Answers the units that the write has now replaced whole
(R334). -/
def State.replaces (s : State) (id pa n : Nat) : List Nat × State :=
  let r := (s.reportedUnits pa n).foldl (fun (r : List Nat × Store (Nat × BitVec 32)) u =>
    let o := Store.get (0, 0) r.2 u
    let m := (if o.1 = id then o.2 else 0) ||| unitMask u pa n
    if m = BitVec.allOnes 32 then (r.1 ++ [u], Store.erase r.2 u) else (r.1, Store.insert r.2 u (id, m))) ([], s.written)
  (r.1, { s with written := r.2 })

/-- A reported unit is cleared when every byte of it is written (R334). -/
def State.clearReport (s : State) (pa n : Nat) : State :=
  { s with poisoned := s.poisoned.filter fun e => !(decide (pa ≤ e.1 * 32) && decide (e.1 * 32 + 32 ≤ pa + n)) }

/-- Writes the home L2's bytes of some lines to HBM (R210, R274). -/
def State.l2Clean (s0 : State) (p : Nat → Bool) : State :=
  let ls := (s0.l2.filterMap fun e => if p e.1 then some (e.1 / 128) else none).eraseDups
  let s := s0.recipherAll ls
  { s with
    hbmMoves := s.hbmMoves + ls.length
    hbm := s.l2.foldl (fun m e => match e.2 with
      | some b => if p e.1 then Store.set 0 m e.1 b else m
      | none => m) s.hbm
    l2 := s.l2.filter fun e => !p e.1 }

/-- A line that the home L2 holds no newer bytes of leaves it (R210). -/
def State.l2Drop (s : State) (line : Nat) : State :=
  { s with l2Ways := s.l2Ways.filter fun e => !(e.2.1 == line && e.2.2 != 0) }

/-- Writes back and invalidates the lines that stand in some ways of the home L2s (R53, R393). -/
def State.dropWays (s : State) (ws : List Nat) : State :=
  let gone := s.l2Ways.filter fun e => ws.contains (e.1 % 32)
  let s1 := s.l2Clean fun a => gone.any fun e => e.2.1 == a / 128
  { s1 with l2Ways := s1.l2Ways.filter fun e => !ws.contains (e.1 % 32) }

/-- The ways that a WAYMASK names (R455). -/
def waysIn (m : Nat) : List Nat := (List.range 24).filter fun w => m / 2 ^ w % 2 == 1

/-- The live contexts of a partition, ascending. -/
def State.members (s : State) (p : Nat) : List Nat :=
  let x := s.part p
  (s.ctxs.filter fun e => e.2.live && decide (x.ctxbase ≤ e.1 ∧ e.1 < x.ctxbase + x.ctxcount)).map Prod.fst

/-- The ways that a partition's lines may take, those of WAYMASK; the hypervisor takes those that no partition holds (R455). -/
def State.waysOf (s : State) (pa : Nat) : List Nat :=
  let mask := fun (p : Nat) => leNat (Store.range 0 (s.part p).entry 16 4)
  let o := s.ownerOf (pa / 8192)
  let ws := (List.range 24).filter fun w =>
    if o ≤ 16 then mask (o - 1) / 2 ^ w % 2 == 1
    else (List.range 16).all fun p => (s.part p).state == .free || mask p / 2 ^ w % 2 == 0
  if ws.isEmpty then List.range 24 else ws

/-- The way that gives up its line: a streaming line before a normal one, before one to keep; the choice within a class is the
implementation's own (R189, R273). -/
def leastWay (m : Store (Nat × Nat)) (set : Nat) (ws : List Nat) : Nat :=
  let cls := fun (w : Nat) => (Store.get (0, 0) m (wayKey set w)).2
  ws.foldl (fun b w => if cls w < cls b then w else b) (ws.headD 0)

/-- The ways that a context may allocate into (R385): those it holds under a contract; without one (R396), or before its grant has
brought any, one of those that no contract holds. -/
def State.ctxWays (s : State) (p ctx : Nat) (ws : List Nat) : List Nat :=
  let l := (s.ctx ctx).loop
  let mine := l.ways.filter fun w => ws.contains w
  if !mine.isEmpty then mine
  else if l.contract.isSome && l.pos.getD 2 1 == 0 then []
  else
    let ms := s.members p
    let free := ws.filter fun w => !ms.any fun c => (s.ctx c).loop.ways.contains w
    let from' := if free.isEmpty then ws else free
    [from'.getD ((ms.filter fun c => decide (c < ctx)).length % from'.length) 0]

/-- The ways that a line may take for the access that came last. -/
def State.waysFor (s : State) (pa : Nat) : List Nat :=
  let ws := s.waysOf pa
  match s.partOf (s.memCtx - 1) with
  | some p => if s.memCtx ≠ 0 ∧ s.ownerOf (pa / 8192) = p + 1 then s.ctxWays p (s.memCtx - 1) ws else ws
  | none => ws

/-- Memory is accessed for a context. -/
def State.onBehalf (s : State) (ctx : Nat) : State := { s with memCtx := ctx + 1 }

/-- Gives a line a way of its home L2, writing back what stood there (R2, R189); a context with no way gets none (R385). -/
def State.l2Alloc (s : State) (line hint : Nat) : State :=
  let set := l2Set line
  let cls := if hint = 1 then 1 else if hint = 3 then 3 else 2
  match s.l2Way line with
  | some w => { s with l2Ways := Store.set (0, 0) s.l2Ways (wayKey set w) (line, cls) }
  | none =>
    let ws := s.waysFor (line * 128)
    let s := { s with l2Misses := s.l2Misses + 1, hbmMoves := s.hbmMoves + 1 }
    if ws.isEmpty then s
    else
      let w := leastWay s.l2Ways set ws
      let old := Store.get (0, 0) s.l2Ways (wayKey set w)
      let s1 := if old.2 = 0 then s else s.l2Clean fun a => a / 128 == old.1
      { s1 with l2Ways := Store.set (0, 0) s1.l2Ways (wayKey set w) (line, cls) }

/-- The lines of the home L2 that some bytes lie in. -/
def linesOf (pa n : Nat) : List Nat := if n = 0 then [] else (List.range ((pa + n - 1) / 128 - pa / 128 + 1)).map (pa / 128 + ·)

/-- A write at the home L2 that touches the TAIL word of a bound QCB is a wake write, whatever its value (R337, R340). -/
def State.ring (s : State) (pa n : Nat) : State :=
  if s.queues.isEmpty then s
  else { s with queues := Store.mapVals {} s.queues fun _ k =>
    if k.state ≠ .unbound ∧ pa < k.qcb + 12 ∧ k.qcb + 8 < pa + n then { k with rung := true } else k }

/-- Puts bytes at the home L2; other cores' clean copies stay until their own acquires (R274). -/
def State.l2Put (s0 : State) (pa : Nat) (bs : List Byte) (hint : Nat) : State :=
  let s := ((linesOf pa bs.length).foldl (fun s l => s.l2Alloc l hint) s0).ring pa bs.length
  ({ s with l2 := bs.zipIdx.foldl (fun (m : Store (Option Byte)) (p : Byte × Nat) => Store.set none m (pa + p.2) (some p.1)) s.l2 }).clearReport pa bs.length
/-- Lines that got no way go through to HBM (R385). -/
def State.l2Through (s : State) (ls : List Nat) : State :=
  if ls.all fun l => (s.l2Way l).isSome then s
  else s.l2Clean fun a => ls.contains (a / 128) && (s.l2Way (a / 128)).isNone
/-- Writes bytes at the home L2. -/
def State.l2WriteAs (s : State) (pa : Nat) (bs : List Byte) (hint : Nat) : State :=
  (s.l2Put pa bs hint).l2Through (linesOf pa bs.length)
def State.l2Write (s : State) (pa : Nat) (bs : List Byte) : State := s.l2WriteAs pa bs 0

/-- Clears the report of some units. -/
def State.clearUnits (s : State) (us : List Nat) : State := { s with poisoned := s.poisoned.filter fun e => !us.contains e.1 }
/-- Writes a part of the write of name `id` at the home L2: a unit that the write has replaced whole is no longer reported (R334). -/
def State.l2Part (s : State) (id pa : Nat) (bs : List Byte) (hint : Nat) : State :=
  let r := s.replaces id pa bs.length
  (r.2.clearUnits r.1).l2WriteAs pa bs hint

/-- The bytes at the home L2. -/
def State.l2Bytes (s : State) (pa n : Nat) : List Byte := (List.range n).map fun i => s.l2Read (pa + i)
/-- A little-endian number at the home L2 (R10). -/
def State.l2Num (s : State) (pa n : Nat) : Nat := leNat (s.l2Bytes pa n)
def State.l2SetNum (s : State) (pa n v : Nat) : State := s.l2Write pa (leBytes n v)

/-- The key of a byte in a core's L1. -/
def l1Key (core pa : Nat) : Nat := core * 2 ^ 40 + pa

/-- The hint with which a line of a core's L1 was last accessed (R189). -/
def State.l1Hint (s : State) (core line : Nat) : Nat :=
  match (s.core core).l1lines.find? fun l => l.1 == line with
  | some (_, 0) => 1
  | some (_, 2) => 3
  | _ => 0

/-- Adds to what the estimator counts of a core (R448). -/
def State.addWork (s : State) (core : Nat) (x : PowerSample) : State :=
  let y := Store.get {} s.work core
  { s with work := Store.set {} s.work core { t := y.t + x.t, p4 := y.p4 + x.p4, vl := y.vl + x.vl, sr := y.sr + x.sr, l := y.l + x.l } }

/-- Writes the dirty bytes of a core's L1 that satisfy a test to their home L2, under their lines' hints; `drop` forgets them, else they
stay clean (R189, R274). A unit that one store has replaced whole is no longer reported (R334). -/
def State.l1Writeback (s : State) (core : Nat) (p : Nat → L1Byte → Bool) (drop : Bool) : State :=
  let mine := s.l1.filterMap fun e => match e.2 with
    | some b => if e.1 / 2 ^ 40 = core ∧ p (e.1 % 2 ^ 40) b then some (e.1 % 2 ^ 40, b) else none
    | none => none
  let s1 := mine.foldl (fun s e => if e.2.dirty then s.l2WriteAs e.1 [e.2.val] (s.l1Hint core (e.1 / 128)) else s) s
  let s2 := if s1.poisoned.isEmpty then s1
    else s1.clearUnits ((mine.filter fun e => e.2.dirty && e.2.whole).map fun e => e.1 / 32)
  let moved := ((mine.filter fun e => e.2.dirty).map fun e => e.1 / 128).eraseDups.length
  { s2.addWork core { l := moved } with l1 := mine.foldl (fun m e => if drop then Store.erase m (l1Key core e.1)
      else Store.insert m (l1Key core e.1) (some { e.2 with dirty := false, whole := false })) s2.l1 }

/-- Release at DEVICE scope or wider on a core: every dirty non-private byte goes to L2 (R274). -/
def State.l1Release (s : State) (core : Nat) : State := s.l1Writeback core (fun _ b => b.dirty && !b.priv) false

/-- Acquire at DEVICE scope or wider on a core: every clean non-private byte is dropped (R274). -/
def State.l1Acquire (s : State) (core : Nat) : State :=
  { s with l1 := s.l1.filter fun e => match e.2 with
      | some b => !(decide (e.1 / 2 ^ 40 = core) && !b.dirty && !b.priv)
      | none => true }

/-- Drops the dirty and clean private bytes of a range, without write-back, when a warp ends (R278). -/
def State.l1DropPriv (s : State) (core : Nat) (p : Nat → Bool) : State :=
  { s with l1 := s.l1.filter fun e => match e.2 with
      | some b => !(decide (e.1 / 2 ^ 40 = core) && b.priv && p (e.1 % 2 ^ 40))
      | none => true }

/-- The least class of a core's lines. -/
def victimOf (ls : List (Nat × Nat)) : Option Nat :=
  match ls.filter (fun l => l.2 == 0) with
  | l :: _ => some l.1
  | [] => match ls.filter (fun l => l.2 == 1) with
    | l :: _ => some l.1
    | [] => ls.head?.map Prod.fst

/-- Allocates a line in a core's L1, evicting one when 1024 are held (R189, R273): a hint of 1 streams, 3 keeps. -/
def State.l1Alloc (s : State) (core line hint : Nat) : State :=
  let cls := if hint = 1 then 0 else if hint = 3 then 2 else 1
  let ls := (s.core core).l1lines
  if ls.any fun l => l.1 == line then
    s.modCore core fun c => { c with l1lines := c.l1lines.map fun l => if l.1 = line then (line, cls) else l }
  else
    let s1 := if ls.length < 1024 then s
      else match victimOf ls with
        | some v =>
          (s.l1Writeback core (fun pa _ => pa / 128 == v) true).modCore core fun c =>
            { c with l1lines := c.l1lines.filter fun l => l.1 != v }
        | none => s
    s1.modCore core fun c => { c with l1lines := c.l1lines ++ [(line, cls)] }

/-- Reads one byte as a core sees it: L1 where it is valid, else the home L2 (R273). -/
def State.coreRead (s : State) (core pa : Nat) : Byte :=
  match Store.get none s.l1 (l1Key core pa) with
  | some b => b.val
  | none => s.l2Read pa

/-- Loads bytes for a core, allocating its line unless the hint says L2 (R189, R273). -/
def State.coreLoad (s0 : State) (core pa n hint : Nat) (priv : Bool) : List Byte × State :=
  let bs := (List.range n).map fun i => s0.coreRead core (pa + i)
  -- what L1 does not hold comes through the home L2, which allocates its line
  let s := if (List.range n).all fun i => (Store.get none s0.l1 (l1Key core (pa + i))).isSome then s0
    else (s0.l2Alloc (pa / 128) hint).addWork core { l := 1 }
  if hint = 2 then (bs, s)
  else
    let s1 := s.l1Alloc core (pa / 128) hint
    let put := fun (m : Store (Option L1Byte)) (p : Byte × Nat) =>
      match Store.get none m (l1Key core (pa + p.2)) with
      | some _ => m
      | none => Store.insert m (l1Key core (pa + p.2)) (some { val := p.1, dirty := false, since := s.time, priv := priv })
    (bs, { s1 with l1 := bs.zipIdx.foldl put s1.l1 })

/-- Stores bytes of the store of name `id` in a core's L1 and marks them dirty, each from the write that made it so; a line that turns
dirty is looked at 50 us later (R273, R274). With hint 2 they go to the home L2, and L1 keeps none of them (R189). -/
def State.coreStore (s0 : State) (core id pa : Nat) (bs : List Byte) (hint : Nat) (priv : Bool) : State :=
  if hint = 2 then
    ({ s0 with l1 := bs.zipIdx.foldl (fun m p => Store.erase m (l1Key core (pa + p.2))) s0.l1 } : State).l2Part id pa bs 2
  else
    let q := s0.replaces id pa bs.length
    let s := q.2
    let s1 := s.l1Alloc core (pa / 128) hint
    let line := pa / 128
    let put := fun (m : Store (Option L1Byte)) (p : Byte × Nat) =>
      let old := (Store.get none m (l1Key core (pa + p.2))).filter fun b => b.dirty
      Store.insert m (l1Key core (pa + p.2)) (some
        { val := p.1, dirty := true, since := (old.map L1Byte.since).getD s.time, priv := priv, whole := old.any L1Byte.whole })
    let mark := fun (m : Store (Option L1Byte)) (u : Nat) => (List.range 32).foldl (fun m i =>
      match Store.get none m (l1Key core (u * 32 + i)) with
      | some b => Store.insert m (l1Key core (u * 32 + i)) (some { b with whole := b.dirty })
      | none => m) m
    let s2 : State := { s1 with l1 := q.1.foldl mark (bs.zipIdx.foldl put s1.l1) }
    if priv || s2.calendar.any (fun e => match e.2 with
        | .l1DirtyAgeWriteback c l => c == core && l == line
        | _ => false) then s2
    else s2.after 50000 (.l1DirtyAgeWriteback core line)

/-- The line's bytes leave a core's L1 before an atomic at the home L2 (R274). -/
def State.l1Purge (s : State) (core line : Nat) : State := s.l1Writeback core (fun pa _ => pa / 128 == line) true

/-- Whether a byte of a range lies in a unit that memory reports uncorrectable, as a core sees it: not in one that its own L1 holds as
one store has replaced it (R334). -/
def State.reported (s : State) (core pa n : Nat) : Bool :=
  (s.reportedUnits pa n).any fun u => match Store.get none s.l1 (l1Key core (u * 32)) with
    | some b => !(b.dirty && b.whole)
    | none => true

/-! ### Running copies (R350) -/

/-- Rewrites the running copy of a name. -/
def modCopy (run : Nat) (f : XCopy → XCopy) : List XCopy → List XCopy
  | [] => []
  | c :: rest => if c.run = run then f c :: rest else c :: modCopy run f rest
def State.modXCopy (s : State) (q run : Nat) (f : XCopy → XCopy) : State := s.modQueue q fun k => { k with copies := modCopy run f k.copies }

/-! ### Path order (R116, R117, R122) -/

/-- The ids of the JOINWAIT entries of the trap mode in force, by ORDER. -/
def Warp.joiners (w : Warp) (trap : Bool) : List Nat :=
  w.byOrder.filter fun e => (w.split e).state == .joinWait && (w.split e).trapm == trap

/-- merge_lowest of R122. -/
def Warp.mergeLowest (w : Warp) : Warp :=
  let trap := w.inTrap
  match w.joiners trap with
  | [] => w
  | e0 :: _ =>
    let id := (w.split e0).joinid
    let grp := (w.joiners trap).filter fun e => (w.split e).joinid == id
    let m := grp.foldl (fun m e => m ||| (w.split e).m) 0
    let a := grp.foldl (fun m e => m ||| (w.split e).a) 0
    let last := grp.foldl (fun b e => if (w.split b).since ≤ (w.split e).since then e else b) e0
    let rest := w.byOrder.filter fun e => !grp.contains e
    let x : Split := { state := .running, pc := (w.split last).pc, m := m, a := a, trapm := trap }
    let w1 := grp.foldl (fun w e => w.setSplit e {}) w
    (w1.setSplit e0 x).reorder (e0 :: rest)

/-- next_split of R117: the warp must have no RUNNING entry. -/
def Warp.nextSplit (w : Warp) : Warp :=
  if w.run < 8 then w
  else match (w.byOrder.filter fun e => (w.split e).state == .ready) with
    | e :: _ =>
      let w1 := w.setSplit e { w.split e with state := .running }
      w1.reorder (e :: (w1.byOrder.filter fun x => x != e))
    | [] => w.mergeLowest

/-- The running split stops in a state and goes to the highest ORDER (R117). -/
def Warp.stopRunning (w : Warp) (f : Split → Split) : Warp :=
  let e := w.run
  if e < 8 then
    let w1 := w.setSplit e (f w.cur)
    (w1.reorder ((w1.byOrder.filter fun x => x != e) ++ [e])).nextSplit
  else w

/-- The running split becomes invalid (R117). -/
def Warp.dropRunning (w : Warp) : Warp :=
  let e := w.run
  if e < 8 then
    let w1 := w.setSplit e {}
    (w1.reorder w1.byOrder).nextSplit
  else w

/-! ### Gangs (R38) -/

/-- Members of a gang drop a target that every one of them has branched to. -/
def State.gangTrim (s : State) (g : Nat) : State :=
  let ms := s.warps.filter fun e => e.2.gang == g
  if ms.all fun e => !e.2.gangPath.isEmpty then
    ms.foldl (fun s e => s.modWarp e.1 fun x => { x with gangPath := x.gangPath.drop 1 }) s
  else s

/-- A warp leaves its gang; one left alone is no gang (R38). -/
def State.partGang (s : State) (w : Nat) : State :=
  let g := (s.warp w).gang
  if g = 0 then s
  else
    let s1 := s.modWarp w fun x => { x with gang := 0, gangPath := [] }
    let others := s1.warps.filter fun e => e.2.gang == g
    if others.length ≤ 1 then others.foldl (fun s e => s.modWarp e.1 fun x => { x with gang := 0, gangPath := [] }) s1 else s1

/-- A member of a gang has branched to a target: it parts where a member that has branched as often went elsewhere
(R38, R120). DESIGN CHOICE (log 97): R38 does not say whose target is the gang's; it is that of the member that branches first. -/
def State.gangBranch (s : State) (w : Nat) (target : Word) : State :=
  let x := s.warp w
  if x.gang = 0 then s
  else if s.warps.any fun e => e.1 != w && e.2.gang == x.gang && decide (x.gangPath.length < e.2.gangPath.length)
      && e.2.gangPath[x.gangPath.length]? != some target then s.partGang w
  else (s.modWarp w fun x => { x with gangPath := x.gangPath ++ [target] }).gangTrim x.gang

/-! ### Event rings (R375, R376) -/

/-- An event record (R375). -/
def eventRecord (code queue ctx warp detail : Nat) (pc : Word) (tick aux ovf : Nat) : List Byte :=
  leBytes 1 code ++ [1] ++ leBytes 2 queue ++ leBytes 4 ctx ++ leBytes 2 warp ++ leBytes 2 detail ++ leBytes 4 pc.toNat
    ++ leBytes 8 tick ++ leBytes 4 aux ++ leBytes 4 ovf

/-! ### Traps (R133 to R138) -/

/-- The STATE code of a split (R117). -/
def SplitState.code : SplitState → Nat
  | .invalid => 0
  | .running => 1
  | .ready => 2
  | .parked => 3
  | .joinWait => 4
  | .gangWait => 5
  | .suspended => 6
/-- The state of a code. -/
def SplitState.ofCode : Nat → SplitState
  | 1 => .running
  | 2 => .ready
  | 3 => .parked
  | 4 => .joinWait
  | 5 => .gangWait
  | 6 => .suspended
  | _ => .invalid

/-- The state code that TRAPSUSP keeps of an entry; a JOIN wait whose limit has run out is READY (R122). -/
def Split.keptCode (p : Split) : Nat := if p.due && p.state == .joinWait then 2 else p.state.code

/-- Writes the code that TRAPSUSP keeps of an entry. -/
def Warp.suspCode (w : Warp) (e c : Nat) : Warp :=
  { w with trap := { w.trap with susp := (w.trap.susp &&& ~~~(7#24 <<< (3 * e))) ||| (BitVec.ofNat 24 c <<< (3 * e)) } }

/-- Suspends every other valid entry, keeping its state in TRAPSUSP (R133). -/
def Warp.suspendOthers (w : Warp) : Warp :=
  let r := w.run
  w.valid.foldl (fun x e =>
    if e = r ∨ (x.split e).state = .suspended then x
    else
      let p := x.split e
      let c := p.keptCode
      let x1 := x.setSplit e (if c = 2 then { p with state := .suspended, joinid := 0xFFF, timeout := 0, due := false }
        else { p with state := .suspended })
      x1.suspCode e c) { w with trap := { w.trap with susp := 0 } }

/-- The trap state that take_trap of R133 sets in a warp that is not in a handler. -/
def Warp.enterTrap (w : Warp) (tvec : Word) (cause f : Nat) (addr : DWord) (first : Word) (part : Bool) (pc : Word) : Warp :=
  let c := w.cur
  let w1 : Warp := { w with
    trap := { w.trap with pc := pc, cause := BitVec.ofNat 8 cause, second := 0, addr := addr, first := first
                          slot := BitVec.ofNat 7 f, partialBit := part, mask := c.a, mode := w.mode }
    mode := 0, resumeFrom := 0 }
  let w2 := w1.suspendOthers
  w2.setCur { c with trapm := true, pc := tvec, joinid := 0xFFF, timeout := 0 }

/-- A second trap in a handler halts the warp (R133, R138). -/
def Warp.doubleTrap (w : Warp) (cause : Nat) : Warp :=
  { w with trap := { w.trap with second := BitVec.ofNat 8 cause }, doubled := true, park := .none }

/-- Whether results are outstanding that no operand-log entry holds (R94). -/
def Warp.awaits (w : Warp) : Bool := w.pending.any fun p => p.threads &&& ~~~p.held != 0

/-- The state code of an entry: that of TRAPSUSP while it is SUSPENDED (R133). -/
def Warp.codeOf (w : Warp) (e : Nat) : Nat :=
  if (w.split e).state = .suspended then (w.trap.susp >>> (3 * e)).toNat % 8 else (w.split e).state.code

/-- The entries suspended from PARKED whose phase has completed meanwhile (R135). -/
def Warp.overWaits (w : Warp) (done : Split → Bool) : List Nat :=
  w.valid.filter fun e => (w.split e).state == .suspended && w.codeOf e == 3 && done (w.split e)

/-- Every SUSPENDED entry takes back the state of TRAPSUSP, or is READY where its wait has ended meanwhile (R135). -/
def Warp.unsuspend (w : Warp) (done : Split → Bool) : Warp :=
  w.valid.foldl (fun x e =>
    let p := x.split e
    if p.state = .suspended then
      let st := SplitState.ofCode ((w.trap.susp >>> (3 * e)).toNat % 8)
      let p' := { p with state := st }
      x.setSplit e (if st == .parked && done p then { p' with state := .ready, released := false, pc := p.pc + 1 }
        else if st == .gangWait && p.released then { p' with state := .ready, released := false, joinid := 0xFFF, timeout := 0 } else p')
    else x) w

/-- ERET of R135 on the split table. -/
def Warp.leaveTrap (w : Warp) (done : Split → Bool) : Warp :=
  let r := w.run
  let mr := w.valid.foldl (fun m e => if (w.split e).trapm then m ||| (w.split e).m else m) 0
  let w1 := w.valid.foldl (fun x e => if (w.split e).trapm && e != r then x.setSplit e {} else x) w
  let w2 := w1.setCur { w1.cur with m := mr, a := w.trap.mask &&& mr, pc := w.trap.pc, trapm := false }
  let w3 := w2.unsuspend done
  { w3.reorder w3.byOrder with
    mode := w.trap.mode
    resumeFrom := if w.trap.partialBit then w.trap.slot.toNat else 0 }

end Sys2Proof.Machine
end

