-- ==== Sys2Proof/Machine/Translate.lean ====
section
/-! DEFINITION. Translation (R303 to R312, R502), the fault queue (R313, R314), dirty logging (R329, R330) and the event
rings (R375, R376). -/

namespace Sys2Proof.Machine

/-- The code of an access kind in a fault record (R313). -/
def kindCode : Access → Nat
  | .read => 0
  | .write => 1
  | .fetch => 2
  | .atomic => 3

/-- Whether an access writes. -/
def isWrite : Access → Bool
  | .write => true
  | .atomic => true
  | _ => false

/-- Whether a translation allows an access (R309); one cached with D 0 does not satisfy a write (R307). -/
def Tlb.allows (e : Tlb) : Access → Bool
  | .read => e.rd
  | .write => e.wr && e.d
  | .fetch => e.ex
  | .atomic => e.rd && e.wr && e.d

/-- Whether a translation covers an address of a space. -/
def Tlb.covers (e : Tlb) (part asid va : Nat) : Bool :=
  e.part == part && e.asid == asid && e.vpage == va / 2 ^ e.size

/-- The physical address a translation gives. -/
def Tlb.addr (e : Tlb) (va : Nat) : Nat := e.pa + va % 2 ^ e.size

/-- The code of a partition in the frame table. -/
def ownerCode (part : Nat) : Nat := if part = 16 then 17 else part + 1

/-- Frames pass to an owner, by its code, and what they hold stands under its key (R304, R465). -/
def State.passFrames (s : State) (code : Nat) (fs : List Nat) : State :=
  { s with
    frames := fs.foldl (fun m n => Store.set 0 m n code) s.frames
    lineGen := if s.keyGen.isEmpty then s.lineGen
      else fs.foldl (fun m n => Store.set 0 m (2 * n + 1) (Store.get 0 s.keyGen code))
        (s.lineGen.filter fun e => e.1 % 2 == 1 || !fs.contains (e.1 / 128)) }

/-- Frames a partition holds, and how many it may: G + B (R331). -/
def State.frameUse (s : State) (p : Nat) : Nat := (s.frames.filter fun e => e.2 == p + 1).length
def Part.guaranteed (x : Part) : Nat := x.field 28 4
def Part.burstable (x : Part) : Nat := x.field 32 4
def Part.bound (x : Part) : Nat := x.guaranteed + x.burstable

/-- Gives frames that nobody owns to a partition, as many as it may hold (R331; log 4). -/
def State.claimFrames (s : State) (p : Nat) (fs : List Nat) : State :=
  s.passFrames (p + 1) ((fs.eraseDups.filter fun n => s.ownerOf n == 18 && decide (n < hbmSize / 8192)).take ((s.part p).bound - s.frameUse p))

/-- Whether every frame of a run of `n` belongs to a partition, or to the hypervisor for context 0 (R304, R312). -/
def State.ownsRun (s : State) (part lo n : Nat) : Bool :=
  let own := ownerCode part
  let mine := s.frames.filter fun e => decide (lo ≤ e.1 ∧ e.1 < lo + n)
  decide (lo + n ≤ hbmSize / 8192) && mine.all (fun e => e.2 == own)
    && decide (mine.length + (if own = 17 then (min (lo + n) (2 ^ 17) - min lo (2 ^ 17))
      - (mine.filter fun e => decide (e.1 < 2 ^ 17)).length else 0) = n)

/-- Whether a frame belongs to a partition. -/
def State.owns (s : State) (part pa : Nat) : Bool := decide (pa < hbmSize) && s.ownerOf (pa / 8192) == ownerCode part

/-- How a walk ends (R312). -/
inductive Walk where
  | ok (e : Tlb)
  /-- V 0 and EV 1: firmware restores the page (R312, R333). -/
  | evicted
  | domain
  | fetch
  /-- Row 3: invalid, malformed or not allowed. -/
  | fault (malformed perm : Bool)
  deriving DecidableEq, Repr

/-- Permission bits of a leaf against a kind (R306). -/
def leafAllows (e : Nat) : Access → Bool
  | .read => e / 4 % 2 == 1
  | .write => e / 8 % 2 == 1
  | .fetch => e / 16 % 2 == 1
  | .atomic => e / 4 % 2 == 1 && e / 8 % 2 == 1

/-- The walk of R305, R306 and R312 from a level down. It also gives the address of the leaf entry. -/
def State.walkFrom (s : State) (part asid ctx va : Nat) (k : Access) : Nat → Nat → Walk × Nat
  | 0, _ => (.fault true false, 0)
  | fuel + 1, table =>
    let shift := 13 + 10 * fuel
    let slot := table + va / 2 ^ shift % 1024 * 8
    let e := s.l2Num slot 8
    let pa := e / 2 ^ 13 % 2 ^ 39 * 2 ^ 13
    if e % 2 = 0 then (if e / 2 % 2 = 1 then .evicted else .fault false false, slot)
    else if e / 2 % 2 = 1 ∧ fuel ≠ 3 then
      -- a leaf, in the order of R312's rows
      if e / 32 % 2 = 0 ∧ !s.ownsRun part (pa / 8192) (2 ^ (shift - 13)) then (.domain, slot)
      else if e / 2 ^ 8 % 32 ≠ 0 ∨ pa % 2 ^ shift ≠ 0 then (.fault true false, slot)
      else if !leafAllows e k then (.fault false true, slot)
      else if k = .fetch ∧ e / 32 % 2 = 1 then (.fetch, slot)
      else (.ok { part := part, asid := asid, ctx := ctx, vpage := va / 2 ^ shift, size := shift, pa := pa
                  rd := e / 4 % 2 == 1, wr := e / 8 % 2 == 1, ex := e / 16 % 2 == 1, sys := e / 32 % 2 == 1
                  d := e / 128 % 2 == 1, gen := s.gen }, slot)
    else if fuel = 0 ∨ e / 2 % 2 = 1 ∨ e / 2 ^ 8 % 32 ≠ 0 then (.fault true false, slot)
    else if !s.owns part pa then (.fault true false, slot)
    else s.walkFrom part asid ctx va k fuel pa

/-- The base and log size of a partition's rings: fault queue, dirty log, supervisor, hypervisor (R376). -/
def Part.ring (p : Part) : Nat → Nat × Nat
  | 0 => (p.field 48 8, p.field 56 1)
  | 1 => (p.field 64 8, p.field 57 1)
  | 2 => (p.field 72 8, p.field 58 1)
  | _ => (p.field 80 8, p.field 59 1)

/-- The physical address of the next record of a physical ring (R376). -/
def Part.ringSlot (p : Part) (r size : Nat) : Nat := (p.ring r).1 + Store.get 0 p.next r % 2 ^ (p.ring r).2 * size

/-- Raises NEXT (R376). -/
def State.bumpRing (s : State) (p r : Nat) : State :=
  s.modPart p fun x => { x with next := Store.set 0 x.next r ((Store.get 0 x.next r + 1) % 2 ^ 24) }

/-- Posts a fault record, or joins the one that is open for the page; none while the queue is full (R313, R314). -/
def State.postFault (s : State) (p va ctx asid : Nat) (k : Access) (engine malformed perm : Bool) (peer : Option Nat) :
    Option Nat × State :=
  let x := s.part p
  let kind := kindCode k + (if peer.isSome then 4 else 0) + (if engine then 8 else 0) + (if malformed then 16 else 0)
    + (if perm then 32 else 0)
  let rq := match peer with
    | some d => d + 1
    | none => 0
  match x.faults.find? (fun f => f.2.1 == asid && f.2.2.1 == va / 8192 && f.2.2.2.2.2 == rq) with
  | some f => (some f.1, s)
  | none =>
    let pa := x.ringSlot 0 32
    if s.l2Read (pa + 15) &&& 1 = 1 then (none, s)
    else
      let idx := Store.get 0 x.next 0 % 2 ^ (x.ring 0).2
      let rva := match peer with
        | some d => 2 ^ 49 + d * 2 ^ 40 + va % 2 ^ 40
        | none => va
      let rctx := match peer with
        | some d => 0x80000000 + d
        | none => ctx
      let rec' := leBytes 8 rva ++ leBytes 4 rctx ++ leBytes 2 asid ++ leBytes 1 kind ++ leBytes 1 1 ++ leBytes 16 0
      (some idx, ((s.l2Write pa rec').bumpRing p 0).modPart p fun x =>
        { x with faults := x.faults ++ [(idx, asid, va / 8192, ctx, kind, rq)] })

/-- A record to firmware for an evicted page, or the one that is open for it (R312). Its index lies above those of the queue. -/
def State.postEvicted (s : State) (p va ctx asid : Nat) (k : Access) (peer : Option Nat) : Nat × State :=
  let rq := match peer with
    | some d => d + 1
    | none => 0
  match (s.part p).faults.find? (fun f => f.2.1 == asid && f.2.2.1 == va / 8192 && f.2.2.2.2.2 == rq) with
  | some f => (f.1, s)
  | none =>
    let n := s.fresh
    (2 ^ 25 + n.1, n.2.modPart p fun x => { x with faults := x.faults ++ [(2 ^ 25 + n.1, asid, va / 8192, ctx, kindCode k, rq)] })

/-- The index a wait carries while its record cannot be posted (R313). -/
def unposted : Nat := 2 ^ 24

/-- A walk with a context's own root that leaves the tables as they are: it asks where an address lies and accesses nothing. -/
def State.plainWalk (s : State) (ctx va : Nat) (k : Access) : Option Nat :=
  let c := s.ctx ctx
  let part := s.partNum ctx
  if va ≥ 2 ^ 49 then none
  else match (s.walkFrom part c.asid ctx va k 4 c.ptroot).1 with
    | .ok e => if e.sys then none else some (e.addr va)
    | _ => none

/-- The A and D bits of a leaf after an access, at its home L2 (R307). -/
def State.markLeaf (s : State) (slot : Nat) (d : Bool) : State :=
  let low := s.l2Read slot
  if low &&& 0x40 = 0 ∨ (d ∧ low &&& 0x80 = 0) then s.l2Write slot [low ||| (if d then 0xC0 else 0x40)] else s

/-- A record for the hypervisor's ring, which is physical, held when the ring is full (R375). -/
def State.putPhys (s : State) (p r pa : Nat) (rec : List Byte) : State :=
  if s.l2Read (pa + 1) &&& 1 = 1 then
    let x := s.part p
    let h := Store.get [] x.heldEv r
    if h.length < 64 then s.modPart p fun x => { x with heldEv := Store.set [] x.heldEv r (h ++ [rec]) }
    else s.modPart p fun x => { x with ovf := Store.set 0 x.ovf r (Store.get 0 x.ovf r + 1) }
  else
    let ovf := Store.get 0 (s.part p).ovf r
    ((s.l2Write pa (rec.take 28 ++ leBytes 4 ovf)).bumpRing p r).modPart p fun x =>
      { x with ovf := Store.set 0 x.ovf r 0 }

/-- Appends a dirty-log record for the first write to a page; false while the ring is full, which DIRTY_FULL reports once
(R329, R330). -/
def State.logDirty (s : State) (p : Nat) (e : Tlb) (rctx : Nat) : Bool × State :=
  let x := s.part p
  if (x.ring 1).2 = 0 then (true, s)
  else
    let pa := x.ringSlot 1 16
    if s.l2Read (pa + 14) &&& 1 = 1 then
      if x.dirtyFull then (false, s)
      else (false, (s.modPart p fun x => { x with dirtyFull := true }).putPhys p 3 (x.ringSlot 3 32)
        (eventRecord 4 0 rctx 0 0 0 s.tick.toNat (Store.get 0 x.next 1) 0))
    else
      let sz := (e.size - 13) / 10
      let rec' := leBytes 8 (e.vpage * 2 ^ e.size + sz * 2048) ++ leBytes 4 rctx ++ leBytes 2 e.asid ++ [1, 0]
      (true, ((s.l2Write pa rec').bumpRing p 1).modPart p fun x => { x with dirtyFull := false })

/-- A first write sets D and appends to the dirty log; another access sets A (R307, R329). None while the log is full. -/
def State.marks (s : State) (p : Nat) (e : Tlb) (slot rctx : Nat) (k : Access) : Bool × State :=
  if isWrite k && !e.d then
    let d := if p = 16 then (true, s) else s.logDirty p e rctx
    if d.1 then (true, d.2.markLeaf slot true) else d
  else (true, s.markLeaf slot false)

/-- An access of the machine itself through a context's translation, with its A and D bits and dirty log: trace records, check
points and supervisor events (R307, R329, R430, R455). None where the translation is refused. -/
def State.ownWalk (s : State) (ctx va : Nat) (k : Access) : Option (Nat × State) :=
  let c := s.ctx ctx
  let part := s.partNum ctx
  if va ≥ 2 ^ 49 then none
  else
    let r := s.walkFrom part c.asid ctx va k 4 c.ptroot
    match r.1 with
    | .ok e =>
      if e.sys then none
      else
        let m := s.marks part e r.2 ctx k
        if m.1 then some (e.addr va, m.2) else none
    | _ => none

/-- Writes bytes at a context's virtual address through its translation, at the home L2; none where it is refused. -/
def State.ctxWrite (s : State) (ctx va : Nat) (bs : List Byte) : Option State :=
  bs.zipIdx.foldl (fun os p => os.bind fun s => (s.ownWalk ctx (va + p.2) .write).map fun q => q.2.l2Write q.1 [p.1]) (some s)

/-- Reads bytes at a context's virtual address; none where it is refused. -/
def State.ctxRead (s : State) (ctx va n : Nat) : Option (List Byte × State) :=
  (List.range n).foldl (fun (acc : Option (List Byte × State)) i => acc.bind fun l =>
    (l.2.ownWalk ctx (va + i) .read).map fun q => (l.1 ++ [q.2.l2Read q.1], q.2)) (some ([], s))

/-- The address of the next record of an event ring, if it translates. -/
def State.eventSlot (s : State) (p r : Nat) : Option (Nat × State) :=
  let x := s.part p
  if r = 2 then s.ownWalk x.ctxbase (x.ringSlot 2 32) .write else some (x.ringSlot r 32, s)

/-- Writes one event record into a ring, holding it when the ring is full (R375). -/
def State.putEvent (s : State) (p r : Nat) (rec : List Byte) : State :=
  match s.eventSlot p r with
  | none => s
  | some q => q.2.putPhys p r q.1 rec

/-- Writes held events while there is room (R375). -/
def State.flushEvents (s : State) (p r : Nat) : Nat → State
  | 0 => s
  | fuel + 1 =>
    match Store.get [] (s.part p).heldEv r with
    | [] => s
    | e :: rest =>
      match s.eventSlot p r with
      | none => s
      | some q =>
        if q.2.l2Read (q.1 + 1) &&& 1 = 1 then s
        else ((s.modPart p fun x => { x with heldEv := Store.set [] x.heldEv r rest }).putEvent p r e).flushEvents p r fuel

/-- Held events are written as soon as a consumer has cleared VALID of the next record (R375, R376). -/
def State.flushHeld (s : State) : State :=
  if s.parts.any fun e => e.2.heldEv.any fun h => !h.2.isEmpty then
    s.parts.foldl (fun s e => (s.flushEvents e.1 2 64).flushEvents e.1 3 64) s
  else s

/-- Reports an event of a partition to the supervisor (2) or hypervisor (3) ring (R375). -/
def State.event (s : State) (p r code queue ctx warp detail : Nat) (pc : Word) (aux : Nat) : State :=
  (s.flushEvents p r 64).putEvent p r (eventRecord code queue ctx warp detail pc s.tick.toNat aux 0)

/-- How a translation ends for an access. -/
inductive Trans where
  | ok (e : Tlb) (s : State)
  /-- A cause that is not serviced. -/
  | trap (cause : Nat)
  /-- Held for service, for the fault queue or for the dirty log. -/
  | wait (w : LogWait) (s : State)
  deriving Repr

/-- One walk with its effects: A and D bits, the dirty log, and the records of its faults (R307, R312, R329, R502).
`peer` is the requester of a remote access. -/
def State.walk (s : State) (ctx va : Nat) (k : Access) (engine : Bool) (peer : Option Nat) : Trans :=
  let c := s.ctx ctx
  let p := s.partNum ctx
  let r := s.walkFrom p c.asid ctx va k 4 c.ptroot
  match r.1 with
  | .domain => .trap 0x0F
  | .fetch => .trap 0x0E
  | .evicted =>
    if p = 16 then .trap (if k = .fetch then 0x0E else 0x0D)
    else
      let f := s.postEvicted p va ctx c.asid k peer
      .wait (.service p f.1) f.2
  | .fault malformed perm =>
    if p = 16 then .trap (if k = .fetch then 0x0E else 0x0D)
    else
      let f := s.postFault p va ctx c.asid k engine malformed perm peer
      .wait (.service p (f.1.getD unposted)) f.2
  | .ok e =>
    let m := s.marks p e r.2 (match peer with
      | some d => 0x80000000 + d
      | none => ctx) k
    if m.1 then .ok { e with d := e.d || isWrite k } m.2 else .wait (.dirty p) m.2

/-- Counts an event of R437 for a context: on a slice, its core, and everywhere. -/
def State.count (s : State) (ctx core slice id n : Nat) : State :=
  s.modCtx ctx fun c =>
    let add := fun (m : Store Nat) (k : Nat) => Store.set 0 m k (Store.get 0 m k + n)
    { c with counts := add (add (add c.counts (id + 2 ^ 16 * (core * 16 + slice))) (id + 2 ^ 16 * (2560 + core))) (id + 2 ^ 16 * 2720) }

/-- Counts an event of a core that no slice takes part in, or of a scarab, which counts for its context alone. -/
def State.countCore (s : State) (ctx core id n : Nat) : State :=
  s.modCtx ctx fun c =>
    let add := fun (m : Store Nat) (k : Nat) => Store.set 0 m k (Store.get 0 m k + n)
    { c with counts := add (if core < 160 then add c.counts (id + 2 ^ 16 * (2560 + core)) else c.counts) (id + 2 ^ 16 * 2720) }

/-- Counts the lines that the home L2 has missed since another state, for a warp or for a core without a slice (R437), and as lines moved (R448). -/
def State.countL2 (s before : State) (w : Nat) : State :=
  let n := s.l2Misses - before.l2Misses
  if n = 0 then s else (s.count (s.ctxOf w) (coreOf w) (sliceOf w) 0x101 n).addWork (coreOf w) { l := n }
def State.countL2Core (s before : State) (ctx core : Nat) : State :=
  let n := s.l2Misses - before.l2Misses
  if n = 0 then s else (s.countCore ctx core 0x101 n).addWork core { l := n }

/-- The last two steps of R309, which a copy engine shares with the cores of its cluster: the cluster TLB, then the walker. -/
def State.clusterWalk (s : State) (core ctx va : Nat) (k : Access) (engine : Bool) : Trans :=
  let c := s.ctx ctx
  let p := s.partNum ctx
  match (s.cluster (clusterOf core)).tlb.find? fun e => e.covers p c.asid va && e.allows k with
  | some e => .ok e s
  | none =>
    match (if engine then s.countCore ctx core 0x103 1 else s).walk ctx va k engine none with
    | .ok e s1 => .ok e (s1.modCluster (clusterOf core) fun x => { x with tlb := (e :: x.tlb.filter fun y => !y.covers p c.asid va).take 4096 })
    | r => r

/-- Translates an access of a core's lane: last-page register, core TLB, cluster TLB, walker (R309). -/
def State.translate (s : State) (core lane ctx va : Nat) (k : Access) : Trans :=
  let c := s.ctx ctx
  let p := s.partNum ctx
  let hit := fun (e : Tlb) => e.covers p c.asid va && e.allows k
  let keep := fun (s : State) (e : Tlb) =>
    s.modCore core fun x => { x with lastPage := Store.set none x.lastPage lane (some { e with gen := s.gen, ctx := ctx }) }
  let lp := match Store.get none (s.core core).lastPage lane with
    | some e => if e.gen = s.gen ∧ e.ctx = ctx ∧ hit e then some e else none
    | none => none
  match lp with
  | some e => .ok e s
  | none =>
    match (s.core core).tlb.find? hit with
    | some e => .ok e (keep s e)
    | none =>
      let s1 := s.count ctx core (lane / 4) 0x102 1
      let s2 := if (s1.cluster (clusterOf core)).tlb.any hit then s1 else s1.count ctx core (lane / 4) 0x103 1
      match s2.clusterWalk core ctx va k false with
      | .ok e s3 => .ok e (keep (s3.modCore core fun x => { x with tlb := (e :: x.tlb.filter fun y => !y.covers p c.asid va).take 1024 }) e)
      | r => r

/-- Sweeps cached translations that satisfy a test, with one generation bump (R266, R310). -/
def State.sweep (s : State) (p : Tlb → Bool) : State :=
  let s1 : State := if s.gen ≥ 0xFFFF then
      { s with gen := 0, cores := Store.mapVals {} s.cores fun _ c => { c with lastPage := [] } }
    else { s with gen := s.gen + 1 }
  { s1 with cores := Store.mapVals {} s1.cores fun _ c => { c with tlb := c.tlb.filter fun e => !p e }
            clusters := Store.mapVals {} s1.clusters fun _ c => { c with tlb := c.tlb.filter fun e => !p e } }

/-- Whether a tenancy holds a peer (R303, R455): the PEERS map of the partition's entry. -/
def Part.hasPeer (p : Part) (peer : Nat) : Bool := p.field (192 + peer / 8) 1 / 2 ^ (peer % 8) % 2 == 1

end Sys2Proof.Machine
end

