-- ==== Sys2Proof/Machine/Observe.lean ====
section
/-! DEFINITION. Watches (R252 to R258, R427, R428), the trace ring (R429, R430), halting, and the shared taking of a trap
(R133, R138) with its trace record and its core dump (R441). -/

namespace Sys2Proof.Machine

/-! ### The trace ring -/

/-- A trace record (R429). -/
def traceRecord (tick kind watch warp : Nat) (pc : Word) (ctx thread cause : Nat) (data : DWord) : List Byte :=
  leBytes 8 tick ++ leBytes 1 kind ++ leBytes 1 watch ++ leBytes 2 warp ++ leBytes 4 pc.toNat ++ leBytes 4 ctx
    ++ leBytes 1 thread ++ leBytes 1 cause ++ leBytes 2 0 ++ leBytes 8 data.toNat

/-- The warp field of records: core in [7:0], slot in [14:8] (R375, R429). -/
def warpField (w : Nat) : Nat := coreOf w + 256 * slotOf w

/-- Writes a record into a context's ring (R429, R430). -/
def State.trace (s : State) (ctx : Nat) (rec : List Byte) : State :=
  let c := s.ctx ctx
  if !c.trOn then s
  else if !c.trWrap && decide ((c.traceptr - c.traceMark).toNat ≥ 2 ^ c.trlog) then
    s.modCtx ctx fun c => { c with traceovf := min (c.traceovf + 1) 0xFFFF }
  else
    let va := c.tracebase.toNat / 8192 * 8192 + c.traceptr.toNat % 2 ^ c.trlog * 32
    ((s.ctxWrite ctx va rec).getD s).modCtx ctx fun c => { c with traceptr := c.traceptr + 1 }

/-! ### Halting (R258, R259) -/

/-- HALTCAUSE (R260). -/
def Warp.haltCauseWord (x : Warp) : Nat :=
  x.haltCause + 16 * x.haltWatch + 256 * x.haltSlot + (if x.haltPartial then 2 ^ 15 else 0)

/-- HALTEV, and the report under NOTIFY, whose DETAIL is HALTCAUSE (R259, R375). -/
def State.haltEvent (s : State) (w : Nat) : State :=
  let ctx := s.ctxOf w
  let s1 := s.modCtx ctx fun c => { c with dbgstat := c.dbgstat ||| 16#5 }
  if (s1.ctx ctx).dbgctl.getLsbD 1 then
    match s1.partOf ctx with
    | some p => s1.event p 2 3 0 ctx (warpField w) (s1.warp w).haltCauseWord (s1.warp w).pc 0
    | none => s1
  else s1

/-- Halts a whole warp at once; it leaves its gang (R258). Under ENGHALT its workgroup's engines stop, an MMA after the K step it is at
(R264). -/
def State.haltNow (s : State) (w cause watch slot : Nat) (part : Bool) : State :=
  let s1 := ((s.modWarp w fun x => { x with whalt := true, haltCause := cause, haltWatch := watch, haltSlot := slot
                                            haltPartial := part }).partGang w).haltEvent w
  if (s.ctx (s.ctxOf w)).dbgctl.getLsbD 0 then
    let g := (s.warp w).wg
    (((s1.core (coreOf w)).mmas.filter fun m => m.wg == g && m.running).foldl (fun s m => s.after 1 (.mmaComplete (coreOf w) m.id)) s1).modWg g
      fun x => { x with engHalt := true }
  else s1

/-- Halts a whole warp from its next instruction boundary: a store that has performed in part ends first (R258, R262). -/
def State.haltWarp (s : State) (w cause watch slot : Nat) (part : Bool) : State :=
  if (s.warp w).rest.isEmpty then s.haltNow w cause watch slot part
  else s.modWarp w fun x => { x with stops := x.stops ++ [(none, cause, watch)] }

/-- The PC of the word that a thread's split issues next. -/
def Warp.nextPc (x : Warp) (t : Nat) : Word := ((x.valid.find? fun e => (x.split e).m.getLsbD t).map fun e => (x.split e).pc).getD 0

/-- Halts one thread with its halt PC (R258). -/
def State.haltThread (s : State) (w t cause watch : Nat) (pc : Word) : State :=
  (s.modWarp w fun x => { x with thalt := x.thalt ||| bit t, hpc := Store.set 0 x.hpc t pc
                                 haltCause := cause, haltWatch := watch }).haltEvent w

/-- The other members of a warp's gang. -/
def State.gangOthers (s : State) (w : Nat) : List Nat :=
  let g := (s.warp w).gang
  if g = 0 then [] else (s.warps.filter fun e => e.2.gang == g && e.1 != w).map Prod.fst

/-- The halt of a warp that a watch's action asks for: under action 4 the other members of its gang halt before their next word
(R258, R428). -/
def State.haltFor (s : State) (w act watch slot : Nat) (part : Bool) : State :=
  let others := if act = 4 then s.gangOthers w else []
  others.foldl (fun s v => if (s.warp v).whalt then s else s.haltWarp v 3 watch 0 false) (s.haltWarp w 1 watch slot part)

/-! ### Watches -/

/-- Whether a watch's comparator matches (R254). -/
def Watch.matches (x : Watch) (v : DWord) (fl : FFlags) : Bool :=
  match x.cmp with
  | 0 => decide (x.va ≤ v) && decide (v ≤ x.vb)
  | 1 => (v &&& x.vb) == (x.va &&& x.vb)
  | 2 => v == x.va
  | 3 => fl.nan
  | 4 => fl.inf
  | _ => fl.ov

/-- Whether a watch looks at a thread's source (R254): context, partition, warp number, thread and space. -/
def State.watches (s : State) (w t src space : Nat) (x : Watch) : Bool :=
  x.valid && x.armed && x.src == src && (src ≥ 2 || x.space == space) && decide (x.tlo ≤ t ∧ t ≤ x.thi)
    && x.warps.getLsbD (s.warp w).num && (x.anyctx || x.ctx == s.ctxOf w) && s.partNum (s.ctxOf w) == x.part

/-- One hit at a word of some PC: count, record, disarm, chain, trace (R255, R429). -/
def State.watchHit (s : State) (w t n : Nat) (x : Watch) (pc : Word) (v : DWord) : State :=
  let c := coreOf w
  let full := x.count == 0xFFFFFFFF#32
  let x1 : Watch := { x with
    hit := true, lastT := t, lastW := slotOf w, count := if full then x.count else x.count + 1
    cntovf := x.cntovf || full, armed := if x.oneshot then false else x.armed }
  let s1 := s.modCore c fun k => { k with watches := Store.set {} k.watches n x1 }
  let s2 := if x.chain then s1.modCore c fun k =>
      let y := Store.get {} k.watches (n + 1)
      { k with watches := Store.set {} k.watches (n + 1) (if y.valid then { y with armed := true } else y) } else s1
  if x.act = 1 then s2.trace x.ctx (traceRecord s.tick.toNat 1 n (warpField w) pc (s.ctxOf w) t 0 v) else s2

/-- A source that a thread shows to the watches: SRC, SPACE, the value and the flags of R66 (R254). -/
structure Show where
  src : Nat
  space : Nat := 0
  v : DWord := 0
  fl : FFlags := {}

/-- The hits of what one thread shows, in increasing watch number (R256): the watch's number and the value. -/
def State.hits (s : State) (bank : Store Watch) (w t : Nat) (xs : List Show) : List (Nat × DWord) :=
  bank.flatMap fun e => (xs.filter fun x => s.watches w t x.src x.space e.2 && e.2.matches x.v x.fl).map fun x => (e.1, x.v)

/-- Whether a thread is being stepped: the thread of a unit 0, every thread of a split's step (R264). -/
def Warp.steps (x : Warp) (t : Nat) : Bool :=
  match x.step with
  | some (k, u, _) => k % 2 == 1 || u == t
  | none => false

/-- Presents what one thread shows at one moment to the 16 watches of its core; answers the widest halt action hit (0 none, 2
thread, 3 warp, 4 gang) with its watch, after the record of the one halt it takes (R254 to R256, R429). The watches that look are
those of `bank`, the watches before the thread, so that none that the thread itself arms or disarms looks at it otherwise
(R255). Halt actions ignore a stepped thread (R264). `pc` is the word's. -/
def State.presentAll (s : State) (bank : Store Watch) (w t : Nat) (pc : Word) (xs : List Show) : State × Nat × Nat :=
  let r := (s.hits bank w t xs).foldl
    (fun (r : State × Nat × Nat) h =>
      let act := (Store.get {} bank h.1).act
      let s1 := r.1.watchHit w t h.1 (Store.get {} (r.1.core (coreOf w)).watches h.1) pc h.2
      if act > r.2.1 && decide (act ≥ 2) && !(s.warp w).steps t then (s1, act, h.1) else (s1, r.2.1, r.2.2))
    (s, 0, 0)
  if r.2.1 < 2 then r
  else (r.1.trace (Store.get {} bank r.2.2).ctx (traceRecord s.tick.toNat 3 r.2.2 (warpField w) pc (s.ctxOf w) t 0 0), r.2)

/-- The watches of a warp's core. -/
def State.bank (s : State) (w : Nat) : Store Watch := (s.core (coreOf w)).watches
/-- Presents a source of a thread that shows one source only. -/
def State.present (s : State) (w t src space : Nat) (v : DWord) (fl : FFlags) : State × Nat × Nat :=
  s.presentAll (s.bank w) w t (s.warp w).pc [{ src := src, space := space, v := v, fl := fl }]

/-! ### Core dumps (R441) -/

/-- Whether a trap of a cause dumps instead of entering its handler. -/
def Ctx.dumps (c : Ctx) (cause : Nat) : Bool := c.dumpOn && decide (cause ≥ 1) && c.dumpCauses.getLsbD (cause - 1)

/-- The warps of a context. -/
def State.ctxWarps (s : State) (ctx : Nat) : List Nat :=
  (s.warps.filter fun e => e.2.resident && s.ctxOf e.1 == ctx).map Prod.fst
/-- The workgroups of a context. -/
def State.ctxWgs (s : State) (ctx : Nat) : List Nat :=
  (s.wgs.filter fun e => e.2.resident && (s.launch e.2.launch).ctx == ctx).map Prod.fst

/-- The halt broadcast of a dump, its engines stopped, and the dump itself put on the calendar. Of two triggers in one tick the lower
core, then the lower slot, dumps (R441). -/
def State.startDump (s : State) (w : Nat) : State :=
  let ctx := s.ctxOf w
  -- a thread halt of a watch keeps its HALTCAUSE (R443)
  let halt := fun (s : State) (v : Nat) =>
    let x := s.warp v
    if x.whalt then s else if x.thalt != 0 && x.haltCause == 1 then s.haltWarp v 1 x.haltWatch 0 false else s.haltWarp v 2 0 0 false
  if (s.ctx ctx).dumping then
    let s1 := halt s w
    let by' := (s.ctx ctx).dumpBy
    if (s.ctx ctx).dumpAt = s.tick.toNat ∧ w < by' then
      ((s1.cancel fun e => e == .coreDumpWrite by').modCtx ctx fun c => { c with dumpBy := w }).soon (.coreDumpWrite w)
    else s1
  else
    let s1 := (s.ctxWarps ctx).foldl halt s
    let s2 := (s1.ctxWgs ctx).foldl (fun s g => s.modWg g fun x => { x with engHalt := true }) s1
    (s2.modCtx ctx fun c => { c with dumping := true, dumpAt := s.tick.toNat, dumpBy := w }).soon (.coreDumpWrite w)

/-! ### take_trap (R133) -/

/-- The entry that take_trap of R133 makes once its wait is over: the trap state, the gang, the trace record and the dump. -/
def State.trapEnters (s : State) (w cause f : Nat) (addr : DWord) (first : Word) (part : Bool) (pc : Word) : State :=
  let ctx := s.ctxOf w
  let s1 := (s.modWarp w fun x => { x.enterTrap (s.ctx ctx).tvec cause f addr first part pc with park := .none }).partGang w
  let s2 := if (s.ctx ctx).trTraps then
      s1.trace ctx (traceRecord s.tick.toNat 4 0 (warpField w) (s.warp w).pc ctx f cause addr) else s1
  if (s.ctx ctx).dumps cause then s2.startDump w else s2

/-- Takes a trap in a warp: trap state, TVEC, trap mode and its consequences, after the wait of R94. `pc` is what TRAPPC takes. -/
def State.takeTrap (s : State) (w cause f : Nat) (addr : DWord) (first : Word) (part : Bool) (pc : Word) : State :=
  let x := s.warp w
  let ctx := s.ctxOf w
  if x.step.any (fun k => k.1 == 0) then
    -- a stepped thread's word: the trap is not taken (R264)
    s.modWarp w fun x => { x with trap := { x.trap with cause := BitVec.ofNat 8 cause, second := 0 } }
  else if x.cur.trapm then
    let s1 := ((s.modWarp w fun x => x.doubleTrap cause).partGang w).haltEvent w
    match s1.partOf ctx with
    | some p => s1.event p 2 2 0 ctx (warpField w) (x.trap.cause.toNat + 256 * cause) x.pc 0
    | none => s1
  else if x.awaits then (s.modWarp w fun x => { x with park := .trapEntry cause f addr first part pc }).partGang w
  else s.trapEnters w cause f addr first part pc

/-- A trap at the running word (R133): TRAPPC is its PC, or the next one for USER. -/
def State.trapAt (s : State) (w cause f : Nat) (addr : DWord) (part : Bool) : State :=
  s.takeTrap w cause f addr 0 part (if cause = 0x0B then (s.warp w).pc + 1 else (s.warp w).pc)

end Sys2Proof.Machine
end

