-- ==== Sys2Proof/Machine/Memory.lean ====
section
/-! DEFINITION. Addressed accesses thread by thread (R187 to R192, R203 to R207), the write-combining buffer (R280, R281),
requests to peers and to the control node (R407, R410, R276), race checking (R300), and the operand log with its replay
(R315 to R320). -/

namespace Sys2Proof.Machine

/-! ### Requests to peers (R407 to R410, R325) -/

/-- plane(s, d, o) of R407. -/
def planeOfLine (src dst off : Nat) : Nat :=
  let l := off / 128
  let f := (l % 2048) ^^^ (l / 2 ^ 11 % 2048) ^^^ (l / 2 ^ 22 % 2048)
  (f + 7 * src + 13 * dst) % 24

/-- The plane that carries what a plane carries to a peer: itself, or the one it is remapped to (R407, R420). -/
def State.remapped (s : State) (dst k : Nat) : Nat :=
  match Store.get 0 s.remap (dst * 24 + k) with
  | 0 => k
  | n + 1 => n
/-- The plane of a line, or the plane it is remapped to (R420). -/
def State.planeOf (s : State) (src dst off : Nat) : Nat := s.remapped dst (planeOfLine src dst off)

/-- The pages of a core's requests that await their first answer (R325). -/
def State.pagesOut (s : State) (core : Nat) : List (Nat × Nat) :=
  ((s.sent.filter fun r => r.core == core && r.x.typ != 20 && r.x.typ != 13).map fun r => (r.x.dst, r.x.addr / 8192)).eraseDups

/-- The plane R407 computes for a request's line. -/
def Sent.computed (r : Sent) : Nat := planeOfLine r.x.src r.x.dst r.x.addr

/-- Whether requests of a line's plane still wait for a failed plane to be settled (R420). The query that settles it is about no
line. -/
def State.unsettled (s : State) (r : Sent) : Bool :=
  r.x.typ != 13 && (Store.get false s.settling (r.x.dst * 24 + r.computed)
    || s.sent.any fun o => o.x.dst == r.x.dst && o.x.typ != 13 && o.computed == r.computed && Store.get false s.settling (o.x.dst * 24 + o.x.plane))

/-- Whether a core may send to no page without a ticket: its tickets and its pages in flight are 32 (R325). -/
def State.coreFull (s : State) (r : Sent) : Bool :=
  let c := s.core r.core
  !r.replayed && r.x.typ != 20 && r.x.typ != 13 && !c.tickets.any (fun t => t.peer == r.x.dst && t.page == r.x.addr / 8192)
    && decide (c.tickets.length + (s.pagesOut r.core).length ≥ 32)

/-- Whether a request must wait at the device: a BUSY hold, a plane being settled, a full window, or the ticket limit
(R325, R410, R415, R420). Collective data waits for its virtual channel only. -/
def State.blocked (s : State) (r : Sent) : Bool :=
  let k := r.x.dst * 24 + r.x.plane
  let mine := s.sent.filter fun o => o.x.dst == r.x.dst && o.x.plane == r.x.plane && o.x.typ != 20
  -- what goes to the device's own index stays in it (R303)
  if r.x.dst = s.fabid then s.unsettled r || s.coreFull r
  else if r.x.typ = 20 then (s.port r.x.plane).state != .run || (s.port r.x.plane).stopped.getLsbD 2
  else (s.port r.x.plane).state != .run || (s.port r.x.plane).stopped.getLsbD 0
    || Store.get false s.busyHold k || s.unsettled r || decide (mine.length ≥ 256)
    || (r.x.typ == 6 && decide ((mine.filter fun o => o.x.typ == 6).length ≥ 16)) || s.coreFull r

/-- Whether a request stands behind one that waits for the same destination and plane (R408). What a core holds back for want of a
ticket (R325) holds back that core alone, and no resend of it. A plane query stands behind none: what waits may wait for it (R420). -/
def State.behindUnsent (s : State) (r : Sent) : Bool :=
  r.x.typ != 13 && s.unsent.any fun o => o.x.dst == r.x.dst && o.x.plane == r.x.plane && ((o.core == r.core && !r.replayed) || !s.coreFull o)

/-- The flits of a transaction (R409). -/
def txnFlits (x : Txn) : Nat := 1 + (x.payload.length - 96 + 127) / 128

/-- The arrival of a transaction (R412). -/
def txnEvent (x : Txn) : Instr :=
  match x.typ with
  | 1 => .rd x
  | 2 => .rdata x
  | 3 => .wr x
  | 4 => .wrm x
  | 5 => .doneOp x
  | 6 => .fabricAtom x
  | 7 => .ares x
  | 8 => .ticket x
  | 9 => .busy x
  | 10 => .refuse x
  | 11 => .notice x
  | 12 => .noteack x
  | 13 => .planeq x
  | 14 => .planea x
  | _ => .colld x

/-- Whether a transaction keeps the zero rules of R410: its TYPE is not reserved, SRC, DST and ADDR have no bit above theirs, and
every field that its type does not use is zero (R411, R412). -/
def txnLawful (x : Txn) : Bool :=
  let noLine := x.addr == 0 && x.ctx == 0 && x.tidx == 0 && !x.last
  let bare := noLine && x.ten == 0 && !x.resent
  decide (x.src < 512) && decide (x.dst < 512) && decide (x.addr < 2 ^ 40) && (match x.typ with
    | 1 => x.op == 0
    | 2 => bare && x.aux == 0 && x.op == 0
    | 3 => x.op == 0
    | 4 => x.op == 0
    | 5 => bare && x.aux == 0 && x.op == 0 && x.len == 0
    | 6 => true
    | 7 => bare && x.aux == 0 && x.op == 0
    | 8 => bare && x.op == 0 && x.len == 0
    | 9 => bare && x.op == 0 && x.len == 0
    | 10 => bare && x.op == 0 && x.len == 0
    | 11 => bare && x.len == 0
    | 12 => bare && x.op == 0 && x.len == 0
    | 13 => noLine && x.ten == 0 && x.aux == 0
    | 14 => bare && x.aux == 0 && x.op == 0
    | 16 => noLine && !x.resent && x.aux == 0 && x.op == 0
    | 17 => noLine && !x.resent && x.aux == 0 && x.op == 0
    | 20 => x.tidx == 0 && !x.last && !x.resent
    | 24 => bare && x.aux == 0 && x.op == 0
    | 25 => bare && x.aux == 0 && x.op == 0
    | _ => false)

/-- The virtual channel of a type of transaction (R412). -/
def vcOf (typ : Nat) : Nat :=
  if typ = 20 then 2 else if typ ≥ 16 then 3 else if typ = 2 ∨ typ = 5 ∨ typ = 12 ∨ typ = 14 ∨ (7 ≤ typ ∧ typ ≤ 10) then 1 else 0

/-- A port needs new keys: a counter nears 2^36 flits since the last change (R423). -/
def keyDue (at' n : Nat) (p : Port) : Bool := decide (n ≥ at' + 2 ^ 36 - 2 ^ 20) && !p.keyUpdating

/-- The flits of a transaction leave by its port; loopback sends none to the switch (R409, R425). A key change is due before 2^36
flits (R423). -/
def State.send (s : State) (x : Txn) : State :=
  let p := s.port x.plane
  let n := p.sentCnt + txnFlits x
  let s1 := s.modPort x.plane fun p => { p with sentCnt := n }
  let s2 := if keyDue p.keyAt n p then s1.soon (.keyupdate x.plane) else s1
  if p.loopback then s2 else { s2 with fabOut := s2.fabOut ++ [x] }

/-- Whether a port carries a type of transaction: in RUN it carries all, and while it is locked the management that brings it up
(R409, R422, R424). -/
def Port.carries (p : Port) (typ : Nat) : Bool := p.state == .run || (p.state == .locked && vcOf typ == 3)

/-- Whether the keys of what a port sends are used up: room for the longest transaction is left before 2^36 flits (R423). -/
def Port.keySpent (p : Port) : Bool := decide (p.sentCnt + 64 ≥ p.keyAt + 2 ^ 36)

/-- Whether a transaction is a replay notice or its acknowledgement, which nothing asks for again (R414). -/
def txnIsNotice (x : Txn) : Bool := x.typ == 11 || x.typ == 12

/-- Puts a transaction on its port (R409, R424): only a port in RUN carries traffic, and one on a stopped virtual channel waits for
GO (R419), one without a nonce left for new keys (R423). Replay notices and acknowledgements wait for a port in RUN. What the device
sends to its own index reaches its own owner path in order, without leaving it (R303), but for reports to a switch (R417). -/
def State.emit (s : State) (x : Txn) : State :=
  let p := s.port x.plane
  if x.src = s.fabid ∧ x.dst = s.fabid ∧ vcOf x.typ ≠ 3 then s.after 1 (txnEvent x)
  else if !p.carries x.typ then (if txnIsNotice x then { s with stalled := s.stalled ++ [x] } else s)
  else if p.stopped.getLsbD (vcOf x.typ) || (p.keySpent && x.typ != 24) then { s with stalled := s.stalled ++ [x] }
  else s.send x

/-- What waits at a port goes as it may; a port that has left RUN drops it, but for replay notices (R419, R424). -/
def State.unstall (s : State) (k : Nat) : State :=
  (s.stalled.filter fun x => x.plane == k).foldl (fun s x => s.emit x) { s with stalled := s.stalled.filter fun x => x.plane != k }

/-- Merges bytes into an entry. -/
def WcEntry.merge (e : WcEntry) (off : Nat) (bs : List Byte) : WcEntry :=
  { e with mask := bs.zipIdx.foldl (fun m p => m ||| (1#128 <<< (off + p.2))) e.mask
           bytes := bs.zipIdx.foldl (fun b p => Store.set 0 b (off + p.2) p.1) e.bytes }

/-- The request a drain of an entry sends: a full line or a byte-masked one (R281, R412). -/
def WcEntry.payload (e : WcEntry) : Nat × List Byte :=
  let line := Store.range 0 e.bytes 0 128
  if e.mask = BitVec.allOnes 128 then (3, line) else (4, leBytes 16 e.mask.toNat ++ line)

/-- Sends a request with the next SEQ of its destination and plane (R410). Collective data takes no number from that sequence: its
chunk carries one half the range away, so that its DONE is told from a write's (log 115). -/
def State.transmit (s : State) (r : Sent) : State :=
  let k := r.x.dst * 24 + r.x.plane
  let q := if r.x.typ = 20 then (Store.get 0 s.seqs k + 2 ^ 15) % 2 ^ 16 else Store.get 0 s.seqs k
  let n := s.fresh
  let x : Txn := { r.x with seq := q }
  ({ n.2 with seqs := if r.x.typ = 20 then s.seqs else Store.set 0 s.seqs k ((q + 1) % 2 ^ 16)
              sent := s.sent ++ [{ r with x := x, ord := if r.ord = 0 then n.1 + 1 else r.ord }] } : State).emit x

/-- Inserts a linked access at its place in send order (R323). -/
def insertSent (r : Sent) : List Sent → List Sent
  | [] => [r]
  | x :: rest => if r.ord < x.ord then r :: x :: rest else x :: insertSent r rest

/-- The ticket that a context holds for the page of a request that is new (R324). -/
def State.ticketFor (s : State) (r : Sent) : Option TicketEntry :=
  if r.replayed || r.x.typ == 20 || r.x.typ == 13 then none
  else (s.core r.core).tickets.find? fun t => t.ctx == r.x.ctx && t.peer == r.x.dst && t.page == r.x.addr / 8192

/-- Holds an access that is not sent, linked to the ticket of its page; a buffered write is ticketed with it (R323, R324). -/
def State.holdLink (s : State) (core : Nat) (t : TicketEntry) (r : Sent) : State :=
  let n := s.fresh
  let s1 := n.2.modCore core fun c => { c with
    tickets := c.tickets.map fun x => if x = t then { x with links := insertSent { r with ord := n.1 + 1 } x.links } else x }
  match r.link with
  | .wc k id => s1.modCore k fun c => { c with wc := c.wc.map fun (x : WcEntry) => if x.id = id then { x with sent := false, ticket := some t.ticket } else x }
  | _ => s1

/-- Links, sends or holds a request (R324, R325, R410, R415). -/
def State.request (s : State) (r : Sent) : State :=
  match s.ticketFor r with
  | some t => s.holdLink r.core t r
  | none => if s.behindUnsent r || s.blocked r then { s with unsent := s.unsent ++ [r] } else s.transmit r

/-- Sends the held requests that may go, in order. -/
def State.pump (s : State) : State := s.unsent.foldl State.request { s with unsent := [] }

/-- A request about a line of a peer (R410, R412), not yet sent. -/
def State.mkSent (s : State) (core ctx peer off typ op aux len : Nat) (payload : List Byte) (link : RemoteLink) : Sent :=
  let ten := match s.partOf ctx with
    | some p => (s.part p).field 22 2
    | none => 0
  { core := core, link := link
    x := { typ := typ, src := s.fabid, dst := peer, plane := s.planeOf s.fabid peer off, seq := 0, addr := off, ten := ten
           ctx := ctx, aux := aux, op := op, len := len, tidx := 0, resent := false, last := false, payload := payload } }
/-- Sends a request about a line of a peer. -/
def State.askPeer (s : State) (core ctx peer off typ op aux len : Nat) (payload : List Byte) (link : RemoteLink) : State :=
  s.request (s.mkSent core ctx peer off typ op aux len payload link)

/-! ### The write-combining buffer (R280, R281) -/

/-- Starts the drain of an entry with the bytes it holds, linking it to a ticket of its page, or discards it for a lost peer (R281,
R324). -/
def State.drainWc (s : State) (core id : Nat) : State :=
  match (s.core core).wc.find? (fun e => e.id == id) with
  | none => s
  | some e =>
    if e.sent || e.ticket.isSome then s
    else if Store.get false s.lost e.peer then
      s.modCore core fun c => { c with wc := c.wc.filter fun x => x.id != id }
    else
      let p := e.payload
      (s.modCore core fun c => { c with wc := c.wc.map fun x => if x.id = id then { x with sent := true } else x }).askPeer
        core e.ctx e.peer (e.line * 128) p.1 0 0 p.2.length p.2 (.wc core id)

/-- Drains the entries of a core that satisfy a test. -/
def State.drainAll (s : State) (core : Nat) (p : WcEntry → Bool) : State :=
  ((s.core core).wc.filter p).foldl (fun s e => s.drainWc core e.id) s

/-- Makes room for a new entry with 32 in use: unless a drain is under way, the oldest entry that no ticket holds drains (R280,
R281). -/
def State.wcRoom (s : State) (core : Nat) : State :=
  let l := (s.core core).wc
  if decide (l.length < 32) || l.any fun e => e.sent then s
  else match l.find? fun e => e.ticket.isNone with
    | some e => s.drainWc core e.id
    | none => s

/-- A relaxed store to the fabric window enters the buffer, merging with the entry of its line whose drain has not started; false
while every entry is in use (R280). DEDUCED (log 110): an entry is in use until its write is answered, so that one that comes back
ticketed has its place. -/
def State.wcStore (s : State) (core ctx peer off : Nat) (bs : List Byte) : Bool × State :=
  let line := off / 128
  let full := fun (s : State) (id : Nat) =>
    if (s.core core).wc.any fun e => e.id == id && e.mask == BitVec.allOnes 128 then s.drainWc core id else s
  match (s.core core).wc.find? fun e => e.ctx == ctx && e.peer == peer && e.line == line && !e.sent && e.ticket.isNone with
  | some e =>
    (true, full (s.modCore core fun c => { c with wc := c.wc.map fun x => if x.id = e.id then x.merge (off % 128) bs else x }) e.id)
  | none =>
    let s1 := s.wcRoom core
    if (s1.core core).wc.length ≥ 32 then (false, s1)
    else
      let n := s1.fresh
      let e : WcEntry := ({ id := n.1, ctx := ctx, peer := peer, line := line } : WcEntry).merge (off % 128) bs
      (true, full ((n.2.modCore core fun c => { c with wc := c.wc ++ [e] }).after (((s.ctx ctx).wcage + 1) * 250) (.wcAgeDrain core n.1)) n.1)

/-! ### Scopes (R284, R297) and releases (R208, R274, R281, R296) -/

/-- The widest scope a context performs (R282). -/
def Ctx.widest (c : Ctx) : Nat := if c.scopemax = 2 then 3 else if c.scopemax = 1 then 4 else 5

/-- A refused entry of a word from before the trap that is being handled: its handler does not wait for it (R328, log 82). -/
def Warp.idleEntry (x : Warp) (e : LogEntry) : Bool :=
  e.raised || (x.cur.trapm && !e.op.handler && match e.wait with
    | .refused .. => true
    | _ => false)

/-- A release at DEVICE scope or wider writes a warp's L1 back (R274, R437). -/
def State.releaseL1 (s : State) (w : Nat) : State := ((s.onBehalf (s.ctxOf w)).l1Release (coreOf w)).countL2 s w

/-- Starts what a release at a scope needs: the L1 write-back, and the drains of the context's entries (R274, R281). -/
def State.startRelease (s0 : State) (w scope : Nat) : State :=
  let s := s0.modWarp w fun x => { x with relWait := scope + 1 }
  let ctx := s.ctxOf w
  let s1 := if scope ≥ 2 then s.releaseL1 w else s
  if scope ≥ 3 then (s1.cores.map Prod.fst).foldl (fun s c => s.drainAll c fun e => e.ctx == ctx) s1 else s1

/-- Whether a release at a scope has nothing left to wait for (R208, R281, R296). -/
def State.released (s : State) (w scope : Nat) : Bool :=
  let ctx := s.ctxOf w
  ((s.warp w).log.all fun e => (s.warp w).idleEntry e) && (decide (scope < 3) || s.cores.all fun e => e.2.wc.all fun x => x.ctx != ctx)
    && (decide (scope < 5) || (s.ctx ctx).sysOut == 0)

/-- The cause a completed release at a scope traps with: a refused buffered write, a refused posted store, or a lost peer
(R298, R327, R501), and the state without it. -/
def State.releaseFault (s0 : State) (w scope : Nat) : Option (Nat × DWord) × State :=
  let s := s0.modWarp w fun x => { x with relWait := 0 }
  let ctx := s.ctxOf w
  let c := s.ctx ctx
  match (if scope ≥ 3 then c.wcFault else none) with
  | some f => (some f, s.modCtx ctx fun c => { c with wcFault := none })
  | none =>
    match (if scope ≥ 5 then c.sysFault else none) with
    | some f => (some f, s.modCtx ctx fun c => { c with sysFault := none })
    | none => ((s.warp w).owed, s.modWarp w fun x => { x with owed := none })

/-! ### Data of accesses -/

/-- Words as bytes, and bytes as words, little-endian. -/
def wordsNat : List Word → Nat
  | [] => 0
  | x :: rest => x.toNat + 2 ^ 32 * wordsNat rest
def natWords : Nat → Nat → List Word
  | 0, _ => []
  | n + 1, v => BitVec.ofNat 32 v :: natWords n (v / 2 ^ 32)

/-- The words a load delivers (R187): narrow values are zero- or sign-extended. -/
def loadWords (signed : Bool) (bytes total : Nat) (v : Nat) : List Word :=
  if total ≥ 4 then natWords (total / 4) v
  else [BitVec.ofNat 32 (if signed && decide (v ≥ 2 ^ (8 * bytes - 1)) then 2 ^ 32 + v - 2 ^ (8 * bytes) else v)]

/-- Signed reading of an n-bit number. -/
def toSigned (n v : Nat) : Int := if v ≥ 2 ^ (n - 1) then (v : Int) - 2 ^ n else v

/-- The new value of an integer atomic of n bits (R204). -/
def atomNew (op n old x : Nat) : Nat :=
  match op with
  | 0 => (old + x) % 2 ^ n
  | 1 => (old + (2 ^ n - x)) % 2 ^ n
  | 2 => old &&& x
  | 3 => old ||| x
  | 4 => old ^^^ x
  | 5 => if toSigned n old ≤ toSigned n x then old else x
  | 6 => if toSigned n old ≤ toSigned n x then x else old
  | 7 => min old x
  | 8 => max old x
  | 9 => x
  | 10 => if old ≥ x then 0 else old + 1
  | _ => if old = 0 ∨ old > x then x else old - 1

/-- One element of a floating atomic (R206): RNE, subnormals kept. -/
def fatomElem (f : Fmt) (op old x : Nat) : FRes :=
  match op with
  | 0 => f.addRes .rne false (f.decode old) (f.decode x)
  | 1 => f.minmaxRes false true (f.decode old) (f.decode x)
  | _ => f.minmaxRes true true (f.decode old) (f.decode x)

/-- The new word of a floating atomic in its data's format, with its flags (R206). -/
def fatomNew (op tag old x : Nat) : Nat × FFlags :=
  if tag = 4 then
    let r := fatomElem .fp32 op old x
    (r.bits, r.fl)
  else
    let f := if tag = 5 then Fmt.bf16 else Fmt.fp16
    let a := fatomElem f op (old % 2 ^ 16) (x % 2 ^ 16)
    let b := fatomElem f op (old / 2 ^ 16) (x / 2 ^ 16)
    (a.bits + 2 ^ 16 * b.bits, a.fl.or b.fl)

/-- What a read-modify-write stores (none: a CAS that fails) and its flags. `x` is the thread's data as one number. -/
def MemOp.rmw (op : MemOp) (old x : Nat) : Option Nat × FFlags :=
  match op.kind with
  | .atom o w64 _ => (some (atomNew o (if w64 then 64 else 32) old x), {})
  | .cas w64 =>
    let n := if w64 then 64 else 32
    (if old = x % 2 ^ n then some (x / 2 ^ n) else none, {})
  | .fatom o tag _ =>
    let r := fatomNew o tag old x
    (some r.1, r.2)
  | _ => (none, {})

/-- Whether a word is a read-modify-write. -/
def MemOp.isRmw (op : MemOp) : Bool :=
  match op.kind with
  | .atom .. => true
  | .cas _ => true
  | .fatom .. => true
  | _ => false
def MemOp.isStore (op : MemOp) : Bool := op.kind == .store
def MemOp.isLoad (op : MemOp) : Bool :=
  match op.kind with
  | .load _ => true
  | _ => false
/-- The access kind a word is translated for (R309, R210). -/
def MemOp.access (op : MemOp) : Access := if op.isStore then .write else if op.isRmw then .atomic else .read
/-- Bytes a thread's access covers. -/
def MemOp.total (op : MemOp) : Nat := op.bytes * op.count

/-! ### One thread (R190, R191) -/

/-- How one thread's access ends. -/
inductive LaneOut where
  /-- Performed, with the words it loaded and whether memory reports each of them (R334). -/
  | ok (s : State) (data : Option (List Word)) (poison : List Bool) (fl : FFlags)
  /-- Sent to a peer or to the control node. -/
  | sent (s : State)
  | trap (s : State) (cause : Nat) (addr : DWord)
  | wait (w : LogWait) (page : Nat) (s : State)
  /-- A buffered store finds no entry, and its warp waits (R280). -/
  | full (s : State)
  deriving Repr

/-- The number of a page in the operand log: that of the virtual address, plus 1 (R317). -/
def pageKey (va : Nat) : Nat := va / 8192 + 1

/-- Whether a log entry holds the accesses after it back: not the refused one whose trap is being handled (log 82). -/
def LogEntry.holds (e : LogEntry) : Bool := !e.raised && !e.lanes.isEmpty

/-- Whether a ticket of the warp's core holds an access that an earlier entry has sent to a page of a peer (R317, R323). -/
def State.ticketHolds (s : State) (w : Nat) (earlier : List LogEntry) (page : Nat) : Bool :=
  let va := (page - 1) * 8192
  decide (va ≥ 2 ^ 49) && (s.core (coreOf w)).tickets.any fun t =>
    t.ctx == s.ctxOf w && t.peer == va / 2 ^ 40 % 512 && t.page == va % 2 ^ 40 / 8192 && t.links.any fun r => match r.link with
      | .lane v lid _ => v == w && earlier.any fun e => e.id == lid
      | _ => false

/-- Whether an earlier log entry of the warp waits on a page, for service or on a ticket (R317). -/
def State.heldPage (s : State) (w : Nat) (earlier : List LogEntry) (page : Nat) : Bool :=
  (earlier.any fun e => e.page == page && e.holds) || s.ticketHolds w earlier page

/-- Whether an earlier load of a thread, in the log or at a peer, holds its store or atomic back (R291). A per-warp word stands in
every thread's program order (R286). The refused word of a trap that is being handled holds nothing of its handler (log 82). -/
def heldLoad (earlier : List LogEntry) (op : MemOp) (t : Nat) : Bool :=
  (op.isStore || op.isRmw) && earlier.any fun e => !e.raised && e.op.pend.isSome
    && (op.scalar || op.uniform || e.op.scalar || e.op.uniform || (e.lanes ++ e.out).any fun l => l.t == t)

/-- The pieces of a thread's access: a private access is one word per element (R201). -/
def State.pieces (s : State) (w : Nat) (op : MemOp) (l : Lane) : List (Nat × Nat) :=
  if op.space = .priv then
    (List.range op.count).map fun j =>
      (((s.warp w).privBase.toNat + ((l.addr.toNat + j) % 2 ^ 32 * 96 + l.t) * 4) % 2 ^ 64, 4)
  else [(l.addr.toNat, op.total)]

/-- Whether an earlier entry has still to perform an access to a byte of a thread's access (R192). -/
def State.heldByte (s : State) (w : Nat) (earlier : List LogEntry) (op : MemOp) (l : Lane) : Bool :=
  !(op.kind matches .maint ..) && earlier.any fun e => e.holds && (e.op.space == .scratch) == (op.space == .scratch)
    && !(e.op.kind matches .maint ..) && e.lanes.any fun k => (s.pieces w e.op k).any fun p => (s.pieces w op l).any fun q =>
      decide (p.1 < q.1 + q.2 ∧ q.1 < p.1 + p.2)

/-- Whether program order holds an access back behind earlier entries: a store or atomic behind a load of its thread (R291), any access
behind one to the same byte (R192). DEDUCED (log 112): the second holds an access to a page that no entry waits on yet, which
R317 would let go on. -/
def State.heldOrder (s : State) (w : Nat) (earlier : List LogEntry) (op : MemOp) (l : Lane) : Bool :=
  heldLoad earlier op l.t || s.heldByte w earlier op l

/-- The race check of R300 on one sector. None raises MMX. -/
def State.raceCheck (s : State) (w g sector : Nat) (write : Bool) : Option State :=
  let x := s.warp w
  let k := Store.get ({} : Sector) (s.wg x.wg).sectors sector
  let ge := fun (a b : BitVec 16) => decide ((a - b).toNat < 2 ^ 15)
  let q : BitVec 16 := (Store.get 0 x.seen g).setWidth 16
  let p : BitVec 16 := (Store.get 0 x.barA g).setWidth 16
  let grp := Store.get ({} : Group) (s.launchOf w).groups g
  if !(grp.valid && grp.roles.getLsbD x.role && grp.warps.getLsbD x.num) then none
  else if k.writer ≠ 0 ∧ k.writer ≠ x.num + 1 ∧ ge k.wph q then none
  else if write && k.reader != 0 && k.reader != x.num + 1 && ge k.rph q then none
  else
    let k' : Sector := if write then { writer := x.num + 1, wph := p, reader := 0, rph := k.rph }
      else if k.reader = 0 ∨ !ge k.rph q then { k with reader := x.num + 1, rph := p }
      else { k with reader := if k.reader = x.num + 1 then k.reader else 2 ^ 32, rph := if ge p k.rph then p else k.rph }
    some (s.modWg x.wg fun h => { h with sectors := Store.set {} h.sectors sector k' })

/-- The race check of a plain scratchpad access, if its offset lies in a checked range (R300, R301). -/
def State.raced (s : State) (w off : Nat) (op : MemOp) : Option State :=
  if op.direct || op.isRmw then some s
  else match (s.launchOf w).races.find? (fun r => decide (r.1 ≤ off ∧ off < r.1 + r.2.1)) with
    | none => some s
    | some r => s.raceCheck w r.2.2 (off / 32) op.isStore

/-- Counts lane operations of a warp's slice and its accesses of 32 bytes (R448). -/
def State.countOps (s : State) (w vl sr : Nat) : State :=
  let k := sliceKey w
  let x := Store.get ({} : Slice) s.slices k
  { s with slices := Store.set {} s.slices k { x with vl := x.vl + vl, sr := x.sr + sr } }

/-- A scratchpad access (R277). -/
def State.laneScratch (s : State) (w : Nat) (earlier : List LogEntry) (op : MemOp) (l : Lane) : LaneOut :=
  let g := (s.warp w).wg
  let off := l.addr.toNat % 2 ^ 32
  let n := op.total
  let at' := BitVec.ofNat 64 off
  if off + n > (s.wg g).scratchLen then .trap s 0x0D at'
  else if off % (if op.count = 4 then 16 else op.total) ≠ 0 then .trap s 0x0C at'
  else if s.heldOrder w earlier op l then .wait .order 0 s
  else match s.raced w off op with
    | none => .trap s 0x10 at'
    | some s0 =>
      let s1 := s0.countOps w 0 ((off + n + 31) / 32 - off / 32)
      let old := leNat (Store.range 0 (s1.wg g).scratch off n)
      let put := fun (s : State) (v n : Nat) =>
        s.modWg g fun h => { h with scratch := Store.setAll 0 h.scratch ((leBytes n v).zipIdx.map fun p => (off + p.2, p.1)) }
      match op.kind with
      | .load sg => .ok s1 (some (loadWords sg op.bytes n old)) [] {}
      | .store => .ok (put s1 (wordsNat l.data) n) none [] {}
      | .maint .. => .ok s1 none [] {}
      | _ =>
        let r := op.rmw old (wordsNat l.data)
        .ok (match r.1 with
          | some v => put s1 v n
          | none => s1) (some (natWords (n / 4) old)) [] r.2

/-- The act of an access to local HBM. -/
def State.laneLine (s : State) (w id pa n : Nat) (op : MemOp) (data : Nat) : State × Nat × FFlags :=
  let c := coreOf w
  let priv := op.space == .priv
  match op.kind with
  | .load _ =>
    let r := s.coreLoad c pa n op.hint priv
    let miss := !(List.range n).all fun i => (Store.get none s.l1 (l1Key c (pa + i))).isSome
    (if miss then r.2.count (s.ctxOf w) c (sliceOf w) 0x100 1 else r.2, leNat r.1, {})
  | .store =>
    if op.direct && decide (op.scope ≥ 2) then
      -- a release is performed at its scope: its bytes reach the home L2
      (((s.l1Purge c (pa / 128)).l2Part id pa (leBytes n data) 0), 0, {})
    else (s.coreStore c id pa (leBytes n data) op.hint priv, 0, {})
  | .maint inv l2 =>
    let line := pa / 128
    let s1 := s.l1Writeback c (fun a _ => a / 128 == line) inv
    let s2 := if l2 then s1.l2Clean fun a => a / 128 == line else s1
    (if l2 && inv then s2.l2Drop line else s2, 0, {})
  | _ =>
    let s1 := s.l1Purge c (pa / 128)
    let old := s1.l2Num pa n
    let r := op.rmw old data
    let s2 := s1.l2Alloc (pa / 128) 0
    (match r.1 with
      | some v => s2.l2SetNum pa n v
      | none => s2, old, r.2)

/-- An access to local HBM at a physical address (R273 to R275), of the word of name `id`; the lines that the home L2 misses for it,
those of what the core's L1 writes back among them, count for the warp (R437). -/
def State.laneLocal (s0 : State) (w id pa n : Nat) (op : MemOp) (data : Nat) : State × Nat × FFlags :=
  let r := (s0.onBehalf (s0.ctxOf w)).laneLine w id pa n op data
  (r.1.countL2 s0 w, r.2)

/-- The fabric operation code and payload of a word that goes to a peer (R412). -/
def MemOp.fabric (op : MemOp) (l : Lane) : Nat × Nat × Nat × List Byte :=
  match op.kind with
  | .atom o w64 _ => (6, o, 0, leBytes (if w64 then 8 else 4) (wordsNat l.data))
  | .cas w64 => (6, 12, 0, leBytes (if w64 then 16 else 8) (wordsNat l.data))
  | .fatom o tag _ => (6, 16 + o, tag, leBytes 4 (wordsNat l.data))
  | _ => (1, 0, 0, [])

/-- A byte mask and line of a direct store (R412). -/
def wrmPayload (off : Nat) (bs : List Byte) : List Byte :=
  let e : WcEntry := ({ id := 0, ctx := 0, peer := 0, line := 0 } : WcEntry).merge (off % 128) bs
  leBytes 16 e.mask.toNat ++ Store.range 0 e.bytes 0 128

/-- A context meets a lost peer (R283, R298). -/
def State.metLost (s : State) (ctx peer : Nat) : State :=
  s.modCtx ctx fun x => { x with peerlost := true, lostpeer := if x.peerlost then x.lostpeer else peer }

/-- Marks threads of a pending record as held in the operand log (R94). -/
def Warp.hold (x : Warp) (op : MemOp) (ls : List Lane) : Warp :=
  match op.pend with
  | none => x
  | some id =>
    let m := if op.uniform || op.scalar then BitVec.allOnes 96 else maskOf fun t => ls.any fun l => l.t == t
    { x with pending := x.pending.map fun p => if p.id = id then { p with held := p.held ||| (m &&& p.threads) } else p }

/-- An access to a peer (R276, R281, R298, R324). -/
def State.lanePeer (s : State) (w lid : Nat) (op : MemOp) (l : Lane) (peer off : Nat) : LaneOut :=
  let c := coreOf w
  let ctx := s.ctxOf w
  let n := op.total
  let line := off / 128
  if op.kind matches .maint .. then .ok s none [] {}
  else if Store.get false s.lost peer then
    let s1 := s.metLost ctx peer
    if op.isStore then .ok s1 none [] {}
    else if (s.ctx ctx).pltrap then .trap s1 0x13 (BitVec.ofNat 64 peer)
    else .ok s1 (some (loadWords (op.kind == .load true) op.bytes n (2 ^ (8 * n) - 1))) [] {}
  else if op.isStore && !op.direct then
    let r := s.wcStore c ctx peer off (leBytes n (wordsNat l.data))
    if r.1 then .ok r.2 none [] {} else .full r.2
  else
    let s1 := s.drainAll c fun e => e.ctx == ctx && e.peer == peer && e.line == line
    let f := op.fabric l
    let req := if op.isStore then s1.mkSent c ctx peer (line * 128) 4 0 0 144 (wrmPayload off (leBytes n (wordsNat l.data))) (.lane w lid l.t)
      else s1.mkSent c ctx peer off f.1 f.2.1 f.2.2.1 (if f.1 = 1 then n else f.2.2.2.length) f.2.2.2 (.lane w lid l.t)
    match (s1.core c).tickets.find? (fun t => t.ctx == ctx && t.peer == peer && t.page == off / 8192) with
    | some t => .sent ((s1.holdLink c t req).modWarp w fun x => x.hold op [l])
    | none => .sent (s1.request req)

/-- An access to control-node memory: a plain store is posted, and what must be answered waits in the log (R276, R316, R502). -/
def State.laneSys (s : State) (w lid : Nat) (op : MemOp) (l : Lane) (pa : Nat) : LaneOut :=
  let ctx := s.ctxOf w
  let p := s.partNum ctx
  let ten := (s.part p).field 22 2
  let n := op.total
  let id := s.fresh
  let bs := leBytes n (wordsNat l.data)
  let posted := op.isStore && !op.direct
  let req : SysReq := { id := id.1, link := .lane w lid l.t, ctx := ctx, addr := l.addr, isStore := op.isStore, bytes := bs, len := n
                        posted := posted }
  let s1 : State := { id.2 with sysReqs := id.2.sysReqs ++ [req] }
  match op.kind with
  | .load _ => .sent { s1 with hocpOut := s1.hocpOut ++ [.sysRead id.1 (BitVec.ofNat 64 pa) n p ten] }
  | .store =>
    let s2 : State := { s1 with hocpOut := s1.hocpOut ++ [HocpMsg.sysWrite id.1 (BitVec.ofNat 64 pa) bs p ten] }
    if posted then .ok (s2.modCtx ctx fun c => { c with sysOut := c.sysOut + 1 }) none [] {} else .sent s2
  | .maint .. => .ok s none [] {}
  | _ =>
    let f := op.fabric l
    .sent { s1 with hocpOut := s1.hocpOut ++ [.sysAtom id.1 (BitVec.ofNat 64 pa) f.2.1 f.2.2.2 p ten] }

/-- Where the pieces of a thread's access lie, or what ends it before any of them is performed (R190). -/
inductive Found where
  /-- Physical address, bytes, and whether control-node memory holds them. -/
  | ok (ps : List (Nat × Nat × Bool)) (s : State)
  | stop (o : LaneOut)

/-- Translates every piece of a thread's access: condition 4 of R191 for the thread as a whole. DESIGN CHOICE (log 103): a private word
on a page marked SYS traps ADDRESS, with TRAPADDR its word offset (R191, R272). -/
def State.findPieces (s : State) (w : Nat) (earlier : List LogEntry) (op : MemOp) (l : Lane) :
    List (Nat × Nat) → List (Nat × Nat × Bool) → Found
  | [], acc => .ok acc s
  | (va, n) :: rest, acc =>
    if s.heldPage w earlier (pageKey va) then .stop (.wait (.behind (pageKey va)) (pageKey va) s)
    else match s.translate (coreOf w) (sliceOf w * 4 + l.t % 4) (s.ctxOf w) va op.access with
      | .trap c => .stop (.trap s c l.addr)
      | .wait q s1 => .stop (.wait q (pageKey va) s1)
      | .ok e s1 =>
        if e.sys && op.space == .priv then .stop (.trap s1 0x0D l.addr)
        else if !e.sys && s1.zeroing.contains (.frame (e.addr va / 8192)) then .stop (.wait .ready (pageKey va) s1)
        else s1.findPieces w earlier op l rest (acc ++ [(e.addr va, n, e.sys)])

/-- Performs the pieces of a local access in turn (R190 step 4). -/
def State.doPieces (s : State) (w id : Nat) (op : MemOp) (l : Lane) :
    List (Nat × Nat × Bool) → Nat → List Word → List Bool → FFlags → LaneOut
  | [], _, acc, po, fl => .ok s (if op.isStore || op.kind matches .maint .. then none else some acc) po fl
  | (pa, n, _) :: rest, j, acc, po, fl =>
    let d := if op.space = .priv then (l.data.getD j 0).toNat else wordsNat l.data
    let r := s.laneLocal w id pa n op d
    let sg := match op.kind with
      | .load x => x
      | _ => false
    let ws := if op.isLoad then loadWords sg op.bytes n r.2.1 else natWords (n / 4) r.2.1
    let bad := s.reported (coreOf w) pa n && (op.isLoad || op.isRmw)
    State.doPieces r.1 w id op l rest (j + 1) (acc ++ ws) (po ++ ws.map fun _ => bad) (fl.or r.2.2)

/-- A thread's access to translated memory, once the rules before translation have passed it (R190, R291). -/
def State.lanePieces (s : State) (w lid : Nat) (earlier : List LogEntry) (op : MemOp) (l : Lane) (ps : List (Nat × Nat)) : LaneOut :=
  if s.heldOrder w earlier op l then .wait .order 0 s
  else match s.findPieces w earlier op l ps [] with
    | .stop o => o
    | .ok ((pa, _, true) :: _) s1 => s1.laneSys w lid op l pa
    | .ok qs s1 => s1.doPieces w (lid + 1) op l qs 0 [] [] {}

/-- One thread's access: the conditions of R191 in their order, then the access. An access to the device's own index takes the
owner path like one to any peer (R303). -/
def State.laneRun (s : State) (w lid : Nat) (earlier : List LogEntry) (op : MemOp) (l : Lane) : LaneOut :=
  match l.poison with
  | some r => .trap s 0x11 (BitVec.ofNat 64 r)
  | none =>
    match op.space with
    | .scratch => s.laneScratch w earlier op l
    | .priv =>
      -- DESIGN CHOICE (log 111): a private word in the fabric window traps as one beyond the address space does (R303)
      if l.addr.toNat % 2 ^ 32 + op.count - 1 ≥ (s.warp w).privSize ∨ (s.pieces w op l).any (fun p => decide (p.1 ≥ 2 ^ 49)) then
        .trap s 0x0D l.addr
      else s.lanePieces w lid earlier op l (s.pieces w op l)
    | .global =>
      let a := l.addr.toNat
      if a ≥ 2 ^ 50 then .trap s 0x0D l.addr
      else if a % (if op.count = 4 then 16 else op.total) ≠ 0 ∧ !(op.kind matches .maint ..) then .trap s 0x0C l.addr
      else
        let a := if op.kind matches .maint .. then a / 128 * 128 else a
        if a ≥ 2 ^ 49 then
          let peer := a / 2 ^ 40 % 512
          match s.partOf (s.ctxOf w) with
          | none => .trap s 0x0F l.addr
          | some p =>
            if !(s.part p).hasPeer peer then .trap s 0x0F l.addr
            else if s.heldPage w earlier (pageKey a) then .wait (.behind (pageKey a)) (pageKey a) s
            else if s.heldOrder w earlier op l then .wait .order 0 s
            else s.lanePeer w lid op l peer (a % 2 ^ 40)
        else s.lanePieces w lid earlier op l [(a, op.total)]

/-! ### All threads of a word -/

/-- Where a run of an addressed word's threads stands. -/
structure Run where
  s : State
  /-- Threads whose answers are outstanding. -/
  remote : List Lane := []
  /-- Some thread has performed. -/
  performed : Bool := false

/-- How a run ends. -/
inductive RunEnd where
  | all
  | trap (cause f : Nat) (addr : DWord)
  | held (lanes : List Lane) (w : LogWait) (page : Nat)
  /-- A watch stops the warp: action, watch, thread, and the threads left. -/
  | halted (act watch f : Nat) (lanes : List Lane)
  /-- A buffered store waits for an entry (R280): the threads left. -/
  | full (lanes : List Lane)
  deriving Repr

/-- Delivers the data of a thread to the pending record of a word (R92), with the marks of poison (R334). -/
def Pending.put (p : Pending) (ts : List Nat) (ws : List Word) (po : List Bool) : Pending :=
  let kv := ts.flatMap fun t => (p.regs.zip ws).map fun rw => (rw.1 * 96 + t, rw.2)
  let kp := ts.flatMap fun t => (p.regs.zip po).map fun rw => (rw.1 * 96 + t, rw.2)
  { p with data := kv.foldl (fun m e => Store.insert m e.1 e.2) p.data
           held := p.held &&& ~~~(maskOf ts.contains)
           poison := kp.foldl (fun m e => Store.set false m e.1 e.2) p.poison }

/-- Data of one thread arrive: the record takes them and their writes are put on the calendar. -/
def State.arrive (s : State) (w : Nat) (op : MemOp) (t : Nat) (ws : List Word) (po : List Bool) : State :=
  match op.pend with
  | none => s
  | some id =>
    match (s.warp w).pending.find? (fun p => p.id == id) with
    | none => s
    | some p =>
      let ts := if op.scalar then [0] else if op.uniform then threads p.threads else [t]
      let s1 := s.modWarp w fun x => { x with pending := x.pending.map fun q => if q.id = id then q.put ts ws po else q }
      ts.foldl (fun s t => s.soon (.longLatencyWrite w id t)) s1

/-- The words of a value as the watches see them: 4-byte elements, or one of 8 bytes (R254). -/
def MemOp.elements (op : MemOp) (ws : List Word) : List DWord :=
  if op.bytes = 8 then [BitVec.ofNat 64 (wordsNat ws)] else ws.map fun x => x.setWidth 64

/-- The address sources an access shows to the watches: an atomic counts as both a load and a store (R254). -/
def State.addrShows (s : State) (w : Nat) (op : MemOp) (l : Lane) : List Show :=
  let sp := if op.space = .scratch then 1 else 0
  let a := match s.pieces w op l with
    | p :: _ => BitVec.ofNat 64 p.1
    | [] => l.addr
  if !l.shown || op.kind matches .maint .. then []
  else (if op.isStore then [] else [{ src := 0, space := sp, v := a }]) ++ (if op.isLoad then [] else [{ src := 1, space := sp, v := a }])

/-- The stored elements it shows (R254). -/
def MemOp.storeShows (op : MemOp) (l : Lane) : List Show :=
  if op.isStore && l.shown then (op.elements l.data).map fun v => { src := 3, v := v } else []

/-- The loaded elements, or the flags of a floating atomic, that it shows once its value has come (R66, R254). -/
def MemOp.valueShows (op : MemOp) (l : Lane) (ws : List Word) : List Show :=
  if !l.shown then []
  else match op.kind with
    | .load _ => (op.elements ws).map fun v => { src := 2, v := v }
    | .fatom .. => [{ src := 4, fl := (op.rmw (wordsNat ws) (wordsNat l.data)).2 }]
    | _ => []

/-- What a thread's access shows with it, given how it would end. -/
def MemOp.shows (op : MemOp) (l : Lane) : LaneOut → List Show
  | .ok _ d _ _ => op.storeShows l ++ op.valueShows l (d.getD [])
  | .sent _ => op.storeShows l
  | _ => []

/-- A thread that a halt keeps from a word's access takes no result of it (R258, R259). -/
def State.dropThread (s : State) (w : Nat) (op : MemOp) (t : Nat) : State :=
  match op.pend with
  | some id => s.modWarp w fun x => { x with
      pending := (x.pending.map fun p => if p.id = id ∧ !op.scalar then { p with threads := p.threads &&& ~~~(bit t) } else p).filter
        fun p => p.threads != 0 }
  | none => s

/-- Runs the threads of an addressed word in increasing index (R190), under the halts of R258. `replay` is set for a replay
from the log, in which a halt of any kind stops the run (R500). A thread shows its sources when its access is performed, in one
pass over the watches; an access that an address source halts is not performed and shows no value (R256). A uniform or per-warp
word is performed once, for the first of its threads that is not halted (R25, R258). -/
def runLanes (w lid : Nat) (earlier : List LogEntry) (op : MemOp) (replay : Bool) : List Lane → Run → Run × RunEnd
  | [], r => (r, .all)
  | l :: rest, r =>
    match r.s.laneRun w lid earlier op l with
    | .wait q page s1 => ({ r with s := s1 }, .held (l :: rest) q page)
    | .full s1 => ({ r with s := s1 }, .full (l :: rest))
    | out =>
      let once := op.uniform || op.scalar
      let bank := r.s.bank w
      let addr := r.s.addrShows w op l
      let p0 := r.s.presentAll bank w l.t op.pc addr
      let p := if p0.2.1 ≥ 2 then p0 else r.s.presentAll bank w l.t op.pc (addr ++ op.shows l out)
      if p0.2.1 = 2 ∧ !replay then
        runLanes w lid earlier op replay rest { r with s := (p.1.haltThread w l.t 1 p.2.2 op.pc).dropThread w op l.t }
      else if p0.2.1 ≥ 2 ∨ (¬replay ∧ p.2.1 ≥ 3) then ({ r with s := p.1 }, .halted p.2.1 p.2.2 l.t (l :: rest))
      else match p.1.laneRun w lid earlier op l with
        | .wait q page s1 => ({ r with s := s1 }, .held (l :: rest) q page)
        | .full s1 => ({ r with s := s1 }, .full (l :: rest))
        | .trap s1 c a => ({ r with s := s1 }, .trap c l.t a)
        | .sent s1 =>
          let r1 : Run := { s := s1, remote := r.remote ++ [l], performed := true }
          let r2 : Run := if p.2.1 = 2 then { r1 with s := s1.haltThread w l.t 1 p.2.2 (op.pc + 1) } else r1
          if replay ∧ p.2.1 ≥ 2 then (r1, .halted p.2.1 p.2.2 (l.t + 1) (if once then [] else rest))
          else if once then (r2, .all) else runLanes w lid earlier op replay rest r2
        | .ok s1 d po _ =>
          let s2 := match d with
            | some ws => s1.arrive w op l.t ws po
            | none => s1
          let r1 : Run := { s := s2, remote := r.remote, performed := true }
          let r2 : Run := if p.2.1 = 2 then { r1 with s := s2.haltThread w l.t 1 p.2.2 (op.pc + 1) } else r1
          if replay ∧ p.2.1 ≥ 2 then (r1, .halted p.2.1 p.2.2 (l.t + 1) (if once then [] else rest))
          else if once then (r2, .all) else runLanes w lid earlier op replay rest r2

/-! ### The operand log (R315 to R320) -/

/-- Puts an entry into the log, or replaces the one of its id. -/
def Warp.logPut (x : Warp) (e : LogEntry) : Warp :=
  if x.log.any fun y => y.id == e.id then { x with log := x.log.map fun y => if y.id = e.id then e else y }
  else { x with log := x.log ++ [e] }
def Warp.logDrop' (x : Warp) (id : Nat) : Warp := { x with log := x.log.filter fun e => e.id != id }

/-- The lowest thread still to perform, NEXT (R315). -/
def LogEntry.lead (e : LogEntry) : Nat := ((e.lanes.head?).map Lane.t).getD 0

/-- Whether an entry may replay: its wait has ended and nothing earlier holds it back (R291, R317, R318). -/
def State.mayReplay (s : State) (w : Nat) (earlier : List LogEntry) (e : LogEntry) : Bool :=
  match e.wait with
  | .ready => true
  | .behind page => !s.heldPage w earlier page
  | .order => match e.lanes.head? with
    | some l => !s.heldOrder w earlier e.op l
    | none => true
  | _ => false

/-- Whether an entry's refusal may raise its deferred trap: it has not yet, and in trap mode the word is the handler's own (R319,
R328). -/
def Warp.mayRaise (x : Warp) (e : LogEntry) : Bool := !e.raised && (!x.cur.trapm || e.op.handler)

/-- The first refused entry of a warp's log, of those a test picks, whose deferred trap may be raised (R319). -/
def Warp.refusedOf (x : Warp) (pick : LogEntry → Bool) : Option (Nat × LogEntry × Nat × DWord) :=
  (x.log.zipIdx.filterMap fun p => match p.1.wait with
    | .refused c a => if !x.mayRaise p.1 || !pick p.1 then none else some (p.2, p.1, c, a)
    | _ => none).head?
def Warp.refusedEntry (x : Warp) : Option (Nat × LogEntry × Nat × DWord) := x.refusedOf fun _ => true

/-- The refused entry whose deferred trap has been raised (R320). -/
def Warp.raisedEntry (x : Warp) : Option LogEntry :=
  x.log.find? fun e => e.raised && (match e.wait with
    | .refused .. => true
    | _ => false)

/-- Whether an access is held behind a refused entry (R317, R319). -/
def Warp.behindRefused (x : Warp) : Bool :=
  x.log.any fun e => x.mayRaise e && (match e.wait with
    | .refused .. => true
    | _ => false) && x.log.any fun f => f.wait == .behind e.page

/-- The deferred trap of R319, for the first entry that a test picks. An entry raises it once; an ERET replays the entry (R320). -/
def State.deferredFor (s : State) (w : Nat) (pick : LogEntry → Bool) : State :=
  match (s.warp w).refusedOf pick with
  | none => s
  | some (i, e, c, a) =>
    let s1 := s.modWarp w fun x =>
      { x.logPut { e with raised := true } with logDefer := true, logRef := i, logPc := e.op.pc, park := .none, relWait := 0 }
    s1.takeTrap w c e.lead a 0 false (s.warp w).pc
def State.deferredTrap (s : State) (w : Nat) : State := s.deferredFor w fun _ => true

/-- A warp between words takes the deferred trap of a refused entry when it is parked at a marker, or when another access is held
behind that entry (R319). -/
def State.overdue (s : State) (w : Nat) : State :=
  let x := s.warp w
  if x.refusedEntry.isSome && (x.park == .marker || x.behindRefused) && decide (x.run < 8) && x.rest.isEmpty then s.deferredTrap w else s

/-- Goes on with an entry whose held threads have all performed: it is freed, waits for its remote answers, or becomes REFUSED with
the threads that were refused (R316, R501). -/
def State.settleEntry (s : State) (w lid : Nat) : State :=
  match (s.warp w).log.find? fun e => e.id == lid with
  | none => s
  | some e =>
    let bad := fun (t : Nat) => e.refused.any fun r => r.1 == t
    if !e.lanes.isEmpty then s
    else if e.out.any fun l => !bad l.t then s.modWarp w fun x => x.logPut { e with wait := .remote, page := 0 }
    else match e.refused with
      | [] =>
        let s1 := s.modWarp w fun x => x.logDrop' lid
        if e.op.acq && decide (e.op.scope ≥ 2) && e.op.space == .global then s1.l1Acquire (coreOf w) else s1
      | r :: rest =>
        let low := rest.foldl (fun a b => if b.1 < a.1 then b else a) r
        s.modWarp w fun x => x.logPut { e with
          lanes := e.out, out := [], refused := [], wait := .refused low.2.1 low.2.2
          page := pageKey (((e.out.find? fun l => l.t == low.1).map Lane.addr).getD 0).toNat }

/-- Replays one entry of a warp's log (R318, R500). -/
def State.replayEntry (s : State) (w : Nat) (e : LogEntry) : State :=
  let earlier := ((s.warp w).log.takeWhile fun x => x.id != e.id)
  let r := runLanes w e.id earlier e.op true e.lanes { s := s }
  let out := e.out ++ r.1.remote.map fun l => { l with again := true }
  let keep := fun (s : State) (ls : List Lane) (q : LogWait) (page : Nat) =>
    (s.modWarp w fun x => x.logPut { e with lanes := ls, wait := q, page := page, out := out, raised := false })
  match r.2 with
  | .all => (keep r.1.s [] .remote 0).settleEntry w e.id
  | .trap c f a =>
    let bad := fun (l : Lane) => e.refused.any fun r => r.1 == l.t
    let first := e.refused.foldl (fun (b : Nat × Nat × DWord) r => if r.1 < b.1 then r else b) (f, c, a)
    let page := pageKey (((e.lanes.find? fun l => l.t == f).map Lane.addr).getD 0).toNat
    r.1.s.modWarp w fun x => x.logPut { e with
      lanes := e.out.filter bad ++ e.lanes.filter (fun l => decide (l.t ≥ f)), out := out.filter fun l => !bad l, refused := []
      wait := .refused first.2.1 first.2.2, page := page, raised := false }
  | .held ls q page => keep r.1.s ls q page
  | .full ls => keep r.1.s ls .ready e.page
  | .halted act watch _ ls => ((keep r.1.s ls .ready e.page).settleEntry w e.id).haltFor w act watch 0 false

/-- Replays, in order, every entry of a warp whose wait has ended (R318, R320). A halted warp replays nothing (R500). -/
def State.replayWarp (s : State) (w : Nat) : State :=
  (s.warp w).log.foldl (fun s e0 =>
    if (s.warp w).whalt && (s.warp w).step.isNone then s
    else match (s.warp w).log.find? (fun e => e.id == e0.id) with
      | some e => if s.mayReplay w ((s.warp w).log.takeWhile fun x => x.id != e.id) e then s.replayEntry w e else s
      | none => s) s

/-- Marks the waits that a test picks as ended, and replays their warps. -/
def State.wake (s : State) (p : LogWait → Bool) : State :=
  (s.warps.filter fun e => e.2.log.any fun x => p x.wait).foldl (fun s e =>
    ((s.modWarp e.1 fun x => { x with log := x.log.map fun l => if p l.wait then { l with wait := .ready } else l }).replayWarp
      e.1).overdue e.1)
    -- entries of warps that are switched out end their waits too, and replay after the restore (R318, R328)
    { s with saves := Store.mapVals {} s.saves fun _ v => { v with warps := Store.mapVals {} v.warps fun _ x =>
        { x with log := x.log.map fun l => if p l.wait then { l with wait := .ready } else l } } }

end Sys2Proof.Machine
end

