-- ==== Sys2Proof/Machine/Operands.lean ====
section
/-! DEFINITION. The issue of one word: the checks every instruction shares in the order of R103 and R79, the active threads
that perform it in increasing index (R20), uniform execution (R25), long-latency results (R91), and its retirement. -/

namespace Sys2Proof.Machine

/-- A register read as a source, with the halves the instruction uses: 1 low, 2 high, 3 both (R335). -/
structure Src where
  scalar : Bool := false
  reg : Nat
  halves : Nat := 3
  deriving DecidableEq, Repr

/-- What a word names and how it is checked. -/
structure Form where
  /-- The switch marker (R91). -/
  m : Bool
  /-- Words the instruction takes (R95). -/
  len : Nat := 1
  /-- An ILLEGAL that the word's own entry states (R102, R103). -/
  illegal : Bool := false
  /-- The least level (R50). -/
  level : Nat := 0
  /-- A vector word, skipped with no active thread (R18). -/
  vector : Bool := false
  /-- A word that reads and writes no register, whatever it names: BRV of an empty A (R93, R119). -/
  idle : Bool := false
  /-- Registers named, the implied ones included (R28, R29), and fields that must be even (R79). -/
  s : List Nat := []
  v : List Nat := []
  even : List Nat := []
  /-- The second registers of pairs that a tag implies, which the word reads or writes (R93). -/
  also : List Nat := []
  /-- Vector sources, whose tags must not be NONE (R79). -/
  src : List Nat := []
  /-- Whether the class accepts the tags (R78). -/
  tags : Warp → Bool := fun _ => true
  /-- An ILLEGAL that depends on a tag (R103). -/
  late : Warp → Bool := fun _ => false
  /-- Sources in the order A, B, D in which POISON names them (R335); empty where the body tests poison itself. -/
  reads : List Src := []
  /-- Vector sources that decide uniform execution, or none for a word that is never uniform (R25). -/
  uni : Option (List Nat) := none
  /-- Occupancy: memory class, and the factor of R141 and R163. -/
  mem : Bool := false
  factor : Nat := 1
  /-- Cycles before the next issue after a scalar form (R141). -/
  cost : Nat := 1
  /-- The slot-tree leaf of the word when it issues (R433). -/
  leaf : Nat := 3
  /-- Its major opcode and check value, where it is a check point (R439). -/
  check : Option (Nat × Word) := none
  /-- The tile that a row operation reads (R223). -/
  tile : Option Nat := none

/-- How a word's own effect ends. -/
inductive Act where
  /-- Retired; the PC moves past the word. -/
  | done (s : State)
  /-- Retired; the word has placed its splits itself. -/
  | jump (s : State)
  | trap (cause f : Nat) (addr : DWord) (part : Bool) (s : State)
  /-- A watch stopped the warp before the word retired (R258). -/
  | halt (s : State)
  /-- Not issued: the deferred trap is taken in its place (R319). -/
  | defer (s : State)
  /-- Not issued: the warp waits, and the word is tried again. -/
  | park (p : Park) (s : State)

/-! ### Waits for the operand log (R316, R319) -/

/-- A word that must wait for entries of the log: the deferred trap of one of them that is refused, or a park (R319). -/
def State.logWaits (s : State) (w : Nat) (pick : LogEntry → Bool) : Act :=
  if ((s.warp w).refusedOf pick).isSome then .defer (s.deferredFor w pick) else .park .retry s

/-- A word that must wait for a free entry (R316). Where only refused entries from before a handler stand in its way, the wait of the
handler raises one of them, which is a double trap (R319, R133; log 82). -/
def State.logFull (s : State) (w : Nat) : Act :=
  if (s.warp w).log.all fun e => (s.warp w).idleEntry e && !e.raised then
    .defer ((s.modWarp w fun x => { x with log := x.log.map fun e => { e with op := { e.op with handler := true } } }).deferredTrap w)
  else s.logWaits w fun _ => true

/-- Whether an acquire of the warp is still to be performed: the accesses after it wait for it (R287, R290). -/
def LogEntry.acquiring (e : LogEntry) : Bool := e.op.acq && !e.raised

/-! ### Occupancy (R18) -/

/-- Active threads of one lane. -/
def laneCount (m : Mask) (l : Nat) : Nat := ((threads m).filter fun t => t % 4 == l).length
/-- Occupancy of arithmetic. -/
def occArith (m : Mask) : Nat := max (max (laneCount m 0) (laneCount m 1)) (max (laneCount m 2) (laneCount m 3))
/-- Occupancy of memory and exchange: ranks with an active thread. -/
def occMem (m : Mask) : Nat := ((threads m).map (· / 4)).eraseDups.length

/-- Whether a word executes once (R25). -/
def Form.uniform (f : Form) (x : Warp) : Bool :=
  match f.uni with
  | some rs => rs.all x.uBit
  | none => false

/-- The charge of a word (R366) and the cycles to the warp's next issue (R19, R141). -/
def Form.cycles (f : Form) (x : Warp) : Nat × Nat :=
  if !f.vector then (1, f.cost)
  else if x.active = 0 || f.uniform x then (1, 6)
  else
    let o := (if f.mem then occMem x.active else occArith x.active) * f.factor
    (o, max o 6)

/-- Counts one slot of a slice in a leaf, for a context or for none (R436). -/
def State.countSlot (s : State) (k : Nat) (ctx : Option Nat) (leaf : Nat) : State :=
  let s1 : State := { s with slots := Store.set 0 s.slots (k * 32 + leaf) (Store.get 0 s.slots (k * 32 + leaf) + 1) }
  match ctx with
  | some c => s1.count c (k / 16) (k % 16) leaf 1
  | none => s1

/-- Whether a core is halting for pre-emption or exchanging with its shadow bank (R433). -/
def State.halting (s : State) (core : Nat) : Bool :=
  (s.core core).swapping || s.wgs.any fun e => e.2.stopping && !e.2.out && e.2.core == core

/-- Counts a slot of a slice of a halting core, for the incoming context (R433, R436). -/
def State.countSwap (s : State) (k : Nat) : State :=
  s.countSlot k (if (s.core (k / 16)).shadow = 0 then none else some ((s.core (k / 16)).shadow - 1)) 0x13

/-- What the issue of a word does to its slice: the charge of its context's deficit, the slot, which is SWAP on a halting core, and
the lane pipe, busy for `pipe` cycles (R365, R366, R433, R467). -/
def State.charge (s : State) (w leaf n pipe : Nat) : State :=
  let ctx := s.ctxOf w
  let k := sliceKey w
  let sl := Store.get ({} : Slice) s.slices k
  let s1 : State := { s with
    slices := Store.set {} s.slices k
      { sl with
        defs := sl.defs.map fun d => if d.1 = ctx then (d.1, d.2 - n) else d
        issued := s.now w + 1, pipe := if pipe = 0 then sl.pipe else s.now w + pipe
        taken := if pipe = 0 then sl.taken else s.now w + 1
        words := Store.set 0 sl.words ctx (Store.get 0 sl.words ctx + 1) } }
  if s.halting (coreOf w) then s1.countSwap k else s1.countSlot k (some ctx) leaf

/-! ### Checks -/

/-- REG_RANGE (R28, R29). -/
def Form.inRange (f : Form) (x : Warp) : Bool :=
  f.s.all (fun r => decide (r < x.nsregs ∨ r ≥ 61)) && f.v.all (fun r => decide (r < x.allot))

/-- Whether a register the word names has a pending long-latency write (R93); every word is issued under the mask of s61 to s63
(R58). -/
def Form.hazard (f : Form) (x : Warp) : Bool :=
  x.pending.any fun p => p.regs.any fun r =>
    if p.scalar then decide (r ≥ 61) || f.s.contains r else f.v.contains r || f.also.contains r

/-- Whether a source is poisoned for a thread (R334, R335). -/
def Src.bad (a : Src) (x : Warp) (t : Nat) : Bool :=
  if a.scalar then x.spoison.getLsbD a.reg
  else (a.halves % 2 == 1 && x.poisonV a.reg t 0) || (a.halves / 2 == 1 && x.poisonV a.reg t 1)

/-- TRAPADDR of POISON (R335). -/
def Src.addr (a : Src) : DWord := BitVec.ofNat 64 (a.reg + if a.scalar then 64 else 0)

/-- The thread and register that POISON reports: the lowest active thread that reads a poisoned source; a word with no active
thread reports none (R142, R335). -/
def Form.poison (f : Form) (x : Warp) : Option (Nat × DWord) :=
  if x.active = 0 then none
  else if !f.vector then (f.reads.find? fun a => a.bad x 0).map fun a => (x.reportSlot, a.addr)
  else
    let ts := if f.uniform x then [lowest x.active] else threads x.active
    (ts.find? fun t => f.reads.any fun a => a.bad x t).bind fun t => (f.reads.find? fun a => a.bad x t).map fun a => (t, a.addr)

/-- The shared checks of a word in their order (R103, R79, R93, R142): the cause, the thread and TRAPADDR. DESIGN CHOICE (log 85):
HAZARD has no place in the spec's order; it stands after the tag checks and before POISON. An implied run that passes s63 is ILLEGAL
under R102, before all (R28). DEDUCED (log 86): a vector pair field that names an odd register names the one after it as well, so that at
the end of an allotment REG_RANGE comes before ILLEGAL, in R79's order. -/
def Form.fails (f : Form) (x : Warp) (level : Nat) (hazchk : Bool) : Option (Nat × Nat × DWord) :=
  if f.illegal || f.s.any fun r => decide (r ≥ 64) then some (0x01, x.reportSlot, 0)
  else if level < f.level then some (0x02, x.reportSlot, 0)
  else if !f.inRange x then some (0x03, x.reportSlot, 0)
  else if f.even.any fun r => r % 2 == 1 then some (0x01, x.reportSlot, 0)
  else if (f.vector && x.active == 0) || f.idle then none
  else if f.src.any fun r => x.tag r == 0 then some (0x04, x.reportSlot, 0)
  else if !f.tags x then some (0x05, x.reportSlot, 0)
  else if f.late x then some (0x01, x.reportSlot, 0)
  else if hazchk && f.hazard x then some (0x06, x.reportSlot, 0)
  else (f.poison x).map fun p => (0x11, p.1, p.2)

/-! ### Check points (R439, R440) -/

/-- The entry a check point writes: RC counts the word itself. -/
def checkEntry (x : Warp) (c : Nat × Word) : List Byte :=
  leBytes 4 x.ordinal ++ leBytes 4 (x.rc + 1) ++ leBytes 4 c.2.toNat ++ [BitVec.ofNat 8 c.1, 0, 0, 0]

/-- Compares a check point in replay: false raises DIVERGED. -/
def State.checkReplay (s : State) (w : Nat) (c : Nat × Word) : Bool × State :=
  let x := s.warp w
  if x.rrMode ≠ 2 then (true, s)
  else if x.ordinal ≥ 2 ^ x.rrLog then (true, s.modCtx (s.ctxOf w) fun k => { k with rrOvf := true })
  else
    match s.ctxRead (s.ctxOf w) (x.rrBase.toNat + 16 * x.ordinal) 16 with
    | some e => (e.1.take 13 == (checkEntry x c).take 13, e.2)
    | none => (false, s)

/-- Records a check point at its retirement. -/
def State.checkRecord (s : State) (w : Nat) (c : Nat × Word) : State :=
  let x := s.warp w
  let s1 := if x.rrMode = 1 then
      if x.ordinal ≥ 2 ^ x.rrLog then s.modCtx (s.ctxOf w) fun k => { k with rrOvf := true }
      else (s.ctxWrite (s.ctxOf w) (x.rrBase.toNat + 16 * x.ordinal) (checkEntry x c)).getD s
    else s
  if x.rrMode = 0 then s1 else s1.modWarp w fun x => { x with ordinal := x.ordinal + 1 }

/-! ### PC watches (R254, R258) -/

/-- Presents the word's PC for threads in turn; true when the warp halts before the word. -/
def State.presentPc (s : State) (w : Nat) : List Nat → State × Bool
  | [] => (s, false)
  | t :: ts =>
    let p := s.present w t 5 0 (BitVec.ofNat 64 (s.warp w).pc.toNat) {}
    if p.2.1 = 2 then (p.1.haltThread w t 1 p.2.2 (s.warp w).pc).presentPc w ts
    else if p.2.1 ≥ 3 then
      (p.1.haltFor w p.2.1 p.2.2 t false, true)
    else p.1.presentPc w ts

/-! ### Branch targets -/

/-- Moves the running split whole to a target; a gang member parts when its target differs from the gang's (R38, R120). -/
def State.branchTo (s : State) (w : Nat) (target : Word) : State := (s.modWarp w fun x => x.setPc target).gangBranch w target

/-! ### Retirement and issue -/

/-- The cycles for which a word holds the lane pipe, 0 for one of the uniform unit (R24 to R26). -/
def Form.pipe (f : Form) (x : Warp) : Nat := if f.vector && x.active != 0 && !f.uniform x then (f.cycles x).1 else 0

/-- The vector lane-operations of a word: one for each active thread, one where it executes once, and two of each with an FP64 source
(R25, R448). -/
def Form.laneOps (f : Form) (x : Warp) : Nat :=
  if !f.vector then 0
  else (if f.uniform x then 1 else (threads x.active).length) * if f.src.any fun r => x.tag r == 13 then 2 else 1
/-- The accesses of 32 bytes to the register file: a scalar takes one; a vector register takes 12, its 384 bytes, or one where the word
executes once (R448; log 56). -/
def Form.fileAccesses (f : Form) (x : Warp) : Nat := f.s.length + f.v.length * if f.uniform x then 1 else 12

/-- The issue of a word: its slot, its charge, its spacing, and what the estimator counts of it (R19, R366, R433, R448). -/
def State.issued (s : State) (w : Nat) (f : Form) (x0 : Warp) (skipped : Bool) : State :=
  ((s.modWarp w fun x => { x with readyAt := s.now w + max 1 (f.cycles x0).2 }).countOps w (if skipped then 0 else f.laneOps x0)
      (if skipped then 0 else f.fileAccesses x0)).charge w
    (if skipped then 7 else if f.vector && f.uniform x0 then 4 else f.leaf) (f.cycles x0).1 (f.pipe x0)

/-- What a marked word leaves its warp parked on, while results are outstanding (R92). -/
def Park.marked : Park → Park
  | .none => .marker
  | .quota _ => .quota true
  | .hstep t _ => .hstep t true
  | p => p

/-- Retires a word: RC, its check point, spacing, charge, and the switch marker (R19, R92, R366, R439). -/
def State.retire (s : State) (w : Nat) (f : Form) (x0 : Warp) (skipped : Bool) : State :=
  let s1 := match f.check with
    | some k => if skipped then s else s.checkRecord w k
    | none => s
  (s1.modWarp w fun x => { x with
    rc := x.rc + 1, resumeFrom := if x.resumeFrom = x0.resumeFrom then 0 else x.resumeFrom
    park := if f.m && !x.pending.isEmpty then x.park.marked else x.park }).issued w f x0 skipped

/-- Parks a warp whose next word is not issued; it is tried again from the next cycle on. -/
def State.holdWarp (s : State) (w : Nat) (p : Park) : State :=
  s.modWarp w fun x => { x with park := p, readyAt := s.now w + 1 }

/-- Parks a warp at a word that has been tried, and has presented its PC (R254). -/
def State.parkWarp (s : State) (w : Nat) (p : Park) : State := (s.holdWarp w p).modWarp w fun x => { x with tried := true }

/-- Moves past a word. -/
def State.advance (s : State) (w len : Nat) : State := s.modWarp w fun x => x.setPc (x.pc + BitVec.ofNat 32 len)

/-- A word that retires while the log holds a refused entry raises the deferred trap when it is marked, or when it has left an
access behind that entry (R319). -/
def State.marked (s : State) (w : Nat) (m : Bool) : State :=
  if (m || (s.warp w).behindRefused) && ((s.warp w).refusedEntry).isSome && decide ((s.warp w).run < 8) then s.deferredTrap w else s

/-- PARTIAL of a cause that a resumed word's shared checks or its body give: threads below have performed (R133); POISON of a
word that has no effect beside it has PARTIAL 0 (R142, R194). -/
def Warp.resumedPart (x : Warp) (cause : Nat) : Bool := decide (x.resumeFrom > 0) && cause != 0x11

/-- Ends a word. -/
def State.conclude (s : State) (w : Nat) (f : Form) (x0 : Warp) : Act → State
  | .done t => ((t.advance w f.len).retire w f x0 false).marked w f.m
  | .jump t => (t.retire w f x0 false).marked w f.m
  | .trap c f' a p t => (t.trapAt w c f' a (p || x0.resumedPart c)).issued w f x0 false
  | .halt t => t.issued w f x0 false
  | .defer t => t.modWarp w fun x => { x with readyAt := max x.readyAt (t.now w + 1) }
  | .park p t => t.parkWarp w p

/-- Whether a parked warp's word is tried again in every cycle. -/
def Park.retries : Park → Bool
  | .retry => true
  | .tile => true
  | .waitall => true
  | _ => false

/-- Whether a park waits for the fetch of a word (R312). -/
def Park.fetches : Park → Bool
  | .fetch .. => true
  | _ => false

/-- The warp as a word issues: its cycle and PC are noted. -/
def Warp.noted (x : Warp) (now : Nat) : Warp := { x with park := .none, tried := false, issuedAt := now, issuedPc := x.pc }
def State.noted (s : State) (w : Nat) : State := s.modWarp w fun x => x.noted (s.now w)

/-- A word past its checks: its check point is compared in replay (R440), then its effect comes. -/
def State.runBody (s : State) (w : Nat) (f : Form) (x : Warp) (body : Nat → State → Act) : State :=
  match f.check with
  | some k =>
    let r := s.checkReplay w k
    if r.1 then r.2.conclude w f x (body w r.2) else r.2.conclude w f x (.trap 0x14 x.reportSlot 0 false r.2)
  | none => s.conclude w f x (body w s)

/-- HAZCHK as a warp's word finds it: for 64 cycles after another warp's write, the old or the new value (R52). -/
def State.hazardChecks (s : State) (w : Nat) : Bool :=
  let c := s.ctx (s.ctxOf w)
  if c.hazBy ≠ 0 && c.hazBy != w + 1 && decide ((s.time - c.hazAt) * (s.cluster (clusterOf (coreOf w))).clock < 64000)
      && Config.lag s.serial then c.hazOld
  else c.hazchk

/-- The next instruction boundary of a warp whose store had performed in part: the halts that waited for it are taken (R258,
R262). -/
def State.wordEnds (s : State) (w : Nat) : State :=
  let x := s.warp w
  if !x.rest.isEmpty || x.stops.isEmpty then s
  else x.stops.foldl (fun s p => match p.1 with
    | none => if (s.warp w).whalt then s else s.haltNow w p.2.1 p.2.2 0 false
    | some m => (threads (m &&& ~~~(s.warp w).halted)).foldl (fun s t => s.haltThread w t p.2.1 p.2.2 ((s.warp w).nextPc t)) s)
    (s.modWarp w fun x => { x with stops := [] })

/-- The shared checks of a word in their order, then its skip or its own effect. A store that has performed in part has passed its
checks. -/
def State.checked (s : State) (w : Nat) (f : Form) (body : Nat → State → Act) : State :=
  let x := s.warp w
  if !x.rest.isEmpty then (s.runBody w f x body).wordEnds w
  else match f.fails x (s.levelOf (s.ctxOf w)) (s.hazardChecks w) with
  | some (c, t, a) => s.conclude w f x (.trap c t a false s)
  | none =>
    if f.vector && x.active == 0 then ((s.advance w f.len).retire w f x true).marked w f.m
    else s.runBody w f x body

/-- The threads for which a word presents its PC: each active one, or the lowest of a scalar or uniform word. -/
def Form.shown (f : Form) (x : Warp) : List Nat := if f.vector && !f.uniform x then threads x.active else (threads x.active).take 1

/-- The issue of one word of the warp that `cur` names. -/
def issue (form : Warp → Form) (body : Nat → State → Act) (s : State) : Out :=
  let w := s.cur
  if !(s.warp w).resident || decide ((s.warp w).run ≥ 8) then .fault .noWarp
  else
    let s1 := s.noted w
    let pc := if (s.warp w).tried then (s1, false) else s1.presentPc w ((form (s1.warp w)).shown (s1.warp w))
    .next (if pc.2 then pc.1 else pc.1.checked w (form (pc.1.warp w)) body)

/-! ### Long-latency results (R91, R92) -/

/-- Opens the record of a long-latency result; the threads' data follow. -/
def State.pend (s : State) (w : Nat) (regs : List Nat) (scalar : Bool) (ts : Mask) (tile : Option Nat := none) : Nat × State :=
  let n := s.fresh
  (n.1, n.2.modWarp w fun x => { x with
    pending := x.pending ++ [{ id := n.1, scalar := scalar, regs := regs, threads := ts, tile := tile }] })

/-- Data of threads arrive for a record. -/
def State.deliver (s : State) (w id : Nat) (ts : List Nat) (ws : List Word) : State :=
  let s1 := s.modWarp w fun x => { x with pending := x.pending.map fun q => if q.id = id then q.put ts ws [] else q }
  ts.foldl (fun s t => s.soon (.longLatencyWrite w id t)) s1

/-- Closes a record to the threads below one, when a watch stops the word. -/
def State.cut (s : State) (w id f : Nat) : State :=
  s.modWarp w fun x => { x with pending := (x.pending.map fun q =>
    if q.id = id then { q with threads := q.threads &&& ~~~(fromThread f) } else q).filter fun q => q.threads != 0 }

/-- LONG_LATENCY_WRITE (R92): one thread's data reach their registers. DESIGN CHOICE (log 87): a write to s61 to s63 reaches A of the
split that runs when it lands. -/
def Warp.landed (x : Warp) (id t : Nat) : Warp :=
  match x.pending.find? (fun p => p.id == id) with
  | none => x
  | some p =>
    if !(p.threads.getLsbD t) || p.held.getLsbD t then x
    else
      let x1 := p.regs.foldl (fun x r =>
        let v := Store.get 0 p.data (r * 96 + t)
        let po := Store.get false p.poison (r * 96 + t)
        if p.scalar then
          let y := x.writeS r v
          if po ∧ r ≠ 0 then { y with spoison := y.spoison ||| (1#64 <<< r) } else y
        else
          let y := x.writeV r t v
          if po then (y.markV r t 0).markV r t 1 else y) x
      { x1 with pending := (x1.pending.map fun q =>
          if q.id = id then { q with threads := q.threads &&& ~~~(bit t) } else q).filter fun q => q.threads != 0 }

/-! ### Threads in turn (R20, R258) -/

/-- What one thread's part of a word gives. -/
structure Elem where
  words : List Word
  /-- The flags of R66, of a word that computes flags. -/
  fl : Option FFlags := none
  /-- The generator's new value (R69). -/
  gen : Option Word := none

/-- How a run over threads ends: all performed, or stopped at a thread by a watch. -/
structure Swept where
  s : State
  stop : Option (Nat × Nat × Nat) := none

/-- Performs the threads of a word in increasing index. `put` writes one thread's words. -/
def sweepThreads (w len : Nat) (fn : Warp → Nat → Elem) (put : State → Nat → List Word → State) : List Nat → State → Swept
  | [], s => { s := s }
  | t :: ts, s =>
    let e := fn (s.warp w) t
    let p := match e.fl with
      | some fl => s.present w t 4 0 0 fl
      | none => (s, 0, 0)
    if p.2.1 ≥ 3 then { s := p.1, stop := some (t, p.2.1, p.2.2) }
    else
      let s1 := match e.gen with
        | some g => p.1.modWarp w fun x => x.setGen t g
        | none => p.1
      let s2 := put s1 t e.words
      let s3 := if p.2.1 = 2 then s2.haltThread w t 1 p.2.2 ((s.warp w).pc + BitVec.ofNat 32 len) else s2
      sweepThreads w len fn put ts s3

/-- Stops a warp at a thread (R258). -/
def State.stopAt (s : State) (w : Nat) (x0 : Warp) (q : Nat × Nat × Nat) : State :=
  s.haltFor w q.2.1 q.2.2 q.1 (decide (lowest x0.active < q.1) || decide (x0.resumeFrom > 0))

/-- A vector word that computes its destination registers per thread, or once (R21, R25, R30): `dst` pairs each register with
its tag, and the words of an element go to the registers in order. -/
def vecOp (f : Form) (dst : List (Nat × Nat)) (long : Bool) (fn : Warp → Nat → Elem) (w : Nat) (s : State) : Act :=
  let x0 := s.warp w
  let uni := f.uniform x0
  let act := x0.active
  let src := lowest act
  let e0 := fn x0 src
  let fn' := fun (x : Warp) (t : Nat) => if uni then (if t = src then e0 else { words := e0.words }) else fn x t
  let regs := dst.map Prod.fst
  let mark := fun (s : State) => s.modWarp w fun x =>
    dst.foldl (fun x d => (x.setTag d.1 (BitVec.ofNat 4 d.2)).setU d.1 (uni && act == x.live)) x
  if long then
    let p := (mark s).pend w regs false act f.tile
    let r := sweepThreads w f.len fn' (fun s t ws => s.deliver w p.1 [t] ws) (threads act) p.2
    match r.stop with
    | some q => .halt ((r.s.cut w p.1 q.1).stopAt w x0 q)
    | none => .done r.s
  else
    let put := fun (s : State) (t : Nat) (ws : List Word) => s.modWarp w fun x =>
      (regs.zip ws).foldl (fun x d => x.writeV d.1 t d.2) x
    let r := sweepThreads w f.len fn' put (threads act) s
    match r.stop with
    | some q => .halt (r.s.stopAt w x0 q)
    | none => .done (mark r.s)

/-- A vector word that writes a predicate per thread or a q (R31, R151): `fn` gives the condition and, for a floating compare,
its flags. A uniform word evaluates once. -/
def predOp (f : Form) (q all : Bool) (d rule : Nat) (fn : Warp → Nat → Bool × Option FFlags) (w : Nat) (s : State) : Act :=
  let x0 := s.warp w
  let act := x0.active
  let at' := fun (t : Nat) => fn x0 (if f.uniform x0 then lowest act else t)
  let elem := fun (_ : Warp) (t : Nat) => ({ words := [], fl := if f.uniform x0 && t != lowest act then none else (at' t).2 } : Elem)
  let put := fun (s : State) (t : Nat) (_ : List Word) =>
    if q then s
    else s.modWarp w fun x =>
      let old := x.pred d
      x.setPred d (if combine rule (old.getLsbD t) (at' t).1 then old ||| bit t else old &&& ~~~(bit t))
  let r := sweepThreads w f.len elem put (threads act) s
  match r.stop with
  | some h => .halt (r.s.stopAt w x0 h)
  | none =>
    if q then
      let c := if all then (threads act).all fun t => (at' t).1 else (threads act).any fun t => (at' t).1
      .done (r.s.modWarp w fun x => x.setQ d (combine rule (x0.q.getLsbD d) c))
    else .done r.s

/-- A scalar word that computes its destination registers once (R24). -/
def scalOp (dst : List Nat) (fn : Warp → List Word) (w : Nat) (s : State) : Act :=
  .done (s.modWarp w fun x => (dst.zip (fn x)).foldl (fun y d => y.writeS d.1 d.2) x)

/-! ### Shapes of forms -/

/-- Tags of R77: a 32-bit tag, and the accepted classes of R78. -/
def is32 (t : BitVec 4) : Bool := decide (1 ≤ t.toNat ∧ t.toNat ≤ 12)

/-- A scalar form: registers named, sources in order. -/
def scalForm (m : Bool) (d src : List Nat) : Form :=
  { m := m, s := d ++ src, reads := src.map fun r => { scalar := true, reg := r }, leaf := 4 }

/-- A vector form over 32-bit tags. -/
def vecForm (m : Bool) (d src : List Nat) : Form :=
  { m := m, vector := true, v := d ++ src, src := src, tags := fun x => src.all fun r => is32 (x.tag r)
    reads := src.map fun r => { reg := r }, uni := some src }

end Sys2Proof.Machine
end

