-- ==== Sys2Proof/Machine/Groups.lean ====
section
/-! DEFINITION. Sync groups and barrier phases (R42, R128, R129), the release of REGANG (R126), the entries of a split table
that time out (R122), and the end of a warp (R44, R130, R278, R363). -/

namespace Sys2Proof.Machine

/-! ### Roles and groups (R40, R42) -/

/-- The role of a warp number. -/
def roleOf : List Role → Nat → Nat → Nat
  | [], _, i => i
  | r :: rest, j, i => if j < r.warps then i else roleOf rest (j - r.warps) (i + 1)

/-- The warps of a workgroup of a launch. -/
def Launch.nwarps (l : Launch) : Nat := l.roles.foldl (fun n r => n + r.warps) 0

/-- Whether a warp number is in an entry's ROLES and WARPS. -/
def Launch.selects (l : Launch) (g j : Nat) : Bool :=
  let e := Store.get ({} : Group) l.groups g
  e.valid && e.roles.getLsbD (roleOf l.roles j 0) && e.warps.getLsbD j

/-- The groups a warp number belongs to, ascending. -/
def Launch.groupsOf (l : Launch) (j : Nat) : List Nat := (l.groups.map Prod.fst).filter fun g => l.selects g j

/-- The workgroups a group of one workgroup's member covers (R42). -/
def Launch.domain (l : Launch) (g wgid : Nat) : List Nat :=
  let e := Store.get ({} : Group) l.groups g
  let total := l.gridX * l.gridY * l.gridZ
  match e.wgsel with
  | 0 => [wgid]
  | 1 => List.range total
  | _ => ((List.range (2 ^ e.blocklog)).map fun i => wgid / 2 ^ e.blocklog * 2 ^ e.blocklog + i).filter fun i => decide (i < total)

/-- The key of a group's completed count. -/
def Launch.barKey (l : Launch) (g wgid : Nat) : Nat :=
  let e := Store.get ({} : Group) l.groups g
  g * 2 ^ 32 + (match e.wgsel with
    | 0 => wgid
    | 1 => 0
    | _ => wgid / 2 ^ e.blocklog)

/-- x ≥ y for counts (R128). -/
def countGe (x y : Word) : Bool := decide ((x - y).toNat < 2 ^ 31)

/-- The workgroup of a launch with an id, placed and not retired. -/
def State.wgOf (s : State) (l wgid : Nat) : Option (Nat × Workgroup) :=
  s.wgs.find? fun e => e.2.resident && e.2.launch == l && e.2.wgid == wgid

/-- The warp of a workgroup id and warp number, while it stands on a core. -/
def State.warpOf (s : State) (l wgid j : Nat) : Option Nat :=
  (s.wgOf l wgid).bind fun e => if e.2.out then none else e.2.warps[j]?

/-- The state of that warp, on a core or in its context's save (R369, R371). -/
def State.memberWarp (s : State) (l wgid j : Nat) : Option Warp :=
  (s.wgOf l wgid).bind fun e =>
    if e.2.out then some (Store.get {} (Store.get ({} : Saved) s.saves (s.launch l).ctx).warps (e.1 * 32 + j))
    else (e.2.warps[j]?).map s.warp

/-- The counts a of the members that have not exited (R44). -/
def State.memberCounts (s : State) (l g wgid : Nat) : List Word :=
  let k := s.launch l
  (k.domain g wgid).flatMap fun i => (List.range k.nwarps).filterMap fun j =>
    if k.selects g j && !Store.get false k.ended (i * 32 + j) then
      some (match s.memberWarp l i j with
        | some x => Store.get 0 x.barA g
        | none => 0)
    else none

/-- The wait of a warp on a group ends: seen, and the acquire (R287, R300). -/
def State.waitEnds (s : State) (w g : Nat) : State :=
  let e := Store.get ({} : Group) (s.launchOf w).groups g
  let s1 := s.modWarp w fun x => { x with seen := Store.set 0 x.seen g (Store.get 0 x.barA g) }
  if e.wgsel = 0 then s1 else s1.l1Acquire (coreOf w)

/-- Whether a split is parked on a phase that a count has reached. -/
def Split.reached (p : Split) (g : Nat) (c : Word) : Bool := p.state == .parked && p.parkGroup == g && countGe c p.parkPhase

/-- A split becomes READY (R123). -/
def Split.wake (p : Split) (now : Nat) : Split := { p with state := .ready, joinid := 0xFFF, timeout := 0, due := false, since := now }

/-- The warp runs its next READY split, and one that waited for it is ready from the next cycle on (R117, R368). -/
def Warp.resume (x : Warp) (now : Nat) : Warp :=
  let y := x.nextSplit
  if x.run ≥ 8 ∧ y.run < 8 then { y with readyAt := max y.readyAt (now + 1) } else y

/-- Splits of a warp that wait on a phase at or below `c` become READY with PC + 1 (R129). -/
def State.wakeBarrier (s : State) (g : Nat) (c : Word) (w : Nat) : State :=
  let x := s.warp w
  if x.valid.any fun e => (x.split e).reached g c then
    (s.modWarp w fun x => (x.valid.foldl (fun y e =>
      let p := y.split e
      if p.reached g c then y.setSplit e { p.wake s.serial with pc := p.pc + 1 } else y) x).resume (s.now w)).waitEnds w g
  else s

/-- Takes a group's completed count up to the least count of its members (R129). -/
def State.recount (s : State) (l g wgid : Nat) : State :=
  match s.memberCounts l g wgid with
  | [] => s
  | a :: as =>
    let c := as.foldl (fun m x => if countGe x m then m else x) a
    let k := s.launch l
    let key := k.barKey g wgid
    if Store.get 0 k.barC key = c then s
    else
      let s1 := s.modLaunch l fun k => { k with barC := Store.set 0 k.barC key c }
      (k.domain g wgid).foldl (fun s i => (List.range k.nwarps).foldl (fun s j =>
        match s.warpOf l i j with
        | some w => if k.selects g j then s.wakeBarrier g c w else s
        | none => s) s) s1

/-- The splits of a warp put back on a core whose phase has completed become READY (R123, R129). -/
def State.wakeRestored (s : State) (w : Nat) : State :=
  let gs := ((s.warp w).valid.filterMap fun e =>
    if ((s.warp w).split e).state = .parked then some ((s.warp w).split e).parkGroup else none).eraseDups
  gs.foldl (fun s g =>
    s.wakeBarrier g (Store.get 0 (s.launchOf w).barC ((s.launchOf w).barKey g (s.wg (s.warp w).wg).wgid)) w) s

/-- Whether X covers every live thread. -/
def Warp.covers (x : Warp) (g : Nat) : Bool := Store.get 0 x.barX g &&& x.live == x.live

/-- The count rises when X covers the live threads (R129). -/
def State.riseIfFull (s : State) (w g : Nat) : State :=
  let x := s.warp w
  if x.covers g then
    (s.modWarp w fun x => { x with barA := Store.set 0 x.barA g (Store.get 0 x.barA g + 1), barX := Store.set 0 x.barX g 0 }).recount
      (s.wg x.wg).launch g (s.wg x.wg).wgid
  else s

/-- arrive of R129: each member's arrival is a release (R287). -/
def State.arriveAt (s : State) (w g : Nat) : State :=
  (s.modWarp w fun x => { x with barX := Store.set 0 x.barX g (Store.get 0 x.barX g ||| x.cur.m) }).riseIfFull w g

/-- The completed count a warp sees. -/
def State.completed (s : State) (w g : Nat) : Word :=
  Store.get 0 (s.launchOf w).barC ((s.launchOf w).barKey g (s.wg (s.warp w).wg).wgid)

/-- wait of R129 by the running split; true when it continues. -/
def State.waitOn (s : State) (w g : Nat) : Bool × State :=
  let a := Store.get 0 (s.warp w).barA g
  if a = 0 ∨ countGe (s.completed w g) a then (true, s.waitEnds w g)
  else (false, s.modWarp w fun x => x.stopRunning fun p => { p with state := .parked, parkGroup := g, parkPhase := a })

/-! ### REGANG (R125 to R127) -/

/-- The entry of a warp that waits in GANGWAIT with an id and a set, if any; none for the set takes every set. -/
def Warp.gangWaiter (x : Warp) (id : BitVec 12) (n : Option Word) : Option Nat :=
  x.valid.find? fun e =>
    let p := x.split e
    p.joinid == id && (n.isNone || n == some p.gangSet) && !p.released && x.codeOf e == 5

/-- Releases one waiting entry (R126): READY, or marked for ERET while its warp is in a handler. -/
def State.freeGangWait (s : State) (w e : Nat) : State :=
  (s.modWarp w fun x =>
    let p := x.split e
    if p.state = .suspended then x.setSplit e { p with released := true, due := false }
    else (x.setSplit e (p.wake s.serial)).resume (s.now w)).partGang w

/-- The warps of a set that wait with an id, in a workgroup: with that set, or with any. -/
def State.gangWaiters (s : State) (g : Nat) (id : BitVec 12) (n : Word) (same : Bool) : List (Nat × Nat) :=
  (s.wg g).warps.filterMap fun w =>
    let x := s.warp w
    if x.resident && n.getLsbD x.num then (x.gangWaiter id (if same then some n else none)).map fun e => (w, e) else none

/-- Forms a gang of warps that meet R37. -/
def State.formGang (s : State) (ws : List Nat) : State :=
  let ok := decide (2 ≤ ws.length ∧ ws.length ≤ 8) && decide ((ws.map fun w => sliceOf w).Nodup)
    && (ws.map fun w => sliceOf w / 8).eraseDups.length == 1 && (ws.map fun w => (s.warp w).role).eraseDups.length == 1
  if ok then
    let n := s.fresh
    ws.foldl (fun s w => s.modWarp w fun x => { x with gang := n.1 + 1, gangPath := [] }) n.2
  else s

/-- Releases a REGANG whose every warp has exited or waits (R126): the released warps are grouped by next PC. -/
def State.checkRegang (s : State) (g : Nat) (id : BitVec 12) (n : Word) : State :=
  let waiting := s.gangWaiters g id n true
  let all := (s.wg g).warps.all fun w =>
    let x := s.warp w
    !n.getLsbD x.num || x.live == 0 || (x.gangWaiter id (some n)).isSome
  if all && !waiting.isEmpty then
    let free := (waiting.filter fun p => !(s.warp p.1).inTrap).map Prod.fst
    let s1 := waiting.foldl (fun s p => s.freeGangWait p.1 p.2) s
    let pcs := (free.map fun w => (s1.warp w).pc).eraseDups
    pcs.foldl (fun s pc => s.formGang (free.filter fun w => (s.warp w).pc == pc)) s1
  else s

/-- Tries every REGANG wait of a workgroup, after an exit. -/
def State.checkRegangs (s : State) (g : Nat) : State :=
  let keys := ((s.wg g).warps.flatMap fun w =>
    let x := s.warp w
    x.valid.filterMap fun e => if (x.gangWaiter (x.split e).joinid (some (x.split e).gangSet)) == some e then
      some ((x.split e).joinid, (x.split e).gangSet) else none).eraseDups
  keys.foldl (fun s k => s.checkRegang g k.1 k.2) s

/-! ### The end of threads and warps -/

/-- Drops the private bytes a warp left in its core's L1 (R278). -/
def State.dropPrivate (s : State) (w : Nat) : State :=
  let x := s.warp w
  let c := coreOf w
  let mine := s.l1.any fun e => match e.2 with
    | some b => e.1 / 2 ^ 40 == c && b.priv
    | none => false
  if mine then
    let pages := (List.range ((x.privSize * 384 + 8191) / 8192)).filterMap fun i =>
      (s.plainWalk (s.ctxOf w) (x.privBase.toNat + i * 8192) .read).map (· / 8192)
    s.l1DropPriv c fun pa => pages.contains (pa / 8192)
  else s

/-- Whether a workgroup may retire (R363): its warps have ended, and its engine queues, MMAs and collectives are done. -/
def State.mayRetire (s : State) (g : Nat) : Bool :=
  let k := s.wg g
  k.resident && k.warps.all (fun w => (s.warp w).live == 0) && k.queues.all (fun q => q.2.isEmpty)
    && (s.core k.core).mmas.all fun m => m.wg != g

/-- Puts a retirement on the calendar once it may happen. -/
def State.checkRetire (s : State) (g : Nat) : State :=
  if s.mayRetire g && !s.calendar.any (fun e => e.2 == .workgroupRetire g) then s.soon (.workgroupRetire g) else s

/-- A warp with no live thread has ended (R44, R130). -/
def State.endWarp (s : State) (w : Nat) : State :=
  let x := s.warp w
  let g := x.wg
  let l := (s.wg g).launch
  let wgid := (s.wg g).wgid
  let s1 := (s.partGang w).dropPrivate w
  let s2 := s1.modLaunch l fun k => { k with ended := Store.set false k.ended (wgid * 32 + x.num) true }
  let s3 := ((s2.launch l).groupsOf x.num).foldl (fun s n => s.recount l n wgid) s2
  (s3.checkRegangs g).checkRetire g

/-- Threads leave a warp (R130): they leave every mask, and what their leaving completes takes place. -/
def State.leave (s : State) (w : Nat) (m : Mask) : State :=
  let x := s.warp w
  let s1 := s.modWarp w fun x =>
    x.valid.foldl (fun y e => y.setSplit e { y.split e with m := (y.split e).m &&& ~~~m, a := (y.split e).a &&& ~~~m })
      { x with live := x.live &&& ~~~m, thalt := x.thalt &&& ~~~m }
  if (s1.warp w).live = 0 then s1.endWarp w
  else ((s1.launchOf w).groupsOf x.num).foldl (fun s g =>
    if Store.get 0 (s.warp w).barX g != 0 then s.riseIfFull w g else s) s1

/-- The end of trap mode when the last TRAPM split has emptied (R134): as ERET, but no split resumes at TRAPPC. -/
def Warp.endTrapMode (x : Warp) (done : Split → Bool) : Warp :=
  if x.valid.any (fun e => (x.split e).trapm) then x
  else
    let y := x.unsuspend done
    { y.reorder y.byOrder with mode := x.trap.mode }.nextSplit

/-- Whether a parked split's phase has completed, as a warp sees it (R135). -/
def State.phaseDone (s : State) (w : Nat) (p : Split) : Bool := countGe (s.completed w p.parkGroup) p.parkPhase

/-- The barrier waits that ended while their splits were SUSPENDED end for the warp too: seen, and the acquire (R135, R287,
R300). `x` is the warp before trap mode ended. -/
def State.endWaits (s : State) (w : Nat) (x : Warp) : State :=
  (x.overWaits (s.phaseDone w)).foldl (fun s e => s.waitEnds w (x.split e).parkGroup) s

/-- A warp whose last split in trap mode has emptied leaves it (R134); `x` has that split removed. -/
def State.leaveEmptied (s : State) (w : Nat) (x : Warp) : State :=
  let done := s.phaseDone w
  let s1 := s.setWarp w (x.endTrapMode done)
  if x.valid.any fun e => (x.split e).trapm then s1 else s1.endWaits w x

/-! ### Expiries (R122, R126) -/

/-- JOIN expiry: the entry is READY, alone. -/
def State.expireJoin (s : State) (w e : Nat) : State :=
  let p := (s.warp w).split e
  if p.state = .joinWait then s.modWarp w fun x => (x.setSplit e (p.wake s.serial)).resume (s.now w) else s

/-- REGANG expiry: every warp of the set that waits with the id is released alone, whatever its own set (R126). -/
def State.expireRegang (s : State) (w e : Nat) : State :=
  let x := s.warp w
  let p := x.split e
  if x.codeOf e = 5 then
    (s.gangWaiters x.wg p.joinid p.gangSet false).foldl (fun s q => s.freeGangWait q.1 q.2) s
  else s

end Sys2Proof.Machine
end

