-- ==== Sys2Proof/Machine/Control.lean ====
section
/-! DEFINITION. Control flow, divergence, gangs and traps (chapter 4, R114 to R138). RDC and WRC stand with the control
registers. -/

namespace Sys2Proof.Machine

/-- A control word: scalar sources in order, scalar destinations, the CONTROL leaf. -/
def ctlForm (m : Bool) (d src : List Nat) : Form :=
  { m := m, s := d ++ src, reads := src.map fun r => { scalar := true, reg := r }, leaf := 6 }

/-- A control word that only changes the state and goes on. -/
def ctlOp (m : Bool) (d src : List Nat) (f : Nat → State → State) : State → Out :=
  issue (fun _ => ctlForm m d src) (fun w s => .done (f w s))

/-! ### CTL and MODE (R130) -/

/-- NOP. -/
def execNop (m : Bool) (s : State) : Out := ctlOp m [] [] (fun _ s => s) s

/-- YIELD (R123, R130): to the end of the order, and not chosen in the next cycle. -/
def execYield (m : Bool) (s : State) : Out :=
  issue (fun _ => ctlForm m [] []) (fun w s =>
    .jump (s.modWarp w fun x =>
      { (x.setPc (x.pc + 1)).stopRunning fun p => { p with state := .ready, since := s.serial } with yieldAt := s.now w + 1 })) s

/-- WAITALL (R130). -/
def execWaitall (m : Bool) (s : State) : Out :=
  issue (fun _ => ctlForm m [] []) (fun w s =>
    let x := s.warp w
    if x.pending.isEmpty && x.log.isEmpty then .done s
    else if x.refusedEntry.isSome then .defer (s.deferredTrap w)
    else .park .waitall s) s

/-- EXIT (R130, R134); one that would end the warp waits for its operand log (R319). -/
def execExit (m : Bool) (s : State) : Out :=
  issue (fun _ => ctlForm m [] []) (fun w s =>
    let x := s.warp w
    let left := x.cur.m &&& ~~~x.active
    let ends := x.live &&& ~~~x.active == 0
    let s1 := s.leave w x.active
    if ends && x.refusedEntry.isSome then .defer (s.deferredTrap w)
    else if ends && !x.log.isEmpty then .park .waitall s
    else if left != 0 then .jump (s1.modWarp w fun y => y.setPc (x.pc + 1))
    else
      let y := (s1.warp w).setSplit x.run {}
      let z := y.reorder y.byOrder
      .jump ((if x.cur.trapm then s1.leaveEmptied w z else s1.setWarp w z).modWarp w Warp.nextSplit)) s

/-- What ERET does after a deferred trap (R320): the refused entry is discarded under DROP or replayed with every entry whose
wait has ended; one that is refused again traps again at once. -/
def State.afterTrap (s : State) (w : Nat) : State :=
  let x := s.warp w
  if !x.logDefer then s
  else
    let s1 := s.modWarp w fun x => { x with logDefer := false, logDrop := false }
    let s2 := match x.raisedEntry with
      | none => s1
      | some e =>
        if x.logDrop then s1.modWarp w fun x =>
          let y := x.logDrop' e.id
          { y with pending := (y.pending.map fun (p : Pending) =>
              if e.op.pend = some p.id then { p with threads := p.threads &&& ~~~p.held, held := 0 } else p).filter fun p => p.threads != 0 }
        else s1.modWarp w fun x => { x with log := x.log.map fun (l : LogEntry) => if l.id = e.id then { l with wait := .ready, raised := false } else l }
    let s3 := s2.replayWarp w
    if (s3.warp w).refusedEntry.isSome then s3.deferredTrap w else s3

/-- ERET (R135): ILLEGAL outside trap mode, before every other check (R102, R103). -/
def execEret (m : Bool) (s : State) : Out :=
  issue (fun x => { ctlForm m [] [] with illegal := !x.cur.trapm }) (fun w s =>
      let x := s.warp w
      .jump (((s.modWarp w fun x => x.leaveTrap (s.phaseDone w)).endWaits w x).afterTrap w)) s

/-- Adds beats to a context's counter, which saturates (R383). -/
def State.addBeats (s : State) (w n : Nat) : State :=
  let ctx := s.ctxOf w
  (s.modCtx ctx fun c => { c with loop := { c.loop with
    count := BitVec.ofNat 32 (min (c.loop.count.toNat + n) 0xFFFFFFFF), beatsSec := c.loop.beatsSec + n } }).count
    ctx (coreOf w) (sliceOf w) 0x108 n

/-- BEAT (R130, R383). -/
def execBeat (m : Bool) (s : State) : Out := ctlOp m [] [] (fun w s => s.addBeats w 1) s
/-- BEATN (R130, R383). -/
def execBeatn (m : Bool) (a : BitVec 6) (s : State) : Out :=
  ctlOp m [] [a.toNat] (fun w s => s.addBeats w ((s.warp w).readS a.toNat).toNat) s
/-- UNGANG (R124). -/
def execUngang (m : Bool) (s : State) : Out := ctlOp m [] [] (fun w s => s.partGang w) s
/-- GETMODE (R98). -/
def execGetmode (m : Bool) (d : BitVec 6) (s : State) : Out :=
  issue (fun _ => ctlForm m [d.toNat] []) (scalOp [d.toNat] fun x => [x.mode.setWidth 32]) s
/-- The bits of the mode value that a select mask of MODE names (R99). -/
def modeMask (d : BitVec 5) : BitVec 11 :=
  (if d.getLsbD 0 then 0x01F#11 else 0) ||| (if d.getLsbD 1 then 0x0E0#11 else 0) ||| (if d.getLsbD 2 then 0x100#11 else 0)
    ||| (if d.getLsbD 3 then 0x200#11 else 0) ||| (if d.getLsbD 4 then 0x400#11 else 0)
/-- MODE (R99). -/
def execMode (m : Bool) (d : BitVec 5) (i : BitVec 11) (s : State) : Out :=
  ctlOp m [] [] (fun w s => s.modWarp w fun x => { x with mode := (x.mode &&& ~~~modeMask d) ||| (i &&& modeMask d) }) s

/-! ### Branches (R118 to R120) -/

/-- A word that moves the running split to one target (R118). -/
def goTo (m : Bool) (d src : List Nat) (link : Warp → Warp) (target : Warp → Word) : State → Out :=
  issue (fun _ => ctlForm m d src) (fun w s =>
    let t := target (s.warp w)
    .jump ((s.modWarp w link).branchTo w t))

/-- BRA (R118). -/
def execBra (m : Bool) (i : BitVec 24) (s : State) : Out := goTo m [] [] (fun x => x) (fun x => x.pc + i.signExtend 32) s
/-- CALL (R118): the link goes to s1. -/
def execCall (m : Bool) (i : BitVec 24) (s : State) : Out :=
  goTo m [1] [] (fun x => x.writeS 1 (x.pc + 1)) (fun x => x.pc + i.signExtend 32) s
/-- BRQ (R118). -/
def execBrq (m : Bool) (n : BitVec 1) (q : BitVec 3) (i : BitVec 18) (s : State) : Out :=
  goTo m [] [] (fun x => x) (fun x => if xor (x.q.getLsbD q.toNat) (n == 1#1) then x.pc + i.signExtend 32 else x.pc + 1) s
/-- BRX (R118). -/
def execBrx (m : Bool) (a : BitVec 6) (s : State) : Out := goTo m [] [a.toNat] (fun x => x) (fun x => x.readS a.toNat) s
/-- CALLX (R118): the link is written after A is read. -/
def execCallx (m : Bool) (d a : BitVec 6) (s : State) : Out :=
  goTo m [d.toNat] [a.toNat] (fun x => x.writeS d.toNat (x.pc + 1)) (fun x => x.readS a.toNat) s
/-- RET (R118). -/
def execRet (m : Bool) (a : BitVec 6) (s : State) : Out := goTo m [] [a.toNat] (fun x => x) (fun x => x.readS a.toNat) s

/-- The run order of destinations (R119): those in the branch word's block of 64 words first, in the order given. -/
def runOrder (pc : Word) (ts : List Word) : List Word :=
  (ts.filter fun t => t.toNat / 64 == pc.toNat / 64) ++ ts.filter fun t => t.toNat / 64 != pc.toNat / 64

/-- Divides the running split over its destinations in run order (R119): `goes t` is thread t's destination. -/
def Warp.divide (x : Warp) (dests : List Word) (goes : Nat → Word) (now : Nat) : Warp :=
  let s0 := x.cur
  let e0 := x.run
  let setOf := fun (d : Word) => maskOf fun t => goes t == d
  let free := (List.range 8).filter fun e => (x.split e).state == .invalid
  match dests with
  | [] => x
  | d0 :: rest =>
    let first : Split := { s0 with
      pc := d0, m := (s0.m &&& ~~~s0.a) ||| (s0.a &&& setOf d0), a := s0.a &&& setOf d0, joinid := 0xFFF, timeout := 0 }
    let news := rest.zip free
    let old := x.byOrder.filter fun e => e != e0
    let x1 := news.foldl (fun y p => y.setSplit p.2
      { state := .ready, pc := p.1, m := s0.a &&& setOf p.1, a := s0.a &&& setOf p.1, trapm := s0.trapm, since := now }) (x.setSplit e0 first)
    x1.reorder (e0 :: news.map Prod.snd ++ old)

/-- The body of a branch that may divide: `cands` are the destinations in order within a block group. -/
def branchAct (cands : List Word) (goes : Nat → Word) (w : Nat) (s : State) : Act :=
  let x := s.warp w
  let a := x.cur.a
  let dests := runOrder x.pc (cands.filter fun d => (threads a).any fun t => goes t == d)
  match dests with
  | [] => .jump (s.branchTo w (x.pc + 1))
  | [d] => .jump (s.branchTo w d)
  | _ =>
    if x.valid.length + dests.length - 1 > 8 then .trap 0x07 (lowest a) 0 false s
    else .jump ((s.modWarp w fun x => x.divide dests goes s.serial).partGang w)

/-- BRP (R119). -/
def execBrp (m : Bool) (n : BitVec 1) (p : BitVec 3) (i : BitVec 18) (s : State) : Out :=
  issue (fun _ => ctlForm m [] []) (fun w s =>
    let x := s.warp w
    let taken := x.pc + i.signExtend 32
    branchAct ([x.pc + 1, taken].eraseDups)
      (fun t => if xor ((x.pred p.toNat).getLsbD t) (n == 1#1) then taken else x.pc + 1) w s) s

/-- Inserts a target in increasing order. -/
def insertPc (d : Word) : List Word → List Word
  | [] => [d]
  | x :: rest => if d = x then x :: rest else if d.ult x then d :: x :: rest else x :: insertPc d rest

/-- The tags BRV accepts (R119): an integer tag or RAW32. -/
def branchTag (t : BitVec 4) : Bool := t == 1 || t == 2 || t == 3

/-- BRV (R119): decided by the threads of A, halted or not; the guard is ignored. -/
def execBrv (m : Bool) (a : BitVec 6) (s : State) : Out :=
  issue (fun x =>
    { m := m, v := [a.toNat], src := [a.toNat], idle := x.cur.a == 0
      tags := fun x => branchTag (x.tag a.toNat), leaf := 6 }) (fun w s =>
    let x := s.warp w
    let r := a.toNat
    let one := x.uBit r
    let ts := if one then [lowest x.cur.a] else threads x.cur.a
    match (if x.cur.a = 0 then none else ts.find? fun t => ({ reg := r } : Src).bad x t) with
    | some t => .trap 0x11 t (BitVec.ofNat 64 r) false s
    | none =>
      let goes := fun (t : Nat) => x.readV r (if one then lowest x.cur.a else t)
      branchAct ((threads x.cur.a).foldl (fun l t => insertPc (goes t) l) []) goes w s) s

/-! ### JOIN, REGANG and barriers (R121 to R129) -/

/-- JOIN (R121). -/
def execJoin (m : Bool) (d : BitVec 6) (i : BitVec 12) (s : State) : Out :=
  issue (fun _ => ctlForm m [] [d.toNat]) (fun w s =>
    .jump (s.modWarp w fun x =>
      let lim := x.readS d.toNat
      (x.setPc (x.pc + 1)).stopRunning fun p =>
        { p with state := .joinWait, joinid := i, timeout := lim, due := false, since := s.serial })) s

/-- REGANG (R125): D names the set, A the timeout. A warp that it releases at once leaves GANGWAIT in the same cycle: its split is
READY at the end of the order, and R117 chooses. -/
def execRegang (m : Bool) (d a : BitVec 6) (i : BitVec 12) (s : State) : Out :=
  issue (fun _ => { ctlForm m [] [d.toNat, a.toNat] with reads :=
      [{ scalar := true, reg := a.toNat }, { scalar := true, reg := d.toNat }] }) (fun w s =>
    let x := s.warp w
    let n := x.readS d.toNat
    if !n.getLsbD x.num || decide (x.valid.length > 1) || x.inTrap then
      .jump ((s.modWarp w fun x => (x.setPc (x.pc + 1)).stopRunning fun p => p.wake s.serial).partGang w)
    else
      let s1 := s.modWarp w fun x => (x.setPc (x.pc + 1)).stopRunning fun p =>
        { p with state := .gangWait, joinid := i, timeout := x.readS a.toNat, due := false, gangSet := n, released := false
                 since := s.serial }
      .jump (s1.checkRegang x.wg i n)) s

/-- The scope of a group's arrival (R287). -/
def State.groupScope (s : State) (w g : Nat) : Nat := if (Store.get ({} : Group) (s.launchOf w).groups g).wgsel = 0 then 1 else 2

/-- A barrier word: membership, the arrival's release, the arrival, the wait (R44, R129). -/
def barrier (m : Bool) (g : BitVec 8) (arrives waits : Bool) : State → Out :=
  issue (fun _ => { ctlForm m [] [] with check := some (0x09, 0) }) (fun w s =>
    let x := s.warp w
    let n := g.toNat
    if !(s.launchOf w).selects n x.num then .trap 0x08 x.reportSlot (BitVec.ofNat 64 n) false s
    else
      let sc := s.groupScope w n
      let s1 := if arrives then s.startRelease w sc else s
      let a := Store.get 0 x.barA n
      if arrives && !s1.released w sc then s1.logWaits w fun _ => true
      else if arrives && !waits && decide ((a - s.completed w n).toNat ≥ 2 ^ 30) && countGe a (s.completed w n) then .park .retry s1
      else
        let r := if arrives then s1.releaseFault w sc else (none, s1)
        match r.1 with
        | some f => .trap f.1 x.reportSlot f.2 false r.2
        | none =>
          let s2 := if arrives then r.2.arriveAt w n else r.2
          if waits then
            let q := s2.waitOn w n
            if q.1 then .done q.2 else .jump q.2
          else .done s2)

/-- BAR (R129). -/
def execBar (m : Bool) (g : BitVec 8) (s : State) : Out := barrier m g true true s
/-- BARA (R129). -/
def execBara (m : Bool) (g : BitVec 8) (s : State) : Out := barrier m g true false s
/-- BARW (R129). -/
def execBarw (m : Bool) (g : BitVec 8) (s : State) : Out := barrier m g false true s

/-- TRAP (R136): USER, with TRAPPC the next word. -/
def execTrap (m : Bool) (i : BitVec 18) (s : State) : Out :=
  issue (fun _ => ctlForm m [] []) (fun w s => .trap 0x0B (s.warp w).reportSlot (i.setWidth 64) false s) s

/-! ### SETQUOTA (R131) -/

/-- The warp whose window lies directly above on the same slice, in the same workgroup (R40). -/
def State.windowAbove (s : State) (w : Nat) : Option Nat :=
  let x := s.warp w
  ((s.wg x.wg).warps.filter fun v => v / 8 == w / 8 && decide ((s.warp v).num > x.num)).head?

/-- The transfer of a gift goes on the calendar, at most 64 cycles away. -/
def State.scheduleGift (s : State) (w : Nat) : State :=
  { s.after (1 + Config.delay s.free % (s.cycles (coreOf w) 64)) (.quotaTransferComplete w) with free := s.free + 1 }

/-- Whether long-latency writes to given-up registers are pending. -/
def Warp.giftHeld (x : Warp) : Bool := x.pending.any fun p => !p.scalar && p.regs.any fun r => decide (r ≥ x.allot)

/-- SETQUOTA.GIVE (R131). -/
def execSetquotaGive (m : Bool) (b : BitVec 6) (s : State) : Out :=
  issue (fun _ => ctlForm m [] [b.toNat]) (fun w s =>
    let x := s.warp w
    let k := (x.readS b.toNat).toNat
    if k = 0 then .done s
    else
      let bad := Act.trap 0x0A x.reportSlot (BitVec.ofNat 64 k) false s
      match s.windowAbove w with
      | none => bad
      | some v =>
        if k % 8 ≠ 0 ∨ x.allot < k + 8 ∨ (s.warp v).allot + k > 64 then bad
        else if x.giveK ≠ 0 then .park .retry s
        else
          let s1 := s.modWarp w fun x => { x with allot := x.allot - k, giveTo := v, giveK := k }
          if (s1.warp w).giftHeld then .done (s1.modWarp w fun x => { x with park := .quota false })
          else .done (s1.scheduleGift w)) s

/-- Clears registers of a window: bits, tags, U and marks (R41, R53). -/
def Warp.clearRegs (x : Warp) (r k : Nat) : Warp :=
  { x with vregs := x.vregs.filter fun e => !(decide (r * 96 ≤ e.1 ∧ e.1 < (r + k) * 96))
           vpoison := x.vpoison.filter fun e => !(decide (r * 192 ≤ e.1 ∧ e.1 < (r + k) * 192))
           tags := x.tags.filter fun e => !(decide (r ≤ e.1 ∧ e.1 < r + k))
           u := (List.range k).foldl (fun u i => u &&& ~~~(1#64 <<< (r + i))) x.u }

/-- A gift arrives: the registers are zeroed and the recipient's allotment rises (R131). -/
def State.transferGift (s : State) (wid : Nat) : State :=
  let x := s.warp wid
  let k := x.giveK
  if k = 0 then s
  else
    let s1 := s.modWarp wid fun x => { x.clearRegs x.allot k with giveK := 0, giveTo := 0 }
    s1.modWarp x.giveTo fun y => { y.clearRegs y.allot k with allot := y.allot + k }

/-- QUOTA_TRANSFER_COMPLETE (R131). -/
def execQuotaTransferComplete (wid : Nat) (s : State) : Out := .next (s.transferGift wid)

/-- SETQUOTA.QUERY (R131). -/
def execSetquotaQuery (m : Bool) (d : BitVec 6) (s : State) : Out :=
  issue (fun _ => ctlForm m [d.toNat] []) (scalOp [d.toNat] fun x => [BitVec.ofNat 32 x.allot]) s

/-! ### System values (R132) -/

/-- A vector form of SYSV: per thread, never uniform. -/
def sysVec (m : Bool) (d : Reg) (f : Nat → Nat) : State → Out :=
  let fm : Form := { m := m, vector := true, v := [d.toNat], leaf := 6 }
  issue (fun _ => fm) (vecOp fm [(d.toNat, 3)] false fun _ t => { words := [BitVec.ofNat 32 (f t)] })
/-- A scalar form of SYSV. -/
def sysScal (m : Bool) (d : Reg) (f : State → Nat → Nat) : State → Out :=
  issue (fun _ => ctlForm m [d.toNat] []) (fun w s => .done (s.modWarp w fun x => x.writeS d.toNat (BitVec.ofNat 32 (f s w))))

/-- TID. -/
def execSysvTid (m : Bool) (d : BitVec 6) (s : State) : Out := sysVec m d (fun t => t) s
/-- LANE (R17). -/
def execSysvLane (m : Bool) (d : BitVec 6) (s : State) : Out := sysVec m d (fun t => t % 4) s
/-- RANK (R17). -/
def execSysvRank (m : Bool) (d : BitVec 6) (s : State) : Out := sysVec m d (fun t => t / 4) s
/-- WID. -/
def execSysvWid (m : Bool) (d : BitVec 6) (s : State) : Out := sysScal m d (fun s w => (s.warp w).num) s
/-- The linear workgroup id of a warp. -/
def State.wgidOf (s : State) (w : Nat) : Nat := (s.wg (s.warp w).wg).wgid
/-- WGID. -/
def execSysvWgid (m : Bool) (d : BitVec 6) (s : State) : Out := sysScal m d (fun s w => s.wgidOf w) s
/-- WGX (R359). -/
def execSysvWgx (m : Bool) (d : BitVec 6) (s : State) : Out := sysScal m d (fun s w => s.wgidOf w % (s.launchOf w).gridX) s
/-- WGY (R359). -/
def execSysvWgy (m : Bool) (d : BitVec 6) (s : State) : Out :=
  sysScal m d (fun s w => s.wgidOf w / (s.launchOf w).gridX % (s.launchOf w).gridY) s
/-- WGZ (R359). -/
def execSysvWgz (m : Bool) (d : BitVec 6) (s : State) : Out :=
  sysScal m d (fun s w => s.wgidOf w / ((s.launchOf w).gridX * (s.launchOf w).gridY)) s
/-- ROLE. -/
def execSysvRole (m : Bool) (d : BitVec 6) (s : State) : Out := sysScal m d (fun s w => (s.warp w).role) s
/-- CORE. -/
def execSysvCore (m : Bool) (d : BitVec 6) (s : State) : Out := sysScal m d (fun _ w => coreOf w) s
/-- SLICE. -/
def execSysvSlice (m : Bool) (d : BitVec 6) (s : State) : Out := sysScal m d (fun _ w => sliceOf w) s
/-- LAUNCH. -/
def execSysvLaunch (m : Bool) (d : BitVec 6) (s : State) : Out := sysScal m d (fun s w => (s.launchOf w).id.toNat) s
/-- TICK: long-latency, an even pair (R91, R132). -/
def execSysvTick (m : Bool) (d : BitVec 6) (s : State) : Out :=
  issue (fun _ => { ctlForm m [d.toNat, d.toNat + 1] [] with even := [d.toNat] }) (fun w s =>
    let p := s.pend w [d.toNat, d.toNat + 1] true (bit 0)
    .done (p.2.deliver w p.1 [0] [s.tick.lo, s.tick.hi])) s
/-- GROUPS: the group numbers, one per byte ascending, and their count. -/
def execSysvGroups (m : Bool) (d : BitVec 6) (s : State) : Out :=
  issue (fun _ => { ctlForm m [d.toNat, d.toNat + 1] [] with even := [d.toNat] }) (fun w s =>
    let gs := (s.launchOf w).groupsOf (s.warp w).num
    .done (s.modWarp w fun x => (x.writeS d.toNat (BitVec.ofNat 32 (leNat (gs.map (BitVec.ofNat 8))))).writeS (d.toNat + 1)
      (BitVec.ofNat 32 gs.length))) s
/-- PART: the partition, or 16 at levels H and F. -/
def execSysvPart (m : Bool) (d : BitVec 6) (s : State) : Out := sysScal m d (fun s w => s.partNum (s.ctxOf w)) s

/-! ### Events -/

/-- Whether what a warp is parked on has come (R92, R94, R131, R264). -/
def State.waitOver (s : State) (w : Nat) : Bool :=
  let x := s.warp w
  match x.park with
  | .marker => x.pending.isEmpty
  | .trapEntry .. => !x.awaits
  | .quota _ => !x.giftHeld
  | .hstep k m => (s.warp k).step.isNone && (!m || x.pending.isEmpty)
  | _ => false

/-- The warp goes on: it is ready from the next cycle (R92). -/
def State.goOn (s : State) (w : Nat) : State :=
  s.modWarp w fun x => { x with park := .none, readyAt := max x.readyAt (s.now w + 1) }

/-- Ends the wait of a parked warp: the trap is entered (R133), or the gift goes on its way (R131). -/
def State.endPark (s : State) (w : Nat) : State :=
  match (s.warp w).park with
  | .trapEntry c f a first part pc => (s.trapEnters w c f a first part pc).goOn w
  | .quota m =>
    (if m && !(s.warp w).pending.isEmpty then s.modWarp w fun x => { x with park := .marker } else s.goOn w).scheduleGift w
  | _ => s.goOn w

/-- LONG_LATENCY_WRITE (R92): the record's data of one thread are written, and waits that end are ended. -/
def execLongLatencyWrite (wid id t : Nat) (s : State) : Out :=
  let s1 := s.modWarp wid fun x => x.landed id t
  .next (if s1.waitOver wid then s1.endPark wid else s1)

/-- JOIN_TIMEOUT_EXPIRY (R122). -/
def execJoinTimeoutExpiry (wid e : Nat) (s : State) : Out := .next (s.expireJoin wid e)
/-- REGANG_TIMEOUT_EXPIRY (R126). -/
def execRegangTimeoutExpiry (wid e : Nat) (s : State) : Out := .next (s.expireRegang wid e)

end Sys2Proof.Machine
end

