-- ==== Sys2Proof/Machine/Tile.lean ====
section
/-! DEFINITION. Tiles, accumulators and the posting of engine work (R213 to R244): majors 0x60 to 0x69. The engines
themselves stand in Engine.lean. -/

namespace Sys2Proof.Machine

/-! ### Tiles of a workgroup (R45, R46, R213) -/

/-- Tile n of a workgroup's window. -/
def State.tile (s : State) (g n : Nat) : Tile := Store.get {} (s.core (s.wg g).core).tiles ((s.wg g).tbase + n)
/-- Changes tile n of a workgroup's window. -/
def State.modTile (s : State) (g n : Nat) (f : Tile → Tile) : State :=
  s.modCore (s.wg g).core fun c => { c with
    tiles := Store.set {} c.tiles ((s.wg g).tbase + n) (f (Store.get {} c.tiles ((s.wg g).tbase + n))) }

/-- Element size in half bytes (R213). -/
def tagNibs (tag : Nat) : Nat := if tag = 9 then 1 else if tag = 7 ∨ tag = 8 ∨ tag = 11 then 2
  else if tag = 5 ∨ tag = 6 ∨ tag = 12 then 4 else 8
/-- The K span of an operand tag (R213). -/
def kSpan (tag : Nat) : Nat := if tag = 9 then 512 else if tag = 7 ∨ tag = 8 ∨ tag = 11 then 256 else 128
/-- Bytes of an SCR tile with its block plane (R214). -/
def scrBytes (tag rows cols : Nat) : Nat := rows * cols * tagNibs tag / 2 + (if tag = 9 then rows * (cols / 16) else 0)
/-- Quanta of an operand tile (R213). -/
def quantaOf (rows : Nat) : Nat := if rows ≤ 96 then 1 else 2

/-- Whether a kind, a tag and a shape obey R213. -/
def shapeOk (k : TileKind) (tag rows cols : Nat) : Bool :=
  match k with
  | .scr => decide (1 ≤ rows ∧ rows ≤ 512 ∧ 1 ≤ cols ∧ cols ≤ 4096) && (tag != 9 || cols % 32 == 0)
  | .opnd => decide (32 ≤ rows ∧ rows ≤ 192) && rows % 32 == 0
  | .acc => rows == 96 && decide (32 ≤ cols ∧ cols ≤ 192) && cols % 32 == 0

/-- The accumulator tile of a logical accumulator (R215): none when it is unbound. -/
def State.accOf (s : State) (g lacc : Nat) : Option Nat :=
  match Store.get 0 (s.wg g).accs lacc with
  | 0 => none
  | n + 1 => some n

/-- Whether every buffer a tile lies in has been zeroed for its owner (R54). -/
def State.tileClean (s : State) (g n : Nat) : Bool :=
  let t := s.tile g n
  match t.kind with
  | .opnd => (List.range (quantaOf t.rows)).all fun i => !s.zeroing.contains (.quantum (s.wg g).core (t.base + i))
  | .scr => !s.zeroing.contains (.scratch g)
  | .acc => true

/-- The first use of an accumulator tile by a workgroup zeroes it (R53). -/
def State.touchAcc (s : State) (g p : Nat) : State :=
  let c := (s.wg g).core
  if Store.get 0 (s.core c).accLast p = g + 1 then s
  else s.modCore c fun k => { k with
    accLast := Store.set 0 k.accLast p (g + 1)
    acc := k.acc.filter fun e => e.1 / 2 ^ 16 != p
    prog := k.prog.filter fun e => e.1 / 6 != p
    progHeld := k.progHeld.filter fun e => e.1 / 6 != p }

/-! ### Elements -/

/-- The key of an accumulator element: tile, row, absolute column. -/
def accKey (p r c : Nat) : Nat := p * 2 ^ 16 + r * 192 + c
def State.accAt (s : State) (core p r c : Nat) : Word := Store.get 0 (s.core core).acc (accKey p r c)
def State.setAcc (s : State) (core p r c : Nat) (v : Word) : State :=
  s.modCore core fun k => { k with acc := Store.set 0 k.acc (accKey p r c) v }

/-- The bits of an element of a tile (R214, R47, R48). -/
def State.tileElem (s : State) (g n r c : Nat) : Nat :=
  let t := s.tile g n
  let k := s.core (s.wg g).core
  match t.kind with
  | .scr =>
    let nib := (r * t.cols + c) * tagNibs t.tag
    leNat (Store.range 0 (s.wg g).scratch (t.base + nib / 2) (max 1 (tagNibs t.tag / 2))) / 16 ^ (nib % 2) % 2 ^ (4 * tagNibs t.tag)
  | .opnd => Store.get 0 k.quanta ((t.base + r / 96) * 2 ^ 17 + r % 96 * 512 + c)
  | .acc => (s.accAt (s.wg g).core ((s.accOf g t.lacc).getD 0) r (t.base + c)).toNat

/-- Writes an element of a tile. -/
def State.setElem (s : State) (g n r c v : Nat) : State :=
  let t := s.tile g n
  match t.kind with
  | .scr =>
    let nib := (r * t.cols + c) * tagNibs t.tag
    let at' := t.base + nib / 2
    let bytes := if t.tag = 9 then
        let old := (Store.get 0 (s.wg g).scratch at').toNat
        leBytes 1 (if nib % 2 = 0 then old / 16 * 16 + v % 16 else old % 16 + 16 * (v % 16))
      else leBytes (tagNibs t.tag / 2) v
    s.modWg g fun h => { h with scratch := Store.setAll 0 h.scratch (bytes.zipIdx.map fun p => (at' + p.2, p.1)) }
  | .opnd => s.modCore (s.wg g).core fun k => { k with
      quanta := Store.set 0 k.quanta ((t.base + r / 96) * 2 ^ 17 + r % 96 * 512 + c) v }
  | .acc => s.setAcc (s.wg g).core ((s.accOf g t.lacc).getD 0) r (t.base + c) (BitVec.ofNat 32 v)

/-- The scale and special of block b of a row of an E2M1X8 tile, as the two bytes of its plane (R74). -/
def State.tileBlock (s : State) (g n r b : Nat) : Nat :=
  let t := s.tile g n
  if t.kind = .scr then
    leNat (Store.range 0 (s.wg g).scratch (t.base + t.rows * t.cols / 2 + r * (t.cols / 16) + 2 * b) 2)
  else Store.get 0 (s.core (s.wg g).core).side ((t.base + r / 96) * 2 ^ 17 + r % 96 * 16 + b)
/-- Writes a block's two bytes. -/
def State.setBlock (s : State) (g n r b v : Nat) : State :=
  let t := s.tile g n
  if t.kind = .scr then
    let kv := (leBytes 2 v).zipIdx.map fun p => (t.base + t.rows * t.cols / 2 + r * (t.cols / 16) + 2 * b + p.2, p.1)
    s.modWg g fun h => { h with scratch := Store.setAll 0 h.scratch kv }
  else s.modCore (s.wg g).core fun k => { k with
    side := Store.set 0 k.side ((t.base + r / 96) * 2 ^ 17 + r % 96 * 16 + b) v }

/-- The exact value of an element (R61, R63, R73). -/
def State.tileVal (s : State) (g n r c : Nat) : Val :=
  let t := s.tile g n
  let v := s.tileElem g n r c
  match t.tag with
  | 9 =>
    let b := s.tileBlock g n r (c / 32)
    e2m1xVal (b % 256) (b / 256 % 256) v
  | 4 => Fmt.fp32.decode v
  | 5 => Fmt.bf16.decode v
  | 6 => Fmt.fp16.decode v
  | 7 => Fmt.e4m3.decode v
  | 8 => Fmt.e5m2.decode v
  | _ => .ofInt (toSigned (4 * tagNibs t.tag) v)

/-! ### K steps and their interleaving (R80, R234 to R236) -/

/-- Products per K step. -/
def kPer (tag : Nat) : Nat := kSpan tag / 128
/-- The steps an element has taken. -/
def Mma.done (m : Mma) (key : Nat) : Nat := max m.step (Store.get 0 m.ahead key)
/-- The accumulator tile and the columns an MMA covers: tile, first column, width. -/
def State.mmaArea (s : State) (m : Mma) : Nat × Nat × Nat :=
  let t := s.tile m.wg m.dst
  ((s.accOf m.wg t.lacc).getD 0, t.base, t.cols)
/-- Whether an MMA covers an element of an accumulator tile. -/
def State.mmaCovers (s : State) (m : Mma) (p c : Nat) : Bool :=
  let a := s.mmaArea m
  a.1 == p && decide (a.2.1 ≤ c ∧ c < a.2.1 + a.2.2)
/-- Equal shape (R236). -/
def State.mmaSame (s : State) (a b : Mma) : Bool :=
  s.mmaArea a == s.mmaArea b && (s.tile a.wg a.a).tag == (s.tile b.wg b.a).tag

/-- One K step of an MMA on one element (R80, R234). -/
def State.kStep (s : State) (core : Nat) (m : Mma) (r c : Nat) : State :=
  let a := s.mmaArea m
  let key := accKey a.1 r c
  let k := m.done key
  let tag := (s.tile m.wg m.a).tag
  let kd := kPer tag
  let old := s.accAt core a.1 r c
  let ps := (List.range kd).map fun d =>
    (s.tileVal m.wg m.a r (k * kd + d)).mul (s.tileVal m.wg m.b (c - a.2.1) (k * kd + d))
  let sum := Val.sum .rne ps
  let fresh := m.zero && k == 0
  let v : Word :=
    if tag = 11 then
      let x := ps.foldl (fun t p => t + p.units 0) 0
      if fresh then BitVec.ofInt 32 x else old + BitVec.ofInt 32 x
    else
      BitVec.ofNat 32 (if fresh then (Fmt.fp32.deliver .rne false false sum false).bits
        else (Fmt.fp32.addRes .rne false (Fmt.fp32.decode old.toNat) sum).bits)
  (s.setAcc core a.1 r c v).modCore core fun h => { h with
    mmas := h.mmas.map fun x => if x.id = m.id then { x with ahead := Store.set 0 x.ahead key (k + 1) } else x }

/-- The MMAs that may take a step on an element next: an earlier one of equal shape comes first (R236). -/
def State.mmaReady (s : State) (core p r c : Nat) : List Mma :=
  let l := (s.core core).mmas.filter fun m => s.mmaCovers m p c && decide (m.done (accKey p r c) < 128)
  l.filter fun m => !l.any fun x => decide (x.id < m.id) && s.mmaSame x m

/-- Steps of unordered MMAs on one element in some interleaving: before each, one of the MMAs is chosen, or none (R236). -/
def State.settle (s : State) (core p r c : Nat) : Nat → State
  | 0 => s
  | fuel + 1 =>
    match s.mmaReady core p r c with
    | [] => s
    | l =>
      let n := s.choose (l.length + 1)
      match l[n.1]? with
      | some m => (n.2.kStep core m r c).settle core p r c fuel
      | none => n.2

/-- An element is about to be read or written: a free prefix of the pending steps has been applied. -/
def State.settled (s : State) (core p r c : Nat) : State :=
  if (s.core core).mmas.isEmpty then s else s.settle core p r c 1024

/-- Settles the columns of some rows of an accumulator tile. -/
def State.settleRows (s : State) (core p : Nat) (rows : List Nat) (c0 n : Nat) : State :=
  if (s.core core).mmas.isEmpty then s
  else rows.foldl (fun s r => (List.range n).foldl (fun s c => s.settled core p r (c0 + c)) s) s

/-! ### Checks (R218) and waits (R225) -/

/-- How a word names a tile. -/
structure Named where
  n : Nat
  kinds : List TileKind
  /-- A fill destination (R224). -/
  fill : Bool := false
  /-- The word accepts an EMPTY tile. -/
  empty : Bool := false

/-- The checks of R218 in their order: cause and TRAPADDR. `tags` gives the cause of a failed tile-tag check, `shape` the tile
of a failed rule of the word. -/
def State.tileFault (s : State) (g : Nat) (ns : List Named) (tags : Option Nat) (shape : Option Nat) : Option (Nat × DWord) :=
  let bad := fun (n : Nat) => some (0x09, BitVec.ofNat 64 n)
  match ns.find? fun k => decide (k.n ≥ (s.wg g).tcount) with
  | some k => bad k.n
  | none =>
    match ns.find? fun k => (s.tile g k.n).err with
    | some k => some ((s.tile g k.n).errCause, (s.tile g k.n).errAddr)
    | none =>
      match ns.find? fun k => !k.kinds.contains (s.tile g k.n).kind with
      | some k => bad k.n
      | none =>
        match ns.find? fun k =>
            let t := s.tile g k.n
            (t.state == .empty && !k.fill && !k.empty) || (k.fill && t.kind == .opnd && !t.bound)
              || (t.kind == .acc && (s.accOf g t.lacc).isNone) with
        | some k => bad k.n
        | none =>
          match tags with
          | some c => some (c, 0)
          | none => shape.bind bad

/-- Whether a source may be named now; a further drain of one queue may (R224, R225). -/
def Tile.sourceOk (t : Tile) (q : Option Nat) : Bool := t.state == .ready || (t.state == .draining && some t.queue == q)
/-- Whether a fill destination may be named now (R224, R225). -/
def Tile.fillOk (t : Tile) (q : Option Nat) : Bool :=
  t.state == .empty || (t.state == .ready && t.readers == 0) || (t.state == .filling && some t.queue == q)
/-- Whether copies, collectives or MMAs that name the tile have not completed. -/
def Tile.pend (t : Tile) : Bool := t.work != 0 || t.mmas != 0 || t.readers != 0
/-- PEND of R223: work of the engines, or a row operation whose results are outstanding (R91). -/
def State.tilePend (s : State) (g n : Nat) : Bool :=
  (s.tile g n).pend || (s.wg g).warps.any fun w => (s.warp w).pending.any fun p => p.tile == some n

/-- A word that names a READY tile acquires (R226). The core's clean lines are dropped whatever the scope. -/
def State.nameTile (s : State) (w : Nat) : State := s.l1Acquire (coreOf w)
/-- The acquire of a word that issues naming tile n in the state it stood in before. -/
def State.named (s : State) (w : Nat) (t : Tile) : State := if t.state == .ready then s.nameTile w else s

/-- The form of a per-warp word of these majors (R217). -/
def tileForm (m : Bool) (d src : List Nat) : Form :=
  { m := m, s := d ++ src, reads := src.map fun r => { scalar := true, reg := r }, leaf := 5 }

/-- A tile trap (R218). -/
def tileTrap (s : State) (w : Nat) (f : Nat × DWord) : Act := .trap f.1 (s.warp w).reportSlot f.2 false s

/-! ### Defining, claiming and freeing (R220 to R223) -/

/-- The kind of a kind code. -/
def TileKind.ofCode (k : Nat) : TileKind := if k = 0 then .scr else if k = 1 then .opnd else .acc

/-- TDEF (R220). -/
def execTdef (m : Bool) (k : BitVec 2) (t : BitVec 4) (d : BitVec 5) (a b : BitVec 6) (s : State) : Out :=
  issue (fun _ => tileForm m [] [a.toNat, b.toNat]) (fun w s =>
    let x := s.warp w
    let g := x.wg
    let n := d.toNat
    let sa := (x.readS a.toNat).toNat
    let sb := (x.readS b.toNat).toNat
    let kind := TileKind.ofCode k.toNat
    let tag := t.toNat
    let rows := sa % 1024
    let cols := if kind = .opnd then kSpan tag else sa / 1024 % 4096
    let lacc := sb % 4
    let c0 := sb / 4 % 8 * 32
    let e := s.tile g n
    let ok := sa / 2 ^ 22 == 0 && shapeOk kind tag rows cols && (match kind with
      | .scr => sb % 128 == 0 && decide (sb + scrBytes tag rows cols ≤ (s.wg g).scratchLen)
      | .opnd => sa / 1024 % 4096 == 0 && sb == 0
      | .acc => sb / 32 == 0 && decide (c0 + cols ≤ 192) && (s.accOf g lacc).isSome)
    if n ≥ (s.wg g).tcount || e.state != .empty || s.tilePend g n || (e.kind == .opnd && e.bound) || !ok then
      tileTrap s w (0x09, BitVec.ofNat 64 n)
    else .done (s.modTile g n fun _ =>
      { used := true, kind := kind, tag := tag, rows := rows, cols := cols, owner := g, bound := kind != .opnd
        base := if kind = .scr then sb else if kind = .acc then c0 else 0, lacc := if kind = .acc then lacc else 0 })) s

/-- TFREE (R222). -/
def execTfree (m : Bool) (a : BitVec 5) (s : State) : Out :=
  issue (fun _ => tileForm m [] []) (fun w s =>
    let g := (s.warp w).wg
    let n := a.toNat
    if n ≥ (s.wg g).tcount then tileTrap s w (0x09, BitVec.ofNat 64 n)
    else if s.tilePend g n then .park .tile s
    else .done ((s.modTile g n fun t => { t with state := .empty, err := false, errCause := 0, errAddr := 0 }).named w (s.tile g n))) s

/-- The value of TSTATE, given PEND (R223). -/
def Tile.status (t : Tile) (pend : Bool) : Nat :=
  (match t.state with
    | .empty => 0
    | .filling => 1
    | .ready => 2
    | .draining => 3)
  + 4 * (match t.kind with
    | .scr => 0
    | .opnd => 1
    | .acc => 2)
  + 16 * (if t.bound || t.kind != .opnd then 1 else 0) + 32 * (if pend then 1 else 0) + 64 * (if t.err then 1 else 0)
  + 256 * t.readers + 65536 * t.tag

/-- TSTATE (R223). -/
def execTstate (m : Bool) (d : BitVec 6) (a : BitVec 5) (s : State) : Out :=
  issue (fun _ => tileForm m [d.toNat] []) (fun w s =>
    let g := (s.warp w).wg
    let n := a.toNat
    if n ≥ (s.wg g).tcount then tileTrap s w (0x09, BitVec.ofNat 64 n)
    else .done ((s.modWarp w fun x => x.writeS d.toNat (BitVec.ofNat 32 ((s.tile g n).status (s.tilePend g n)))).named w (s.tile g n))) s

/-- TWAIT (R223, R226). -/
def execTwait (m : Bool) (a : BitVec 5) (s : State) : Out :=
  issue (fun _ => { tileForm m [] [] with check := some (0x61, 0) }) (fun w s =>
    let g := (s.warp w).wg
    let n := a.toNat
    let t := s.tile g n
    if n ≥ (s.wg g).tcount then tileTrap s w (0x09, BitVec.ofNat 64 n)
    else if s.tilePend g n || !(t.state == .ready || t.state == .empty) then .park .tile s
    else .done (s.nameTile w)) s

/-- The lowest free quanta of a core for a tile of some rows (R221). -/
def State.freeQuanta (s : State) (core rows : Nat) : Option Nat :=
  let k := quantaOf rows
  (List.range 16).find? fun i => i % k == 0 && (List.range k).all fun j => Store.get 0 (s.core core).qOwner (i + j) == 0

/-- Binds quanta to a tile; those of another last owner are zeroed first (R53, R221). -/
def State.bindQuanta (s : State) (g n i : Nat) : State :=
  let core := (s.wg g).core
  let s1 := (List.range (quantaOf (s.tile g n).rows)).foldl (fun s j =>
    let q := i + j
    let foreign := Store.get 0 (s.core core).qLast q != g + 1
    let s1 := s.modCore core fun k => { k with
      qOwner := Store.set 0 k.qOwner q (g + 1), qLast := Store.set 0 k.qLast q (g + 1)
      quanta := if foreign then k.quanta.filter fun e => e.1 / 2 ^ 17 != q else k.quanta
      side := if foreign then k.side.filter fun e => e.1 / 2 ^ 17 != q else k.side }
    if foreign then { s1.soon (.zeroingComplete (.quantum core q)) with zeroing := s1.zeroing ++ [.quantum core q] } else s1) s
  s1.modTile g n fun t => { t with bound := true, base := i }

/-- CLAIM and CLAIMT: `q` is the predicate of CLAIMT. -/
def claimWord (m : Bool) (q : Option Nat) (a : Nat) : State → Out :=
  issue (fun _ => tileForm m [] []) (fun w s =>
    let g := (s.warp w).wg
    let t := s.tile g a
    let put := fun (s : State) (b : Bool) => match q with
      | some k => s.modWarp w fun x => x.setQ k b
      | none => s
    match s.tileFault g [{ n := a, kinds := [.opnd], empty := true }] none (if t.bound then some a else none) with
    | some f => tileTrap s w f
    | none =>
      match s.freeQuanta (coreOf w) t.rows with
      | some i => .done (put (s.bindQuanta g a i) true)
      | none => if q.isSome then .done (put s false) else .park .tile s)

/-- CLAIM (R221). -/
def execClaim (m : Bool) (a : BitVec 5) (s : State) : Out := claimWord m none a.toNat s
/-- CLAIMT (R221). -/
def execClaimt (m : Bool) (d : BitVec 3) (a : BitVec 5) (s : State) : Out := claimWord m (some d.toNat) a.toNat s

/-- Frees an operand tile's quanta. -/
def State.freeTile (s : State) (g n : Nat) : State :=
  let t := s.tile g n
  let s1 := if t.kind = .opnd ∧ t.bound then
      s.modCore (s.wg g).core fun k => { k with
        qOwner := (List.range (quantaOf t.rows)).foldl (fun m i => Store.set 0 m (t.base + i) 0) k.qOwner } else s
  s1.modTile g n fun t => { t with state := .empty, bound := false, base := 0, err := false, errCause := 0, errAddr := 0 }

/-- RELEASE (R222). -/
def execRelease (m : Bool) (a : BitVec 5) (s : State) : Out :=
  issue (fun _ => tileForm m [] []) (fun w s =>
    let g := (s.warp w).wg
    let n := a.toNat
    let t := s.tile g n
    if n ≥ (s.wg g).tcount || t.kind != .opnd then tileTrap s w (0x09, BitVec.ofNat 64 n)
    else if !t.bound then .done (s.named w t)
    else if t.readers != 0 || t.state == .filling || t.state == .draining then .park .tile s
    else .done ((s.freeTile g n).named w t)) s

/-! ### Posting (R227 to R232) -/

/-- The entries of a workgroup's engine queue. -/
def State.engine (s : State) (g q : Nat) : List EngineEntry := Store.get [] (s.wg g).queues q
/-- Changes an engine queue. -/
def State.modEngine (s : State) (g q : Nat) (f : List EngineEntry → List EngineEntry) : State :=
  s.modWg g fun h => { h with queues := Store.set [] h.queues q (f (Store.get [] h.queues q)) }
/-- Puts the start of a queue's first entry on the calendar. -/
def State.kick (s : State) (g q : Nat) : State :=
  match s.engine g q with
  | e :: _ =>
    if e.started || (s.wg g).engHalt || (s.wg g).out || s.calendar.any (fun c => c.2 == .engineEntryStart g q) then s else s.soon (.engineEntryStart g q)
  | [] => s
/-- Posts an entry; none while the queue is full (R227). -/
def State.post (s : State) (w q : Nat) (work : EngineWork) : Option State :=
  let g := (s.warp w).wg
  if (s.engine g q).length ≥ 16 then none
  else
    let n := s.fresh
    some ((n.2.modEngine g q fun l => l ++ [{ id := n.1, work := work, wid := w, mode := (s.warp w).mode }]).kick g q)

/-- A tile becomes the destination of a posted copy or collective (R224). -/
def Tile.beginFill (t : Tile) (q : Nat) : Tile :=
  { t with state := .filling, queue := q, work := t.work + 1, fresh := if t.state = .filling then t.fresh else t.state == .empty }
/-- A tile becomes the source of a posted copy (R224). -/
def Tile.beginDrain (t : Tile) (q : Nat) : Tile := { t with state := .draining, queue := q, work := t.work + 1, free := false }

/-- Whether a pair of tags converts (R230). -/
def copyPair (src dst : Nat) : Bool :=
  src == dst || ((src == 1 || dst == 1) && tagNibs src == 8 && tagNibs dst == 8)
    || (src == 4 && (dst == 5 || dst == 6 || dst == 7 || dst == 8 || dst == 9)) || ((src == 5 || src == 6) && dst == 4)
    || (src == 2 && dst == 11)

/-- Every kind. -/
def anyKind : List TileKind := [.scr, .opnd, .acc]

/-- CPY (R229). DESIGN CHOICE (log 105): a failed shape rule names D in TRAPADDR (R218). -/
def execCpy (m : Bool) (x : BitVec 1) (e : BitVec 3) (d a : BitVec 5) (b : BitVec 6) (s : State) : Out :=
  issue (fun _ => { tileForm m [] [b.toNat] with check := some (0x62, 0) }) (fun w s =>
    let g := (s.warp w).wg
    let sb := ((s.warp w).readS b.toNat).toNat
    let td := s.tile g d.toNat
    let ta := s.tile g a.toNat
    let r0 := sb % 1024
    let c0 := sb / 1024 % 4096
    let fits := d != a && sb / 2 ^ 22 == 0 && decide (r0 + ta.rows ≤ td.rows ∧ c0 + ta.cols ≤ td.cols)
      && (td.tag != 9 || (c0 % 32 == 0 && ta.cols % 32 == 0))
    match s.tileFault g [{ n := d.toNat, kinds := anyKind, fill := true }, { n := a.toNat, kinds := anyKind }]
        (if copyPair ta.tag td.tag then none else some 0x05) (if fits then none else some d.toNat) with
    | some f => tileTrap s w f
    | none =>
      let q := e.toNat
      if !td.fillOk (some q) || !ta.sourceOk (some q) then .park .tile s
      else match s.post w q (.cpy d.toNat a.toNat r0 c0 (x == 1#1)) with
        | none => .park .tile s
        | some s1 => .done (((s1.modTile g d.toNat fun t => t.beginFill q).modTile g a.toNat fun t => t.beginDrain q).nameTile w)) s

/-- CPYG (R232): T on a tile whose elements are neither 2 nor 4 bytes is ILLEGAL (R219). -/
def execCpyg (m : Bool) (y x z : BitVec 1) (e : BitVec 3) (d : BitVec 5) (a : BitVec 4) (s : State) : Out :=
  let r := 4 * a.toNat
  issue (fun _ => { tileForm m [] [r, r + 1, r + 2, r + 3] with check := some (0x63, 0) }) (fun w s =>
    let k := s.warp w
    let g := k.wg
    let td := s.tile g d.toNat
    let st := z == 1#1
    let base := k.readS2 r
    let pitch := (k.readS (r + 2)).toNat
    let bpoff := (k.readS (r + 3)).toNat
    match s.tileFault g [{ n := d.toNat, kinds := anyKind, fill := !st }]
        (if y = 1#1 ∧ ¬(tagNibs td.tag = 4 ∨ tagNibs td.tag = 8) then some 0x01 else none) none with
    | some f => tileTrap s w f
    | none =>
      if base.toNat % 16 ≠ 0 ∨ pitch % 16 ≠ 0 ∨ bpoff % 16 ≠ 0 then tileTrap s w (0x0C, base)
      else
        let q := e.toNat
        if !(if st then td.sourceOk (some q) else td.fillOk (some q)) then .park .tile s
        else match s.post w q (.cpyg d.toNat st (x == 1#1) (y == 1#1) base pitch bpoff) with
          | none => .park .tile s
          | some s1 =>
            if st then .done ((s1.modTile g d.toNat fun t => t.beginDrain q).nameTile w)
            else .done (((s1.modTile g d.toNat fun t => t.beginFill q).releaseL1 w).named w td)) s

/-- QFENCE (R228): one marker into each queue named, a posting where it names one (R439). -/
def execQfence (m : Bool) (mm : BitVec 8) (s : State) : Out :=
  issue (fun _ => { tileForm m [] [] with check := if mm = 0 then none else some (0x67, 0) }) (fun w s =>
    let g := (s.warp w).wg
    let qs := (List.range 8).filter fun q => mm.getLsbD q
    if qs.any fun q => decide ((s.engine g q).length ≥ 16) then .park .tile s
    else
      let n := s.fresh
      .done (qs.foldl (fun s q =>
        (s.modEngine g q fun l => l ++ [{ id := n.1, work := .marker n.1 mm.toNat, wid := w, mode := (s.warp w).mode }]).kick g q) n.2)) s

/-- Chunks of 128 bytes that an entry moves. -/
def State.chunks (s : State) (g : Nat) (w : EngineWork) : Nat :=
  let n := match w with
    | .cpy _ a .. => s.tile g a
    | .cpyg t .. => s.tile g t
    | _ => {}
  (scrBytes n.tag n.rows n.cols + 127) / 128

/-- The chunks that an entry has moved: those before its latest stop, and one for each cycle since it started (R247, R437). -/
def State.chunksDone (s : State) (g : Nat) (e : EngineEntry) : Nat :=
  min (s.chunks g e.work) (e.chunk + if e.started then s.cycle (s.wg g).core - e.since else 0)

/-! ### Matrix operations (R234 to R237) -/

/-- MMA and MMAZ. DESIGN CHOICE (log 105): a failed shape rule names A where A is not 96 rows, else B. DESIGN CHOICE (log 106): one tile
named as A and as B counts as two readers (R224). -/
def mmaWord (z : Bool) (m : Bool) (d a b : Nat) : State → Out :=
  issue (fun _ => { tileForm m [] [] with check := some (0x64, 0) }) (fun w s =>
    let g := (s.warp w).wg
    let core := coreOf w
    let td := s.tile g d
    let ta := s.tile g a
    let tb := s.tile g b
    let tags := ta.tag == tb.tag && td.tag == (if ta.tag = 11 then 2 else 4)
    match s.tileFault g [{ n := d, kinds := [.acc], fill := z }, { n := a, kinds := [.opnd] }, { n := b, kinds := [.opnd] }]
        (if tags then none else some 0x05) (if ta.rows ≠ 96 then some a else if tb.rows ≠ td.cols then some b else none) with
    | some f => tileTrap s w f
    | none =>
      let more := fun (t : Tile) (n : Nat) => t.readers + (if a = n then 1 else 0) + (if b = n then 1 else 0)
      if !(if z then td.fillOk none else td.state == .ready) || ta.state != .ready || tb.state != .ready then .park .tile s
      else if more ta a > 255 ∨ more tb b > 255 ∨ (s.core core).mmas.length ≥ 8 then .park .tile s
      else
        let n := s.fresh
        let s1 := n.2.touchAcc g ((s.accOf g td.lacc).getD 0)
        let s2 := s1.modCore core fun k => { k with mmas := k.mmas ++ [{ id := n.1, wg := g, dst := d, a := a, b := b, zero := z }] }
        let s3 := ((s2.modTile g a fun t => { t with readers := t.readers + 1 }).modTile g b fun t =>
          { t with readers := t.readers + 1 }).modTile g d fun t => { t with state := .ready, mmas := t.mmas + 1 }
        .done ((s3.notBefore (s.cycles core 16) (.mmaStart core n.1)).nameTile w))

/-- MMA (R234). -/
def execMma (m : Bool) (d a b : BitVec 5) (s : State) : Out := mmaWord false m d.toNat a.toNat b.toNat s
/-- MMAZ (R234). -/
def execMmaz (m : Bool) (d a b : BitVec 5) (s : State) : Out := mmaWord true m d.toNat a.toNat b.toNat s

/-- MFENCE (R237). DESIGN CHOICE (log 107): it names tA, so that an EMPTY tA traps TILE (R218), but waits only for MMAs and not while tA is
FILLING or DRAINING (R225). -/
def execMfence (m : Bool) (l : BitVec 1) (a : BitVec 5) (s : State) : Out :=
  issue (fun _ => tileForm m [] []) (fun w s =>
    let x := s.warp w
    let g := x.wg
    let n := a.toNat
    let lim := match x.mark with
      | some k => if k.1 = x.pc then k.2 else s.names
      | none => s.names
    let mine := (s.core (coreOf w)).mmas.any fun k => k.wg == g && decide (k.id < lim)
      && (l == 1#1 || k.dst == n || k.a == n || k.b == n)
    match (if l = 1#1 then none else s.tileFault g [{ n := n, kinds := anyKind }] none none) with
    | some f => tileTrap s w f
    | none =>
      if mine then .park .tile (s.modWarp w fun y => { y with mark := some (x.pc, lim) })
      else .done ((s.modWarp w fun y => { y with mark := none }).named w (if l = 1#1 then {} else s.tile g n))) s

/-! ### Accumulator instructions (R238 to R241) -/

/-- The form of a row word: vector destination, vector source, scalar sources (R217). -/
def accForm (m : Bool) (d src sc : List Nat) : Form :=
  { m := m, vector := true, s := sc, v := d ++ src, src := src
    reads := src.map (fun r => ({ reg := r } : Src)) ++ sc.map (fun r => ({ scalar := true, reg := r } : Src)), mem := true }

/-- A row word's checks and wait, then its effect on the accumulator tile p from column c0 on with a width. -/
def accWord (fm : Form) (n : Nat) (fp : Bool) (src : List Nat) (act : Nat → Nat → Nat → Nat → State → Act) : State → Out :=
  issue (fun _ => fm) (fun w s =>
    let x := s.warp w
    let g := x.wg
    let t := s.tile g n
    let tags := (!fp || t.tag == 4) && src.all fun r => (x.tag r).toNat == t.tag
    match s.tileFault g [{ n := n, kinds := [.acc] }] (if tags then none else some 0x05) none with
    | some f => tileTrap s w f
    | none =>
      if t.state != .ready then .park .tile s
      else
        let p := (s.accOf g t.lacc).getD 0
        act w p t.base t.cols ((s.touchAcc g p).nameTile w))

/-- An accumulator read: `val` gives a thread's word and flags once the elements it reads have settled. -/
def accRead (m : Bool) (d n : Nat) (sc : List Nat) (rows : Warp → Nat → Nat → List Nat × Nat × Nat)
    (val : State → Nat → Nat → Nat → Nat → Nat → Word × Option FFlags) : State → Out :=
  let fm := { accForm m [d] [] sc with tile := some n }
  accWord fm n false [] (fun w p c0 wd s =>
    let x := s.warp w
    let core := coreOf w
    let k := rows x c0 wd
    let s1 := s.settleRows core p k.1 k.2.1 k.2.2
    let tag := (s.tile x.wg n).tag
    vecOp fm [(d, tag)] true (fun _ t =>
      let r := val s1 core p c0 wd t
      { words := [r.1], fl := r.2 }) w s1)

/-- ACCRD (R239). -/
def execAccrd (m : Bool) (d : BitVec 6) (a : BitVec 5) (b : BitVec 6) (s : State) : Out :=
  accRead m d.toNat a.toNat [b.toNat]
    (fun x c0 wd =>
      let c := (x.readS b.toNat).toNat
      if c < wd then (threads x.active, c0 + c, 1) else ([], 0, 0))
    (fun s core p c0 wd t =>
      let c := ((s.warp s.cur).readS b.toNat).toNat
      (if c < wd then s.accAt core p t (c0 + c) else 0, none)) s

/-- ACCRDC (R239): row r from column c0 on, one column per thread. -/
def execAccrdc (m : Bool) (d : BitVec 6) (a : BitVec 5) (b : BitVec 6) (s : State) : Out :=
  accRead m d.toNat a.toNat [b.toNat]
    (fun x c0 wd => if (x.readS b.toNat).toNat % 256 < 96 then ([(x.readS b.toNat).toNat % 256], c0, wd) else ([], 0, 0))
    (fun s core p c0 wd t =>
      let v := ((s.warp s.cur).readS b.toNat).toNat
      let r := v % 256
      let c := v / 256 % 256 + t
      (if r < 96 ∧ c < wd then s.accAt core p r (c0 + c) else 0, none)) s

/-- A row of an accumulator tile. -/
def State.accRow (s : State) (core p r c0 wd : Nat) : List Word := (List.range wd).map fun c => s.accAt core p r (c0 + c)

/-- The maximum or the sum of a row, from column 0 (R239). -/
def rowFold (mx fl : Bool) : List Word → Word × Option FFlags
  | [] => (0, none)
  | v :: vs =>
    if fl then
      let f := Fmt.fp32
      let first := f.deliver .rne false false (f.decode v.toNat) (f.decode v.toNat).isSig
      let r := vs.foldl (fun (a : FRes) x =>
        let n := if mx then f.minmaxRes true false (f.decode a.bits) (f.decode x.toNat)
          else f.addRes .rne false (f.decode a.bits) (f.decode x.toNat)
        { n with fl := a.fl.or n.fl }) first
      (BitVec.ofNat 32 r.bits, some r.fl)
    else (vs.foldl (fun a x => if mx then (if a.sle x then x else a) else a + x) v, none)

/-- ACCMAX and ACCSUM. -/
def accFold (mx m : Bool) (d a : Nat) : State → Out :=
  accRead m d a [] (fun x c0 wd => (threads x.active, c0, wd)) (fun s core p c0 wd t =>
    rowFold mx ((s.tile (s.warp s.cur).wg a).tag == 4) (s.accRow core p t c0 wd))
/-- ACCMAX (R239). -/
def execAccmax (m : Bool) (d : BitVec 6) (a : BitVec 5) (s : State) : Out := accFold true m d.toNat a.toNat s
/-- ACCSUM (R239). -/
def execAccsum (m : Bool) (d : BitVec 6) (a : BitVec 5) (s : State) : Out := accFold false m d.toNat a.toNat s

/-- A word that rewrites some columns of the active rows: `new` gives a row's elements from its old ones. -/
def accWrite (m : Bool) (n : Nat) (fp : Bool) (src sc : List Nat) (cols : Warp → Nat → List Nat)
    (new : Warp → Nat → Nat → Word → Word × FFlags) : State → Out :=
  let fm := accForm m [] src sc
  accWord fm n fp src (fun w p c0 wd s =>
    let x := s.warp w
    let core := coreOf w
    let cs := cols x wd
    let s1 := cs.foldl (fun s c => s.settleRows core p (threads x.active) (c0 + c) 1) s
    let elem := fun (_ : Warp) (t : Nat) =>
      let rs := cs.map fun c => new x t c (s1.accAt core p t (c0 + c))
      ({ words := rs.map Prod.fst, fl := if fp then some (rs.foldl (fun f r => f.or r.2) {}) else none } : Elem)
    let put := fun (s : State) (t : Nat) (ws : List Word) =>
      (cs.zip ws).foldl (fun s e => s.setAcc core p t (c0 + e.1) e.2) s
    let r := sweepThreads w fm.len elem put (threads x.active) s1
    match r.stop with
    | some q => .halt (r.s.stopAt w x q)
    | none => .done r.s)

/-- ACCWR (R239). -/
def execAccwr (m : Bool) (d : BitVec 5) (a b : BitVec 6) (s : State) : Out :=
  accWrite m d.toNat false [a.toNat] [b.toNat]
    (fun x wd => if (x.readS b.toNat).toNat < wd then [(x.readS b.toNat).toNat] else [])
    (fun x t _ _ => (x.readV a.toNat t, {})) s

/-- ACCZ (R239): once per warp; the tile becomes READY. -/
def execAccz (m : Bool) (d : BitVec 5) (s : State) : Out :=
  issue (fun _ => tileForm m [] []) (fun w s =>
    let g := (s.warp w).wg
    let n := d.toNat
    let t := s.tile g n
    match s.tileFault g [{ n := n, kinds := [.acc], fill := true }] none none with
    | some f => tileTrap s w f
    | none =>
      if !t.fillOk none then .park .tile s
      else
        let p := (s.accOf g t.lacc).getD 0
        let s1 := (s.touchAcc g p).settleRows (coreOf w) p (List.range 96) t.base t.cols
        let keep := fun (e : Nat × Word) =>
          !(e.1 / 2 ^ 16 == p && decide (t.base ≤ e.1 % 2 ^ 16 % 192 ∧ e.1 % 2 ^ 16 % 192 < t.base + t.cols))
        let s2 := s1.modCore (coreOf w) fun k => { k with acc := k.acc.filter keep }
        .done ((s2.modTile g n fun t => { t with state := .ready }).nameTile w)) s

/-- ACCEXP (R240). -/
def execAccexp (m : Bool) (d : BitVec 5) (a b : BitVec 6) (s : State) : Out :=
  accWrite m d.toNat true [a.toNat] [b.toNat] (fun _ wd => List.range wd) (fun x t _ v =>
    let f := Fmt.fp32
    let mt := x.readV a.toNat t
    if mt = 0xFF800000 then (0, {})
    else
      let e := f.fmaRes .rne false false true (f.decode v.toNat) (f.decode (x.readS b.toNat).toNat) (f.decode mt.toNat)
      let r := f.funRes .exp2 false (f.decode e.bits)
      (BitVec.ofNat 32 r.bits, e.fl.or r.fl)) s

/-- ACCSCL (R239). -/
def execAccscl (m : Bool) (d : BitVec 5) (a : BitVec 6) (s : State) : Out :=
  accWrite m d.toNat true [a.toNat] [] (fun _ wd => List.range wd) (fun x t _ v =>
    let f := Fmt.fp32
    let r := f.mulRes .rne false (f.decode v.toNat) (f.decode (x.readV a.toNat t).toNat)
    (BitVec.ofNat 32 r.bits, r.fl)) s

/-- ACCMASK (R241). -/
def execAccmask (m : Bool) (d : BitVec 5) (a b : BitVec 6) (s : State) : Out :=
  accWrite m d.toNat true [] [a.toNat, b.toNat] (fun _ wd => List.range wd) (fun x t c v =>
    (if (c : Int) > (t : Int) + (x.readS a.toNat).toInt ∨ c ≥ (x.readS b.toNat).toNat then 0xFF800000 else v, {})) s

/-! ### Collectives (R242, R244) -/

/-- COLLI (R242): the handle it frees comes in D. -/
def execColli (m : Bool) (d a : BitVec 6) (s : State) : Out :=
  let r := a.toNat
  issue (fun x =>
    let f := tileForm m [d.toNat] [r, r + 1]
    if x.readS2 r = 0 then { f with even := [r], reads := f.reads ++ [{ scalar := true, reg := d.toNat }] } else { f with even := [r] })
    (fun w s =>
    let x := s.warp w
    let ctx := s.ctxOf w
    let desc := x.readS2 r
    let put := fun (s : State) (v : Word) => s.modWarp w fun y => y.writeS d.toNat v
    let set := fun (s : State) (n : Nat) (h : Handle) => s.modCtx ctx fun c => { c with handles := Store.set {} c.handles n h }
    if desc ≠ 0 then
      match (List.range 16).find? (fun n => !(Store.get {} (s.ctx ctx).handles n).used) with
      | some n => .done (put (set s n { used := true, desc := desc }) (BitVec.ofNat 32 n))
      | none => .done (put s 0xFFFFFFFF)
    else
      let n := (x.readS d.toNat).toNat
      let h := Store.get {} (s.ctx ctx).handles n
      if n ≥ 16 || !h.used then .done (put s 0xFFFFFFFF)
      else if h.posted ≠ 0 then .park .tile s
      else .done (put (set s n {}) 0)) s

/-- COLL (R244). -/
def execColl (m : Bool) (x : BitVec 1) (e : BitVec 3) (a : BitVec 6) (b : BitVec 5) (s : State) : Out :=
  issue (fun _ => { tileForm m [] [a.toNat] with check := some (0x68, 0) }) (fun w s =>
    let g := (s.warp w).wg
    let ctx := s.ctxOf w
    let hv := (s.warp w).readS a.toNat
    let hn := hv.toNat
    let h := Store.get {} (s.ctx ctx).handles hn
    let q := e.toNat
    let n := b.toNat
    let t := s.tile g n
    let tiled := x == 1#1
    if hn ≥ 16 || !h.used then tileTrap s w (0x09, BitVec.ofNat 64 (0x100 + hn))
    else match (if tiled then s.tileFault g [{ n := n, kinds := [.scr, .acc], fill := true }] (if t.tag = 4 then none else some 0x05) none
        else none) with
      | some f => tileTrap s w f
      | none =>
        if tiled && !t.fillOk none then .park .tile s
        else match s.post w q (.coll hn h.round (if tiled then some n else none)) with
          | none => .park .tile s
          | some s1 =>
            let h' : Handle := { h with posted := h.posted + 1, round := (h.round + 1) % 256 }
            let s2 := s1.modCtx ctx fun c => { c with handles := Store.set {} c.handles hn h' }
            .done ((if tiled then (s2.modTile g n fun t => t.beginFill q).named w t else s2).releaseL1 w)) s

end Sys2Proof.Machine
end

