-- ==== Sys2Proof/Machine/Debug.lean ====
section
/-! DEFINITION. Watch, halt and privileged instructions (R249 to R271), majors 0x70 to 0x78. -/

namespace Sys2Proof.Machine

/-- A word of these majors: scalar sources in order, scalar destinations, the least level (R249, R250). -/
def dbgForm (m : Bool) (level : Nat) (d src : List Nat) : Form :=
  { m := m, level := level, s := d ++ src, reads := src.map fun r => { scalar := true, reg := r }, leaf := 6 }

/-- Sets bits of DBGSTAT of a warp's context (R250, R267). -/
def State.dbgSet (s : State) (w : Nat) (bits : BitVec 5) : State :=
  s.modCtx (s.ctxOf w) fun c => { c with dbgstat := c.dbgstat ||| bits }
/-- An operand out of reach or range: MISS, and no other effect. -/
def State.missed (s : State) (w : Nat) : State := s.dbgSet w 1

/-! ### Targets (R251) -/

/-- Whether a core is in a partition's quota (R455: CLMASK names clusters of four cores). -/
def State.inQuota (s : State) (p core : Nat) : Bool := (s.part p).field 8 8 / 2 ^ (clusterOf core) % 2 == 1

/-- Whether a warp may reach a core: levels H and F reach every core. -/
def State.reachesCore (s : State) (w core : Nat) : Bool :=
  decide (core < 160) && (decide (s.levelOf (s.ctxOf w) ≥ 2) || s.inQuota (s.partNum (s.ctxOf w)) core)

/-- The warp and the thread a target names, or none where it is out of reach. -/
def State.target (s : State) (w : Nat) (v : Word) : Option (Nat × Nat) :=
  let n := v.toNat
  let core := n % 256
  let t := n / 2 ^ 16 % 128
  let k := core * 128 + n / 256 % 128
  if core ≥ 160 ∨ n / 2 ^ 15 % 2 ≠ 0 ∨ n / 2 ^ 23 ≠ 0 ∨ t ≥ 96 ∨ (s.warp k).resident = false then none
  else if s.levelOf (s.ctxOf w) < 2 ∧ s.partNum (s.ctxOf k) ≠ s.partNum (s.ctxOf w) then none
  else some (k, t)

/-- The split entry whose M holds a thread. -/
def Warp.entryOf (x : Warp) (t : Nat) : Option Nat := x.valid.find? fun e => (x.split e).m.getLsbD t

/-! ### Watches (R252, R253, R257) -/

/-- The bank a CORE code names. -/
def bankOf (w code : Nat) : Nat := if code = 0xFF then coreOf w else code

/-- The watch a descriptor gives, or none where R253 rejects it; its core is given beside it. -/
def State.watchFrom (s : State) (w n : Nat) (d : Nat → Nat) : Option (Nat × Watch) :=
  let a := d 0
  let b := d 1
  let src := a % 8
  let cmp := a / 8 % 8
  let core := bankOf w (d 3 % 256)
  let space := a / 2 ^ 12 % 4
  let old := Store.get ({} : Watch) (s.core core).watches n
  let me := s.partNum (s.ctxOf w)
  let bad := decide (src > 5) || decide (cmp > 5) || decide (a / 2 ^ 6 % 8 > 4) || decide (a / 2 ^ 14 ≠ 0) || decide (space > 1)
    || decide (b / 128 % 2 ≠ 0) || decide (b / 2 ^ 16 ≠ 0) || decide (d 3 / 256 ≠ 0)
    || (decide (cmp ≥ 3) != (src == 4)) || (decide (space ≠ 0) && decide (src ≥ 2))
    || decide (b % 128 > b / 256 % 128) || (decide (a / 512 % 2 = 1) && n == 15) || !s.reachesCore w core
    || (decide (s.levelOf (s.ctxOf w) < 2) && old.valid && old.part != me)
  if bad then none
  else some (core,
    { valid := true, armed := a / 1024 % 2 == 1, src := src, cmp := cmp, act := a / 64 % 8, chain := a / 512 % 2 == 1
      oneshot := a / 2048 % 2 == 1, space := space, tlo := b % 128, thi := b / 256 % 128, anyctx := b / 2 ^ 15 % 2 == 1
      warps := BitVec.ofNat 32 (d 2), va := BitVec.ofNat 64 (d 4 + 2 ^ 32 * d 5), vb := BitVec.ofNat 64 (d 6 + 2 ^ 32 * d 7)
      part := me, ctx := s.ctxOf w })

/-- WSET (R252, R253): the descriptor stands in sA to sA+7. A rejected one also sets MISS, its values being out of range (R250, R267). -/
def execWset (m : Bool) (n : BitVec 4) (d : BitVec 6) (a : BitVec 3) (s : State) : Out :=
  let r := 8 * a.toNat
  issue (fun _ => dbgForm m 1 [d.toNat] ((List.range 8).map (r + ·))) (fun w s =>
    let x := s.warp w
    match s.watchFrom w n.toNat fun i => (x.readS (r + i)).toNat with
    | none => .done ((s.modWarp w fun x => x.writeS d.toNat 1).missed w)
    | some (core, k) =>
      .done ((s.modCore core fun c => { c with watches := Store.set {} c.watches n.toNat k }).modWarp w fun x =>
        x.writeS d.toNat 0)) s

/-- Whether a warp may act on a watch (R257). -/
def State.ownsWatch (s : State) (w : Nat) (k : Watch) : Bool :=
  decide (s.levelOf (s.ctxOf w) ≥ 2) || k.part == s.partNum (s.ctxOf w)

/-- A WCTL form on the bank that sA[31:24] names. -/
def wctl (m : Bool) (d src : List Nat) (even : List Nat) (f : Nat → Nat → Nat → State → State) : State → Out :=
  issue (fun _ => { dbgForm m 1 d src with even := even }) (fun w s =>
    let v := ((s.warp w).readS (src.headD 0)).toNat
    let core := bankOf w (v / 2 ^ 24)
    if s.reachesCore w core then .done (f w core v s) else .done (s.missed w))

/-- Rewrites the watches of a bank that a warp may act on. -/
def State.onWatches (s : State) (w core : Nat) (f : Nat → Watch → Watch) : State :=
  (List.range 16).foldl (fun s n =>
    let k := Store.get ({} : Watch) (s.core core).watches n
    if s.ownsWatch w k then s.modCore core fun c => { c with watches := Store.set {} c.watches n (f n k) } else s) s

/-- WCLR (R257). -/
def execWclr (m : Bool) (a : BitVec 6) (s : State) : Out :=
  wctl m [] [a.toNat] [] (fun w core v s => s.onWatches w core fun n k =>
    if v / 2 ^ n % 2 = 1 then {} else k) s

/-- The status word of WSTAT (R257). -/
def Watch.status (k : Watch) : Nat :=
  (if k.valid then 1 else 0) + (if k.armed then 2 else 0) + (if k.hit then 4 else 0) + (if k.cntovf then 8 else 0)
    + 16 * k.lastT + 65536 * k.lastW

/-- WSTAT (R257): an even pair. -/
def execWstat (m : Bool) (d a : BitVec 6) (s : State) : Out :=
  wctl m [d.toNat, d.toNat + 1] [a.toNat] [d.toNat] (fun w core v s =>
    let k := Store.get ({} : Watch) (s.core core).watches (v % 16)
    let ok := s.ownsWatch w k
    s.modWarp w fun x => (x.writeS d.toNat (if ok then BitVec.ofNat 32 k.status else 0)).writeS (d.toNat + 1)
      (if ok then k.count else 0)) s

/-- WARM (R257). -/
def execWarm (m : Bool) (a b : BitVec 6) (s : State) : Out :=
  wctl m [] [a.toNat, b.toNat] [] (fun w core v s =>
    let dis := ((s.warp w).readS b.toNat).toNat
    s.onWatches w core fun n k =>
      if !k.valid then k
      else if v / 2 ^ n % 2 = 1 then { k with armed := true }
      else if dis / 2 ^ n % 2 = 1 then { k with armed := false } else k) s

/-! ### Reading and writing halted state (R260) -/

/-- Whether a thread is halted (R258). -/
def Warp.isHalted (x : Warp) (t : Nat) : Bool := x.whalt || x.doubled || x.thalt.getLsbD t

/-- Whether the whole warp is halted: by WHALT, or by a double trap (R138, R258). -/
def Warp.held (x : Warp) : Bool := x.whalt || x.doubled

/-- Whether a register of an item is named, and the target is halted as the item needs (R260). -/
def haltOk (x : Warp) (t item sel : Nat) : Bool :=
  match item with
  | 0 => x.isHalted t && decide (sel < x.allot)
  | 1 => x.isHalted t && decide (sel < x.allot)
  | 2 => x.held && (decide (sel < x.nsregs) || (decide (61 ≤ sel) && decide (sel ≤ 63)))
  | 3 => x.isHalted t && sel == 0
  | 4 => x.held && decide (sel % 128 < 96) && sel / 128 % 2 == 0 && decide (sel / 256 % 256 < 192) && decide (sel < 2 ^ 18)
  | 5 => x.held && sel % 2 ^ 16 == 0 && decide (sel / 2 ^ 18 < 6)
  | 6 => x.held && decide (sel / 8 < 9)
  | _ => decide (sel ≤ 6) && (x.held || sel == 1 || sel == 2 || sel == 3 || sel == 5)

/-- Whether HREAD and HWRITE reach an item; an accumulator must be bound. -/
def State.itemOk (s : State) (k t item sel : Nat) : Bool :=
  haltOk (s.warp k) t item sel
    && (!(item == 4 || item == 5) || (s.wg (s.warp k).wg).accs.any fun e => e.1 == sel / 2 ^ 16 % 4 && e.2 != 0)

/-- The accumulator tile that bits [17:16] of a selector name. -/
def State.accSel (s : State) (k sel : Nat) : Nat := Store.get 0 (s.wg (s.warp k).wg).accs (sel / 2 ^ 16 % 4) - 1

/-- The predicates of a thread as a byte. -/
def Warp.predsOf (x : Warp) (t : Nat) : Nat :=
  (List.range 8).foldl (fun n p => n + if (x.pred p).getLsbD t then 2 ^ p else 0) 0

/-- A word of a split-table entry (R260). -/
def Split.word (p : Split) (j : Nat) : Word :=
  match j with
  | 0 => p.pc
  | 1 => maskWord p.m 0
  | 2 => maskWord p.m 1
  | 3 => maskWord p.m 2
  | 4 => maskWord p.a 0
  | 5 => maskWord p.a 1
  | 6 => maskWord p.a 2
  | 7 => BitVec.ofNat 32 (p.joinid.toNat + 2 ^ 12 * p.order + 2 ^ 15 * p.state.code + if p.trapm then 2 ^ 18 else 0)
  | _ => p.timeout

/-- The value HREAD returns. -/
def State.haltRead (s : State) (k t item sel : Nat) : Word :=
  let x := s.warp k
  let h := s.core (coreOf k)
  match item with
  | 0 => x.readV sel t
  | 1 => BitVec.ofNat 32 ((x.tag sel).toNat + (if x.uBit sel then 16 else 0)
      + if x.poisonV sel t 0 || x.poisonV sel t 1 then 32 else 0)
  | 2 => x.readS sel
  | 3 => BitVec.ofNat 32 (x.predsOf t + 256 * x.q.toNat)
  | 4 => Store.get 0 h.acc (s.accSel k sel * 2 ^ 16 + sel % 128 * 192 + sel / 256 % 256)
  | 5 =>
    let b := s.accSel k sel * 6 + sel / 2 ^ 18 % 8
    BitVec.ofNat 32 (Store.get 0 h.prog b + if Store.get false h.progHeld b then 256 else 0)
  | 6 => (x.split (sel % 8)).word (sel / 8)
  | _ =>
    match sel with
    | 0 => x.mode.setWidth 32
    | 1 => maskWord x.thalt 0
    | 2 => maskWord x.thalt 1
    | 3 => maskWord x.thalt 2
    | 4 => BitVec.ofNat 32 x.allot
    | 5 => BitVec.ofNat 32 x.haltCauseWord
    | _ => Store.get 0 x.hpc t

/-- The mode value as a write outside MODE stores it: RND 5 to 7 become 0 (R260). -/
def heldMode (v : Word) : BitVec 11 := cleanMode (v.setWidth 11)

/-- What HWRITE stores; read-only fields keep their values. -/
def State.haltWrite (s : State) (k t item sel : Nat) (v : Word) : State :=
  match item with
  | 0 => s.modWarp k fun x => x.writeV sel t v
  | 1 => s.modWarp k fun x =>
    let y := (x.setTag sel (v.setWidth 4)).setU sel (v.getLsbD 4)
    if v.getLsbD 5 then y else y.writeV sel t (y.readV sel t)
  | 2 => s.modWarp k fun x => x.writeS sel v
  | 3 => s.modWarp k fun x =>
    let y := (List.range 8).foldl (fun (y : Warp) p =>
      y.setPred p (if v.getLsbD p then y.pred p ||| bit t else y.pred p &&& ~~~(bit t))) x
    { y with q := (v >>> 8).setWidth 8 }
  | 4 => s.modCore (coreOf k) fun c => { c with
      acc := Store.set 0 c.acc (s.accSel k sel * 2 ^ 16 + sel % 128 * 192 + sel / 256 % 256) v }
  | 6 => s.modWarp k fun x =>
    let e := sel % 8
    let p := x.split e
    let j := sel / 8
    if j = 0 then x.setSplit e { p with pc := v }
    else if 4 ≤ j ∧ j ≤ 6 then x.setSplit e { p with a := maskSet p.a (j - 4) v &&& p.m }
    else x
  | 7 =>
    if sel = 0 then s.modWarp k fun x => { x with mode := heldMode v }
    else if sel = 6 then s.modWarp k fun x => { x with hpc := Store.set 0 x.hpc t v }
    else s
  | _ => s

/-- The items of an accumulator reach it after its first use by the workgroup, which zeroes it (R53). -/
def State.haltTouch (s : State) (k item sel : Nat) : State :=
  if item = 4 ∨ item = 5 then s.touchAcc (s.warp k).wg (s.accSel k sel) else s

/-- HREAD (R260): 0 on a failure. -/
def execHread (m : Bool) (mm : BitVec 3) (d a b : BitVec 6) (s : State) : Out :=
  issue (fun _ => dbgForm m 1 [d.toNat] [a.toNat, b.toNat]) (fun w s =>
    let x := s.warp w
    let sel := (x.readS b.toNat).toNat
    match s.target w (x.readS a.toNat) with
    | some (k, t) =>
      if s.itemOk k t mm.toNat sel then
        let s1 := s.haltTouch k mm.toNat sel
        let v := s1.haltRead k t mm.toNat sel
        .done (s1.modWarp w fun x => x.writeS d.toNat v)
      else .done ((s.missed w).modWarp w fun x => x.writeS d.toNat 0)
    | none => .done ((s.missed w).modWarp w fun x => x.writeS d.toNat 0)) s

/-- HWRITE (R260): D is read. -/
def execHwrite (m : Bool) (mm : BitVec 3) (d a b : BitVec 6) (s : State) : Out :=
  issue (fun _ => dbgForm m 1 [] [a.toNat, b.toNat, d.toNat]) (fun w s =>
    let x := s.warp w
    let sel := (x.readS b.toNat).toNat
    match s.target w (x.readS a.toNat) with
    | some (k, t) => .done (if s.itemOk k t mm.toNat sel then (s.haltTouch k mm.toNat sel).haltWrite k t mm.toNat sel (x.readS d.toNat) else s.missed w)
    | none => .done (s.missed w)) s

/-! ### Stopping and resuming (R261, R262, R265) -/

/-- A target instruction with a unit in sB (R261); `f` gives none where it misses. -/
def unitWord (m : Bool) (a b : Nat) (f : Nat → Nat → Nat → Nat → State → Option Act) : State → Out :=
  issue (fun _ => dbgForm m 1 [] [a, b]) (fun w s =>
    let x := s.warp w
    let u := (x.readS b).toNat
    match s.target w (x.readS a) with
    | some (k, t) => if u ≥ 3 then .done (s.missed w) else (f w k t u s).getD (.done (s.missed w))
    | none => .done (s.missed w))

/-- The threads of a unit: the target thread, or the split that holds it. -/
def Warp.unitOf (x : Warp) (t u : Nat) : Option Mask := (x.entryOf t).map fun e => if u = 0 then bit t else (x.split e).m

/-- HSTOP of threads that are not halted (R262), by warp `w`: the next word of the split that executes the HSTOP follows it. A store that
has performed in part ends first. -/
def State.stopThreads (s : State) (w k : Nat) (m : Mask) : State :=
  if !(s.warp k).rest.isEmpty then s.modWarp k fun x => { x with stops := x.stops ++ [(some m, 2, 0)] }
  else (threads (m &&& ~~~(s.warp k).halted)).foldl (fun s t =>
    match (s.warp k).entryOf t with
    | some e =>
      let pc := ((s.warp k).split e).pc
      s.haltThread k t 2 0 (if k = w ∧ e = (s.warp k).run then pc + 1 else pc)
    | none => s) s

/-- HSTOP (R262). -/
def execHstop (m : Bool) (a b : BitVec 6) (s : State) : Out :=
  unitWord m a.toNat b.toNat (fun w k t u s =>
    if u = 2 then some (.done (if (s.warp k).held then s else s.haltWarp k 2 0 0 false))
    else ((s.warp k).unitOf t u).map fun ts => .done (s.stopThreads w k ts)) s

/-- Whether a split waits: in JOINWAIT, GANGWAIT or PARKED, or suspended from one of them. -/
def Warp.waits (x : Warp) (e : Nat) : Bool := decide (3 ≤ x.codeOf e ∧ x.codeOf e ≤ 5)

/-- Takes threads out of their split into a new entry (R265), given a free one. -/
def Warp.takeOut (x : Warp) (e : Nat) (ts : Mask) (pc : Word) (now : Nat) : Option Warp :=
  let p := x.split e
  let left := p.m &&& ~~~ts
  let x1 := if left = 0 then x.setSplit e {} else x.setSplit e { p with m := left, a := p.a &&& ~~~ts }
  match (List.range 8).find? fun f => (x1.split f).state == .invalid with
  | none => none
  | some f =>
    let old := x1.byOrder.filter fun y => y != f
    -- beside a handler the entry is SUSPENDED, and READY in TRAPSUSP (R35; log 108)
    let held := x.inTrap && !p.trapm
    let x2 := x1.setSplit f { state := if held then .suspended else .ready, pc := pc, m := ts, a := ts, trapm := p.trapm, since := now }
    let x3 := (if held then x2.suspCode f SplitState.ready.code else x2).reorder (old ++ [f])
    some { x3.nextSplit with thalt := x.thalt &&& ~~~ts }

/-- Resumes the halted threads of a split (R265): those whose PC agrees continue in place, the others by halt PC in new
entries; whether an entry was lacking comes with the warp. -/
def Warp.resumeThreads (x : Warp) (e : Nat) (ts : Mask) (now : Nat) : Warp × Bool :=
  let at' := fun (t : Nat) => Store.get 0 x.hpc t
  let stay := if x.waits e then 0 else maskOf fun t => ts.getLsbD t && at' t == (x.split e).pc
  let x1 : Warp := { x with thalt := x.thalt &&& ~~~stay }
  let move := ts &&& ~~~stay
  let pcs := ((threads move).map at').eraseDups
  pcs.foldl (fun r pc =>
    match r.1.takeOut e (maskOf fun t => move.getLsbD t && at' t == pc) pc now with
    | some y => (y, r.2)
    | none => (r.1, true)) (x1, false)

/-- The engines of a workgroup go on (R264): stopped MMAs resume and queued entries start. -/
def State.engGo (s : State) (g : Nat) : State :=
  if !(s.wg g).engHalt then s
  else
    let core := (s.wg g).core
    let s1 := s.modWg g fun x => { x with engHalt := false }
    let s2 := ((s1.core core).mmas.filter fun m => m.wg == g && m.due).foldl (fun s m => s.soon (.mmaStart core m.id)) s1
    (List.range 8).foldl (fun s q => s.kick g q) s2

/-- Ends a whole-warp halt (R265), a double trap's too (R138); its log replays again (R500), and engines that a dump stopped go
on, unless ENGHALT holds them until it is cleared (R264, R441). -/
def State.resumeWarp (s : State) (k : Nat) : State :=
  let s1 := (s.modWarp k fun x => { x with whalt := false, doubled := false, haltPartial := false
                                           resumeFrom := if x.haltPartial then x.haltSlot else x.resumeFrom }).replayWarp k
  let c := s1.ctx (s1.ctxOf k)
  if c.dumping || c.dbgctl.getLsbD 0 then s1 else s1.engGo (s1.warp k).wg

/-- HRESUME (R265). -/
def execHresume (m : Bool) (a b : BitVec 6) (s : State) : Out :=
  unitWord m a.toNat b.toNat (fun w k t u s =>
    if u = 2 then some (.done (if (s.warp k).held then s.resumeWarp k else s))
    else
      match (s.warp k).entryOf t with
      | none => none
      | some e =>
        let x := s.warp k
        let r := x.resumeThreads e (((x.unitOf t u).getD 0) &&& x.thalt) s.serial
        let s1 := s.setWarp k r.1
        some (.done (if r.2 then s1.dbgSet w 4 else s1))) s

/-! ### Stepping (R263, R264) -/

/-- HSTEP (R263): the word itself runs in a later machine step, and the issuer waits for it. -/
def execHstep (m : Bool) (a b : BitVec 6) (s : State) : Out :=
  unitWord m a.toNat b.toNat (fun w k t u s =>
    let x := s.warp k
    match x.entryOf t with
    | none => none
    | some e =>
      let ok := if u = 0 then x.isHalted t
        else u == 1 && x.held && ((x.split e).state == .running || (x.split e).state == .ready)
          && (x.split e).m &&& ~~~x.thalt != 0
      if !ok then none
      else if x.step.isSome then some (.park .retry s)
      else some (.done ((s.modWarp k fun y => { y with step := some (u, t, w) }).modWarp w fun y => { y with park := .hstep k false }))) s

/-- Words that a thread step refuses (R264). -/
def stepRefused : Instr → Bool
  | .join .. => true
  | .regang .. => true
  | .bar .. => true
  | .bara .. => true
  | .barw .. => true
  | .setquotaGive .. => true
  | .setquotaQuery .. => true
  | .yield .. => true
  | .eret .. => true
  | .ungang .. => true
  | .accz .. => true
  | .tdef .. => true
  | .tfree .. => true
  | .tstate .. => true
  | .twait .. => true
  | .claim .. => true
  | .claimt .. => true
  | .release .. => true
  | .cpy .. => true
  | .cpyg .. => true
  | .qfence .. => true
  | .mma .. => true
  | .mmaz .. => true
  | .mfence .. => true
  | .coll .. => true
  | .colli .. => true
  | _ => false

/-- The one-thread split of a thread step (R263). -/
def Warp.solo (x : Warp) (t : Nat) : Warp :=
  let p := x.split ((x.entryOf t).getD 8)
  let one : Split := { state := .running, pc := if x.thalt.getLsbD t then Store.get 0 x.hpc t else p.pc
                       m := bit t, a := bit t, trapm := p.trapm }
  { x with splits := [(0, one)], thalt := x.thalt &&& ~~~(bit t), park := .none
           resumeFrom := if x.whalt && x.haltPartial then x.haltSlot else 0
           haltPartial := if x.whalt then false else x.haltPartial }

/-- The split table after a thread step: the old one, without the threads that have left (R130, R263). -/
def Warp.unsolo (x0 x1 : Warp) (t : Nat) : Warp :=
  let gone := !x1.live.getLsbD t
  let x2 : Warp := { x1 with
    splits := x0.splits, park := x0.park, hpc := Store.set 0 x1.hpc t (x1.split 0).pc
    thalt := if gone then x1.thalt else x1.thalt ||| bit t, mode := if gone then x0.mode else x1.mode
    logDefer := x0.logDefer, trap := if x1.logDefer && !x0.logDefer then x0.trap else x1.trap, resumeFrom := x0.resumeFrom
    tried := x0.tried
    readyAt := max x0.readyAt x1.readyAt }
  if !gone then x2
  else
    let x3 := x2.valid.foldl (fun (y : Warp) e =>
      let p := y.split e
      let m := p.m &&& y.live
      if m = 0 then y.setSplit e {} else y.setSplit e { p with m := m, a := p.a &&& m }) x2
    x3.reorder x3.byOrder

/-- What a warp is parked on apart from the fetch of a stepped word. -/
def Warp.parkKept (x : Warp) : Park := if x.park = .none then x.stepPark else x.park

/-- The thread step traps: no effect, and the issuer's context learns the cause (R264). -/
def State.stepTraps (s : State) (w t issuer cause : Nat) (pc : Word) : State :=
  ((s.modWarp w fun x => { x with step := none, thalt := x.thalt ||| bit t, hpc := Store.set 0 x.hpc t pc }).dbgSet issuer 8).modCtx
    (s.ctxOf issuer) fun c => { c with stepcause := BitVec.ofNat 8 cause }

/-- Runs a thread step; `run` fetches, decodes and executes the word of the warp that `cur` names. -/
def State.stepThread (run : State → Out) (s : State) (w t issuer : Nat) : Out :=
  let x0 := s.warp w
  let y := x0.solo t
  match run { s.setWarp w y with cur := w } with
  | .next s1 =>
    let x1 := s1.warp w
    if x1.rc ≠ x0.rc then
      let z := { x0.unsolo x1 t with step := some (2, t, issuer), park := x0.parkKept, stepPark := .none }
      let s2 := if x0.inTrap then s1.leaveEmptied w z else s1.setWarp w z
      .next (s2.modWarp w fun z => if x1.live.getLsbD t then z else z.nextSplit)
    else if x1.park.retries then .next (s1.setWarp w { x0 with readyAt := x1.readyAt, tried := x1.tried })
    else if x1.park.fetches then .next (s1.setWarp w { x0 with park := x1.park, stepPark := x0.parkKept })
    else .next ((s1.setWarp w { x0 with park := x0.parkKept, stepPark := .none }).stepTraps w t issuer x1.trap.cause.toNat
      (y.split 0).pc)
  | o => o

/-- Runs a split step: the split runs as the RUNNING one, and the warp stays halted. -/
def State.stepSplit (run : State → Out) (s : State) (w t issuer : Nat) : Out :=
  let x0 := s.warp w
  let e := (x0.entryOf t).getD 8
  let r := x0.run
  let x1 := if r = e then x0
    else
      let y := if r < 8 then x0.setSplit r { x0.split r with state := .ready } else x0
      let z := y.setSplit e { y.split e with state := .running }
      z.reorder (e :: z.byOrder.filter fun f => f != e)
  let y : Warp := { x1 with park := .none, resumeFrom := if x0.haltPartial then x0.haltSlot else x0.resumeFrom, haltPartial := false }
  match run { s.setWarp w y with cur := w } with
  | .next s1 =>
    .next (s1.modWarp w fun z => { z with
      whalt := true, step := if z.rc = x0.rc && (z.park.retries || z.park.fetches) then some (1, t, issuer) else some (3, t, issuer)
      haltPartial := z.rc == x0.rc && (z.park.retries || z.park.fetches) && x0.haltPartial })
  | o => o

/-- Ends a step whose results have been written (R264). -/
def State.stepSettle (s : State) (w : Nat) : State :=
  let x := s.warp w
  match x.step with
  | some (u, t, issuer) =>
    if u < 2 then s
    else
      match x.refusedEntry with
      | some (_, e, c, _) =>
        if u = 2 then
          (s.modWarp w fun x =>
            let y := x.logDrop' e.id
            { y with pending := y.pending.filter fun p => e.op.pend != some p.id }).stepTraps w t issuer c e.op.pc
        else (s.deferredTrap w).modWarp w fun x => { x with step := none }
      | none => if x.pending.isEmpty && x.log.isEmpty then s.modWarp w fun x => { x with step := none } else s
  | none => s

/-! ### Translation sweeps (R266) -/

/-- The spaces that a space selector names, or none where a reserved bit is set: partition and, unless ALLAS, address space. -/
def State.spaces (s : State) (w : Nat) (v : Nat) : Option (Nat × Option Nat) :=
  if v / 2 ^ 17 % 8 ≠ 0 ∨ v / 2 ^ 24 ≠ 0 then none
  else some (if s.levelOf (s.ctxOf w) ≥ 2 then v / 2 ^ 20 % 16 else s.partNum (s.ctxOf w),
    if v / 2 ^ 16 % 2 = 1 then none else some (v % 2 ^ 16))

/-- A sweep: the release, the sweep once, and the wait for accesses translated before it. The translated accesses that can be
outstanding are those to control-node memory. -/
def sweepWord (w : Nat) (s : State) (p : Nat) (q : Tlb → Bool) : Act :=
  let x := s.warp w
  match x.mark with
  | some (pc, lim) =>
    if pc = x.pc then
      if s.sysReqs.any fun r => decide (r.id < lim) && s.partNum r.ctx == p then .park .retry s
      else .done (s.modWarp w fun x => { x with mark := none })
    else .park .retry (s.modWarp w fun x => { x with mark := none })
  | none =>
    let s1 := s.startRelease w 2
    if !s1.released w 2 then s1.logWaits w fun _ => true
    else
      let s2 := s1.sweep q
      if s2.sysReqs.any fun r => s2.partNum r.ctx == p then .park .retry (s2.modWarp w fun x => { x with mark := some (x.pc, s2.names) })
      else .done s2

/-- INVLP (R266): the address stands in an even pair. -/
def execInvlp (m : Bool) (a b : BitVec 6) (s : State) : Out :=
  issue (fun _ => { dbgForm m 1 [] [a.toNat, a.toNat + 1, b.toNat] with even := [a.toNat] }) (fun w s =>
    let x := s.warp w
    let va := (x.readS2 a.toNat).toNat
    match s.spaces w (x.readS b.toNat).toNat with
    | none => .done (s.missed w)
    | some (p, asid) =>
      if va ≥ 2 ^ 50 then .done (s.missed w)
      else sweepWord w s p fun e => e.part == p && (asid.isNone || asid == some e.asid) && e.vpage == va / 2 ^ e.size) s

/-- TLBINV (R266). -/
def execTlbinv (m : Bool) (a : BitVec 6) (s : State) : Out :=
  issue (fun _ => dbgForm m 1 [] [a.toNat]) (fun w s =>
    match s.spaces w ((s.warp w).readS a.toNat).toNat with
    | none => .done (s.missed w)
    | some (p, asid) => sweepWord w s p fun e => e.part == p && (asid.isNone || asid == some e.asid)) s

/-! ### Counters, markers and replay checks (R268 to R271) -/

/-- The leaves of a slot-tree node (R433, R437). -/
def nodeLeaves (id : Nat) : List Nat :=
  match id with
  | 1 => [3, 4, 5, 6, 7, 9, 11, 12, 13, 14, 15, 16, 17, 18, 19]
  | 2 => [3, 4, 5, 6, 7]
  | 8 => [9, 11, 12, 13, 14, 15, 16, 17, 18, 19]
  | 10 => [11, 12, 13, 14, 15, 16, 17, 18, 19]
  | n => [n]

/-- Whether the device has an event (R437). -/
def hasEvent (id : Nat) : Bool := decide (1 ≤ id ∧ id ≤ 0x13) || decide (0x100 ≤ id ∧ id ≤ 0x108)

/-- The K steps of running MMAs of a context on some cores, which no count holds yet: one for each cycle since they started
(R235, R268, R437). -/
def State.stepsUnder (s : State) (ctx : Nat) (on : Nat → Bool) : Nat :=
  (s.cores.map fun e => if on e.1 then ((e.2.mmas.filter fun m => m.running && (s.launch (s.wg m.wg).launch).ctx == ctx).map fun m =>
    min (128 - m.step) (s.cycle e.1 - m.since)).sum else 0).sum

/-- The chunks of copies of a context on some cores that are not complete, which no count holds yet (R268, R437). -/
def State.chunksUnder (s : State) (ctx : Nat) (on : Nat → Bool) : Nat :=
  (s.wgs.map fun e => if on e.2.core && !e.2.out && (s.launch e.2.launch).ctx == ctx then
    (e.2.queues.map fun q => (q.2.head?.map (s.chunksDone e.1)).getD 0).sum else 0).sum

/-- The count of an event for a warp's context, at a scope (R268). -/
def State.eventCount (s : State) (w id scope : Nat) : Nat :=
  let k := if scope = 0 then coreOf w * 16 + sliceOf w else if scope = 1 then 2560 + coreOf w else 2720
  let on := fun (c : Nat) => scope == 2 || c == coreOf w
  (if scope = 0 then 0 else if id = 0x106 then s.stepsUnder (s.ctxOf w) on else if id = 0x107 then s.chunksUnder (s.ctxOf w) on else 0) +
    (nodeLeaves id).foldl (fun n l => n + Store.get 0 (s.ctx (s.ctxOf w)).counts (l + 2 ^ 16 * k)) 0

/-- PMREAD (R268, R269). -/
def execPmread (m : Bool) (d a : BitVec 6) (s : State) : Out :=
  let user := (s.ctx (s.ctxOf s.cur)).dbgctl.getLsbD 2
  issue (fun _ => { dbgForm m (if user then 0 else 1) [d.toNat, d.toNat + 1] [a.toNat] with even := [d.toNat] }) (fun w s =>
    let v := ((s.warp w).readS a.toNat).toNat
    let id := v % 2 ^ 16
    let put := fun (s : State) (v : DWord) => s.modWarp w fun x => x.writeS2 d.toNat v
    if v / 2 ^ 16 ≥ 3 then .done (put (s.missed w) 0)
    else if hasEvent id then
      .done (put s (BitVec.ofNat 64 (s.eventCount w id (v / 2 ^ 16) % 2 ^ 63)))
    else .done (put s (BitVec.ofNat 64 (2 ^ 63)))) s

/-- TRACEM (R270). -/
def execTracem (m : Bool) (a b : BitVec 6) (s : State) : Out :=
  issue (fun _ => dbgForm m 0 [] [a.toNat, b.toNat]) (fun w s =>
    let x := s.warp w
    let ctx := s.ctxOf w
    if (s.ctx ctx).dbgctl.getLsbD 3 then
      .done (s.trace ctx (traceRecord s.tick.toNat 2 0 (warpField w) x.pc ctx 0 0 (DWord.ofWords (x.readS a.toNat) (x.readS b.toNat))))
    else .done s) s

/-- RPCHK (R271): its check point carries sA. -/
def execRpchk (m : Bool) (a : BitVec 6) (s : State) : Out :=
  issue (fun x => { dbgForm m 0 [] [a.toNat] with check := some (0x78, x.readS a.toNat) }) (fun _ s => .done s) s

end Sys2Proof.Machine
end

