-- ==== Sys2Proof/Machine/Fetch.lean ====
section
/-! DEFINITION. Instruction fetch (R89, R95, R96, R104, R312), and the trap of a word that decodes to no instruction. -/

namespace Sys2Proof.Machine

/-! ### Fetch -/

/-- How the fetch of one word ends: the word, or what the warp does instead. -/
inductive Fetched where
  | got (v : Word) (s : State)
  | stop (s : State)

/-- The words that an instruction cache of 64 KiB holds (R1). -/
def icacheWords : Nat := 16384

/-- The word that a launch fetches on a core at a physical address (R104): the one its instruction cache holds, or the one at the
home L2, by a free choice where a write has made them differ; it is held from then on. -/
def State.codeWord (s : State) (core l pa : Nat) : Word × State :=
  let home := BitVec.ofNat 32 (s.l2Num pa 4)
  let hold := fun (s : State) => s.modCore core fun k => { k with
    icache := ((l, pa, home) :: k.icache.filter fun e => e.1 != l || e.2.1 != pa).take icacheWords }
  match (s.core core).icache.find? fun e => e.1 == l && e.2.1 == pa with
  | none => (home, hold s)
  | some e =>
    if e.2.2 = home then (home, s)
    else
      let n := s.choose 2
      if n.1 = 0 then (e.2.2, n.2) else (home, hold n.2)

/-- The fetch of a warp's word traps FETCH or its like: a stepped thread's step ends, else the trap is taken; PARTIAL is that of
a resumed word (R133, R264, R312). -/
def State.fetchTraps (s : State) (w c : Nat) (va : DWord) (first : Word) : State :=
  let x := s.warp w
  let y := { x with park := .none, stepPark := .none }
  match x.step with
  | some (0, t, issuer) => (s.setWarp w { y with park := x.parkKept }).stepTraps w t issuer c (if x.thalt.getLsbD t then Store.get 0 x.hpc t
      else (x.split ((x.entryOf t).getD 8)).pc)
  | some (1, t, issuer) =>
    ((s.setWarp w { y with step := some (3, t, issuer) }).takeTrap w c x.reportSlot va first (decide (x.resumeFrom > 0)) x.pc)
  | _ => ((s.setWarp w y).takeTrap w c x.reportSlot va first (decide (x.resumeFrom > 0)) x.pc).modWarp w fun z =>
      { z with readyAt := max z.readyAt (s.now w + 1) }

/-- Fetches the word at a PC of a warp, translated for its context (R89). `first` is TRAPFIRST of a failing second word. -/
def State.fetchWord (s : State) (w : Nat) (pc first : Word) : Fetched :=
  let x := s.warp w
  let va := (s.launchOf w).codebase + (pc.setWidth 64 <<< 2)
  let trap := fun (c : Nat) (s : State) => Fetched.stop ((s.takeTrap w c x.reportSlot va first (decide (x.resumeFrom > 0)) x.pc).modWarp w
    fun z => { z with readyAt := max z.readyAt (s.now w + 1) })
  if va.toNat ≥ 2 ^ 50 then trap 0x0D s
  else if va.toNat ≥ 2 ^ 49 then trap 0x0E s
  else match s.translate (coreOf w) (sliceOf w * 4) (s.ctxOf w) va.toNat .fetch with
    | .trap c => trap c s
    | .wait (.service p i) s1 => .stop (s1.holdWarp w (.fetch p i va first))
    | .wait _ s1 => .stop (s1.holdWarp w .retry)
    | .ok e s1 =>
      if s1.zeroing.contains (.frame (e.addr va.toNat / 8192)) then .stop (s1.holdWarp w .retry)
      else if e.sys then trap 0x0E s1
      else
        let r := s1.codeWord (coreOf w) (s.wg x.wg).launch (e.addr va.toNat)
        .got r.1 r.2

/-- A fetch park of a switched-out warp whose record is answered: tried again, or refused (partition 17). -/
def Warp.fetchAnswered (x : Warp) (part idx : Nat) (refuse : Bool) : Warp :=
  match x.park with
  | .fetch p i va first =>
    if p = part ∧ i = idx then { x with park := if refuse then .fetch 17 0 va first else .none } else x
  | _ => x

/-- The trap of a restored warp whose fetch was refused while it was out. -/
def State.fetchRefused (s : State) (w : Nat) : State :=
  match (s.warp w).park with
  | .fetch 17 _ va first => s.fetchTraps w 0x0E va first
  | _ => s

/-- A service answers the record that a fetch waits on (R314): the fetch is tried again from the next cycle, or traps FETCH. -/
def State.answerFetch (s0 : State) (part idx : Nat) (refuse : Bool) : State :=
  let out := fun (v : Saved) => { v with warps := Store.mapVals {} v.warps fun _ x => x.fetchAnswered part idx refuse }
  let s : State := { s0 with saves := Store.mapVals {} s0.saves fun _ v => out v }
  (s.warps.map Prod.fst).foldl (fun s w =>
    match (s.warp w).park with
    | .fetch p i va first =>
      if p = part ∧ i = idx then (if refuse then s.fetchTraps w 0x0E va first else s.goOn w) else s
    | _ => s) s

/-- The word at the PC of the warp that `cur` names: its bytes, with those of the literal word of a pair, fetched whatever the
first word's other fields hold (log 84). -/
def State.fetchPair (s : State) : Fetched × List Byte :=
  match s.fetchWord s.cur (s.warp s.cur).pc 0 with
  | .stop s1 => (.stop s1, [])
  | .got a s1 =>
    if isLitWord a.toNat then
      match s1.fetchWord s.cur ((s.warp s.cur).pc + 1) a with
      | .stop s2 => (.stop s2, [])
      | .got b s2 => (.got a s2, leBytes 4 a.toNat ++ leBytes 4 b.toNat)
    else (.got a s1, leBytes 4 a.toNat)

/-- The slot-tree leaf of a word that decodes to no instruction, by its major opcode (R433). -/
def majorLeaf (n : Nat) : Nat :=
  if n ≤ 0x0E ∨ (0x70 ≤ n ∧ n ≤ 0x78) then 6
  else if 0x60 ≤ n ∧ n ≤ 0x69 then 5
  else if 0x10 ≤ n ∧ n ≤ 0x1F then 4
  else 3

/-- The trap of a word that decodes to no instruction (R100, R102); the word has issued. -/
def State.illegal (s : State) (w : Nat) (word : Word) : State :=
  let x := s.warp w
  let s1 := (s.modWarp w fun y => { y with tried := false }).takeTrap w 0x01 x.reportSlot 0 0 (decide (x.resumeFrom > 0)) x.pc
  (s1.modWarp w fun y => { y with readyAt := max y.readyAt (s.now w + 1) }).charge w (majorLeaf (word.toNat / 2 ^ 24 % 128)) 1 0

end Sys2Proof.Machine
end

