-- ==== Sys2Proof/Machine/Cause.lean ====
section
/-! DEFINITION. Events of a partition (R375) and the start of its reset (R378, R379). -/

namespace Sys2Proof.Machine

/-- Reports an event of a queue and its context, or of neither, to both rings of a partition. -/
def State.eventBoth (s : State) (p code queue ctx detail aux : Nat) : State :=
  (s.event p 2 code queue ctx 0 detail 0 aux).event p 3 code queue ctx 0 detail 0 aux

/-- The queues a partition holds (R455). -/
def Part.queues (p : Part) : List Nat := (List.range (p.field 26 2)).map (p.field 24 2 + ·)
/-- The partition of a queue; PART names none for a queue of context 0 (R495). -/
def Queue.partition (k : Queue) : Option Nat := if k.ctx = 0 then none else some k.part
/-- The queues bound to a partition (R338). -/
def State.queuesOf (s : State) (p : Nat) : List Nat :=
  (s.queues.filter fun e => e.2.state != .unbound && e.2.partition == some p).map Prod.fst
/-- Whether a context belongs to a partition's range. -/
def Part.holds (x : Part) (ctx : Nat) : Bool := decide (x.ctxbase ≤ ctx ∧ ctx < x.ctxbase + x.ctxcount)

/-- Whether an event belongs to the packets in flight of a queue. -/
def queueEvent (q : Nat) : Instr → Bool
  | .launch r => r == q
  | .xcopy r => r == q
  | .xcopyComplete r _ => r == q
  | .signal r => r == q
  | .cond r => r == q
  | .condReread r => r == q
  | .fencePacket r => r == q
  | .fencePacketComplete r => r == q
  | .waitord r => r == q
  | .contract r => r == q
  | .queueHang r => r == q
  | _ => false

/-- The codes of the states of a queue (R342). -/
def QState.code : QState → Nat
  | .unbound => 0
  | .idle => 1
  | .active => 2
  | .waiting => 3
  | .stopped => 4

/-- Writes the HW fields of a queue to its QCB (R337, R338). -/
def State.syncQueue (s : State) (q : Nat) : State :=
  let k := s.queue q
  ((((s.l2SetNum (k.qcb + 12) 4 k.head.toNat).l2SetNum (k.qcb + 16) 8 k.doneord.toNat).l2SetNum (k.qcb + 24) 4
    k.donepos.toNat).l2SetNum (k.qcb + 28) 1 k.state.code).l2SetNum (k.qcb + 29) 1 k.err

/-- Updates a queue and the HW fields of its QCB. -/
def State.setQueue (s : State) (q : Nat) (f : Queue → Queue) : State := (s.modQueue q f).syncQueue q

/-- The packet at HEAD is no longer in progress. -/
def Queue.quiet (k : Queue) : Queue :=
  { k with busy := false, nowd := false, waitRec := none, waitEv := none, refused := false, out := 0, got := [], pkt := [], stopWait := false }

/-- Stops a queue for a reset: its packets in flight are abandoned. -/
def State.abandonQueue (s : State) (q : Nat) : State :=
  let s1 := s.cancel (queueEvent q)
  let s2 := s1.cancel fun e => match e with
    | .workgroupPlace l => (s1.launch l).queue == q
    | _ => false
  let s3 : State := { s2 with launches := Store.mapVals {} s2.launches fun _ l => if l.queue = q then { l with active := false } else l }
  if (s3.queue q).state = .unbound then s3
  else s3.setQueue q fun k => { k.quiet with state := .stopped, inflight := [], copies := [], placing := 0 }

/-- The launches of a partition's contexts, and the signals of those that have ended, are abandoned with its packets (R379). -/
def State.abandonLaunches (s : State) (x : Part) : State :=
  let s1 := s.cancel fun e => match e with
    | .workgroupPlace l => x.holds (s.launch l).ctx
    | _ => false
  { s1 with
    launches := Store.mapVals {} s1.launches fun _ l => if x.holds l.ctx then { l with active := false } else l
    queues := Store.mapVals {} s1.queues fun _ k => { k with copies := k.copies.filter fun c => !x.holds c.ctx } }

/-- A cause of R378 reaches a partition (R379): it starts a reset, waits for REPLAY to end, or is absorbed. -/
def State.causeReset (s : State) (p cause : Nat) : State :=
  let x := s.part p
  if x.state ≠ .active ∧ x.state ≠ .resetting then s
  else match x.reset with
    | .run =>
      let was := (s.queuesOf p).filter fun q => (s.queue q).state == .stopped
      let s1 := (s.eventBoth p 7 0 0 cause 0).modPart p fun x =>
        { x with state := .resetting, reset := .quiesce, cause := cause, stoppedQ := was }
      ((s.queuesOf p).foldl (fun s q => s.abandonQueue q) (s1.abandonLaunches x)).soon (.quiesceDone p)
    | .replay => s.modPart p fun x => { x with nextCause := if x.nextCause = 0 then cause else x.nextCause }
    | _ => s

end Sys2Proof.Machine
end

