-- ==== Sys2Proof/Machine/FloatOps.lean ====
section
/-! DEFINITION. The floating-point, special-function and conversion instructions (chapter 6, R160 to R183). -/

namespace Sys2Proof.Machine

/-! ### Elements of tagged registers (R61, R62, R77, R174) -/

/-- The floating format of a tag. -/
def tagFmt (t : Nat) : Fmt :=
  match t with
  | 5 => .bf16
  | 6 => .fp16
  | 7 => .e4m3
  | 8 => .e5m2
  | 13 => .fp64
  | _ => .fp32
/-- Elements of a register or pair of a tag (R174), and their width. -/
def tagCount (t : Nat) : Nat := if t = 5 ∨ t = 6 ∨ t = 12 then 2 else if t = 7 ∨ t = 8 ∨ t = 11 then 4 else 1
def tagWidth (t : Nat) : Nat := if t = 13 ∨ t = 14 then 64 else 32 / tagCount t
/-- Whether a tag is that of a pair. -/
def isPair (t : Nat) : Bool := t == 13 || t == 14
/-- Splits a value into elements, element 0 lowest, and joins them. -/
def splitElems (n width v : Nat) : List Nat := (List.range n).map fun i => v / 2 ^ (width * i) % 2 ^ width
def joinElems (width : Nat) : List Nat → Nat
  | [] => 0
  | e :: rest => e % 2 ^ width + 2 ^ width * joinElems width rest
/-- The bits of a register, or of a pair. -/
def Warp.bitsV (x : Warp) (tag r t : Nat) : Nat := if isPair tag then (x.readV2 r t).toNat else (x.readV r t).toNat
def Warp.elemsV (x : Warp) (tag r t : Nat) : List Nat := splitElems (tagCount tag) (tagWidth tag) (x.bitsV tag r t)
/-- The words a value of a tag fills. -/
def wordsOf (tag v : Nat) : List Word := natWords (if isPair tag then 2 else 1) v
/-- The registers a value of a tag fills, and their tags. -/
def regsOf (tag r : Nat) : List Nat := if isPair tag then [r, r + 1] else [r]
def dstOf (tag r : Nat) : List (Nat × Nat) := if isPair tag then [(r, tag), (r + 1, 15)] else [(r, tag)]
/-- The flags of several elements (R66). -/
def orFlags (l : List FRes) : FFlags := l.foldl (fun f r => f.or r.fl) {}

/-! ### Shapes -/

/-- The tags floating arithmetic accepts (R165). -/
def isArith (t : Nat) : Bool := t == 4 || t == 5 || t == 6 || t == 13

/-- The form of floating arithmetic over sources of one tag (R78, R162, R165); `f64` says whether pairs are accepted. -/
def floatForm (m : Bool) (d : List Nat) (srcs : List Nat) (f64 : Bool) (factor : Nat) (x : Warp) : Form :=
  let regs := srcs.flatMap fun r => regsOf (x.tag r).toNat r
  let t := (x.tag (srcs.headD 0)).toNat
  { m := m, vector := true, v := d ++ srcs, also := if t = 13 then (d ++ srcs).map (· + 1) else [], src := regs
    tags := fun x => isArith t && (f64 || t != 13) && srcs.all fun r => (x.tag r).toNat == t && (t != 13 || x.tag (r + 1) == 15)
    late := fun _ => t == 13 && (d ++ srcs).any fun r => r % 2 == 1
    reads := regs.map fun r => { reg := r }, uni := some regs, factor := factor }

/-- A floating word whose element results depend on the elements of its sources, all of the sources' tag. -/
def floatOp (m : Bool) (d : Reg) (srcs : List Reg) (f64 : Bool) (factor factor64 : Nat) (long : Bool)
    (fn : Fmt → BitVec 11 → List Nat → FRes) : State → Out :=
  let rs := srcs.map BitVec.toNat
  let form := fun (x : Warp) =>
    floatForm m [d.toNat] rs f64 (if x.tag (rs.headD 0) = 13 then factor64 else factor) x
  issue form (fun w s =>
    let x := s.warp w
    let t := (x.tag (rs.headD 0)).toNat
    vecOp (form x) (dstOf t d.toNat) long (fun x n =>
      let es := rs.map fun r => x.elemsV t r n
      let r := (List.range (tagCount t)).map fun i => fn (tagFmt t) x.mode (es.map fun e => e.getD i 0)
      { words := wordsOf t (joinElems (tagWidth t) (r.map FRes.bits)), fl := some (orFlags r) }) w s)

/-- One, two and three operands of an element function. -/
def on1 (f : Fmt → BitVec 11 → Nat → FRes) : Fmt → BitVec 11 → List Nat → FRes := fun k m l => f k m (l.getD 0 0)
def on2 (f : Fmt → BitVec 11 → Val → Val → FRes) : Fmt → BitVec 11 → List Nat → FRes := fun k m l =>
  f k m (k.input (modeFtz m) (l.getD 0 0)) (k.input (modeFtz m) (l.getD 1 0))
def on3 (f : Fmt → BitVec 11 → Val → Val → Val → FRes) : Fmt → BitVec 11 → List Nat → FRes := fun k m l =>
  f k m (k.input (modeFtz m) (l.getD 0 0)) (k.input (modeFtz m) (l.getD 1 0)) (k.input (modeFtz m) (l.getD 2 0))

/-! ### Arithmetic (R166 to R168) -/

/-- FADD (R166). -/
def execFadd (m : Bool) (d a b : BitVec 6) (s : State) : Out :=
  floatOp m d [a, b] true 1 2 false (on2 fun k c a b => k.addRes (modeArith c) (modeFtz c) a b) s

/-- FSUB (R166). -/
def execFsub (m : Bool) (d a b : BitVec 6) (s : State) : Out :=
  floatOp m d [a, b] true 1 2 false (on2 fun k c a b => k.addRes (modeArith c) (modeFtz c) a b.neg) s

/-- FMUL (R166). -/
def execFmul (m : Bool) (d a b : BitVec 6) (s : State) : Out :=
  floatOp m d [a, b] true 1 2 false (on2 fun k c a b => k.mulRes (modeArith c) (modeFtz c) a b) s

/-- FMIN (R166). -/
def execFmin (m : Bool) (d a b : BitVec 6) (s : State) : Out :=
  floatOp m d [a, b] true 1 2 false (on2 fun k _ a b => k.minmaxRes false false a b) s

/-- FMAX (R166). -/
def execFmax (m : Bool) (d a b : BitVec 6) (s : State) : Out :=
  floatOp m d [a, b] true 1 2 false (on2 fun k _ a b => k.minmaxRes true false a b) s

/-- FMINNUM (R166). -/
def execFminnum (m : Bool) (d a b : BitVec 6) (s : State) : Out :=
  floatOp m d [a, b] true 1 2 false (on2 fun k _ a b => k.minmaxRes false true a b) s

/-- FMAXNUM (R166). -/
def execFmaxnum (m : Bool) (d a b : BitVec 6) (s : State) : Out :=
  floatOp m d [a, b] true 1 2 false (on2 fun k _ a b => k.minmaxRes true true a b) s

/-- FCPYS (R166): the magnitude of a with the sign bit of b. -/
def execFcpys (m : Bool) (d a b : BitVec 6) (s : State) : Out :=
  floatOp m d [a, b] true 1 2 false (fun k c l =>
    let v := k.input (modeFtz c) (l.getD 0 0)
    k.deliver .rne false false (v.withSign (l.getD 1 0 / 2 ^ (k.ebits + k.mbits) % 2 == 1)) (v.isSig || (k.decode (l.getD 1 0)).isSig)) s

/-- FSCALE (R167): B is I32 beside FP32 and F64, and I16X2 beside the packed formats. -/
def execFscale (m : Bool) (d a b : BitVec 6) (s : State) : Out :=
  let form := fun (x : Warp) =>
    let f := floatForm m [d.toNat] [a.toNat] true (if x.tag a.toNat = 13 then 2 else 1) x
    let bt := if x.tag a.toNat = 5 ∨ x.tag a.toNat = 6 then 12 else 2
    { f with v := f.v ++ [b.toNat], src := f.src ++ [b.toNat], tags := fun x => f.tags x && x.tag b.toNat == bt
             reads := f.reads ++ [{ reg := b.toNat }], uni := some (f.src ++ [b.toNat]) }
  issue form (fun w s =>
    let x := s.warp w
    let t := (x.tag a.toNat).toNat
    vecOp (form x) (dstOf t d.toNat) false (fun x n =>
      let k := tagFmt t
      let bt := if tagCount t = 2 then 16 else 32
      let ns := splitElems (tagCount t) bt (x.readV b.toNat n).toNat
      let r := ((x.elemsV t a.toNat n).zip ns).map fun p =>
        k.scaleRes (modeArith x.mode) (modeFtz x.mode) (k.input (modeFtz x.mode) p.1) (toSigned bt p.2)
      { words := wordsOf t (joinElems (tagWidth t) (r.map FRes.bits)), fl := some (orFlags r) }) w s) s

/-- FMA (R168): D is the addend. -/
def execFma (m : Bool) (d a b : BitVec 6) (s : State) : Out :=
  floatOp m d [a, b, d] true 1 2 false (on3 fun k c a b z => k.fmaRes (modeArith c) (modeFtz c) false false a b z) s

/-- FMS (R168): D is the addend. -/
def execFms (m : Bool) (d a b : BitVec 6) (s : State) : Out :=
  floatOp m d [a, b, d] true 1 2 false (on3 fun k c a b z => k.fmaRes (modeArith c) (modeFtz c) false true a b z) s

/-- FNMA (R168): D is the addend. -/
def execFnma (m : Bool) (d a b : BitVec 6) (s : State) : Out :=
  floatOp m d [a, b, d] true 1 2 false (on3 fun k c a b z => k.fmaRes (modeArith c) (modeFtz c) true false a b z) s

/-- FNMS (R168): D is the addend. -/
def execFnms (m : Bool) (d a b : BitVec 6) (s : State) : Out :=
  floatOp m d [a, b, d] true 1 2 false (on3 fun k c a b z => k.fmaRes (modeArith c) (modeFtz c) true true a b z) s

/-! ### Compares and classes (R169, R170) -/

/-- FCMP (R169): element 0 only, so a packed source uses its low half. -/
def execFcmp (m : Bool) (mm : BitVec 2) (c : BitVec 4) (r k : BitVec 1) (d : BitVec 3) (a b : BitVec 6) (s : State) : Out :=
  let form := fun (x : Warp) =>
    let f := floatForm m [] [a.toNat, b.toNat] true (if x.tag a.toNat = 13 then 2 else 1) x
    if tagCount (x.tag a.toNat).toNat = 2 then { f with reads := f.reads.map fun q => { q with halves := 1 } } else f
  issue form (fun w s =>
    let x := s.warp w
    let t := (x.tag a.toNat).toNat
    let g := tagFmt t
    predOp (form x) (k == 1#1) (r == 1#1) d.toNat mm.toNat (fun x n =>
      let u := g.input (modeFtz x.mode) ((x.elemsV t a.toNat n).getD 0 0)
      let v := g.input (modeFtz x.mode) ((x.elemsV t b.toNat n).getD 0 0)
      let nv := u.isSig || v.isSig || ((u.isNan || v.isNan) && decide (2 ≤ c.toNat ∧ c.toNat ≤ 5))
      (floatCond c.toNat u v, some { nv := nv })) w s) s

/-- FCLASS (R170): an I32 mask, one register of any index. -/
def execFclass (m : Bool) (d a : BitVec 6) (s : State) : Out :=
  let form := fun (x : Warp) =>
    let f := floatForm m [] [a.toNat] true (if x.tag a.toNat = 13 then 2 else 1) x
    { f with v := d.toNat :: f.v, also := regsOf (x.tag a.toNat).toNat a.toNat }
  issue form (fun w s =>
    let x := s.warp w
    let t := (x.tag a.toNat).toNat
    vecOp (form x) [(d.toNat, 2)] false (fun x n =>
      let es := x.elemsV t a.toNat n
      { words := [BitVec.ofNat 32 (joinElems 16 (es.map (tagFmt t).classOf))], fl := some { nv := es.any fun e => ((tagFmt t).decode e).isSig } })
      w s) s

/-! ### Unary forms (R171, R172) -/

/-- FABS (R171). -/
def execFabs (m : Bool) (d a : BitVec 6) (s : State) : Out :=
  floatOp m d [a] true 1 2 false (on1 fun k c x => let v := k.input (modeFtz c) x; k.deliver .rne false false (v.withSign false) v.isSig) s

/-- FNEG (R171). -/
def execFneg (m : Bool) (d a : BitVec 6) (s : State) : Out :=
  floatOp m d [a] true 1 2 false (on1 fun k c x => let v := k.input (modeFtz c) x; k.deliver .rne false false (v.neg) v.isSig) s

/-- FRND (R171). -/
def execFrnd (m : Bool) (d a : BitVec 6) (s : State) : Out :=
  floatOp m d [a] true 1 2 false (on1 fun k c x => k.rndRes (modeArith c) (k.input (modeFtz c) x)) s

/-- FRCP (R172). -/
def execFrcp (m : Bool) (d a : BitVec 6) (s : State) : Out :=
  floatOp m d [a] true 4 8 true (on1 fun k c x => k.divRes (modeArith c) (modeFtz c) (.fin false 1 0) (k.input (modeFtz c) x)) s

/-- FRSQ (R172). -/
def execFrsq (m : Bool) (d a : BitVec 6) (s : State) : Out :=
  floatOp m d [a] true 4 8 true (on1 fun k c x => k.rsqRes (modeArith c) (modeFtz c) (k.input (modeFtz c) x)) s

/-- FSQRT (R172). -/
def execFsqrt (m : Bool) (d a : BitVec 6) (s : State) : Out :=
  floatOp m d [a] true 4 8 true (on1 fun k c x => k.sqrtRes (modeArith c) (modeFtz c) (k.input (modeFtz c) x)) s

/-- FEXP2 (R172). -/
def execFexp2 (m : Bool) (d a : BitVec 6) (s : State) : Out :=
  floatOp m d [a] false 2 2 true (on1 fun k c x => k.funRes .exp2 (modeFtz c) (k.input (modeFtz c) x)) s

/-- FLOG2 (R172). -/
def execFlog2 (m : Bool) (d a : BitVec 6) (s : State) : Out :=
  floatOp m d [a] false 2 2 true (on1 fun k c x => k.funRes .log2 (modeFtz c) (k.input (modeFtz c) x)) s

/-- FSIN (R172). -/
def execFsin (m : Bool) (d a : BitVec 6) (s : State) : Out :=
  floatOp m d [a] false 2 2 true (on1 fun k c x => k.funRes .sin (modeFtz c) (k.input (modeFtz c) x)) s

/-- FCOS (R172). -/
def execFcos (m : Bool) (d a : BitVec 6) (s : State) : Out :=
  floatOp m d [a] false 2 2 true (on1 fun k c x => k.funRes .cos (modeFtz c) (k.input (modeFtz c) x)) s

/-- FTANH (R172). -/
def execFtanh (m : Bool) (d a : BitVec 6) (s : State) : Out :=
  floatOp m d [a] false 2 2 true (on1 fun k c x => k.funRes .tanh (modeFtz c) (k.input (modeFtz c) x)) s

/-- FSIG (R172). -/
def execFsig (m : Bool) (d a : BitVec 6) (s : State) : Out :=
  floatOp m d [a] false 2 2 true (on1 fun k c x => k.funRes .sig (modeFtz c) (k.input (modeFtz c) x)) s

/-- FDIV (R172). -/
def execFdiv (m : Bool) (d a b : BitVec 6) (s : State) : Out :=
  floatOp m d [a, b] true 4 8 true (on2 fun k c a b => k.divRes (modeArith c) (modeFtz c) a b) s

/-! ### Dot products (R173) -/

/-- The signed integer of an element of a tag. -/
def intElem (tag v : Nat) : Int := toSigned (tagWidth tag) v

/-- A dot product over element lists with the addend (R81, R173). -/
def dotRes (md : Rnd) (ftz : Bool) (t : Nat) (as bs : List Nat) (z : Nat) : FRes :=
  if t = 11 ∨ t = 12 then
    let r := (as.zip bs).foldl (fun a p => a + intElem t p.1 * intElem t p.2) (z : Int)
    { bits := (r % 2 ^ 32).toNat }
  else
    let f := tagFmt t
    let ps := (as.zip bs).map fun p => (f.input ftz p.1, f.input ftz p.2)
    let d := Fmt.fp32.input ftz z
    let vs := d :: ps.map fun p => p.1.mul p.2
    let nv := vs.any Val.isSig || ps.any (fun p => p.1.isSig || p.2.isSig || Val.zeroInf p.1 p.2) || (!vs.any Val.isNan && Val.clash vs)
    Fmt.fp32.deliver md ftz false (Val.sum md vs) nv

/-- DOT over registers A.. and B.. of one tag from a list, with an FP32 or I32 addend in D. -/
def dotOp (m : Bool) (d : Reg) (as bs : List Nat) (even : List Nat) (ok : List Nat) (factor : Nat) : State → Out :=
  let srcs := as ++ bs ++ [d.toNat]
  let t := fun (x : Warp) => (x.tag (as.headD 0)).toNat
  let fm : Form :=
    { m := m, vector := true, v := srcs, even := even, src := srcs
      tags := fun x => ok.contains (t x) && (as ++ bs).all (fun r => (x.tag r).toNat == t x)
        && (x.tag d.toNat).toNat == (if t x = 11 ∨ t x = 12 then 2 else 4)
      reads := srcs.map fun r => { reg := r }, uni := some srcs, factor := factor }
  issue (fun _ => fm) (fun w s =>
    let k := t (s.warp w)
    vecOp fm [(d.toNat, if k = 11 ∨ k = 12 then 2 else 4)] false (fun x n =>
      let r := dotRes (modeArith x.mode) (modeFtz x.mode) k (as.flatMap fun r => x.elemsV k r n) (bs.flatMap fun r => x.elemsV k r n)
        (x.readV d.toNat n).toNat
      { words := [BitVec.ofNat 32 r.bits], fl := some r.fl }) w s)

/-- DOT2 (R173). -/
def execDot2 (m : Bool) (d a b : BitVec 6) (s : State) : Out := dotOp m d [a.toNat] [b.toNat] [] [5, 6, 12] 1 s
/-- DOT4 (R173). -/
def execDot4 (m : Bool) (d a b : BitVec 6) (s : State) : Out := dotOp m d [a.toNat] [b.toNat] [] [7, 8, 11] 1 s
/-- DOT8 (R173). -/
def execDot8 (m : Bool) (d a b : BitVec 6) (s : State) : Out :=
  dotOp m d [a.toNat, a.toNat + 1] [b.toNat, b.toNat + 1] [a.toNat, b.toNat] [7, 8, 11] 2 s

/-! ### Conversions (R174 to R178) -/

/-- A converted element with the generator after it: `f` rounds under a mode, and under RSR (R68) the random value is drawn
only when the exact value is not representable. -/
def drawn (sr : Bool) (g : Word) (md : Rnd) (f : Rnd → FRes) : FRes × Word :=
  if sr then
    let g' := lfsrStep g
    let r := f (.rsr g'.toNat)
    (r, if r.step then g' else g)
  else (f md, g)

/-- Converts elements in increasing order (R68). -/
def convertAll (sr : Bool) (md : Rnd) (f : Rnd → Nat → FRes) : List Nat → Word → List FRes × Word
  | [], g => ([], g)
  | e :: rest, g =>
    let r := drawn sr g md fun k => f k e
    let t := convertAll sr md f rest r.2
    (r.1 :: t.1, t.2)

/-- The placement of R174: the new bits of D from its old bits. -/
def placeElems (ns nd p width : Nat) (old : Nat) (rs : List Nat) : Nat :=
  if nd > ns then
    joinElems width ((splitElems nd width old).zipIdx.map fun e =>
      if p * ns ≤ e.2 ∧ e.2 < p * ns + ns then rs.getD (e.2 - p * ns) 0 else e.1)
  else joinElems width rs

/-- Halves of D that a narrowing conversion does not overwrite whole (R174, R334). -/
def keptHalves (ns nd p : Nat) : Nat :=
  if nd > ns then
    let per := nd / 2
    let full := fun (h : Nat) => decide (p * ns ≤ h * per) && decide (h * per + per ≤ p * ns + ns)
    (if full 0 then 0 else 1) + (if full 1 then 0 else 2)
  else 0

/-- The halves of A that a widening conversion reads (R335). -/
def readHalves (ns nd p : Nat) : Nat :=
  if nd < ns then
    let per := ns / 2
    let hit := fun (h : Nat) => decide (p * nd < h * per + per) && decide (h * per < p * nd + nd)
    (if hit 0 then 1 else 0) + (if hit 1 then 2 else 0)
  else 3

/-- CVT, CVTI and CVTF (R174): `accept` lists the source tags, `bad` an ILLEGAL that depends on the source's tag, and `conv`
converts an element of a source tag under a mode and SAT. -/
def cvtOp (m : Bool) (p : BitVec 2) (t : BitVec 4) (d a : Reg) (accept : List Nat) (bad : Nat → Bool)
    (conv : Nat → BitVec 11 → Rnd → Nat → FRes) : State → Out :=
  let dt := t.toNat
  let nd := tagCount dt
  let form := fun (x : Warp) =>
    let st := (x.tag a.toNat).toNat
    let ns := tagCount st
    let srcs := regsOf st a.toNat
    ({ m := m, vector := true, v := regsOf dt d.toNat ++ [a.toNat], also := srcs
       even := if isPair dt then [d.toNat] else [], src := srcs
       tags := fun x => accept.contains st && (!isPair st || x.tag (a.toNat + 1) == 15)
       late := fun _ => (isPair st && a.toNat % 2 == 1) || bad st
         || decide (p.toNat ≥ (if nd = ns then 1 else if nd > ns then nd / ns else ns / nd))
       reads := srcs.map (fun r => ({ reg := r, halves := if isPair st then 3 else readHalves ns nd p.toNat } : Src))
         ++ if nd > ns then [{ reg := d.toNat, halves := keptHalves ns nd p.toNat }] else []
       uni := some (srcs ++ if nd > ns then [d.toNat] else []), factor := if st = 13 then 2 else 1 } : Form)
  issue form (fun w s =>
    let x := s.warp w
    let st := (x.tag a.toNat).toNat
    let ns := tagCount st
    vecOp (form x) (dstOf dt d.toNat) false (fun x n =>
      let es := x.elemsV st a.toNat n
      let es := if nd < ns then (es.drop (p.toNat * nd)).take nd else es
      let id := s.cur
      let g := x.gen id n
      let r := convertAll (modeSr x.mode) (modeField x.mode) (conv st x.mode) es g
      { words := wordsOf dt (placeElems ns nd p.toNat (tagWidth dt) (x.readV d.toNat n).toNat (r.1.map FRes.bits))
        fl := some (orFlags r.1), gen := if r.2 = g then none else some r.2 }) w s)

/-- The float source tags of CVT and CVTI (R175, R176). -/
def floatTags : List Nat := [4, 5, 6, 7, 8, 13]

/-- CVT (R175). -/
def execCvt (m : Bool) (p : BitVec 2) (t : BitVec 4) (d a : BitVec 6) (s : State) : Out :=
  cvtOp m p t d a floatTags (fun _ => false) (fun st c md e =>
    let v := (tagFmt st).input (modeFtz c) e
    (tagFmt t.toNat).deliver md (modeFtz c) (modeSat c) v v.isSig) s

/-- The range of an integer destination (R176). -/
def intRange (t : Nat) (un : Bool) : Int × Int :=
  let n := tagWidth t
  if t = 3 || (un && (t == 11 || t == 12)) then (0, 2 ^ n - 1) else (-(2 ^ (n - 1)), 2 ^ (n - 1) - 1)

/-- CVTI (R176). -/
def execCvti (m : Bool) (p : BitVec 2) (t : BitVec 4) (d a : BitVec 6) (u : BitVec 1) (s : State) : Out :=
  cvtOp m p t d a floatTags (fun _ => false) (fun st c md e =>
    let rg := intRange t.toNat (u == 1#1)
    let r := toIntRes md rg.1 rg.2 ((tagFmt st).input (modeFtz c) e)
    { bits := (r.1 % 2 ^ tagWidth t.toNat).toNat, fl := r.2.1, step := r.2.2 }) s

/-- CVTF (R177): B[0] must be 0 for I32, N32 and I64 sources. -/
def execCvtf (m : Bool) (p : BitVec 2) (t : BitVec 4) (d a : BitVec 6) (u : BitVec 1) (s : State) : Out :=
  cvtOp m p t d a [2, 3, 11, 12, 14] (fun st => u == 1#1 && !(st == 11 || st == 12)) (fun st c md e =>
    let v : Int := if st = 3 ∨ u = 1#1 then e else toSigned (tagWidth st) e
    (tagFmt t.toNat).deliver md (modeFtz c) (modeSat c) (Val.ofInt v) false) s

/-- The destination tag of PACK (R178), 0 where the source tag is refused. -/
def packTag (t : Nat) : Nat :=
  match t with
  | 4 => 5
  | 5 => 7
  | 6 => 7
  | 2 => 12
  | 3 => 12
  | 12 => 11
  | _ => 0

/-- One element of PACK (R178). -/
def packElem (st : Nat) (c : BitVec 11) (md : Rnd) (e : Nat) : FRes :=
  let dt := packTag st
  if st = 4 ∨ st = 5 ∨ st = 6 then
    let v := (tagFmt st).input (modeFtz c) e
    (tagFmt dt).deliver md (modeFtz c) (modeSat c) v v.isSig
  else
    let v : Int := if st = 3 then e else toSigned (tagWidth st) e
    let rg := intRange dt (st == 3)
    let r := if modeSat c then max rg.1 (min rg.2 v) else v
    { bits := (r % 2 ^ tagWidth dt).toNat }

/-- PACK (R178). -/
def execPack (m : Bool) (d a b : BitVec 6) (s : State) : Out :=
  let srcs := [a.toNat, b.toNat]
  let fm : Form :=
    { m := m, vector := true, v := d.toNat :: srcs, src := srcs
      tags := fun x => packTag (x.tag a.toNat).toNat != 0 && x.tag a.toNat == x.tag b.toNat
      reads := srcs.map fun r => { reg := r }, uni := some srcs }
  issue (fun _ => fm) (fun w s =>
    let st := ((s.warp w).tag a.toNat).toNat
    let dt := packTag st
    vecOp fm [(d.toNat, dt)] false (fun x n =>
      let g := x.gen s.cur n
      let r := convertAll (modeSr x.mode) (modeField x.mode) (packElem st x.mode) (x.elemsV st a.toNat n ++ x.elemsV st b.toNat n) g
      { words := [BitVec.ofNat 32 (joinElems (tagWidth dt) (r.1.map FRes.bits))]
        fl := if st = 4 ∨ st = 5 ∨ st = 6 then some (orFlags r.1) else none, gen := if r.2 = g then none else some r.2 }) w s) s

/-- The destination tag of the unpack forms (R178), 0 where the source tag is refused. -/
def unpackTag (t : Nat) : Nat :=
  match t with
  | 5 => 4
  | 6 => 4
  | 7 => 5
  | 8 => 5
  | 12 => 2
  | 11 => 12
  | _ => 0

/-- The unpack forms over half `h` of A (R178). -/
def unpackOp (m : Bool) (h : Nat) (d a : Reg) : State → Out :=
  let fm : Form :=
    { m := m, vector := true, v := [d.toNat, a.toNat], src := [a.toNat]
      tags := fun x => unpackTag (x.tag a.toNat).toNat != 0, reads := [{ reg := a.toNat, halves := h + 1 }], uni := some [a.toNat] }
  issue (fun _ => fm) (fun w s =>
    let st := ((s.warp w).tag a.toNat).toNat
    let dt := unpackTag st
    vecOp fm [(d.toNat, dt)] false (fun x n =>
      let es := ((x.elemsV st a.toNat n).drop (h * (tagCount st / 2))).take (tagCount st / 2)
      let r := es.map fun e =>
        if st = 11 ∨ st = 12 then ({ bits := (intElem st e % 2 ^ tagWidth dt).toNat } : FRes)
        else
          let v := (tagFmt st).input (modeFtz x.mode) e
          (tagFmt dt).deliver .rne (modeFtz x.mode) false v v.isSig
      { words := [BitVec.ofNat 32 (joinElems (tagWidth dt) (r.map FRes.bits))]
        fl := if st = 11 ∨ st = 12 then none else some (orFlags r) }) w s)

/-- UNPACKLO (R178). -/
def execUnpacklo (m : Bool) (d a : BitVec 6) (s : State) : Out := unpackOp m 0 d a s
/-- UNPACKHI (R178). -/
def execUnpackhi (m : Bool) (d a : BitVec 6) (s : State) : Out := unpackOp m 1 d a s

/-! ### Block quantisation (R179, R180) -/

/-- The block of four threads that holds a thread, quantised (R76, R179): inactive threads count as +0. -/
def qntOf (x : Warp) (a t : Nat) : QBlock :=
  let k := t / 4
  qntBlock (modeSat x.mode) ((List.range 32).map fun j =>
    let u := 4 * k + j / 8
    if x.activeAll.getLsbD u then Fmt.fp32.input (modeFtz x.mode) (x.readV (a + j % 8) u).toNat else .zero false)

/-- QNT (R179): never uniform; it issues by ranks. DESIGN CHOICE (log 100): every active thread of a block shows the flags of the whole
block, and those are NX, NV and NAN only, as R76 lists them. -/
def execQnt (m : Bool) (h : BitVec 1) (d a b : BitVec 6) (s : State) : Out :=
  let srcs := (List.range 8).map (a.toNat + ·)
  let fm : Form :=
    { m := m, vector := true, v := d.toNat :: b.toNat :: srcs, src := srcs
      tags := fun x => srcs.all fun r => x.tag r == 4
      reads := srcs.map (fun r => ({ reg := r } : Src)) ++ [{ reg := b.toNat, halves := 2 - h.toNat }], mem := true, factor := 2 }
  issue (fun _ => fm) (fun w s =>
    let x0 := s.warp w
    vecOp fm [(d.toNat, 9), (b.toNat, 10)] false (fun _ t =>
      let q := qntOf x0 a.toNat t
      let codes := (q.codes.drop (t % 4 * 8)).take 8
      let old := (x0.readV b.toNat t).toNat
      let pr := q.scale + 256 * q.special
      let nb := if h = 1#1 then old % 2 ^ 16 + 2 ^ 16 * pr else old / 2 ^ 16 * 2 ^ 16 + pr
      { words := [BitVec.ofNat 32 (joinElems 4 codes), BitVec.ofNat 32 nb], fl := some { nx := q.nx, nv := q.nan, nan := q.nan } })
      w s) s

/-- DQNT (R180). -/
def execDqnt (m : Bool) (h : BitVec 1) (t : BitVec 4) (d a b : BitVec 6) (s : State) : Out :=
  let dt := t.toNat
  let n := if dt = 4 then 8 else 4
  let ds := (List.range n).map (d.toNat + ·)
  let fm : Form :=
    { m := m, vector := true, v := ds ++ [a.toNat, b.toNat], src := [a.toNat, b.toNat]
      tags := fun x => x.tag a.toNat == 9 && x.tag b.toNat == 10
      reads := [{ reg := a.toNat }, { reg := b.toNat, halves := h.toNat + 1 }], uni := some [a.toNat, b.toNat], factor := 2 }
  issue (fun _ => fm) (vecOp fm (ds.map fun r => (r, dt)) false fun x k =>
    let pr := (x.readV b.toNat k).toNat / 2 ^ (16 * h.toNat)
    let r := (splitElems 8 4 (x.readV a.toNat k).toNat).map fun c =>
      (tagFmt dt).deliver (modeArith x.mode) (modeFtz x.mode) (modeSat x.mode) (e2m1xVal (pr % 256) (pr / 256 % 256) c) false
    let bits := r.map FRes.bits
    { words := (List.range n).map fun j => BitVec.ofNat 32 (joinElems (tagWidth dt) ((bits.drop (j * tagCount dt)).take (tagCount dt)))
      fl := some (orFlags r) }) s

/-! ### Tags (R181, R182) -/

/-- RETAG (R181): the bits and their poison marks are copied. DESIGN CHOICE (log 102): its factor is 1 for every tag, an F64 source
too (R163). -/
def execRetag (m : Bool) (d a : BitVec 6) (t : BitVec 4) (s : State) : Out :=
  let tag := t.toNat
  let n := if isPair tag then 2 else 1
  let ds := (List.range n).map (d.toNat + ·)
  let srcs := (List.range n).map (a.toNat + ·)
  let fm : Form :=
    { m := m, vector := true, v := ds ++ srcs, even := if isPair tag then [d.toNat, a.toNat] else [], src := srcs
      uni := some srcs }
  issue (fun _ => fm) (fun w s =>
    let x0 := s.warp w
    let uni := fm.uniform x0
    let x1 := (threads x0.active).foldl (fun x t =>
      let u := if uni then lowest x0.active else t
      (ds.zip srcs).foldl (fun x p =>
        let y := x.writeV p.1 t (x0.readV p.2 u)
        let y := if x0.poisonV p.2 u 0 then y.markV p.1 t 0 else y
        if x0.poisonV p.2 u 1 then y.markV p.1 t 1 else y) x) x0
    .done (s.setWarp w ((dstOf tag d.toNat).foldl (fun x p =>
      (x.setTag p.1 (BitVec.ofNat 4 p.2)).setU p.1 (uni && x0.active == x0.live)) x1))) s

/-- TAGQ (R182): once per warp, whatever A holds. -/
def execTagq (m : Bool) (d a : BitVec 6) (s : State) : Out :=
  issue (fun _ => { m := m, s := [d.toNat], v := [a.toNat], leaf := 4 }) (scalOp [d.toNat] fun x =>
    [BitVec.ofNat 32 ((x.tag a.toNat).toNat + if x.uBit a.toNat then 16 else 0)]) s

end Sys2Proof.Machine
end

