-- ==== Sys2Proof/Machine/Engine.lean ====
section
/-! DEFINITION. The copy engines (R224 to R233), the matrix engine (R235 to R237, R247) and the collective engines (R242 to
R246, R416, R488), as the events that start and complete their work. -/

namespace Sys2Proof.Machine

/-! ### Global memory as an engine reaches it (R232, R295) -/

/-- A run of bytes that an engine reads or writes. -/
structure Span where
  va : Nat
  len : Nat
  deriving DecidableEq, Repr

/-- A page an engine has translated: its number, the physical address of its first byte, and whether it is SYS. -/
structure PageAt where
  page : Nat
  pa : Nat
  sys : Bool
  deriving DecidableEq, Repr

/-- How an engine's accesses stand. -/
inductive Reach where
  | ok (pages : List PageAt) (s : State)
  | fault (cause va : Nat) (s : State)
  | wait (part idx va : Nat) (s : State)

/-- The mark of a wait for the dirty log. -/
def dirtyWait : Nat := unposted + 1

/-- The context of a workgroup. -/
def State.wgCtx (s : State) (g : Nat) : Nat := (s.launch (s.wg g).launch).ctx

/-- The address an engine translates here; none for one in the fabric window, whose owner translates it (R303). -/
def localVa (va : Nat) : Option Nat := if va < 2 ^ 49 then some va else none

/-- One translation for an engine of a core's cluster, or for a scarab, which shares no TLB (R309). -/
def State.engineWalk (s : State) (core : Option Nat) (ctx va : Nat) (k : Access) : Trans :=
  match core with
  | some c => s.clusterWalk c ctx va k true
  | none => (s.countCore ctx 160 0x103 1).walk ctx va k true none

/-- Translates the pages of some addresses in turn, with the faults of engines (R232, R303, R313). An access to a lost peer sets
STATUS (R283, R298). -/
def State.reach (s : State) (core : Option Nat) (ctx : Nat) (k : Access) : List Nat → List PageAt → Reach
  | [], ps => .ok ps (s.onBehalf ctx)
  | va :: rest, ps =>
    if va ≥ 2 ^ 50 then .fault 0x0D va s
    else
      let peerBad := va ≥ 2 ^ 49 && (match s.partOf ctx with
        | none => true
        | some p => !(s.part p).hasPeer (va / 2 ^ 40 % 512))
      if peerBad then .fault 0x0F va s
      else match localVa va with
        | none => (if Store.get false s.lost (va / 2 ^ 40 % 512) then s.metLost ctx (va / 2 ^ 40 % 512) else s).reach core ctx k rest ps
        | some a =>
          if ps.any fun p => p.page == a / 8192 then s.reach core ctx k rest ps
          else match s.engineWalk core ctx a k with
            | .trap c => .fault c va s
            | .wait (.service p i) s1 => .wait p i va s1
            | .wait _ s1 => .wait (s.partNum ctx) dirtyWait va s1
            | .ok e s1 =>
              s1.reach core ctx k rest (ps ++ [{ page := a / 8192, pa := e.addr (a / 8192 * 8192), sys := e.sys }])

/-- The addresses of the first byte of each page that spans touch. -/
def pageStarts (xs : List Span) : List Nat :=
  (xs.flatMap fun x => (List.range ((x.va % 8192 + x.len + 8191) / 8192)).map fun i =>
    if i = 0 then x.va else (x.va / 8192 + i) * 8192).foldl
      (fun l a => if l.any fun b => b / 8192 == a / 8192 then l else l ++ [a]) []

/-- Where a byte lies: a physical address of HBM, or none for a peer's or the control node's. -/
def byteAt (ps : List PageAt) (va : Nat) : Option Nat :=
  (localVa va).bind fun a => (ps.find? fun p => p.page == a / 8192 && !p.sys).map fun p => p.pa + a % 8192

/-- Whether a byte belongs to a lost peer (R298). -/
def State.lostByte (s : State) (va : Nat) : Bool := (localVa va).isNone && Store.get false s.lost (va / 2 ^ 40 % 512)

/-- The lines of spans that are fetched from elsewhere and have not come. -/
def State.missing (s : State) (ps : List PageAt) (got : Store Nat) (xs : List Span) : List Nat :=
  ((xs.flatMap fun x => (List.range ((x.va % 128 + x.len + 127) / 128)).map fun i => x.va / 128 + i).foldl
    (fun l a => if l.contains a then l else l ++ [a]) []).filter fun a =>
      (byteAt ps (a * 128)).isNone && !s.lostByte (a * 128) && Store.get 0 got (a * 128) == 0

/-- Whether an engine may wait for the zeroing of a frame (R54). -/
def State.dirtyFrame (s : State) (ps : List PageAt) : Bool := ps.any fun p => !p.sys && s.zeroing.contains (.frame (p.pa / 8192))

/-- An engine reads spans at their home L2: lines it does not hold are L2 misses, and get a way (R2, R437). -/
def State.touchLines (s : State) (ctx core : Nat) (ps : List PageAt) (xs : List Span) : State :=
  (((xs.flatMap fun x => (List.range ((x.va % 128 + x.len + 127) / 128)).filterMap fun i =>
    (byteAt ps ((x.va / 128 + i) * 128)).map (· / 128)).eraseDups).foldl (fun s l =>
      (if (s.l2Way l).isSome then s else s.l2Alloc l 0).addWork core { l := 1 }) s).countL2Core s ctx core

/-- The bytes of a span, all of them here or come. -/
def State.spanBytes (s : State) (ps : List PageAt) (got : Store Nat) (x : Span) : List Byte :=
  (List.range x.len).map fun i =>
    match byteAt ps (x.va + i) with
    | some pa => s.l2Read pa
    | none => if s.lostByte (x.va + i) then 0xFF else BitVec.ofNat 8 (Store.get 0 got (x.va + i) - 1)

/-- Whether memory reports a byte of some spans uncorrectable (R336). -/
def State.spansPoisoned (s : State) (ps : List PageAt) (xs : List Span) : Bool :=
  xs.any fun x => (List.range ((x.va % 32 + x.len + 31) / 32)).any fun i =>
    match byteAt ps (x.va / 32 * 32 + i * 32) with
    | some pa => !(s.reportedUnits pa 1).isEmpty
    | none => false

/-- Asks for a line of a peer or of the control node. -/
def State.askLine (s : State) (ctx core : Nat) (link : RemoteLink) (ps : List PageAt) (line : Nat) : State :=
  match localVa (line * 128) with
  | none => s.askPeer core ctx (line * 128 / 2 ^ 40 % 512) (line * 128 % 2 ^ 40) 1 0 0 128 [] link
  | some a =>
    let n := s.fresh
    let pa := ((ps.find? fun p => p.page == a / 8192).map fun p => p.pa + a % 8192).getD 0
    let p := s.partNum ctx
    let r : SysReq := { id := n.1, link := link, ctx := ctx, addr := BitVec.ofNat 64 (line * 128), isStore := false, bytes := [], len := 128 }
    { n.2 with
      sysReqs := n.2.sysReqs ++ [r]
      hocpOut := n.2.hocpOut ++ [.sysRead n.1 (BitVec.ofNat 64 pa) 128 p ((s.part p).field 22 2)] }

/-- Merges written bytes into runs that lie in one line each. -/
def mergeRuns : List (Nat × List Byte) → List (Nat × List Byte) → List (Nat × List Byte)
  | [], acc => acc.reverse
  | (a, bs) :: rest, (b, cs) :: acc =>
    if b + cs.length = a ∧ a / 128 = b / 128 then mergeRuns rest ((b, cs ++ bs) :: acc) else mergeRuns rest ((a, bs) :: (b, cs) :: acc)
  | (a, bs) :: rest, [] => mergeRuns rest [(a, bs)]

/-- Sends one written run to a peer or to the control node. -/
def State.sendRun (s : State) (ctx core : Nat) (link : RemoteLink) (ps : List PageAt) (x : Nat × List Byte) : State :=
  match localVa x.1 with
  | none =>
    s.askPeer core ctx (x.1 / 2 ^ 40 % 512) (x.1 % 2 ^ 40 / 128 * 128) 4 0 0 144 (wrmPayload (x.1 % 2 ^ 40) x.2) link
  | some a =>
    let n := s.fresh
    let pa := ((ps.find? fun p => p.page == a / 8192).map fun p => p.pa + a % 8192).getD 0
    let p := s.partNum ctx
    let r : SysReq :=
      { id := n.1, link := link, ctx := ctx, addr := BitVec.ofNat 64 x.1, isStore := true, bytes := x.2, len := x.2.length }
    { n.2 with
      sysReqs := n.2.sysReqs ++ [r]
      hocpOut := n.2.hocpOut ++ [.sysWrite n.1 (BitVec.ofNat 64 pa) x.2 p ((s.part p).field 22 2)] }

/-- Performs the local writes of an entry of a core at their home L2, as one write (R295, R334). The lines leave the core's L1 first,
so that its earlier stores come before them, and its later loads see them (R290). -/
def State.putRuns (s0 : State) (ctx core : Nat) (ps : List PageAt) (xs : List (Nat × List Byte)) : State :=
  let bytes := xs.flatMap fun x => x.2.zipIdx.filterMap fun b => (byteAt ps (x.1 + b.2)).map fun pa => (pa, b.1)
  let n := s0.fresh
  (bytes.foldl (fun s p => s.l2Part (n.1 + 1) p.1 [p.2] 0)
    (((bytes.map fun p => p.1 / 128).eraseDups).foldl (fun s l => s.l1Purge core l) n.2)).countL2Core s0 ctx core

/-- The written runs that leave the device. -/
def State.awayRuns (s : State) (ps : List PageAt) (xs : List (Nat × List Byte)) : List (Nat × List Byte) :=
  (mergeRuns xs []).filter fun x => (byteAt ps x.1).isNone && !s.lostByte x.1

/-! ### Entries (R227) -/

/-- The link of a posted write, for whose answer nothing waits. -/
def postedLink : RemoteLink := .xcopy 1024 0

/-- Rewrites the entry at the head of a queue. -/
def State.modHead (s : State) (g q : Nat) (f : EngineEntry → EngineEntry) : State :=
  s.modEngine g q fun l => match l with
    | e :: rest => f e :: rest
    | [] => []

/-- Starts the heads of a workgroup's queues that may start. -/
def State.kickAll (s : State) (g : Nat) : State := (List.range 8).foldl (fun s q => s.kick g q) s

/-- Takes the head off a queue. -/
def State.popHead (s : State) (g q : Nat) : State := ((s.modEngine g q List.tail).kickAll g).checkRetire g

/-- An entry waits for the service of a page: it is tried again when the wait ends (R232). -/
def State.headWaits (s : State) (g q part idx va : Nat) : State :=
  s.modHead g q fun e => { e with waitRec := some (part, idx), waitVa := BitVec.ofNat 64 va }

/-- The event that completes an entry. -/
def EngineEntry.finish (e : EngineEntry) (g q : Nat) : Instr :=
  match e.work with
  | .coll .. => .collComplete g q
  | _ => .copyComplete g q

/-- Answers the engine waits that a test picks: they retry, or are refused with ADDRESS (R233, R314). -/
def State.answerEngines (s : State) (pick : Nat → Nat → Bool) (refuse : Bool) : State :=
  s.wgs.foldl (fun s p => (List.range 8).foldl (fun s q =>
    match s.engine p.1 q with
    | e :: _ =>
      match e.waitRec with
      | some (part, idx) =>
        if pick part idx then
          (s.modHead p.1 q fun e => { e with
            waitRec := none, refused := if refuse then some (0x0D, e.waitVa) else e.refused }).soon (e.finish p.1 q)
        else s
      | none => s
    | [] => s) s) s

/-- A tile's fill has ended (R224). -/
def Tile.endFill (t : Tile) : Tile :=
  { t with work := t.work - 1, fresh := false, state := if t.work ≤ 1 then .ready else t.state }
/-- A tile's drain has ended; `free` is the FREE of that copy (R224, R229). -/
def Tile.endDrain (t : Tile) (free : Bool) : Tile :=
  { t with work := t.work - 1, state := if t.work ≤ 1 then (if free then .empty else .ready) else t.state }

/-- The destination and source tiles of an entry. -/
def EngineWork.tiles : EngineWork → Option Nat × Option Nat
  | .cpy d a _ _ _ => (some d, some a)
  | .cpyg t store .. => if store then (none, some t) else (some t, none)
  | .coll _ _ t => (t, none)
  | .marker .. => (none, none)

/-- Discards an entry of a stopped queue (R233). DEDUCED (log 113): a collective among them ends without a SIGNAL update. -/
def State.discardEntry (s : State) (g cause : Nat) (addr : DWord) (e : EngineEntry) : State :=
  let s1 := match e.work.tiles.1 with
    | some n => s.modTile g n fun t => { t with state := .empty, err := true, errCause := cause, errAddr := addr
                                                work := t.work - 1, fresh := false }
    | none => s
  let s2 := match e.work.tiles.2 with
    | some n => s1.modTile g n fun t => { t with state := .ready, work := t.work - 1 }
    | none => s1
  match e.work with
  | .coll h r _ =>
    let ctx := s.wgCtx g
    ({ s2 with collIn := s2.collIn.filter fun c => !(c.ctx == ctx && c.handle == h && c.round == r) } : State).modCtx ctx fun c => { c with
      handles := Store.set {} c.handles h { Store.get {} c.handles h with posted := (Store.get ({} : Handle) c.handles h).posted - 1 } }
  | _ => s2

/-- Counts chunks of a copy, and their accesses of 32 bytes inside the core: `n` of each (R437, R448). -/
def State.countChunks (s : State) (g n chunks : Nat) : State :=
  let core := (s.wg g).core
  (s.countCore (s.wgCtx g) core 0x107 chunks).addWork core { sr := n * chunks }

/-- COPY_FAULT: the queue stops, and its entry and all later ones go (R233). -/
def State.copyFault (s : State) (g q cause : Nat) (addr : DWord) : State :=
  let l := s.engine g q
  let n := (l.head?.map (s.chunksDone g)).getD 0
  (((l.foldl (fun s e => s.discardEntry g cause addr e) (s.countChunks g 4 n)).modEngine g q fun _ => []).kickAll g).checkRetire g

/-! ### ENGINE_ENTRY_START (R227, R228, R295) -/

/-- Whether a marker has been passed by every queue it names (R228). -/
def State.markerDone (s : State) (g id mask : Nat) : Bool :=
  (List.range 8).all fun q => mask / 2 ^ q % 2 == 0 || (s.engine g q).all fun e => decide (e.id ≥ id)

/-- Whether an entry reads global memory, so that its posting is a release at DEVICE scope (R287): a copy that loads, and a
collective, which reads its descriptor there. -/
def EngineWork.globalSource : EngineWork → Bool
  | .cpyg _ store .. => !store
  | .coll .. => true
  | _ => false

/-- Starts the head of a queue when its warp's earlier stores, atomics and acquires have been performed and its buffers are zeroed (R54,
R287, R295). A copy that was stopped goes on from its chunk (R247). -/
def State.startEntry (s : State) (g q : Nat) : State :=
  match s.engine g q with
  | [] => s
  | e :: _ =>
    if e.started || (s.wg g).engHalt || (s.wg g).out || (s.wg g).stopping then s
    else match e.work with
      | .marker id mask => if s.markerDone g id mask then s.popHead g q else s
      | w =>
        let late := (s.warp e.wid).wg == g && (s.warp e.wid).log.any fun l => decide (l.id < e.id) && (l.op.isStore || l.op.isRmw || l.op.acq)
        let clean := [w.tiles.1, w.tiles.2].all fun t => match t with
          | some n => s.tileClean g n
          | none => true
        if late || !clean then s.soon (.engineEntryStart g q)
        else
          let core := (s.wg g).core
          let s1 := if w.globalSource then (s.l1Release core).countL2Core s (s.wgCtx g) core else s
          (s1.modHead g q fun e => { e with started := true, since := s.cycle core }).notBefore (s.cycles core (s.chunks g w - e.chunk))
            (e.finish g q)

/-- Stops the copies of a workgroup after their current chunk, whose index stays with the entry (R247). -/
def State.stopCopies (s : State) (g : Nat) : State :=
  let core := (s.wg g).core
  s.modWg g fun x => { x with queues := Store.mapVals [] x.queues fun _ l => l.map fun e =>
    if e.started then { e with started := false, chunk := min (s.chunks g e.work) (e.chunk + (s.cycle core - e.since) + 1) } else e }

/-- ENGINE_ENTRY_START. -/
def execEngineEntryStart (wg q : Nat) (s : State) : Out := .next (s.startEntry wg q)

/-! ### Copies inside the core (R229 to R231) -/

/-- A generator of a queue (R231). -/
def State.queueGen (s : State) (g q t : Nat) : Word :=
  Store.get (lfsrSeed (s.wg g).seed (0x40000000 + ((s.wg g).core * 8 + q) * 96 + t)) (s.wg g).lfsr (q * 96 + t)
def State.setQueueGen (s : State) (g q t : Nat) (v : Word) : State :=
  s.modWg g fun h => { h with lfsr := Store.insert h.lfsr (q * 96 + t) v }

/-- Reads an element, once a free prefix of unordered MMA steps has been applied (R236). -/
def State.readElem (s : State) (g n r c : Nat) : Nat × State :=
  let t := s.tile g n
  let s1 := if t.kind = .acc then s.settled (s.wg g).core ((s.accOf g t.lacc).getD 0) r (t.base + c) else s
  (s1.tileElem g n r c, s1)
/-- Writes an element likewise. -/
def State.writeElem (s : State) (g n r c v : Nat) : State :=
  let t := s.tile g n
  (if t.kind = .acc then s.settled (s.wg g).core ((s.accOf g t.lacc).getD 0) r (t.base + c) else s).setElem g n r c v

/-- Zeroes a tile. -/
def State.zeroTile (s : State) (g n : Nat) : State :=
  let t := s.tile g n
  let s1 := (List.range t.rows).foldl (fun s r => (List.range t.cols).foldl (fun s c => s.writeElem g n r c 0) s) s
  if t.tag = 9 then (List.range t.rows).foldl (fun s r => (List.range (t.cols / 32)).foldl (fun s b => s.setBlock g n r b 0) s) s1 else s1

/-- The zeroing that the first use of an accumulator brings (R53). -/
def State.openTile (s : State) (g n : Nat) : State :=
  let t := s.tile g n
  if t.kind = .acc then s.touchAcc g ((s.accOf g t.lacc).getD 0) else s

/-- The same with the zeroing that a fill of an EMPTY tile brings (R224). -/
def State.openFill (s : State) (g n : Nat) : State :=
  let t := s.tile g n
  let s1 := s.openTile g n
  if t.fresh then (s1.zeroTile g n).modTile g n fun t => { t with fresh := false } else s1

/-- One converted element (R230): the new bits, and the generator when it has stepped. DESIGN CHOICE (log 101): I32 to I8X4 with SAT
clamps to the signed range, -128 to 127. -/
def copyElem (src dst : Nat) (mode : BitVec 11) (gen : Word) (v : Nat) : Nat × Word :=
  if src = dst ∨ src = 1 ∨ dst = 1 then (v, gen)
  else if src = 2 then
    let x := toSigned 32 v
    ((if modeSat mode then max (-128) (min 127 x) else x) % 256 |>.toNat, gen)
  else if dst = 4 then
    let f := if src = 5 then Fmt.bf16 else Fmt.fp16
    let x := f.input (modeFtz mode) v
    ((Fmt.fp32.deliver .rne false false x false).bits, gen)
  else
    let f := if dst = 5 then Fmt.bf16 else if dst = 6 then Fmt.fp16 else if dst = 7 then Fmt.e4m3 else Fmt.e5m2
    let x := Fmt.fp32.input (modeFtz mode) v
    let r := drawn (modeSr mode) gen (modeField mode) fun md => f.deliver md (modeFtz mode) (modeSat mode) x false
    (r.1.bits, r.2)

/-- Copies one row. -/
def State.copyRow (s : State) (g q d a r0 c0 r : Nat) (mode : BitVec 11) : State :=
  let ta := s.tile g a
  let td := s.tile g d
  if ta.tag = 4 ∧ td.tag = 9 then
    (List.range (ta.cols / 32)).foldl (fun s b =>
      let xs := (List.range 32).foldl (fun (p : List Val × State) i =>
        let v := p.2.readElem g a r (32 * b + i)
        (p.1 ++ [Fmt.fp32.input (modeFtz mode) v.1], v.2)) ([], s)
      let k := qntBlock (modeSat mode) xs.1
      (k.codes.zipIdx.foldl (fun s e => s.writeElem g d (r0 + r) (c0 + 32 * b + e.2) e.1) xs.2).setBlock g d (r0 + r) (c0 / 32 + b)
        (k.scale + 256 * k.special)) s
  else
    let s1 := (List.range ta.cols).foldl (fun s c =>
      let v := s.readElem g a r c
      let e := copyElem ta.tag td.tag mode (v.2.queueGen g q (r % 96)) v.1
      let s2 := if e.2 = v.2.queueGen g q (r % 96) then v.2 else v.2.setQueueGen g q (r % 96) e.2
      s2.writeElem g d (r0 + r) (c0 + c) e.1) s
    if ta.tag = 9 then
      (List.range (ta.cols / 32)).foldl (fun s b => s.setBlock g d (r0 + r) (c0 / 32 + b) (s.tileBlock g a r b)) s1
    else s1

/-- Performs a CPY and ends it. -/
def State.runCpy (s : State) (g q d a r0 c0 : Nat) (free : Bool) (mode : BitVec 11) : State :=
  let ta := s.tile g a
  let s0 := if ta.kind = .acc then s.touchAcc g ((s.accOf g ta.lacc).getD 0) else s
  let s1 := (List.range ta.rows).foldl (fun s r => s.copyRow g q d a r0 c0 r mode) (s0.openFill g d)
  let n := s.chunks g (.cpy d a r0 c0 free)
  (((s1.modTile g d Tile.endFill).modTile g a fun t => t.endDrain free).countChunks g 8 n).popHead g q

/-! ### Copies to and from global memory (R232) -/

/-- A piece of a tile in global memory: an element, a pair of E2M1X codes, or a block's two bytes. -/
structure Piece where
  at' : Span
  r : Nat
  c : Nat
  blk : Bool := false
  deriving DecidableEq, Repr

/-- The pieces of a tile in row order (R232). -/
def Tile.pieces (t : Tile) (trans : Bool) (base pitch bpoff : Nat) : List Piece :=
  let ad := fun (x n : Nat) => ({ va := x % 2 ^ 64, len := n } : Span)
  if t.tag = 9 then
    (List.range t.rows).flatMap fun r =>
      ((List.range (t.cols / 2)).map fun j => ({ at' := ad (base + r * pitch + j) 1, r := r, c := 2 * j } : Piece))
        ++ (List.range (t.cols / 32)).map fun b =>
          ({ at' := ad (base + bpoff + r * (pitch / 8) + 2 * b) 2, r := r, c := b, blk := true } : Piece)
  else
    let sz := tagNibs t.tag / 2
    (List.range t.rows).flatMap fun r => (List.range t.cols).map fun c =>
      ({ at' := ad (if trans then base + c * pitch + r * sz else base + r * pitch + c * sz) sz, r := r, c := c } : Piece)

/-- The bytes of a piece as the tile holds them. -/
def State.pieceRead (s : State) (g n : Nat) (p : Piece) : List Byte × State :=
  let tag := (s.tile g n).tag
  if p.blk then (leBytes 2 (s.tileBlock g n p.r p.c), s)
  else if tag = 9 then (leBytes 1 (s.tileElem g n p.r p.c + 16 * s.tileElem g n p.r (p.c + 1)), s)
  else
    let v := s.readElem g n p.r p.c
    (leBytes p.at'.len v.1, v.2)
/-- Writes a piece into the tile. -/
def State.pieceWrite (s : State) (g n : Nat) (p : Piece) (bs : List Byte) : State :=
  let v := leNat bs
  if p.blk then s.setBlock g n p.r p.c v
  else if (s.tile g n).tag = 9 then (s.writeElem g n p.r p.c (v % 16)).writeElem g n p.r (p.c + 1) (v / 16)
  else s.writeElem g n p.r p.c v

/-- Poison that an engine would read resets the partition (R336). -/
def State.enginePoison (s : State) (g : Nat) : State :=
  match s.partOf (s.wgCtx g) with
  | some p => s.causeReset p 2
  | none => s

/-- A CPYG that loads. -/
def State.runLoad (s : State) (g q n : Nat) (e : EngineEntry) (xs : List Piece) (ps : List PageAt) : State :=
  let core := (s.wg g).core
  let spans := xs.map Piece.at'
  if s.dirtyFrame ps then s.soon (.copyComplete g q)
  else
    let m := s.missing ps e.got spans
    if !m.isEmpty then
      if e.out ≠ 0 then s
      else m.foldl (fun s l => s.askLine (s.wgCtx g) core (.engine g q) ps l) (s.modHead g q fun e => { e with out := m.length })
    else if s.spansPoisoned ps spans then s.enginePoison g
    else
      let s0 := s.touchLines (s.wgCtx g) core ps spans
      let s1 := xs.foldl (fun s p => s.pieceWrite g n p (s.spanBytes ps e.got p.at')) (s0.openFill g n)
      ((s1.modTile g n Tile.endFill).countChunks g 4 (s.chunks g e.work)).popHead g q

/-- What a store writes: the runs in piece order. -/
def State.storeRuns (s : State) (g n : Nat) (xs : List Piece) : List (Nat × List Byte) × State :=
  xs.foldl (fun (r : List (Nat × List Byte) × State) p =>
    let v := r.2.pieceRead g n p
    (r.1 ++ [(p.at'.va, v.1)], v.2)) ([], s)

/-- A CPYG that stores. -/
def State.runStore (s : State) (g q n : Nat) (e : EngineEntry) (free : Bool) (xs : List Piece) (ps : List PageAt) : State :=
  let core := (s.wg g).core
  if s.dirtyFrame ps then s.soon (.copyComplete g q)
  else if e.asked && e.out != 0 then s
  else
    let r := s.storeRuns g n xs
    let away := r.2.awayRuns ps r.1
    if !e.asked && !away.isEmpty then
      away.foldl (fun s x => s.sendRun (s.wgCtx g) core (.engine g q) ps x)
        ((r.2.putRuns (s.wgCtx g) core ps r.1).modHead g q fun e => { e with asked := true, out := away.length })
    else
      let s1 := if e.asked then s else r.2.putRuns (s.wgCtx g) core ps r.1
      ((s1.modTile g n fun t => t.endDrain free).countChunks g 4 (s.chunks g e.work)).popHead g q

/-- A fault of a store leaves any number of the pieces before it stored. -/
def State.partStore (s : State) (ctx g n va : Nat) (xs : List Piece) : State :=
  let before := xs.takeWhile fun p => p.at'.va != va
  let k := s.choose (before.length + 1)
  let ys := before.take k.1
  match k.2.reach (some (s.wg g).core) ctx .write (pageStarts (ys.map Piece.at')) [] with
  | .ok ps s1 =>
    let r := s1.storeRuns g n ys
    r.2.putRuns (s.wgCtx g) (s.wg g).core ps r.1
  | _ => k.2

/-- COPY_COMPLETE for the head of a queue. -/
def State.completeCopy (s : State) (g q : Nat) : State :=
  match s.engine g q with
  | [] => s
  | e :: _ =>
    if !e.started || e.waitRec.isSome then s
    else if (s.wg g).engHalt then s.soon (.copyComplete g q)
    else match e.work with
      | .cpy d a r c free => s.runCpy g q d a r c free e.mode
      | .cpyg n store free tr base pitch bpoff =>
        let xs := (s.tile g n).pieces tr base.toNat pitch bpoff
        let ctx := s.wgCtx g
        match e.refused with
        | some (c, a) => ((if store then s.partStore ctx g n a.toNat xs else s)).copyFault g q c a
        | none =>
          match s.reach (some (s.wg g).core) ctx (if store then .write else .read) (pageStarts (xs.map Piece.at')) [] with
          | .fault c va s1 => ((if store then s1.partStore ctx g n va xs else s1)).copyFault g q c (BitVec.ofNat 64 va)
          | .wait p i va s1 => s1.headWaits g q p i va
          | .ok ps s1 => if store then s1.runStore g q n e free xs ps else s1.runLoad g q n e xs ps
      | _ => s

/-- COPY_COMPLETE. -/
def execCopyComplete (wg q : Nat) (s : State) : Out := .next (s.completeCopy wg q)

/-! ### The matrix engine (R235 to R237, R247) -/

/-- Whether two MMAs cover a common column of one accumulator tile. -/
def State.mmaMeet (s : State) (a b : Mma) : Bool :=
  let x := s.mmaArea a
  let y := s.mmaArea b
  x.1 == y.1 && decide (x.2.1 < y.2.1 + y.2.2 ∧ y.2.1 < x.2.1 + x.2.2)

/-- Whether an MMA may run beside those that run. -/
def State.mmaFits (s : State) (core : Nat) (m : Mma) : Bool :=
  let run := (s.core core).mmas.filter fun x => x.running
  decide ((run.map fun x => (s.mmaArea x).2.2).sum + (s.mmaArea m).2.2 ≤ 192) && !run.any fun x => s.mmaMeet x m

/-- Starts the MMAs of a core in order, up to the first that must wait (R235). -/
def State.startMmas (s : State) (core : Nat) : State :=
  ((s.core core).mmas.foldl (fun (r : State × Bool) m =>
    if m.running || !r.2 then r
    else if m.due && r.1.mmaFits core m && !(r.1.wg m.wg).engHalt && !(r.1.wg m.wg).stopping && r.1.tileClean m.wg m.a
        && r.1.tileClean m.wg m.b then
      ((r.1.modCore core fun k => { k with
          mmas := k.mmas.map fun x => if x.id = m.id then { x with running := true, since := s.cycle core } else x }).after
        (max 1 (r.1.cycles core (128 - m.step))) (.mmaComplete core m.id), true)
    else (r.1, false)) (s, true)).1

/-- MMA_START (R235). -/
def execMmaStart (core id : Nat) (s : State) : Out :=
  .next ((s.modCore core fun k => { k with mmas := k.mmas.map fun x => if x.id = id then { x with due := true } else x }).startMmas core)

/-- Applies the steps of an MMA to one element up to a count. -/
def State.finishElem (s : State) (core id r c k : Nat) : Nat → State
  | 0 => s
  | fuel + 1 =>
    match (s.core core).mmas.find? fun x => x.id == id with
    | none => s
    | some m =>
      if m.done (accKey (s.mmaArea m).1 r c) < k then (s.kStep core m r c).finishElem core id r c k fuel else s

/-- Applies the steps of an MMA to every element up to a count. -/
def State.finishMma (s : State) (core : Nat) (m : Mma) (k : Nat) : State :=
  let a := s.mmaArea m
  (List.range 96).foldl (fun s r => (List.range a.2.2).foldl (fun s i => s.finishElem core m.id r (a.2.1 + i) k 128) s) s

/-- The bits of a number that are one. -/
def onesIn (v : Nat) : Nat := ((List.range 32).filter fun i => v / 2 ^ i % 2 == 1).length

/-- What some K steps of an MMA count in the estimator: the operand bits that differ from the step before, of the first all that are one;
the products without a zero operand, in quarters; and the accesses that read the operands, 32 bytes each (R448; log 56). -/
def State.stepWork (s : State) (m : Mma) (k0 k1 : Nat) : PowerSample :=
  let tag := (s.tile m.wg m.a).tag
  let kd := kPer tag
  let row := fun (n r k : Nat) => (List.range kd).map fun d => s.tileElem m.wg n r (k * kd + d)
  let side := fun (n rows k : Nat) => (List.range rows).flatMap fun r => row n r k
  let zero := fun (v : Nat) => if tag = 11 then v == 0 else v % 2 ^ (4 * tagNibs tag - 1) == 0
  let cols := (s.mmaArea m).2.2
  let flips := fun (xs ys : List Nat) => ((xs.zip ys).map fun p => onesIn (p.1 ^^^ p.2)).sum
  (List.range (k1 - k0)).foldl (fun e i =>
    let k := k0 + i
    let a := side m.a 96 k
    let b := side m.b cols k
    let a0 := if i = 0 then a.map fun _ => 0 else side m.a 96 (k - 1)
    let b0 := if i = 0 then b.map fun _ => 0 else side m.b cols (k - 1)
    let products := ((List.range kd).map fun d => ((List.range 96).filter fun r => !zero (a.getD (r * kd + d) 0)).length *
      ((List.range cols).filter fun c => !zero (b.getD (c * kd + d) 0)).length).sum
    { e with t := e.t + flips a a0 + flips b b0, p4 := e.p4 + products * tagNibs tag
             sr := e.sr + ((96 + cols) * kd * tagNibs tag / 2 + 31) / 32 }) {}

/-- The progress counters of the blocks an MMA covers. -/
def State.setProg (s : State) (core : Nat) (m : Mma) (k : Nat) (held : Bool) : State :=
  let a := s.mmaArea m
  (List.range (a.2.2 / 32)).foldl (fun s b =>
    let key := a.1 * 6 + a.2.1 / 32 + b
    s.modCore core fun h => { h with prog := Store.set 0 h.prog key k, progHeld := Store.set false h.progHeld key held }) s

/-- An MMA has completed (R235): READERS and PEND fall. -/
def State.retireMma (s : State) (core : Nat) (m : Mma) : State :=
  let s1 := ((s.finishMma core m 128).setProg core m 0 false).modCore core fun k => { k with mmas := k.mmas.filter fun x => x.id != m.id }
  let s2 := ((s1.modTile m.wg m.a fun t => { t with readers := t.readers - 1 }).modTile m.wg m.b fun t =>
    { t with readers := t.readers - 1 }).modTile m.wg m.dst fun t => { t with mmas := t.mmas - 1 }
  ((s2.countCore (s.wgCtx m.wg) core 0x106 (128 - m.step)).addWork core (s.stepWork m m.step 128)).checkRetire m.wg
/-- It completes, and the MMAs behind it may start. -/
def State.endMma (s : State) (core : Nat) (m : Mma) : State := (s.retireMma core m).startMmas core

/-- The K step that a running MMA performs in this cycle: one for each cycle since it started (R235). -/
def Mma.current (m : Mma) (now : Nat) : Nat := m.step + (now - m.since)

/-- Stops the running MMAs of a workgroup after their current K step, or after the latest that an element has taken; the counters
hold the next step (R247, R264). One whose last step that is completes. -/
def State.stopMmas (s : State) (g : Nat) : State :=
  let core := (s.wg g).core
  (((s.core core).mmas.filter fun m => m.wg == g && m.running).foldl (fun s m =>
    let k : Nat := m.ahead.foldl (fun n e => max n e.2) (m.current (s.cycle core) + 1)
    let s0 := s.cancel fun e => e == .mmaComplete core m.id
    if k ≥ 128 then s0.retireMma core m
    else
      ((((s0.finishMma core m k).setProg core m k true).modCore core fun h => { h with
        mmas := h.mmas.map fun x => if x.id = m.id then { x with running := false, due := true, step := k, ahead := [] } else x }).countCore
          (s.wgCtx m.wg) core 0x106 (k - m.step)).addWork core (s.stepWork m m.step k)) s).startMmas core

/-- MMA_COMPLETE (R235); a stopped engine stops it at a K step (R264), and one that has steps left looks again when they have run
(R447). -/
def execMmaComplete (core id : Nat) (s : State) : Out :=
  .next (match (s.core core).mmas.find? fun x => x.id == id with
    | some m => if !m.running then s else
      let s1 := if (s.wg m.wg).engHalt then s.stopMmas m.wg else s
      match (s1.core core).mmas.find? fun x => x.id == id with
      | some k =>
        let left := 128 - k.current (s.cycle core)
        if !k.running then s1 else if left = 0 then s1.endMma core k else s1.after (max 1 (s.cycles core left)) (.mmaComplete core id)
      | none => s1
    | none => s)

/-! ### Collectives (R243 to R246, R416, R488) -/

/-- A collective descriptor (R243). -/
structure CollDesc where
  ctrl : Nat
  count : Nat
  buf : Nat
  resbuf : Nat
  gsize : Nat
  rank : Nat
  peers : Nat
  signal : Nat
  tail : Nat
  deriving DecidableEq, Repr

def CollDesc.op (d : CollDesc) : Nat := d.ctrl % 4
def CollDesc.wire (d : CollDesc) : Nat := d.ctrl / 4 % 8
def CollDesc.res (d : CollDesc) : Bool := d.ctrl / 32 % 2 == 1
def CollDesc.rz (d : CollDesc) : Bool := d.ctrl / 64 % 2 == 1

/-- The descriptor in 64 bytes. -/
def CollDesc.ofBytes (bs : List Byte) : CollDesc :=
  let f := fun (off n : Nat) => leNat ((bs.drop off).take n)
  { ctrl := f 0 4, count := f 4 4, buf := f 8 8, resbuf := f 16 8, gsize := f 24 4, rank := f 28 4, peers := f 32 8
    signal := f 40 8, tail := f 48 16 }

/-- The rules of R243 and R244, but for SIGNAL's. -/
def CollDesc.ok (d : CollDesc) (tile : Option Tile) : Bool :=
  d.op != 3 && decide (d.wire ≤ 4) && d.ctrl / 128 == 0 && decide (d.count ≥ 1) && d.resbuf % 128 == 0 && decide (d.resbuf < 2 ^ 49)
    && decide (1 ≤ d.gsize ∧ d.gsize ≤ 512) && decide (d.rank < d.gsize) && d.tail == 0
    && (match tile with
      | some t => t.rows * t.cols == d.count
      | none => d.buf % 128 == 0)
    && (if d.op = 0 then d.wire != 4 || d.count % 32 == 0 else d.count % (if d.wire = 4 then 32 * d.gsize else d.gsize) == 0)

/-- The elements that member i sends to member j: first and count (R244). -/
def CollDesc.part (d : CollDesc) (i j : Nat) : Nat × Nat :=
  let seg := d.count / d.gsize
  match d.op with
  | 0 => (0, d.count)
  | 1 => (j * seg, seg)
  | _ => (i * seg, seg)
/-- The elements a member contributes: for an all-gather its own segment. -/
def CollDesc.given (d : CollDesc) (i : Nat) : Nat × Nat := if d.op = 2 then d.part i i else (0, d.count)

/-- One element encoded for the wire and decoded again as FP32 (R245), for the formats but E2M1X. -/
def wireElem (wire : Nat) (v : Word) : Nat × Word :=
  if wire = 0 then (v.toNat, v)
  else
    let f := if wire = 1 then Fmt.bf16 else if wire = 2 then Fmt.e4m3 else Fmt.e5m2
    let x := Fmt.fp32.decode v.toNat
    let bits := if x.isInf then f.pack x.sign f.maxEnc else (f.deliver .rne false true x false).bits
    (bits, BitVec.ofNat 32 (Fmt.fp32.deliver .rne false false (f.decode bits) false).bits)

/-- The FP32 value of an E2M1X element: one beyond the range is the largest finite value (R245). -/
def wireX (scale special code : Nat) : Word := BitVec.ofNat 32 (Fmt.fp32.deliver .rne false true (e2m1xVal scale special code) false).bits

/-- Encodes elements: the element plane, the block plane, and the decoded values. -/
def encodeWire (wire : Nat) (vs : List Word) : List Nat × List Nat × List Word :=
  if wire = 4 then
    (List.range (vs.length / 32)).foldl (fun r b =>
      let k := qntBlock true (((vs.drop (32 * b)).take 32).map fun v => Fmt.fp32.decode v.toNat)
      (r.1 ++ k.codes, r.2.1 ++ [k.scale + 256 * k.special], r.2.2 ++ k.codes.map (wireX k.scale k.special))) ([], [], [])
  else (vs.map fun v => (wireElem wire v).1, [], vs.map fun v => (wireElem wire v).2)

/-- Bits of an element on the wire. -/
def wireBits (wire : Nat) : Nat := if wire = 0 then 32 else if wire = 1 then 16 else if wire = 4 then 4 else 8

/-- The wire image of elements [first, first + n) of a buffer of `count`: its byte ranges as (offset, length), the element
plane and, for E2M1X, the block plane behind it. -/
def wireRanges (wire count first n : Nat) : List (Nat × Nat) :=
  (first * wireBits wire / 8, n * wireBits wire / 8) :: if wire = 4 then [(count / 2 + first / 16, n / 16)] else []

/-- The bytes of the two planes. -/
def planeBytes (wire : Nat) (els blocks : List Nat) : List (List Byte) :=
  if wire = 4 then
    [(List.range (els.length / 2)).map fun i => BitVec.ofNat 8 (els.getD (2 * i) 0 + 16 * els.getD (2 * i + 1) 0),
      blocks.flatMap (leBytes 2)]
  else [els.flatMap (leBytes (wireBits wire / 8))]

/-- Cuts bytes at an offset into chunks of at most 128. -/
def cutChunks : Nat → Nat → List Byte → List (Nat × List Byte)
  | 0, _, _ => []
  | fuel + 1, off, bs => if bs.isEmpty then [] else (off, bs.take 128) :: cutChunks fuel (off + 128) (bs.drop 128)

/-- The bytes received from a member in a range, if all have come. -/
def recvRange (chunks : List CollChunk) (off n : Nat) : Option (List Byte) :=
  (List.range n).foldr (fun i acc => acc.bind fun l =>
    (chunks.find? fun c => decide (c.off ≤ off + i ∧ off + i < c.off + c.bytes.length)).map fun c =>
      c.bytes.getD (off + i - c.off) 0 :: l) (some [])

/-- Decodes a range of a member's elements from its received planes. -/
def decodeWire (wire n : Nat) (planes : List (List Byte)) : List Word :=
  let a := planes.getD 0 []
  if wire = 4 then
    let b := planes.getD 1 []
    (List.range n).map fun i =>
      let c := (a.getD (i / 2) 0).toNat / 16 ^ (i % 2) % 16
      wireX (b.getD (i / 32 * 2) 0).toNat (b.getD (i / 32 * 2 + 1) 0).toNat c
  else
    let k := wireBits wire / 8
    (List.range n).map fun i =>
      let v := leNat ((a.drop (k * i)).take k)
      if wire = 0 then BitVec.ofNat 32 v
      else
        let f := if wire = 1 then Fmt.bf16 else if wire = 2 then Fmt.e4m3 else Fmt.e5m2
        BitVec.ofNat 32 (Fmt.fp32.deliver .rne false false (f.decode v) false).bits

/-- FP32 addition and subtraction of R83 and R84. -/
def addF (a b : Word) : Word := BitVec.ofNat 32 (Fmt.fp32.addRes .rne false (Fmt.fp32.decode a.toNat) (Fmt.fp32.decode b.toNat)).bits
def subF (a b : Word) : Word := BitVec.ofNat 32 (Fmt.fp32.addRes .rne false (Fmt.fp32.decode a.toNat) (Fmt.fp32.decode b.toNat).neg).bits

/-- Words in little-endian bytes. -/
def coll32 (bs : List Byte) : List Word := (List.range (bs.length / 4)).map fun i => BitVec.ofNat 32 (leNat ((bs.drop (4 * i)).take 4))

/-- The end of a collective: its handle, its chunks, its tile, its queue. -/
def State.endColl (s : State) (g q h round : Nat) (tile : Option Nat) : State :=
  let ctx := s.wgCtx g
  let s1 : State := { s with collIn := s.collIn.filter fun c => !(c.ctx == ctx && c.handle == h && c.round == round) }
  let s2 := s1.modCtx ctx fun c =>
    let k := Store.get ({} : Handle) c.handles h
    { c with handles := Store.set {} c.handles h { k with posted := k.posted - 1 } }
  (match tile with
    | some n => s2.modTile g n Tile.endFill
    | none => s2).popHead g q

/-- The SIGNAL update (R246): none where SIGNAL is misaligned or refused. -/
def State.signalColl (s : State) (g ctx sig n : Nat) (refused : Bool) (ps : List PageAt) : State :=
  if sig % 4 ≠ 0 ∨ refused then s
  else match byteAt ps sig with
    | some pa => s.l2SetNum pa 4 ((s.l2Num pa 4 + n) % 2 ^ 32)
    | none =>
      match localVa sig with
      | none => if s.lostByte sig then s else s.askPeer (s.wg g).core ctx (sig / 2 ^ 40 % 512) (sig % 2 ^ 40) 6 0 0 4 (leBytes 4 n) postedLink
      | some a =>
        let k := s.fresh
        let p := s.partNum ctx
        let pa := ((ps.find? fun p => p.page == a / 8192).map fun p => p.pa + a % 8192).getD 0
        { k.2 with hocpOut := k.2.hocpOut ++ [.sysAtom k.1 (BitVec.ofNat 64 pa) 0 (leBytes 4 n) p ((s.part p).field 22 2)] }

/-- A collective fails (R246): the buffer keeps its old values. -/
def State.failColl (s : State) (g q h round : Nat) (tile : Option Nat) (sig : Option Nat) (refused : Bool) : State :=
  let ctx := s.wgCtx g
  match sig with
  | none => s.endColl g q h round tile
  | some a =>
    if a % 4 ≠ 0 ∨ refused then s.endColl g q h round tile
    else match s.reach (some (s.wg g).core) ctx .atomic [a] [] with
      | .ok ps s1 => (s1.signalColl g ctx a 0x10000 false ps).endColl g q h round tile
      | .fault _ _ s1 => s1.endColl g q h round tile
      | .wait p i va s1 => s1.headWaits g q p i va

/-- Sends a member's chunks to the others (R416). -/
def State.sendColl (s : State) (g q h round : Nat) (d : CollDesc) (peers : List Nat) (vals : List Word) : State :=
  let ctx := s.wgCtx g
  let core := (s.wg g).core
  (List.range d.gsize).foldl (fun s j =>
    if j = d.rank then s
    else
      let pt := d.part d.rank j
      let e := encodeWire d.wire ((vals.drop (pt.1 - (d.given d.rank).1)).take pt.2)
      let planes := planeBytes d.wire e.1 e.2.1
      ((wireRanges d.wire d.count pt.1 pt.2).zip planes).foldl (fun s r =>
        (cutChunks (r.2.length + 1) r.1.1 r.2).foldl (fun s c =>
          let ten := match s.partOf ctx with
            | some p => (s.part p).field 22 2
            | none => 0
          let x : Txn := { typ := 20, src := s.fabid, dst := peers.getD j 0, plane := s.planeOf s.fabid (peers.getD j 0) c.1, seq := 0
                           addr := c.1, ten := ten, ctx := ctx, aux := h, op := round, len := c.2.length, tidx := 0, resent := false
                           last := false, payload := c.2 }
          s.request { core := core, link := .engine g q, x := x }) s) s) s

/-- What a collective reads of global memory: asks for what is missing; none while it waits; else a cause and an address. -/
def State.collGather (s : State) (g q : Nat) (e : EngineEntry) (xs : List Span) :
    (Option (List (List Byte)) × State) ⊕ (Nat × Nat × State) :=
  let ctx := s.wgCtx g
  match s.reach (some (s.wg g).core) ctx .read (pageStarts xs) [] with
  | .fault c va s1 => .inr (c, va, s1)
  | .wait p i va s1 => .inl (none, s1.headWaits g q p i va)
  | .ok ps s1 =>
    if s1.dirtyFrame ps then .inl (none, s1.soon (.collComplete g q))
    else
      let m := s1.missing ps e.got xs
      if !m.isEmpty then
        .inl (none, if e.out ≠ 0 then s1
          else m.foldl (fun s l => s.askLine ctx (s.wg g).core (.engine g q) ps l) (s1.modHead g q fun e => { e with out := m.length }))
      else if s1.spansPoisoned ps xs then .inl (none, s1.enginePoison g)
      else .inl (some (xs.map fun x => s1.spanBytes ps e.got x), s1.touchLines ctx (s.wg g).core ps xs)

/-- The buffer of a member: its tile's elements or its bytes in memory. -/
def State.tileWords (s : State) (g n : Nat) : List Word × State :=
  let t := s.tile g n
  (List.range t.rows).foldl (fun r i => (List.range t.cols).foldl (fun (r : List Word × State) c =>
    let v := r.2.readElem g n i c
    (r.1 ++ [BitVec.ofNat 32 v.1], v.2)) r) ([], s)

/-- Whether bytes lie on a page of the control node, and so not in this device's memory (R243). -/
def State.onSys (s : State) (g : Nat) (x : Span) : Bool :=
  match s.reach (some (s.wg g).core) (s.wgCtx g) .read (pageStarts [x]) [] with
  | .ok ps _ => ps.any PageAt.sys
  | _ => false

/-- A member's contribution is taken, encoded and sent, once (R245, R488). With RZ the first COLL of a handle zeroes the whole residual
buffer (R243), which the new residual then covers. -/
def State.giveColl (s : State) (g q h round : Nat) (d : CollDesc) (peers : List Nat) (xs rs : List Word) : State :=
  let ctx := s.wgCtx g
  let hd := Store.get ({} : Handle) (s.ctx ctx).handles h
  let pt := d.given d.rank
  let c := (xs.drop pt.1).take pt.2
  let r := if d.rz && !hd.first then List.replicate c.length 0 else (rs.drop pt.1).take pt.2
  let vals := if d.res then (c.zip r).map fun p => addF p.1 p.2 else c
  let e := encodeWire d.wire vals
  let new := (vals.zip e.2.2).map fun p => subF p.1 p.2
  let all := if d.rz && !hd.first then List.replicate pt.1 0 ++ new ++ List.replicate (d.count - pt.1 - pt.2) 0 else new
  (((s.sendColl g q h round d peers vals).modCtx ctx fun c => { c with
    handles := Store.set {} c.handles h { Store.get {} c.handles h with first := true } }).modHead g q fun x =>
      { x with asked := true, own := e.2.2, res := all }).soon (.collComplete g q)

/-- The decoded contribution of every member over the elements this member needs, if all have come. -/
def State.collect (s : State) (ctx h round : Nat) (d : CollDesc) (peers : List Nat) (own : List Word) : Option (List (List Word)) :=
  (List.range d.gsize).foldr (fun i acc => acc.bind fun l =>
    let pt := d.part i d.rank
    if i = d.rank then some (((own.drop (pt.1 - (d.given i).1)).take pt.2) :: l)
    else
      let cs := s.collIn.filter fun c => c.ctx == ctx && c.handle == h && c.round == round && c.src == peers.getD i 0
      ((wireRanges d.wire d.count pt.1 pt.2).foldr (fun r a => a.bind fun ps => (recvRange cs r.1 r.2).map fun b => b :: ps) (some [])).map
        fun ps => decodeWire d.wire pt.2 ps :: l) (some [])

/-- The elements a member's buffer receives: first element and values (R83, R244). -/
def collResult (d : CollDesc) (ds : List (List Word)) : Nat × List Word :=
  let sum := fun (k : Nat) => match ds with
    | [] => 0
    | x :: rest => rest.foldl (fun a y => addF a (y.getD k 0)) (x.getD k 0)
  match d.op with
  | 0 => (0, (List.range d.count).map sum)
  | 1 => ((d.part 0 d.rank).1, (List.range (d.part 0 d.rank).2).map sum)
  | _ => (0, ds.flatten)

/-- Signals a collective whose results are written, and ends it (R246): none where SIGNAL breaks R243 or is refused. -/
def State.finishColl (s : State) (g q h round : Nat) (tile : Option Nat) (sig : Nat) (noSig : Bool) : State :=
  let ctx := s.wgCtx g
  match (if sig % 4 ≠ 0 ∨ noSig then Reach.fault 0 0 s else s.reach (some (s.wg g).core) ctx .atomic [sig] []) with
  | .wait p i va s1 => s1.headWaits g q p i va
  | .fault _ _ s1 => s1.endColl g q h round tile
  | .ok ps s1 =>
    if s1.dirtyFrame ps then s1.soon (.collComplete g q) else (s1.signalColl g ctx sig 1 false ps).endColl g q h round tile

/-- The runs that a collective writes to memory: its result, unless a tile takes it, and its residual (R84, R244). -/
def CollDesc.runs (d : CollDesc) (tile : Option Nat) (res : Nat × List Word) (new : List Word) : List (Nat × List Byte) × List (Nat × List Byte) :=
  let r0 := if new.length = d.count then 0 else (d.given d.rank).1
  (if tile.isSome then [] else res.2.zipIdx.map fun p => (d.buf + 4 * (res.1 + p.2), leBytes 4 p.1.toNat),
    if d.res then new.zipIdx.map fun p => (d.resbuf + 4 * (r0 + p.2), leBytes 4 p.1.toNat) else [])

/-- Writes a collective's results and residual (R84, R245), with the runs that go elsewhere, whose answers it awaits. -/
def State.writeColl (s : State) (g q : Nat) (tile : Option Nat) (res : Nat × List Word) (ps : List PageAt)
    (runs : List (Nat × List Byte) × List (Nat × List Byte)) : List (Nat × List Byte) × State :=
  let core := (s.wg g).core
  let s1 := s.putRuns (s.wgCtx g) core ps (runs.1 ++ runs.2)
  let away := s1.awayRuns ps runs.1
  let s2 := away.foldl (fun s x => s.sendRun (s.wgCtx g) core (.engine g q) ps x) (s1.modHead g q fun x => { x with stored := true, out := away.length })
  (away, match tile with
    | some n =>
      let cols := (s.tile g n).cols
      res.2.zipIdx.foldl (fun (s : State) (p : Word × Nat) => s.writeElem g n ((res.1 + p.2) / cols) ((res.1 + p.2) % cols) p.1.toNat) (s2.openFill g n)
    | none => s2)

/-- Writes the results of a collective, and signals it once they stand where they belong (R246). -/
def State.performColl (s : State) (g q h round : Nat) (tile : Option Nat) (d : CollDesc) (e : EngineEntry) (ds : List (List Word)) : State :=
  let ctx := s.wgCtx g
  let res := collResult d ds
  let runs := d.runs tile res e.res
  let spans := (runs.1 ++ runs.2).map fun r => ({ va := r.1, len := 4 } : Span)
  match s.reach (some (s.wg g).core) ctx .write (pageStarts spans) [] with
  | .fault c va s1 => s1.copyFault g q c (BitVec.ofNat 64 va)
  | .wait p i va s1 => s1.headWaits g q p i va
  | .ok ps s1 =>
    if s1.dirtyFrame ps then s1.soon (.collComplete g q)
    else
      let r := s1.writeColl g q tile res ps runs
      if r.1.isEmpty then r.2.finishColl g q h round tile d.signal false else r.2

/-- COLL_COMPLETE for the head of a queue: the collective goes as far as it can. A descriptor that breaks R243 fails it, with the
SIGNAL update of R246 at the address that the descriptor names; an access that is refused is an engine fault, which stops the queue
(R233). -/
def State.completeColl (s : State) (g q h round : Nat) (tile : Option Nat) (e : EngineEntry) : State :=
  let ctx := s.wgCtx g
  let desc := (Store.get ({} : Handle) (s.ctx ctx).handles h).desc.toNat
  let stop := fun (s : State) (c va : Nat) => s.copyFault g q c (BitVec.ofNat 64 va)
  match e.refused.filter fun r => r.2.toNat / 8192 == desc / 8192 with
  | some r => stop s r.1 r.2.toNat
  | none =>
    match s.collGather g q e [{ va := desc, len := 64 }] with
    | .inr (c, va, s1) => stop s1 c va
    | .inl (none, s1) => s1
    | .inl (some bs, s1) =>
      let d := CollDesc.ofBytes (bs.headD [])
      let noSig := e.refused.any fun r => r.2.toNat == d.signal
      let fail := fun (s : State) => s.failColl g q h round tile (some d.signal) noSig
      match e.refused.filter fun r => r.2.toNat != d.signal with
      | some r => stop s1 r.1 r.2.toNat
      | none =>
        if e.stored then (if e.out ≠ 0 then s1 else s1.finishColl g q h round tile d.signal noSig)
        else if decide (desc % 64 ≠ 0) || !d.ok (tile.map fun n => s.tile g n) then fail s1
        else match s1.collGather g q e [{ va := d.peers, len := 2 * d.gsize }] with
          | .inr (c, va, s2) => stop s2 c va
          | .inl (none, s2) => s2
          | .inl (some ps, s2) =>
            let peers := (List.range d.gsize).map fun i => leNat (((ps.headD []).drop (2 * i)).take 2)
            let resbuf : Span := { va := d.resbuf, len := 4 * d.count }
            if (peers.zipIdx.any fun p => p.2 != d.rank && Store.get false s.lost p.1) || (d.res && s2.onSys g resbuf) then fail s2
            else if !e.asked then
              let want := (if tile.isSome then [] else [({ va := d.buf, len := 4 * d.count } : Span)]) ++ if d.res then [resbuf] else []
              match s2.collGather g q e want with
              | .inr (c, va, s3) => stop s3 c va
              | .inl (none, s3) => s3
              | .inl (some ds, s3) =>
                match tile with
                | some n =>
                  -- the buffer as it is: what an EMPTY tile lacks is zeroed at completion (R224)
                  let t := (s3.openTile g n).tileWords g n
                  t.2.giveColl g q h round d peers t.1 (coll32 (ds.getD 0 []))
                | none => s3.giveColl g q h round d peers (coll32 (ds.getD 0 [])) (coll32 (ds.getD 1 []))
            else match s2.collect ctx h round d peers e.own with
              | none => s2
              | some ds => s2.performColl g q h round tile d e ds

/-- COLL_COMPLETE. -/
def execCollComplete (wg q : Nat) (s : State) : Out :=
  .next (match s.engine wg q with
    | e :: _ =>
      if !e.started || e.waitRec.isSome then s
      else if (s.wg wg).engHalt then s.soon (.collComplete wg q)
      else match e.work with
        | .coll h r t => s.completeColl wg q h r t e
        | _ => s
    | [] => s)

/-- Tries every collective of a context that has started, after data have come or a peer is lost. -/
def State.pokeColls (s : State) (p : Nat → Bool) : State :=
  s.wgs.foldl (fun s w => if p (s.wgCtx w.1) then (List.range 8).foldl (fun s q =>
    match s.engine w.1 q with
    | e :: _ => (match e.work with
      | .coll .. => if e.started && e.waitRec.isNone then s.soon (.collComplete w.1 q) else s
      | _ => s)
    | [] => s) s else s) s

end Sys2Proof.Machine
end

