-- ==== Sys2Proof/Machine/Answer.lean ====
section
/-! DEFINITION. How a request to another device or to the control node ends at what waits for it (R276, R298, R316, R323, R327,
R501), and the ticket tables (R323 to R327, R414). -/

namespace Sys2Proof.Machine

/-- How a request ends. -/
inductive Answer where
  | data (bs : List Byte)
  | done
  | refuse (cause : Nat)
  /-- The peer is declared lost (R298). -/
  | lost
  deriving DecidableEq, Repr

/-- The data words a thread receives from the bytes of an answer. -/
def MemOp.wordsOf (op : MemOp) (bs : List Byte) : List Word :=
  match op.kind with
  | .load sg => loadWords sg op.bytes op.total (leNat bs)
  | _ => natWords (op.total / 4) (leNat bs)

/-- An answer of a log entry has been taken: the entry may be over, what it held back may replay, and a refusal may be due
(R316, R318, R319). -/
def State.answered (s : State) (w lid : Nat) : State := ((s.settleEntry w lid).replayWarp w).overdue w

/-- Takes a thread off those of an entry that await an answer. -/
def State.laneEnds (s : State) (w lid t : Nat) : State :=
  (s.modWarp w fun x => { x with log := x.log.map fun e => if e.id = lid then { e with out := e.out.filter fun l => l.t != t } else e }).answered
    w lid

/-- The data of a thread come, with the reports of memory, and show their value to the watches (R254, R334). No word of the warp is
issuing, so that a halt of the warp finds it at a word boundary, as in a replay (R500; log 83); a thread that a ticket's replay
performs halts its warp whole. -/
def State.laneData (s : State) (w : Nat) (e : LogEntry) (l : Lane) (ws : List Word) (po : List Bool) (replay : Bool) : State :=
  let s1 := s.arrive w e.op l.t ws po
  let q := s1.presentAll (s1.bank w) w l.t e.op.pc (e.op.valueShows l ws)
  let s2 := if q.2.1 = 2 ∧ !replay then q.1.haltThread w l.t 1 q.2.2 ((q.1.warp w).nextPc l.t)
    else if q.2.1 ≥ 2 then q.1.haltFor w q.2.1 q.2.2 0 false
    else q.1
  s2.laneEnds w e.id l.t

/-- Whether memory reports the words of an answer that came from the device's own index (R303, R334). -/
def State.ownReports (s : State) (w peer : Nat) (op : MemOp) (l : Lane) (n : Nat) : List Bool :=
  match (if peer = s.fabid ∧ l.addr.toNat ≥ 2 ^ 49 then s.plainWalk (s.ctxOf w) (l.addr.toNat % 2 ^ 40) .read else none) with
  | some pa => List.replicate n !(s.reportedUnits pa op.total).isEmpty
  | none => []

/-- A thread of a held word receives its answer; `replay`: of an access that a ticket held. -/
def State.laneAnswer (s : State) (w lid t peer : Nat) (a : Answer) (replay : Bool) : State :=
  match (s.warp w).log.find? fun e => e.id == lid with
  | none => s
  | some e =>
    match e.out.find? fun l => l.t == t with
    | none => s
    | some l =>
      let refuse := fun (s : State) (c : Nat) (addr : DWord) =>
        (s.modWarp w fun x => (x.hold e.op [l]).logPut { e with refused := e.refused ++ [(t, c, addr)] }).answered w lid
      match a with
      | .data bs =>
        let ws := e.op.wordsOf bs
        s.laneData w e l ws (s.ownReports w peer e.op l ws.length) (replay || l.again)
      | .done => s.laneEnds w lid t
      | .refuse c => refuse s c l.addr
      | .lost =>
        if e.op.isStore then s.laneEnds w lid t
        else if (s.ctx (s.ctxOf w)).pltrap then refuse s 0x13 (BitVec.ofNat 64 peer)
        else s.laneData w e l (loadWords (e.op.kind == .load true) e.op.bytes e.op.total (2 ^ (8 * e.op.total) - 1)) [] (replay || l.again)

/-- A drained write-combining entry is freed; a refused one leaves a fault for the next release (R281, R327, R501). -/
def State.wcAnswer (s : State) (core id : Nat) (a : Answer) : State :=
  match (s.core core).wc.find? fun e => e.id == id with
  | none => s
  | some e =>
    let s1 := s.modCore core fun c => { c with wc := c.wc.filter fun x => x.id != id }
    let first := ((List.range 128).find? fun i => e.mask.getLsbD i).getD 0
    let s2 := match a with
      | .refuse c => s1.modCtx e.ctx fun k => { k with
          wcFault := if k.wcFault.isSome then k.wcFault else some (c, BitVec.ofNat 64 (2 ^ 49 + e.peer * 2 ^ 40 + e.line * 128 + first)) }
      | _ => s1
    s2.wake fun w => w == .ready

/-- Bytes that have come, each plus 1, keyed by address. -/
def gotBytes (m : Store Nat) (addr : Nat) (bs : List Byte) : Store Nat :=
  bs.zipIdx.foldl (fun m b => Store.set 0 m (addr + b.2) (b.1.toNat + 1)) m

/-- What a request of an engine, a scarab or a copy brought. -/
def Answer.bytes : Answer → List Byte
  | .data bs => bs
  | _ => []
def Answer.cause : Answer → Option Nat
  | .refuse c => some c
  | _ => none

/-- The head of an engine queue receives an answer; it goes on when none is outstanding (R232). -/
def State.engineAnswer (s : State) (g q addr : Nat) (a : Answer) : State :=
  match s.engine g q with
  | [] => s
  | e :: _ =>
    let s1 := s.modHead g q fun e => { e with
      got := gotBytes e.got addr a.bytes, out := e.out - 1
      refused := (a.cause.map fun c => (c, BitVec.ofNat 64 addr)).or e.refused }
    if e.out = 1 then s1.soon (e.finish g q) else s1

/-- The packet at HEAD of a queue receives an answer. -/
def State.queueAnswer (s : State) (q addr : Nat) (a : Answer) : State :=
  let k := s.queue q
  if k.out = 0 then s
  else
    let s1 := s.modQueue q fun k => { k with
      got := gotBytes k.got addr a.bytes, out := k.out - 1, refused := k.refused || a.cause.isSome
      waitEv := if k.out = 1 then none else k.waitEv }
    match k.waitEv with
    | some ev => if k.out = 1 then s1.soon ev else s1
    | none => s1

/-- A running copy receives an answer. -/
def State.copyAnswer (s : State) (q run addr : Nat) (a : Answer) : State :=
  match (s.queue q).copies.find? fun c => c.run == run with
  | none => s
  | some c =>
    let s1 := s.modXCopy q run fun c => { c with
      got := gotBytes c.got addr a.bytes, out := c.out - 1, refused := c.refused || a.cause.isSome }
    if c.out = 1 then s1.soon (.xcopyComplete q run) else s1

/-- An answer reaches what its request was for. `addr` is the virtual address of the request. -/
def State.endRequest (s : State) (link : RemoteLink) (peer addr : Nat) (a : Answer) (replay : Bool := false) : State :=
  match link with
  | .lane w lid t => s.laneAnswer w lid t peer a replay
  | .wc core id => s.wcAnswer core id a
  | .engine g q => s.engineAnswer g q addr a
  | .queue q => s.queueAnswer q addr a
  | .xcopy q idx => s.copyAnswer q idx addr a

/-- The fabric-window address of a request. -/
def Sent.va (r : Sent) : Nat := 2 ^ 49 + r.x.dst * 2 ^ 40 + r.x.addr

/-- A fabric request ends. The acknowledgement of collective data ends nothing else (R416); a context that meets a lost peer notes it
(R283). -/
def State.answerSent (s : State) (r : Sent) (a : Answer) : State :=
  if r.x.typ = 20 then s
  else (if a == .lost && r.x.typ != 13 then s.metLost r.x.ctx r.x.dst else s).endRequest r.link r.x.dst r.va a r.replayed

/-! ### Tickets (R323 to R327, R414) -/

/-- The ticket that a resent request names; a FATOM's data tag stands below it (R410, R412). -/
def ticketOf (x : Txn) : Nat := if x.typ = 6 ∧ x.op ≥ 16 then x.aux / 16 else x.aux

/-- A thread's result is held in the log from its ticket on (R94, R316). -/
def State.holdLane (s : State) (w lid t : Nat) : State :=
  match (s.warp w).log.find? fun e => e.id == lid with
  | none => s
  | some e => s.modWarp w fun x => x.hold e.op (e.out.filter fun l => l.t == t)

/-- A request is answered with a ticket: it is linked to its page's entry in send order (R323). -/
def State.ticketed (s : State) (r : Sent) (ticket plane : Nat) : State :=
  let page := r.x.addr / 8192
  let x : Txn := { r.x with resent := false, last := false, tidx := 0
                            aux := if r.x.typ = 6 ∧ r.x.op ≥ 16 then r.x.aux % 16 else 0 }
  let r0 : Sent := { r with x := x, busied := false, replayed := false }
  let s1 := match r.link with
    | .wc core id => s.modCore core fun c => { c with wc := c.wc.map fun (e : WcEntry) => if e.id = id then { e with sent := false, ticket := some ticket } else e }
    | .lane w lid t => s.holdLane w lid t
    | _ => s
  let mine := fun (t : TicketEntry) => t.ctx == x.ctx && t.peer == x.dst && t.page == page
  s1.modCore r.core fun c =>
    if c.tickets.any mine then
      { c with tickets := c.tickets.map fun (t : TicketEntry) => if mine t then
          { t with links := insertSent r0 t.links, ticket := ticket, replay := t.replay && !r.replayed } else t }
    else { c with tickets := c.tickets ++ [{ ctx := x.ctx, peer := x.dst, page := page, ticket := ticket, plane := plane, links := [r0] }] }

/-- The cores' entries of a peer's ticket. -/
def State.ticketEntries (s : State) (peer ticket : Nat) : List TicketEntry :=
  s.cores.flatMap fun c => c.2.tickets.filter fun t => t.peer == peer && t.ticket == ticket

/-- Every access linked to a ticket, over all cores, in send order. -/
def State.ticketLinks (s : State) (peer ticket : Nat) : List Sent :=
  (s.ticketEntries peer ticket).foldl (fun m t => t.links.foldl (fun m r => insertSent r m) m) []

/-- Rewrites or drops the entries of a ticket. -/
def State.modTickets (s : State) (peer ticket : Nat) (f : TicketEntry → Option TicketEntry) : State :=
  { s with cores := Store.mapVals {} s.cores fun _ c => { c with
      tickets := c.tickets.filterMap fun t => if t.peer = peer ∧ t.ticket = ticket then f t else some t } }

/-- Sends NOTEACK (R412, R414). -/
def State.noteack (s : State) (peer plane ticket : Nat) : State :=
  s.emit { typ := 12, src := s.fabid, dst := peer, plane := plane, seq := 0, addr := 0, ten := 0, ctx := 0, aux := ticket, op := 0, len := 0
           tidx := 0, resent := false, last := false, payload := [] }

/-- Sends a linked access, on the plane in force (R407, R420): a buffered write leaves its ticket. -/
def State.sendLink (s : State) (r0 : Sent) : State :=
  let r : Sent := { r0 with replayed := true, x := { r0.x with plane := s.planeOf s.fabid r0.x.dst r0.x.addr } }
  (match r.link with
    | .wc core id => s.modCore core fun c => { c with wc := c.wc.map fun (e : WcEntry) => if e.id = id then { e with sent := true, ticket := none } else e }
    | _ => s).request r

/-- The replay of a ticket is over: NOTEACK, and what was linked meanwhile is sent (R326, R414). -/
def State.endTicket (s : State) (peer ticket : Nat) : State :=
  let plane := (((s.ticketEntries peer ticket).head?).map TicketEntry.plane).getD 0
  let left := s.ticketLinks peer ticket
  left.foldl (fun s r => s.sendLink r) ((s.modTickets peer ticket fun _ => none).noteack peer plane ticket)

/-- Resends what is linked to a ticket, in order; NOTEACK will go on the plane of the notice (R412, R414). -/
def State.replayTicket (s0 : State) (peer ticket plane : Nat) : State :=
  let s := s0.modTickets peer ticket fun t => some { t with plane := plane }
  let rs := s.ticketLinks peer ticket
  if rs.isEmpty then s.endTicket peer ticket
  else
    let s1 := s.modTickets peer ticket fun t => some { t with replay := true, links := [] }
    rs.zipIdx.foldl (fun s p =>
      let r := p.1
      s.sendLink { r with x := { r.x with
        resent := true, last := p.2 + 1 == rs.length, tidx := p.2
        aux := if r.x.typ = 6 ∧ r.x.op ≥ 16 then ticket * 16 + r.x.aux % 16 else ticket } }) s1

/-- A notice with a cause: every linked access is refused (R327). -/
def State.refuseTicket (s : State) (peer ticket plane cause : Nat) : State :=
  let rs := s.ticketLinks peer ticket
  (rs.foldl (fun s r => s.answerSent r (.refuse cause)) (s.modTickets peer ticket fun _ => none)).noteack peer plane ticket

/-- The accesses of a ticket at a lost peer end without a notice (R298, R421). -/
def State.loseTicket (s : State) (peer ticket : Nat) : State :=
  (s.ticketLinks peer ticket).foldl (fun s r => s.answerSent r .lost) (s.modTickets peer ticket fun _ => none)

/-- The contexts whose switched-out state holds a ticket. -/
def State.savedTickets (s : State) (peer ticket : Nat) : List Nat :=
  (s.saves.filter fun e => (e.2.tickets ++ e.2.cores.flatMap fun c => c.2.tickets).any fun t => t.peer == peer && t.ticket == ticket).map Prod.fst

/-- A notice for a context that is switched out goes into its save area (R326). -/
def State.keepNotice (s : State) (ctx : Nat) (n : Nat × Nat × Nat × Nat) : State :=
  let v := Store.get ({} : Saved) s.saves ctx
  { s with saves := Store.set {} s.saves ctx { v with notices := v.notices ++ [n] } }

/-- A notice is acted on: it waits for a switched-out context, and a ticket nobody holds is acknowledged at once (R326, R327, R414). -/
def State.noticed (s : State) (peer plane ticket cause : Nat) : State :=
  if Store.get false s.lost peer then (s.loseTicket peer ticket).noteack peer plane ticket
  else match s.savedTickets peer ticket with
    | c :: _ => s.keepNotice c (peer, plane, ticket, cause)
    | [] =>
      if (s.ticketEntries peer ticket).isEmpty then s.noteack peer plane ticket
      else if cause = 0 then s.replayTicket peer ticket plane
      else s.refuseTicket peer ticket plane cause

/-- A notice that a context has kept is acted on. A ticket that ended with its peer while the context was out ends without a notice
(R421); PEER_LOST stands for that among the causes, and what is still switched out goes on keeping it. -/
def State.actNotice (s : State) (ctx : Nat) (n : Nat × Nat × Nat × Nat) : State :=
  if n.2.2.2 = 0x13 then
    let s1 := s.loseTicket n.1 n.2.2.1
    if (s1.savedTickets n.1 n.2.2.1).contains ctx then s1.keepNotice ctx n else s1
  else s.noticed n.1 n.2.1 n.2.2.1 n.2.2.2

/-- The notices that a context has kept are acted on, those whose ticket its switched-out state no longer holds (R326). -/
def State.actNotices (s : State) (ctx : Nat) : State :=
  let v := Store.get ({} : Saved) s.saves ctx
  v.notices.foldl (fun s n => s.actNotice ctx n) { s with saves := Store.set {} s.saves ctx { v with notices := [] } }

end Sys2Proof.Machine
end

