-- ==== Sys2Proof/Machine/Place.lean ====
section
/-! DEFINITION. Where the workgroups of a context may run (R385, R396, R460 to R462, R495), their placement, release and
retirement (R359 to R363), and their pre-emption and restore (R369 to R371). -/

namespace Sys2Proof.Config

/-- The LZ-9600's own layout of saved state (R370, R371, R374), and its reading with fresh names from a number on, with the names it
takes. -/
opaque pack : Machine.Saved → List Byte
opaque unpack : List Byte → Nat → Option Machine.Saved × Nat

end Sys2Proof.Config

namespace Sys2Proof.Machine

/-! ### Cores and slots of a context -/

/-- Fills actuators in order from their floors (R391). -/
def fillPos : List Nat → List Nat → Nat → List Nat
  | f :: fs, c :: cs, x => (f + min x (c - f)) :: fillPos fs cs (x - min x (c - f))
  | _, _, _ => []
/-- The positions of a contract at a demand. -/
def Contract.positions (k : Contract) (d : Nat) : List Nat := fillPos k.floors k.ceils (d - k.floors.sum)

/-- The cores of a cluster mask, ascending. -/
def maskCores (m : Nat) : List Nat := (List.range 160).filter fun c => m / 2 ^ (c / 4) % 2 == 1

/-- Whether a partition's cores are time-sliced (R455, R460). -/
def Part.tslice (p : Part) : Bool := p.field 0 1 % 2 == 1
/-- The word of the slot in force (R459). -/
def State.slotWord (s : State) : Option Word := if s.tsSlot = 0 then none else some (Store.get 0 s.tsslots (s.tsSlot - 1))

/-- The clusters lent to a partition in a BURST slot (R462). -/
def State.lent (s : State) (p : Nat) : List Nat :=
  match s.slotWord with
  | some w =>
    if w.getLsbD 16 then
      let ps := (List.range 16).filter fun i => s.tslend.getLsbD i
      let cs := (List.range 40).filter fun c => s.tscl.getLsbD c
      (List.range cs.length).filterMap fun i => if ps.length ≠ 0 ∧ ps[i % ps.length]? = some p then cs[i]? else none
    else []
  | none => []

/-- The cores a partition's fixed quota holds now: those of a time-sliced one only in its own slots (R460). -/
def State.ownCores (s : State) (p : Nat) : List Nat :=
  let x := s.part p
  if x.tslice && !(match s.slotWord with
      | some w => !w.getLsbD 16 && (w >>> 20).toNat % 16 == p
      | none => false) then []
  else maskCores (x.field 8 8)

/-- The cores of a partition's pool for Equinox (R395, R462). -/
def State.pool (s : State) (p : Nat) : List Nat := s.ownCores p ++ (s.lent p).flatMap fun c => (List.range 4).map (4 * c + ·)

/-- The contract in force of a context. -/
def State.contractOf (s : State) (ctx : Nat) : Option Contract := (s.ctx ctx).loop.contract

/-- The cores on which a context's workgroups may be placed: of one with no contract in force those of the quota, which is its CORES
(R396). -/
def State.coresOf (s : State) (ctx : Nat) : List Nat :=
  if ctx = 0 then List.range 160
  else match s.partOf ctx with
    | none => []
    | some p =>
      let x := s.part p
      let c := s.ctx ctx
      if x.state ≠ .active ∨ x.reset ≠ .run ∨ c.loop.susp ∨ c.out then []
      else match c.loop.contract with
        | some k =>
          let ok := if k.cls = 0 then s.ownCores p else s.pool p
          c.loop.cores.filter fun n => ok.contains n
        | none => s.ownCores p
/-- Its slots per slice (R385, R396). -/
def State.slotsOf (s : State) (ctx : Nat) : Nat :=
  match s.contractOf ctx with
  | some _ => (s.ctx ctx).loop.pos.headD 1
  | none => 8

/-! ### Room on a core (R360) -/

/-- Slots and registers taken on a slice: pairs of slot and vector registers, with the context. -/
def State.taken (s : State) (k : Nat) : List (Nat × Nat × Nat) :=
  (List.range 8).filterMap fun i =>
    let x := s.warp (8 * k + i)
    if x.resident ∨ x.allot ≠ 0 then some (i, x.allot + x.giveK, s.ctxOf (8 * k + i)) else none

/-- Slots for warps in turn among the free ones: the one a warp wants, else the lowest. -/
def takeSlots (want : Nat → Option Nat) : List Nat → List Nat → List Nat
  | _, [] => []
  | free, v :: rest =>
    let i := match want v with
      | some i => if free.contains i then i else free.headD 0
      | none => free.headD 0
    i :: takeSlots want (free.filter fun x => x != i) rest

/-- The slot number that a role's warps hold in the gang domain of a slice, among those placed so far: warp, slice, slot (R37, R360). -/
def slotWanted (role : Nat → Nat) (placed : List (Nat × Nat × Nat)) (k v : Nat) : Option Nat :=
  (placed.find? fun p => role p.1 == role v && p.2.1 / 8 == k / 8).map fun p => p.2.2

/-- Picks one slice for the warps of one index, with their slots: one where all of them fit, where the most of them take the slot
number of their role (R360), and then the one with the most free registers (R479). -/
def pickSlice (taken : Nat → List (Nat × Nat × Nat)) (want : Nat → Nat → Option Nat) (order : List Nat) (ctx slots : Nat)
    (vs : List (Nat × Nat)) : Option (Nat × List Nat) :=
  (order.foldl (fun (b : Option (Nat × (Nat × Nat) × List Nat)) k =>
    let ts := taken k
    let free := (List.range 8).filter fun i => !ts.any fun t => t.1 == i
    let room := 128 - (ts.map fun t => t.2.1).sum
    let need := (vs.map Prod.snd).sum
    if room < need ∨ free.length < vs.length ∨ (ts.filter fun t => t.2.2 == ctx).length + vs.length > slots then b
    else
      let is := takeSlots (want k) free (vs.map Prod.fst)
      let met := (vs.zip is).countP fun x => want k x.1.1 == some x.2
      match b with
      | some x => if x.2.1.1 < met ∨ (x.2.1.1 = met ∧ x.2.1.2 < room) then some (k, (met, room), is) else b
      | none => some (k, (met, room), is)) none).map fun x => (x.1, x.2.2)

/-- Places groups of warps, each on one of its slices: (warp, slice, slot) for each warp (R360, R479). -/
def pickGroups (taken : Nat → List (Nat × Nat × Nat)) (role : Nat → Nat) (ctx slots : Nat) :
    List (List Nat × List (Nat × Nat)) → List (Nat × Nat × Nat) → Option (List (Nat × Nat × Nat))
  | [], placed => some placed
  | g :: rest, placed =>
    match pickSlice taken (slotWanted role placed) g.1 ctx slots g.2 with
    | none => none
    | some p =>
      let here := (g.2.zip p.2).map fun x => (x.1.1, p.1, x.2)
      let add := (g.2.zip p.2).map fun x => (x.2, x.1.2, ctx)
      pickGroups (fun k => if k = p.1 then taken k ++ add else taken k) role ctx slots rest (placed ++ here)

/-- The vector allotments of a workgroup's warps, in warp order. -/
def Launch.vregList (l : Launch) : List Nat := l.roles.flatMap fun r => List.replicate r.warps r.vregs

/-- The logical accumulators a launch's tile records name (R215). -/
def Launch.laccs (l : Launch) : List Nat := ((l.tiles.filter fun t => t.kind == 2).map fun t => t.lacc).eraseDups

/-- The first warp number of a role. -/
def Launch.roleStart (l : Launch) (r : Nat) : Nat := ((l.roles.take r).map Role.warps).sum

/-- The warps of each index, in role order: warp number and allotment (R479). -/
def Launch.byIndex (l : Launch) : List (List (Nat × Nat)) :=
  (List.range (l.roles.foldl (fun m r => max m r.warps) 0)).map fun j =>
    (l.roles.zipIdx.filter fun r => decide (j < r.1.warps)).map fun r => (l.roleStart r.2 + j, r.1.vregs)

/-- The groups of warps that take one slice each: the warps of one index where they could fit an empty slice, else each warp alone
(R360, R479). -/
def Launch.parts (l : Launch) (slots : Nat) : List (List (Nat × Nat)) :=
  let gs := l.byIndex
  if gs.all fun g => decide (g.length ≤ slots ∧ (g.map Prod.snd).sum ≤ 128) then gs else l.vregList.zipIdx.map fun v => [(v.2, v.1)]

/-- The places, in warp order, of groups with the slices that each may take. -/
def Launch.pick (l : Launch) (taken : Nat → List (Nat × Nat × Nat)) (slots : Nat) (gs : List (List Nat × List (Nat × Nat))) :
    Option (List (Nat × Nat)) :=
  (pickGroups taken (fun j => roleOf l.roles j 0) l.ctx slots gs []).map fun ps =>
    (List.range l.nwarps).filterMap fun j => (ps.find? fun p => p.1 == j).map Prod.snd

/-- How many groups of each kind (registers, warps, how many are left) may go on a slice with so many free registers and slots. -/
def patterns : List (Nat × Nat × Nat) → Nat → Nat → List (List Nat)
  | [], _, _ => [[]]
  | k :: ks, room, slots => (List.range (min k.2.2 (min (room / k.1) (slots / k.2.1)) + 1)).flatMap fun n =>
    (patterns ks (room - n * k.1) (slots - n * k.2.1)).map (n :: ·)

/-- Drops a partial packing that leaves no less of any kind than another one. -/
def prunePacks (l : List (List Nat × List (List Nat))) : List (List Nat × List (List Nat)) :=
  let le := fun (a b : List Nat) => (a.zip b).all fun p => decide (p.1 ≤ p.2)
  l.foldl (fun acc x => if acc.any fun y => le y.1 x.1 then acc else x :: acc.filter fun y => !le x.1 y.1) []

/-- Every way to pack groups over slices in turn: what is left of each kind, and the slices' patterns, last first. -/
def packSlices (kinds : List (Nat × Nat)) : List (Nat × Nat) → List (List Nat × List (List Nat)) → List (List Nat × List (List Nat))
  | [], ps => ps
  | r :: rs, ps => packSlices kinds rs (prunePacks (ps.flatMap fun x =>
    (patterns ((kinds.zip x.1).map fun k => (k.1.1, k.1.2, k.2)) r.1 r.2).map fun p => ((x.1.zip p).map fun q => q.1 - q.2, p :: x.2)))

/-- A plan by which `n` workgroups share the slices of a core, if there is one (R360): the groups of each, with their slices. -/
def Launch.plan (l : Launch) (taken : Nat → List (Nat × Nat × Nat)) (slots n : Nat) : Option (Nat → List (List Nat × List (Nat × Nat))) :=
  let gs := l.parts slots
  let kind := fun (g : List (Nat × Nat)) => ((g.map Prod.snd).sum, g.length)
  let kinds := (gs.map kind).eraseDups
  let per := fun (k : Nat × Nat) => gs.countP fun g => kind g == k
  let rooms := (List.range 16).map fun i =>
    let ts := taken i
    (128 - (ts.map fun t => t.2.1).sum, min (8 - ts.length) (slots - (ts.filter fun t => t.2.2 == l.ctx).length))
  ((packSlices kinds rooms [(kinds.map fun k => n * per k, [])]).find? fun x => x.1.all (· == 0)).map fun x =>
    -- the slices of the groups of each kind, in order
    let here := fun (i : Nat) => x.2.reverse.zipIdx.flatMap fun p => List.replicate (p.1.getD i 0) p.2
    fun w => gs.zipIdx.map fun g =>
      let k := kind g.1
      ([(here (kinds.idxOf k)).getD (w * per k + (gs.take g.2).countP fun h => kind h == k) 0], g.1)

/-- The places of a workgroup's warps, in warp order: as preferred where that works out, else by a plan (R360, R479). -/
def Launch.places (l : Launch) (taken : Nat → List (Nat × Nat × Nat)) (order : List Nat) (slots : Nat) : Option (List (Nat × Nat)) :=
  match l.pick taken slots ((l.parts slots).map fun g => (order, g)) with
  | some ps => some ps
  | none => (l.plan taken slots 1).bind fun f => l.pick taken slots (f 0)

/-- The workgroups on a core. -/
def State.onCore (s : State) (core : Nat) : List Nat :=
  (s.wgs.filter fun e => !e.2.out && e.2.core == core && decide (e.2.warps ≠ [])).map Prod.fst

/-- A free window of tile entries. -/
def State.tileWindow (s : State) (core n : Nat) : Option Nat :=
  (List.range (33 - n)).find? fun b => (s.onCore core).all fun g =>
    let w := s.wg g
    decide (b + n ≤ w.tbase ∨ w.tbase + w.tcount ≤ b)

/-- Room for the core-wide needs of a workgroup. -/
def State.coreRoom (s : State) (core scratch ntiles naccs : Nat) : Bool :=
  decide (((s.onCore core).map fun g => (s.wg g).scratchLen).sum + scratch ≤ 524288) && (s.tileWindow core ntiles).isSome
    && decide (((List.range 4).filter fun p => Store.get 0 (s.core core).accOwner p == 0).length ≥ naccs)

/-- The places of a launch's next workgroup on a core, if it fits now. `rot` starts the order of slices. -/
def State.fitOn (s : State) (l : Launch) (core rot : Nat) : Option (List (Nat × Nat)) :=
  if s.coreRoom core l.scratch l.tiles.length l.laccs.length then
    l.places (fun k => s.taken (core * 16 + k)) ((List.range 16).map fun i => (i + rot) % 16) (s.slotsOf l.ctx)
  else none

/-- Whether an empty core holds `n` workgroups of a launch at once (R360). -/
def Launch.holds (l : Launch) (n : Nat) : Bool :=
  decide (n * l.scratch ≤ 524288 ∧ n * l.tiles.length ≤ 32 ∧ n * l.laccs.length ≤ 4 ∧ n * l.nwarps ≤ 128) && (l.plan (fun _ => []) 8 n).isSome

/-! ### Release (R36, R361) -/

/-- The private base of a warp (R361). -/
def Launch.privBase (l : Launch) (wgid j : Nat) : Nat :=
  (l.privArea.toNat + (wgid * l.nwarps + j) * ((l.privWords * 384 + 8191) / 8192 * 8192)) % 2 ^ 64

/-- The record area of a warp (R439). -/
def Launch.recBase (l : Launch) (area rrlog wgid j : Nat) : DWord := BitVec.ofNat 64 (area / 8192 * 8192 + (wgid * l.nwarps + j) * 16 * 2 ^ rrlog)

/-- A warp as it is released (R36, R361). -/
def Launch.newWarp (l : Launch) (c : Ctx) (g wgid j now : Nat) : Warp :=
  let ri := roleOf l.roles j 0
  let r := l.roles.getD ri {}
  let n := min 96 (r.threads - 96 * (j - l.roleStart ri))
  let m := maskOf fun t => decide (t < n)
  { resident := true, wg := g, num := j, role := ri, live := m, splits := [(0, { state := .running, pc := r.entry, m := m, a := m, since := now })]
    nsregs := r.sregs, allot := r.vregs, seedBase := c.seed, privBase := BitVec.ofNat 64 (l.privBase wgid j), privSize := l.privWords
    rrMode := c.rrMode, rrLog := c.rrlog, rrBase := l.recBase c.rrarea.toNat c.rrlog wgid j }

/-- A tile as its record defines it (R216, R357); the accumulator is bound. -/
def TileRec.tile (t : TileRec) (g : Nat) : Tile :=
  let k := TileKind.ofCode t.kind
  { used := true, kind := k, tag := t.tag, rows := if k = .acc then 96 else t.rows, cols := if k = .opnd then kSpan t.tag else t.cols
    base := match k with
      | .scr => t.base
      | .acc => 32 * t.col
      | .opnd => 0
    lacc := if k = .acc then t.lacc else 0, owner := g, bound := k != .opnd }

/-- Forms the gangs of a workgroup: the warps of one role at one slot number in one gang domain (R37). -/
def State.formGangs (s : State) (g : Nat) : State :=
  let ws := (s.wg g).warps
  let keyOf := fun (w : Nat) => ((s.warp w).role, slotOf w % 8, sliceOf w / 8)
  ((ws.map keyOf).eraseDups).foldl (fun s k => s.formGang (ws.filter fun w => keyOf w == k)) s

/-- Reserves a workgroup's place on a core (R360). -/
def State.reserveWg (s : State) (l wgid core : Nat) (ps : List (Nat × Nat)) : Nat × State :=
  let n := s.fresh
  let k := s.launch l
  let g := n.1
  let wids := ps.map fun p => core * 128 + p.1 * 8 + p.2
  let tb := (s.tileWindow core k.tiles.length).getD 0
  let accs := (k.laccs.zip ((List.range 4).filter fun p => Store.get 0 (s.core core).accOwner p == 0))
  let s1 := n.2.modWg g fun _ =>
    { core := core, launch := l, wgid := wgid, warps := wids, tbase := tb, tcount := k.tiles.length, scratchLen := k.scratch
      accs := accs.foldl (fun m a => Store.set 0 m a.1 (a.2 + 1)) [] }
  let s2 := s1.modCore core fun c => { c with accOwner := accs.foldl (fun m a => Store.set 0 m a.2 (g + 1)) c.accOwner }
  (g, (wids.zip k.vregList).zipIdx.foldl (fun s p => s.modWarp p.1.1 fun _ => { wg := g, num := p.2, allot := p.1.2 }) s2)

/-- The copy engines that a workgroup's queues may be bound to: the three of its core's cluster, or for context 0 the spare ones of
its die, which carry no partition's work (R1, R227, R466). -/
def enginesFor (core ctx : Nat) : List Nat :=
  let c := clusterOf core
  let die := if c < 20 then 0 else 1
  if ctx = 0 then (List.range 4).map (64 * die + 60 + ·) else (List.range 3).map (64 * die + 3 * (c % 20) + ·)

/-- Binds the engine queues of a workgroup, as the dispatcher chooses (R227). -/
def State.bindEngines (s : State) (g : Nat) : State :=
  let es := enginesFor (s.wg g).core (s.wgCtx g)
  (List.range 8).foldl (fun s q =>
    let n := s.choose es.length
    n.2.modWg g fun w => { w with engines := Store.set 0 w.engines q (es.getD n.1 0) }) s

/-- Releases a placed workgroup (R361): its tiles, its warps, the generators of its queues (R231), its gangs. -/
def State.releaseWg (s : State) (g : Nat) : State :=
  let w := s.wg g
  let k := s.launch w.launch
  let c := s.ctx k.ctx
  let s1 := s.modCore w.core fun h => { h with
    tiles := k.tiles.zipIdx.foldl (fun m t => Store.set {} m (w.tbase + t.2) (t.1.tile g)) h.tiles }
  let s2 := w.warps.zipIdx.foldl (fun s p => s.setWarp p.1 (k.newWarp c g w.wgid p.2 s.serial)) s1
  ((s2.modWg g fun x => { x with resident := true, seed := c.seed, lfsr := [] }).bindEngines g).formGangs g

/-! ### Pre-emption and restore of a workgroup (R247, R369 to R371) -/

/-- Whether an access of a warp is with a peer or the control node and no ticket holds it (R369). -/
def State.awaitsAnswer (s : State) (w : Nat) : Bool :=
  (s.sent ++ s.unsent).any (fun r => match r.link with
    | .lane v _ _ => v == w
    | _ => false) || s.sysReqs.any fun r => match r.link with
    | .lane v _ _ => v == w
    | _ => false
/-- Whether an engine queue of a workgroup awaits an answer. -/
def State.engineAwaits (s : State) (g : Nat) : Bool :=
  (s.sent ++ s.unsent).any (fun r => r.x.typ != 20 && (match r.link with
    | .engine v _ => v == g
    | _ => false)) || s.sysReqs.any fun r => match r.link with
    | .engine v _ => v == g
    | _ => false
/-- Whether a drain of a context's buffered stores on a core awaits its answer, and no ticket holds it (R281). -/
def State.drainAwaits (s : State) (core ctx : Nat) : Bool :=
  (s.core core).wc.any fun e => e.ctx == ctx && e.ticket.isNone && (s.sent ++ s.unsent).any fun r => r.link == .wc core e.id

/-- Whether a workgroup of a context goes on issuing on a core. -/
def State.staysOn (s : State) (ctx core : Nat) : Bool :=
  s.wgs.any fun e => !e.2.out && !e.2.stopping && e.2.core == core && s.wgCtx e.1 == ctx

/-- Whether a workgroup can be halted now (R281, R369): no access and no drain awaits an answer, no step is in progress, and no store
has performed in part. The drains are those of its core and of the cores where no workgroup of its context goes on. -/
def State.mayPreempt (s : State) (g : Nat) : Bool :=
  let w := s.wg g
  let ctx := s.wgCtx g
  w.resident && !w.out && !s.engineAwaits g && (s.cores.all fun c => !s.drainAwaits c.1 ctx || (c.1 != w.core && s.staysOn ctx c.1))
    && w.warps.all fun v =>
      !s.awaitsAnswer v && (s.warp v).step.isNone && (s.warp v).rest.isEmpty && (match (s.warp v).park with
        | .hstep .. => false
        | _ => true)

/-- Drains every buffered store of a context (R281). -/
def State.drainCtx (s : State) (ctx : Nat) : State := (s.cores.map Prod.fst).foldl (fun s c => s.drainAll c fun e => e.ctx == ctx) s

/-- A pre-emption is asked for: the warps of a workgroup stop at an instruction boundary, and the context's buffered stores drain
(R281, R369). -/
def State.haltWg (s : State) (g : Nat) : State :=
  let w := s.wg g
  if w.out || !w.resident then s
  else (s.modWg g fun x => { x with stopping := true }).drainCtx (s.wgCtx g)

/-- Takes back a register gift that still waits for a held result: the warp is saved before its allotment changed, at the word
(R131). -/
def Warp.takeBack (x : Warp) : Warp :=
  let y := { x with allot := x.allot + x.giveK, giveK := 0, giveTo := 0 }
  match x.park with
  | .quota _ => { y.setPc x.issuedPc with park := .none, rc := x.rc - 1 }
  | _ => y

/-- Delivers the results that have come, and ends a register gift that waits for no other (R94, R131). What a log entry holds stays
outstanding. -/
def State.drainWarp (s : State) (w : Nat) : State :=
  let x := (s.warp w).pending.foldl (fun (x : Warp) p => (threads p.threads).foldl (fun x t => x.landed p.id t) x) (s.warp w)
  let s1 := s.setWarp w x
  let s2 := if x.giveK = 0 then s1
    else if x.giftHeld then s1.setWarp w x.takeBack
    else (s1.transferGift w).modWarp w fun x => { x with park := match x.park with
      | .quota m => if m && !x.pending.isEmpty then .marker else .none
      | p => p }
  s2.cancel fun e => match e with
    | .longLatencyWrite v _ _ => v == w
    | .quotaTransferComplete v => v == w
    | _ => false

/-- Whether an event of the calendar is an engine's of a workgroup. -/
def engineEvent (g : Nat) : Instr → Bool
  | .engineEntryStart h _ => h == g
  | .copyComplete h _ => h == g
  | .collComplete h _ => h == g
  | .workgroupRetire h => h == g
  | _ => false

/-- Whether a link is an access of some warps, or the drain of some entries. -/
def RemoteLink.ofWarps (ws : List Nat) : RemoteLink → Bool
  | .lane w _ _ => ws.contains w
  | _ => false
def RemoteLink.ofWc (es : List WcEntry) : RemoteLink → Bool
  | .wc _ id => es.any fun e => e.id == id
  | _ => false

/-- Takes some links out of a ticket table, and the table without them. -/
def takeLinks (p : RemoteLink → Bool) (ts : List TicketEntry) : List TicketEntry :=
  (ts.map fun t => { t with links := t.links.filter fun l => p l.link }).filter fun t => !t.links.isEmpty
def dropLinks (p : RemoteLink → Bool) (ts : List TicketEntry) : List TicketEntry :=
  ts.map fun t => { t with links := t.links.filter fun l => !p l.link }

/-- Adds tickets to a table, each link at its place in send order (R323). -/
def putLinks (ts into : List TicketEntry) : List TicketEntry :=
  ts.foldl (fun into t =>
    let same := fun (x : TicketEntry) => x.ctx == t.ctx && x.peer == t.peer && x.page == t.page
    if into.any same then into.map fun x => if same x then { x with links := t.links.foldl (fun m l => insertSent l m) x.links } else x
    else into ++ [t]) into

/-- The buffered writes of a context that are left on a core, each held by a ticket, leave it with the context (R281, R323). -/
def State.saveWc (s : State) (ctx core : Nat) : State :=
  let es := (s.core core).wc.filter fun e => e.ctx == ctx
  if es.isEmpty then s
  else
    let v := Store.get ({} : Saved) s.saves ctx
    ({ s with saves := Store.set {} s.saves ctx { v with
        wc := v.wc ++ es, tickets := putLinks (takeLinks (RemoteLink.ofWc es) (s.core core).tickets) v.tickets } } : State).modCore core fun c =>
      { c with wc := c.wc.filter fun e => e.ctx != ctx, tickets := dropLinks (RemoteLink.ofWc es) c.tickets }

/-- They come back with it, to a core, as many as find a place there. -/
def State.restoreWc (s : State) (ctx core : Nat) : State :=
  let v := Store.get ({} : Saved) s.saves ctx
  let n := 32 - (s.core core).wc.length
  let es := v.wc.take n
  if es.isEmpty then s
  else
    let p := RemoteLink.ofWc es
    let back := (takeLinks p v.tickets).map fun t => { t with links := t.links.map fun l => match l.link with
      | .wc _ id => { l with link := .wc core id, core := core }
      | _ => l }
    ({ s with saves := Store.set {} s.saves ctx { v with
        wc := v.wc.drop n, tickets := (dropLinks p v.tickets).filter fun t => !t.links.isEmpty } } : State).modCore core fun c =>
      { c with wc := c.wc ++ es, tickets := putLinks back c.tickets }

/-- The generators of a warp as values of their own, before it leaves its slot (R69). -/
def Warp.fixGens (x : Warp) (v : Nat) : Warp :=
  { x with lfsr := (List.range 96).foldl (fun m t => Store.insert m t (x.gen v t)) [] }

/-- Whether every frame of a run belongs to the hypervisor: a save area lies there (R370, R372). -/
def State.areaOk (s : State) (base size : Nat) : Bool :=
  base % 8192 == 0 && size % 8192 == 0 && s.owns 16 base && s.ownsRun 16 (base / 8192) (size / 8192)

/-- The state that a context has out is written from the bank to its save area, in the machine's own layout (R370). -/
def State.spill (s : State) (ctx : Nat) : State :=
  let c := s.ctx ctx
  if c.savesize = 0 ∨ !s.areaOk c.savebase c.savesize then s
  else s.l2Write c.savebase ((Config.pack (Store.get {} s.saves ctx)).take c.savesize)

/-- The workgroups that leave and return together: every placed one of a resident launch, else the one alone (R57, R393). -/
def State.mates (s : State) (g : Nat) : List Nat :=
  let l := (s.wg g).launch
  if (s.launch l).isResident then (s.wgs.filter fun e => !e.2.out && e.2.launch == l).map Prod.fst else [g]

/-- A context leaves a core once its last workgroup there is out. -/
def State.leaveCore (s : State) (ctx core : Nat) : State :=
  if s.wgs.any fun e => !e.2.out && e.2.core == core && s.wgCtx e.1 == ctx then s else s.saveWc ctx core

/-- Halts a workgroup and takes it off its core into its context's save (R369 to R371). -/
def State.preempt (s : State) (g : Nat) : State :=
  let w := s.wg g
  let ctx := (s.launch w.launch).ctx
  let s1 := ((w.warps.foldl (fun s v => s.drainWarp v) (s.haltWg g)).stopMmas g).stopCopies g
  let s2 := s1.cancel (engineEvent g)
  let c := s2.core w.core
  let mine := fun (q : Nat) => Store.get 0 c.qOwner q == g + 1
  let part : Core :=
    { tiles := c.tiles.filter fun e => decide (w.tbase ≤ e.1 ∧ e.1 < w.tbase + w.tcount)
      qOwner := c.qOwner.filter fun e => e.2 == g + 1
      quanta := c.quanta.filter fun e => mine (e.1 / 2 ^ 17), side := c.side.filter fun e => mine (e.1 / 2 ^ 17)
      accOwner := c.accOwner.filter fun e => e.2 == g + 1, accLast := c.accLast.filter fun e => e.2 == g + 1
      acc := c.acc.filter fun e => Store.get 0 c.accOwner (e.1 / 2 ^ 16) == g + 1
      prog := c.prog.filter fun e => Store.get 0 c.accOwner (e.1 / 6) == g + 1
      progHeld := c.progHeld.filter fun e => Store.get 0 c.accOwner (e.1 / 6) == g + 1
      mmas := c.mmas.filter fun m => m.wg == g, tickets := takeLinks (RemoteLink.ofWarps w.warps) c.tickets }
  let sv := Store.get ({} : Saved) s2.saves ctx
  let sv1 : Saved := { sv with
    warps := w.warps.foldl (fun m v => Store.set {} m (g * 32 + (s2.warp v).num) ((s2.warp v).fixGens v)) sv.warps
    cores := Store.set {} sv.cores g part }
  let s3 : State := { s2 with
    saves := Store.set {} s2.saves ctx sv1
    warps := s2.warps.filter fun e => !w.warps.contains e.1 }
  (((s3.modCore w.core fun h => { h with
    tiles := h.tiles.filter fun e => !decide (w.tbase ≤ e.1 ∧ e.1 < w.tbase + w.tcount)
    qOwner := h.qOwner.filter fun e => e.2 != g + 1, accOwner := h.accOwner.filter fun e => e.2 != g + 1
    mmas := h.mmas.filter fun m => m.wg != g, tickets := dropLinks (RemoteLink.ofWarps w.warps) h.tickets }).modWg g fun x => { x with
    out := true, stopping := false, roomFor := 0
    lfsr := (List.range 768).foldl (fun m i => Store.insert m i (s2.queueGen g (i / 96) (i % 96))) [] }).leaveCore ctx w.core).spill ctx

/-- Pre-empts workgroups, a resident launch whole (R57, R393): every one of them stops, and those are taken off whose accesses and
drains are answered, a launch's all at once (R369). Whether nothing is left. -/
def State.preemptAll (s : State) (gs : List Nat) : State × Bool :=
  let all := (gs.flatMap s.mates).eraseDups
  let s1 := all.foldl (fun s g => s.haltWg g) s
  let ok := all.filter fun g => (s1.mates g).all s1.mayPreempt
  (ok.foldl (fun s g => s.preempt g) s1, ok.length == all.length)

/-- Rekeys a store. -/
def rekey {α : Type} [DecidableEq α] (d : α) (m into : Store α) (f : Nat → Nat) : Store α :=
  m.foldl (fun acc e => Store.set d acc (f e.1) e.2) into

/-- The image of an old number in a list of pairs. -/
def mapped (ps : List (Nat × Nat)) (n : Nat) : Nat := ((ps.find? fun p => p.1 == n).map Prod.snd).getD n

/-- Free quanta for the operand tiles that a saved workgroup holds, as pairs of old and new numbers. -/
def State.quantaFor (s : State) (core : Nat) (tiles : List Tile) : Option (List (Nat × Nat)) :=
  tiles.foldl (fun (r : Option (List (Nat × Nat))) t => r.bind fun ps =>
    let k := quantaOf t.rows
    ((List.range 16).find? fun i => i % k == 0 && (List.range k).all fun j =>
        Store.get 0 (s.core core).qOwner (i + j) == 0 && !ps.any fun p => p.2 == i + j).map fun i =>
      ps ++ (List.range k).map fun j => (t.base + j, i + j)) (some [])

/-- Whether a saved workgroup fits on a core at its own slices and slots (R370). -/
def State.fitSaved (s : State) (g core : Nat) : Bool :=
  let w := s.wg g
  let ctx := s.wgCtx g
  let part := Store.get ({} : Core) (Store.get ({} : Saved) s.saves ctx).cores g
  let sv := Store.get ({} : Saved) s.saves ctx
  s.coreRoom core w.scratchLen w.tcount (w.accs.length)
    && (w.warps.all fun v =>
      let k := core * 16 + sliceOf v
      let ts := s.taken k
      let here := w.warps.zipIdx.filter fun u => sliceOf u.1 == sliceOf v
      let need := (here.map fun u => let x := Store.get ({} : Warp) sv.warps (g * 32 + u.2); x.allot + x.giveK).sum
      !(ts.any fun t => t.1 == slotOf v % 8) && decide ((ts.map fun t => t.2.1).sum + need ≤ 128)
        && decide ((ts.filter fun t => t.2.2 == ctx).length + here.length ≤ s.slotsOf ctx))
    && (s.quantaFor core ((part.tiles.map Prod.snd).filter fun t => t.kind == .opnd && t.bound)).isSome
    && decide (part.mmas.length + (s.core core).mmas.length ≤ 8)

/-- Before a warp issues on another core, every dirty byte of the old core's L1 in the partition's frames goes to its home L2
(R279); what the old core keeps of private memory and what the new one holds clean is dropped, so that a thread goes on seeing
its own stores (R192). -/
def State.leaveL1 (s : State) (part old : Nat) : State :=
  let mine := fun (pa : Nat) => s.owns part pa
  (s.l1Writeback old (fun pa b => b.dirty && mine pa) false).l1DropPriv old mine
def State.moveL1 (s : State) (part old new : Nat) : State :=
  let mine := fun (pa : Nat) => s.owns part pa
  let s1 := s.leaveL1 part old
  { s1 with l1 := s1.l1.filter fun e => match e.2 with
      | some b => b.dirty || e.1 / 2 ^ 40 != new || !mine (e.1 % 2 ^ 40)
      | none => true }

/-- Puts a saved workgroup back on a core, at its slices and slots (R370, R371); its waits go on. -/
def State.restoreWg (s0 : State) (g core : Nat) : State :=
  let w := s0.wg g
  let ctx := s0.wgCtx g
  let s := if core = w.core then s0 else s0.moveL1 (s0.partNum ctx) w.core core
  let sv := Store.get ({} : Saved) s.saves ctx
  let part := Store.get ({} : Core) sv.cores g
  let qs := (s.quantaFor core ((part.tiles.map Prod.snd).filter fun t => t.kind == .opnd && t.bound)).getD []
  let tb := (s.tileWindow core w.tcount).getD 0
  let ps := (part.accOwner.map Prod.fst).zip ((List.range 4).filter fun p => Store.get 0 (s.core core).accOwner p == 0)
  let wid := fun (v : Nat) => core * 128 + v % 128
  let s1 := s.modCore core fun c => { c with
    tiles := rekey {} (part.tiles.map fun e => (e.1, if e.2.kind = .opnd ∧ e.2.bound then { e.2 with base := mapped qs e.2.base } else e.2))
      c.tiles fun k => k - w.tbase + tb
    qOwner := qs.foldl (fun m q => Store.set 0 m q.2 (g + 1)) c.qOwner, qLast := qs.foldl (fun m q => Store.set 0 m q.2 (g + 1)) c.qLast
    quanta := rekey 0 part.quanta (c.quanta.filter fun e => !qs.any fun q => q.2 == e.1 / 2 ^ 17) fun k => mapped qs (k / 2 ^ 17) * 2 ^ 17 + k % 2 ^ 17
    side := rekey 0 part.side (c.side.filter fun e => !qs.any fun q => q.2 == e.1 / 2 ^ 17) fun k => mapped qs (k / 2 ^ 17) * 2 ^ 17 + k % 2 ^ 17
    accOwner := ps.foldl (fun m p => Store.set 0 m p.2 (g + 1)) c.accOwner
    accLast := ps.foldl (fun m p => Store.set 0 m p.2 (Store.get 0 part.accLast p.1)) c.accLast
    acc := rekey 0 part.acc (c.acc.filter fun e => !ps.any fun p => p.2 == e.1 / 2 ^ 16) fun k => mapped ps (k / 2 ^ 16) * 2 ^ 16 + k % 2 ^ 16
    prog := rekey 0 part.prog (c.prog.filter fun e => !ps.any fun p => p.2 == e.1 / 6) fun k => mapped ps (k / 6) * 6 + k % 6
    progHeld := rekey false part.progHeld (c.progHeld.filter fun e => !ps.any fun p => p.2 == e.1 / 6) fun k => mapped ps (k / 6) * 6 + k % 6
    mmas := c.mmas ++ part.mmas.map fun m => { m with due := true, running := false }
    tickets := putLinks (part.tickets.map fun t => { t with links := t.links.map fun l => match l.link with
      | .lane v id th => { l with link := .lane (wid v) id th, core := core }
      | _ => l }) c.tickets }
  let s2 : State := { s1 with
    saves := Store.set {} s1.saves ctx { sv with warps := sv.warps.filter fun e => e.1 / 32 != g, cores := Store.erase sv.cores g } }
  let s3 := w.warps.zipIdx.foldl (fun s p =>
    let x := Store.get ({} : Warp) sv.warps (g * 32 + p.2)
    s.setWarp (wid p.1) { x with readyAt := s.cycle core + 1, yieldAt := 0, issuedAt := 0, giveTo := wid x.giveTo }) s2
  let s4 := s3.modWg g fun x => { x with
    out := false, core := core, warps := w.warps.map wid, tbase := tb, accs := Store.mapVals 0 x.accs fun _ n => mapped ps (n - 1) + 1
    queues := Store.mapVals [] x.queues fun _ l => l.map fun e => { e with wid := wid e.wid } }
  -- what ended while it was out takes effect before its warps issue (R129, R318, R326)
  let s5 := (w.warps.map wid).foldl (fun s v => (((s.wakeRestored v).fetchRefused v).replayWarp v).overdue v) s4
  let s6 := (s5.restoreWc ctx core).actNotices ctx
  (((s6.bindEngines g).startMmas core).kickAll g).checkRetire g

/-! ### Placing (R360) -/

/-- Whether a poll of a launch's placement is on the calendar. -/
def State.placePending (s : State) (l : Nat) : Bool := s.calendar.any fun e => e.2 == .workgroupPlace l
/-- A step for a queue: for one of class 0 it takes at most `n` ticks (R353), for another an open time. -/
def State.soonFor (s : State) (q n : Nat) (e : Instr) : State := if (s.queue q).cls = 0 then s.within n e else s.soon e
/-- Puts the next try on the calendar: for class 0 within the time of R353. -/
def State.pokePlace (s : State) (l : Nat) : State :=
  if s.placePending l then s else s.soonFor (s.launch l).queue 1000 (.workgroupPlace l)

/-- The workgroups that were to make room for a launch, and are still on their cores, go on (R369): it has its place, or is gone. -/
def State.keepRoom (s : State) (l : Nat) : State :=
  ((s.wgs.filter fun e => e.2.roomFor == l + 1 && !e.2.out).map Prod.fst).foldl (fun s g =>
    ((s.modWg g fun x => { x with stopping := false, roomFor := 0 }).startMmas (s.wg g).core).kickAll g) s

/-- The saved workgroups of a launch, lowest WGID first. -/
def State.savedOf (s : State) (l : Nat) : List Nat :=
  let gs := (s.wgs.filter fun e => e.2.out && e.2.launch == l).map Prod.fst
  gs.foldl (fun acc g => (acc.takeWhile fun h => decide ((s.wg h).wgid < (s.wg g).wgid)) ++ [g]
    ++ acc.dropWhile fun h => decide ((s.wg h).wgid < (s.wg g).wgid)) []

/-- Begins the exchange of a core whose bank holds a staged context (R370). -/
def State.beginSwap (s : State) (c : Nat) : State :=
  (s.modCore c fun k => { k with swapping := true }).after 1000 (.shadowExchange c)

/-- Restores workgroups in order, each on the first of some cores that it fits, or none of them. -/
def State.restoreEach (s : State) (cores : List Nat) : List Nat → Option State
  | [] => some s
  | g :: rest => (cores.find? fun c => (s.coresOf (s.wgCtx g)).contains c && s.fitSaved g c).bind fun c =>
    (s.restoreWg g c).restoreEach cores rest

/-- Puts a resident launch back whole, over some cores, or not at all (R57, R360). -/
def State.restoreWhole (s : State) (l : Nat) (cores : List Nat) : Option State :=
  if s.wgs.any fun e => !e.2.out && e.2.launch == l then none else s.restoreEach cores (s.savedOf l)

/-- Empties the banks of some cores. -/
def State.unstage (s : State) (cs : List Nat) : State :=
  cs.foldl (fun s c => s.modCore c fun k => { k with shadow := 0, shadowReady := false }) s

/-- Stages the context of a launch with saved workgroups on cores where they fit, and exchanges where staging is complete
(R370), for a resident launch on all cores at once; tells whether no workgroup of the launch is saved. -/
def State.restoreSaved (s : State) (l : Nat) : State × Bool :=
  match s.savedOf l with
  | [] => (s, true)
  | g :: rest =>
    let ctx := (s.launch l).ctx
    let cs := s.coresOf ctx
    let mine := cs.filter fun c => (s.core c).shadow == ctx + 1
    let ready := mine.filter fun c => (s.core c).shadowReady && !(s.core c).swapping
    if mine.isEmpty then
      let fit := cs.filter fun c => (s.core c).shadow == 0 && !(s.core c).swapping && s.fitSaved g c
      let n := s.choose fit.length
      (((fit.drop n.1 ++ fit.take n.1).take (rest.length + 1)).foldl (fun s c =>
        (s.modCore c fun k => { k with shadow := ctx + 1, shadowReady := false }).soon (.stagingComplete c ctx)) n.2, false)
    else if (s.launch l).isResident && (s.restoreWhole l ready).isNone then
      (if ready.length = mine.length then s.unstage mine else s, false)
    else (ready.foldl (fun s c => s.beginSwap c) s, false)

/-- Restores on a core the saved workgroups of a launch that fit, in order, stopping at the first that does not; a resident launch
comes back whole, over every core whose bank holds its context. -/
def State.restoreOn (s : State) (l core : Nat) : State :=
  if (s.launch l).isResident then
    (s.restoreWhole l (core :: ((s.cores.filter fun e => e.2.shadow == (s.launch l).ctx + 1 && e.2.shadowReady).map Prod.fst))).getD s
  else
    ((s.savedOf l).foldl (fun (r : State × Bool) g =>
      if r.2 && (r.1.coresOf (r.1.wgCtx g)).contains core && r.1.fitSaved g core then (r.1.restoreWg g core, true) else (r.1, false))
      (s, true)).1

/-- Whether a cluster carries more current than its partner in its series pair (R453). -/
def State.heavier (s : State) (c : Nat) : Bool :=
  let a := s.cluster c
  let b := s.cluster (partner c)
  decide (a.est * b.supply s.tick.toNat > b.est * a.supply s.tick.toNat)

/-- Of some cores, those on the lighter cluster of a pair where both offer one (R453). -/
def State.lighter (s : State) (cs : List Nat) : List Nat :=
  cs.filter fun c => !(s.heavier (clusterOf c) && cs.any fun d => clusterOf d == partner (clusterOf c))

/-- Places the next workgroup of a launch, if one fits: the implementation chooses the core and the first slice, and prefers the lighter
cluster of a pair (R360, R453). -/
def State.placeNext (s : State) (l : Nat) : Option (Nat × State) :=
  let k := s.launch l
  let rot := s.choose 16
  let cs := (rot.2.coresOf k.ctx).filter fun c => !(rot.2.core c).swapping && (rot.2.fitOn k c rot.1).isSome
  match cs with
  | [] => none
  | c0 :: _ =>
    let ds := rot.2.lighter cs
    let n := rot.2.choose ds.length
    let c := ds.getD n.1 c0
    (n.2.fitOn k c rot.1).map fun ps =>
      let r := n.2.reserveWg l k.next c ps
      (r.1, r.2.modLaunch l fun k => { k with next := k.next + 1 })

/-- Places the workgroups of a launch on a core by a plan for `n` of them, while there is room. -/
def State.reservePlan (s : State) (l core : Nat) (f : Nat → List (List Nat × List (Nat × Nat))) : List Nat → List Nat × State
  | [] => ([], s)
  | w :: ws =>
    let k := s.launch l
    match if s.coreRoom core k.scratch k.tiles.length k.laccs.length then
        k.pick (fun i => s.taken (core * 16 + i)) (s.slotsOf k.ctx) (f w) else none with
    | none => ([], s)
    | some ps =>
      let r := s.reserveWg l k.next core ps
      let q := (r.2.modLaunch l fun k => { k with next := k.next + 1 }).reservePlan l core f ws
      (r.1 :: q.1, q.2)

/-- Places as many workgroups of a launch on a core as a plan allows, up to `n`. -/
def State.packCore (s : State) (l core : Nat) : Nat → List Nat × State
  | 0 => ([], s)
  | n + 1 =>
    let k := s.launch l
    match k.plan (fun i => s.taken (core * 16 + i)) (s.slotsOf k.ctx) (n + 1) with
    | some f => s.reservePlan l core f (List.range (n + 1))
    | none => s.packCore l core n

/-- The number of workgroups of a launch. -/
def Launch.total (l : Launch) : Nat := l.gridX * l.gridY * l.gridZ

/-- Places every workgroup of a resident launch by plans for each core, or none. -/
def State.packWhole (s : State) (l : Nat) : Option (List Nat × State) :=
  let r := ((s.coresOf (s.launch l).ctx).filter fun c => !(s.core c).swapping).foldl (fun (r : List Nat × State) c =>
    let k := r.2.launch l
    let free := ((List.range 16).map fun i => 8 - (r.2.taken (c * 16 + i)).length).sum
    let q := r.2.packCore l c (min (k.total - k.next) (free / max k.nwarps 1))
    (r.1 ++ q.1, q.2)) ([], s)
  if (r.2.launch l).next ≥ (r.2.launch l).total then some r else none

/-- Places every workgroup of a resident launch, or none. -/
def State.placeWhole (s : State) (l : Nat) : Nat → Option (List Nat × State)
  | 0 => some ([], s)
  | n + 1 => (s.placeNext l).bind fun r => (r.2.placeWhole l n).map fun q => (r.1 :: q.1, q.2)


/-- Places a resident launch whole (R360): as the choices of the dispatcher go, else by a plan. -/
def State.placeAll (s : State) (l : Nat) : Option (List Nat × State) :=
  match s.placeWhole l (s.launch l).total with
  | some p => some p
  | none => s.packWhole l

/-- Sums up that a workgroup is done: its slots, tiles, quanta and accumulators are free (R45 to R48, R363). -/
def State.freeWg (s : State) (g : Nat) : State :=
  let w := s.wg g
  let s1 := (s.modCore w.core fun h => { h with
    tiles := h.tiles.filter fun e => !decide (w.tbase ≤ e.1 ∧ e.1 < w.tbase + w.tcount)
    qOwner := h.qOwner.filter fun e => e.2 != g + 1, accOwner := h.accOwner.filter fun e => e.2 != g + 1
    mmas := h.mmas.filter fun m => m.wg != g, tickets := dropLinks (RemoteLink.ofWarps w.warps) h.tickets }).cancel (engineEvent g)
  let s2 := s1.cancel fun e => match e with
    | .longLatencyWrite v _ _ => w.warps.contains v
    | .quotaTransferComplete v => w.warps.contains v
    | .coreDumpWrite v => w.warps.contains v
    | .workgroupRelease h => h == g
    | _ => false
  { s2 with
    warps := s2.warps.filter fun e => !w.warps.contains e.1 || e.2.wg != g
    wgs := Store.erase s2.wgs g
    zeroing := s2.zeroing.filter fun z => z != .scratch g }

end Sys2Proof.Machine
end

