-- ==== Sys2Proof/Machine/Queue.lean ====
section
/-! DEFINITION. The hardware queues (R337 to R343, R352), their packets but for CONTRACT (R344 to R350, R354 to R358), and the
placing and retiring of workgroups (R360 to R363). -/

namespace Sys2Proof.Machine

/-! ### Progress of a queue (R342, R344, R377) -/

/-- A little-endian field of bytes. -/
def bytesField (bs : List Byte) (off n : Nat) : Nat := leNat ((bs.drop off).take n)
/-- Whether bytes are all zero. -/
def bytesZero (bs : List Byte) (off n : Nat) : Bool := bytesField bs off n == 0

/-- The signed distance of two indices modulo 2^32. -/
def idxDiff (a b : Word) : Int := (a - b).toInt
/-- Whether the packet at HEAD is live (R339). -/
def Queue.live (k : Queue) : Bool := decide (0 < idxDiff k.tail k.head)
/-- QSTAT.BUSY (R341). -/
def Queue.isBusy (k : Queue) : Bool := k.busy || k.placing != 0 || k.inflight != []

/-- A reset of a queue's partition, for a cause of R378. -/
def State.queueCause (s : State) (q cause : Nat) : State :=
  match (s.queue q).partition with
  | some p => s.causeReset p cause
  | none => s
/-- Restarts the watchdog of a queue (R377). -/
def State.armDog (s : State) (q : Nat) : State :=
  let k := s.queue q
  let s1 := s.cancel fun e => e == .queueHang q
  if k.state = .active ∨ k.state = .waiting then s1.at (k.advance + s.wdog * 1000000) (.queueHang q) else s1

/-- The event that starts a packet of a type (R345). -/
def packetEvent (q : Nat) : Nat → Option Instr
  | 1 => some (.launch q)
  | 2 => some (.xcopy q)
  | 3 => some (.signal q)
  | 4 => some (.cond q)
  | 5 => some (.fencePacket q)
  | 6 => some (.contract q)
  | 7 => some (.waitord q)
  | _ => none

/-- The event that starts or goes on with a packet, without its end. -/
def startEvent (q : Nat) : Instr → Bool
  | .xcopyComplete .. => false
  | .queueHang _ => false
  | e => queueEvent q e

/-- The queue of a start event. -/
def queueOfStart : Instr → Option Nat
  | .launch q => some q
  | .xcopy q => some q
  | .signal q => some q
  | .cond q => some q
  | .condReread q => some q
  | .fencePacket q => some q
  | .fencePacketComplete q => some q
  | .waitord q => some q
  | .contract q => some q
  | _ => none

/-- The address of the slot of an index (R339). -/
def Queue.slot (k : Queue) (i : Word) : Nat := k.ringbase.toNat + i.toNat % 2 ^ k.ringlog * 64

/-- Starts the packet at HEAD of a queue that may go on, or makes it idle (R342, R344). -/
def State.nextPacket (s : State) (q : Nat) : State :=
  let k := s.queue q
  if k.busy ∨ k.placing ≠ 0 ∨ !(k.state == .idle || k.state == .active) then s
  else if k.live then
    let s1 := if k.state = .idle then s.setQueue q fun k => { k with state := .active, advance := s.tick.toNat } else s
    let ty := ((s.plainWalk k.ctx (k.slot k.head) .read).map fun pa => (s.l2Read pa).toNat).getD 1
    ((s1.modQueue q fun k => { k with busy := true, pkt := [] }).armDog q).soonFor q 1000 ((packetEvent q ty).getD (.launch q))
  else (s.setQueue q fun k => { k with state := .idle }).cancel fun e => e == .queueHang q

/-- HEAD takes a new value, and the next packet starts. A queue that stopped meanwhile stays so (R382). -/
def State.advanceHead (s : State) (q : Nat) (head : Word) : State :=
  let s1 := s.cancel (startEvent q)
  (((s1.setQueue q fun k => { k.quiet with
    head := head, advance := s.tick.toNat
    state := if k.state = .stopped ∨ k.stopWait then .stopped else .active }).armDog q).nextPacket q)

/-- An error of R343 stops a queue and is reported; packets under way go on. -/
def State.queueError (s : State) (q err : Nat) : State :=
  let k := s.queue q
  if k.state = .unbound ∨ k.state = .stopped then s
  else
    let s1 := ((s.cancel (startEvent q)).cancel fun e => e == .queueHang q).setQueue q fun k => { k.quiet with state := .stopped, err := err }
    match k.partition with
    | some p => s1.event p 2 1 q k.ctx 0 err 0 k.head.toNat
    | none => s1

/-- QCB_TAMPER, with the offset of the first field that differs (R338, R375). -/
def State.tamper (s : State) (q off : Nat) : State :=
  let k := s.queue q
  if k.state = .unbound ∨ k.state = .stopped then s
  else
    let s1 := ((s.cancel (startEvent q)).cancel fun e => e == .queueHang q).setQueue q fun k => { k.quiet with state := .stopped, err := 4 }
    match k.partition with
    | some p => s1.eventBoth p 5 q k.ctx 0 off
    | none => s1

/-- The offset of the first P field of a QCB that differs from the cached copy (R338). -/
def State.auditAt (s : State) (q : Nat) : Option Nat :=
  let k := s.queue q
  if s.l2Num (k.qcb + 32) 2 ≠ k.asid then some 32
  else if s.l2Num (k.qcb + 34) 1 ≠ k.part then some 34
  else if s.l2Num (k.qcb + 35) 1 ≠ k.cls then some 35
  else if s.l2Num (k.qcb + 36) 4 ≠ k.ctx then some 36
  else none

/-! ### Queue commands (R341, R342) -/

/-- A BIND that fails leaves the queue UNBOUND with its error. -/
def State.bindFail (s : State) (q err : Nat) : State := s.modQueue q fun k => { k with err := err }

/-- Pins the frame of a QCB (R337). -/
def State.pinQcb (s : State) (qcb : Nat) : State := { s with pinned := Store.set false s.pinned (qcb / 8192) true }

/-- The launches of a context that came from a ring are under way on a queue bound to it; one at HEAD that has yet to place all its
workgroups holds the queue (R344, R345, R374). -/
def State.linkLaunches (s : State) (q : Nat) : State :=
  let k := s.queue q
  let mine := fun (l : Launch) => l.active && l.ctx == k.ctx && l.ring == k.ringbase && (l.queue == q || l.queue == 1024)
  let idx := (s.launches.filter fun e => mine e.2).map fun e => e.2.index
  ({ s with launches := Store.mapVals {} s.launches fun _ l => if mine l then { l with queue := q } else l } : State).modQueue q fun k =>
    { k with
      inflight := (k.inflight ++ idx).eraseDups
      placing := match s.launches.find? fun e => mine e.2 && e.2.index == k.head.toNat && decide (e.2.next < e.2.total) with
        | some e => e.1 + 1
        | none => k.placing }

/-- The queues that wait on an ordinal look again. -/
def State.pokeOrdinals (s : State) : State :=
  (s.queues.filter fun e => e.2.waitEv == some (.waitord e.1) && e.2.waitRec.isNone && e.2.out == 0).foldl (fun s e =>
    (s.modQueue e.1 fun k => { k with waitEv := none }).soon (.waitord e.1)) s

/-- BIND (R338, R341 to R343). A WAITORD on the queue looks at the DONEORD that it takes from its QCB (R348). -/
def State.bindQueue (s : State) (q : Nat) : State :=
  let asid := s.qpriv0.toNat % 2 ^ 16
  let part := s.qpriv0.toNat / 2 ^ 16 % 16
  let cls := s.qpriv0.toNat / 2 ^ 20
  let ctx := s.qpriv1.toNat
  let c := s.ctx ctx
  let qcb := s.qbase / 64 * 64
  if (s.queue q).state ≠ .unbound then s
  else if cls = 3 then s.bindFail q 1
  else if !(c.live || ctx == 0) || c.asid != asid || (ctx != 0 && s.partOf ctx != some part) then s.bindFail q 11
  else if qcb + 64 > hbmSize then s.bindFail q 1
  else
    let base := s.l2Num qcb 8
    let log := s.l2Num (qcb + 30) 1
    let k : Queue :=
      { state := .idle, qcb := qcb, asid := asid, part := part, cls := cls, ctx := ctx, ringbase := BitVec.ofNat 64 base
        ringlog := log, head := BitVec.ofNat 32 (s.l2Num (qcb + 12) 4), tail := BitVec.ofNat 32 (s.l2Num (qcb + 8) 4)
        donepos := BitVec.ofNat 32 (s.l2Num (qcb + 24) 4), doneord := BitVec.ofNat 64 (s.l2Num (qcb + 16) 8)
        advance := s.tick.toNat }
    let s1 := (((if ctx = 0 then s else s.claimFrames part [qcb / 8192]).pinQcb qcb).setQueue q fun o => { k with copies := o.copies }).linkLaunches q
    let s2 := ((s1.cancel fun e => e == .qcbAudit q).after 1000000 (.qcbAudit q)).pokeOrdinals
    if log < 4 ∨ log > 16 ∨ base % 64 ≠ 0 ∨ base + 2 ^ log * 64 > 2 ^ 49 then s2.queueError q 1
    else if (k.head - k.donepos).toNat > 2 ^ log then s2.queueError q 2
    else match s2.auditAt q with
      | some off => s2.tamper q off
      | none => s2

/-- UNBIND (R342). The signal of a launch that has ended is still to be written (R363). -/
def State.unbindQueue (s : State) (q : Nat) : State :=
  let k := s.queue q
  if !((k.state == .idle || k.state == .stopped) && !k.isBusy) then s
  else
    let s1 := (s.setQueue q fun k => { k with state := .unbound }).cancel fun e => e == .qcbAudit q || startEvent q e || e == .queueHang q
    let s2 := s1.modQueue q fun k => { copies := k.copies.map fun c => { c with orphan := true } }
    let others := s2.queues.any fun e => e.2.state != .unbound && e.2.qcb / 8192 == k.qcb / 8192
    if others then s2 else { s2 with pinned := Store.erase s2.pinned (k.qcb / 8192) }

/-- STOP (R342, R382). -/
def State.stopQueue (s : State) (q : Nat) : State :=
  let k := s.queue q
  if k.state = .unbound ∨ k.state = .stopped then s
  else if k.placing ≠ 0 then s.modQueue q fun k => { k with stopWait := true }
  else ((s.cancel (startEvent q)).cancel fun e => e == .queueHang q).setQueue q fun k => { k.quiet with state := .stopped }

/-- START (R342). A launch that is still placing goes on. -/
def State.startQueue (s : State) (q : Nat) : State :=
  let k := s.queue q
  if k.state ≠ .stopped then s
  else if k.placing ≠ 0 then (s.setQueue q fun k => { k with state := .active, err := 0, advance := s.tick.toNat, busy := true }).armDog q
  else (s.setQueue q fun k => { k.quiet with state := .idle, err := 0 }).nextPacket q

/-- SKIP (R342). A LAUNCH that still places is passed, and goes on (R344). -/
def State.skipQueue (s : State) (q : Nat) : State :=
  let k := s.queue q
  if k.state ≠ .stopped then s
  else (s.setQueue q fun k => { k.quiet with state := .idle, err := 0, head := k.head + 1, placing := 0 }).nextPacket q

/-- RESET (R342). -/
def State.resetQueue (s : State) (q : Nat) : State :=
  let k := s.queue q
  if k.state ≠ .stopped ∨ k.isBusy then s
  else (s.setQueue q fun k => { k.quiet with state := .active, err := 0, head := k.donepos, advance := s.tick.toNat }).nextPacket q

/-- A command of QCMD at a level of 1 (S) or more (R341). -/
def State.queueCommand (s : State) (q cmd level : Nat) : State :=
  match cmd with
  | 1 => if level ≥ 2 then s.bindQueue q else s
  | 2 => if level ≥ 2 then s.unbindQueue q else s
  | 3 => s.stopQueue q
  | 4 => s.startQueue q
  | 5 => if level ≥ 2 then s.resetQueue q else s
  | 6 => s.skipQueue q
  | _ => s

/-- A wake: the scarab reads TAIL (R339, R340, R342). -/
def State.wakeQueue (s : State) (q : Nat) (tail : Word) : State :=
  let k := s.queue q
  if k.state = .unbound then s
  else
    let s1 := s.modQueue q fun k => { k with
      tail := tail, rung := false, wakes := (k.wakes.filter fun w => decide (0 < idxDiff w.1 k.head)) ++ [(tail, s.serial)] }
    if (tail - k.donepos).toNat > 2 ^ k.ringlog then s1.queueError q 2
    else if k.state = .idle then s1.nextPacket q else s1

/-- The home L2 notifies the scarabs of the queues whose TAIL word has been written (R340). -/
def State.notifyWakes (s : State) : State :=
  if s.queues.any fun e => e.2.rung then
    (s.queues.filter fun e => e.2.rung).foldl (fun s e => s.wakeQueue e.1 (BitVec.ofNat 32 (s.l2Num ((s.queue e.1).qcb + 8) 4))) s
  else s

/-- QCB_AUDIT: every 1 ms while the queue is bound (R338). -/
def State.auditQueue (s : State) (q : Nat) : State :=
  if (s.queue q).state = .unbound then s
  else
    let s1 := s.after 1000000 (.qcbAudit q)
    match s1.auditAt q with
    | some off => s1.tamper q off
    | none => s1

/-- QUEUE_HANG (R377). A queue of context 0 has no partition to reset (R495). -/
def State.hangQueue (s : State) (q : Nat) : State :=
  let k := s.queue q
  if !(k.state == .active || k.state == .waiting) then s
  else if s.tick.toNat < k.advance + s.wdog * 1000000 then s.armDog q
  else if k.nowd then s
  else match k.partition with
    | some p => (s.eventBoth p 6 q k.ctx 0 k.head.toNat).causeReset p 1
    | none => s

/-! ### What a scarab reads and writes (R340, R344) -/

/-- How a scarab's access stands. -/
inductive Scarab where
  | ok (data : List (List Byte)) (pages : List PageAt) (s : State)
  | refused (s : State)
  | waits (s : State)

/-- The core number that stands for the scarabs in requests to other devices. -/
def scarabCore : Nat := 160

/-- Reads spans for the packet at HEAD of a queue; `ev` runs again when a wait ends (R343). -/
def State.scarabRead (s : State) (q : Nat) (ev : Instr) (xs : List Span) : Scarab :=
  let k := s.queue q
  if k.refused then .refused s
  else match s.reach none k.ctx .read (pageStarts xs) [] with
    | .fault _ _ s1 => .refused s1
    | .wait p i _ s1 => .waits (s1.modQueue q fun k => { k with waitRec := some (p, i), waitEv := some ev })
    | .ok ps s1 =>
      if s1.dirtyFrame ps then .waits (s1.soon ev)
      else
        let m := s1.missing ps k.got xs
        if !m.isEmpty then
          .waits (if k.out ≠ 0 then s1
            else m.foldl (fun s l => s.askLine k.ctx scarabCore (.queue q) ps l)
              (s1.modQueue q fun k => { k with out := m.length, waitEv := some ev }))
        else if s1.spansPoisoned ps xs then .waits (s1.queueCause q 4)
        else .ok (xs.map fun x => s1.spanBytes ps k.got x) ps s1

/-- Makes an address writable for the packet at HEAD of a queue. -/
def State.scarabReach (s : State) (q : Nat) (ev : Instr) (va : Nat) : Scarab :=
  let k := s.queue q
  if k.refused then .refused s
  else match s.reach none k.ctx .write [va] [] with
    | .fault _ _ s1 => .refused s1
    | .wait p i _ s1 => .waits (s1.modQueue q fun k => { k with waitRec := some (p, i), waitEv := some ev })
    | .ok ps s1 => .ok [] ps s1

/-- Performs a scarab's write at its home. -/
def State.scarabWrite (s : State) (ctx : Nat) (link : RemoteLink) (ps : List PageAt) (va : Nat) (bs : List Byte) : State :=
  ((s.putRuns ctx scarabCore ps [(va, bs)]).awayRuns ps [(va, bs)]).foldl (fun s x => s.sendRun ctx scarabCore link ps x) (s.putRuns ctx scarabCore ps [(va, bs)])

/-- The order at L2 of the wake that brought the packet at HEAD (R352). -/
def Queue.wake (k : Queue) : Nat := ((k.wakes.find? fun w => decide (0 < idxDiff w.1 k.head)).map Prod.snd).getD 0

/-- The order in which a scarab serves its queues: class, then wake (R352). -/
def State.before (s : State) (a b : Nat) : Bool :=
  let x := s.queue a
  let y := s.queue b
  decide (x.cls < y.cls ∨ (x.cls = y.cls ∧ x.wake < y.wake))

/-- When a queue of the same scarab that comes first is to be served, if one waits to be: a packet that is not itself in a wait. -/
def State.yields (s : State) (q : Nat) : Option Nat :=
  (s.calendar.find? fun e => match queueOfStart e.2 with
    | some r => r != q && r % 6 == q % 6 && s.before r q && (s.queue r).state == .active && !(s.queue r).waitRec.isSome
    | none => false).map Prod.fst

/-- Whether the packet at HEAD of a queue is under way. -/
def Queue.going (k : Queue) : Bool := (k.state == .active || k.state == .waiting) && k.busy

/-- The packet at HEAD, read whole at its start and kept until HEAD leaves it (R344). -/
def State.readPacket (s : State) (q : Nat) (ev : Instr) : Scarab :=
  let k := s.queue q
  if k.pkt ≠ [] then .ok [k.pkt] [] s
  else match s.scarabRead q ev [{ va := k.slot k.head, len := 64 }] with
    | .ok ds ps s1 => .ok ds ps (s1.modQueue q fun k => { k with pkt := ds.headD [] })
    | r => r

/-- Runs a packet's event: reads the packet and acts on it, if it is of the event's type (R344, R345). -/
def State.packet (s : State) (q ty : Nat) (ev : Instr) (f : List Byte → State → State) : State :=
  let k := s.queue q
  if !k.going || k.placing != 0 || k.out != 0 || k.waitRec.isSome then s
  else match s.yields q with
  | some at' => s.at (max at' s.tick.toNat) ev
  | none =>
  match s.readPacket q ev with
    | .refused s1 => s1.queueError q 3
    | .waits s1 => s1
    | .ok ds _ s1 =>
      let bs := ds.headD []
      let t := bytesField bs 0 1
      if !bytesZero bs 2 2 then s1.queueError q 1
      else if t = ty then f bs s1
      else match packetEvent q t with
        | some e => s1.soonFor q 1 e
        | none => s1.queueError q 1

/-- A packet is complete: a FENCE at HEAD that waits for it may go on (R345, R349). -/
def State.completePacket (s : State) (q idx : Nat) : State :=
  let s1 := s.modQueue q fun k => { k with inflight := k.inflight.erase idx }
  let k := s1.queue q
  if k.inflight = [] ∧ k.waitEv = some (.fencePacketComplete q) ∧ k.waitRec = none then
    (s1.modQueue q fun k => { k with waitEv := none }).soon (.fencePacketComplete q)
  else s1

/-! ### XCOPY and signals (R346, R350, R363) -/

/-- Takes a copy off a queue, and completes its packet, if it is one. -/
def State.endXCopy (s : State) (q : Nat) (c : XCopy) : State :=
  let s1 := s.modQueue q fun k => { k with copies := k.copies.eraseP fun x => x.run == c.run }
  if c.counts && !c.orphan then s1.completePacket q c.idx else s1

/-- A copy meets a refused translation (R343): the queue stops with PKT_FAULT and the packet ends. -/
def State.failXCopy (s : State) (q : Nat) (c : XCopy) : State := (if c.orphan then s else s.queueError q 3).endXCopy q c

/-- A copy waits for the service of a page. -/
def State.xcopyWaits (s : State) (q run part rec' : Nat) : State := s.modXCopy q run fun c => { c with waitRec := some (part, rec') }

/-- Copies the bytes of an XCOPY, as far as they are here (R350). -/
def State.moveXCopy (s : State) (q : Nat) (c : XCopy) : State :=
  let src : List Span := [{ va := c.src, len := c.len }]
  let dst : List Span := [{ va := c.dst, len := c.len }]
  match s.reach none c.ctx .read (pageStarts src) [] with
  | .fault _ _ s1 => s1.failXCopy q c
  | .wait p i _ s1 => s1.xcopyWaits q c.run p i
  | .ok ps s1 =>
    match s1.reach none c.ctx .write (pageStarts dst) [] with
    | .fault _ _ s2 => s2.failXCopy q c
    | .wait p i _ s2 => s2.xcopyWaits q c.run p i
    | .ok pd s2 =>
      let m := s2.missing ps c.got src
      if s2.dirtyFrame ps || s2.dirtyFrame pd then s2.soon (.xcopyComplete q c.run)
      else if !m.isEmpty then
        m.foldl (fun s l => s.askLine c.ctx scarabCore (.xcopy q c.run) ps l) (s2.modXCopy q c.run fun c => { c with out := m.length })
      else if s2.spansPoisoned ps src then
        match s2.partOf c.ctx with
        | some p => s2.causeReset p 2
        | none => s2
      else
        let bs := s2.spanBytes ps c.got { va := c.src, len := c.len }
        let s3 := s2.putRuns c.ctx scarabCore pd [(c.dst, bs)]
        -- runs that leave the device go line by line
        let lines := (List.range ((c.dst % 128 + c.len + 127) / 128)).map fun i =>
          let a := max c.dst ((c.dst / 128 + i) * 128)
          let b := min (c.dst + c.len) ((c.dst / 128 + i + 1) * 128)
          (a, (bs.drop (a - c.dst)).take (b - a))
        let away := s3.awayRuns pd lines
        let s4 := away.foldl (fun s x => s.sendRun c.ctx scarabCore (.xcopy q c.run) pd x)
          (s3.modXCopy q c.run fun c => { c with copied := true, got := [], out := away.length })
        if away.isEmpty then s4.soon (.xcopyComplete q c.run) else s4

/-- A release at SYSTEM scope for a context has nothing left to wait for: no buffered store to a peer, no posted store to the control
node (R208, R281, R296). -/
def State.sysReleased (s : State) (ctx : Nat) : Bool := (s.cores.all fun e => e.2.wc.all fun x => x.ctx != ctx) && (s.ctx ctx).sysOut == 0

/-- Writes the signal of a copy, a SIGNAL or a launch, and cleans its line to HBM (R346). -/
def State.signalXCopy (s : State) (q : Nat) (c : XCopy) : State :=
  let done := fun (s : State) =>
    let s1 : State := if c.msg then { s with hocpOut := s.hocpOut ++ [.signal q (BitVec.ofNat 64 c.sigVal)] } else s
    s1.endXCopy q c
  match c.sigAddr with
  | none => done s
  | some a =>
    if c.asked then done s
    else if c.sys ∧ !s.sysReleased c.ctx then
      ((if c.drained then s else s.drainCtx c.ctx).modXCopy q c.run fun c => { c with drained := true }).after 250 (.xcopyComplete q c.run)
    else match s.reach none c.ctx .write [a] [] with
      | .fault _ _ s1 => s1.failXCopy q c
      | .wait p i _ s1 => s1.xcopyWaits q c.run p i
      | .ok ps s1 =>
        if s1.dirtyFrame ps then s1.soon (.xcopyComplete q c.run)
        else
          let s2 := s1.scarabWrite c.ctx (.xcopy q c.run) ps a (leBytes 8 c.sigVal)
          match byteAt ps a with
          | some pa => done (s2.l2Clean fun x => x / 128 == pa / 128)
          | none => if s1.lostByte a then done s2 else s2.modXCopy q c.run fun c => { c with asked := true, out := 1 }

/-- XCOPY_COMPLETE: goes on with a copy or a signal until it waits or ends. -/
def State.finishXCopy (s : State) (q run : Nat) : State :=
  match (s.queue q).copies.find? fun c => c.run == run with
  | none => s
  | some c =>
    if c.refused then s.failXCopy q c
    else if c.out ≠ 0 ∨ c.waitRec.isSome then s
    else if c.copied then s.signalXCopy q c else s.moveXCopy q c

/-- Adds a copy to a queue's packets under way. -/
def State.pushXCopy (s : State) (q : Nat) (c : XCopy) : State := s.modQueue q fun k => { k with copies := k.copies ++ [c] }

/-- A packet that blocks nothing: HEAD passes it and it runs on (R345). -/
def State.passPacket (s : State) (q : Nat) (c : XCopy) : State :=
  let k := s.queue q
  ((s.pushXCopy q { c with ctx := k.ctx }).modQueue q fun k => { k with inflight := k.inflight ++ [c.idx] }).advanceHead q (k.head + 1)

/-- A signal address as LAUNCH and XCOPY name it: 0 writes nothing. -/
def sigOf (a : Nat) : Option Nat := if a = 0 then none else some a

/-- XCOPY (R350). -/
def State.startXCopy (s : State) (q : Nat) : State :=
  s.packet q 2 (.xcopy q) fun bs s =>
    let f := fun o => bytesField bs o 8
    let idx := (s.queue q).head.toNat
    if !bytesZero bs 1 1 || !bytesZero bs 4 4 || !bytesZero bs 48 16 || f 8 % 16 != 0 || f 16 % 16 != 0 || f 24 % 16 != 0 || f 24 == 0
      || f 32 % 8 != 0 then s.queueError q 1
    else
      let n := s.fresh
      (n.2.passPacket q { run := n.1, idx := idx, src := f 8, dst := f 16, len := f 24, sigAddr := sigOf (f 32), sigVal := f 40 }).soon
        (.xcopyComplete q n.1)

/-- SIGNAL (R346). -/
def State.startSignal (s : State) (q : Nat) : State :=
  s.packet q 3 (.signal q) fun bs s =>
    let f := fun o => bytesField bs o 8
    let idx := (s.queue q).head.toNat
    let flags := bytesField bs 1 1
    if flags ≥ 4 || !bytesZero bs 4 4 || !bytesZero bs 24 40 || f 8 % 8 != 0 then s.queueError q 1
    else
      let n := s.fresh
      (n.2.passPacket q { run := n.1, idx := idx, copied := true, sigAddr := some (f 8), sigVal := f 16, msg := flags % 2 == 1
                          sys := flags / 2 == 1 }).finishXCopy q n.1

/-! ### COND, WAITORD and FENCE (R347 to R349) -/

/-- A packet waits, blocking its queue (R342). -/
def State.waitPacket (s : State) (q : Nat) (nowd : Bool) (ev : Option Instr) : State :=
  s.setQueue q fun k => { k with state := .waiting, nowd := nowd, waitEv := ev, got := [] }

/-- The comparison of a COND (R347). -/
def condHolds (cc : Nat) (a b : Int) : Bool :=
  match cc with
  | 0 => a == b
  | 1 => a != b
  | 2 => decide (a < b)
  | 3 => decide (a ≤ b)
  | 4 => decide (a > b)
  | _ => decide (a ≥ b)

/-- HEAD moves to a target (R347). -/
def State.jumpHead (s : State) (q : Nat) (target : Word) : State :=
  if idxDiff target (s.queue q).donepos < 0 then s.queueError q 1 else s.advanceHead q target

/-- COND, and its rereading (R347). -/
def State.startCond (s : State) (q : Nat) (ev : Instr) : State :=
  s.packet q 4 ev fun bs s =>
    let k := s.queue q
    let flags := bytesField bs 1 1
    let w64 := flags % 2 == 1
    let n := if w64 then 64 else 32
    let va := bytesField bs 8 8
    let cc := bytesField bs 24 1
    let action := bytesField bs 25 1
    let count := bytesField bs 28 4
    let bad := flags ≥ 8 || !bytesZero bs 4 4 || !bytesZero bs 26 2 || !bytesZero bs 32 32 || va % (n / 8) != 0 || cc > 5 || action > 2
      || (action == 0 && count ≥ 2 ^ k.ringlog) || (action == 1 && count != 0) || (action == 2 && count == 0)
    if bad then s.queueError q 1
    else match (s.modQueue q fun k => { k with nowd := flags / 4 % 2 == 1 }).scarabRead q ev [{ va := va, len := n / 8 }] with
      | .refused s1 => s1.queueError q 3
      | .waits s1 => s1
      | .ok ds _ s1 =>
        let x := leNat (ds.headD [])
        let y := bytesField bs 16 8 % 2 ^ n
        let num := fun (v : Nat) => if flags / 2 % 2 = 1 then toSigned n v else (v : Int)
        let holds := condHolds cc (num x) (num y)
        let next := k.head + 1
        match action with
        | 0 => s1.jumpHead q (if holds then next + BitVec.ofNat 32 count else next)
        | 1 =>
          if holds then s1.advanceHead q next
          else (s1.waitPacket q (flags / 4 % 2 == 1) none).after 1000 (.condReread q)
        | _ => s1.jumpHead q (if holds then k.head + BitVec.ofNat 32 count else next)

/-- WAITORD (R348). -/
def State.startWaitord (s : State) (q : Nat) : State :=
  s.packet q 7 (.waitord q) fun bs s =>
    let k := s.queue q
    let r := bytesField bs 8 2
    let flags := bytesField bs 1 1
    if flags ≥ 2 || !bytesZero bs 4 4 || !bytesZero bs 10 6 || !bytesZero bs 24 40 || r ≥ 1024 || (s.queue r).state == .unbound
      || (s.queue r).partition != k.partition then s.queueError q 1
    else if (s.queue r).doneord.toNat ≥ bytesField bs 16 8 then s.advanceHead q (k.head + 1)
    else s.waitPacket q (flags == 1) (some (.waitord q))

/-- FENCE: waits for every earlier packet of the queue (R349 step 1). -/
def State.startFence (s : State) (q : Nat) : State :=
  s.packet q 5 (.fencePacket q) fun bs s =>
    if !bytesZero bs 1 1 || !bytesZero bs 4 4 || !bytesZero bs 24 40 || bytesField bs 16 8 % 8 != 0 then s.queueError q 1
    else if (s.queue q).inflight = [] then s.soon (.fencePacketComplete q)
    else s.waitPacket q false (some (.fencePacketComplete q))

/-- FENCE: its release and its writes (R349 steps 2 and 3). -/
def State.finishFence (s : State) (q : Nat) : State :=
  s.packet q 5 (.fencePacketComplete q) fun bs s =>
    let k := s.queue q
    let ord := bytesField bs 8 8
    let va := bytesField bs 16 8
    let done := fun (s : State) =>
      (((s.modQueue q fun k => { k with doneord := BitVec.ofNat 64 ord, donepos := k.head + 1 }).advanceHead q (k.head + 1)).pokeOrdinals)
    if k.inflight ≠ [] then s.waitPacket q false (some (.fencePacketComplete q))
    else
      let s1 := (s.cores.map Prod.fst).foldl (fun s c => s.l1Release c) s
      if va = 0 then done s1
      else match s1.scarabReach q (.fencePacketComplete q) va with
        | .refused s2 => s2.queueError q 3
        | .waits s2 => s2
        | .ok _ ps s2 =>
          if s2.dirtyFrame ps then s2.soon (.fencePacketComplete q)
          else done (s2.scarabWrite k.ctx postedLink ps va (leBytes 8 ord))

/-! ### LAUNCH (R354 to R358) -/

/-- The role records of a descriptor, and whether they obey R356. -/
def roleAt (d : List Byte) (i : Nat) : Role :=
  let o := 64 + 16 * i
  { entry := BitVec.ofNat 32 (bytesField d o 4), warps := bytesField d (o + 4) 1, vregs := bytesField d (o + 5) 1
    sregs := bytesField d (o + 6) 1, threads := bytesField d (o + 8) 4 }
def roleOk (d : List Byte) (n i : Nat) : Bool :=
  let r := roleAt d i
  let o := 64 + 16 * i
  if i ≥ n then bytesZero d o 16
  else
    decide (1 ≤ r.warps) && decide (8 ≤ r.vregs ∧ r.vregs ≤ 64) && r.vregs % 8 == 0 && decide (16 ≤ r.sregs ∧ r.sregs ≤ 64)
      && r.sregs % 8 == 0 && decide (96 * (r.warps - 1) < r.threads ∧ r.threads ≤ 96 * r.warps) && bytesZero d (o + 7) 1
      && bytesZero d (o + 12) 4

/-- The tile records of a table, and whether they obey R213 and R357. -/
def tileRecAt (t : List Byte) (i : Nat) : TileRec :=
  let o := 16 * i
  { kind := bytesField t o 1, tag := bytesField t (o + 1) 1, rows := bytesField t (o + 2) 2, cols := bytesField t (o + 4) 2
    lacc := bytesField t (o + 6) 1, col := bytesField t (o + 7) 1, base := bytesField t (o + 8) 4 }
/-- The tags a kind allows (R213). -/
def kindTag (k tag : Nat) : Bool :=
  match k with
  | 0 => (decide (1 ≤ tag ∧ tag ≤ 9)) || tag == 0xB || tag == 0xC
  | 1 => (decide (5 ≤ tag ∧ tag ≤ 9)) || tag == 0xB
  | 2 => tag == 2 || tag == 4
  | _ => false
def TileRec.ok (t : TileRec) (scratch : Nat) : Bool :=
  kindTag t.kind t.tag && (match t.kind with
    | 0 => shapeOk .scr t.tag t.rows t.cols && t.base % 128 == 0 && t.lacc == 0 && t.col == 0
      && decide (t.base + scrBytes t.tag t.rows t.cols ≤ scratch)
    | 1 => shapeOk .opnd t.tag t.rows (kSpan t.tag) && t.cols == kSpan t.tag && t.lacc == 0 && t.col == 0 && t.base == 0
    | _ => shapeOk .acc t.tag t.rows t.cols && decide (t.lacc ≤ 3) && decide (32 * t.col + t.cols ≤ 192) && t.base == 0)

/-- A group entry of a table (R357). -/
def groupAt (t : List Byte) (i : Nat) : Group :=
  let v := bytesField t (8 * i) 8
  { valid := v % 2 == 1, roles := BitVec.ofNat 4 (v / 2), warps := BitVec.ofNat 32 (v / 2 ^ 32), wgsel := v / 2 ^ 5 % 4, blocklog := v / 2 ^ 7 % 16 }

/-- The descriptor of a launch, with its tables, as the launch they declare. -/
def readLaunch (p d tt gt : List Byte) (q idx ctx : Nat) : Launch :=
  let f := fun o n => bytesField d o n
  { active := true, queue := q, index := idx, ctx := ctx, id := BitVec.ofNat 32 (bytesField p 4 4)
    sigAddr := BitVec.ofNat 64 (bytesField p 16 8), sigVal := BitVec.ofNat 64 (bytesField p 24 8), arg := BitVec.ofNat 64 (bytesField p 32 8)
    codebase := BitVec.ofNat 64 (f 0 8), database := BitVec.ofNat 64 (f 8 8), privArea := BitVec.ofNat 64 (f 16 8), privWords := f 24 3
    scratch := f 28 4, gridX := f 32 4, gridY := f 36 4, gridZ := f 40 4, isResident := f 46 1 % 2 == 1
    roles := (List.range (min 4 (f 44 1))).map (roleAt d), tiles := (List.range (min 32 (f 45 1))).map (tileRecAt tt)
    groups := (List.range 256).foldl (fun m i => Store.set {} m i (if gt.isEmpty then {} else groupAt gt i)) []
    races := (List.range (min 4 (f 47 1))).map fun i => (f (128 + 12 * i) 4, f (132 + 12 * i) 4, f (136 + 12 * i) 1) }

/-- R355 to R357. -/
def launchOk (d tt gt : List Byte) (l : Launch) : Bool :=
  let f := fun o n => bytesField d o n
  f 0 8 % 8192 == 0 && f 16 8 % 8192 == 0 && (f 24 3 != 0 || f 16 8 == 0) && f 27 1 == 0 && decide (l.scratch ≤ 524288)
    && l.scratch % 8192 == 0 && decide (1 ≤ l.total) && decide (l.total ≤ 2 ^ 32 - 1) && decide (1 ≤ f 44 1 ∧ f 44 1 ≤ 4)
    && decide (f 45 1 ≤ 32) && decide (f 46 1 ≤ 1) && decide (f 47 1 ≤ 4) && f 48 8 % 16 == 0 && (f 45 1 != 0 || f 48 8 == 0)
    && f 56 8 % 8 == 0 && f 176 80 == 0 && (List.range 4).all (roleOk d (f 44 1)) && decide (l.nwarps ≤ 32)
    && (List.range 4).all (fun i => f (137 + 12 * i) 3 == 0)
    && (List.range (f 45 1)).all (fun i => (tileRecAt tt i).ok l.scratch && bytesZero tt (16 * i + 12) 4)
    && (List.range (gt.length / 8)).all fun i => bytesField gt (8 * i) 4 / 2 ^ 11 == 0 && !((groupAt gt i).valid && (groupAt gt i).wgsel == 3)

/-- R43: no warp in more than four groups. -/
def Launch.groupsOk (l : Launch) : Bool := (List.range l.nwarps).all fun j => decide ((l.groupsOf j).length ≤ 4)
/-- R43: groups beyond one workgroup need a resident launch. -/
def Launch.scopeOk (l : Launch) : Bool := l.isResident || l.groups.all fun g => !g.2.valid || g.2.wgsel == 0
/-- R299. -/
def Launch.racesOk (l : Launch) : Bool :=
  let g := fun (r : Nat × Nat × Nat) => Store.get ({} : Group) l.groups r.2.2
  l.races.all (fun r => r.1 % 32 == 0 && r.2.1 % 32 == 0 && decide (r.1 + r.2.1 ≤ l.scratch) && (g r).valid && (g r).wgsel == 0)
    && decide (l.races.Pairwise fun a b => a.1 + a.2.1 ≤ b.1 ∨ b.1 + b.2.1 ≤ a.1)

/-- The cores of the quota of a context (R360). -/
def State.quota (s : State) (ctx : Nat) : Nat :=
  match s.partOf ctx with
  | some p => (maskCores ((s.part p).field 8 8)).length
  | none => if ctx = 0 then 160 else 0
/-- LAUNCH_FIT of R360: what one core of the quota has to hold. -/
def State.launchFits (s : State) (l : Launch) : Bool :=
  let cs := s.quota l.ctx
  decide (0 < cs) && l.holds (if l.isResident then (l.total + cs - 1) / cs else 1)

/-- LAUNCH: the checks of R358, and the start of its placement. -/
def State.startLaunch (s : State) (q : Nat) : State :=
  s.packet q 1 (.launch q) fun bs s =>
    let k := s.queue q
    let desc := bytesField bs 8 8
    if !bytesZero bs 1 1 || !bytesZero bs 40 24 || desc % 256 != 0 || bytesField bs 16 8 % 8 != 0 then s.queueError q 1
    else match s.scarabRead q (.launch q) [{ va := desc, len := 256 }] with
      | .refused s1 => s1.queueError q 3
      | .waits s1 => s1
      | .ok ds _ s1 =>
        let d := ds.headD []
        let nt := bytesField d 45 1
        let spans := (if 1 ≤ nt ∧ nt ≤ 32 then [({ va := bytesField d 48 8, len := 16 * nt } : Span)] else [])
          ++ (if bytesField d 56 8 = 0 then [] else [({ va := bytesField d 56 8, len := 2048 } : Span)])
        match s1.scarabRead q (.launch q) spans with
        | .refused s2 => s2.queueError q 3
        | .waits s2 => s2
        | .ok ts _ s2 =>
          let tt := if 1 ≤ nt ∧ nt ≤ 32 then ts.headD [] else []
          let gt := if bytesField d 56 8 = 0 then [] else ts.getLastD []
          let l : Launch := { readLaunch bs d tt gt q k.head.toNat k.ctx with ring := k.ringbase }
          if !launchOk d tt gt l then s2.queueError q 5
          else if !l.groupsOk then s2.queueError q 6
          else if !l.scopeOk then s2.queueError q 7
          else if !l.racesOk then s2.queueError q 8
          else if !s2.launchFits l then s2.queueError q 9
          else
            let n := s2.fresh
            ((n.2.modLaunch n.1 fun _ => l).modQueue q fun k => { k with placing := n.1 + 1, inflight := k.inflight ++ [l.index] }).soonFor q 3000
              (.workgroupPlace n.1)

/-! ### Placing, releasing and retiring (R360 to R363) -/

/-- Every workgroup of a launch is placed: its queue goes on (R344, R382). -/
def State.placedAll (s : State) (l : Nat) : State :=
  let q := (s.launch l).queue
  let k := s.queue q
  if k.placing = l + 1 then (s.modQueue q fun k => { k with placing := 0 }).advanceHead q (k.head + 1) else s

/-- A launch that does not fit now blocks its queue and is tried again. -/
def State.blockPlace (s : State) (l : Nat) : State :=
  let q := (s.launch l).queue
  let k := s.queue q
  let s1 := if k.placing = l + 1 ∧ k.state = .active then s.setQueue q fun k => { k with state := .waiting } else s
  s1.pokePlace l

/-- Whether the next workgroup of a launch, or all of a resident one, fits now. -/
def State.fitsNow (s : State) (l : Nat) : Bool :=
  let k := s.launch l
  if k.isResident then (s.placeAll l).isSome else (s.placeNext l).isSome

/-- Frees places for a class-0 launch by pre-empting workgroups of class 1 or 2 on its cores, of its own context too, until it fits
(R353, R369, R382). One that awaits an answer stops until it can go, or until the launch has found its place elsewhere. -/
def State.makeRoom (s : State) (l : Nat) : State :=
  let k := s.launch l
  if (s.queue k.queue).cls ≠ 0 then s
  else
    let cs := s.coresOf k.ctx
    let gs := (s.wgs.filter fun e => !e.2.out && cs.contains e.2.core && (s.queue (s.launch e.2.launch).queue).cls != 0).map Prod.fst
    gs.foldl (fun s g =>
      if s.fitsNow l || (s.wg g).out then s
      else
        let r := s.preemptAll [g]
        (if r.2 then r.1 else (r.1.mates g).foldl (fun s h => s.modWg h fun x => { x with roomFor := l + 1 }) r.1).pokePlace (s.wg g).launch) s

/-- When a launch that comes first is to be placed, of those that are on their way to a place or fit now (R352). -/
def State.placeYields (s : State) (l : Nat) : Option Nat :=
  (s.calendar.find? fun e => match e.2 with
    | .workgroupPlace m => m != l && s.before (s.launch m).queue (s.launch l).queue
        && ((s.queue (s.launch m).queue).state != .waiting || s.fitsNow m)
    | _ => false).map Prod.fst

/-- WORKGROUP_PLACE (R360, R370): saved workgroups first, then the next one, or all of a resident launch. -/
def State.placeStep (s : State) (l : Nat) : State :=
  let k := s.launch l
  if !k.active then s.keepRoom l
  else match s.placeYields l with
  | some at' => s.at (max at' s.tick.toNat) (.workgroupPlace l)
  | none =>
    let r := s.restoreSaved l
    if !r.2 then r.1.blockPlace l
    else if k.next ≥ k.total then r.1.placedAll l
    else if k.isResident then
      match r.1.placeAll l with
      | some p => ((p.1.foldl (fun s g => s.soonFor k.queue 3000 (.workgroupRelease g)) p.2).placedAll l).keepRoom l
      | none => (r.1.makeRoom l).blockPlace l
    else match r.1.placeNext l with
      | some p =>
        let s1 := p.2.soonFor k.queue 3000 (.workgroupRelease p.1)
        (if (s1.launch l).next ≥ k.total then s1.placedAll l else s1.pokePlace l).keepRoom l
      | none => (r.1.makeRoom l).blockPlace l

/-- The launch ends, which completes its packet; its signal is then written (R345, R363). One that a reset has abandoned signals
nothing (R379). -/
def State.endLaunch (s : State) (l : Nat) : State :=
  let k := s.launch l
  let s1 := (({ s with launches := Store.erase s.launches l } : State).cancel fun e => e == .workgroupPlace l).keepRoom l
  if !k.active then s1
  else
    let n := s1.fresh
    ((n.2.completePacket k.queue k.index).pushXCopy k.queue
      { run := n.1, idx := k.index, counts := false, ctx := k.ctx, copied := true, sigAddr := sigOf k.sigAddr.toNat, sigVal := k.sigVal.toNat }).soon
      (.xcopyComplete k.queue n.1)

/-- WORKGROUP_RETIRE (R363). -/
def State.retireWg (s : State) (g : Nat) : State :=
  if !s.mayRetire g || (s.wg g).out then s
  else
    let w := s.wg g
    let l := w.launch
    let s1 := ((s.l1Release w.core).freeWg g).modLaunch l fun k => { k with retired := k.retired + 1 }
    let q := (s1.launch l).queue
    let s2 := if (s1.queue q).placing = l + 1 then (s1.modQueue q fun k => { k with advance := s.tick.toNat }).armDog q else s1
    if (s2.launch l).retired ≥ (s2.launch l).total then s2.endLaunch l else s2

/-! ### The events -/

/-- WAKE_WRITE (R340): TAIL is written at its home L2, and the scarab reads it. -/
def execWakeWrite (q : Nat) (tail : Word) (s : State) : Out :=
  .next (if (s.queue q).state = .unbound then s else (s.l2SetNum ((s.queue q).qcb + 8) 4 tail.toNat).wakeQueue q tail)
/-- LAUNCH (R354). -/
def execLaunch (q : Nat) (s : State) : Out := .next (s.startLaunch q)
/-- XCOPY (R350). -/
def execXcopy (q : Nat) (s : State) : Out := .next (s.startXCopy q)
/-- XCOPY_COMPLETE (R350). -/
def execXcopyComplete (q run : Nat) (s : State) : Out := .next (s.finishXCopy q run)
/-- SIGNAL (R346). -/
def execSignal (q : Nat) (s : State) : Out := .next (s.startSignal q)
/-- COND (R347). -/
def execCond (q : Nat) (s : State) : Out := .next (s.startCond q (.cond q))
/-- COND_REREAD (R347). -/
def execCondReread (q : Nat) (s : State) : Out := .next (s.startCond q (.condReread q))
/-- FENCE_PACKET (R349). -/
def execFencePacket (q : Nat) (s : State) : Out := .next (s.startFence q)
/-- FENCE_PACKET_COMPLETE (R349). -/
def execFencePacketComplete (q : Nat) (s : State) : Out := .next (s.finishFence q)
/-- WAITORD (R348). -/
def execWaitord (q : Nat) (s : State) : Out := .next (s.startWaitord q)
/-- WORKGROUP_PLACE (R360). -/
def execWorkgroupPlace (l : Nat) (s : State) : Out := .next (s.placeStep l)
/-- WORKGROUP_RELEASE (R361). -/
def execWorkgroupRelease (wg : Nat) (s : State) : Out :=
  .next (if (s.wg wg).warps = [] ∨ (s.wg wg).resident ∨ !(s.launch (s.wg wg).launch).active then s else s.releaseWg wg)
/-- WORKGROUP_RETIRE (R363). -/
def execWorkgroupRetire (wg : Nat) (s : State) : Out := .next (s.retireWg wg)
/-- BIND (R342). -/
def execBind (q : Nat) (s : State) : Out := .next (s.bindQueue q)
/-- UNBIND (R342). -/
def execUnbind (q : Nat) (s : State) : Out := .next (s.unbindQueue q)
/-- QUEUE_STOP (R342). -/
def execQueueStop (q : Nat) (s : State) : Out := .next (s.stopQueue q)
/-- QUEUE_START (R342). -/
def execQueueStart (q : Nat) (s : State) : Out := .next (s.startQueue q)
/-- QUEUE_RESET (R342). -/
def execQueueReset (q : Nat) (s : State) : Out := .next (s.resetQueue q)
/-- SKIP (R342). -/
def execSkipOp (q : Nat) (s : State) : Out := .next (s.skipQueue q)
/-- QCB_AUDIT (R338). -/
def execQcbAudit (q : Nat) (s : State) : Out := .next (s.auditQueue q)
/-- QUEUE_HANG (R377). -/
def execQueueHang (q : Nat) (s : State) : Out := .next (s.hangQueue q)

end Sys2Proof.Machine
end

