-- ==== Sys2Proof/Machine/Usage.lean ====
section
/-! DEFINITION. The usage log of a partition: its records, its blocks and their signatures (R399, R467, R468). -/

namespace Sys2Proof.Machine

/-- A usage record of 64 bytes: KIND, CTX, TICK and the bytes from 16 on (R467). -/
def usageRec (kind ctx tick : Nat) (rest : List Byte) : List Byte :=
  (leBytes 4 kind ++ leBytes 4 ctx ++ leBytes 8 tick ++ rest ++ List.replicate 64 0).take 64

/-- Bytes 0 to 87 of a block's header (R468). -/
def blockHead (part seq first last : Nat) (prev : List Byte) : List Byte :=
  leBytes 4 0x55534731 ++ leBytes 2 1 ++ [BitVec.ofNat 8 part, 0] ++ leBytes 8 seq ++ leBytes 8 Config.devid.toNat ++ leBytes 8 first
    ++ leBytes 8 last ++ (prev ++ List.replicate 48 0).take 48

/-- Writes the open block, sealed and signed, to its slot of the ring (R467, R468). -/
def State.writeBlock (s : State) (p : Nat) : State :=
  let x := s.part p
  let head := blockHead p x.useq x.ufirst x.ulast x.udigest
  let recs := (x.urecs.flatten ++ List.replicate 4096 0).take 4096
  let digest := (Config.sha384 (head ++ recs)).take 48
  let sig := (Config.sign digest).take 96
  s.l2Write (x.field 88 8 + x.useq % 2 ^ x.field 60 1 * 4352) (head ++ digest ++ sig ++ List.replicate 24 0 ++ recs)

/-- The DIGEST of the open block as it would be sealed now. -/
def Part.blockDigest (x : Part) (p : Nat) : List Byte :=
  (Config.sha384 (blockHead p x.useq x.ufirst x.ulast x.udigest ++ (x.urecs.flatten ++ List.replicate 4096 0).take 4096)).take 48

/-- Seals the open block and opens the next. -/
def State.sealBlock (s : State) (p : Nat) : State :=
  let d := (s.part p).blockDigest p
  (s.writeBlock p).modPart p fun x => { x with useq := x.useq + 1, udigest := d, urecs := [], ufirst := 0, ulast := 0 }

/-- Adds a record to the open block (R467). -/
def State.usage (s : State) (p : Nat) (rec : List Byte) : State :=
  let s1 := s.modPart p fun x => { x with
    urecs := x.urecs ++ [rec], ufirst := if x.urecs.isEmpty then s.tick.toNat else x.ufirst, ulast := s.tick.toNat }
  if (s1.part p).urecs.length ≥ 64 then s1.sealBlock p else s1

/-- A CARVE record (R467). -/
def State.carveRecord (s : State) (p cmd : Nat) : State := s.usage p (usageRec 4 0 s.tick.toNat [BitVec.ofNat 8 cmd])

/-- The positions of a context that count for its usage (R385, R396). -/
def State.posNow (s : State) (ctx : Nat) : List Nat :=
  let c := s.ctx ctx
  match c.loop.contract with
  | some _ => if c.loop.susp then [0, 0, 0, 0, 0] else c.loop.pos
  | none =>
    if c.loop.susp then [0, 0, 0, 0, 0]
    else match s.partOf ctx with
      | some p => [8, (maskCores ((s.part p).field 8 8)).length, 1, 1, 8]
      | none => [8, 160, 1, 1, 8]

/-- Adds the time since the last change at the positions in force (R467). -/
def State.accrue (s : State) (ctx : Nat) : State :=
  let c := s.ctx ctx
  let dt := s.tick.toNat - c.posAt
  let old := if c.posMs.isEmpty then [0, 0, 0, 0, 0] else c.posMs
  s.modCtx ctx fun c => { c with posMs := (old.zip (s.posNow ctx)).map fun x => x.1 + x.2 * dt, posAt := s.tick.toNat }

/-- Writes the USAGE record of a context for the second that ends (R467). -/
def State.usageOf (s : State) (p ctx : Nat) : State :=
  let s1 := s.accrue ctx
  let c := s1.ctx ctx
  let rest := (c.posMs.flatMap fun x => leBytes 4 (x / 1000000)) ++ leBytes 4 c.loop.beatsSec ++ leBytes 4 (c.energy / 1000000000) ++ leBytes 2 c.loop.breachSec
  ((s1.usage p (usageRec 1 ctx s.tick.toNat rest))).modCtx ctx fun c =>
    { c with usedSec := false, posMs := [], energy := 0, loop := { c.loop with beatsSec := 0, breachSec := 0 } }

/-- USAGE_RECORD_WRITE: once a second, for each context that held a grant or issued a word (R467). -/
def State.writeUsage (s : State) (p : Nat) : State :=
  let x := s.part p
  if x.state ≠ .active ∧ x.state ≠ .resetting then s
  else
    let used := (s.ctxs.filter fun e => decide (x.ctxbase ≤ e.1 ∧ e.1 < x.ctxbase + x.ctxcount)
      && (e.2.usedSec || (e.2.loop.contract.isSome && !e.2.loop.susp) || e.2.posMs.any (· != 0))).map Prod.fst
    ((used.foldl (fun s c => s.usageOf p c) s)).at ((s.tick.toNat / 1000000000 + 1) * 1000000000) (.usageRecordWrite p)

/-- USAGE_RECORD_WRITE. -/
def execUsageRecordWrite (part : Nat) (s : State) : Out := .next (s.writeUsage part)

/-- A BREACH record (R399, R467). -/
def State.breach (s : State) (ctx kind : Nat) (k : Contract) (meas : List Nat) (g low tick : Nat) : State :=
  match s.partOf ctx with
  | none => s
  | some p =>
    let m := (meas ++ [0, 0, 0]).take 3
    let rest := leBytes 1 kind ++ leBytes 1 k.ilog ++ leBytes 2 k.target ++ leBytes 2 k.res ++ leBytes 2 k.dceil
      ++ (m.flatMap fun x => leBytes 2 (min x 0xFFFF)) ++ leBytes 2 g ++ leBytes 1 low
    (s.usage p (usageRec 2 ctx tick rest)).modCtx ctx fun c => { c with loop := { c.loop with breachSec := c.loop.breachSec + 1 } }

end Sys2Proof.Machine
end

