-- ==== Sys2Proof/Machine/Beat.lean ====
section
/-! DEFINITION. Beat contracts and their admission (R351, R384 to R388), the controller (R390, R391, R483), Equinox and the
grants (R392 to R396), the promise (R397 to R399) and the beat groups (R403, R417). -/

namespace Sys2Proof.Machine

def State.modLoop (s : State) (ctx : Nat) (f : Loop → Loop) : State := s.modCtx ctx fun c => { c with loop := f c.loop }

/-! ### Stakes, and the core assignment of R387 -/

/-- What a context brings before Equinox: its class, its actuators and its bounds, and the grant it stands at. -/
structure Stake where
  ctx : Nat
  cls : Nat
  floors : List Nat
  ceils : List Nat
  dfloor : Nat
  res : Nat
  g : Nat
  deriving DecidableEq, Repr

def Stake.pos (x : Stake) : List Nat := fillPos x.floors x.ceils (x.g - x.floors.sum)

/-- The first core with the most free units among those with at least `need`. -/
def mostFree (need : Nat) (free : List (Nat × Nat)) : Option Nat :=
  (free.foldl (fun (b : Option (Nat × Nat)) e =>
    if e.2 < need then b
    else match b with
      | some x => if x.2 < e.2 then some e else b
      | none => some e) none).map Prod.fst

/-- Picks up to `n` cores, most free units first, ties to the lowest number. -/
def pickCores (need : Nat) : Nat → List (Nat × Nat) → List Nat
  | 0, _ => []
  | n + 1, free =>
    match mostFree need free with
    | none => []
    | some c => c :: pickCores need n (free.filter fun e => e.1 != c)

/-- The order in which assign serves contexts: class 0 before 1, larger SLOTS first, lower context id (R387). -/
def stakeBefore (a b : Stake) : Bool :=
  let sa := a.pos.headD 0
  let sb := b.pos.headD 0
  decide (a.cls < b.cls) || (a.cls == b.cls && (decide (sa > sb) || (sa == sb && decide (a.ctx < b.ctx))))
def insertStake (x : Stake) : List Stake → List Stake
  | [] => [x]
  | y :: rest => if stakeBefore x y then x :: y :: rest else y :: insertStake x rest

/-- assign of R387: the picked core sets, or none. A class-0 context takes cores of the quota alone, none that are lent (R462). -/
def assignCores (own : Nat → Bool) : List Stake → List (Nat × Nat) → Option (List (Nat × List Nat))
  | [], _ => some []
  | x :: rest, free =>
    let need := x.pos.headD 0
    let n := x.pos.getD 1 0
    let cs := pickCores need n (if x.cls = 0 then free.filter fun e => own e.1 else free)
    if cs.length < n then none
    else (assignCores own rest (free.map fun e => if cs.contains e.1 then (e.1, e.2 - need) else e)).map fun l => (x.ctx, cs) :: l

/-- The number of ones of a mask of 32 bits. -/
def popcount (m : Nat) : Nat := ((List.range 64).filter fun i => m / 2 ^ i % 2 == 1).length

/-- The cores over which a partition's reservations and grants are assigned: its quota, and what is lent to it. -/
def State.quotaCores (s : State) (p : Nat) : List Nat := maskCores ((s.part p).field 8 8)
def State.grantCores (s : State) (p : Nat) : List Nat :=
  let lent := s.lent p
  let own := s.quotaCores p
  (List.range 160).filter fun c => own.contains c || lent.contains (c / 4)

/-- Whether stakes fit over some cores (R387). -/
def State.stakesFit (s : State) (p : Nat) (cores : List Nat) (xs : List Stake) : Bool :=
  decide ((xs.map fun x => x.pos.getD 2 0).sum ≤ popcount ((s.part p).field 16 4)) && decide ((xs.map fun x => x.pos.getD 3 0).sum ≤ 16)
    && (assignCores (fun c => (s.quotaCores p).contains c) (xs.foldl (fun l x => insertStake x l) []) (cores.map fun c => (c, 8))).isSome

def Contract.stake (k : Contract) (ctx g : Nat) : Stake :=
  { ctx := ctx, cls := k.cls, floors := k.floors, ceils := k.ceils, dfloor := k.dfloor, res := k.res, g := g }

/-- The positions of a context with no contract in force (R396). -/
def State.plainPos (s : State) (p : Nat) : List Nat := [8, (s.quotaCores p).length, 1, 1, 8]
/-- Its fixed stake. -/
def State.plainStake (s : State) (p ctx : Nat) : Stake :=
  let pos := s.plainPos p
  { ctx := ctx, cls := 2, floors := pos, ceils := pos, dfloor := pos.sum, res := pos.sum, g := pos.sum }

/-- Issue weight (R394). -/
def Contract.weight (k : Contract) (g : Nat) : Nat := 1 + 14 * (g + 1 - k.dfloor) / (k.dceil - k.dfloor + 1)

/-! ### Clock requests (R393, R444) -/

/-- The contexts granted cores on a cluster, with the step each asks for and whether it holds a class-0 contract. -/
def State.grantsOn (s : State) (c : Nat) : List (Nat × Bool) :=
  s.ctxs.filterMap fun e =>
    if !e.2.live || e.1 == 0 || e.2.loop.susp then none
    else if !(s.coresOf e.1 ++ e.2.loop.coming ++ e.2.loop.ahead).any (fun k => k / 4 == c) then none
    else match e.2.loop.contract with
      | some k => some (e.2.loop.pos.getD 4 0, k.cls == 0)
      | none => some (8, false)

/-- The step a cluster is to run at, before R445 and R451. -/
def State.wantedStep (s : State) (c : Nat) : Nat :=
  (s.grantsOn c).foldl (fun m g => max m (if g.2 then max g.1 8 else g.1)) 0

/-- Whether an event is a request for a step of a cluster. -/
def stepRequest (c : Nat) : Instr → Bool
  | .stepChangeRequest d _ => d == c
  | _ => false
/-- Asks for the steps of the clusters where the request has changed; the latest request is the one that counts. -/
def State.requestClocks (s : State) : State :=
  (List.range 40).foldl (fun s c =>
    let n := s.wantedStep c
    if (s.cluster c).request = n then s
    else ((s.cancel (stepRequest c)).modCluster c fun k => { k with request := n }).soon (.stepChangeRequest c n)) s
/-- The clusters of some cores, for a class-0 contract, are to come up to the promise clock: each that is below it is asked at once
(R392, R393). -/
def State.callUp (s : State) (cs : List Nat) : State :=
  ((cs.map (· / 4)).eraseDups).foldl (fun s c =>
    let n := max 8 (s.wantedStep c)
    if (s.cluster c).step ≥ 8 ∧ !(s.cluster c).changing then s
    else ((s.cancel (stepRequest c)).modCluster c fun k => { k with request := n }).within 500 (.stepChangeRequest c n)) s

/-! ### The promise (R397, R451) -/

/-- Whether a cluster runs below the promise clock: its effective clock is under 940 MHz. -/
def State.belowPromise (s : State) (c : Nat) : Bool :=
  let k := s.cluster c
  decide ((740 + 25 * k.step) * min k.kcap k.kbal < 940 * 32)

/-- Whether a context's promise fails now. -/
def State.failsPromise (s : State) (ctx : Nat) : Bool :=
  let l := (s.ctx ctx).loop
  match l.contract with
  | none => false
  | some k =>
    decide (k.cls ≤ 1) && (decide (l.g < k.res) || (k.cls == 0 && l.cores.any fun c => s.belowPromise (c / 4))
      || (match s.partOf ctx with
        | some p => (s.part p).tslice && (s.ownCores p).isEmpty
        | none => false))
/-- The lowest step of a context's granted clusters. -/
def State.lowestStep (s : State) (ctx : Nat) : Nat :=
  ((s.ctx ctx).loop.cores.map fun c => (s.cluster (c / 4)).step).foldl min 23

/-- Notes, in every contract's running interval, whether the promise holds at this moment. -/
def State.watchPromise (s : State) : State :=
  (s.ctxs.filter fun e => e.2.loop.contract.isSome).foldl (fun s e => s.modLoop e.1 fun l =>
    { l with withheldNow := l.withheldNow || s.failsPromise e.1, lowNow := min l.lowNow (s.lowestStep e.1) }) s

/-! ### Admission (R384 to R387) -/

/-- The contract of a CONTRACT packet (R384). -/
def readContract (b : List Byte) : Contract :=
  let f := fun o n => bytesField b o n
  { target := f 16 2, ilog := f 18 1, cls := f 19 1 % 4, res := f 20 2, kp := f 22 2, ki := f 24 2, imax := f 28 4, dfloor := f 32 2
    dceil := f 34 2, group := f 36 2, gsize := f 38 2, floors := (List.range 5).map fun i => f (40 + i) 1
    ceils := (List.range 5).map fun i => f (45 + i) 1, activeBit := f 50 1 % 2 == 1, keepi := f 50 1 / 2 % 2 == 1 }

/-- The zero fields of a contract body. -/
def contractZero (b : List Byte) : Bool :=
  bytesField b 19 1 / 4 == 0 && bytesZero b 26 2 && bytesField b 50 1 / 4 == 0 && bytesZero b 51 13

/-- The ranges of R384 and R385. -/
def State.contractOk (s : State) (p : Nat) (k : Contract) : Bool :=
  let wq := popcount ((s.part p).field 16 4)
  let lo := [1, 1, 0, 1, 0]
  let hi := [8, (s.quotaCores p).length, min 24 wq, 16, 23]
  decide (1 ≤ k.target) && decide (16 ≤ k.ilog ∧ k.ilog ≤ 24) && decide (k.cls ≤ 2) && decide (k.imax ≤ 0x7FFFFFFF)
    && (k.floors.zip (k.ceils.zip (lo.zip hi))).all (fun x => decide (x.2.2.1 ≤ x.1 ∧ x.1 ≤ x.2.1 ∧ x.2.1 ≤ x.2.2.2))
    && decide (k.floors.sum ≤ k.dfloor ∧ k.dfloor ≤ k.res ∧ k.res ≤ k.dceil ∧ k.dceil ≤ k.ceils.sum)
    && (if k.group = 0 then k.gsize == 0 else decide (2 ≤ k.gsize ∧ k.gsize ≤ 512))

/-- The contract a context is admitted under: the one that waits, or the one in force. -/
def Loop.admitted (l : Loop) : Option Contract :=
  match l.waiting with
  | some k => if k.activeBit then some k else none
  | none => l.contract

/-- The stakes, at their reservations, of the admitted contracts of classes 0 and 1 of a partition, but for one context. -/
def State.reserved (s : State) (p ctx : Nat) : List Stake :=
  (s.members p).filterMap fun c =>
    if c = ctx then none
    else match (s.ctx c).loop.admitted with
      | some k => if k.cls ≤ 1 then some (k.stake c k.res) else none
      | none => none

/-- The refusal reason of R386, 0 for admission. -/
def State.admission (s : State) (ctx qcls : Nat) (zero : Bool) (k : Contract) : Nat :=
  if !zero then 1
  else if !k.activeBit then 0
  else match s.partOf ctx with
    | none => 1
    | some p =>
      if !s.contractOk p k then 1
      else if k.cls < qcls then 2
      else if k.cls = 0 ∧ (s.part p).tslice then 3
      else if (k.cls = 0 ∧ k.floors.getD 4 0 ≠ 8) ∨ (k.cls ≤ 1 ∧ ((k.positions k.res).getD 4 0 > 8
          ∨ !s.stakesFit p (s.quotaCores p) (k.stake ctx k.res :: s.reserved p ctx))) then 4
      else if k.group ≠ 0 ∧ (s.members p).any (fun c => c != ctx && (match (s.ctx c).loop.admitted with
          | some o => o.group == k.group
          | none => false)) then 5
      else 0

/-- The next interval end after now (R383). -/
def State.nextEnd (s : State) (ilog : Nat) : Nat := (s.tick.toNat / 2 ^ ilog + 1) * 2 ^ ilog

/-- Puts a context's next interval end on the calendar. -/
def State.armInterval (s : State) (ctx ilog : Nat) : State :=
  (s.cancel fun e => e == .beatIntervalEnd ctx).at (s.nextEnd ilog) (.beatIntervalEnd ctx)

/-- Registers an admitted contract or withdrawal (R388). -/
def State.takeIn (s : State) (ctx : Nat) (k : Contract) : State :=
  match (s.ctx ctx).loop.contract with
  | some _ => s.modLoop ctx fun l => { l with waiting := some k }
  | none =>
    if k.activeBit then (s.modLoop ctx fun l => { l with waiting := some k }).armInterval ctx k.ilog
    else (s.modLoop ctx fun l => { l with waiting := none }).cancel fun e => e == .beatIntervalEnd ctx

/-- CONTRACT (R351, R386). HEAD passes the packet once admission is decided, refused or not (R344), and a refusal then stops the
queue. -/
def State.startContract (s : State) (q : Nat) : State :=
  s.packet q 6 (.contract q) fun b s =>
    let k := s.queue q
    let va := bytesField b 8 8
    if !bytesZero b 1 1 || !bytesZero b 4 4 || va % 8 != 0 then s.queueError q 1
    else match s.scarabReach q (.contract q) va with
      | .refused s1 => s1.queueError q 3
      | .waits s1 => s1
      | .ok _ ps s1 =>
        if s1.dirtyFrame ps then s1.soon (.contract q)
        else
          let c := readContract b
          let r := s1.admission k.ctx k.cls (contractZero b) c
          let s2 := s1.scarabWrite k.ctx postedLink ps va (leBytes 8 r)
          if r = 0 then (s2.takeIn k.ctx c).advanceHead q (k.head + 1)
          else (s2.modQueue q fun k => { k with head := k.head + 1, advance := s2.tick.toNat }).queueError q 10

/-- CONTRACT. -/
def execContract (q : Nat) (s : State) : Out := .next (s.startContract q)

/-! ### Interval ends and steps (R383, R388, R390, R398, R483) -/

/-- The loop state of admission; KEEPI keeps I and E (R388). -/
def Loop.takeIn (l : Loop) (k : Contract) (keep : Bool) : Loop :=
  { l with
    contract := some k, waiting := none, e := if keep then l.e else 0, i := if keep then l.i else 0, d := k.res, g := k.res
    dprev := k.res, run := 0, held := false, gmiss := false, merging := false, meas := [], iw := k.weight k.res, susp := false
    coming := [], ahead := [] }

/-- The loop state of a withdrawn context (R388, R396). -/
def Loop.withdraw (l : Loop) : Loop :=
  { l with contract := none, waiting := none, e := 0, i := 0, d := 0, g := 0, dprev := 0, pos := [], cores := [], coming := [], ahead := [], ways := [], iw := 4, run := 0
           held := false, susp := false, gmiss := false, merging := false, withheld := false, withheldNow := false, meas := [] }

/-- Whether a cluster runs at the promise clock or above (R393). -/
def State.atPromise (s : State) (c : Nat) : Bool := decide ((s.cluster c).step ≥ 8)

/-- A contract or a withdrawal takes effect (R388, R483). A first one finds the context at the positions and on the cores of R396,
which its grant then lowers (R393); those of a class-0 contract whose clusters are below the promise clock come into its grant as
they reach it. A withdrawal gives the contract's ways back. -/
def State.takeContract (s : State) (ctx : Nat) (k : Contract) : State :=
  let s0 := s.accrue ctx
  if k.activeBit then
    let s1 := s0.modLoop ctx fun l =>
      let keep := k.keepi && (match l.contract with
        | some o => o.ilog == k.ilog && o.group == k.group
        | none => false)
      let l1 := l.takeIn k keep
      let l2 := { l1 with withheldNow := false, lowNow := 23 }
      match s.partOf ctx with
      | some p =>
        let cs := if l.contract.isSome then l.cores ++ l.coming else if l.susp then [] else s.quotaCores p
        let up := cs.filter fun c => k.cls != 0 || s.atPromise (c / 4)
        { l2 with pos := if l.contract.isSome then l.pos else s.plainPos p, cores := up, coming := cs.filter fun c => !up.contains c }
      | none => l2
    s1.callUp (s1.ctx ctx).loop.coming
  else (s0.dropWays (s.ctx ctx).loop.ways).modLoop ctx Loop.withdraw

/-- Whether the path to the switch of a plane is up: its port runs, and no 24 us have passed without a word, 4 until it times out and
20 until it is down (R403, R420). -/
def State.switchUp (s : State) (k : Nat) : Bool := (s.port k).state == .run && decide (s.tick.toNat < (s.port k).heard + 24000)

/-- Sends a member's beat report (R403, R417). -/
def State.sendReport (s : State) (ctx t : Nat) (k : Contract) (count : Nat) : State :=
  let ten := match s.partOf ctx with
    | some p => (s.part p).field 22 2
    | none => 0
  let body := leBytes 8 t ++ leBytes 2 k.group ++ leBytes 1 k.ilog ++ [0] ++ leBytes 2 k.gsize ++ leBytes 2 0 ++ leBytes 4 count
  let x : Txn := { typ := 16, src := s.fabid, dst := 0, plane := k.group % 24, seq := 0, addr := 0, ten := ten, ctx := 0, aux := 0, op := 0
                   len := body.length, tidx := 0, resent := false, last := false, payload := body }
  s.emit x

/-- The new values of an UPDATE take effect (R457); a ring whose base or size changes starts again (R376). -/
def State.applyUpdate (s : State) (p : Nat) : State :=
  match (s.part p).updated with
  | none => s
  | some e =>
    let f := fun (m : Store Byte) (off n : Nat) => leNat (Store.range 0 m off n)
    let x := s.part p
    let same := fun (a n b : Nat) => f x.entry a n == f e a n && f x.entry b 1 == f e b 1
    let keep := fun (r : Nat) => if r = 0 then same 48 8 56 else if r = 1 then same 64 8 57 else if r = 2 then same 72 8 58 else same 80 8 59
    let won := (waysIn (f e 16 4)).filter fun w => !(waysIn (f x.entry 16 4)).contains w
    let s1 := (s.dropWays won).modPart p fun x => { x with entry := e, updated := none, next := x.next.filter fun n => keep n.1 }
    if f x.entry 1 1 = f e 1 1 then s1
    else ((List.range x.ctxcount).map (x.ctxbase + ·)).foldl (fun s c => s.modCtx c fun k => { k with scopemax := f e 1 1 }) s1

/-- BEAT_INTERVAL_END: the counter is sampled and reset, and a contract that waits takes effect (R383, R388, R483). -/
def State.endInterval (s : State) (ctx : Nat) : State :=
  let l := (s.ctx ctx).loop
  let p := s.partOf ctx
  let equinox := fun (s : State) => match p with
    | some p => s.within 10000 (.equinoxGrant p)
    | none => s
  if !(s.ctx ctx).live then
    -- in transit no step runs (R401)
    match l.contract with
    | some k => s.armInterval ctx k.ilog
    | none => s
  else
    let s0 := match p with
      | some p => s.applyUpdate p
      | none => s
    let s1 := s0.watchPromise.modLoop ctx fun l => { l with
      lcl := l.count.toNat, count := 0, gPrev := l.g, withheld := l.withheldNow, lowStep := l.lowNow, withheldNow := false, lowNow := 23 }
    match l.waiting with
    | some k =>
      let s2 := s1.takeContract ctx k
      equinox (if k.activeBit then s2.armInterval ctx k.ilog else s2)
    | none =>
      match l.contract with
      | none => s1
      | some k =>
        let s2 := s1.armInterval ctx k.ilog
        if k.group = 0 then s2.within 2000 (.controllerStep ctx)
        else
          let up := s.switchUp (k.group % 24)
          let s3 := s2.modLoop ctx fun l => { l with merging := true, reported := s.tick.toNat }
          if up then (s3.sendReport ctx s.tick.toNat k l.count.toNat).after 18000 (.controllerStep ctx)
          else s3.within 2000 (.controllerStep ctx)

/-- BEAT_INTERVAL_END. -/
def execBeatIntervalEnd (ctx : Nat) (s : State) : Out := .next (s.endInterval ctx)

def clampI (x lo hi : Int) : Int := max lo (min hi x)

/-- step(x) of R390 on the loop state. -/
def Loop.step (l : Loop) (k : Contract) (m : Nat) : Loop :=
  let e := clampI ((k.target : Int) - m) (-32768) 32767
  let hi := decide (l.dprev = k.dceil) && decide (e > 0)
  let lo := decide (l.dprev = k.dfloor) && decide (e < 0)
  let i := if hi || lo then l.i else clampI (l.i + k.ki * e) (-(k.imax : Int)) k.imax
  let u := k.kp * e + i
  let d := (clampI (k.res + u / 4096) k.dfloor k.dceil).toNat
  { l with used := m, e := e, i := i, d := d, dprev := d, held := hi || lo }

/-- RUN and the breaches of a class-0 contract (R398). -/
def State.judge (s : State) (ctx m : Nat) (k : Contract) : State :=
  let l := (s.ctx ctx).loop
  let t := s.tick.toNat / 2 ^ k.ilog * 2 ^ k.ilog
  if k.cls ≠ 0 then s
  else if l.withheld then (s.breach ctx 1 k [m] l.gPrev l.lowStep t).modLoop ctx fun l => { l with run := 0, meas := [] }
  else if m < k.target ∧ l.gPrev = k.dceil then
    let ms := l.meas ++ [m]
    if l.run + 1 = 3 then (s.breach ctx 0 k ms l.gPrev 0 t).modLoop ctx fun l => { l with run := 0, meas := [] }
    else s.modLoop ctx fun l => { l with run := l.run + 1, meas := ms }
  else s.modLoop ctx fun l => { l with run := 0, meas := [] }

/-- The units that the other contexts' grants take on a core. -/
def State.takenUnits (s : State) (p ctx core : Nat) : Nat :=
  ((s.members p).map fun c =>
    let l := (s.ctx c).loop
    if c = ctx ∨ l.susp then 0
    else match l.contract with
      | some _ => if l.cores.contains core || l.coming.contains core then l.pos.headD 0 else 0
      | none => if (s.quotaCores p).contains core then 8 else 0).sum

/-- The units that the other contexts leave of each core of a pool that a context does not hold (R387). -/
def State.freeUnits (s : State) (p ctx : Nat) (pool : List Nat) : List (Nat × Nat) :=
  let l := (s.ctx ctx).loop
  (pool.filter fun c => !(l.cores ++ l.coming).contains c).map fun c => (c, 8 - s.takenUnits p ctx c)

/-- The demand of a class-0 contract for more cores: the clusters that may hold them come up to the promise clock ahead of the grant, so
that it takes effect in its time (R392, R393). -/
def State.raiseAhead (s : State) (ctx : Nat) : State :=
  let l := (s.ctx ctx).loop
  match l.contract, s.partOf ctx with
  | some k, some p =>
    let t := k.positions l.d
    let n := t.getD 1 0 - (l.cores ++ l.coming).length
    if k.cls ≠ 0 ∨ l.susp ∨ n = 0 then s
    else
      let free := s.freeUnits p ctx (s.quotaCores p)
      let pick := pickCores (t.headD 0) n free
      let up := if pick.length < n then free.map Prod.fst else pick
      (s.modLoop ctx fun l => { l with ahead := up }).callUp up
  | _, _ => s

/-- One controller step with the measured count, and Equinox after it (R390, R395). -/
def State.runStep (s : State) (ctx m : Nat) : State :=
  match (s.ctx ctx).loop.contract with
  | none => s
  | some k =>
    let s1 := (((s.judge ctx m k).modLoop ctx fun l => { l.step k m with merging := false }).cancel fun e => e == .controllerStep ctx).raiseAhead ctx
    match s1.partOf ctx with
    | some p => s1.within 10000 (.equinoxGrant p)
    | none => s1

/-- CONTROLLER_STEP: with the local count; a member whose merge has not come takes its own count and sets GMISS (R403). -/
def execControllerStep (ctx : Nat) (s : State) : Out :=
  let l := (s.ctx ctx).loop
  .next ((s.modLoop ctx fun l => { l with gmiss := l.merging }).runStep ctx l.lcl)

/-! ### Equinox (R395, R396) -/

/-- The stake that stands furthest above its bound, ties to the highest context id. -/
def furthest (bound : Stake → Nat) (xs : List Stake) : Option Stake :=
  (xs.filter fun x => decide (bound x < x.g)).foldl (fun b x => match b with
    | none => some x
    | some y => if y.g - bound y < x.g - bound x ∨ (y.g - bound y = x.g - bound x ∧ y.ctx < x.ctx) then some x else b) none

/-- One round of shedding (R395). -/
def shedRound (xs : List Stake) : Option (List Stake) :=
  let lower := fun (x : Stake) => xs.map fun y => if y.ctx = x.ctx then { y with g := y.g - 1 } else y
  let c := fun n => xs.filter fun x => x.cls == n
  match furthest Stake.dfloor (c 2) with
  | some x => some (lower x)
  | none =>
    match (c 2).foldl (fun b (x : Stake) => match b with
        | none => some x
        | some (y : Stake) => if y.ctx < x.ctx then some x else b) none with
    | some x => some (xs.filter fun y => y.ctx != x.ctx)
    | none =>
      match furthest Stake.res (c 1) with
      | some x => some (lower x)
      | none => (furthest Stake.res (c 0)).map lower

/-- Sheds until the stakes fit. -/
def shed (ok : List Stake → Bool) : Nat → List Stake → List Stake
  | 0, xs => xs
  | n + 1, xs => if ok xs then xs else match shedRound xs with
    | some ys => shed ok n ys
    | none => xs

/-- EQUINOX_GRANT: the grants of a partition's contexts. Falls come as early as rises, which may need what they give up (R392). -/
def State.equinox (s : State) (p : Nat) : State :=
  let ms := s.members p
  let cores := s.grantCores p
  if !ms.any fun c => (s.ctx c).loop.contract.isSome then
    (ms.foldl (fun s c => s.modLoop c fun l => { l with susp := false }) s).requestClocks
  else
    let stake := fun (c : Nat) (low : Bool) => match (s.ctx c).loop.contract with
      | some k => k.stake c (if low then k.dfloor else (s.ctx c).loop.d)
      | none => s.plainStake p c
    let inPlay := ms.filter fun c => !(s.ctx c).loop.susp
    let xs := inPlay.map fun c => stake c false
    let ok := fun ys => s.stakesFit p cores ys
    let ys := shed ok ((xs.map fun x => x.g).sum + xs.length + 1) xs
    let zs := (ms.filter fun c => (s.ctx c).loop.susp).foldl (fun ys c =>
      if ok (stake c true :: ys) then ys ++ [stake c true] else ys) ys
    ms.foldl (fun s c =>
      let s1 := match zs.find? fun z => z.ctx == c with
        | some z => s.modLoop c fun l => match l.contract with
          | some k => { l with g := z.g, iw := k.weight z.g, susp := false }
          | none => { l with susp := false }
        | none => ((s.accrue c).dropWays (s.ctx c).loop.ways).modLoop c fun l => { l with susp := true, cores := [], coming := [], ahead := [], ways := [] }
      (s1.within 2000 (.grantRise c)).within 2000 (.grantFall c)) s

/-- EQUINOX_GRANT. -/
def execEquinoxGrant (part : Nat) (s : State) : Out :=
  .next ((s.cancel fun e => e == .equinoxGrant part).equinox part)

/-! ### Grants (R392, R393) -/

/-- The cores of a class-0 contract whose clusters have come up to the promise clock are granted; the others ask for it (R393). -/
def State.landCores (s : State) (ctx : Nat) : State :=
  let up := (s.ctx ctx).loop.coming.filter fun c => s.atPromise (c / 4)
  s.modLoop ctx fun l => { l with cores := l.cores ++ up, coming := l.coming.filter fun c => !up.contains c }

/-- Adds the cores that a grant names and that the others leave free (R387); for a class-0 contract each once its cluster runs at
the promise clock (R393). -/
def State.addCores (s : State) (ctx : Nat) : State :=
  let l := (s.ctx ctx).loop
  match l.contract, s.partOf ctx with
  | some k, some p =>
    if l.susp then s
    else
      let need := l.pos.headD 0
      let pool := if k.cls = 0 then s.quotaCores p else s.grantCores p
      let n := l.pos.getD 1 0 - (l.cores ++ l.coming).length
      let free := s.freeUnits p ctx pool
      if k.cls = 0 then
        -- those whose clusters have been called up come first
        let early := (pickCores need n (free.filter fun e => l.ahead.contains e.1))
        let add := early ++ pickCores need (n - early.length) (free.filter fun e => !early.contains e.1)
        let s1 := (s.modLoop ctx fun l => { l with coming := l.coming ++ add, ahead := [] }).landCores ctx
        s1.callUp (s1.ctx ctx).loop.coming
      else s.modLoop ctx fun l => { l with cores := l.cores ++ pickCores need n free }
  | _, _ => s

/-- Adds the ways that a grant names, from those that no other contract of the partition holds; what stands in them is written back
and invalidated before they pass (R393). -/
def State.addWays (s : State) (ctx : Nat) : State :=
  let l := (s.ctx ctx).loop
  match l.contract, s.partOf ctx with
  | some _, some p =>
    if l.susp then s
    else
      let ms := s.members p
      let free := (waysIn ((s.part p).field 16 4)).filter fun w => !ms.any fun c => (s.ctx c).loop.ways.contains w
      let add := free.take (l.pos.getD 2 0 - l.ways.length)
      if add.isEmpty then s else (s.dropWays add).modLoop ctx fun l => { l with ways := l.ways ++ add }
  | _, _ => s

/-- The launches of a context are tried again. -/
def State.pokeLaunches (s : State) (ctx : Nat) : State :=
  (s.launches.filter fun e => e.2.active && e.2.ctx == ctx && (decide (e.2.next < e.2.total) || s.wgs.any fun w => w.2.out && w.2.launch == e.1)).foldl
    (fun s e => s.pokePlace e.1) s

/-- GRANT_RISE: positions and cores that rise take effect. -/
def State.riseGrant (s : State) (ctx : Nat) : State :=
  let l := (s.ctx ctx).loop
  if l.susp then s
  else match l.contract with
    | none => s.pokeLaunches ctx
    | some k =>
      let t := k.positions l.g
      let pos := if l.pos.isEmpty then t else (l.pos.zip t).map fun x => max x.1 x.2
      (((((s.accrue ctx).modLoop ctx fun l => { l with pos := pos }).addCores ctx).addWays ctx).pokeLaunches ctx).requestClocks.watchPromise

/-- GRANT_RISE. -/
def execGrantRise (ctx : Nat) (s : State) : Out := .next ((s.cancel fun e => e == .grantRise ctx).riseGrant ctx)

/-- The highest WGID a context holds on a core, plus 1; 0 for none. -/
def State.topWgid (s : State) (ctx core : Nat) : Nat :=
  ((s.onCore core).filter fun g => s.wgCtx g == ctx).foldl (fun m g => max m ((s.wg g).wgid + 1)) 0

/-- The cores a context gives up, ranked as R393 says. -/
def State.giveUp (s : State) (ctx : Nat) : Nat → List Nat → List Nat
  | 0, _ => []
  | n + 1, cs =>
    let rank := fun c => let t := s.topWgid ctx c
      if t = 0 then 2 ^ 40 else t
    match cs.foldl (fun (b : Option Nat) c => match b with
        | none => some c
        | some d => if rank d < rank c ∨ (rank d = rank c ∧ d < c) then some c else b) none with
    | none => []
    | some c => c :: s.giveUp ctx n (cs.filter fun x => x != c)

/-- The workgroups of a context over its SLOTS on a core, youngest first (R393). -/
def State.overSlots (s : State) (ctx core slots : Nat) : Nat → List Nat → List Nat
  | 0, _ => []
  | n + 1, gs =>
    let beyond := (List.range 16).any fun k =>
      decide ((gs.flatMap fun g => (s.wg g).warps.filter fun w => w / 8 == core * 16 + k).length > slots)
    if !beyond then []
    else match gs.foldl (fun (b : Option Nat) g => match b with
        | none => some g
        | some h => if (s.wg h).wgid < (s.wg g).wgid then some g else b) none with
      | none => []
      | some g => g :: s.overSlots ctx core slots n (gs.filter fun x => x != g)

/-- GRANT_FALL: positions and cores that fall take effect, and what they no longer hold is pre-empted. -/
def State.fallGrant (s : State) (ctx : Nat) : State :=
  let l := (s.ctx ctx).loop
  let mine := (s.wgs.filter fun e => !e.2.out && e.2.resident && s.wgCtx e.1 == ctx).map Prod.fst
  let s0 := s.accrue ctx
  let s1 := match l.contract with
    | some k =>
      if l.susp then s0
      else
        let t := k.positions l.g
        -- a core that has not come into force goes first
        let coming := l.coming.take (t.getD 1 0 - l.cores.length)
        let drop := s.giveUp ctx (l.cores.length - t.getD 1 0) l.cores
        (s0.dropWays (l.ways.drop (t.getD 2 0))).modLoop ctx fun l => { l with
          pos := t, coming := coming, cores := l.cores.filter fun c => !drop.contains c, ways := l.ways.take (t.getD 2 0) }
    | none => s0
  let ok := s1.coresOf ctx
  let off := mine.filter fun g => !(ok ++ (s1.ctx ctx).loop.coming).contains (s1.wg g).core
  let beyond := ok.flatMap fun c =>
    let gs := mine.filter fun g => (s1.wg g).core == c
    s1.overSlots ctx c (s1.slotsOf ctx) gs.length gs
  let r := s1.preemptAll (off ++ beyond ++ mine.filter fun g => (s1.wg g).stopping)
  let s2 := if r.2 then r.1 else r.1.soon (.grantFall ctx)
  let s3 := match s2.partOf ctx with
    | some p => (s2.members p).foldl (fun (s : State) c =>
      if c ≠ ctx ∧ (s.ctx c).loop.contract.isSome then ((s.addCores c).addWays c).pokeLaunches c else s) s2
    | none => s2
  (((s3.addCores ctx).addWays ctx).pokeLaunches ctx).requestClocks.watchPromise

/-- GRANT_FALL. -/
def execGrantFall (ctx : Nat) (s : State) : Out := .next ((s.cancel fun e => e == .grantFall ctx).fallGrant ctx)

end Sys2Proof.Machine
end

