-- ==== Sys2Proof/Machine/Context.lean ====
section
/-! DEFINITION. Attestation reports (R472, R473), the shadow banks (R370), context records, saving and migration (R372 to R374,
R401, R474), and the states of a partition reset (R378 to R381). -/

namespace Sys2Proof.Machine

/-! ### Attestation reports (R472, R473) -/

/-- A report on a partition, for a nonce of 48 bytes (R473). -/
def State.report (s : State) (p : Nat) (nonce : List Byte) : List Byte :=
  let x := s.part p
  let magic := leBytes 4 0x54525441 ++ leBytes 2 1 ++ leBytes 1 p
  if x.state ≠ .active then magic ++ leBytes 1 1 ++ List.replicate 376 0
  else
    let img : Nat × Nat × List Byte := match s.running with
      | some i => (i.version, i.svn, (Config.sha384 i.header).take 48)
      | none => (0, 0, List.replicate 48 0)
    let body := magic ++ leBytes 1 0 ++ leBytes 8 Config.devid.toNat ++ leBytes 8 s.tick.toNat ++ leBytes 4 img.1 ++ leBytes 1 img.2.1
      ++ List.replicate 3 0 ++ img.2.2 ++ (Config.sha384 (Store.range 0 x.entry 0 256)).take 48
      ++ (if x.useq = 0 then List.replicate 8 0xFF else leBytes 8 (x.useq - 1)) ++ (x.udigest ++ List.replicate 48 0).take 48
      ++ (nonce ++ List.replicate 48 0).take 48
    let digest := (Config.sha384 body).take 48
    body ++ digest ++ (Config.sign digest).take 96 ++ leBytes 4 Config.chain.length ++ List.replicate 4 0 ++ Config.chain

/-! ### Frames named by the hypervisor -/

/-- The frames that the tables below a root name: the tables' own and those of leaves in HBM (R305, R306). -/
def State.tableFrames (s : State) : Nat → Nat → List Nat
  | 0, _ => []
  | fuel + 1, table =>
    (table / 8192) :: (List.range (if fuel = 3 then 64 else 1024)).flatMap fun i =>
      let e := s.l2Num (table + 8 * i) 8
      let pa := e / 2 ^ 13 % 2 ^ 39 * 2 ^ 13
      if e % 2 = 0 then []
      else if e / 2 % 2 = 1 then
        if e / 32 % 2 = 1 then [] else (List.range (2 ^ (10 * fuel))).map fun j => pa / 8192 + j
      else s.tableFrames fuel pa

/-- The frames of a context's tables become its partition's. -/
def State.claimTables (s : State) (ctx : Nat) : State :=
  match s.partOf ctx with
  | some p => s.claimFrames p (s.tableFrames 4 (s.ctx ctx).ptroot)
  | none => s

/-- Zeroes a run of whole frames at its home, under the keys in force (R53, R465). -/
def State.zeroRange (s : State) (pa n : Nat) : State :=
  let out := fun (k : Nat) => !decide (pa ≤ k ∧ k < pa + n)
  ({ s with hbmMoves := s.hbmMoves + (n + 127) / 128
            hbm := s.hbm.filter fun e => out e.1, l2 := s.l2.filter fun e => out e.1
            l1 := s.l1.filter fun e => out (e.1 % 2 ^ 40)
            lineGen := if s.keyGen.isEmpty then s.lineGen
              else ((List.range (n / 8192)).map (pa / 8192 + ·)).foldl (fun m k => Store.set 0 m (2 * k + 1) (s.keyNow (k * 8192)))
                (s.lineGen.filter fun e => e.1 % 2 == 1 || out (e.1 / 2 * 128)) } : State).clearReport pa n

/-! ### Shadow banks (R370) -/

/-- STAGING_COMPLETE. -/
def execStagingComplete (core ctx : Nat) (s : State) : Out :=
  .next (if (s.core core).shadow = ctx + 1 then (s.modCore core fun k => { k with shadowReady := true }).pokeLaunches ctx else s)

/-- SHADOW_EXCHANGE: the staged context's workgroups that fit come onto the core; the bank is zeroed. -/
def State.exchange (s : State) (core : Nat) : State :=
  let sh := (s.core core).shadow
  let s1 := s.modCore core fun k => { k with swapping := false, shadow := 0, shadowReady := false }
  if sh = 0 then s1
  else
    let ls := (s1.launches.filter fun e => e.2.active && e.2.ctx == sh - 1).map Prod.fst
    (ls.foldl (fun s l => s.restoreOn l core) s1).pokeLaunches (sh - 1)

/-- SHADOW_EXCHANGE. -/
def execShadowExchange (core : Nat) (s : State) : Out := .next (s.exchange core)

/-! ### Context records (R372, R373) -/

/-- The address of a context's record; none for no table. -/
def State.recordAt (s : State) (ctx : Nat) : Option Nat :=
  (s.partOf ctx).bind fun p =>
    let x := s.part p
    if x.field 104 8 = 0 then none else some (x.field 104 8 + 256 * (ctx - x.ctxbase))

/-- Whether a record is valid and every field lies within its map (R372). -/
def State.recordOk (s : State) (b : List Byte) : Bool :=
  let f := fun o n => bytesField b o n
  f 0 8 % 8192 == 0 && decide (f 0 8 < 2 ^ 40) && f 10 1 == 1 && f 11 1 == 0 && decide (f 16 4 < 4) && decide (f 24 4 < 2 ^ 10)
    && decide (f 28 4 < 16) && decide (f 32 4 < 256) && bytesZero b 36 4 && decide (f 48 4 < 256) && bytesZero b 52 4
    && decide (f 64 4 < 2 ^ 21) && bytesZero b 68 4 && bytesZero b 84 4 && bytesZero b 104 152 && s.areaOk (f 88 8) (f 96 8)

/-- TRLOG and RRLOG as their fields store them (R431). -/
def trlogOf (n : Nat) : Nat := if 10 ≤ n ∧ n ≤ 24 then n else 10
def rrlogOf (n : Nat) : Nat := if 4 ≤ n ∧ n ≤ 20 then n else 8

/-- The registers a record sets. -/
def Ctx.setRecord (c : Ctx) (b : List Byte) (scopemax : Nat) : Ctx :=
  let f := fun o n => bytesField b o n
  { c with
    ptroot := f 0 8, asid := f 8 2, tvec := BitVec.ofNat 32 (f 12 4), hazchk := f 16 4 % 2 == 1, hazlock := f 16 4 / 2 % 2 == 1
    seed := BitVec.ofNat 32 (f 20 4), strict := f 24 4 % 2 == 1, pltrap := f 24 4 / 2 % 2 == 1, wcage := f 24 4 / 4 % 256
    scopemax := scopemax, dbgctl := BitVec.ofNat 4 (f 28 4), trOn := f 32 4 % 2 == 1, trWrap := f 32 4 / 2 % 2 == 1
    trTraps := f 32 4 / 4 % 2 == 1, trlog := trlogOf (f 32 4 / 8 % 32), tracebase := BitVec.ofNat 64 (f 40 8), traceMark := c.traceptr
    rrMode := if f 48 4 % 4 = 3 then 0 else f 48 4 % 4, rrOvf := f 48 4 / 4 % 2 == 1, rrlog := rrlogOf (f 48 4 / 8 % 32)
    rrarea := BitVec.ofNat 64 (f 56 8), dumpOn := f 64 4 % 2 == 1, dumpCauses := BitVec.ofNat 20 (f 64 4 / 2)
    dumpbase := BitVec.ofNat 64 (f 72 8), dumpsize := BitVec.ofNat 32 (f 80 4), savebase := f 88 8, savesize := f 96 8 }

/-- What a context keeps when its registers go: what its usage record of this second needs (R467). -/
def Ctx.usageKept (c : Ctx) : Ctx :=
  { usedSec := c.usedSec, posMs := c.posMs, posAt := c.posAt, energy := c.energy
    loop := { beatsSec := c.loop.beatsSec, breachSec := c.loop.breachSec } }

/-- The end of a context command (R373). -/
def State.ctxDone (s : State) (ctx err : Nat) : State := s.modCtx ctx fun c => { c with busy := false, err := err }

/-- Whether a context's partition is ACTIVE. -/
def State.inActive (s : State) (ctx : Nat) : Bool := match s.partOf ctx with
  | some p => (s.part p).state == .active
  | none => false

/-- LOAD (R373). -/
def State.loadContext (s : State) (ctx : Nat) : State :=
  let c := s.ctx ctx
  if !s.inActive ctx || c.live || c.saved then s.ctxDone ctx 1
  else match s.recordAt ctx with
    | none => s.ctxDone ctx 2
    | some a =>
      let b := s.l2Bytes a 256
      if !s.recordOk b then s.ctxDone ctx 2
      else
        let sm := match s.partOf ctx with
          | some p => (s.part p).field 1 1
          | none => 0
        (((s.accrue ctx).modCtx ctx fun c => { c.setRecord b sm with live := true }).claimTables ctx).ctxDone ctx 0

/-- LOAD. -/
def execLoadOp (ctx : Nat) (s : State) : Out := .next (s.loadContext ctx)

/-! ### SAVE, RESTORE and DISCARD (R373, R374) -/

/-- The workgroups of a context, on cores or pre-empted. -/
def State.allWgs (s : State) (ctx : Nat) : List Nat := (s.wgs.filter fun e => (s.launch e.2.launch).ctx == ctx).map Prod.fst

/-- The calendar's events of a context's loop and launches. -/
def ctxEvent (ctx : Nat) (mine : Nat → Bool) : Instr → Bool
  | .beatIntervalEnd c => c == ctx
  | .controllerStep c => c == ctx
  | .grantRise c => c == ctx
  | .grantFall c => c == ctx
  | .stagingComplete _ c => c == ctx
  | .workgroupPlace l => mine l
  | _ => false

/-- Takes a context off the device's registers and its launches off the dispatcher. -/
def State.dropContext (s : State) (ctx : Nat) (f : Ctx → Ctx) : State :=
  let mine := fun (l : Nat) => (s.launch l).ctx == ctx && (s.launch l).active
  let gs := s.allWgs ctx
  let s1 := ((s.launches.filter fun e => mine e.1).map Prod.fst).foldl (fun s l => s.keepRoom l) ((s.accrue ctx).cancel (ctxEvent ctx mine))
  ({ s1 with
    wgs := s1.wgs.filter fun e => !gs.contains e.1, launches := s1.launches.filter fun e => !mine e.1
    cores := Store.mapVals {} s1.cores fun _ k =>
      if k.shadow = ctx + 1 then { k with shadow := 0, shadowReady := false } else k } : State).modCtx ctx fun c => f c.usageKept

/-- Bytes 0 to 87 of a save area's header (R374). -/
def saveHead (ctx n tick len : Nat) (digest : List Byte) : List Byte :=
  leBytes 4 0x56415343 ++ leBytes 2 1 ++ leBytes 2 0 ++ leBytes 8 Config.devid.toNat ++ leBytes 4 ctx ++ leBytes 4 n ++ leBytes 8 tick
    ++ leBytes 8 len ++ (digest ++ List.replicate 48 0).take 48

/-- The first byte of the state after a report of some length. -/
def stateOffset (reportLen : Nat) : Nat := (512 + reportLen + 8191) / 8192 * 8192

/-- The bytes of a save area. -/
def State.saveImage (s : State) (ctx n : Nat) (state : List Byte) : List Byte :=
  let report := s.report (s.partNum ctx) []
  let head := saveHead ctx n s.tick.toNat state.length (Config.sha384 state)
  let sig := (Config.sign ((Config.sha384 head).take 48)).take 96
  (head ++ sig ++ List.replicate 512 0).take 512 ++ report ++ List.replicate (stateOffset report.length - 512 - report.length) 0 ++ state

/-- A SAVE that has begun is given up: the workgroups go on. -/
def State.giveUpSave (s : State) (ctx : Nat) : State :=
  ((s.allWgs ctx).foldl (fun s g => s.modWg g fun x => { x with stopping := false }) (s.modCtx ctx fun c => { c with out := false })).pokeLaunches
    ctx

/-- SAVE: pre-empts every workgroup, writes the area, and takes the context off the device. A launch that still places is saved as far
as it has come, and its queue no longer waits for it. -/
def State.saveContext (s : State) (ctx : Nat) : State :=
  let c := s.ctx ctx
  let gs := s.allWgs ctx
  if !c.live || ctx == 0 then s.ctxDone ctx 1
  else if s.queues.any fun e => e.2.ctx == ctx && e.2.state != .unbound && e.2.state != .stopped then
    (if c.out then s.giveUpSave ctx else s).ctxDone ctx 3
  else if 65536 + 2097152 * gs.length > c.savesize then s.ctxDone ctx 4
  else
    let on := gs.filter fun g => !(s.wg g).out
    -- a workgroup placed and not yet released has no state of its own
    let s0 := on.foldl (fun s g => if (s.wg g).resident then s else s.releaseWg g) (s.modCtx ctx fun c => { c with out := true })
    let r := (s0.drainCtx ctx).preemptAll on
    if !r.2 || r.1.cores.any (fun c => r.1.drainAwaits c.1 ctx) then r.1.after 100 (.saveOp ctx)
    else
      let s1 := (r.1.cores.map Prod.fst).foldl (fun s c => s.saveWc ctx c) ((gs.map fun g => (s.wg g).core).eraseDups.foldl
        (fun s c => s.leaveL1 (s.partNum ctx) c) r.1)
      let sv := Store.get ({} : Saved) s1.saves ctx
      let sv1 : Saved := { sv with
        wgs := s1.wgs.filter fun e => gs.contains e.1
        launches := Store.mapVals {} (s1.launches.filter fun e => e.2.active && e.2.ctx == ctx) fun _ l => { l with queue := 1024 }
        regs := { s1.ctx ctx with out := false, busy := false }, whole := true, base := c.savebase, size := c.savesize }
      let state := (Config.pack sv1).take (c.savesize - stateOffset (s1.report (s1.partNum ctx) []).length)
      let img := s1.saveImage ctx gs.length state
      let s2 := s1.l2Write c.savebase img
      let s3 : State := { s2 with
        saves := Store.set {} s2.saves ctx { sv1 with image := img }
        queues := Store.mapVals {} s2.queues fun _ k =>
          if k.ctx = ctx then { k with placing := 0, inflight := k.inflight.filter fun i => k.copies.any fun x => x.counts && x.idx == i } else k }
      s3.dropContext ctx fun c => { c with saved := true }

/-- SAVE. -/
def execSaveOp (ctx : Nat) (s : State) : Out := .next (s.saveContext ctx)

/-- The stakes of a partition's contexts as they are granted now, but for one. -/
def State.grantedStakes (s : State) (p ctx : Nat) : List Stake :=
  (s.members p).filterMap fun c =>
    let l := (s.ctx c).loop
    if c = ctx ∨ l.susp then none
    else match l.contract with
      | some k => some (k.stake c l.g)
      | none => some (s.plainStake p c)

/-- Readmits the contracts of a restored context, the one in force and one that waits for its interval end (R401): DETAIL of the
RESTORE event. -/
def State.readmit (s : State) (ctx : Nat) : Nat × State :=
  let l := (s.ctx ctx).loop
  match s.partOf ctx with
  | none => (1, s)
  | some p =>
    let fits := fun (k : Contract) => s.admission ctx 0 true k == 0
    let next := l.waiting.filter fits
    let s1 := s.modLoop ctx fun l => { l with waiting := next, cores := [], coming := [], ahead := [], ways := [], susp := false, merging := false }
    match l.contract with
    | some k =>
      if fits k then
        let g := if s.stakesFit p (s.grantCores p) (k.stake ctx l.g :: s.grantedStakes p ctx) then l.g else k.res
        let s2 := s1.modLoop ctx fun l => { l with g := g, iw := k.weight g, pos := k.positions g }
        (if next == l.waiting then 0 else 1, (((s2.addCores ctx).addWays ctx).armInterval ctx k.ilog))
      else
        let s2 := s1.modLoop ctx fun l => { l.withdraw with count := l.count, waiting := next }
        (1, match next with
          | some k => s2.armInterval ctx k.ilog
          | none => s2)
    | none =>
      match next with
      | some k => (0, s1.armInterval ctx k.ilog)
      | none => (1, s1)

/-- The RESTORE event (R474). -/
def State.restoreEvent (s : State) (ctx detail : Nat) : State :=
  match s.partOf ctx with
  | some p => s.event p 2 11 0 ctx 0 detail 0 0
  | none => s

/-- Puts a saved context's state back on the device; its workgroups wait for a place (R370, R373). -/
def State.putContext (s : State) (ctx : Nat) (sv : Saved) : State :=
  let old := s.ctx ctx
  let sm := match s.partOf ctx with
    | some p => (s.part p).field 1 1
    | none => 0
  let ring := fun (l : Launch) => ((s.queues.find? fun e => e.2.state != .unbound && e.2.ctx == ctx && e.2.ringbase == l.ring).map Prod.fst).getD 1024
  let ls := sv.launches.map fun e => (e.1, { e.2 with ctx := ctx, queue := ring e.2 })
  let s1 : State := { s with
    wgs := sv.wgs.foldl (fun m e => Store.set {} m e.1 e.2) s.wgs
    launches := ls.foldl (fun m e => Store.set {} m e.1 e.2) s.launches
    saves := Store.set {} s.saves ctx { sv with wgs := [], launches := [], regs := {}, whole := false, image := [], base := 0, size := 0 } }
  let s2 := s1.modCtx ctx fun _ => { sv.regs with
    live := true, saved := false, busy := false, err := 0, out := false, scopemax := sm, savebase := sv.base, savesize := sv.size
    usedSec := old.usedSec, posMs := old.posMs, posAt := s.tick.toNat, energy := old.energy
    loop := { sv.regs.loop with beatsSec := old.loop.beatsSec, breachSec := old.loop.breachSec } }
  let s3 := ((s2.queues.filter fun e => e.2.state != .unbound && e.2.ctx == ctx).map Prod.fst).foldl (fun s q => s.linkLaunches q) s2
  let r := s3.readmit ctx
  ((r.2.restoreEvent ctx r.1).pokeLaunches ctx).requestClocks

/-- RESTORE: the checks of R374 and R474. -/
def State.restoreContext (s : State) (ctx : Nat) : State :=
  match s.recordAt ctx with
  | none => s.ctxDone ctx 1
  | some a =>
    let base := s.l2Num (a + 88) 8
    let size := s.l2Num (a + 96) 8
    let sv := Store.get ({} : Saved) s.saves ctx
    if (s.ctx ctx).live then s.ctxDone ctx 1
    else if sv.whole && sv.image == s.l2Bytes base sv.image.length then s.putContext ctx { sv with base := base, size := size }
    else
      let head := s.l2Bytes base 184
      let clen := s.l2Num (base + 512 + 376) 4
      let report := s.l2Bytes (base + 512) (384 + clen)
      let len := bytesField head 32 8
      let state := s.l2Bytes (base + stateOffset report.length) len
      let ok := s.areaOk base size && bytesField head 0 4 == 0x56415343 && bytesField head 4 2 == 1
        && decide (stateOffset report.length + len ≤ size) && (head.drop 40).take 48 == (Config.sha384 state).take 48
        && Config.verify (report.drop 384) ((head.drop 88).take 96) ((Config.sha384 (head.take 88)).take 48)
      if !ok then s.ctxDone ctx 6
      else if bytesField head 8 8 ≠ Config.devid.toNat ∧ !Config.policy report then
        (s.restoreEvent ctx 2).ctxDone ctx 5
      else
        let r := Config.unpack state s.names
        match r.1 with
        | some v => ({ s with names := s.names + r.2 } : State).putContext ctx { v with base := base, size := size }
        | none => s.ctxDone ctx 6

/-- RESTORE. -/
def execRestore (ctx : Nat) (s : State) : Out := .next (s.restoreContext ctx)

/-- DISCARD (R373). -/
def State.discardContext (s : State) (ctx : Nat) : State :=
  let c := s.ctx ctx
  let sv := Store.get ({} : Saved) s.saves ctx
  if !c.live && c.saved then
    (({ s.zeroRange sv.base sv.size with saves := Store.erase s.saves ctx } : State).modCtx ctx fun c => { c with saved := false }).ctxDone ctx 0
  else if c.live && (s.allWgs ctx).isEmpty && ctx != 0 && !s.queues.any (fun e => e.2.state != .unbound && e.2.ctx == ctx) then
    (s.dropContext ctx fun c => c).ctxDone ctx 0
  else s.ctxDone ctx 1

/-- DISCARD. -/
def execDiscard (ctx : Nat) (s : State) : Out := .next (s.discardContext ctx)

/-! ### The states of a partition reset (R379) -/

/-- The workgroups of a partition. -/
def State.partWgs (s : State) (p : Nat) : List Nat :=
  (s.wgs.filter fun e => (s.part p).holds (s.launch e.2.launch).ctx).map Prod.fst

/-- Halts a partition's warps, which part from their gangs (R38), and its engines (R369). -/
def State.haltPart (s : State) (p : Nat) : State :=
  (s.partWgs p).foldl (fun s g =>
    if (s.wg g).out then s
    else (s.wg g).warps.foldl (fun s w => (s.modWarp w fun x => { x with whalt := true }).partGang w)
      (s.modWg g fun x => { x with engHalt := true })) s

/-- Whether a partition's halt waits for an answer from another device (R369). -/
def State.partAwaits (s : State) (p : Nat) : Bool :=
  (s.partWgs p).any fun g => !(s.wg g).out && (s.engineAwaits g || (s.wg g).warps.any fun w => s.awaitsAnswer w)

/-- Discards tickets, write-combining entries and operand logs, and frees the owner keys (R379). -/
def State.discardWaits (s : State) (p : Nat) : State :=
  let x := s.part p
  let on := (s.partWgs p).filter fun g => !(s.wg g).out
  let s1 := (on.flatMap fun g => (s.wg g).warps).foldl (fun s w => s.modWarp w fun y => { y with log := [] }) s
  { s1 with
    cores := Store.mapVals {} s1.cores fun _ k => { k with
      tickets := k.tickets.filter fun t => !x.holds t.ctx, wc := k.wc.filter fun e => !x.holds e.ctx }
    unsent := s1.unsent.filter fun r => !x.holds r.x.ctx, keysOut := s1.keysOut.filter fun k => k.part != p
    collIn := s1.collIn.filter fun c => !x.holds c.ctx }

/-- QUIESCE_DONE. -/
def execQuiesceDone (part : Nat) (s : State) : Out :=
  .next (if (s.part part).reset ≠ .quiesce then s
  else
    let s1 := s.haltPart part
    if s1.partAwaits part then s1.after 100 (.quiesceDone part)
    else ((s1.discardWaits part).modPart part fun x => { x with reset := .writeback }).soon (.writebackDone part))

/-- Writes the dirty L1 and L2 bytes of a partition's frames to HBM. -/
def State.writebackPart (s : State) (p : Nat) : State :=
  let mine := fun (pa : Nat) => s.ownerOf (pa / 8192) == p + 1
  ((s.cores.map Prod.fst).foldl (fun s c => s.l1Writeback c (fun pa b => b.dirty && mine pa) false) s).l2Clean mine

/-- WRITEBACK_DONE. -/
def execWritebackDone (part : Nat) (s : State) : Out :=
  .next (if (s.part part).reset ≠ .writeback then s
  else ((s.writebackPart part).modPart part fun x => { x with reset := .zero }).soon (.zeroDone part))

/-- Zeroes what a partition holds in the cores and in the save areas of its contexts, but for those that a SAVE wrote. -/
def State.zeroPart (s : State) (p : Nat) : State :=
  let x := s.part p
  let gs := s.partWgs p
  let s1 := gs.foldl (fun s g => if (s.wg g).out then { s with wgs := Store.erase s.wgs g } else s.freeWg g) s
  let dead := fun (n : Nat) => n != 0 && gs.contains (n - 1)
  let s2 : State := { s1 with
    launches := s1.launches.filter fun e => !x.holds e.2.ctx
    cores := Store.mapVals {} s1.cores fun _ k =>
      let qd := fun (q : Nat) => dead (Store.get 0 k.qLast q)
      let ad := fun (a : Nat) => dead (Store.get 0 k.accLast a)
      { k with
        quanta := k.quanta.filter fun e => !qd (e.1 / 2 ^ 17), side := k.side.filter fun e => !qd (e.1 / 2 ^ 17)
        acc := k.acc.filter fun e => !ad (e.1 / 2 ^ 16), prog := k.prog.filter fun e => !ad (e.1 / 6)
        progHeld := k.progHeld.filter fun e => !ad (e.1 / 6)
        watches := k.watches.filter fun e => e.2.part != p
        shadow := if k.shadow ≠ 0 ∧ x.holds (k.shadow - 1) then 0 else k.shadow
        shadowReady := if k.shadow ≠ 0 ∧ x.holds (k.shadow - 1) then false else k.shadowReady
        lastPage := k.lastPage.filter fun e => match e.2 with
          | some t => t.part != p
          | none => true } }
  let lost := ((s2.ctxs.map Prod.fst ++ s2.saves.map Prod.fst).filter fun c => x.holds c && !(s2.ctx c).saved).eraseDups
  let s3 := lost.foldl (fun s c =>
    let k := s.ctx c
    { (if k.savesize ≠ 0 ∧ s.areaOk k.savebase k.savesize then s.zeroRange k.savebase k.savesize else s) with
      saves := Store.erase s.saves c }) s2
  (s3.sweep fun e => e.part == p).cancel fun e => match e with
    | .workgroupPlace l => (s2.launch l).active == false
    | .stagingComplete _ c => x.holds c
    | _ => false

/-- The cores that a context keeps of those it holds when its grant is that of admission (R388, R393). -/
def State.keptCores (s : State) (ctx n : Nat) : List Nat :=
  let l := (s.ctx ctx).loop
  if l.susp then []
  else
    let drop := s.giveUp ctx (l.cores.length - n) l.cores
    l.cores.filter fun c => !drop.contains c

/-- A loaded context takes its registers from its record again; its contract stays, at admission values, and so does what the interval
that runs is known to have lost (R397). -/
def State.reloadContext (s : State) (ctx : Nat) : State :=
  let c := s.ctx ctx
  let sm := match s.partOf ctx with
    | some p => (s.part p).field 1 1
    | none => 0
  let kept : Ctx := { (s.accrue ctx).ctx ctx |>.usageKept with live := true, busy := c.busy, err := c.err }
  let regs := match s.recordAt ctx with
    | some a => kept.setRecord (s.l2Bytes a 256) sm
    | none => { kept with scopemax := sm }
  let l0 : Loop := { regs.loop with contract := c.loop.contract, waiting := c.loop.waiting }
  let l1 := match c.loop.contract with
    | some k => { l0.takeIn k false with waiting := c.loop.waiting, withheldNow := c.loop.withheldNow, lowNow := c.loop.lowNow, pos := k.positions k.res, cores := s.keptCores ctx ((k.positions k.res).getD 1 0) }
    | none => l0
  s.modCtx ctx fun _ => { regs with loop := l1 }

/-- ZERO_DONE. -/
def execZeroDone (part : Nat) (s : State) : Out :=
  .next (if (s.part part).reset ≠ .zero then s
  else
    let s1 := s.zeroPart part
    let s2 := (s1.members part).foldl (fun s c => s.reloadContext c) s1
    let s3 := ((s1.members part).foldl (fun s c => (s.addCores c).addWays c) s2).requestClocks
    (s3.modPart part fun x => { x with reset := .replay }).soon (.replayDone part))

/-- A queue restarts after a reset of its partition: it takes RESET, or stays STOPPED with HEAD at DONEPOS. One that START has moved
meanwhile takes it too. -/
def State.replayQueue (s : State) (q : Nat) (stay : Bool) : State :=
  let k := s.queue q
  if k.state = .unbound then s
  else if k.state = .stopped ∧ stay then s.setQueue q fun k => { k.quiet with head := k.donepos }
  else (s.abandonQueue q).resetQueue q

/-- REPLAY_DONE: the queues restart, and what waited for the end of the reset begins. -/
def State.endReset (s : State) (p : Nat) : State :=
  let x := s.part p
  let s1 := s.modPart p fun x => { x with state := .active, reset := .run, nextCause := 0, stoppedQ := [], destroyWait := false }
  let s2 := (s1.queuesOf p).foldl (fun s q => s.replayQueue q (x.stoppedQ.contains q)) s1
  let s3 := s2.usage p (usageRec 3 0 s.tick.toNat [BitVec.ofNat 8 x.cause])
  if x.nextCause ≠ 0 then (s3.modPart p fun y => { y with destroyWait := x.destroyWait }).causeReset p x.nextCause
  else if x.destroyWait then s3.soon (.destroy p) else s3

/-- REPLAY_DONE. -/
def execReplayDone (part : Nat) (s : State) : Out := .next (if (s.part part).reset ≠ .replay then s else s.endReset part)

/-- SCHEDULER_FAULT (R378). -/
def execSchedulerFault (part : Nat) (s : State) : Out := .next (s.causeReset part 4)

/-- Whether a partition has a context in a cluster: a workgroup on its cores, or a staged one (R381). -/
def State.retainedIn (s : State) (p c : Nat) : Bool :=
  (s.partWgs p).any (fun g => !(s.wg g).out && (s.wg g).core / 4 == c)
    || s.cores.any fun e => e.1 / 4 == c && e.2.shadow != 0 && (s.part p).holds (e.2.shadow - 1)

/-- The scrub of a cluster zeroes all its SRAM (R381). What the dispatcher keeps of the cores' places stands. -/
def State.scrub (s : State) (c : Nat) : State :=
  let here := fun (core : Nat) => core / 4 == c
  { s with
    cores := Store.mapVals {} s.cores fun n k =>
      if here n then { qOwner := k.qOwner, qLast := k.qLast, accOwner := k.accOwner, accLast := k.accLast } else k
    warps := Store.mapVals {} s.warps fun w x =>
      if here (coreOf w) then { resident := x.resident, wg := x.wg, num := x.num, role := x.role, nsregs := x.nsregs, allot := x.allot } else x
    wgs := Store.mapVals {} s.wgs fun _ g => if !g.out && here g.core then { g with scratch := [], sectors := [], queues := [], lfsr := [] } else g
    l1 := s.l1.filter fun e => !here (e.1 / 2 ^ 40)
    clusters := Store.mapVals {} s.clusters fun n k => if n = c then { k with tlb := [] } else k }

/-- The intervals of the contracts of classes 0 and 1 with cores granted on a cluster are WITHHELD (R397). -/
def State.withholdOn (s : State) (c : Nat) : State :=
  (s.ctxs.filter fun e => e.2.loop.contract.any (fun k => decide (k.cls ≤ 1)) && e.2.loop.cores.any fun n => n / 4 == c).foldl
    (fun s e => s.modLoop e.1 fun l => { l with withheldNow := true }) s

/-- CLUSTER_RETENTION_EXIT with a parity error: RETENTION_LOST, the scrub of the cluster's SRAM, and the resets of R381. -/
def execClusterRetentionExit (c : Nat) (s : State) : Out :=
  let ps := (List.range 16).filter fun p => s.retainedIn p c
  let s1 := (ps.foldl (fun s p => s.eventBoth p 8 0 0 c 0) s).scrub c |>.withholdOn c
  .next (ps.foldl (fun s p => s.causeReset p 5) s1)

end Sys2Proof.Machine
end

