-- ==== Sys2Proof/Machine/Exchange.lean ====
section
/-! DEFINITION. The cross-thread exchange instructions (R194 to R199). -/

namespace Sys2Proof.Machine

/-- The poison of an exchange (R194): the lowest active thread that reads a marked element. -/
def xPoison (x : Warp) (a : Nat) (src : Nat → Option Nat) (b : Option Src) : Option (Nat × DWord) :=
  (threads x.active).findSome? fun t =>
    let au := match src t with
      | some u => if ({ reg := a } : Src).bad x u then some (t, BitVec.ofNat 64 a) else none
      | none => none
    match au with
    | some r => some r
    | none => match b with
      | some k => if k.bad x t then some (t, k.addr) else none
      | none => none

/-- vD(t) := vA(u) for each active thread, with the source's tag (R194): `src` gives u, or nothing for a zero. -/
def xMove (fm : Form) (d a : Nat) (b : Option Src) (src : Warp → Nat → Option Nat) : State → Out :=
  issue (fun _ => fm) (fun w s =>
    let x0 := s.warp w
    match xPoison x0 a (src x0) b with
    | some p => .trap 0x11 p.1 p.2 false s
    | none => vecOp fm [(d, (x0.tag a).toNat)] false (fun _ t =>
        { words := [match src x0 t with
          | some u => x0.readV a u
          | none => 0] }) w s)

/-- The form of an exchange over 32-bit tags; poison is tested by the body. -/
def xForm (m : Bool) (d src : List Nat) : Form := { vecForm m d src with reads := [], uni := none, mem := true }

/-- The n-th active thread below one (R195). -/
def activeBelow (x : Warp) (t n : Nat) : Option Nat :=
  if n = 0 then some t else (((threads x.active).filter fun u => decide (u < t)).reverse)[n - 1]?

/-- XPREV (R195). -/
def execXprev (m : Bool) (c : BitVec 1) (d a b : BitVec 6) (s : State) : Out :=
  let fm : Form := { xForm m [d.toNat] [a.toNat] with s := [b.toNat] }
  xMove fm d.toNat a.toNat (some { scalar := true, reg := b.toNat }) (fun x t =>
    let n := (x.readS b.toNat).toNat
    if c = 1#1 then activeBelow x t n else if t < n then none else some (t - n)) s

/-- XIDX (R195). -/
def execXidx (m : Bool) (d a b : BitVec 6) (s : State) : Out :=
  xMove (xForm m [d.toNat] [a.toNat, b.toNat]) d.toNat a.toNat (some { reg := b.toNat }) (fun x t =>
    let u := (x.readV b.toNat t).toNat
    if u < 96 then some u else none) s

/-- XBC (R195): uniform when A has its U bit set. -/
def execXbc (m : Bool) (l : BitVec 1) (d a b : BitVec 6) (s : State) : Out :=
  let low := l == 1#1
  let fm : Form := { xForm m [d.toNat] [a.toNat] with s := if low then [] else [b.toNat], uni := some [a.toNat] }
  xMove fm d.toNat a.toNat (if low then none else some { scalar := true, reg := b.toNat }) (fun x _ =>
    if low then some (lowest x.active)
    else
      let u := (x.readS b.toNat).toNat
      if u < 96 then some u else none) s

/-- XSWZ LANE (R197). -/
def execXswzLane (m : Bool) (d a : BitVec 6) (l : BitVec 8) (s : State) : Out :=
  xMove (xForm m [d.toNat] [a.toNat]) d.toNat a.toNat none (fun _ t => some (t / 4 * 4 + l.toNat / 4 ^ (t % 4) % 4)) s
/-- XSWZ RX (R197). -/
def execXswzRx (m : Bool) (d a : BitVec 6) (mm : BitVec 5) (s : State) : Out :=
  xMove (xForm m [d.toNat] [a.toNat]) d.toNat a.toNat none (fun _ t =>
    let k := t / 4 ^^^ mm.toNat
    if k < 24 then some (4 * k + t % 4) else none) s
/-- XSWZ REV (R197). -/
def execXswzRev (m : Bool) (d a : BitVec 6) (s : State) : Out :=
  xMove (xForm m [d.toNat] [a.toNat]) d.toNat a.toNat none (fun _ t => some (95 - t)) s

/-! ### Scans and reductions (R82, R196) -/

/-- Whether a scan is floating. -/
def scanFloat (o tag : Nat) : Bool := decide (o ≤ 2) && tag == 4
/-- The tags a scan accepts. -/
def scanTag (o : Nat) (t : BitVec 4) : Bool := if o ≤ 2 then decide (1 ≤ t.toNat ∧ t.toNat ≤ 4) else is32 t
/-- The result tag. -/
def scanOut (o tag : Nat) : Nat := if scanFloat o tag then 4 else if o ≥ 6 then 3 else 2
/-- The identity. -/
def scanId (o : Nat) (fl : Bool) : Word :=
  match o with
  | 1 => if fl then 0x7F800000 else 0x7FFFFFFF
  | 2 => if fl then 0xFF800000 else 0x80000000
  | 3 => 0xFFFFFFFF
  | 6 => 0xFFFFFFFF
  | _ => 0

/-- One combination. -/
def scanStep (o : Nat) (fl : Bool) (c : BitVec 11) (acc v : Word) : Word × FFlags :=
  if fl then
    let f := Fmt.fp32
    let a := f.input (modeFtz c) acc.toNat
    let b := f.input (modeFtz c) v.toNat
    let r := match o with
      | 0 => f.addRes (modeArith c) (modeFtz c) a b
      | 1 => f.minmaxRes false false a b
      | _ => f.minmaxRes true false a b
    (BitVec.ofNat 32 r.bits, r.fl)
  else
    (match o with
      | 0 => acc + v
      | 1 => if acc.sle v then acc else v
      | 2 => if acc.sle v then v else acc
      | 3 => acc &&& v
      | 4 => acc ||| v
      | 5 => acc ^^^ v
      | 6 => if acc.ule v then acc else v
      | _ => if acc.ule v then v else acc, {})

/-- The first active thread's value, delivered in its format. -/
def scanFirst (fl : Bool) (c : BitVec 11) (v : Word) : Word × FFlags :=
  if fl then
    let x := Fmt.fp32.input (modeFtz c) v.toNat
    let r := Fmt.fp32.deliver .rne false false x x.isSig
    (BitVec.ofNat 32 r.bits, r.fl)
  else (v, {})

/-- The combinations over the active threads in increasing index: each thread with the value and flags before it (none for
the first) and those with it. DESIGN CHOICE (log 30): the entry of the first value counts as a step, so that later threads carry
its INF, NAN and NV. -/
def scanAll (o : Nat) (fl : Bool) (c : BitVec 11) (x : Warp) (a : Nat) :
    List Nat → Option (Word × FFlags) → List (Nat × Option (Word × FFlags) × (Word × FFlags))
  | [], _ => []
  | t :: ts, acc =>
    let v := x.readV a t
    let n := match acc with
      | none => scanFirst fl c v
      | some p =>
        let r := scanStep o fl c p.1 v
        (r.1, p.2.or r.2)
    (t, acc, n) :: scanAll o fl c x a ts (some n)

/-- The poison of a combination (R194): each thread from the first that a marked active element reaches reads it. `reach` says
whether the value of the second thread enters the result of the first. -/
def scanPoison (x : Warp) (a : Nat) (reach : Nat → Nat → Bool) : Option (Nat × DWord) :=
  ((threads x.active).find? fun t => (threads x.active).any fun u => reach t u && ({ reg := a } : Src).bad x u).map
    fun t => (t, BitVec.ofNat 64 a)
/-- Tests the poison of a combination before its body. -/
def scanIssue (fm : Form) (a : Nat) (reach : Nat → Nat → Bool) (body : Nat → State → Act) : State → Out :=
  issue (fun _ => { fm with reads := [] }) (fun w s =>
    match scanPoison (s.warp w) a reach with
    | some p => .trap 0x11 p.1 p.2 false s
    | none => body w s)

/-- The form of a scan. -/
def scanForm (m : Bool) (o : Nat) (v s : List Nat) (a : Nat) : Form :=
  { vecForm m v [a] with s := s, tags := fun x => scanTag o (x.tag a), uni := none, mem := true }

/-- XSCAN (R196). DESIGN CHOICE (log 104): with EXCL a thread shows the flags of the steps before its own, which its value holds. -/
def execXscan (m : Bool) (x : BitVec 1) (o : BitVec 3) (d a : BitVec 6) (s : State) : Out :=
  let fm := scanForm m o.toNat [d.toNat] [] a.toNat
  scanIssue fm a.toNat (fun t u => if x = 1#1 then decide (u < t) else decide (u ≤ t)) (fun w s =>
    let x0 := s.warp w
    let tag := (x0.tag a.toNat).toNat
    let fl := scanFloat o.toNat tag
    let l := scanAll o.toNat fl x0.mode x0 a.toNat (threads x0.active) none
    vecOp fm [(d.toNat, scanOut o.toNat tag)] true (fun _ t =>
      match l.find? (fun e => e.1 == t) with
      | some e =>
        let r := if x = 1#1 then e.2.1.getD (scanId o.toNat fl, {}) else e.2.2
        { words := [r.1], fl := if fl then some r.2 else none }
      | none => { words := [0] }) w s) s

/-- XRED (R196). DEDUCED (log 30): with SDEST 1 each active thread still shows the flags of all steps to the watches, since each
passes its lane (R254), though no thread is written. -/
def execXred (m : Bool) (x : BitVec 1) (o : BitVec 3) (d a : BitVec 6) (s : State) : Out :=
  let sd := x == 1#1
  let fm := scanForm m o.toNat (if sd then [] else [d.toNat]) (if sd then [d.toNat] else []) a.toNat
  scanIssue fm a.toNat (fun _ _ => true) (fun w s =>
    let x0 := s.warp w
    let tag := (x0.tag a.toNat).toNat
    let fl := scanFloat o.toNat tag
    let r := match (scanAll o.toNat fl x0.mode x0 a.toNat (threads x0.active) none).getLast? with
      | some e => e.2.2
      | none => (0, {})
    if sd then
      let run := sweepThreads w fm.len (fun _ _ => { words := [], fl := if fl then some r.2 else none }) (fun s _ _ => s) (threads x0.active) s
      match run.stop with
      | some q => .halt (run.s.stopAt w x0 q)
      | none =>
        let p := run.s.pend w [d.toNat] true (bit 0)
        .done (p.2.deliver w p.1 [0] [r.1])
    else
      match vecOp fm [(d.toNat, scanOut o.toNat tag)] true (fun _ _ => { words := [r.1], fl := if fl then some r.2 else none }) w s with
      | .done t => .done (t.modWarp w fun y => y.setU d.toNat (x0.active == x0.live))
      | act => act) s

/-! ### Votes and matches (R198, R199) -/

/-- The threads that vote 1. -/
def voteMask (x : Warp) (n : BitVec 1) (a : Nat) : Mask :=
  (if n = 1#1 then ~~~(x.pred a) else x.pred a) &&& x.active

/-- The form of a vote. -/
def voteForm (m : Bool) (s : List Nat) : Form := { m := m, vector := true, s := s, mem := true }

/-- VOTE BALLOT (R198). -/
def execVoteBallot (m : Bool) (n : BitVec 1) (d a : BitVec 6) (s : State) : Out :=
  issue (fun _ => voteForm m [d.toNat, d.toNat + 1, d.toNat + 2]) (fun w s =>
    let v := voteMask (s.warp w) n a.toNat
    .done (s.modWarp w fun x =>
      ((x.writeS d.toNat (maskWord v 0)).writeS (d.toNat + 1) (maskWord v 1)).writeS (d.toNat + 2) (maskWord v 2))) s
/-- VOTE ANY (R198). -/
def execVoteAny (m : Bool) (n : BitVec 1) (d : BitVec 3) (a : BitVec 6) (s : State) : Out :=
  issue (fun _ => voteForm m []) (fun w s => .done (s.modWarp w fun x => x.setQ d.toNat (voteMask x n a.toNat != 0))) s
/-- VOTE ALL (R198). -/
def execVoteAll (m : Bool) (n : BitVec 1) (d : BitVec 3) (a : BitVec 6) (s : State) : Out :=
  issue (fun _ => voteForm m []) (fun w s => .done (s.modWarp w fun x => x.setQ d.toNat (voteMask x n a.toNat == x.active))) s

/-- The active threads whose value equals that of one, ascending (R199). -/
def matchList (fl : Bool) (x : Warp) (a t : Nat) : List Nat :=
  (threads x.active).filter fun u =>
    if fl then
      let p := Fmt.fp32.input (modeFtz x.mode) (x.readV a t).toNat
      let q := Fmt.fp32.input (modeFtz x.mode) (x.readV a u).toNat
      (p.isNan && q.isNan) || (!p.isNan && !q.isNan && Val.cmp p q == .eq)
    else x.readV a t == x.readV a u

/-- MATCH and MATCHF. -/
def matchWord (fl : Bool) (m : Bool) (d a : Reg) (c : BitVec 1) : State → Out :=
  let fm : Form := { vecForm m [d.toNat] [a.toNat] with
    tags := fun x => if fl then x.tag a.toNat == 4 else is32 (x.tag a.toNat), uni := none, mem := true }
  scanIssue fm a.toNat (fun _ _ => true) (fun w s =>
    let x0 := s.warp w
    vecOp fm [(d.toNat, 3)] false (fun _ t =>
      let l := matchList fl x0 a.toNat t
      { words := [BitVec.ofNat 32 (if c = 1#1 then l.length else l.headD 0)] }) w s)

/-- MATCH (R199). -/
def execMatchOp (m : Bool) (d a : BitVec 6) (c : BitVec 1) (s : State) : Out := matchWord false m d a c s
/-- MATCHF (R199). -/
def execMatchf (m : Bool) (d a : BitVec 6) (c : BitVec 1) (s : State) : Out := matchWord true m d a c s

end Sys2Proof.Machine
end

