-- ==== Sys2Proof/Machine/Power.lean ====
section
/-! DEFINITION. Power: clock steps and series pairs (R444 to R447), estimation and its refits (R448 to R450), and throttling (R451
to R453). -/

namespace Sys2Proof.Machine

/-! ### Clock steps (R444 to R446) -/

/-- The step a cluster is at or changes to. -/
def Cluster.goal (k : Cluster) : Nat := if k.changing then k.target else k.step

/-- The lowest and the highest step that keeps a pair within 8 (R445), during a change of the partner too. -/
def State.stepBounds (s : State) (c : Nat) : Nat × Nat :=
  let o := s.cluster (partner c)
  (max o.step o.goal - 8, min 23 (min o.step o.goal + 8))

/-- The partition that holds a cluster (R455). -/
def State.clusterPart (s : State) (c : Nat) : Option Nat :=
  (List.range 16).find? fun p => (s.part p).state != .free && (s.part p).field 8 8 / 2 ^ c % 2 == 1

/-- Begins a step change: `m` is within the bounds (R446). A rise ramps the voltage at once and switches the frequency when it is done;
a fall switches it once the synthesiser has locked, after 2 us, and ramps the voltage then. -/
def State.beginStep (s : State) (c m : Nat) : State :=
  let n := (s.cluster c).step
  if m = n then s
  else
    (s.modCluster c fun k => { k with target := m, changing := true, rampAt := s.tick.toNat, rampFrom := voltage n }).after
      (1000 * (if m > n then max 2 (m - n) else 2)) (.stepChangeDone c)

/-- The steps that the cap holds a cluster below its request (R452). -/
def State.heldSteps (s : State) (c : Nat) : Nat := (s.capActs.filter fun a => a == (c, true)).length

/-- Whether a cluster holds cores of a class-0 contract, or some wait for its clock (R393). -/
def State.holdsClass0 (s : State) (c : Nat) : Bool := (s.grantsOn c).any fun g => g.2

/-- What a request for a step comes to under the cap, which holds no cluster of a class-0 contract below the promise clock (R393,
R452). -/
def State.aim (s : State) (c n : Nat) : Nat := max (n - s.heldSteps c) (if s.holdsClass0 c then min n 8 else 0)

/-- Moves a cluster to a step, or, where R445 denies the step asked for, to the nearest step that is allowed. -/
def State.moveStep (s : State) (c n : Nat) : State :=
  let k := s.cluster c
  if k.changing then s.modCluster c fun k => { k with queued := some n }
  else
    let b := s.stepBounds c
    let m := max b.1 (min b.2 (s.aim c n))
    if b.1 ≤ n ∧ n ≤ b.2 then s.beginStep c m
    else
      let s1 := s.modCluster c fun k => { k with deny := min (k.deny + 1) 0xFFFF }
      let s2 := match s1.clusterPart c with
        | some p => s1.event p 3 10 0 0 0 c 0 n
        | none => s1
      s2.beginStep c m

/-- STEP_CHANGE_REQUEST: the contexts granted cores on a cluster ask for a step (R444 to R446). -/
def execStepChangeRequest (c n : Nat) (s : State) : Out := .next (s.moveStep c (min n 23)).watchPromise

/-- A cluster that stands apart from what is asked of it is asked again once its partner has moved (R445). -/
def State.askAgain (s : State) (c : Nat) : State :=
  let k := s.cluster c
  if k.goal = s.aim c k.request ∨ k.queued.isSome ∨ (s.calendar.any fun e => stepRequest c e.2) then s
  else s.soon (.stepChangeRequest c k.request)

/-- The class-0 cores of a cluster whose clock has come up are granted (R393). -/
def State.landCluster (s : State) (c : Nat) : State :=
  ((s.ctxs.filter fun e => e.2.loop.coming.any fun k => k / 4 == c).map Prod.fst).foldl (fun s x => ((s.accrue x).landCores x).pokeLaunches x) s

/-- STEP_CHANGE_DONE: the cluster runs at its new step, and the latest request that waits is taken up; of a fall, this comes first
when the frequency switches, and the voltage ramps to the new step (R446). -/
def execStepChangeDone (c : Nat) (s : State) : Out :=
  let k := s.cluster c
  .next (if !k.changing then s
  else if k.target < k.step then
    (((s.setStep c k.target).modCluster c fun k => { k with rampAt := s.tick.toNat }).after (1000 * (k.step - k.target)) (.stepChangeDone c)).watchPromise
  else
    let s1 := ((s.setStep c k.target).modCluster c fun k => { k with changing := false, queued := none }).landCluster c
    ((match k.queued with
      | some n => s1.moveStep c n
      | none => s1).askAgain (partner c)).watchPromise)

/-! ### Estimation (R448, R449) -/

/-- The nominal weights in pJ: T, P, VL, SR, L, S. -/
def nominalWeights : List Rat := [1, 4 / 25, 6, 4, 60, 1500]

/-- The weights of a pair. -/
def Refit.weights (r : Refit) : List Rat := if r.w.isEmpty then nominalWeights else r.w
/-- The matrix P of a pair. -/
def Refit.matrix (r : Refit) : List (List Rat) :=
  if r.p.isEmpty then (List.range 6).map fun i => (List.range 6).map fun j => if i = j then 1000000 else 0 else r.p

def dot (a b : List Rat) : Rat := ((a.zip b).map fun x => x.1 * x.2).sum

/-- The counts as the formula takes them, under a voltage in mV. -/
def sampleVec (x : PowerSample) (mv : Nat) : List Rat :=
  let v : Rat := (mv : Rat) / 730
  [(x.t : Rat), (x.p4 : Rat) / 4, (x.vl : Rat), (x.sr : Rat), (x.l : Rat), (x.cycles : Rat) * v * v]

/-- The counts of two estimators together. -/
def addSamples (x y : PowerSample) : PowerSample :=
  { t := x.t + y.t, p4 := x.p4 + y.p4, vl := x.vl + y.vl, sr := x.sr + y.sr, l := x.l + y.l, cycles := x.cycles + y.cycles }

/-- What a cluster has counted since the last estimate (R448). -/
def State.sampled (s : State) (c : Nat) : PowerSample :=
  let words := (s.slices.filter fun e => e.1 / 64 == c).map fun e => ({ vl := e.2.vl, sr := e.2.sr } : PowerSample)
  let cores := (s.work.filter fun e => e.1 / 4 == c).map Prod.snd
  (words ++ cores).foldl addSamples { cycles := s.cycle (4 * c) - (s.cluster c).estAt }

/-- The counts of a cluster as the formula takes them, at its voltage. -/
def State.countVec (s : State) (c : Nat) : List Rat := sampleVec (s.sampled c) (voltage (s.cluster c).step)
/-- The sum of two vectors of counts. -/
def addVecs (x y : List Rat) : List Rat := (x.zip y).map fun p => p.1 + p.2

/-- The estimate of a cluster over 1 us, in mW (R448). -/
def State.estimate (s : State) (c : Nat) (x : PowerSample) : Nat :=
  min ((dot (Store.get {} s.refits (c / 2)).weights (sampleVec x (voltage (s.cluster c).step)) / 1000).floor.toNat) 0xFFFFF

/-- Adds the counts of a pair's clusters to its running millisecond; a new one begins every 1000 estimates (R449). A second's worth is
kept. -/
def State.keepSums (s : State) (pair : Nat) : State :=
  let r := Store.get ({} : Refit) s.refits pair
  let x := addVecs (s.countVec (2 * pair)) (s.countVec (2 * pair + 1))
  let xs := if s.estimates % 1000 = 0 then (x :: r.xs).take 1000
    else match r.xs with
      | y :: rest => addVecs y x :: rest
      | [] => [x]
  { s with refits := Store.set {} s.refits pair { r with xs := xs } }

/-- One sample of the recursive least squares of R449. -/
def rlsStep (r : List Rat × List (List Rat)) (x : List Rat) (y : Rat) : List Rat × List (List Rat) :=
  let lam : Rat := 49 / 50
  let px := r.2.map fun row => dot row x
  let d := lam + dot x px
  let k := px.map fun v => v / d
  let e := y - dot x r.1
  let xp := (List.range 6).map fun j => dot x (r.2.map fun row => row.getD j 0)
  ((r.1.zip k).map (fun p => p.1 + p.2 * e),
   (r.2.zip k).map fun p => (p.1.zip xp).map fun q => (q.1 - p.2 * q.2) / lam)

/-- WEIGHT_REFIT: each millisecond of the second pairs its summed counts with the energy that the shunt measured, in pJ (R449). -/
def execWeightRefit (pair : Nat) (shunt : List Nat) (s : State) : Out :=
  let r := Store.get ({} : Refit) s.refits pair
  let z := (r.xs.reverse.zip shunt).foldl (fun a t => rlsStep a t.1 (t.2 : Rat)) (r.weights, r.matrix)
  let w := (z.1.zip nominalWeights).map fun p => max (p.2 / 2) (min (2 * p.2) p.1)
  .next { s with refits := Store.set {} s.refits pair { w := w, p := z.2 } }

/-! ### Throttling (R451 to R453) -/

/-- The pattern of a throttle k (R451). -/
def patternOf (k : Nat) : Word :=
  (List.range 32).foldl (fun m j => if (j + 1) * k / 32 > j * k / 32 then m ||| (1#32 <<< j) else m) 0

/-- k in force (R453, R454). -/
def Cluster.throttle (k : Cluster) : Nat := min k.kcap k.kbal

/-- Changes the throttles of a cluster; a new k loads the pattern. -/
def State.setThrottle (s : State) (c : Nat) (f : Cluster → Cluster) : State :=
  s.modCluster c fun k =>
    let n := f k
    if n.throttle = k.throttle then n else { n with pattern := patternOf n.throttle }

/-- The element of the largest key, ties to the first. -/
def argMax (f : Nat → Nat) (xs : List Nat) : Option Nat :=
  xs.foldl (fun b x => match b with
    | none => some x
    | some y => if f y < f x then some x else b) none

/-- One action of the cap (R452). -/
def State.capLower (s : State) : State :=
  let free := (List.range 40).filter fun c =>
    !s.holdsClass0 c && decide ((s.cluster c).goal > 0 ∧ (s.stepBounds c).1 < (s.cluster c).goal) && !(s.cluster c).changing
  match argMax (fun c => (s.cluster c).goal) free with
  | some c => ({ s with capActs := s.capActs ++ [(c, true)] } : State).beginStep c ((s.cluster c).goal - 1)
  | none =>
    if (List.range 40).any fun c => (s.cluster c).changing && !s.holdsClass0 c && decide ((s.cluster c).goal > 0) then s
    else match argMax (fun c => (s.cluster c).est) ((List.range 40).filter fun c => decide ((s.cluster c).kcap > 1)) with
      | some c => ({ s with capActs := s.capActs ++ [(c, false)] } : State).setThrottle c fun k => { k with kcap := k.kcap - 1 }
      | none => s

/-- Undoes the last action of the cap. -/
def State.capRaise (s : State) : State :=
  match s.capActs.getLast? with
  | none => s
  | some (c, step) =>
    let s1 : State := { s with capActs := s.capActs.dropLast }
    if step then
      let k := s.cluster c
      if k.changing then s1.modCluster c fun k => { k with queued := some k.request }
      else s1.beginStep c (max (s.stepBounds c).1 (min (s.stepBounds c).2 (min k.request (k.step + 1))))
    else s1.setThrottle c fun k => { k with kcap := min 32 (k.kcap + 1) }

/-- The cap on one estimate of the sum, in mW (R450, R452). -/
def State.capStep (s : State) (sum : Nat) : State :=
  let cap := s.pwrcap * 10000
  let s1 : State := { s with calmUs := if sum * 10 ≤ cap * 9 then s.calmUs + 1 else 0 }
  if sum > cap then s1.capLower else if s1.calmUs > 100 then s1.capRaise else s1

/-- The balancer on one estimate of a pair (R453). -/
def State.balance (s : State) (pair : Nat) : State :=
  let a := 2 * pair
  let b := a + 1
  -- currents compared as P times the other's voltage
  let ia := (s.cluster a).est * (s.cluster b).supply s.tick.toNat
  let ib := (s.cluster b).est * (s.cluster a).supply s.tick.toNat
  let hi := max ia ib
  let d := hi - min ia ib
  let beyond := decide (d * 10 > hi)
  let s1 := s.modCluster a fun k => { k with
    heavyUs := if beyond then k.heavyUs + 1 else 0
    calmUs := if beyond then 0 else if d * 20 < hi ∨ hi = 0 ∨ k.calmUs ≥ 100 then k.calmUs + 1 else 0 }
  let h := if ia ≥ ib then a else b
  if beyond then
    if (s1.cluster a).heavyUs > 20 then s1.setThrottle h fun k => { k with kbal := max 1 (k.kbal - 1) } else s1
  else if (s1.cluster a).calmUs > 100 then
    (s1.setThrottle a fun k => { k with kbal := min 32 (k.kbal + 1) }).setThrottle b fun k => { k with kbal := min 32 (k.kbal + 1) }
  else s1

/-- The words that have issued on a cluster since the last estimate, by context. -/
def State.clusterWords (s : State) (c : Nat) : List (Nat × Nat) :=
  (s.slices.filter fun e => e.1 / 64 == c).flatMap fun e => e.2.words

/-- Splits the energy of a cluster over 1 us, in pJ, among its contexts by their shares of its ISSUED slots (R467). -/
def State.splitEnergy (s : State) (c : Nat) : State :=
  let ws := s.clusterWords c
  let all := (ws.map Prod.snd).sum
  ws.foldl (fun s e => s.modCtx e.1 fun x => { x with energy := x.energy + 1000 * (s.cluster c).est * e.2 / all }) s

/-- The flits that the ports have sent and received (R450). -/
def State.flits (s : State) : Nat := (s.ports.map fun e => e.2.sentCnt + e.2.rcvdCnt).sum

/-- The energy of every cluster, and what is counted from here on. -/
def State.splitAll (s : State) : State :=
  let s1 := (List.range 40).foldl (fun s c => (s.splitEnergy c).modCluster c fun k => { k with estAt := s.cycle (4 * c) }) s
  { s1 with slices := Store.mapVals {} s1.slices fun _ k => { k with words := [], vl := 0, sr := 0 }
            work := [], hbmMoves := 0, flitsAt := s.flits, estimates := s.estimates + 1 }

/-- The terms of HBM and of the fabric over the window, in mW (R450). -/
def State.otherTerms (s : State) (hbmLines flits : Nat) : Nat :=
  let ports := ((List.range 24).filter fun p => (s.port p).state == .locked || (s.port p).state == .run).length
  2 * (s.hbmMoves + hbmLines) + 12 * 10000 + 4 * (s.flits - s.flitsAt + flits) + 3000 * ports

/-- POWER_ESTIMATE: every 1 us the estimates, then the cap and the balancers act (R448, R450, R452, R453). The event of the machine's own
calendar brings no counts beside those that the machine has taken. -/
def execPowerEstimate (samples : List PowerSample) (hbmLines flits : Nat) (s : State) : Out :=
  let s0 := (List.range 20).foldl (fun s p => s.keepSums p) s
  let s1 := (List.range 40).foldl (fun s' c => s'.modCluster c fun k => { k with
    est := s.estimate c (addSamples (s.sampled c) (samples.getD c {})) }) s0
  let sum := ((List.range 40).map fun c => (s1.cluster c).est).sum + s.otherTerms hbmLines flits
  let s2 := ((List.range 20).foldl (fun s k => s.balance k) (s1.splitAll.capStep sum)).watchPromise
  .next ((s2.cancel fun e => match e with
    | .powerEstimate .. => true
    | _ => false).after 1000 (.powerEstimate [] 0 0))

end Sys2Proof.Machine
end

