-- ==== Sys2Proof/Machine/Service.lean ====
section
/-! DEFINITION. The fault service and the frames (R312 to R314, R331 to R333), shootdowns and parity (R310, R311), poison (R334),
zeroing (R54), the ages of buffered writes and dirty lines (R274, R281), and what comes over HOCP (R275, R276, R340). -/

namespace Sys2Proof.Machine

/-! ### Walks, sweeps and errors -/

/-- TRANSLATION_WALK: a walk ends in a translation, which the TLBs take, or in a record (R309, R312). A cause that is not
serviced is raised by the access itself. -/
def execTranslationWalk (core ctx : Nat) (va : DWord) (kind : Access) (s : State) : Out :=
  .next (match s.walk ctx va.toNat kind false none with
    | .ok e s1 =>
      let put := fun (n : Nat) (l : List Tlb) => (e :: l.filter fun x => !x.covers e.part e.asid va.toNat).take n
      (s1.modCore core fun k => { k with tlb := put 1024 k.tlb }).modCluster (clusterOf core) fun k => { k with tlb := put 4096 k.tlb }
    | .wait _ s1 => s1
    | .trap _ => s)

/-- SHOOTDOWN_REQUEST of the control node: by page, by address space, or of a whole partition (R310). -/
def execShootdownRequest (part : Nat) (asid : Option Nat) (va : Option DWord) (s : State) : Out :=
  .next (s.sweep fun e => e.part == part && (match asid with
    | some a => e.asid == a
    | none => true) && (match va with
    | some v => e.vpage == v.toNat / 2 ^ e.size
    | none => true))

/-- PARITY_ERROR: the entry is dropped, and the next access walks afresh (R311). -/
def execParityError (tgt : ParityTarget) (s : State) : Out :=
  let keep := fun (page : Nat) (l : List Tlb) => l.filter fun e => e.vpage != page * 8192 / 2 ^ e.size
  .next (match tgt with
    | .lastPage core lane => s.modCore core fun k => { k with lastPage := Store.erase k.lastPage lane }
    | .coreTlb core page => s.modCore core fun k => { k with tlb := keep page k.tlb }
    | .clusterTlb c page => s.modCluster c fun k => { k with tlb := keep page k.tlb })

/-- UNCORRECTABLE_ERROR: poison, a report of memory, or a reset (R334, R378). -/
def execUncorrectableError (tgt : ErrTarget) (s : State) : Out :=
  .next (match tgt with
    | .vreg w r t h => s.modWarp w fun x => x.markV r t h
    | .sreg w r => s.modWarp w fun x => { x with spoison := x.spoison ||| (1#64 <<< r) }
    | .memory pa => { s with poisoned := Store.set false s.poisoned (pa / 32) true }
    | .state p => s.causeReset p 3)

/-- ZEROING_COMPLETE: the accesses that wait for the buffer go on (R54). -/
def execZeroingComplete (buf : ZeroBuf) (s : State) : Out :=
  .next (({ s with zeroing := s.zeroing.filter fun z => z != buf } : State).wake fun w => w == .ready)

/-- WC_AGE_DRAIN (R281). -/
def execWcAgeDrain (core id : Nat) (s : State) : Out := .next ((s.drainWc core id).wake fun w => w == .ready)

/-- The moment at which the oldest dirty non-private byte of a line turned dirty. -/
def State.oldestDirty (s : State) (core line : Nat) : Option Nat :=
  (List.range 128).foldl (fun b i => match Store.get none s.l1 (l1Key core (line * 128 + i)) with
    | some x => if x.dirty && !x.priv then some (min x.since (b.getD x.since)) else b
    | none => b) none

/-- L1_DIRTY_AGE_WRITEBACK: once a dirty non-private byte of the line is 50 us old, every such byte of it goes to its home L2; the
line is looked at again when its oldest is (R274). -/
def execL1DirtyAgeWriteback (core line : Nat) (s : State) : Out :=
  .next (match s.oldestDirty core line with
    | none => s
    | some t => if t + 50000 ≤ s.time then s.l1Writeback core (fun pa b => pa / 128 == line && b.dirty && !b.priv) false
      else s.after (t + 50000 - s.time) (.l1DirtyAgeWriteback core line))

/-! ### The end of a wait for service (R314) -/

/-- A log entry whose record is refused (R314, R319). -/
def LogEntry.refuse (e : LogEntry) : LogEntry :=
  { e with wait := .refused 0x0D (((e.lanes.head?).map Lane.addr).getD 0) }

/-- Refuses the log entries that a test picks; their deferred traps are taken where R319 says. -/
def State.refuseLogs (s : State) (p : LogWait → Bool) : State :=
  let hit := fun (x : Warp) => { x with log := x.log.map fun e => if p e.wait then e.refuse else e }
  let ws := (s.warps.filter fun e => e.2.log.any fun l => p l.wait).map Prod.fst
  let s1 := ws.foldl (fun s w => (s.modWarp w hit).overdue w) s
  { s1 with saves := Store.mapVals {} s1.saves fun _ v => { v with warps := Store.mapVals {} v.warps fun _ x => hit x } }

/-- The packets and copies whose waits a test picks go on, or are refused (R343). -/
def State.answerQueues (s : State) (pick : Nat → Nat → Bool) (refuse : Bool) : State :=
  let hit := fun (r : Option (Nat × Nat)) => r.any fun x => pick x.1 x.2
  s.queues.foldl (fun s e =>
    let k := e.2
    let s1 := match k.waitEv with
      | some ev => if hit k.waitRec then
          (s.modQueue e.1 fun k => { k with waitRec := none, waitEv := none, refused := refuse }).soon ev else s
      | none => s
    k.copies.foldl (fun s c => if hit c.waitRec then
      (s.modXCopy e.1 c.run fun c => { c with waitRec := none, refused := refuse }).soon (.xcopyComplete e.1 c.run) else s) s1) s

/-- Sends a replay notice for an owner's key (R414). -/
def State.sendNotice (s : State) (k : OwnerKey) (cause : Nat) : State :=
  let s1 := s.emit { typ := 11, src := s.fabid, dst := k.src, plane := s.remapped k.src k.plane, seq := 0, addr := 0, ten := 0, ctx := 0, aux := k.ticket
                     op := cause, len := 0, tidx := 0, resent := false, last := false, payload := [] }
  { s1 with keysOut := s1.keysOut.map fun x => if x = k then { x with noticed := true, nextIdx := 0, early := [] } else x }

/-- Every access that waits on a record retries, or is refused; the record is closed (R314). -/
def State.endService (s : State) (part idx : Nat) (refuse : Bool) : State :=
  let s1 := s.modPart part fun x => { x with faults := x.faults.filter fun f => f.1 != idx }
  let on := fun (w : LogWait) => w == .service part idx
  let s2 := if refuse then s1.refuseLogs on else s1.wake on
  let pick := fun (p i : Nat) => p == part && i == idx
  let s3 := (((s2.answerFetch part idx refuse).answerEngines pick refuse).answerQueues pick refuse)
  (s3.keysOut.filter fun k => k.part == part && k.record == idx && !k.noticed).foldl
    (fun s k => s.sendNotice k (if refuse then 0x0D else 0)) s3

/-- FRESP_ANSWER (R314). The frames that the answer's mappings name become the partition's. -/
def execFrespAnswer (part idx : Nat) (refuse : Bool) (s : State) : Out :=
  .next (match (s.part part).faults.find? fun f => f.1 == idx with
    | none => s
    | some f => (if refuse then s else s.claimTables f.2.2.2.1).endService part idx refuse)

/-- An owner's key whose record could not be posted looks again (R313, R322); what its walk then says goes with the notice (R327). -/
def State.repostKey (s : State) (k : OwnerKey) : State :=
  match s.walk k.ctx (k.page * 8192) k.acc false (some k.src) with
  | .wait (.service _ i) s1 => { s1 with keysOut := s1.keysOut.map fun x => if x = k then { x with record := i } else x }
  | .ok _ s1 => s1.sendNotice k 0
  | .trap c => s.sendNotice k (if c = 0x0F then 0x0F else 0x0D)
  | _ => s

/-- FRESP_KICK: the stalled writers of faults and of the dirty log test their rings again (R314, R330). -/
def execFrespKick (part : Nat) (s : State) : Out :=
  let s1 := s.wake fun w => w == .service part unposted || w == .dirty part
  let pick := fun (p i : Nat) => p == part && (i == unposted || i == dirtyWait)
  let s2 := ((s1.answerFetch part unposted false).answerEngines pick false).answerQueues pick false
  .next ((s2.keysOut.filter fun k => k.part == part && k.record == unposted && !k.noticed).foldl (fun s k => s.repostKey k) s2)

/-! ### Frames (R331 to R333) -/

/-- The leaves in HBM below a table: entry address, log2 of the page's bytes, physical address. -/
def State.leavesFrom (s : State) : Nat → Nat → List (Nat × Nat × Nat)
  | 0, _ => []
  | fuel + 1, table =>
    (List.range (if fuel = 3 then 64 else 1024)).flatMap fun i =>
      let slot := table + 8 * i
      let e := s.l2Num slot 8
      let pa := e / 2 ^ 13 % 2 ^ 39 * 2 ^ 13
      if e % 2 = 0 then []
      else if e / 2 % 2 = 1 then (if e / 32 % 2 = 1 then [] else [(slot, 13 + 10 * fuel, pa)])
      else s.leavesFrom fuel pa

/-- The leaves of a partition's contexts, loaded or saved, each entry once. -/
def State.partLeaves (s : State) (p : Nat) : List (Nat × Nat × Nat) :=
  let roots := (s.members p).map (fun c => (s.ctx c).ptroot)
    ++ (s.saves.filter fun e => e.2.whole && (s.part p).holds e.1).map fun e => e.2.regs.ptroot
  (roots.eraseDups.flatMap fun r => s.leavesFrom 4 r).eraseDups

/-- Reads and clears the A bit of a page (R332). -/
def State.agePage (s : State) (x : Nat × Nat × Nat) : State :=
  let low := s.l2Read x.1
  let f := x.2.2 / 8192
  if low &&& 0x40 = 0 then { s with ages := Store.set 0 s.ages f (min 255 (Store.get 0 s.ages f + 1)) }
  else { s.l2Write x.1 [low &&& ~~~0x40] with ages := Store.set 0 s.ages f 0 }

/-- PAGE_AGE_SCAN, every 4 ms (R332). -/
def execPageAgeScan (s : State) : Out :=
  let s1 := (((List.range 16).flatMap s.partLeaves).eraseDups).foldl (fun s x => s.agePage x) s
  .next (if s1.calendar.any fun e => e.2 == .pageAgeScan then s1 else s1.after 4000000 .pageAgeScan)

/-- A page in use: its partition, the address of its entry, its first frame and its number of frames. -/
structure Victim where
  part : Nat
  slot : Nat
  frame : Nat
  frames : Nat

/-- The page with the greatest age that a partition may lose, ties to the lowest frame; one of 8 GiB is never evicted, nor one that
holds a QCB (R331, R332, R337). -/
def State.oldestPage (s : State) (p : Nat) : Option Victim :=
  ((s.partLeaves p).filter fun x => x.2.1 != 33
      && !(s.pinned.any fun q => q.2 && decide (x.2.2 / 8192 ≤ q.1 ∧ q.1 < x.2.2 / 8192 + 2 ^ (x.2.1 - 13)))
      && s.ownsRun p (x.2.2 / 8192) (2 ^ (x.2.1 - 13))).foldl (fun (b : Option Victim) x =>
    let v : Victim := { part := p, slot := x.1, frame := x.2.2 / 8192, frames := 2 ^ (x.2.1 - 13) }
    match b with
    | none => some v
    | some y => if Store.get 0 s.ages y.frame < Store.get 0 s.ages v.frame
        ∨ (Store.get 0 s.ages y.frame = Store.get 0 s.ages v.frame ∧ v.frame < y.frame) then some v else b) none

/-- The victim for a partition that needs `n` frames: its own oldest page where they would take it beyond G + B, else the oldest of the
partition that exceeds its G the most (R332). -/
def State.victim (s : State) (p n : Nat) : Option Victim :=
  if (s.part p).bound < s.frameUse p + n then s.oldestPage p
  else
    let beyond := (List.range 16).filter fun i => decide (s.frameUse i > (s.part i).guaranteed)
    (argMax (fun i => s.frameUse i - (s.part i).guaranteed) beyond).bind fun i => s.oldestPage i

/-- Sends a page to a partition's backing store, on a peer or the control node (R333, R455). -/
def State.backUp (s : State) (p slot : Nat) (bs : List Byte) : State :=
  let x := s.part p
  let base := x.field 96 8 / 8192 * 8192 + slot * 8192
  let peer := x.field 96 8 % 512
  if peer = 0x1FF then
    let n := s.fresh
    let r : SysReq := { id := n.1, link := postedLink, ctx := 0, addr := BitVec.ofNat 64 base, isStore := true, bytes := bs, len := bs.length }
    { n.2 with sysReqs := n.2.sysReqs ++ [r], hocpOut := n.2.hocpOut ++ [.sysWrite n.1 (BitVec.ofNat 64 base) bs p (x.field 22 2)] }
  else
    (List.range ((bs.length + 127) / 128)).foldl (fun s i =>
      s.askPeer scarabCore x.ctxbase peer ((base + 128 * i) % 2 ^ 40) 3 0 0 128 ((bs.drop (128 * i)).take 128) postedLink) s

/-- Evicts a page (R333): its entry, the sweep, the copy and the zeroing; its frames are nobody's. The backing slot is the frame's
number. -/
def State.evict (s : State) (v : Victim) : State :=
  let pa := v.frame * 8192
  let n := v.frames * 8192
  let low := s.l2Read v.slot
  let s1 := (s.l2Write v.slot [(low &&& ~~~1) ||| 2]).sweep fun e => decide (e.pa = pa) && !e.sys
  let here := fun (a : Nat) => decide (pa ≤ a ∧ a < pa + n)
  let s2 := (s1.cores.map Prod.fst).foldl (fun s c => s.l1Writeback c (fun a _ => here a) true) s1
  let s3 := ((s2.backUp v.part v.frame (s2.l2Bytes pa n)).zeroRange pa n).passFrames 18 ((List.range v.frames).map (v.frame + ·))
  { s3 with ages := (List.range v.frames).foldl (fun m i => Store.erase m (v.frame + i)) s3.ages }

/-- The entry of an evicted page and log2 of its bytes. -/
def State.evictedSlot (s : State) (va : Nat) : Nat → Nat → Option (Nat × Nat)
  | 0, _ => none
  | fuel + 1, table =>
    let shift := 13 + 10 * fuel
    let slot := table + va / 2 ^ shift % 1024 * 8
    let e := s.l2Num slot 8
    if e % 2 = 0 then (if e / 2 % 2 = 1 then some (slot, shift) else none)
    else if e / 2 % 2 = 1 then none
    else s.evictedSlot va fuel (e / 2 ^ 13 % 2 ^ 39 * 2 ^ 13)

/-- The page comes back into a run of frames, which become its partition's (R333), and the accesses that wait on its record go
on. -/
def State.fillPage (s0 : State) (part idx slot n frame : Nat) (data : List Byte) : State :=
  let s := (s0.zeroRange (frame * 8192) (n * 8192)).passFrames (part + 1) ((List.range n).map (frame + ·))
  let e := s.l2Num slot 8
  let e' := e - e / 2 ^ 13 % 2 ^ 39 * 2 ^ 13 + frame * 8192 + 1
  let s1 := (s.l2Write (frame * 8192) (data.take (n * 8192))).l2SetNum slot 8 e'
  ({ s1 with ages := Store.erase s1.ages frame } : State).endService part idx false

/-- A free run of `n` frames: those that firmware names, or the lowest aligned one above the hypervisor's. -/
def State.freeRun (s : State) (frame n : Nat) : Option Nat :=
  let free := fun (f : Nat) => (List.range n).all fun i => s.ownerOf (f + i) == 18 && decide (f + i < hbmSize / 8192)
  if free frame then some frame
  else ((List.range (s.frames.length + 1)).find? fun i => free ((2 ^ 17 / n + i) * n)).map fun i => (2 ^ 17 / n + i) * n

/-- EVICTED_PAGE_RESTORE: firmware has the page's bytes, and looks for its frames: free ones, or where there are none, or the partition
holds all it may, those of a victim, one page after another until they suffice (R332, R333). -/
def State.restorePage (s : State) (part idx frame : Nat) (data : List Byte) : State :=
  match (s.part part).faults.find? fun f => f.1 == idx with
  | none => s
  | some f =>
    match s.evictedSlot (f.2.2.1 * 8192) 4 (s.ctx f.2.2.2.1).ptroot with
    | none => s.endService part idx false
    | some (slot, shift) =>
      let n := 2 ^ (shift - 13)
      let bound := (s.part part).bound
      match (if s.frameUse part + n ≤ bound then s.freeRun frame n else none) with
      | some f => s.fillPage part idx slot n f data
      | none => match s.victim part n with
        | none => s.after 1000 (.evictedPageRestore part idx frame data)
        | some v =>
          let s1 := s.evict v
          if n ≤ v.frames ∧ s1.frameUse part + n ≤ bound then s1.fillPage part idx slot n v.frame data
          else s1.after 1000 (.evictedPageRestore part idx (v.frame / n * n) data)

/-- EVICTED_PAGE_RESTORE. -/
def execEvictedPageRestore (part idx frame : Nat) (data : List Byte) (s : State) : Out := .next (s.restorePage part idx frame data)

/-! ### The control node (R275, R276, R340, R501) -/

/-- SYSTEM_MEMORY_ANSWER: a posted store is acknowledged or refused, or a request ends (R276, R501). -/
def execSystemMemoryAnswer (id : Nat) (ans : SysAnswer) (s : State) : Out :=
  .next (match s.sysReqs.find? fun r => r.id == id with
    | none => s
    | some r =>
      let s1 : State := { s with sysReqs := s.sysReqs.filter fun x => x.id != id }
      if r.posted then
        s1.modCtx r.ctx fun c => { c with
          sysOut := c.sysOut - 1
          sysFault := if ans == .refuse && c.sysFault.isNone then some (0x0F, r.addr) else c.sysFault }
      else s1.endRequest r.link 0 r.addr.toNat (match ans with
        | .data bs => .data bs
        | .ack => .done
        | .refuse => .refuse 0x0F))

/-- HOCP_WRITE: a 4-byte write of the control node, through the home L2 (R340). -/
def execHocpWrite (pa : Nat) (v : Word) (s : State) : Out :=
  if pa + 4 > hbmSize then .fault .noMemory else .next (s.l2SetNum pa 4 v.toNat)

/-- HOCP_BLOCK_TRANSFER: reads or writes HBM, under its keys, and bypasses L2 (R3, R275); it wakes no queue (R340). -/
def execHocpBlockTransfer (pa len : Nat) (data : Option (List Byte)) (s : State) : Out :=
  if pa + len > hbmSize then .fault .noMemory
  else match data with
    | none => .next { s with
        hbmMoves := s.hbmMoves + (linesOf pa len).length
        hocpOut := s.hocpOut ++ [.block pa ((List.range len).map fun i => s.hbmRead (pa + i))] }
    | some bs =>
      let s1 := s.recipherAll (linesOf pa (min len bs.length))
      .next (({ s1 with hbmMoves := s1.hbmMoves + (linesOf pa (min len bs.length)).length, hbm := (bs.take len).zipIdx.foldl (fun m p => Store.set 0 m (pa + p.2) p.1) s1.hbm } : State).clearReport pa
        (min len bs.length))

end Sys2Proof.Machine
end

