-- ==== Sys2Proof/Machine/Fabric.lean ====
section
/-! DEFINITION. The Scehan fabric: paths, planes and their failure (R420), lost peers (R298, R421), the answers a requester
receives (R412, R415, R501), and the acts of an owner (R322, R413 to R416). -/

namespace Sys2Proof.Machine

/-- Requests that are held go as they may, and stores that waited for a drain to start go on (R280, R415). -/
def State.flow (s : State) : State := s.pump.wake fun w => w == .ready

/-! ### Paths (R420) -/

/-- Whether a path to a peer is timing out. -/
def State.pathTiming (s : State) (k d : Nat) : Bool :=
  let p := s.port k
  p.state != .run || p.quiet || (p.pstateSeen && !p.pstate.getLsbD d)

/-- A path's own state. -/
def State.path (s : State) (k d : Nat) : Path := Store.get {} s.paths (k * 512 + d)

/-- Whether a path is up: it is not timing out, or has been for less than 20 us. A path that has never been up is down: PLANES is 0 at
reset (R425). -/
def State.pathUp (s : State) (k d : Nat) : Bool := !s.pathTiming k d || ((s.path k d).timing && !(s.path k d).down)

/-- A path begins to time out: it is down after 20 us, and when every path does, the peer is lost after 500 us (R421). -/
def State.beginTiming (s : State) (k d : Nat) : State :=
  let s1 := ({ s with paths := Store.set {} s.paths (k * 512 + d) { timing := true, down := false } } : State).after 20000 (.pathDown k d)
  if d ≠ s.fabid ∧ (List.range 24).all (fun j => s1.pathTiming j d) then
    ({ s1 with timingFrom := Store.set 0 s1.timingFrom d (s.tick.toNat + 1) } : State).after 500000 (.peerLost d)
  else s1

/-- The plane that stands in for a failed one: the next whose path is up. -/
def State.standIn (s : State) (k d : Nat) : Option Nat := ((List.range 23).map fun i => (k + 1 + i) % 24).find? fun j => s.pathUp j d

/-- Puts requests to a peer that are not sent yet on the planes now in force. -/
def State.replane (s : State) (d : Nat) : State :=
  { s with unsent := s.unsent.map fun r =>
      if r.x.dst = d then
        { r with x := { r.x with plane := if r.x.typ = 13 then (s.standIn r.x.op d).getD r.x.plane else s.planeOf r.x.src d r.x.addr } }
      else r }

/-- What waits at a failed plane's port for a peer: requests are settled and go no more, replay notices and acknowledgements go on the
plane that stands in (R407, R412, R420). -/
def State.leavePlane (s : State) (k d : Nat) : State :=
  let mine := fun (x : Txn) => x.plane == k && x.dst == d && (txnIsNotice x || vcOf x.typ == 0 || vcOf x.typ == 2)
  (s.stalled.filter fun x => mine x && txnIsNotice x).foldl (fun s x => s.emit { x with plane := s.remapped d k })
    { s with stalled := s.stalled.filter fun x => !mine x }

/-- Queries the owner about a failed plane, if a request on it is unanswered and another plane is up. The query is a request like
another: it waits for the window and for a BUSY hold (R410, R415). -/
def State.settlePlane (s : State) (k d : Nat) : State :=
  match s.sent.find? (fun r => r.x.dst == d && r.x.plane == k && r.x.typ != 20), s.standIn k d with
  | some r, some j =>
    let x : Txn := { typ := 13, src := s.fabid, dst := d, plane := j, seq := 0, addr := 0, ten := 0, ctx := 0, aux := 0, op := k, len := 2
                     tidx := 0, resent := false, last := false, payload := leBytes 2 r.x.seq }
    { s with settling := Store.set false s.settling (d * 24 + k) true
             busyHold := Store.erase s.busyHold (d * 24 + k) }.request { x := x, link := postedLink, core := scarabCore }
  | _, _ => s

/-- Remaps the lines of every computed plane that a failed plane carried, and settles it (R420). -/
def State.remapPlane (s : State) (k d : Nat) : State :=
  let planes := (List.range 24).filter fun c => Store.get 0 s.remap (d * 24 + c) == k + 1 || (c == k && Store.get 0 s.remap (d * 24 + c) == 0)
  let s1 := planes.foldl (fun (s : State) c => match s.standIn c d with
    | some j => { s with remap := Store.set 0 s.remap (d * 24 + c) (if j = c then 0 else j + 1) }
    | none => s) s
  if (s1.standIn k d).isNone then s1 else (((s1.leavePlane k d).replane d).settlePlane k d).flow

/-- A remap ends when the computed path is up and nothing to the peer is unanswered (R420). -/
def State.endRemaps (s : State) (d : Nat) : State :=
  if s.sent.any fun r => r.x.dst == d then s
  else
    let back := (List.range 24).filter fun c => Store.get 0 s.remap (d * 24 + c) != 0 && s.pathUp c d
    if back.isEmpty then s
    else ({ s with remap := back.foldl (fun m c => Store.erase m (d * 24 + c)) s.remap } : State).replane d

/-- A path recovers: its count restarts, failed planes without a stand-in take it, and remaps may end. -/
def State.endTiming (s : State) (k d : Nat) : State :=
  let s1 := ({ s with paths := Store.erase s.paths (k * 512 + d) } : State).cancel fun e => e == .pathDown k d || e == .peerLost d
  let idle := (List.range 24).filter fun c => c != k && !s1.pathUp c d && Store.get 0 s1.remap (d * 24 + c) == 0
  ((idle.foldl (fun s c => s.remapPlane c d) s1).endRemaps d).flow

/-- The state of every path of a plane follows a change of its port (R420). `old` is the machine before it. -/
def State.repath (s old : State) (k : Nat) : State :=
  (List.range 512).foldl (fun s d =>
    let was := old.pathTiming k d
    let now := s.pathTiming k d
    if !was && now then s.beginTiming k d else if was && !now then s.endTiming k d else s) s

/-- Changes a port, and its paths with it. -/
def State.setPort (s : State) (k : Nat) (f : Port → Port) : State := (s.modPort k f).repath s k

/-- Looks at the port's silence in `n` ticks, once. -/
def State.watchLink (s : State) (k n : Nat) : State := (s.cancel fun e => e == .linkDown k).after n (.linkDown k)

/-- A good word or transaction reaches a port (R418, R420, R425); the counter of what it receives brings a key change too (R423). -/
def State.hear (s : State) (k n : Nat) : State :=
  let p := s.port k
  let f := fun (p : Port) => { p with rcvdCnt := p.rcvdCnt + n, heard := s.tick.toNat, linkup := true, quiet := false, tagFail := 0 }
  let s1 := if p.quiet then s.setPort k f else s.modPort k f
  let s2 := if p.linkup then s1 else s1.watchLink k 4001
  if p.state = .run ∧ keyDue p.keyRcvd (p.rcvdCnt + n) p then s2.soon (.keyupdate k) else s2
/-- What the device has sent to its own index comes over no port (R303). -/
def State.receive (s : State) (x : Txn) : State := if x.src = s.fabid then s else s.hear x.plane (txnFlits x)
/-- A flit is dropped and counted (R411). -/
def State.dropFlit (s : State) (k : Nat) : State := s.modPort k fun p => { p with drops := min 0xFFFF (p.drops + 1) }

/-- Whether what has arrived is a transaction of a type over a port that carries it (R411, R424). -/
def State.takes (s : State) (x : Txn) (typ : Nat) : Bool :=
  (x.src == s.fabid || (s.port x.plane).carries typ) && x.typ == typ && txnLawful x

/-- A transaction of a type arrives and is acted on. One with a reserved TYPE or a broken zero rule is dropped and counted (R411), and a
port outside RUN carries none (R424). -/
def State.accept (s : State) (x : Txn) (typ : Nat) (f : State → State) : State :=
  let s1 := s.receive x
  if s1.takes x typ then f s1
  else if x.src = s.fabid ∨ !(s1.port x.plane).carries typ then s1
  else s1.dropFlit x.plane

/-- PSTATE (R412, R420). -/
def execPstate (plane : Nat) (map : BitVec 512) (s : State) : Out :=
  .next ((s.hear plane 1).setPort plane fun p => { p with pstate := map, pstateSeen := true })

/-! ### A lost peer (R298, R421) -/

/-- Whether an access of a warp's log waits for a peer, sent or linked to a ticket. -/
def State.waitsFor (s : State) (w d : Nat) : Bool :=
  (s.sent ++ s.unsent ++ s.cores.flatMap fun c => c.2.tickets.flatMap TicketEntry.links).any fun r => r.x.dst == d && (match r.link with
    | .lane v _ _ => v == w
    | _ => false)

/-- The contexts that an access or a wait met a lost peer in (R283). -/
def State.metLoss (s : State) (d : Nat) : List Nat :=
  (((s.sent ++ s.unsent).filter fun r => r.x.dst == d && r.x.typ != 13).map fun r => r.x.ctx) ++
    (s.cores.flatMap fun c => (c.2.wc.filter fun e => e.peer == d).map WcEntry.ctx) ++
    (s.cores.flatMap fun c => (c.2.tickets.filter fun t => t.peer == d).map TicketEntry.ctx)

/-- The releases and fences that wait for a peer, whose warps trap after the wait with PLTRAP 1 (R298). -/
def State.owedBy (s : State) (d : Nat) : List Nat :=
  (s.warps.filter fun e =>
    let ctx := s.ctxOf e.1
    e.2.park == .retry && decide (e.2.relWait ≥ 1) && (s.ctx ctx).pltrap
      && (s.waitsFor e.1 d || (decide (e.2.relWait ≥ 4) && s.cores.any fun c => c.2.wc.any fun x => x.ctx == ctx && x.peer == d))).map
    Prod.fst

/-- PEER_LOST: every path has been timing out for 500 us (R421). -/
def State.losePeer (s : State) (d : Nat) : State :=
  let met := (s.metLoss d).eraseDups
  let owed := s.owedBy d
  let gone := (s.sent ++ s.unsent).filter fun r => r.x.dst == d
  let tickets := ((s.cores.flatMap fun c => (c.2.tickets.filter fun t => t.peer == d).map TicketEntry.ticket)).eraseDups
  let away := s.saves.flatMap fun e => (e.2.cores.flatMap fun c => (c.2.tickets.filter fun t => t.peer == d).map fun t => (e.1, t.plane, t.ticket)).eraseDups
  let mine := fun (k : Nat) => decide (k / 24 = d)
  let s1 : State := { s with
    lost := Store.set false s.lost d true
    sent := s.sent.filter fun r => r.x.dst != d
    unsent := s.unsent.filter fun r => r.x.dst != d
    keysOut := s.keysOut.filter fun k => k.src != d
    busyHold := s.busyHold.filter fun e => !mine e.1
    settling := s.settling.filter fun e => !mine e.1
    queries := s.queries.filter fun x => x.src != d
    remap := s.remap.filter fun e => !mine e.1 }
  let s2 := met.foldl (fun s c => s.modCtx c fun k => { k with peerlost := true, lostpeer := if k.peerlost then k.lostpeer else d }) s1
  let s3 := owed.foldl (fun s w => s.modWarp w fun x => { x with owed := some (x.owed.getD (0x13, BitVec.ofNat 64 d)) }) s2
  let s4 := gone.foldl (fun s r => s.answerSent r .lost) s3
  let s5 := tickets.foldl (fun s t => s.loseTicket d t) s4
  -- tickets of switched-out contexts end when they are restored
  let s6 := away.foldl (fun s t => s.keepNotice t.1 (d, t.2.1, t.2.2, 0x13)) s5
  let s7 : State := { s6 with cores := Store.mapVals {} s6.cores fun _ c => { c with wc := c.wc.filter fun e => e.peer != d } }
  let s8 := s7.cancel fun e => match e with
    | .busyRetry _ p => p == d
    | _ => false
  (s8.pokeColls fun _ => true).flow

/-- Whether a peer is to be declared lost: every path to it has been timing out for 500 us, or from reset on, where the first event of
PEER_LOST comes after as long (R421). -/
def State.lossDue (s : State) (d : Nat) : Bool :=
  let since := Store.get 0 s.timingFrom d
  d != s.fabid && !Store.get false s.lost d && ((List.range 24).all fun k => s.pathTiming k d)
    && (since == 0 || decide (s.tick.toNat + 1 ≥ since + 500000))

/-- PEER_LOST. Paths that have never been up time out from reset on: the declarations which that brings follow one another, peer by
peer, within the 100 us that R421 allows. -/
def execPeerLost (peer : Nat) (s : State) : Out :=
  let s1 := if s.lossDue peer then s.losePeer peer else s
  .next (match (List.range 512).find? fun d => Store.get 0 s1.timingFrom d == 0 && s1.lossDue d with
    | some d => s1.after 1 (.peerLost d)
    | none => s1)

/-- PEER_LOST_CLEAR, ignored while no path to the peer is up (R421, R425). -/
def State.clearLost (s : State) (d : Nat) : State :=
  if (List.range 24).any fun k => s.pathUp k d then { s with lost := Store.set false s.lost d false } else s
def execPeerLostClear (peer : Nat) (s : State) : Out := .next (s.clearLost peer)

/-! ### Answers at the requester (R412, R415, R501) -/

/-- The request that an answer is for; DONE answers collective data too (R412). -/
def State.asked (s : State) (x : Txn) : Option Sent :=
  s.sent.find? fun r => r.x.dst == x.src && r.x.plane == x.plane && r.x.seq == x.seq && (r.x.typ != 20 || x.typ == 5)
/-- Takes a request off the list of those sent. -/
def State.unsend (s : State) (r : Sent) : State := { s with sent := s.sent.filter fun o => o.ord != r.ord }

/-- After a request has ended: NOTEACK follows the answer to LAST (R414), a remap may end, and others may go. -/
def State.requestOver (s : State) (r : Sent) : State :=
  let s1 := if r.x.resent ∧ r.x.last then s.endTicket r.x.dst (ticketOf r.x) else s
  (s1.endRemaps r.x.dst).flow

/-- An answer that ends its request. -/
def State.takeAnswer (s : State) (x : Txn) (a : Answer) : State :=
  match s.asked x with
  | none => s
  | some r => ((s.unsend r).answerSent r a).requestOver r

/-- RDATA and ARES. -/
def execRdata (x : Txn) (s : State) : Out := .next (s.accept x 2 fun s => s.takeAnswer x (.data x.payload))
def execAres (x : Txn) (s : State) : Out := .next (s.accept x 7 fun s => s.takeAnswer x (.data x.payload))
/-- REFUSE (R501). -/
def execRefuse (x : Txn) (s : State) : Out := .next (s.accept x 10 fun s => s.takeAnswer x (.refuse x.aux))

/-- DONE, of a write or of a chunk of collective data (R412, R416). -/
def execDoneOp (x : Txn) (s : State) : Out := .next (s.accept x 5 fun s => s.takeAnswer x .done)

/-- TICKET (R323). -/
def State.takeTicket (s : State) (x : Txn) : State :=
  match s.asked x with
  | none => s
  | some r => (((s.unsend r).ticketed r x.aux x.plane).endRemaps x.src).flow
def execTicket (x : Txn) (s : State) : Out := .next (s.accept x 8 fun s => s.takeTicket x)

/-- BUSY: the request waits, and no new one goes to that owner on that plane (R415). -/
def State.takeBusy (s : State) (x : Txn) : State :=
  let key := x.src * 24 + x.plane
  match s.asked x with
  | none => s
  | some r =>
    let s1 : State := { s with sent := s.sent.map fun o => if o.ord = r.ord then { o with busied := true } else o }
    if Store.get false s1.busyHold key then s1
    else ({ s1 with busyHold := Store.set false s1.busyHold key true } : State).after (x.aux * 1000) (.busyRetry x.plane x.src)
def execBusy (x : Txn) (s : State) : Out := .next (s.accept x 9 fun s => s.takeBusy x)

/-- BUSY_RETRY: the busied requests go again in SEQ order, with their SEQ and RESENT (R415). -/
def execBusyRetry (plane peer : Nat) (s : State) : Out :=
  let mine := fun (r : Sent) => r.busied && r.x.dst == peer && r.x.plane == plane
  let again := s.sent.filter mine
  let s1 : State := { s with
    sent := s.sent.map fun r => if mine r then { r with busied := false, x := { r.x with resent := true } } else r
    busyHold := Store.erase s.busyHold (peer * 24 + plane) }
  .next ((again.foldl (fun s r => s.emit { r.x with resent := true }) s1).flow)

/-- NOTICE (R326, R327, R414). -/
def execNotice (x : Txn) (s : State) : Out := .next (s.accept x 11 fun s => s.noticed x.src x.plane x.aux x.op)

/-! ### Settling a failed plane (R420) -/

/-- The distance of a SEQ from FIRST, modulo 2^16. -/
def seqFrom (first seq : Nat) : Nat := (seq + 2 ^ 16 - first % 2 ^ 16) % 2 ^ 16

/-- Whether a SEQ lies from FIRST to LASTSEQ. -/
def seqWithin (first last seq : Nat) : Bool := decide (seqFrom first last < 2 ^ 15) && decide (seqFrom first seq ≤ seqFrom first last)

/-- Cuts bytes into records of 16. -/
def cut16 : Nat → List Byte → List (List Byte)
  | 0, _ => []
  | n + 1, bs => bs.take 16 :: cut16 n (bs.drop 16)

/-- Sends a request again as a new one, on the plane in force. -/
def State.again (s : State) (r : Sent) : Sent :=
  { r with busied := false, ord := if r.x.typ = 13 then 0 else r.ord
           x := { r.x with plane := if r.x.typ = 13 then (s.standIn r.x.op r.x.dst).getD r.x.plane else s.planeOf r.x.src r.x.dst r.x.addr } }

/-- A request takes its recorded answer, or is listed to be sent again. -/
def State.settleOne (s : State) (first last plane : Nat) (recs : List (List Byte)) (r : Sent) : State × List Sent :=
  let rec' := if r.x.typ ≠ 20 ∧ r.x.typ ≠ 13 ∧ seqWithin first last r.x.seq then recs.find? fun b => leNat (b.take 2) == r.x.seq else none
  let v := fun (b : List Byte) => leNat ((b.drop 4).take 2)
  let ended := fun (s : State) => if r.x.resent ∧ r.x.last then s.endTicket r.x.dst (ticketOf r.x) else s
  match rec' with
  | none => (s, [s.again r])
  | some b =>
    match (b.getD 2 0).toNat with
    | 1 => (ended (s.answerSent r .done), [])
    | 3 => (ended (s.answerSent r (.data (b.drop 8))), [])
    | 4 => (s.ticketed r (v b) plane, [])
    | 5 => (ended (s.answerSent r (.refuse (v b))), [])
    | _ => (s, [s.again r])

/-- PLANEA: every unanswered request of the failed plane is settled, and the rest go ahead of newer ones (R420). -/
def State.planeAnswer (s : State) (r : Sent) (payload : List Byte) : State :=
  let d := r.x.dst
  let k := r.x.op
  let first := leNat r.x.payload
  let last := leNat (payload.take 2)
  let recs := cut16 ((payload.length - 16) / 16) (payload.drop 16)
  let old := s.sent.filter fun o => o.x.dst == d && o.x.plane == k
  let s0 := s.cancel fun e => e == .busyRetry k d
  let s1 : State := { s0 with sent := s0.sent.filter fun o => !(o.x.dst == d && o.x.plane == k), settling := Store.erase s0.settling (d * 24 + k) }
  let q := old.foldl (fun (q : State × List Sent) o =>
    let n := q.1.settleOne first last k recs o
    (n.1, q.2 ++ n.2)) (s1, [])
  ({ q.1 with unsent := q.2 ++ q.1.unsent }.flow).endRemaps d
def execPlanea (x : Txn) (s : State) : Out :=
  .next (s.accept x 14 fun s => match s.asked x with
    | none => s
    | some r => if r.x.typ = 13 then (s.unsend r).planeAnswer r x.payload else s)

/-! ### The owner (R322, R413 to R415) -/

/-- Sends an answer on the plane of its request, with the request's SEQ. -/
def State.answer (s : State) (x : Txn) (typ aux : Nat) (payload : List Byte) : State :=
  s.emit { typ := typ, src := s.fabid, dst := x.src, plane := x.plane, seq := x.seq, addr := 0, ten := 0, ctx := 0, aux := aux, op := 0
           len := payload.length, tidx := 0, resent := false, last := false, payload := payload }

/-- Records an answer and moves LASTSEQ (R413). -/
def State.record (s : State) (x : Txn) (kind v : Nat) (old : List Byte) : State :=
  let k := x.src * 24 + x.plane
  let r := leBytes 2 x.seq ++ leBytes 2 kind ++ leBytes 2 v ++ [0, 0] ++ (old ++ List.replicate 8 0).take 8
  let rs := Store.get [] s.records k ++ [r]
  { s with lastseq := Store.set 0 s.lastseq k x.seq, records := Store.set [] s.records k (rs.drop (rs.length - 256)) }

def State.answerRefuse (s : State) (x : Txn) (cause : Nat) : State := (s.record x 5 cause []).answer x 10 cause []
def State.answerTicket (s : State) (x : Txn) (ticket : Nat) : State := (s.record x 4 ticket []).answer x 8 ticket []

/-- Answers BUSY; the first opens the busy window (R415). -/
def State.answerBusy (s : State) (x : Txn) : State :=
  let k := x.src * 24 + x.plane
  let now := s.tick.toNat
  let e := Store.get 0 s.busyEnd k
  if now < e then s.answer x 9 (max 2 ((e - now + 999) / 1000)) []
  else
    let t := 2 + Config.retry s.free % 254
    ({ s with free := s.free + 1, busyEnd := Store.set 0 s.busyEnd k (now + t * 1000) } : State).answer x 9 t []

/-- The partition that holds the tenancy of a request, if it may act here (R413 row 1). -/
def State.tenant (s : State) (ten src : Nat) : Option Nat :=
  (List.range 16).find? fun p => (s.part p).state != .free && (s.part p).field 22 2 == ten && (s.part p).hasPeer src

/-- The operation of an ATOM transaction (R412). -/
def atomOf (x : Txn) : MemOp :=
  let kind : MemKind := if x.op < 12 then .atom x.op (decide (x.len = 8)) true
    else if x.op = 12 then .cas (decide (x.len = 16))
    else .fatom (x.op - 16) (x.aux % 16) true
  { kind := kind, space := .global, bytes := if x.op = 12 then x.len / 2 else x.len, count := 1, dst := [] }

/-- Performs a request at the home L2 and answers it (R413). -/
def State.perform (s : State) (x : Txn) (pa : Nat) : State :=
  match x.typ with
  | 1 => (s.record x 2 0 []).answer x 2 0 (s.l2Bytes pa x.len)
  | 3 => ((s.l2Write pa (x.payload.take 128)).record x 1 0 []).answer x 5 0 []
  | 4 =>
    let mask := leNat (x.payload.take 16)
    let n := s.fresh
    let s1 := ((x.payload.drop 16).take 128).zipIdx.foldl (fun s b => if mask / 2 ^ b.2 % 2 = 1 then s.l2Part (n.1 + 1) (pa + b.2) [b.1] 0 else s) n.2
    (s1.record x 1 0 []).answer x 5 0 []
  | _ =>
    let op := atomOf x
    let old := s.l2Num pa op.bytes
    let s1 := match (op.rmw old (leNat x.payload)).1 with
      | some v => s.l2SetNum pa op.bytes v
      | none => s
    (s1.record x 3 0 (leBytes op.bytes old)).answer x 7 0 (leBytes op.bytes old)

/-- The kind of access a request is translated for. -/
def txnAccess (x : Txn) : Access := if x.typ = 1 then .read else if x.typ = 6 then .atomic else .write

/-- What the owner's translation says of a request (R413 rows 4 to 6). -/
inductive Owned where
  | ok (pa : Nat) (s : State)
  | record (part idx : Nat) (s : State)
  | busy (s : State)
  | refuse (cause : Nat)

def State.ownerWalk (s : State) (x : Txn) : Owned :=
  match s.walk x.ctx x.addr (txnAccess x) false (some x.src) with
  | .trap c => .refuse (if c = 0x0F then 0x0F else 0x0D)
  | .wait (.service p i) s1 => .record p i s1
  | .wait _ s1 => .busy s1
  | .ok e s1 =>
    if e.sys then .refuse 0x0D
    else if s.zeroing.contains (.frame (e.addr x.addr / 8192)) then .busy s
    else .ok (e.addr x.addr) (s1.onBehalf x.ctx)

/-- Whether a key covers a request (R322). -/
def OwnerKey.covers (k : OwnerKey) (x : Txn) : Bool := k.ten == x.ten && k.src == x.src && k.ctx == x.ctx && k.page == x.addr / 8192

/-- Rewrites the key of a request. -/
def State.modKey (s : State) (x : Txn) (f : OwnerKey → OwnerKey) : State :=
  { s with keysOut := s.keysOut.map fun k => if k.covers x then f k else k }

/-- The lowest free ticket number, from 1; 0 is the last to be given. -/
def State.freeTicket (s : State) : Option Nat := ((List.range 4096).map fun i => (i + 1) % 4096).find? fun n => !s.keysOut.any fun k => k.ticket == n

/-- A request that no key covers (R413 rows 4 to 6). -/
def State.serveNew (s : State) (x : Txn) : State :=
  match s.ownerWalk x with
  | .ok pa s1 => s1.perform x pa
  | .busy s1 => s1.answerBusy x
  | .refuse c => s.answerRefuse x c
  | .record p i s1 =>
    match s.freeTicket with
    | none => s.answerBusy x
    | some t =>
      let k : OwnerKey := { ticket := t, ten := x.ten, src := x.src, ctx := x.ctx, page := x.addr / 8192, plane := x.plane, part := p, record := i
                            acc := txnAccess x }
      { s1 with keysOut := s1.keysOut ++ [k] }.answerTicket x t

/-- A resent access whose turn has come, and those it lets follow (R414). A page that faults anew keeps its ticket. -/
def State.serveResent (s : State) (x : Txn) : Nat → State
  | 0 => s
  | fuel + 1 =>
    match s.keysOut.find? fun k => k.covers x with
    | none => s
    | some key =>
      match s.ownerWalk x with
      | .busy s1 => s1.answerBusy x
      | .record _ i s1 =>
        let s2 := (s1.modKey x fun k => { k with noticed := false, record := i, nextIdx := 0, early := [] }).answerTicket x key.ticket
        key.early.foldl (fun s y => s.answerTicket y key.ticket) s2
      | .ok pa s1 =>
        let s2 := (s1.perform x pa).modKey x fun k => { k with nextIdx := x.tidx + 1 }
        match key.early.find? fun y => y.tidx == x.tidx + 1 with
        | some y => (s2.modKey x fun k => { k with early := k.early.filter fun z => z.tidx != y.tidx }).serveResent y fuel
        | none => s2
      | .refuse c =>
        let s2 := (s.answerRefuse x c).modKey x fun k => { k with nextIdx := x.tidx + 1 }
        match key.early.find? fun y => y.tidx == x.tidx + 1 with
        | some y => (s2.modKey x fun k => { k with early := k.early.filter fun z => z.tidx != y.tidx }).serveResent y fuel
        | none => s2

/-- The owner acts on a request in the order of R413. -/
def State.serve (s : State) (x : Txn) : State :=
  match s.tenant x.ten x.src with
  | none => s.answerRefuse x 0x0F
  | some p =>
    if s.partOf x.ctx ≠ some p ∨ !(s.ctx x.ctx).live then s.answerRefuse x 0x0F
    else if s.tick.toNat < Store.get 0 s.busyEnd (x.src * 24 + x.plane) then s.answerBusy x
    else match s.keysOut.find? fun k => k.covers x with
      | none => s.serveNew x
      | some k =>
        if x.resent && k.noticed && k.ticket == ticketOf x then
          if x.tidx = k.nextIdx then s.serveResent x (k.early.length + 1)
          else s.modKey x fun k => { k with early := k.early ++ [x] }
        else s.answerTicket x k.ticket

/-- RD, WR and WRM at their owner (R413). -/
def execRd (x : Txn) (s : State) : Out := .next (s.accept x 1 fun s => s.serve x)
def execWr (x : Txn) (s : State) : Out := .next (s.accept x 3 fun s => s.serve x)
def execWrm (x : Txn) (s : State) : Out := .next (s.accept x 4 fun s => s.serve x)
/-- ATOM at its owner; one with another OP code is dropped and counted (R411, R412). -/
def execFabricAtom (x : Txn) (s : State) : Out :=
  .next (s.accept x 6 fun s => if x.op ≤ 12 ∨ (16 ≤ x.op ∧ x.op ≤ 18) then s.serve x else s.dropFlit x.plane)

/-- NOTEACK: the key and the number are free (R414). -/
def execNoteack (x : Txn) (s : State) : Out :=
  .next (s.accept x 12 fun s => { s with keysOut := s.keysOut.filter fun k => !(k.src == x.src && k.ticket == x.aux) })

/-- Answers a plane query with LASTSEQ and the answer records from FIRST on (R412, R413, R420). -/
def State.answerQuery (s : State) (x : Txn) : State :=
  let k := x.src * 24 + x.op
  let first := leNat x.payload
  let last := Store.get 0 s.lastseq k
  let rs := (Store.get [] s.records k).filter fun b => seqWithin first last (leNat (b.take 2))
  s.answer x 14 0 (leBytes 16 last ++ rs.flatten)

/-- PLANEQ: answered once the path from the requester on the failed plane is down here too (R420). -/
def execPlaneq (x : Txn) (s : State) : Out :=
  .next (s.accept x 13 fun s => if s.pathUp x.op x.src then { s with queries := s.queries ++ [x] } else s.answerQuery x)

/-- PATH_DOWN: the lines of the plane are remapped, and the queries that waited for this are answered (R420). -/
def execPathDown (plane peer : Nat) (s : State) : Out :=
  let p := s.path plane peer
  let mine := fun (x : Txn) => x.op == plane && x.src == peer
  .next (if p.timing ∧ !p.down ∧ s.pathTiming plane peer then
    (s.queries.filter mine).foldl (fun s x => s.answerQuery x)
      (({ s with paths := Store.set {} s.paths (plane * 512 + peer) { p with down := true }
                 queries := s.queries.filter fun x => !mine x } : State).remapPlane plane peer)
    else s)

/-- COLLD: a chunk of a member of the tenancy is kept for its collective, and each chunk is answered (R416, R247). -/
def State.takeChunk (s : State) (x : Txn) : State :=
  let chunk : CollChunk := { ctx := x.ctx, handle := x.aux, src := x.src, round := x.op, off := x.addr, bytes := x.payload }
  let kept := s.tenant x.ten x.src != none && s.partOf x.ctx == s.tenant x.ten x.src
  let s1 : State := if !kept || s.collIn.contains chunk then s else { s with collIn := s.collIn ++ [chunk] }
  (s1.answer x 5 0 []).pokeColls fun c => kept && c == x.ctx
def execColld (x : Txn) (s : State) : Out := .next (s.accept x 20 fun s => s.takeChunk x)

/-- FLIT_DROP (R411). -/
def execFlitDrop (port : Nat) (s : State) : Out := .next ((s.hear port 1).dropFlit port)

/-! ### Merged reports (R403, R417) -/

/-- A number in a payload. -/
def txnNum (x : Txn) (off n : Nat) : Nat := leNat ((x.payload.drop off).take n)

/-- The member that a merge is for: the lowest context of its tenancy and group that waits for one of this T and ILOG. Members of one
device are answered in the order of their reports. -/
def State.mergeFor (s : State) (x : Txn) : Option Nat :=
  (List.range 128).find? fun c => (s.ctx c).loop.merging && (s.ctx c).loop.reported == txnNum x 0 8
    && ((s.partOf c).map fun p => (s.part p).field 22 2) == some x.ten
    && (match (s.ctx c).loop.contract with
      | some k => k.group == txnNum x 8 2 && k.ilog == txnNum x 10 1
      | none => false)

/-- BEATMRG: the minimum over the reports present is the step's count, and a merge that lacks a member sets GMISS (R403, R417). -/
def State.takeMerge (s : State) (x : Txn) (n least : Nat) : State :=
  match s.mergeFor x with
  | none => s
  | some c =>
    let gsize := (((s.ctx c).loop.contract).map Contract.gsize).getD 0
    (s.modLoop c fun l => { l with gmiss := decide (n < gsize) }).runStep c least
def execBeatmrg (x : Txn) (n least : Nat) (s : State) : Out := .next (s.accept x 17 fun s => s.takeMerge x n least)

end Sys2Proof.Machine
end

