-- ==== Sys2Proof/Machine/Port.lean ====
section
/-! DEFINITION. The ports: lock states and sessions (R422 to R424), link control words (R418, R419), the index of the device
(R425), and the agreement of the tick with the switches (R7). -/

namespace Sys2Proof.Machine

/-! ### The tick (R7) -/

/-- Inserts a number in rising order. -/
def insertInt (x : Int) : List Int → List Int
  | [] => [x]
  | y :: rest => if x ≤ y then x :: y :: rest else y :: insertInt x rest

/-- The median of the differences that some ports hear, the lower of two. -/
def State.medianSkew (s : State) (p : Port → Bool) : Option Int :=
  let xs := ((List.range 24).filterMap fun k => if p (s.port k) then (s.port k).skew else none).foldl (fun l x => insertInt x l) []
  xs[(xs.length - 1) / 2]?

/-- Moves every difference, after the device's tick has moved. -/
def State.moveSkews (s : State) (d : Int) : State :=
  { s with ports := Store.mapVals {} s.ports fun _ p => { p with skew := p.skew.map fun x => x - d } }

/-- Slews the tick of a device in RUN by one, at most once in 1000 ticks: it gains one, or is held for one. -/
def State.slew (s : State) : State :=
  let now := s.tick.toNat
  if s.slewAt ≠ 0 ∧ now < s.slewAt + 1000 then s
  else match s.medianSkew fun p => p.state == .run with
    | none => s
    | some m =>
      if m > 0 then { s.moveSkews 1 with tick := s.tick + 1, slewAt := now }
      else if m < 0 then { s.moveSkews (-1) with holdTick := true, slewAt := now }
      else s

/-! ### Lock states (R424) -/

/-- A port fails with a cause. -/
def State.portError (s : State) (k cause : Nat) : State :=
  (s.setPort k fun p => { p with state := .error, errcause := cause }).unstall k

/-- FABID_WRITE: only while every port is CONFIG_UNLOCKED (R425). The device's old index is a peer from now on, one that may be due to be
lost where no declaration is on its way; its new one is none (R421). -/
def execFabidWrite (peer : Nat) (s : State) : Out :=
  .next (if (List.range 24).all fun k => (s.port k).state == .unlocked then
      let s1 : State := { s with fabid := peer % 512, lost := Store.erase s.lost (peer % 512) }
      let coming := s.calendar.any fun e => match e.2 with
        | .peerLost _ => true
        | _ => false
      if coming then s1 else s1.after 1 (.peerLost s.fabid)
    else s)

/-! ### Sessions (R422) -/

/-- The request that follows one at bring-up. -/
def spdmNext : SpdmReq → Option SpdmReq
  | .getVersion => some .getCapabilities
  | .getCapabilities => some .negotiateAlgorithms
  | .negotiateAlgorithms => some .getDigests
  | .getDigests => some .getCertificate
  | .getCertificate => some .getMeasurements
  | .getMeasurements => some .keyExchange
  | .keyExchange => some .finish
  | .finish => none
  | .keyUpdate => none
  | .endSession => none

/-- The only selection that the device accepts. -/
def spdmChosen : SpdmAlgs :=
  { signature := .ecdsaBrainpoolP384r1, keyExchange := .ecdhSecp384r1, hash := .sha384, aead := .aes256Gcm, options := false }

/-- Sends an SPDM message, link-local (R412). Its bytes are SPDM's. -/
def State.sendSpdm (s : State) (k : Nat) : State :=
  let body := Config.spdm s.free
  ({ s with free := s.free + 1 } : State).emit
    { typ := 24, src := s.fabid, dst := 0, plane := k, seq := 0, addr := 0, ten := 0, ctx := 0, aux := 0, op := 0, len := body.length, tidx := 0
      resent := false, last := false, payload := body }

/-- Asks the switch, and waits for its answer. -/
def State.askSpdm (s : State) (k : Nat) (q : SpdmReq) : State := (s.modPort k fun p => { p with asking := some q }).sendSpdm k

/-- The switch has answered a request of the bring-up: the next is sent. -/
def State.advanceSpdm (s : State) (k : Nat) : State :=
  match (s.port k).asking.bind spdmNext with
  | some q => s.askSpdm k q
  | none => s

/-- PORTCFG_WRITE. -/
def State.writePortcfg (s : State) (k : Nat) (v : Word) : State :=
  match (s.port k).state with
  | .unlocked => s.modPort k fun p => { p with en := v.getLsbD 0, loopback := v.getLsbD 1, tagmax := max 1 (v.toNat / 16 % 16) }
  | .locked => s.portError k 4
  | .run => s.portError k 4
  | .error => s
def execPortcfgWrite (port : Nat) (v : Word) (s : State) : Out := .next (s.writePortcfg port v)

/-- LOCK: the configuration is frozen, the link trained and the session begun. -/
def State.lockPort (s : State) (k : Nat) : State :=
  if (s.port k).state = .unlocked ∧ (s.port k).en then
    ((s.modPort k fun p => { p with state := .locked, heard := s.tick.toNat, quiet := false, tagFail := 0, stopped := 0 }).watchLink k 4001).askSpdm
      k .getVersion
  else s
def execLock (port : Nat) (s : State) : Out := .next (s.lockPort port)

/-- Whether the tick is near enough to the median for a START (R7). While no port has heard a switch's tick there is no median to
differ from, and the rule is silent: START is then allowed, which is the model's choice (log 88). -/
def State.tickNear (s : State) : Bool :=
  match s.medianSkew fun p => p.state == .locked || p.state == .run with
  | none => true
  | some m => decide (-4 ≤ m ∧ m ≤ 4)

/-- START, with a session. -/
def State.startPort (s : State) (k : Nat) : State :=
  if (s.port k).state = .locked ∧ (s.port k).session ∧ s.tickNear then
    (({ s with begun := true }.setPort k fun p => { p with state := .run, keyAt := p.sentCnt, keyRcvd := p.rcvdCnt }).unstall k).flow
  else s
def execPortStart (port : Nat) (s : State) : Out := .next (s.startPort port)

/-- STOP: keys and session go, which ends a session with END_SESSION. The words of the link, and the switch's latest PSTATE, stay. -/
def State.stopPort (s : State) (k : Nat) : State :=
  if (s.port k).state = .unlocked then s
  else (((if (s.port k).session then s.sendSpdm k else s).cancel fun e => e == .keyupdate k).setPort k fun p => { p with
    state := .unlocked, session := false, keyUpdating := false, skew := none, asking := none }).unstall k
def execPortStop (port : Nat) (s : State) : Out := .next (s.stopPort port)

/-- KEYUPDATE: a port in RUN begins KEY_UPDATE, and traffic continues (R423). -/
def execKeyupdate (port : Nat) (s : State) : Out :=
  .next (if (s.port port).state = .run then (s.modPort port fun p => { p with keyUpdating := true }).askSpdm port .keyUpdate else s)

/-- LINK_DOWN: 4 us without a word make the paths time out; 50 us are link down, by which a port that is locked or runs fails (R420,
R424, R425). -/
def execLinkDown (port : Nat) (s : State) : Out :=
  let p := s.port port
  let idle := s.tick.toNat - p.heard
  .next (if idle ≥ 50000 then
      (if p.state = .locked ∨ p.state = .run then s.portError port 1 else s).modPort port fun p => { p with linkup := false }
    else if idle > 4000 then (s.setPort port fun p => { p with quiet := true }).watchLink port (50000 - idle)
    else s.watchLink port (4001 - idle))

/-- LINK_CONTROL_WORD (R7, R418, R419). One whose tag fails stands for any flit or word that is discarded for its tag. -/
def execLinkControlWord (port : Nat) (w : LinkWord) (s0 : State) : Out :=
  let s := s0.hear port 0
  let p := s.port port
  let fails := (s0.port port).tagFail + 1
  .next (if !w.tagOk then
      let s1 := s.modPort port fun p => { p with tagFail := fails }
      if p.state = .run ∧ fails ≥ p.tagmax then s1.portError port 2 else s1
    else
      let stop := match w.stop with
        | some v => p.stopped ||| (1#4 <<< v)
        | none => p.stopped
      let go := match w.go with
        | some v => stop &&& ~~~(1#4 <<< v)
        | none => stop
      let s1 := s.modPort port fun p => { p with
        tagFail := 0, ackCnt := max p.ackCnt w.ack, stopped := go
        skew := match w.switchTick with
          | some t => some ((t.toNat : Int) - s.tick.toNat)
          | none => p.skew }
      ((if w.switchTick.isSome then s1.slew else s1).unstall port).flow)

/-- SPDM: what a message of the link brings about (R422 to R424). Each request of the bring-up follows the answer to the one before it;
another selection than the device's is refused, and an answer to a request that is not waiting is ignored. -/
def execSpdm (port : Nat) (msg : SpdmMsg) (s0 : State) : Out :=
  let s := s0.hear port 1
  let st := (s.port port).state
  let open' := st = .locked ∨ st = .run
  .next (match msg with
    | .established =>
      if st = .locked ∧ (s.port port).asking = some .finish then s.modPort port fun p => { p with session := true, asking := none } else s
    | .failed => if open' then s.portError port 3 else s
    | .endSession => if open' then s.portError port 3 else s
    | .keyUpdated =>
      if st = .run ∧ (s.port port).keyUpdating then
        (s.modPort port fun p => { p with keyUpdating := false, keyAt := p.sentCnt, keyRcvd := p.rcvdCnt, asking := none }).unstall port
      else s
    | .keyUpdateFailed => if st = .run ∧ (s.port port).keyUpdating then s.portError port 5 else s
    | .algorithms a =>
      if st = .locked ∧ (s.port port).asking = some .negotiateAlgorithms then
        if a = spdmChosen then s.advanceSpdm port else s.portError port 3
      else s
    | .other => if st = .locked ∧ (s.port port).asking ≠ some .negotiateAlgorithms then s.advanceSpdm port else s)

end Sys2Proof.Machine
end

