-- ==== Sys2Proof/Machine/Partition.lean ====
section
/-! DEFINITION. Partition commands (R455 to R457, R497), keys (R464) and time slices (R460 to R463). -/

namespace Sys2Proof.Machine

/-! ### The checks of R456 -/

/-- Whether a run of bytes lies in hypervisor frames. -/
def State.hyperRun (s : State) (pa n : Nat) : Bool := s.ownsRun 16 (pa / 8192) ((pa % 8192 + n + 8191) / 8192)

/-- The frames the hypervisor holds (R304). -/
def State.hyperFrames (s : State) : Nat :=
  2 ^ 17 - (s.frames.filter fun e => decide (e.1 < 2 ^ 17)).length + (s.frames.filter fun e => e.2 == 17).length

/-- Check 1: every field lies in its range (R455). -/
def State.entryOk (s : State) (b : List Byte) : Bool :=
  let f := bytesField b
  let within := fun (off lo hi : Nat) => decide (lo ≤ f off 1 ∧ f off 1 ≤ hi)
  within 0 0 1 && within 1 0 2 && within 2 1 255 && within 3 1 31 && bytesZero b 4 4 && decide (f 8 8 < 2 ^ 40) && decide (f 16 4 < 2 ^ 24)
    && decide (1 ≤ f 20 2 ∧ f 20 2 ≤ 384) && decide (1 ≤ f 22 2) && decide (f 24 2 + f 26 2 ≤ 1024)
    && decide (1 ≤ f 40 2 ∧ f 40 2 ≤ 4096) && decide (f 36 4 + f 40 2 ≤ 2 ^ 32) && bytesZero b 42 6
    && within 56 6 12 && (within 57 0 0 || within 57 12 24) && within 58 6 12 && within 59 6 12 && within 60 2 16 && bytesZero b 61 3
    && s.hyperRun (f 48 8) (32 * 2 ^ f 56 1)
    && (f 57 1 == 0 || decide (f 64 8 + 16 * 2 ^ f 57 1 ≤ hbmSize)) && decide (f 80 8 + 32 * 2 ^ f 59 1 ≤ hbmSize)
    && f 88 8 % 8192 == 0 && decide (f 88 8 + 4352 * 2 ^ f 60 1 ≤ hbmSize) && f 96 8 / 2 ^ 9 % 16 == 0
    && (f 104 8 == 0 || (f 104 8 % 256 == 0 && s.hyperRun (f 104 8) (256 * f 40 2))) && bytesZero b 112 80

/-- The entry of a partition as its last command left it. -/
def Part.latest (x : Part) : List Byte := Store.range 0 (x.updated.getD x.entry) 0 256

/-- The entries of the partitions that are not FREE, but for one. -/
def State.otherEntries (s : State) (p : Nat) : List (List Byte) :=
  ((List.range 16).filter fun i => i != p && (s.part i).state != .free).map fun i => (s.part i).latest

/-- Whether two ranges meet. -/
def meets (a n b m : Nat) : Bool := decide (a < b + m ∧ b < a + n)

/-- The checks of CREATE and UPDATE, in order, as pairs of a code and whether it fails. -/
def State.entryChecks (s : State) (p : Nat) (b : List Byte) (create : Bool) : List (Nat × Bool) :=
  let f := bytesField b
  let others := s.otherEntries p
  let any := fun (q : List Byte → Bool) => others.any q
  let sliced := f 0 1 % 2 == 1
  let cached := (s.part p).latest
  let fixed : List (Nat × Nat) := [(0, 1), (3, 1), (8, 8), (16, 4), (22, 2), (24, 2), (26, 2), (36, 4), (40, 2), (192, 64)]
  let shared : List (Nat × Bool) := [
    (1, !s.entryOk b),
    (4, decide (f 20 2 + (others.map fun o => bytesField o 20 2).sum > 384)),
    (5, decide (f 28 4 + (others.map fun o => bytesField o 28 4).sum > hbmSize / 8192 - s.hyperFrames))]
  if create then [
    (1, !s.entryOk b),
    (2, any (fun o => f 8 8 &&& bytesField o 8 8 != 0 && !(sliced && bytesField o 0 1 % 2 == 1))
      || (!sliced && f 8 8 &&& s.tscl.toNat != 0)),
    (3, any fun o => f 16 4 &&& bytesField o 16 4 != 0)] ++ shared.drop 1 ++ [
    (6, any (fun o => meets (f 24 2) (f 26 2) (bytesField o 24 2) (bytesField o 26 2) || meets (f 36 4) (f 40 2) (bytesField o 36 4) (bytesField o 40 2))
      || (f 24 2 == 0 && f 26 2 != 0) || f 36 4 == 0
      || (List.range (f 26 2)).any fun i => (s.queue (f 24 2 + i)).state != .unbound),
    (7, any (fun o => f 3 1 == bytesField o 3 1) || !s.keysHeld.getLsbD (f 3 1)),
    (8, sliced && f 8 8 != s.tscl.toNat)]
  else shared ++ [(9, fixed.any fun x => f x.1 x.2 != bytesField cached x.1 x.2)]

/-- The first failing code, 0 for none. -/
def firstCode (l : List (Nat × Bool)) : Nat := ((l.find? fun c => c.2).map Prod.fst).getD 0

/-! ### Commands (R457, R459) -/

/-- A command completes: BUSY clears as ERR is written (R497). -/
def State.commandDone (s : State) (err : Nat) : State := { s with pbusy := false, perr := err }

/-- A command that its partition's state does not accept changes nothing; its ERR is open. -/
def State.notAccepted (s : State) : State :=
  let c := s.choose 11
  c.2.commandDone c.1

/-- The entry of a partition in memory. -/
def State.entryBytes (s : State) (p : Nat) : List Byte := s.l2Bytes (s.ptbase + 256 * p) 256
def entryStore (b : List Byte) : Store Byte := Store.setAll 0 [] (b.zipIdx.map fun e => (e.2, e.1))

/-- CREATE (R456, R457): the ways of its WAYMASK come to it clean (R53). -/
def State.createPart (s : State) (p : Nat) : State :=
  if (s.part p).state ≠ .free then s.notAccepted
  else
    let b := s.entryBytes p
    let err := firstCode (s.entryChecks p b true)
    if err ≠ 0 then s.commandDone err
    else
      let s1 := (s.dropWays (waysIn (bytesField b 16 4))).modPart p fun _ => { state := .active, entry := entryStore b }
      let scope := bytesField b 1 1
      let s2 := if scope = 0 then s1
        else (List.range (bytesField b 40 2)).foldl (fun s i => s.modCtx (bytesField b 36 4 + i) fun c => { c with scopemax := scope }) s1
      ((s2.carveRecord p 1).at ((s.tick.toNat / 1000000000 + 1) * 1000000000) (.usageRecordWrite p)).commandDone 0
def execCreate (part : Nat) (s : State) : Out := .next (s.createPart part)

/-- UPDATE: its values wait for the next interval end of a contract, if one is in force (R457). -/
def State.updatePart (s : State) (p : Nat) : State :=
  if (s.part p).state ≠ .active then s.notAccepted
  else
    let b := s.entryBytes p
    let err := firstCode (s.entryChecks p b false)
    if err ≠ 0 then s.commandDone err
    else
      let s1 := s.modPart p fun x => { x with updated := some (entryStore b) }
      let waits := (s.members p).any fun c => (s.ctx c).loop.contract.isSome
      ((if waits then s1 else s1.applyUpdate p).carveRecord p 2).commandDone 0
def execUpdate (part : Nat) (s : State) : Out := .next (s.updatePart part)

/-- The events that belong to a partition or to one of its contexts. -/
def partEvent (p : Nat) (x : Part) : Instr → Bool
  | .usageRecordWrite q => q == p
  | .equinoxGrant q => q == p
  | .quiesceDone q => q == p
  | .writebackDone q => q == p
  | .zeroDone q => q == p
  | .replayDone q => q == p
  | .beatIntervalEnd c => x.holds c
  | .controllerStep c => x.holds c
  | .grantRise c => x.holds c
  | .grantFall c => x.holds c
  | .loadOp c => x.holds c
  | .saveOp c => x.holds c
  | .restore c => x.holds c
  | .discard c => x.holds c
  | .stagingComplete _ c => x.holds c
  | _ => false

/-- Halts a partition's contexts without saving and zeroes what it held (R53, R457). -/
def State.clearPart (s : State) (p : Nat) : State :=
  let x := s.part p
  let s1 := ((s.haltPart p).discardWaits p).zeroPart p
  let mine := fun (pa : Nat) => s.ownerOf (pa / 8192) == p + 1
  let s2 : State := { s1 with
    hbm := s1.hbm.filter fun e => !mine e.1, l2 := s1.l2.filter fun e => !mine e.1, l1 := s1.l1.filter fun e => !mine (e.1 % 2 ^ 40)
    poisoned := s1.poisoned.filter fun e => !mine (e.1 * 32)
    ages := s1.ages.filter fun e => !mine (e.1 * 8192), pinned := s1.pinned.filter fun e => !mine (e.1 * 8192)
    lineGen := s1.lineGen.filter fun e => !mine (if e.1 % 2 = 0 then e.1 / 2 * 128 else e.1 / 2 * 8192)
    frames := s1.frames.filter fun e => e.2 != p + 1
    ctxs := s1.ctxs.filter fun e => !x.holds e.1, saves := s1.saves.filter fun e => !x.holds e.1
    slices := Store.mapVals {} s1.slices fun _ k => { k with defs := k.defs.filter fun d => !x.holds d.1 }
    sysReqs := s1.sysReqs.filter fun r => !x.holds r.ctx
    keysHeld := s1.keysHeld &&& ~~~(1#32 <<< x.field 3 1), keys := Store.erase s1.keys (x.field 3 1) }
  s2.cancel (partEvent p x)

/-- DESTROY (R456, R457): during a reset it waits. -/
def State.destroyPart (s : State) (p : Nat) : State :=
  let x := s.part p
  match x.state with
  | .resetting => s.modPart p fun x => { x with destroyWait := true }
  | .active =>
    if (s.queuesOf p ++ x.queues).any fun q => (s.queue q).state != .unbound then s.commandDone 10
    else
      let s1 := (s.clearPart p).modPart p fun x => { x with state := .destroying }
      ((s1.writeBlock p).soon (.destroyZeroingDone p)).commandDone 0
  | _ => s.notAccepted
def execDestroy (part : Nat) (s : State) : Out := .next (s.destroyPart part)

/-- DESTROY_ZEROING_DONE: a CARVE record goes into the sealed block, and the partition is FREE (R457). -/
def execDestroyZeroingDone (part : Nat) (s : State) : Out :=
  .next (if (s.part part).state ≠ .destroying then s
    else
      let now := s.tick.toNat
      let s1 := s.modPart part fun x => { x with
        urecs := x.urecs ++ [usageRec 4 0 now [3]], ufirst := if x.urecs.isEmpty then now else x.ufirst, ulast := now }
      (s1.writeBlock part).modPart part fun _ => {})

/-- RESETPART (R378, R456). -/
def execResetpart (part : Nat) (s : State) : Out :=
  .next (if (s.part part).state = .active then (s.causeReset part 6).commandDone 0 else s.notAccepted)

/-- A write to PCMD: ignored while a command is in progress (R459, R497). -/
def State.partCommand (s : State) (p cmd : Nat) : State :=
  if s.pbusy ∨ cmd = 0 ∨ cmd > 4 then s
  else ({ s with pbusy := true, plast := p } : State).within 50000
    (if cmd = 1 then .create p else if cmd = 2 then .update p else if cmd = 3 then .destroy p else .resetpart p)

/-! ### Keys (R464) -/

/-- Whether an ACTIVE partition names a slot. -/
def State.keyInUse (s : State) (slot : Nat) : Bool := (List.range 16).any fun p => (s.part p).state == .active && (s.part p).field 3 1 == slot

/-- The owners whose frames carry a slot, by their codes: slot 0 the hypervisor, another the partitions that name it (R465). -/
def State.slotOwners (s : State) (slot : Nat) : List Nat :=
  (if slot = 0 then [17] else []) ++
    ((List.range 16).filter fun p => (s.part p).state != .free && (s.part p).field 3 1 == slot).map fun p => p + 1

/-- The key of a slot changes: what HBM holds under the old one can be read no more (R464, R465). -/
def State.rekey (s : State) (slot : Nat) : State :=
  { s with keyGen := (s.slotOwners slot).foldl (fun m c => Store.set 0 m c (s.free + 1)) s.keyGen, free := s.free + 1 }

/-- GENERATE. -/
def State.generateKey (s : State) (slot : Nat) : State :=
  if s.keyInUse slot ∨ slot ≥ 32 then s
  else { s with keysHeld := s.keysHeld ||| (1#32 <<< slot), keys := Store.set 0 s.keys slot (Config.random s.free) }.rekey slot
def execGenerate (slot : Nat) (s : State) : Out := .next (s.generateKey slot)

/-- ZERO. -/
def State.zeroKey (s : State) (slot : Nat) : State :=
  if s.keyInUse slot ∨ slot ≥ 32 then s
  else { s with keysHeld := s.keysHeld &&& ~~~(1#32 <<< slot), keys := Store.erase s.keys slot }.rekey slot
def execZeroOp (slot : Nat) (s : State) : Out := .next (s.zeroKey slot)

/-! ### Time slices (R460 to R463) -/

/-- The words of the slots, up to the first LEN of 0. -/
def State.slotList (s : State) : List Word := ((List.range 8).map fun i => Store.get 0 s.tsslots i).takeWhile fun w => w.toNat % 2 ^ 16 != 0

/-- Whether a schedule may start: F is not 0, and every owner is ACTIVE with TSLICE. -/
def State.scheduleOk (s : State) : Bool :=
  !s.slotList.isEmpty && s.slotList.all fun w => w.getLsbD 16 ||
    (let x := s.part ((w >>> 20).toNat % 16)
     x.tslice && x.state == .active)

/-- SCHEDULE_START: EN goes from 0 to 1, or is refused (R460). -/
def execScheduleStart (s : State) : Out :=
  .next (if s.tsRunning ∨ s.tsEn ∨ !s.scheduleOk then s
    else
      let e := (s.tick.toNat + 999) / 1000 * 1000
      ({ s with tsEn := true, tsRunning := true, tsEpoch := e, tsSlot := 0, tsStart := e } : State).at e .timesliceBoundary)

/-- SCHEDULE_STOP: the schedule ends at the next boundary (R463). -/
def execScheduleStop (s : State) : Out := .next { s with tsEn := false }

/-- The partitions that hold the time-sliced clusters in a slot. -/
def State.slotParts (s : State) : List Nat :=
  match s.slotWord with
  | none => []
  | some w => if w.getLsbD 16 then (List.range 16).filter fun i => s.tslend.getLsbD i else [(w >>> 20).toNat % 16]

/-- Launches of the partitions of the slot in force are tried again. -/
def State.pokeSlot (s : State) : State := (s.slotParts.flatMap fun p => s.members p).foldl (fun s c => s.pokeLaunches c) s

/-- The workgroups of partitions on the time-sliced clusters that satisfy a test. -/
def State.slicedWgs (s : State) (p : Nat → Bool) : List Nat :=
  (s.wgs.filter fun e => e.2.resident && !e.2.out && s.tscl.getLsbD (e.2.core / 4) && s.wgCtx e.1 != 0 && p e.1).map Prod.fst

/-- The tick at which the slot in force ends. -/
def State.slotEnd (s : State) : Nat := s.tsStart + 1000 * ((s.slotWord.getD 0).toNat % 2 ^ 16)

/-- The contexts of the outgoing slot leave the clusters; those whose halt waits for a peer are tried again (R461). -/
def State.clearSlot (s : State) (p : Nat → Bool) : State :=
  let r := s.preemptAll (s.slicedWgs p)
  if r.2 then r.1 else r.1.after 1000 .timesliceBoundary

/-- TIMESLICE_BOUNDARY (R461 to R463). A boundary before the slot's end tries again what did not leave at its start. -/
def State.boundary (s : State) : State :=
  if !s.tsRunning then s.clearSlot fun _ => true
  else if s.tsSlot ≠ 0 ∧ s.tick.toNat < s.slotEnd then
    (s.clearSlot fun g => (s.wg g).stopping || !(s.coresOf (s.wgCtx g)).contains (s.wg g).core).pokeSlot
  else if !s.tsEn then { s with tsRunning := false, tsSlot := 0 }.clearSlot fun _ => true
  else
    let next := if s.tsSlot ≥ s.slotList.length then 1 else s.tsSlot + 1
    let start := if s.tsSlot = 0 then s.tsEpoch else s.slotEnd
    let s1 : State := { s with tsSlot := next, tsStart := start }
    ((s1.clearSlot fun _ => true).at s1.slotEnd .timesliceBoundary).pokeSlot
def execTimesliceBoundary (s : State) : Out := .next s.boundary

end Sys2Proof.Machine
end

