-- ==== Sys2Proof/Machine/Firmware.lean ====
section
/-! DEFINITION. Firmware and identity (R469 to R473), bring-up (R475), the tick load (R7), the stop tick (R432) and the core dump
(R441, R442). -/

namespace Sys2Proof.Machine

/-! ### Images (R469, R470) -/

/-- Steps 1 to 3 of the boot. -/
def State.imageOk (s : State) (i : FwImage) : Bool :=
  Config.sha384 i.key == Config.fuseKeyHash && Config.verify i.key (Config.sha384 i.header) i.sig
    && i.parts.map Config.sha384 == i.digests && decide (s.fuseSvn ≤ i.svn ∧ i.svn ≤ 63)

/-- The machine runs an image: the fuse counter rises to its SVN. -/
def State.runImage (s : State) (i : FwImage) : State :=
  { s with running := some i, recovery := false, up := true, fuseSvn := max s.fuseSvn i.svn }

/-- MODULE_RESET: bring-up from the image in flash (R475). The model's own counters go on. -/
def execModuleReset (s : State) : Out :=
  let s0 : State := { State.reset with
    serial := s.serial, names := s.names, free := s.free + 1, flash := s.flash, fuseSvn := s.fuseSvn
    keys := Store.set 0 [] 0 (Config.random s.free) }
  .next (match s.flash with
    | none => s0
    | some i => if s.imageOk i then s0.runImage i else { s0 with recovery := true, up := false })

/-- RECOVERY_IMAGE: verified, run and written to flash (R470). -/
def execRecoveryImage (img : FwImage) (s : State) : Out :=
  .next (if s.recovery ∧ s.imageOk img then { s.runImage img with flash := some img } else s)

/-- FIRMWARE_UPDATE: staged, verified in full, and only then committed (R470). -/
def execFirmwareUpdate (img : FwImage) (s : State) : Out :=
  .next (if s.recovery then s
    else if s.imageOk img then { s with staged := some img, flash := some img } else { s with staged := some img })

/-! ### Attestation (R472, R473) -/

/-- ATTESTATION_REQUEST: the report goes to OUT before DONE is set. -/
def execAttestationRequest (s : State) : Out :=
  let a := s.attreq / 64 * 64
  let b := s.l2Bytes a 64
  let out := bytesField b 56 8
  let r := (s.report (bytesField b 0 1) ((b.drop 8).take 48)).take 8192
  .next (if out % 256 = 0 ∧ s.hyperRun out 8192 then { s.l2Write out r with attBusy := false, attDone := true }
    else { s with attBusy := false })

/-- ATTESTATION_REQUEST_HOCP: the report goes back to the control node. -/
def execAttestationRequestHocp (part : Nat) (nonce : List Byte) (s : State) : Out :=
  .next { s with hocpOut := s.hocpOut ++ [.report (s.report part nonce)] }

/-! ### The tick (R7, R432) -/

/-- A tick that moves with a load. -/
def moveTick (old new t : Nat) : Nat := t + new - old

/-- Whether the tick may still be loaded: before the first START, any number of times while every port is CONFIG_UNLOCKED, and once
more after that (R7). -/
def State.mayLoadTick (s : State) : Bool :=
  !s.begun && ((List.range 24).all (fun k => (s.port k).state == .unlocked) || !s.reloaded)

/-- HOCP_TICK_LOAD: what is due keeps its distance, but for what is due at set ticks, and every difference from a switch moves with
the tick (R7). -/
def State.loadTick (s0 : State) (t : DWord) : State :=
  if !s0.mayLoadTick then s0
  else
    let s := s0.moveSkews ((t.toNat : Int) - s0.tick.toNat)
    let mv := moveTick s.tick.toNat t.toNat
    { s with
      tick := t
      reloaded := s.reloaded || (List.range 24).any fun k => (s.port k).state != .unlocked
      calendar := s.calendar.map fun e => match e.2 with
        | .usageRecordWrite _ => ((t.toNat / 1000000000 + 1) * 1000000000, e.2)
        | .beatIntervalEnd c => (match (s.ctx c).loop.contract with
          | some k => ((t.toNat / 2 ^ k.ilog + 1) * 2 ^ k.ilog, e.2)
          | none => (mv e.1, e.2))
        | .stoptick => e
        | _ => (mv e.1, e.2)
      queues := Store.mapVals {} s.queues fun _ q => { q with advance := mv q.advance }
      ports := Store.mapVals {} s.ports fun _ p => { p with heard := mv p.heard }
      ctxs := Store.mapVals {} s.ctxs fun _ c => { c with posAt := mv c.posAt }
      busyEnd := Store.mapVals 0 s.busyEnd fun _ e => mv e
      timingFrom := Store.mapVals 0 s.timingFrom fun _ e => mv e
      clusters := Store.mapVals {} s.clusters fun _ c => { c with rampAt := mv c.rampAt }
      slewAt := if s.slewAt = 0 then 0 else mv s.slewAt
      tsEpoch := mv s.tsEpoch, tsStart := mv s.tsStart }
def execHocpTickLoad (t : DWord) (s : State) : Out := .next (s.loadTick t)

/-- Arms or disarms the stop: past its tick, the device stops at the next one. -/
def State.armStop (s : State) (t : DWord) (on : Bool) : State :=
  let s1 := ({ s with stoptick := t, stopArm := on } : State).cancel fun e => e == .stoptick
  if on then s1.at (if s.tick.toNat ≤ t.toNat then t.toNat else s.tick.toNat + 1) .stoptick else s1
/-- STOPTICK_ARM. -/
def execStoptickArm (t : DWord) (s : State) : Out := .next (s.armStop t true)
/-- STOPTICK: every clock domain is gated. -/
def execStoptick (s : State) : Out := .next (if s.stopArm ∧ s.stoptick.toNat ≤ s.tick.toNat then { s with stopped := true } else s)

/-! ### The core dump (R441, R442) -/

/-- A section of a dump: KIND, WGID and its bytes. -/
structure Section where
  kind : Nat
  wgid : Nat
  bytes : List Byte

/-- Bytes cut or filled to a length. -/
def fitBytes (n : Nat) (bs : List Byte) : List Byte := (bs ++ List.replicate n 0).take n

/-- The words of a warp's state that its 512 bytes show. -/
def Warp.shown (x : Warp) : List Nat :=
  [x.mode.toNat, x.trap.pc.toNat, x.trap.cause.toNat, x.trap.second.toNat, x.trap.addr.toNat, x.trap.first.toNat, x.trap.slot.toNat,
   if x.trap.partialBit then 1 else 0, x.trap.mask.toNat, x.trap.mode.toNat, x.trap.susp.toNat, x.thalt.toNat, if x.whalt then 1 else 0, x.u.toNat, x.q.toNat]
    ++ (List.range 8).flatMap (fun e => let p := x.split e; [p.state.code, p.pc.toNat, p.m.toNat, p.a.toNat, p.joinid.toNat, p.timeout.toNat, p.order, if p.trapm then 1 else 0])
    ++ (List.range 64).map (fun r => (x.tag r).toNat) ++ (List.range 8).map fun p => (x.pred p).toNat

/-- One warp of a REGS section. -/
def Warp.dumpBytes (x : Warp) : List Byte :=
  fitBytes 512 (Config.dumpWords x.shown) ++ (List.range 64).flatMap (fun r => leBytes 4 (if r < 61 then x.readS r else maskWord x.cur.a (r - 61)).toNat)
    ++ (List.range x.allot).flatMap fun r => (List.range 96).flatMap fun t => leBytes 4 (x.readV r t).toNat

/-- The sections of a workgroup, in order. -/
def State.dumpSections (s : State) (g : Nat) : List Section :=
  let w := s.wg g
  let k := s.launch w.launch
  let counts := (List.range 16).flatMap fun i =>
    Store.get 0 k.barC (i * 2 ^ 32 + w.wgid) :: Store.get 0 k.barC (i * 2 ^ 32) :: []
  let arrived := w.warps.flatMap fun v => (List.range 16).flatMap fun i =>
    [(Store.get 0 (s.warp v).barA i).toNat, (Store.get 0 (s.warp v).barX i).toNat]
  [{ kind := 1, wgid := w.wgid, bytes := w.warps.flatMap fun v => (s.warp v).dumpBytes },
   { kind := 2, wgid := w.wgid, bytes := Store.range 0 w.scratch 0 w.scratchLen },
   { kind := 3, wgid := w.wgid, bytes := fitBytes 256 (Config.dumpWords (counts.map BitVec.toNat ++ arrived)) }]

/-- Inserts a workgroup by its WGID. -/
def State.insertWg (s : State) (g : Nat) : List Nat → List Nat
  | [] => [g]
  | h :: rest => if (s.wg g).wgid < (s.wg h).wgid then g :: h :: rest else h :: s.insertWg g rest

/-- Sections at their offsets, rounded up to 256. -/
def placeSections : List Section → Nat → List (Section × Nat)
  | [], _ => []
  | x :: rest, off => (x, off) :: placeSections rest ((off + x.bytes.length + 255) / 256 * 256)

/-- The bytes of a section that come before the first page translation refuses. -/
def goodBytes (bad : List Nat) (va : Nat) (bs : List Byte) : List Byte :=
  match (List.range bs.length).find? fun i => bad.contains ((va + i) / 8192) with
  | some i => bs.take i
  | none => bs

/-- The dump of the warp: what is written where, STATUS and WRITTEN of each section among its descriptors (R442). -/
def State.dumpImage (s : State) (w : Nat) : List (Nat × List Byte) × Nat :=
  let ctx := s.ctxOf w
  let c := s.ctx ctx
  let x := s.warp w
  let base := c.dumpbase.toNat / 256 * 256
  let size := c.dumpsize.toNat
  let secs := ((s.ctxWgs ctx).foldl (fun l g => s.insertWg g l) []).flatMap fun g => s.dumpSections g
  let n := secs.length
  let fits := decide (64 + 32 * n ≤ size)
  let placed := placeSections secs ((64 + 32 * n + 255) / 256 * 256)
  let put := placed.map fun p =>
    if !fits || decide (p.2 + p.1.bytes.length > size) then (p, 2, [])
    else
      let good := goodBytes c.dumpBad (base + p.2) p.1.bytes
      (p, if good.length < p.1.bytes.length then 1 else 0, good)
  let bad := (put.filter fun p => p.2.1 == 1).length
  let desc := put.map fun p => leBytes 1 p.1.1.kind ++ leBytes 1 p.2.1 ++ [0, 0] ++ leBytes 4 p.1.1.wgid ++ leBytes 8 p.1.2
    ++ leBytes 8 p.1.1.bytes.length ++ leBytes 8 p.2.2.length
  let flags := (if bad > 0 then 1 else 0) + (if fits then 0 else 2)
  let head := leBytes 4 0x504D5544 ++ leBytes 2 1 ++ leBytes 1 0 ++ leBytes 1 flags ++ leBytes 8 s.tick.toNat ++ leBytes 4 ctx
    ++ leBytes 1 x.trap.cause.toNat ++ leBytes 1 x.trap.slot.toNat ++ leBytes 2 (warpField w) ++ leBytes 4 x.trap.pc.toNat
    ++ leBytes 4 (s.launchOf w).id.toNat ++ leBytes 8 x.trap.addr.toNat ++ leBytes 4 n ++ List.replicate 20 0
  let shown := if fits then desc else desc.take ((size - 64) / 32)
  let heads := (if size ≥ 64 then [(base, head)] else []) ++ shown.zipIdx.map fun d => (base + 64 + 32 * d.2, d.1)
  ((heads.map fun h => (h.1, goodBytes c.dumpBad h.1 h.2)) ++ put.map fun p => (base + p.1.2, p.2.2), bad)

/-- The pages that a dump writes, in order, that are not known to be refused. -/
def dumpPages (bad : List Nat) (xs : List (Nat × List Byte)) : List Nat :=
  ((xs.filter fun x => !x.2.isEmpty).flatMap fun x => (List.range ((x.1 % 8192 + x.2.length + 8191) / 8192)).map fun i =>
    x.1 / 8192 + i).eraseDups.filter fun p => !bad.contains p

/-- Looks at the pages of a dump in turn: a record is posted and waited for, and a page refused is noted; true when all are known. -/
def State.dumpReach (s : State) (w ctx : Nat) : List Nat → Bool × State
  | [] => (true, s)
  | p :: rest =>
    -- the fabric window is no part of the context's translation (R303)
    match if p ≥ 2 ^ 36 then .trap 0x0D else s.walk ctx (p * 8192) .write false none with
    | .ok _ s1 => s1.dumpReach w ctx rest
    | .trap _ => (false, (s.modCtx ctx fun c => { c with dumpBad := c.dumpBad ++ [p] }).soon (.coreDumpWrite w))
    | .wait (.service q i) s1 => (false, (s1.modCtx ctx fun c => { c with dumpWait := some (q, i, p) }).after 1000 (.coreDumpWrite w))
    | .wait _ s1 => (false, s1.after 1000 (.coreDumpWrite w))

/-- Cuts bytes at the ends of lines of 128. -/
def linePieces : Nat → Nat → List Byte → List (Nat × List Byte)
  | 0, _, _ => []
  | n + 1, va, bs => if bs.isEmpty then [] else
    let k := 128 - va % 128
    (va, bs.take k) :: linePieces n (va + k) (bs.drop k)

/-- Writes a part of a dump through the context's translation: to HBM, or, on a SYS page, to the control node (R276, R441). -/
def State.dumpPut (s : State) (ctx : Nat) (x : Nat × List Byte) : State :=
  (linePieces (x.2.length / 128 + 2) x.1 x.2).foldl (fun s y =>
    match (s.walkFrom (s.partNum ctx) (s.ctx ctx).asid ctx y.1 .write 4 (s.ctx ctx).ptroot).1 with
    | .ok e =>
      if e.sys then s.sendRun ctx scarabCore postedLink [{ page := y.1 / 8192, pa := e.addr (y.1 / 8192 * 8192), sys := true }] y
      else (s.ctxWrite ctx y.1 y.2).getD s
    | _ => s) s

/-- Writes the dump through the context's translation, and reports it. -/
def State.writeDump (s : State) (w : Nat) : State :=
  let ctx := s.ctxOf w
  let d := s.dumpImage w
  let s1 := d.1.foldl (fun s x => s.dumpPut ctx x) s
  let s2 := s1.modCtx ctx fun c => { c with dumping := false, dumpBad := [], dumpWait := none }
  match s2.partOf ctx with
  | some p => s2.event p 2 9 0 ctx (warpField w) (s.warp w).trap.cause.toNat (s.warp w).trap.pc d.2
  | none => s2

/-- Whether a record is still open. -/
def State.recordOpen (s : State) (r : Nat × Nat × Nat) : Bool := (s.part r.1).faults.any fun f => f.1 == r.2.1

/-- CORE_DUMP_WRITE (R441, R442). -/
def State.dump (s0 : State) (w : Nat) : State :=
  let ctx := s0.ctxOf w
  let s := (s0.ctxWgs ctx).foldl (fun s g => s.stopMmas g) s0
  if !(s.ctx ctx).dumping then s
  else match (s.ctx ctx).dumpWait with
    | some r =>
      if s.recordOpen r then s.after 1000 (.coreDumpWrite w)
      else (s.modCtx ctx fun c => { c with
        dumpWait := none
        dumpBad := if (s.plainWalk ctx (r.2.2 * 8192) .write).isSome then c.dumpBad else c.dumpBad ++ [r.2.2] }).soon (.coreDumpWrite w)
    | none =>
      let r := s.dumpReach w ctx (dumpPages (s.ctx ctx).dumpBad (s.dumpImage w).1)
      if r.1 then r.2.writeDump w else r.2
def execCoreDumpWrite (wid : Nat) (s : State) : Out := .next (s.dump wid)

end Sys2Proof.Machine
end

