-- ==== Sys2Proof/Machine/Integer.lean ====
section
/-! DEFINITION. The integer and address instructions (chapter 5, R139 to R159): scalar majors 0x10 to 0x1D and their vector
mirrors 0x20 to 0x2D. -/

namespace Sys2Proof.Machine

/-! ### Results (R60, R144 to R149) -/

def sMin (x y : Word) : Word := if x.sle y then x else y
def sMax (x y : Word) : Word := if x.sle y then y else x
def uMin (x y : Word) : Word := if x.ule y then x else y
def uMax (x y : Word) : Word := if x.ule y then y else x
def absW (x : Word) : Word := if x.msb then -x else x
/-- Clamps to the signed and to the unsigned range (R60). -/
def clampS (v : Int) : Word := BitVec.ofInt 32 (max (-2147483648) (min 2147483647 v))
def clampU (v : Int) : Word := BitVec.ofInt 32 (max 0 (min 4294967295 v))
/-- The shifts of R145: the whole 32-bit amount counts. -/
def shlW (x y : Word) : Word := if y.toNat < 32 then x <<< y.toNat else 0
def shrW (x y : Word) : Word := if y.toNat < 32 then x >>> y.toNat else 0
def sraW (x y : Word) : Word := x.sshiftRight (min y.toNat 31)
def rotW (x y : Word) : Word := x.rotateLeft (y.toNat % 32)
/-- The products of R147. -/
def mulS (x y : Word) : DWord := x.signExtend 64 * y.signExtend 64
def mulU (x y : Word) : DWord := x.setWidth 64 * y.setWidth 64
/-- Division of R60. -/
def divS (x y : Word) : Word := if y = 0 then 0xFFFFFFFF else x.sdiv y
def divU (x y : Word) : Word := if y = 0 then 0xFFFFFFFF else x / y
def remS (x y : Word) : Word := if y = 0 then x else x.srem y
def remU (x y : Word) : Word := if y = 0 then x else x % y
/-- The indices of the bits that are 1. -/
def ones (x : Word) : List Nat := (List.range 32).filter fun i => x.getLsbD i
def popcW (x : Word) : Word := BitVec.ofNat 32 (ones x).length
def clzW (x : Word) : Word := BitVec.ofNat 32 (31 - Nat.log2 x.toNat + if x = 0 then 1 else 0)
def ctzW (x : Word) : Word := BitVec.ofNat 32 (((ones x).head?).getD 32)
def brevW (x : Word) : Word := (ones x).foldl (fun r i => r ||| (1#32 <<< (31 - i))) 0
def bswapW (x : Word) : Word := (x <<< 24) ||| ((x &&& 0xFF00) <<< 8) ||| ((x >>> 8) &&& 0xFF00) ||| (x >>> 24)
/-- The effective field of a control word (R149): position and length. -/
def fieldOf (c : Word) : Nat × Nat := (c.toNat % 32, min (c.toNat / 256 % 64) (32 - c.toNat % 32))
def bfxW (signed : Bool) (x c : Word) : Word :=
  let p := fieldOf c
  let v := x.toNat / 2 ^ p.1 % 2 ^ p.2
  if signed && decide (0 < p.2) && decide (v ≥ 2 ^ (p.2 - 1)) then BitVec.ofNat 32 (2 ^ 32 + v - 2 ^ p.2) else BitVec.ofNat 32 v
def bfiW (d x c : Word) : Word :=
  let p := fieldOf c
  let msk : Word := BitVec.ofNat 32 ((2 ^ p.2 - 1) * 2 ^ p.1)
  (d &&& ~~~msk) ||| ((x <<< p.1) &&& msk)

/-! ### Shapes -/

/-- D := f(A, B), scalar, with the cycles of R141. -/
def alu2S (cost : Nat) (m : Bool) (d a b : Reg) (f : Word → Word → Word) : State → Out :=
  issue (fun _ => { scalForm m [d.toNat] [a.toNat, b.toNat] with cost := cost })
    (scalOp [d.toNat] fun x => [f (x.readS a.toNat) (x.readS b.toNat)])
/-- D := f(A), scalar. -/
def alu1S (m : Bool) (d a : Reg) (f : Word → Word) : State → Out :=
  issue (fun _ => scalForm m [d.toNat] [a.toNat]) (scalOp [d.toNat] fun x => [f (x.readS a.toNat)])
/-- D := f(A, B) per active thread, with the tag and the factor of R141. -/
def alu2V (factor tag : Nat) (m : Bool) (d a b : Reg) (f : Word → Word → Word) : State → Out :=
  let fm : Form := { vecForm m [d.toNat] [a.toNat, b.toNat] with factor := factor }
  issue (fun _ => fm) (vecOp fm [(d.toNat, tag)] false fun x t => { words := [f (x.readV a.toNat t) (x.readV b.toNat t)] })
/-- The same where only bits [13:0] of B are used (R149, R335). -/
def fieldV (tag : Nat) (m : Bool) (d a b : Reg) (f : Word → Word → Word) : State → Out :=
  let fm : Form := { vecForm m [d.toNat] [a.toNat, b.toNat] with reads := [{ reg := a.toNat }, { reg := b.toNat, halves := 1 }] }
  issue (fun _ => fm) (vecOp fm [(d.toNat, tag)] false fun x t => { words := [f (x.readV a.toNat t) (x.readV b.toNat t)] })
/-- D := f(A) per active thread. -/
def alu1V (tag : Nat) (m : Bool) (d a : Reg) (f : Word → Word) : State → Out :=
  let fm := vecForm m [d.toNat] [a.toNat]
  issue (fun _ => fm) (vecOp fm [(d.toNat, tag)] false fun x t => { words := [f (x.readV a.toNat t)] })
/-- D := f(A, B, D): forms that read D (R140). -/
def alu3S (m : Bool) (d a b : Reg) (f : Word → Word → Word → Word) : State → Out :=
  issue (fun _ => scalForm m [] [a.toNat, b.toNat, d.toNat])
    (scalOp [d.toNat] fun x => [f (x.readS a.toNat) (x.readS b.toNat) (x.readS d.toNat)])
def alu3V (m : Bool) (d a b : Reg) (f : Word → Word → Word → Word) : State → Out :=
  let fm := vecForm m [] [a.toNat, b.toNat, d.toNat]
  issue (fun _ => fm) (vecOp fm [(d.toNat, 2)] false fun x t =>
    { words := [f (x.readV a.toNat t) (x.readV b.toNat t) (x.readV d.toNat t)] })
/-- A 64-bit product into a pair (R147). -/
def wideS (m : Bool) (d a b : Reg) (f : Word → Word → DWord) : State → Out :=
  issue (fun _ => { scalForm m [d.toNat, d.toNat + 1] [a.toNat, b.toNat] with even := [d.toNat], cost := 2 })
    (scalOp [d.toNat, d.toNat + 1] fun x => let r := f (x.readS a.toNat) (x.readS b.toNat); [r.lo, r.hi])
def wideV (m : Bool) (d a b : Reg) (f : Word → Word → DWord) : State → Out :=
  let fm : Form := { vecForm m [d.toNat, d.toNat + 1] [a.toNat, b.toNat] with even := [d.toNat], factor := 2 }
  issue (fun _ => fm) (vecOp fm [(d.toNat, 14), (d.toNat + 1, 15)] false fun x t =>
    let r := f (x.readV a.toNat t) (x.readV b.toNat t); { words := [r.lo, r.hi] })

/-- Whether a vector pair carries I64 and HI (R158). -/
def isI64 (x : Warp) (r : Nat) : Bool := x.tag r == 14 && x.tag (r + 1) == 15
/-- The registers of a pair. -/
def pair (r : Reg) : List Nat := [r.toNat, r.toNat + 1]

/-- Pair forms of P64 (R158): B a pair or a single register; D a pair or a single register. -/
def p64S (cost : Nat) (bPair dPair : Bool) (m : Bool) (d a b : Reg) (f : DWord → DWord → DWord) : State → Out :=
  let ds := if dPair then pair d else [d.toNat]
  let bs := if bPair then pair b else [b.toNat]
  issue (fun _ => { scalForm m ds (pair a ++ bs) with
      even := a.toNat :: (if bPair then [b.toNat] else []) ++ (if dPair then [d.toNat] else []), cost := cost })
    (scalOp ds fun x =>
      let r := f (x.readS2 a.toNat) (if bPair then x.readS2 b.toNat else (x.readS b.toNat).setWidth 64)
      if dPair then [r.lo, r.hi] else [r.lo])
def p64V (factor : Nat) (bPair dPair : Bool) (m : Bool) (d a b : Reg) (f : DWord → DWord → DWord) : State → Out :=
  let ds := if dPair then pair d else [d.toNat]
  let bs := if bPair then pair b else [b.toNat]
  let fm : Form := { vecForm m ds (pair a ++ bs) with
    even := a.toNat :: (if bPair then [b.toNat] else []) ++ (if dPair then [d.toNat] else [])
    tags := fun x => isI64 x a.toNat && (if bPair then isI64 x b.toNat else is32 (x.tag b.toNat)), factor := factor }
  issue (fun _ => fm) (vecOp fm (if dPair then [(d.toNat, 14), (d.toNat + 1, 15)] else [(d.toNat, 2)]) false fun x t =>
    let r := f (x.readV2 a.toNat t) (if bPair then x.readV2 b.toNat t else (x.readV b.toNat t).setWidth 64)
    { words := if dPair then [r.lo, r.hi] else [r.lo] })

/-- Compares to q in the scalar majors (R151). -/
def cmpS (m : Bool) (len rule cc : Nat) (d : BitVec 3) (a : Reg) (bs : List Nat) (y : Warp → Word) : State → Out :=
  issue (fun _ => { scalForm m [] (a.toNat :: bs) with len := len })
    fun w s => .done (s.modWarp w fun x =>
      x.setQ d.toNat (combine rule (x.q.getLsbD d.toNat) (intCond cc (x.readS a.toNat) (y x))))
/-- Compares to p, or by reduction to q, in the vector majors (R151). -/
def cmpV (m : Bool) (len rule cc : Nat) (r k : BitVec 1) (d : BitVec 3) (a : Reg) (bs : List Nat) (y : Warp → Nat → Word) :
    State → Out :=
  let fm : Form := { vecForm m [] (a.toNat :: bs) with len := len }
  issue (fun _ => fm) (predOp fm (k == 1#1) (r == 1#1) d.toNat rule fun x t =>
    (intCond cc (x.readV a.toNat t) (y x t), none))

/-- The immediate of CMPI (R152): sign-extended for conditions 0 to 5, else zero-extended. -/
def cmpImm (c : BitVec 4) (i : BitVec 8) : Word := if c.toNat ≤ 5 then i.signExtend 32 else i.setWidth 32

/-! ### Meanings -/

/-- ADD, scalar (R144). -/
def execAddScalar (m : Bool) (d a b : BitVec 6) (s : State) : Out :=
  alu2S 1 m d a b (fun x y => x + y) s

/-- ADD, vector (R144). -/
def execAddVector (m : Bool) (d a b : BitVec 6) (s : State) : Out :=
  alu2V 1 2 m d a b (fun x y => x + y) s

/-- SUB, scalar (R144). -/
def execSubScalar (m : Bool) (d a b : BitVec 6) (s : State) : Out :=
  alu2S 1 m d a b (fun x y => x - y) s

/-- SUB, vector (R144). -/
def execSubVector (m : Bool) (d a b : BitVec 6) (s : State) : Out :=
  alu2V 1 2 m d a b (fun x y => x - y) s

/-- AND, scalar (R144). -/
def execAndScalar (m : Bool) (d a b : BitVec 6) (s : State) : Out :=
  alu2S 1 m d a b (fun x y => x &&& y) s

/-- AND, vector (R144). -/
def execAndVector (m : Bool) (d a b : BitVec 6) (s : State) : Out :=
  alu2V 1 2 m d a b (fun x y => x &&& y) s

/-- OR, scalar (R144). -/
def execOrScalar (m : Bool) (d a b : BitVec 6) (s : State) : Out :=
  alu2S 1 m d a b (fun x y => x ||| y) s

/-- OR, vector (R144). -/
def execOrVector (m : Bool) (d a b : BitVec 6) (s : State) : Out :=
  alu2V 1 2 m d a b (fun x y => x ||| y) s

/-- XOR, scalar (R144). -/
def execXorScalar (m : Bool) (d a b : BitVec 6) (s : State) : Out :=
  alu2S 1 m d a b (fun x y => x ^^^ y) s

/-- XOR, vector (R144). -/
def execXorVector (m : Bool) (d a b : BitVec 6) (s : State) : Out :=
  alu2V 1 2 m d a b (fun x y => x ^^^ y) s

/-- ANDN, scalar (R144). -/
def execAndnScalar (m : Bool) (d a b : BitVec 6) (s : State) : Out :=
  alu2S 1 m d a b (fun x y => x &&& ~~~y) s

/-- ANDN, vector (R144). -/
def execAndnVector (m : Bool) (d a b : BitVec 6) (s : State) : Out :=
  alu2V 1 2 m d a b (fun x y => x &&& ~~~y) s

/-- ORN, scalar (R144). -/
def execOrnScalar (m : Bool) (d a b : BitVec 6) (s : State) : Out :=
  alu2S 1 m d a b (fun x y => x ||| ~~~y) s

/-- ORN, vector (R144). -/
def execOrnVector (m : Bool) (d a b : BitVec 6) (s : State) : Out :=
  alu2V 1 2 m d a b (fun x y => x ||| ~~~y) s

/-- SHL, scalar (R145). -/
def execShlScalar (m : Bool) (d a b : BitVec 6) (s : State) : Out :=
  alu2S 1 m d a b (fun x y => shlW x y) s

/-- SHL, vector (R145). -/
def execShlVector (m : Bool) (d a b : BitVec 6) (s : State) : Out :=
  alu2V 1 2 m d a b (fun x y => shlW x y) s

/-- SHR, scalar (R145). -/
def execShrScalar (m : Bool) (d a b : BitVec 6) (s : State) : Out :=
  alu2S 1 m d a b (fun x y => shrW x y) s

/-- SHR, vector (R145). -/
def execShrVector (m : Bool) (d a b : BitVec 6) (s : State) : Out :=
  alu2V 1 2 m d a b (fun x y => shrW x y) s

/-- SRA, scalar (R145). -/
def execSraScalar (m : Bool) (d a b : BitVec 6) (s : State) : Out :=
  alu2S 1 m d a b (fun x y => sraW x y) s

/-- SRA, vector (R145). -/
def execSraVector (m : Bool) (d a b : BitVec 6) (s : State) : Out :=
  alu2V 1 2 m d a b (fun x y => sraW x y) s

/-- ROT, scalar (R145). -/
def execRotScalar (m : Bool) (d a b : BitVec 6) (s : State) : Out :=
  alu2S 1 m d a b (fun x y => rotW x y) s

/-- ROT, vector (R145). -/
def execRotVector (m : Bool) (d a b : BitVec 6) (s : State) : Out :=
  alu2V 1 2 m d a b (fun x y => rotW x y) s

/-- MIN, scalar (R144). -/
def execMinScalar (m : Bool) (d a b : BitVec 6) (s : State) : Out :=
  alu2S 1 m d a b (fun x y => sMin x y) s

/-- MIN, vector (R144). -/
def execMinVector (m : Bool) (d a b : BitVec 6) (s : State) : Out :=
  alu2V 1 2 m d a b (fun x y => sMin x y) s

/-- MAX, scalar (R144). -/
def execMaxScalar (m : Bool) (d a b : BitVec 6) (s : State) : Out :=
  alu2S 1 m d a b (fun x y => sMax x y) s

/-- MAX, vector (R144). -/
def execMaxVector (m : Bool) (d a b : BitVec 6) (s : State) : Out :=
  alu2V 1 2 m d a b (fun x y => sMax x y) s

/-- MINN, scalar (R144). -/
def execMinnScalar (m : Bool) (d a b : BitVec 6) (s : State) : Out :=
  alu2S 1 m d a b (fun x y => uMin x y) s

/-- MINN, vector (R144). -/
def execMinnVector (m : Bool) (d a b : BitVec 6) (s : State) : Out :=
  alu2V 1 3 m d a b (fun x y => uMin x y) s

/-- MAXN, scalar (R144). -/
def execMaxnScalar (m : Bool) (d a b : BitVec 6) (s : State) : Out :=
  alu2S 1 m d a b (fun x y => uMax x y) s

/-- MAXN, vector (R144). -/
def execMaxnVector (m : Bool) (d a b : BitVec 6) (s : State) : Out :=
  alu2V 1 3 m d a b (fun x y => uMax x y) s

/-- ABS, scalar (R144). -/
def execAbsScalar (m : Bool) (d a : BitVec 6) (s : State) : Out :=
  alu1S m d a absW s

/-- ABS, vector (R144). -/
def execAbsVector (m : Bool) (d a : BitVec 6) (s : State) : Out :=
  alu1V 2 m d a absW s

/-- NEG, scalar (R144). -/
def execNegScalar (m : Bool) (d a : BitVec 6) (s : State) : Out :=
  alu1S m d a (fun x => -x) s

/-- NEG, vector (R144). -/
def execNegVector (m : Bool) (d a : BitVec 6) (s : State) : Out :=
  alu1V 2 m d a (fun x => -x) s

/-- ADDSAT, scalar (R144). -/
def execAddsatScalar (m : Bool) (d a b : BitVec 6) (s : State) : Out :=
  alu2S 1 m d a b (fun x y => clampS (x.toInt + y.toInt)) s

/-- ADDSAT, vector (R144). -/
def execAddsatVector (m : Bool) (d a b : BitVec 6) (s : State) : Out :=
  alu2V 1 2 m d a b (fun x y => clampS (x.toInt + y.toInt)) s

/-- SUBSAT, scalar (R144). -/
def execSubsatScalar (m : Bool) (d a b : BitVec 6) (s : State) : Out :=
  alu2S 1 m d a b (fun x y => clampS (x.toInt - y.toInt)) s

/-- SUBSAT, vector (R144). -/
def execSubsatVector (m : Bool) (d a b : BitVec 6) (s : State) : Out :=
  alu2V 1 2 m d a b (fun x y => clampS (x.toInt - y.toInt)) s

/-- ADDSATN, scalar (R144). -/
def execAddsatnScalar (m : Bool) (d a b : BitVec 6) (s : State) : Out :=
  alu2S 1 m d a b (fun x y => clampU (x.toNat + y.toNat)) s

/-- ADDSATN, vector (R144). -/
def execAddsatnVector (m : Bool) (d a b : BitVec 6) (s : State) : Out :=
  alu2V 1 3 m d a b (fun x y => clampU (x.toNat + y.toNat)) s

/-- SUBSATN, scalar (R144). -/
def execSubsatnScalar (m : Bool) (d a b : BitVec 6) (s : State) : Out :=
  alu2S 1 m d a b (fun x y => clampU ((x.toNat : Int) - y.toNat)) s

/-- SUBSATN, vector (R144). -/
def execSubsatnVector (m : Bool) (d a b : BitVec 6) (s : State) : Out :=
  alu2V 1 3 m d a b (fun x y => clampU ((x.toNat : Int) - y.toNat)) s

/-- ADDI, scalar (R146). -/
def execAddiScalar (m : Bool) (d a : BitVec 6) (i : BitVec 12) (s : State) : Out :=
  alu1S m d a (fun x => x + i.signExtend 32) s

/-- ADDI, vector (R146). -/
def execAddiVector (m : Bool) (d a : BitVec 6) (i : BitVec 12) (s : State) : Out :=
  alu1V 2 m d a (fun x => x + i.signExtend 32) s

/-- SHLI, scalar (R146). -/
def execShliScalar (m : Bool) (d a : BitVec 6) (n : BitVec 5) (s : State) : Out :=
  alu1S m d a (fun x => shlW x (n.setWidth 32)) s

/-- SHLI, vector (R146). -/
def execShliVector (m : Bool) (d a : BitVec 6) (n : BitVec 5) (s : State) : Out :=
  alu1V 2 m d a (fun x => shlW x (n.setWidth 32)) s

/-- SHRI, scalar (R146). -/
def execShriScalar (m : Bool) (d a : BitVec 6) (n : BitVec 5) (s : State) : Out :=
  alu1S m d a (fun x => shrW x (n.setWidth 32)) s

/-- SHRI, vector (R146). -/
def execShriVector (m : Bool) (d a : BitVec 6) (n : BitVec 5) (s : State) : Out :=
  alu1V 2 m d a (fun x => shrW x (n.setWidth 32)) s

/-- SRAI, scalar (R146). -/
def execSraiScalar (m : Bool) (d a : BitVec 6) (n : BitVec 5) (s : State) : Out :=
  alu1S m d a (fun x => sraW x (n.setWidth 32)) s

/-- SRAI, vector (R146). -/
def execSraiVector (m : Bool) (d a : BitVec 6) (n : BitVec 5) (s : State) : Out :=
  alu1V 2 m d a (fun x => sraW x (n.setWidth 32)) s

/-- ROTI, scalar (R146). -/
def execRotiScalar (m : Bool) (d a : BitVec 6) (n : BitVec 5) (s : State) : Out :=
  alu1S m d a (fun x => rotW x (n.setWidth 32)) s

/-- ROTI, vector (R146). -/
def execRotiVector (m : Bool) (d a : BitVec 6) (n : BitVec 5) (s : State) : Out :=
  alu1V 2 m d a (fun x => rotW x (n.setWidth 32)) s

/-- MUL, scalar (R147). -/
def execMulScalar (m : Bool) (d a b : BitVec 6) (s : State) : Out :=
  alu2S 1 m d a b (fun x y => x * y) s

/-- MUL, vector (R147). -/
def execMulVector (m : Bool) (d a b : BitVec 6) (s : State) : Out :=
  alu2V 1 2 m d a b (fun x y => x * y) s

/-- MULHI, scalar (R147). -/
def execMulhiScalar (m : Bool) (d a b : BitVec 6) (s : State) : Out :=
  alu2S 1 m d a b (fun x y => (mulS x y).hi) s

/-- MULHI, vector (R147). -/
def execMulhiVector (m : Bool) (d a b : BitVec 6) (s : State) : Out :=
  alu2V 1 2 m d a b (fun x y => (mulS x y).hi) s

/-- MULHIN, scalar (R147). -/
def execMulhinScalar (m : Bool) (d a b : BitVec 6) (s : State) : Out :=
  alu2S 1 m d a b (fun x y => (mulU x y).hi) s

/-- MULHIN, vector (R147). -/
def execMulhinVector (m : Bool) (d a b : BitVec 6) (s : State) : Out :=
  alu2V 1 3 m d a b (fun x y => (mulU x y).hi) s

/-- MAD, scalar (R147). -/
def execMadScalar (m : Bool) (d a b : BitVec 6) (s : State) : Out :=
  alu3S m d a b (fun x y z => x * y + z) s

/-- MAD, vector (R147). -/
def execMadVector (m : Bool) (d a b : BitVec 6) (s : State) : Out :=
  alu3V m d a b (fun x y z => x * y + z) s

/-- MULW, scalar (R147). -/
def execMulwScalar (m : Bool) (d a b : BitVec 6) (s : State) : Out :=
  wideS m d a b mulS s

/-- MULW, vector (R147). -/
def execMulwVector (m : Bool) (d a b : BitVec 6) (s : State) : Out :=
  wideV m d a b mulS s

/-- MULWN, scalar (R147). -/
def execMulwnScalar (m : Bool) (d a b : BitVec 6) (s : State) : Out :=
  wideS m d a b mulU s

/-- MULWN, vector (R147). -/
def execMulwnVector (m : Bool) (d a b : BitVec 6) (s : State) : Out :=
  wideV m d a b mulU s

/-- DIV, scalar (R148). -/
def execDivScalar (m : Bool) (d a b : BitVec 6) (s : State) : Out :=
  alu2S 16 m d a b divS s

/-- DIV, vector (R148). -/
def execDivVector (m : Bool) (d a b : BitVec 6) (s : State) : Out :=
  alu2V 4 2 m d a b divS s

/-- DIVN, scalar (R148). -/
def execDivnScalar (m : Bool) (d a b : BitVec 6) (s : State) : Out :=
  alu2S 16 m d a b divU s

/-- DIVN, vector (R148). -/
def execDivnVector (m : Bool) (d a b : BitVec 6) (s : State) : Out :=
  alu2V 4 3 m d a b divU s

/-- REM, scalar (R148). -/
def execRemScalar (m : Bool) (d a b : BitVec 6) (s : State) : Out :=
  alu2S 16 m d a b remS s

/-- REM, vector (R148). -/
def execRemVector (m : Bool) (d a b : BitVec 6) (s : State) : Out :=
  alu2V 4 2 m d a b remS s

/-- REMN, scalar (R148). -/
def execRemnScalar (m : Bool) (d a b : BitVec 6) (s : State) : Out :=
  alu2S 16 m d a b remU s

/-- REMN, vector (R148). -/
def execRemnVector (m : Bool) (d a b : BitVec 6) (s : State) : Out :=
  alu2V 4 3 m d a b remU s

/-- POPC, scalar (R149). -/
def execPopcScalar (m : Bool) (d a : BitVec 6) (s : State) : Out :=
  alu1S m d a popcW s

/-- POPC, vector (R149). -/
def execPopcVector (m : Bool) (d a : BitVec 6) (s : State) : Out :=
  alu1V 2 m d a popcW s

/-- CLZ, scalar (R149). -/
def execClzScalar (m : Bool) (d a : BitVec 6) (s : State) : Out :=
  alu1S m d a clzW s

/-- CLZ, vector (R149). -/
def execClzVector (m : Bool) (d a : BitVec 6) (s : State) : Out :=
  alu1V 2 m d a clzW s

/-- CTZ, scalar (R149). -/
def execCtzScalar (m : Bool) (d a : BitVec 6) (s : State) : Out :=
  alu1S m d a ctzW s

/-- CTZ, vector (R149). -/
def execCtzVector (m : Bool) (d a : BitVec 6) (s : State) : Out :=
  alu1V 2 m d a ctzW s

/-- BREV, scalar (R149). -/
def execBrevScalar (m : Bool) (d a : BitVec 6) (s : State) : Out :=
  alu1S m d a brevW s

/-- BREV, vector (R149). -/
def execBrevVector (m : Bool) (d a : BitVec 6) (s : State) : Out :=
  alu1V 2 m d a brevW s

/-- BFX, scalar (R149). -/
def execBfxScalar (m : Bool) (d a b : BitVec 6) (s : State) : Out :=
  alu2S 1 m d a b (bfxW true) s

/-- BFX, vector (R149). -/
def execBfxVector (m : Bool) (d a b : BitVec 6) (s : State) : Out :=
  fieldV 2 m d a b (bfxW true) s

/-- BFXN, scalar (R149). -/
def execBfxnScalar (m : Bool) (d a b : BitVec 6) (s : State) : Out :=
  alu2S 1 m d a b (bfxW false) s

/-- BFXN, vector (R149). -/
def execBfxnVector (m : Bool) (d a b : BitVec 6) (s : State) : Out :=
  fieldV 3 m d a b (bfxW false) s

/-- BFI, scalar (R149). -/
def execBfiScalar (m : Bool) (d a b : BitVec 6) (s : State) : Out :=
  alu3S m d a b (fun x c z => bfiW z x c) s

/-- BFI, vector (R149): only bits [13:0] of B are used. -/
def execBfiVector (m : Bool) (d a b : BitVec 6) (s : State) : Out :=
  let fm : Form := { vecForm m [] [a.toNat, b.toNat, d.toNat] with
    reads := [{ reg := a.toNat }, { reg := b.toNat, halves := 1 }, { reg := d.toNat }] }
  issue (fun _ => fm) (vecOp fm [(d.toNat, 2)] false fun x t =>
    { words := [bfiW (x.readV d.toNat t) (x.readV a.toNat t) (x.readV b.toNat t)] }) s

/-- BSWAP, scalar (R149). -/
def execBswapScalar (m : Bool) (d a : BitVec 6) (s : State) : Out :=
  alu1S m d a bswapW s

/-- BSWAP, vector (R149). -/
def execBswapVector (m : Bool) (d a : BitVec 6) (s : State) : Out :=
  alu1V 2 m d a bswapW s

/-- CMP, scalar (R151). -/
def execCmpScalar (m : Bool) (mm : BitVec 2) (c : BitVec 4) (d : BitVec 3) (a b : BitVec 6) (s : State) : Out :=
  cmpS m 1 mm.toNat c.toNat d a [b.toNat] (fun x => x.readS b.toNat) s

/-- CMP, vector (R151). -/
def execCmpVector (m : Bool) (mm : BitVec 2) (c : BitVec 4) (r k : BitVec 1) (d : BitVec 3) (a b : BitVec 6) (s : State) : Out :=
  cmpV m 1 mm.toNat c.toNat r k d a [b.toNat] (fun x t => x.readV b.toNat t) s

/-- CMPI, scalar (R152). -/
def execCmpiScalar (m : Bool) (d : BitVec 3) (a : BitVec 6) (c : BitVec 4) (i : BitVec 8) (s : State) : Out :=
  cmpS m 1 0 c.toNat d a [] (fun _ => cmpImm c i) s

/-- CMPI, vector (R152). -/
def execCmpiVector (m : Bool) (r k : BitVec 1) (d : BitVec 3) (a : BitVec 6) (c : BitVec 4) (i : BitVec 8) (s : State) : Out :=
  cmpV m 1 0 c.toNat r k d a [] (fun _ _ => cmpImm c i) s

/-- SEL, scalar (R153). -/
def execSelScalar (m : Bool) (n : BitVec 1) (p : BitVec 3) (d a b : BitVec 6) (s : State) : Out :=
  issue (fun _ => scalForm m [d.toNat] [a.toNat, b.toNat]) (scalOp [d.toNat] fun x =>
    [if xor (x.q.getLsbD p.toNat) (n == 1#1) then x.readS a.toNat else x.readS b.toNat]) s

/-- SEL, vector (R153): never uniform on a p selector; D takes the sources' tag. -/
def execSelVector (m : Bool) (n k : BitVec 1) (p : BitVec 3) (d a b : BitVec 6) (s : State) : Out :=
  let fm : Form := { vecForm m [d.toNat] [a.toNat, b.toNat] with
    tags := fun x => x.tag a.toNat == x.tag b.toNat, uni := if k = 1#1 then some [a.toNat, b.toNat] else none }
  issue (fun _ => fm) (fun w s => vecOp fm [(d.toNat, ((s.warp w).tag a.toNat).toNat)] false (fun x t =>
    let c := if k = 1#1 then x.q.getLsbD p.toNat else (x.pred p.toNat).getLsbD t
    { words := [if xor c (n == 1#1) then x.readV a.toNat t else x.readV b.toNat t] }) w s) s

/-- MOVI, scalar (R154). -/
def execMoviScalar (m : Bool) (d : BitVec 6) (i : BitVec 18) (s : State) : Out :=
  issue (fun _ => scalForm m [d.toNat] []) (scalOp [d.toNat] fun _ => [i.signExtend 32]) s
/-- MOVI, vector (R154). -/
def execMoviVector (m : Bool) (d : BitVec 6) (i : BitVec 18) (s : State) : Out :=
  let fm := vecForm m [d.toNat] []
  issue (fun _ => fm) (vecOp fm [(d.toNat, 2)] false fun _ _ => { words := [i.signExtend 32] }) s
/-- The word MOVHI builds (R154). -/
def movhiW (x : Word) (i : BitVec 18) : Word := (x &&& 0x3FFF) ||| (i.setWidth 32 <<< 14)
/-- MOVHI, scalar (R154). -/
def execMovhiScalar (m : Bool) (d : BitVec 6) (i : BitVec 18) (s : State) : Out :=
  issue (fun _ => scalForm m [] [d.toNat]) (scalOp [d.toNat] fun x => [movhiW (x.readS d.toNat) i]) s
/-- MOVHI, vector (R154): it uses bits [13:0] of D. -/
def execMovhiVector (m : Bool) (d : BitVec 6) (i : BitVec 18) (s : State) : Out :=
  let fm : Form := { vecForm m [] [d.toNat] with reads := [{ reg := d.toNat, halves := 1 }] }
  issue (fun _ => fm) (vecOp fm [(d.toNat, 2)] false fun x t => { words := [movhiW (x.readV d.toNat t) i] }) s

/-- MOVL, scalar (R155). -/
def execMovlScalar (m : Bool) (d : BitVec 6) (lit : BitVec 32) (s : State) : Out :=
  issue (fun _ => { scalForm m [d.toNat] [] with len := 2 }) (scalOp [d.toNat] fun _ => [lit]) s
/-- MOVL, vector (R155). -/
def execMovlVector (m : Bool) (d : BitVec 6) (t : BitVec 4) (lit : BitVec 32) (s : State) : Out :=
  let fm : Form := { vecForm m [d.toNat] [] with len := 2 }
  issue (fun _ => fm) (vecOp fm [(d.toNat, t.toNat)] false fun _ _ => { words := [lit] }) s
/-- A literal form of two words, scalar and vector (R155). -/
def litS (m : Bool) (d a : Reg) (f : Word → Word) : State → Out :=
  issue (fun _ => { scalForm m [d.toNat] [a.toNat] with len := 2 }) (scalOp [d.toNat] fun x => [f (x.readS a.toNat)])
def litV (m : Bool) (d a : Reg) (f : Word → Word) : State → Out :=
  let fm : Form := { vecForm m [d.toNat] [a.toNat] with len := 2 }
  issue (fun _ => fm) (vecOp fm [(d.toNat, 2)] false fun x t => { words := [f (x.readV a.toNat t)] })

/-- ADDL, scalar (R155). -/
def execAddlScalar (m : Bool) (d a : BitVec 6) (lit : BitVec 32) (s : State) : Out :=
  litS m d a (fun x => x + lit) s

/-- ADDL, vector (R155). -/
def execAddlVector (m : Bool) (d a : BitVec 6) (lit : BitVec 32) (s : State) : Out :=
  litV m d a (fun x => x + lit) s

/-- ANDL, scalar (R155). -/
def execAndlScalar (m : Bool) (d a : BitVec 6) (lit : BitVec 32) (s : State) : Out :=
  litS m d a (fun x => x &&& lit) s

/-- ANDL, vector (R155). -/
def execAndlVector (m : Bool) (d a : BitVec 6) (lit : BitVec 32) (s : State) : Out :=
  litV m d a (fun x => x &&& lit) s

/-- ORL, scalar (R155). -/
def execOrlScalar (m : Bool) (d a : BitVec 6) (lit : BitVec 32) (s : State) : Out :=
  litS m d a (fun x => x ||| lit) s

/-- ORL, vector (R155). -/
def execOrlVector (m : Bool) (d a : BitVec 6) (lit : BitVec 32) (s : State) : Out :=
  litV m d a (fun x => x ||| lit) s

/-- CMPL, scalar (R155). -/
def execCmplScalar (m : Bool) (d : BitVec 3) (a : BitVec 6) (mm : BitVec 2) (c : BitVec 4) (lit : BitVec 32) (s : State) : Out :=
  cmpS m 2 mm.toNat c.toNat d a [] (fun _ => lit) s

/-- CMPL, vector (R155). -/
def execCmplVector (m : Bool) (r k : BitVec 1) (d : BitVec 3) (a : BitVec 6) (mm : BitVec 2) (c : BitVec 4) (lit : BitVec 32) (s : State) : Out :=
  cmpV m 2 mm.toNat c.toNat r k d a [] (fun _ _ => lit) s

/-- MOV, scalar (R156). -/
def execMovScalar (m : Bool) (d a : BitVec 6) (s : State) : Out :=
  alu1S m d a (fun x => x) s

/-- MOV, vector (R156): any tag but NONE, copied. -/
def execMovVector (m : Bool) (d a : BitVec 6) (s : State) : Out :=
  let fm : Form := { vecForm m [d.toNat] [a.toNat] with tags := fun _ => true }
  issue (fun _ => fm) (fun w s => vecOp fm [(d.toNat, ((s.warp w).tag a.toNat).toNat)] false
    (fun x t => { words := [x.readV a.toNat t] }) w s) s
/-- MOVSV (R156). -/
def execMovsv (m : Bool) (d a : BitVec 6) (t : BitVec 4) (s : State) : Out :=
  let fm : Form := { vecForm m [d.toNat] [] with s := [a.toNat], reads := [{ scalar := true, reg := a.toNat }] }
  issue (fun _ => fm) (vecOp fm [(d.toNat, t.toNat)] false fun x _ => { words := [x.readS a.toNat] }) s
/-- MOVVS (R156): the lowest active thread's element; only that element is read. -/
def execMovvs (m : Bool) (d a : BitVec 6) (s : State) : Out :=
  let fm : Form := { vecForm m [] [a.toNat] with s := [d.toNat], tags := fun _ => true, reads := [] }
  issue (fun _ => fm) (fun w s =>
    let x := s.warp w
    let f := lowest x.active
    if ({ reg := a.toNat } : Src).bad x f then .trap 0x11 f (BitVec.ofNat 64 a.toNat) false s
    else .done (s.modWarp w fun x => x.writeS d.toNat (x.readV a.toNat f))) s
/-- MOVP, scalar (R156). -/
def execMovpScalar (m : Bool) (d a : BitVec 3) (n : BitVec 1) (s : State) : Out :=
  issue (fun _ => scalForm m [] []) (fun w s => .done (s.modWarp w fun x =>
    x.setQ d.toNat (xor (x.q.getLsbD a.toNat) (n == 1#1)))) s
/-- MOVP, vector (R156): A a p register, or with K a q register. -/
def execMovpVector (m : Bool) (d : BitVec 3) (k : BitVec 1) (a : BitVec 3) (n : BitVec 1) (s : State) : Out :=
  let fm : Form := { vecForm m [] [] with uni := if k = 1#1 then some [] else none }
  issue (fun _ => fm) (predOp fm false false d.toNat 0 fun x t =>
    (xor (if k = 1#1 then x.q.getLsbD a.toNat else (x.pred a.toNat).getLsbD t) (n == 1#1), none)) s

/-- LEA, scalar (R157). -/
def execLeaScalar (m : Bool) (h : BitVec 3) (d a b : BitVec 6) (s : State) : Out :=
  issue (fun _ => { scalForm m (pair d) (pair a ++ [b.toNat]) with even := [d.toNat, a.toNat], cost := 2 })
    (scalOp (pair d) fun x =>
      let r := x.readS2 a.toNat + ((x.readS b.toNat).signExtend 64 <<< h.toNat)
      [r.lo, r.hi]) s
/-- LEA, vector (R157): an even scalar pair and a vector index. -/
def execLeaVector (m : Bool) (h : BitVec 3) (d a b : BitVec 6) (s : State) : Out :=
  let fm : Form := { vecForm m (pair d) [b.toNat] with
    s := pair a, even := [d.toNat, a.toNat], factor := 2
    reads := (pair a).map (fun r => { scalar := true, reg := r }) ++ [{ reg := b.toNat }] }
  issue (fun _ => fm) (vecOp fm [(d.toNat, 14), (d.toNat + 1, 15)] false fun x t =>
    let r := x.readS2 a.toNat + ((x.readV b.toNat t).signExtend 64 <<< h.toNat)
    { words := [r.lo, r.hi] }) s

/-- CMP64's result (R158). -/
def cmp64W (a b : DWord) : DWord :=
  (if a = b then 1 else 0) + (if a.slt b then 2 else 0) + (if a.ult b then 4 else 0)
/-- 64-bit shifts by a whole 32-bit amount (R158). -/
def shl64W (a n : DWord) : DWord := if n.toNat < 64 then a <<< n.toNat else 0
def shr64W (a n : DWord) : DWord := if n.toNat < 64 then a >>> n.toNat else 0

/-- ADD64, scalar (R158). -/
def execAdd64Scalar (m : Bool) (d a b : BitVec 6) (s : State) : Out :=
  p64S 2 true true m d a b (fun x y => x + y) s

/-- ADD64, vector (R158). -/
def execAdd64Vector (m : Bool) (d a b : BitVec 6) (s : State) : Out :=
  p64V 2 true true m d a b (fun x y => x + y) s

/-- SUB64, scalar (R158). -/
def execSub64Scalar (m : Bool) (d a b : BitVec 6) (s : State) : Out :=
  p64S 2 true true m d a b (fun x y => x - y) s

/-- SUB64, vector (R158). -/
def execSub64Vector (m : Bool) (d a b : BitVec 6) (s : State) : Out :=
  p64V 2 true true m d a b (fun x y => x - y) s

/-- CMP64, scalar (R158). -/
def execCmp64Scalar (m : Bool) (d a b : BitVec 6) (s : State) : Out :=
  p64S 2 true false m d a b cmp64W s

/-- CMP64, vector (R158). -/
def execCmp64Vector (m : Bool) (d a b : BitVec 6) (s : State) : Out :=
  p64V 2 true false m d a b cmp64W s

/-- SHL64, scalar (R158). -/
def execShl64Scalar (m : Bool) (d a b : BitVec 6) (s : State) : Out :=
  p64S 2 false true m d a b shl64W s

/-- SHL64, vector (R158). -/
def execShl64Vector (m : Bool) (d a b : BitVec 6) (s : State) : Out :=
  p64V 2 false true m d a b shl64W s

/-- SHR64, scalar (R158). -/
def execShr64Scalar (m : Bool) (d a b : BitVec 6) (s : State) : Out :=
  p64S 2 false true m d a b shr64W s

/-- SHR64, vector (R158). -/
def execShr64Vector (m : Bool) (d a b : BitVec 6) (s : State) : Out :=
  p64V 2 false true m d a b shr64W s

/-- MUL64, scalar (R158). -/
def execMul64Scalar (m : Bool) (d a b : BitVec 6) (s : State) : Out :=
  p64S 16 true true m d a b (fun x y => x * y) s

/-- MUL64, vector (R158). -/
def execMul64Vector (m : Bool) (d a b : BitVec 6) (s : State) : Out :=
  p64V 4 true true m d a b (fun x y => x * y) s

end Sys2Proof.Machine
end

