-- ==== Sys2Proof/Machine/MemAccess.lean ====
section
/-! DEFINITION. Loads, stores, atomics, fences, prefetch, maintenance and drains (R184 to R192, R200 to R211), with scope
policy (R297). -/

namespace Sys2Proof.Machine

/-! ### Scope policy (R297) -/

/-- How a named scope is performed: as a scope, demoted, or with a SCOPE trap. -/
def State.scopeFor (s : State) (w scope : Nat) : Option (Nat × State) :=
  let ctx := s.ctxOf w
  let c := s.ctx ctx
  if scope ≤ c.widest then some (scope, s)
  else if c.strict then none
  else some (c.widest, s.modCtx ctx fun c => { c with fdemote := true })

/-! ### The shared run of an addressed word (R190, R316) -/

/-- Whether a lane of a CAS would store: one that would not performs only the acquire part of its ordering (R205). DEDUCED (log 109): a
lane whose compare lies at a peer, on a SYS page or behind a fault may store, and the release comes before what it may store. -/
def State.casStores (s : State) (w : Nat) (op : MemOp) : List Lane → Bool
  | [] => false
  | l :: rest =>
    match s.laneRun w 0 (s.warp w).log op l with
    | .ok _ (some ws) _ _ => (op.rmw (wordsNat ws) (wordsNat l.data)).1.isSome || s.casStores w op rest
    | .trap .. => false
    | _ => true

/-- Whether a word releases, given its lanes (R202, R205). -/
def State.releases (s : State) (w : Nat) (op : MemOp) (ls : List Lane) : Bool :=
  op.rel && (match op.kind with
    | .cas _ => s.casStores w op ls
    | _ => true)

/-- Ends the park before an addressed word: the log has room, no acquire is outstanding, and a release has nothing to wait for;
otherwise what the warp does instead (R287, R296, R316). -/
def State.memReady (s : State) (w : Nat) (rel : Bool) (scope : Nat) : Option Act × State :=
  let x := s.warp w
  if x.log.length ≥ 4 then (some (s.logFull w), s)
  else if x.log.any LogEntry.acquiring then (some (s.logWaits w LogEntry.acquiring), s)
  else if rel then
    let s1 := s.startRelease w scope
    if !s1.released w scope then (some (s1.logWaits w fun _ => true), s1)
    else
      match s1.releaseFault w scope with
      | (some f, s2) => (some (.trap f.1 x.reportSlot f.2 false s2), s2)
      | (none, s2) => (none, s2)
  else (none, s)

/-- Puts what a word leaves to be done into its one log entry: the threads sent to a peer, and those held (R316). -/
def State.reserve (s : State) (w lid : Nat) (op : MemOp) (out held : List Lane) (q : LogWait) (page : Nat) : State :=
  if out.isEmpty && held.isEmpty then s
  else (s.modWarp w fun x => (x.hold op held).logPut { id := lid, op := op, lanes := held, wait := q, page := page, out := out }).count
    (s.ctxOf w) (coreOf w) (sliceOf w) 0x104 1

/-- Takes a record back to the threads that have performed. -/
def State.cutOp (s : State) (w : Nat) (op : MemOp) (f : Nat) : State :=
  match op.pend with
  | some id => s.cut w id (if op.scalar then 0 else f)
  | none => s

/-- Runs an addressed word's lanes at issue. `dst` are its destination registers with their tags, set at issue (R91). -/
def memRun (op0 : MemOp) (dst : List (Nat × Nat)) (uni : Bool) (lanes : Warp → List Lane) (w : Nat) (s : State) : Act :=
  let x0 := s.warp w
  match s.memReady w (s.releases w op0 (lanes x0)) op0.scope with
  | (some a, _) => a
  | (none, s) =>
    let ret := !op0.dst.isEmpty
    let p := if ret then s.pend w op0.dst op0.scalar (if op0.scalar then bit 0 else x0.active) else (0, s)
    let op : MemOp := { op0 with
      pend := if ret then some p.1 else none, uniform := uni, pc := x0.pc, mode := x0.mode, handler := x0.cur.trapm }
    let s1 := (if x0.rest.isEmpty then p.2 else p.2.modWarp w fun x => { x with rest := [] }).modWarp w fun x =>
      dst.foldl (fun x d => (x.setTag d.1 (BitVec.ofNat 4 d.2)).setU d.1 (uni && x0.active == x0.live)) x
    let n := s1.fresh
    -- a store that has performed in part goes on with the threads of its issue (R22)
    let r := runLanes w n.1 x0.log op false (if x0.rest.isEmpty then lanes x0 else x0.rest) { s := n.2 }
    let rs := r.1.s.reserve w n.1 op r.1.remote
    -- the acquire of threads that have performed (R274); an entry that is left performs it when it ends
    let acquired := fun (s : State) =>
      if op.acq && decide (op.scope ≥ 2) && op.space == .global && r.1.performed && r.1.remote.isEmpty then s.l1Acquire (coreOf w) else s
    match r.2 with
    | .all =>
      let s2 := acquired (rs [] .remote 0)
      -- a per-warp word all of whose threads have halted at its address is performed by none (R258)
      .done (if op.scalar && !r.1.performed then s2.cutOp w op 0 else s2)
    | .trap c f a => .trap c f a (r.1.performed || decide (x0.resumeFrom > 0)) (acquired ((rs [] .remote 0).cutOp w op f))
    | .held ls q page => .done (rs ls q page)
    | .full ls =>
      -- the threads below have performed, and the rest wait with the warp (R281)
      .park .retry ((rs [] .remote 0).modWarp w fun x =>
        if r.1.performed || !x0.rest.isEmpty then { x with resumeFrom := ((ls.head?).map Lane.t).getD 0, rest := ls } else x)
    | .halted act watch f _ =>
      .halt ((acquired ((rs [] .remote 0).cutOp w op f)).haltFor w act watch f (r.1.performed || decide (x0.resumeFrom > 0)))

/-! ### Widths (R187) -/

/-- Bytes and count of a width code. -/
def widBytes (w : Nat) : Nat × Nat :=
  match w with
  | 0 => (1, 1)
  | 1 => (1, 1)
  | 2 => (2, 1)
  | 3 => (2, 1)
  | 5 => (8, 1)
  | 6 => (4, 2)
  | 7 => (4, 4)
  | _ => (4, 1)
/-- Registers of a width code. -/
def widRegs (w : Nat) : Nat := if w = 5 ∨ w = 6 then 2 else if w = 7 then 4 else 1
/-- The tag a load of a width sets. -/
def widTag (w : Nat) : Nat := if w = 0 ∨ w = 2 then 3 else if w = 1 ∨ w = 3 then 2 else 1
/-- Whether a narrow load sign-extends. -/
def widSigned (w : Nat) : Bool := w == 1 || w == 3
/-- The registers of a data field, and the field as an even pair. -/
def dataRegs (w d : Nat) : List Nat := (List.range (widRegs w)).map (d + ·)
def dataEven (w d : Nat) : List Nat := if widRegs w = 2 then [d] else []
/-- Whether store data of a width is accepted (R186). -/
def dataOk (w : Nat) (x : Warp) (d : Nat) : Bool := widRegs w > 1 || is32 (x.tag d)
/-- The halves of store data a width uses (R335). -/
def dataHalves (w : Nat) : Nat := if w < 4 then 1 else 3
/-- Whether an address pair is accepted (R186). -/
def addrOk (x : Warp) (a : Nat) : Bool := isI64 x a || (x.tag a == 1 && x.tag (a + 1) == 1)
  where isI64 (x : Warp) (a : Nat) : Bool := x.tag a == 14 && x.tag (a + 1) == 15

/-- The register that POISON names for a thread, if any (R191, R335). -/
def lanePoison (x : Warp) (t : Nat) (srcs : List Src) : Option Nat :=
  (srcs.find? fun a => a.bad x t).map fun a => a.reg + if a.scalar then 64 else 0

/-- The lanes of a word, one per active thread; a uniform word is performed for the first that no watch halts (R25, R258). -/
def lanesOf (x : Warp) (srcs : List Src) (addr : Nat → DWord) (data : Nat → List Word) : List Lane :=
  (threads x.active).map fun t =>
    { t := t, addr := addr t, data := data t, poison := lanePoison x t srcs }

/-! ### Loads and stores with a base and an offset (R188, R200) -/

/-- The operation of a load or store. -/
def plainOp (store : Bool) (sp : Space) (w d hint : Nat) (scalar : Bool) : MemOp :=
  let b := widBytes w
  { kind := if store then .store else .load (widSigned w), space := sp, bytes := b.1, count := b.2
    dst := if store then [] else dataRegs w d, scalar := scalar, hint := hint }

/-- A vector load or store: `base` the scalar base registers, `addr` the address of a thread. -/
def vecMem (store : Bool) (sp : Space) (m : Bool) (w d hint : Nat) (base : List Nat) (even : List Nat) (b : Nat)
    (addr : Warp → Nat → DWord) : State → Out :=
  let ds := dataRegs w d
  let srcs := if store then b :: ds else [b]
  let fm : Form :=
    { m := m, vector := true, s := base, v := ds ++ [b], even := even ++ dataEven w d, src := srcs
      tags := fun x => is32 (x.tag b) && (!store || dataOk w x d), uni := some srcs, mem := true }
  let reads := base.map (fun r => ({ scalar := true, reg := r } : Src)) ++ [{ reg := b }]
    ++ if store then ds.map (fun r => ({ reg := r, halves := dataHalves w } : Src)) else []
  issue (fun _ => fm) (fun k s =>
    let uni := fm.uniform (s.warp k)
    memRun (plainOp store sp w d hint false) (if store then [] else ds.map fun r => (r, widTag w)) uni
      (fun x => lanesOf x reads (addr x) fun t => if store then ds.map fun r => x.readV r t else []) k s)

/-- The scale of an access (R188). -/
def scaleOf (c : BitVec 1) (w : Nat) : Nat := if c = 1#1 then (widBytes w).1 * (widBytes w).2 else 1
/-- base + sign_extend(offset) * scale (R188). -/
def globalAddr (c : BitVec 1) (w : Nat) (base : DWord) (off : Word) : DWord := base + off.signExtend 64 * BitVec.ofNat 64 (scaleOf c w)

/-- LDG (R188, R200). -/
def execLdg (m : Bool) (h : BitVec 2) (c : BitVec 1) (w : BitVec 3) (d a b : BitVec 6) (s : State) : Out :=
  vecMem false .global m w.toNat d.toNat h.toNat [a.toNat, a.toNat + 1] [a.toNat] b.toNat
    (fun x t => globalAddr c w.toNat (x.readS2 a.toNat) (x.readV b.toNat t)) s
/-- STG (R188, R200). -/
def execStg (m : Bool) (h : BitVec 2) (c : BitVec 1) (w : BitVec 3) (d a b : BitVec 6) (s : State) : Out :=
  vecMem true .global m w.toNat d.toNat h.toNat [a.toNat, a.toNat + 1] [a.toNat] b.toNat
    (fun x t => globalAddr c w.toNat (x.readS2 a.toNat) (x.readV b.toNat t)) s
/-- The scratchpad offset of LDS and STS. -/
def scratchAddr (c : BitVec 1) (w : Nat) (base off : Word) : DWord := (base + off * BitVec.ofNat 32 (scaleOf c w)).setWidth 64
/-- LDS (R188, R200). -/
def execLds (m : Bool) (c : BitVec 1) (w : BitVec 3) (d a b : BitVec 6) (s : State) : Out :=
  vecMem false .scratch m w.toNat d.toNat 0 [a.toNat] [] b.toNat
    (fun x t => scratchAddr c w.toNat (x.readS a.toNat) (x.readV b.toNat t)) s
/-- STS (R188, R200). -/
def execSts (m : Bool) (c : BitVec 1) (w : BitVec 3) (d a b : BitVec 6) (s : State) : Out :=
  vecMem true .scratch m w.toNat d.toNat 0 [a.toNat] [] b.toNat
    (fun x t => scratchAddr c w.toNat (x.readS a.toNat) (x.readV b.toNat t)) s
/-- LDP (R188, R201). -/
def execLdp (m : Bool) (w : BitVec 3) (d a b : BitVec 6) (s : State) : Out :=
  vecMem false .priv m w.toNat d.toNat 0 [a.toNat] [] b.toNat
    (fun x t => (x.readS a.toNat + x.readV b.toNat t).setWidth 64) s
/-- STP (R188, R201). -/
def execStp (m : Bool) (w : BitVec 3) (d a b : BitVec 6) (s : State) : Out :=
  vecMem true .priv m w.toNat d.toNat 0 [a.toNat] [] b.toNat
    (fun x t => (x.readS a.toNat + x.readV b.toNat t).setWidth 64) s

/-- LDU and STU: once per warp, with scalar data (R185, R200). -/
def scalMem (store : Bool) (m : Bool) (h : BitVec 2) (c : BitVec 1) (w : BitVec 3) (d a b : Reg) : State → Out :=
  let ds := dataRegs w.toNat d.toNat
  let base := [a.toNat, a.toNat + 1, b.toNat]
  let fm : Form := { m := m, s := base ++ ds, even := a.toNat :: dataEven w.toNat d.toNat, leaf := 4 }
  let reads := (base ++ if store then ds else []).map fun r => ({ scalar := true, reg := r } : Src)
  issue (fun _ => fm) (memRun (plainOp store .global w.toNat d.toNat h.toNat true) [] false (fun x =>
    (if x.active = 0 then [x.reportSlot] else threads x.active).map fun t =>
      { t := t, shown := x.active != 0, addr := globalAddr c w.toNat (x.readS2 a.toNat) (x.readS b.toNat)
        data := if store then ds.map x.readS else [], poison := lanePoison x 0 reads }))
/-- LDU (R200). -/
def execLdu (m : Bool) (h : BitVec 2) (c : BitVec 1) (w : BitVec 3) (d a b : BitVec 6) (s : State) : Out :=
  scalMem false m h c w d a b s
/-- STU (R200). -/
def execStu (m : Bool) (h : BitVec 2) (c : BitVec 1) (w : BitVec 3) (d a b : BitVec 6) (s : State) : Out :=
  scalMem true m h c w d a b s

/-! ### Loads and stores with a vector address -/

/-- The address registers of a vector-address word: a pair, or one scratchpad offset. -/
def addrRegs (scr : Bool) (a : Nat) : List Nat := if scr then [a] else [a, a + 1]
/-- The address of a thread. -/
def addrAt (scr : Bool) (x : Warp) (a t : Nat) : DWord := if scr then (x.readV a t).setWidth 64 else x.readV2 a t

/-- A word with a per-thread address: its data registers `ds` are read when `rd`, its destination gets `dst`. -/
def vaMem (m scr : Bool) (a : Nat) (even : List Nat) (ds : List Nat) (rd : Bool) (halves : Nat) (dst : List (Nat × Nat)) (uni : Bool)
    (dOk : Warp → Bool) (scope : Nat) (op : Nat → MemOp) (check : Option (Nat × Word)) : State → Out :=
  let ars := addrRegs scr a
  let srcs := ars ++ if rd then ds else []
  let fm : Form :=
    { m := m, vector := true, v := ds ++ ars, even := (if scr then [] else [a]) ++ even, src := srcs
      tags := fun x => (if scr then is32 (x.tag a) else addrOk x a) && (!rd || dOk x)
      uni := if uni then some srcs else none, mem := true, check := check }
  let reads := ars.map (fun r => ({ reg := r } : Src)) ++ if rd then ds.map (fun r => ({ reg := r, halves := halves } : Src)) else []
  issue (fun _ => fm) (fun w s =>
    match s.scopeFor w scope with
    | none => .trap 0x12 (s.warp w).reportSlot 0 false s
    | some (sc, s) =>
      let u := fm.uniform (s.warp w)
      memRun (op sc) dst u (fun x => lanesOf x reads (addrAt scr x a) fun t => if rd then ds.map fun r => x.readV r t else []) w s)

/-- The tags LDGX sets for a code (R200). -/
def ldgxTags (w d t : Nat) : List (Nat × Nat) :=
  if t = 0 then (dataRegs w d).map fun r => (r, widTag w)
  else if t = 13 ∨ t = 14 then [(d, t), (d + 1, 15)]
  else (dataRegs w d).map fun r => (r, t)

/-- LDGX (R200). -/
def execLdgx (m : Bool) (h : BitVec 2) (w : BitVec 3) (d a : BitVec 6) (t : BitVec 4) (s : State) : Out :=
  vaMem m false a.toNat (dataEven w.toNat d.toNat) (dataRegs w.toNat d.toNat) false 3 (ldgxTags w.toNat d.toNat t.toNat) true
    (fun _ => true) 0 (fun _ => plainOp false .global w.toNat d.toNat h.toNat false) none s
/-- STGX (R200). -/
def execStgx (m : Bool) (h : BitVec 2) (w : BitVec 3) (d a : BitVec 6) (s : State) : Out :=
  vaMem m false a.toNat (dataEven w.toNat d.toNat) (dataRegs w.toNat d.toNat) true (dataHalves w.toNat) [] true
    (fun x => dataOk w.toNat x d.toNat) 0 (fun _ => plainOp true .global w.toNat d.toNat h.toNat false) none s
/-- LDA (R207): an acquire. -/
def execLda (m : Bool) (y : BitVec 1) (w : BitVec 3) (d a : BitVec 6) (c : BitVec 3) (s : State) : Out :=
  let sp : Space := if y = 1#1 then .scratch else .global
  vaMem m (y == 1#1) a.toNat (dataEven w.toNat d.toNat) (dataRegs w.toNat d.toNat) false 3
    ((dataRegs w.toNat d.toNat).map fun r => (r, widTag w.toNat)) true (fun _ => true) c.toNat
    (fun sc => { plainOp false sp w.toNat d.toNat 0 false with scope := sc, acq := true, direct := true }) (some (0x56, 0)) s
/-- STREL (R207): a release. -/
def execStrel (m : Bool) (y : BitVec 1) (w : BitVec 3) (d a : BitVec 6) (c : BitVec 3) (s : State) : Out :=
  let sp : Space := if y = 1#1 then .scratch else .global
  vaMem m (y == 1#1) a.toNat (dataEven w.toNat d.toNat) (dataRegs w.toNat d.toNat) true (dataHalves w.toNat) [] true
    (fun x => dataOk w.toNat x d.toNat) c.toNat
    (fun sc => { plainOp true sp w.toNat d.toNat 0 false with scope := sc, rel := true, direct := true }) (some (0x57, 0)) s

/-! ### Atomics (R202 to R206) -/

/-- Whether an ordering acquires, and whether it releases (R202). -/
def ordAcq (k : BitVec 2) : Bool := k.getLsbD 0
def ordRel (k : BitVec 2) : Bool := k.getLsbD 1
/-- A check point is a synchronising atomic (R287, R439). -/
def ordCheck (k : BitVec 2) (major : Nat) : Option (Nat × Word) := if k = 0 then none else some (major, 0)

/-- The tag an atomic returns (R204). -/
def atomTags (o d : Nat) (w64 : Bool) : List (Nat × Nat) :=
  if w64 then (if o = 9 then [(d, 1), (d + 1, 1)] else [(d, 14), (d + 1, 15)])
  else [(d, if o = 9 then 1 else if o = 7 ∨ o = 8 ∨ o ≥ 10 then 3 else 2)]

/-- ATOM and ATOMS. -/
def atomWord (scr : Bool) (major : Nat) (m : Bool) (x r : BitVec 1) (o : BitVec 4) (d a : Reg) (k : BitVec 2) (c : BitVec 3) :
    State → Out :=
  let w64 := x == 1#1
  let ret := r == 1#1
  let ds := if w64 then [d.toNat, d.toNat + 1] else [d.toNat]
  vaMem m scr a.toNat (if w64 then [d.toNat] else []) ds true 3 (if ret then atomTags o.toNat d.toNat w64 else []) false
    (fun x => w64 || is32 (x.tag d.toNat)) c.toNat
    (fun sc => { kind := .atom o.toNat w64 ret, space := if scr then .scratch else .global, bytes := if w64 then 8 else 4, count := 1
                 dst := if ret then ds else [], scope := sc, acq := ordAcq k, rel := ordRel k, direct := true }) (ordCheck k major)

/-- ATOM (R204). -/
def execAtom (m : Bool) (x r : BitVec 1) (o : BitVec 4) (d a : BitVec 6) (k : BitVec 2) (c : BitVec 3) (s : State) : Out :=
  atomWord false 0x52 m x r o d a k c s
/-- ATOMS (R204). -/
def execAtoms (m : Bool) (x r : BitVec 1) (o : BitVec 4) (d a : BitVec 6) (k : BitVec 2) (c : BitVec 3) (s : State) : Out :=
  atomWord true 0x53 m x r o d a k c s

/-- CAS (R205): it always returns. -/
def execCas (m : Bool) (y x : BitVec 1) (d a : BitVec 6) (k : BitVec 2) (c : BitVec 3) (s : State) : Out :=
  let w64 := x == 1#1
  let n := if w64 then 2 else 1
  let ds := (List.range (2 * n)).map (d.toNat + ·)
  vaMem m (y == 1#1) a.toNat [d.toNat] ds true 3 (if w64 then [(d.toNat, 14), (d.toNat + 1, 15)] else [(d.toNat, 1)]) false
    (fun _ => true) c.toNat
    (fun sc => { kind := .cas w64, space := if y = 1#1 then .scratch else .global, bytes := 4 * n, count := 1
                 dst := ds.take n, scope := sc, acq := ordAcq k, rel := ordRel k, direct := true }) (ordCheck k 0x54) s

/-- FATOM (R206). The format is that of the data's tag. -/
def execFatom (m : Bool) (y r : BitVec 1) (o : BitVec 2) (d a : BitVec 6) (k : BitVec 2) (c : BitVec 3) (s : State) : Out :=
  let tag := ((s.warp s.cur).tag d.toNat).toNat
  let ret := r == 1#1
  vaMem m (y == 1#1) a.toNat [] [d.toNat] true 3 (if ret then [(d.toNat, tag)] else []) false
    (fun x => x.tag d.toNat == 4 || x.tag d.toNat == 5 || x.tag d.toNat == 6) c.toNat
    (fun sc => { kind := .fatom o.toNat tag ret, space := if y = 1#1 then .scratch else .global, bytes := 4, count := 1
                 dst := if ret then [d.toNat] else [], scope := sc, acq := ordAcq k, rel := ordRel k, direct := true })
    (ordCheck k 0x55) s

/-! ### Fences, prefetch, maintenance and drains (R208 to R211) -/

/-- FENCE (R208). -/
def execFence (m : Bool) (k : BitVec 2) (c : BitVec 3) (s : State) : Out :=
  issue (fun _ => { m := m, leaf := 4, check := some (0x58, 0) }) (fun w s =>
    match s.scopeFor w c.toNat with
    | none => .trap 0x12 (s.warp w).reportSlot 0 false s
    | some (sc, s) =>
      let x := s.warp w
      let rel := k != 0
      let s1 := if rel then s.startRelease w sc else s
      if !x.pending.isEmpty || (rel && !s1.released w sc) then s1.logWaits w fun e => rel || e.op.pend.isSome
      else
        let r := if rel then s1.releaseFault w sc else (none, s1)
        match r.1 with
        | some f => .trap f.1 x.reportSlot f.2 false r.2
        | none => .done (if k != 1 && decide (sc ≥ 2) then r.2.l1Acquire (coreOf w) else r.2)) s

/-- PREF (R209): an implementation may drop any prefetch, and this one drops all. Like every addressed word it issues only while
the log has a free entry (R316). -/
def execPref (m : Bool) (_c _l : BitVec 1) (a b : BitVec 6) (s : State) : Out :=
  issue (fun _ => { m := m, vector := true, s := [a.toNat, a.toNat + 1], v := [b.toNat], even := [a.toNat], src := [b.toNat]
                    tags := fun x => is32 (x.tag b.toNat), uni := some [b.toNat], mem := true })
    (fun w s => if (s.warp w).log.length ≥ 4 then s.logFull w else .done s) s

/-- CMAINT (R210). -/
def execCmaint (m : Bool) (l v : BitVec 1) (a b : BitVec 6) (s : State) : Out :=
  let fm : Form :=
    { m := m, vector := true, s := [a.toNat, a.toNat + 1], v := [b.toNat], even := [a.toNat], src := [b.toNat]
      tags := fun x => is32 (x.tag b.toNat), uni := some [b.toNat], mem := true }
  let reads : List Src := [{ scalar := true, reg := a.toNat }, { scalar := true, reg := a.toNat + 1 }, { reg := b.toNat }]
  issue (fun _ => fm) (fun w s =>
    let u := fm.uniform (s.warp w)
    memRun { kind := .maint (v == 1#1) (l == 1#1), space := .global, bytes := 1, count := 1, dst := [] } [] u
      (fun x => lanesOf x reads (fun t => x.readS2 a.toNat + (x.readV b.toNat t).signExtend 64) fun _ => []) w s) s

/-- RDRAIN (R211): the context's entries for a peer, or all of them, on every core. -/
def execRdrain (m : Bool) (l : BitVec 1) (a : BitVec 6) (s : State) : Out :=
  let all := l == 1#1
  let srcs := if all then [] else [a.toNat]
  issue (fun _ => { m := m, s := srcs, reads := srcs.map fun r => { scalar := true, reg := r }, leaf := 4 }) (fun w s =>
    let ctx := s.ctxOf w
    let peer := ((s.warp w).readS a.toNat).toNat % 512
    .done ((s.cores.map Prod.fst).foldl (fun s c => s.drainAll c fun e => e.ctx == ctx && (all || e.peer == peer)) s)) s

end Sys2Proof.Machine
end

