-- ==== Sys2Proof/Machine/Registers.lean ====
section
/-! DEFINITION. The control registers (R13, R50): which views hold each, what a read gives and what a write does, and RDC and
WRC (R132). A number is a view, its bits 11:10, and a register, its bits 9:0. -/

namespace Sys2Proof.Machine

/-! ### Views (R50) -/

/-- The lowest and highest view that hold a register; none for an unassigned number. -/
def regViews (r : Nat) : Option (Nat × Nat) :=
  if r = 0x001 ∨ (0x020 ≤ r ∧ r ≤ 0x02E) ∨ (0x030 ≤ r ∧ r ≤ 0x032) ∨ r = 0x040 ∨ r = 0x041 ∨ (0x070 ≤ r ∧ r ≤ 0x075)
    ∨ (0x080 ≤ r ∧ r ≤ 0x086) then some (0, 3)
  else if r = 0x010 ∨ r = 0x012 then some (0, 2)
  else if r = 0x050 ∨ r = 0x051 ∨ (0x060 ≤ r ∧ r ≤ 0x062) ∨ (0x068 ≤ r ∧ r ≤ 0x06A) ∨ r = 0x090 ∨ r = 0x095 ∨ r = 0x096
    ∨ (0x0B0 ≤ r ∧ r ≤ 0x0BB) then some (1, 3)
  else if r = 0x0C8 then some (1, 1)
  else if (0x091 ≤ r ∧ r ≤ 0x094) ∨ r = 0x098 ∨ (0x0A0 ≤ r ∧ r ≤ 0x0A6) ∨ (0x0C0 ≤ r ∧ r ≤ 0x0C6) ∨ r = 0x0D0 ∨ (0x0D4 ≤ r ∧ r ≤ 0x0D6)
    ∨ r = 0x0D8 ∨ r = 0x0D9 ∨ (0x0DD ≤ r ∧ r ≤ 0x0E5) ∨ (0x0E8 ≤ r ∧ r ≤ 0x0EC) ∨ (0x0F0 ≤ r ∧ r ≤ 0x0F7) then some (2, 3)
  else if 0x0F8 ≤ r ∧ r ≤ 0x0FA then some (3, 3)
  else none

/-- Whether a view holds a register. -/
def viewHolds (view r : Nat) : Bool :=
  match regViews r with
  | some (lo, hi) => decide (lo ≤ view ∧ view ≤ hi)
  | none => false

def b2n (b : Bool) : Nat := if b then 1 else 0

/-! ### Reads -/

/-- The warp's own registers: 0x001 to 0x032 and 0x070 to 0x075 (R51, R137, R201, R321, R362). -/
def State.readWarpReg (s : State) (w view r : Nat) : Nat :=
  let x := s.warp w
  let k := s.launchOf w
  let c := s.ctx (s.ctxOf w)
  let t := x.trap
  if r = 0x001 then s.levelOf (s.ctxOf w) + 4 * b2n x.cur.trapm + 8 * b2n k.isResident + 16 * b2n (x.gang != 0)
  else if r = 0x010 then b2n c.hazchk + (if view = 0 then 0 else 2 * b2n c.hazlock)
  else if r = 0x012 then c.seed.toNat
  else if r = 0x020 then c.tvec.toNat
  else if r = 0x021 then t.pc.toNat
  else if r = 0x022 then t.cause.toNat + 256 * t.second.toNat
  else if r = 0x023 then t.addr.lo.toNat
  else if r = 0x024 then t.addr.hi.toNat
  else if r = 0x025 then t.first.toNat
  else if r = 0x026 then t.slot.toNat + 128 * b2n t.partialBit
  else if r ≤ 0x029 then (maskWord t.mask (r - 0x027)).toNat
  else if r = 0x02A then t.mode.toNat
  else if r = 0x02B then t.susp.toNat
  else if r = 0x02C then x.log.length + 8 * b2n x.logDefer + 16 * x.logRef
  else if r = 0x02D then x.logPc.toNat
  else if r = 0x02E then 0
  else if r = 0x030 then x.privBase.lo.toNat
  else if r = 0x031 then x.privBase.hi.toNat
  else if r = 0x032 then x.privSize
  else if r = 0x070 then k.codebase.lo.toNat
  else if r = 0x071 then k.codebase.hi.toNat
  else if r = 0x072 then k.database.lo.toNat
  else if r = 0x073 then k.database.hi.toNat
  else if r = 0x074 then k.arg.lo.toNat
  else k.arg.hi.toNat

/-- A number as a field of `n` bits, two's complement. -/
def bitsOf (n : Nat) (v : Int) : Nat := (v % (2 ^ n : Int)).toNat

/-- The loop registers (R402). -/
def State.readLoopReg (s : State) (ctx r : Nat) : Nat :=
  let l := (s.ctx ctx).loop
  let cap := fun (n : Nat) => min n 0xFFFF
  if r = 0x080 then l.count.toNat
  else if r = 0x081 then cap l.used + 2 ^ 16 * cap l.lcl
  else if r = 0x082 then bitsOf 16 l.e
  else if r = 0x083 then bitsOf 32 l.i
  else if r = 0x084 then l.d % 2 ^ 16 + 2 ^ 16 * (l.g % 2 ^ 16)
  else if r = 0x085 then
    match l.contract with
    | some k =>
      let p := fun (i : Nat) => (k.positions l.g).getD i 0
      if l.susp then 0 else p 0 % 16 + 2 ^ 8 * (p 1 % 256) + 2 ^ 16 * (p 2 % 32) + 2 ^ 21 * (p 3 % 32) + 2 ^ 26 * (p 4 % 32)
    | none => 0
  else
    let k := l.contract.getD {}
    b2n l.contract.isSome + 2 * k.cls + 8 * b2n (k.group != 0) + 16 * b2n l.susp + 32 * b2n l.gmiss + 64 * b2n l.held + 256 * (l.run % 4)
      + 4096 * (l.iw % 16)

/-- A context's other registers: 0x040 to 0x06A and 0x0B0 to 0x0BB (R267, R282, R283, R308, R331, R431). -/
def State.readCtxReg (s : State) (ctx r : Nat) : Nat :=
  let c := s.ctx ctx
  let x := s.part (s.partNum ctx)
  if r = 0x040 then b2n c.fdemote + 2 * b2n c.peerlost + 256 * c.lostpeer
  else if r = 0x041 then b2n c.strict + 2 * b2n c.pltrap + 4 * c.wcage + 1024 * c.scopemax
  else if r = 0x050 then c.dbgctl.toNat
  else if r = 0x051 then c.dbgstat.toNat + 256 * c.stepcause.toNat
  else if r = 0x060 then c.ptroot % 2 ^ 32 / 8192 * 8192
  else if r = 0x061 then c.ptroot / 2 ^ 32 % 256
  else if r = 0x062 then c.asid % 2 ^ 16
  else if r = 0x068 then x.field 28 4 % 2 ^ 27
  else if r = 0x069 then x.field 32 4 % 2 ^ 27
  else if r = 0x06A then s.frameUse (s.partNum ctx) % 2 ^ 27
  else if r = 0x0B0 then b2n c.trOn + 2 * b2n c.trWrap + 4 * b2n c.trTraps + 8 * c.trlog
  else if r = 0x0B1 then c.tracebase.lo.toNat
  else if r = 0x0B2 then c.tracebase.hi.toNat
  else if r = 0x0B3 then c.traceptr.toNat
  else if r = 0x0B4 then c.traceovf
  else if r = 0x0B5 then c.rrMode + 4 * b2n c.rrOvf + 8 * c.rrlog
  else if r = 0x0B6 then c.rrarea.lo.toNat
  else if r = 0x0B7 then c.rrarea.hi.toNat
  else if r = 0x0B8 then b2n c.dumpOn + 2 * c.dumpCauses.toNat
  else if r = 0x0B9 then c.dumpbase.lo.toNat
  else if r = 0x0BA then c.dumpbase.hi.toNat
  else c.dumpsize.toNat

/-- Whether the S view of a warp reaches the selected queue (R341). -/
def State.queueMine (s : State) (w view : Nat) : Bool :=
  let k := s.queue s.qsel
  decide (view ≥ 2) || (k.state != .unbound && k.partition.isSome && k.partition == s.partOf (s.ctxOf w))

/-- The code of a port's state (R425). -/
def PortState.code : PortState → Nat
  | .unlocked => 0
  | .locked => 1
  | .run => 2
  | .error => 3
/-- The code of a partition's state (R457). -/
def PartState.code : PartState → Nat
  | .free => 0
  | .active => 1
  | .resetting => 2
  | .destroying => 3

/-- The queue and fabric registers: 0x090 to 0x0A6 (R341, R425). -/
def State.readQueueReg (s : State) (w view r : Nat) : Nat :=
  let p := s.port s.portsel
  let d := s.peersel
  if r = 0x090 then s.qsel
  else if r = 0x091 then s.qbase % 2 ^ 32 / 64 * 64
  else if r = 0x092 then s.qbase / 2 ^ 32 % 256
  else if r = 0x093 then s.qpriv0.toNat
  else if r = 0x094 then s.qpriv1.toNat
  else if r = 0x095 then 0
  else if r = 0x096 then
    let k := s.queue s.qsel
    if s.queueMine w view then k.state.code + 8 * b2n k.isBusy + 256 * k.err else 0
  else if r = 0x098 then s.wdog
  else if r = 0x0A0 then s.fabid
  else if r = 0x0A1 then s.portsel
  else if r = 0x0A2 then (if s.portsel < 24 then b2n p.en + 2 * b2n p.loopback + 16 * p.tagmax else 0)
  else if r = 0x0A3 then 0
  else if r = 0x0A4 then
    if s.portsel < 24 then p.state.code + 4 * b2n p.linkup + 8 * b2n p.session + 16 * p.errcause + 2 ^ 16 * p.drops else 0
  else if r = 0x0A5 then d
  else
    ((List.range 24).map fun k => if s.pathUp k d then 2 ^ k else 0).sum + 2 ^ 24 * b2n ((List.range 24).any fun k => Store.get 0 s.remap (d * 24 + k) != 0)
      + 2 ^ 25 * b2n (Store.get false s.lost d)

/-- The power and context-command registers: 0x0C0 to 0x0DF (R373, R376, R454, R473). -/
def State.readPowerReg (s : State) (w r : Nat) : Nat :=
  let k := s.cluster s.pwrsel
  let c := s.ctx s.ctxsel
  if r = 0x0C0 then s.pwrsel
  else if r = 0x0C1 then s.pwrcap
  else if r ≤ 0x0C6 then
    if s.pwrsel ≥ 40 then 0
    else if r = 0x0C2 then k.step + 2 ^ 8 * (if k.changing then k.target else k.step) + 2 ^ 16 * b2n k.changing
    else if r = 0x0C3 then k.pattern.toNat
    else if r = 0x0C4 then k.throttle + 2 ^ 8 * k.kcap + 2 ^ 16 * k.kbal
    else if r = 0x0C5 then min k.est (2 ^ 20 - 1)
    else k.deny
  else if r = 0x0C8 then
    match s.partOf (s.ctxOf w) with
    | some p => Store.get 0 (s.part p).next 2 % 2 ^ 24
    | none => 0
  else if r = 0x0D4 then s.ctxsel
  else if r = 0x0D6 then b2n c.busy + 2 * b2n c.live + 4 * b2n c.saved + 256 * c.err
  else if r = 0x0D8 then s.ringsel.toNat
  else if r = 0x0D9 then Store.get 0 (s.part (s.ringsel.toNat % 16)).next (s.ringsel.toNat / 16) % 2 ^ 24
  else if r = 0x0DD then s.attreq % 2 ^ 32
  else if r = 0x0DE then s.attreq / 2 ^ 32 % 256
  else if r = 0x0DF then b2n s.attBusy + 2 * b2n s.attDone
  else 0

/-- The partition, time-slice and stop registers: 0x0E0 to 0x0FA (R432, R459). -/
def State.readPartReg (s : State) (r : Nat) : Nat :=
  if r = 0x0E0 then s.ptbase % 2 ^ 32 / 256 * 256
  else if r = 0x0E1 then s.ptbase / 2 ^ 32 % 256
  else if r = 0x0E3 then (s.part s.plast).state.code + 4 * b2n s.pbusy + 256 * s.perr
  else if r = 0x0E5 then s.keysHeld.toNat
  else if r = 0x0E8 then s.tscl.toNat % 2 ^ 32
  else if r = 0x0E9 then s.tscl.toNat / 2 ^ 32
  else if r = 0x0EA then b2n s.tsEn
  else if r = 0x0EB then s.tslend.toNat
  else if r = 0x0EC then b2n s.tsRunning
  else if 0x0F0 ≤ r ∧ r ≤ 0x0F7 then (Store.get 0 s.tsslots (r - 0x0F0)).toNat
  else if r = 0x0F8 then s.stoptick.lo.toNat
  else if r = 0x0F9 then s.stoptick.hi.toNat
  else if r = 0x0FA then b2n s.stopArm + 2 * b2n s.stopped
  else 0

/-- What RDC of a register number gives a warp (R13, R50). -/
def State.readReg (s : State) (w n : Nat) : Word :=
  let view := n / 1024
  let r := n % 1024
  let ctx := s.ctxOf w
  BitVec.ofNat 32 (if !viewHolds view r then 0
    else if r < 0x040 ∨ (0x070 ≤ r ∧ r < 0x080) then s.readWarpReg w view r
    else if 0x080 ≤ r ∧ r < 0x090 then s.readLoopReg ctx r
    else if r < 0x080 ∨ (0x0B0 ≤ r ∧ r < 0x0C0) then s.readCtxReg ctx r
    else if r < 0x0B0 then s.readQueueReg w view r
    else if r < 0x0E0 then s.readPowerReg w r
    else s.readPartReg r)

/-! ### Writes -/

/-- A write to SEED reseeds the writing warp's generators and those of its workgroup's queues (R69, R70, R231). -/
def State.writeSeed (s : State) (w : Nat) (v : Word) : State :=
  ((s.modCtx (s.ctxOf w) fun c => { c with seed := v }).modWarp w fun x => { x with seedBase := v, lfsr := [] }).modWg (s.warp w).wg
    fun g => { g with seed := v, lfsr := [] }
/-- SEED_WRITE. -/
def execSeedWrite (wid : Nat) (v : Word) (s : State) : Out := .next (s.writeSeed wid v)

/-- A write to DBGCTL: a change of ENGHALT stops or resumes the engines of workgroups with a halted warp (R264, R267). -/
def State.writeDbgctl (s : State) (ctx : Nat) (v : Word) : State :=
  let s1 := s.modCtx ctx fun c => { c with dbgctl := v.setWidth 4 }
  let halted := (s.ctxWgs ctx).filter fun g => !(s.wg g).out && (s.wg g).warps.any fun w => (s.warp w).whalt
  if v.getLsbD 0 = (s.ctx ctx).dbgctl.getLsbD 0 ∨ (s.ctx ctx).dumping then s1
  else if v.getLsbD 0 then halted.foldl (fun s g => (s.modWg g fun x => { x with engHalt := true }).stopMmas g) s1
  else (s.ctxWgs ctx).foldl (fun s g => s.engGo g) s1
/-- DBGCTL_WRITE. -/
def execDbgctlWrite (ctx : Nat) (v : Word) (s : State) : Out := .next (s.writeDbgctl ctx v)

/-- A write of EXECCFG takes effect for the writing warp from its next word, for the context's others within 64 cycles (R52). -/
def State.writeExeccfg (s : State) (w view : Nat) (v : Word) : State :=
  s.modCtx (s.ctxOf w) fun c =>
    if view = 0 then
      (if c.hazlock then c else { c with hazchk := v.getLsbD 0, hazOld := c.hazchk, hazAt := s.time, hazBy := w + 1 })
    else { c with hazchk := v.getLsbD 0, hazlock := v.getLsbD 1, hazOld := c.hazchk, hazAt := s.time, hazBy := w + 1 }

/-- Writes of 0x010 to 0x02E (R52, R137, R321). -/
def State.writeWarpReg (s : State) (w view r : Nat) (v : Word) : State :=
  let trap := fun (f : TrapRegs → TrapRegs) => s.modWarp w fun x => { x with trap := f x.trap }
  if r = 0x010 then s.writeExeccfg w view v
  else if r = 0x012 then s.writeSeed w v
  else if r = 0x020 then (if view = 0 then s else s.modCtx (s.ctxOf w) fun c => { c with tvec := v })
  else if r = 0x021 then trap fun t => { t with pc := v }
  else if r = 0x026 then trap fun t => { t with partialBit := v.getLsbD 7 }
  else if 0x027 ≤ r ∧ r ≤ 0x029 then trap fun t => { t with mask := maskSet t.mask (r - 0x027) v }
  else if r = 0x02A then trap fun t => { t with mode := cleanMode (v.setWidth 11) }
  else if r = 0x02E then s.modWarp w fun x => { x with logDrop := v.getLsbD 0 }
  else s

/-- A write to a count of 16 bits, RW1C on all of them: each written 1 clears its bit (R12). -/
def clear16 (old : Nat) (v : Word) : Nat := (BitVec.ofNat 16 old &&& ~~~(v.setWidth 16)).toNat

/-- The low and high words of a 64-bit register. -/
def setLo (x : DWord) (v : Word) : DWord := DWord.ofWords v x.hi
def setHi (x : DWord) (v : Word) : DWord := DWord.ofWords x.lo v

/-- Writes of 0x040 to 0x061 and 0x0B0 to 0x0BB (R267, R282, R283, R308, R431). -/
def State.writeCtxReg (s : State) (ctx view r : Nat) (v : Word) : State :=
  let set := fun (f : Ctx → Ctx) => s.modCtx ctx f
  let n := v.toNat
  if r = 0x040 then set fun c => { c with fdemote := c.fdemote && !v.getLsbD 0, peerlost := c.peerlost && !v.getLsbD 1 }
  else if r = 0x041 then set fun c => { c with
    strict := if view = 0 then c.strict else v.getLsbD 0, pltrap := v.getLsbD 1, wcage := n / 4 % 256 }
  else if r = 0x050 then s.writeDbgctl ctx v
  else if r = 0x051 then set fun c => { c with dbgstat := c.dbgstat &&& ~~~(v.setWidth 5) }
  else if r = 0x060 then set fun c => { c with ptroot := c.ptroot / 2 ^ 32 * 2 ^ 32 + n / 8192 * 8192 }
  else if r = 0x061 then set fun c => { c with ptroot := c.ptroot % 2 ^ 32 + n % 256 * 2 ^ 32 }
  else if r = 0x0B0 then set fun c => { c with
    trOn := v.getLsbD 0, trWrap := v.getLsbD 1, trTraps := v.getLsbD 2, trlog := trlogOf (n / 8 % 32), traceMark := c.traceptr }
  else if r = 0x0B1 then set fun c => { c with tracebase := setLo c.tracebase v }
  else if r = 0x0B2 then set fun c => { c with tracebase := setHi c.tracebase v }
  else if r = 0x0B4 then set fun c => { c with traceovf := clear16 c.traceovf v }
  else if r = 0x0B5 then set fun c => { c with
    rrMode := if n % 4 = 3 then 0 else n % 4, rrOvf := c.rrOvf && !v.getLsbD 2, rrlog := rrlogOf (n / 8 % 32) }
  else if r = 0x0B6 then set fun c => { c with rrarea := setLo c.rrarea v }
  else if r = 0x0B7 then set fun c => { c with rrarea := setHi c.rrarea v }
  else if r = 0x0B8 then set fun c => { c with dumpOn := v.getLsbD 0, dumpCauses := (v >>> 1).setWidth 20 }
  else if r = 0x0B9 then set fun c => { c with dumpbase := setLo c.dumpbase v }
  else if r = 0x0BA then set fun c => { c with dumpbase := setHi c.dumpbase v }
  else if r = 0x0BB then set fun c => { c with dumpsize := v }
  else s

/-- Writes of 0x090 to 0x098 (R341); a new watchdog period counts from each queue's last advance. -/
def State.writeQueueReg (s : State) (w view r : Nat) (v : Word) : State :=
  let n := v.toNat
  if r = 0x090 then { s with qsel := n % 1024 }
  else if r = 0x091 then { s with qbase := s.qbase / 2 ^ 32 * 2 ^ 32 + n / 64 * 64 }
  else if r = 0x092 then { s with qbase := s.qbase % 2 ^ 32 + n % 256 * 2 ^ 32 }
  else if r = 0x093 then { s with qpriv0 := v.setWidth 22 }
  else if r = 0x094 then { s with qpriv1 := v }
  else if r = 0x095 then (if s.queueMine w view then s.queueCommand s.qsel (n % 8) view else s)
  else if r = 0x098 then
    let s1 : State := { s with wdog := max 10 (n % 2 ^ 16) }
    s1.queues.foldl (fun s q => if s.calendar.any fun e => e.2 == .queueHang q.1 then s.armDog q.1 else s) s1
  else s

/-- Writes of 0x0A0 to 0x0A6 (R425). -/
def State.writeFabricReg (s : State) (view r : Nat) (v : Word) : State :=
  let n := v.toNat
  let next := fun (o : Out) => match o with
    | .next t => t
    | _ => s
  if r = 0x0A0 then (if view = 3 then next (execFabidWrite (n % 512) s) else s)
  else if r = 0x0A1 then { s with portsel := n % 32 }
  else if r = 0x0A5 then { s with peersel := n % 512 }
  else if r = 0x0A6 then (if v.getLsbD 25 then s.clearLost s.peersel else s)
  else if s.portsel ≥ 24 then s
  else if r = 0x0A2 then s.writePortcfg s.portsel v
  else if r = 0x0A3 then
    if n % 8 = 1 then s.lockPort s.portsel
    else if n % 8 = 2 then s.startPort s.portsel
    else if n % 8 = 3 then s.stopPort s.portsel
    else if n % 8 = 4 then next (execKeyupdate s.portsel s)
    else s
  else if r = 0x0A4 then (if n / 2 ^ 16 = 0 then s else s.modPort s.portsel fun p => { p with drops := 0 })
  else s

/-- A write to CTXCMD: ignored while a command is in progress (R373). -/
def State.contextCommand (s : State) (cmd : Nat) : State :=
  let ctx := s.ctxsel
  if (s.ctx ctx).busy ∨ cmd = 0 ∨ cmd > 4 then s
  else (s.modCtx ctx fun c => { c with busy := true }).soon
    (if cmd = 1 then .loadOp ctx else if cmd = 2 then .saveOp ctx else if cmd = 3 then .restore ctx else .discard ctx)

/-- Writes of 0x0C0 to 0x0DF (R314, R373, R376, R454, R473). -/
def State.writePowerReg (s : State) (r : Nat) (v : Word) : State :=
  let n := v.toNat
  let next := fun (o : Out) => match o with
    | .next t => t
    | _ => s
  if r = 0x0C0 then { s with pwrsel := n % 64 }
  else if r = 0x0C1 then { s with pwrcap := if 50 ≤ n % 512 ∧ n % 512 ≤ 300 then n % 512 else 300 }
  else if r = 0x0C6 then (if s.pwrsel ≥ 40 then s else s.modCluster s.pwrsel fun k => { k with deny := clear16 k.deny v })
  else if r = 0x0D0 then
    if v.getLsbD 17 then next (execFrespKick (n / 2 ^ 12 % 16) s) else next (execFrespAnswer (n / 2 ^ 12 % 16) (n % 2 ^ 12) (v.getLsbD 16) s)
  else if r = 0x0D4 then { s with ctxsel := n }
  else if r = 0x0D5 then s.contextCommand (n % 8)
  else if r = 0x0D8 then { s with ringsel := v.setWidth 6 }
  else if r = 0x0DD then { s with attreq := s.attreq / 2 ^ 32 * 2 ^ 32 + n }
  else if r = 0x0DE then
    if s.attBusy then s
    else ({ s with attreq := s.attreq % 2 ^ 32 + n % 256 * 2 ^ 32, attBusy := true, attDone := false } : State).soon .attestationRequest
  else if r = 0x0DF then { s with attDone := s.attDone && !v.getLsbD 1 }
  else s

/-- Writes of 0x0E0 to 0x0FA (R432, R459). -/
def State.writePartReg (s : State) (r : Nat) (v : Word) : State :=
  let n := v.toNat
  let next := fun (o : Out) => match o with
    | .next t => t
    | _ => s
  let frozen := s.tsEn || s.tsRunning
  if r = 0x0E0 then { s with ptbase := s.ptbase / 2 ^ 32 * 2 ^ 32 + n / 256 * 256 }
  else if r = 0x0E1 then { s with ptbase := s.ptbase % 2 ^ 32 + n % 256 * 2 ^ 32 }
  else if r = 0x0E2 then s.partCommand (n % 16) (n / 16 % 8)
  else if r = 0x0E4 then
    if n / 32 % 4 = 1 then s.generateKey (n % 32) else if n / 32 % 4 = 2 then s.zeroKey (n % 32) else s
  else if r = 0x0EA then (if v.getLsbD 0 then next (execScheduleStart s) else next (execScheduleStop s))
  else if r = 0x0E8 then (if frozen then s else { s with tscl := (s.tscl >>> 32 <<< 32) ||| v.setWidth 40 })
  else if r = 0x0E9 then (if frozen then s else { s with tscl := BitVec.ofNat 40 (s.tscl.toNat % 2 ^ 32 + n % 256 * 2 ^ 32) })
  else if r = 0x0EB then (if frozen then s else { s with tslend := v.setWidth 16 })
  else if 0x0F0 ≤ r ∧ r ≤ 0x0F7 then (if frozen then s else { s with tsslots := Store.set 0 s.tsslots (r - 0x0F0) (v &&& 0x00F1FFFF) })
  else if r = 0x0F8 then (if s.stopArm then s.armStop (setLo s.stoptick v) true else { s with stoptick := setLo s.stoptick v })
  else if r = 0x0F9 then (if s.stopArm then s.armStop (setHi s.stoptick v) true else { s with stoptick := setHi s.stoptick v })
  else if r = 0x0FA then s.armStop s.stoptick (v.getLsbD 0)
  else s

/-- What WRC of a register number does for a warp (R13, R50). -/
def State.writeReg (s : State) (w n : Nat) (v : Word) : State :=
  let view := n / 1024
  let r := n % 1024
  if !viewHolds view r then s
  else if r < 0x040 then s.writeWarpReg w view r v
  else if r < 0x070 ∨ (0x0B0 ≤ r ∧ r < 0x0C0) then s.writeCtxReg (s.ctxOf w) view r v
  else if r < 0x090 then s
  else if r < 0x0A0 then s.writeQueueReg w view r v
  else if r < 0x0B0 then s.writeFabricReg view r v
  else if r < 0x0E0 then s.writePowerReg r v
  else s.writePartReg r v

/-- CONTROL_REGISTER_WRITE: a write that names the register from any view (R50). -/
def execControlRegisterWrite (wid : Nat) (n : BitVec 12) (v : Word) (s : State) : Out := .next (s.writeReg wid n.toNat v)

/-! ### RDC and WRC (R132) -/

/-- A word that reaches a register's view (R50). -/
def regForm (m : Bool) (n : BitVec 12) (d src : List Nat) : Form :=
  { m := m, level := n.toNat / 1024, s := d ++ src, reads := src.map fun r => { scalar := true, reg := r }, leaf := 6 }

/-- RDC: the register's value goes to sD. -/
def execRdc (m : Bool) (d : BitVec 6) (i : BitVec 12) (s : State) : Out :=
  issue (fun _ => regForm m i [d.toNat] []) (fun w s => .done (s.modWarp w fun x => x.writeS d.toNat (s.readReg w i.toNat))) s

/-- WRC: sA goes to the register. -/
def execWrc (m : Bool) (a : BitVec 6) (i : BitVec 12) (s : State) : Out :=
  issue (fun _ => regForm m i [] [a.toNat]) (fun w s => .done (s.writeReg w i.toNat ((s.warp w).readS a.toNat))) s

end Sys2Proof.Machine
end

