-- ==== Sys2Proof/Machine/Dispatch.lean ====
section
/-! DEFINITION. What each instruction does: one arm per constructor of `Instr`, each a direct call of its meaning. -/

namespace Sys2Proof.Machine

def exec (i : Instr) (s : State) : Host.Outcome State Fault Refusal :=
  match i with
  | .quotaTransferComplete wid => Sys2Proof.Machine.execQuotaTransferComplete wid s
  | .longLatencyWrite wid id t => Sys2Proof.Machine.execLongLatencyWrite wid id t s
  | .translationWalk core ctx va kind => Sys2Proof.Machine.execTranslationWalk core ctx va kind s
  | .zeroingComplete buf => Sys2Proof.Machine.execZeroingComplete buf s
  | .frespAnswer part idx refuse => Sys2Proof.Machine.execFrespAnswer part idx refuse s
  | .frespKick part => Sys2Proof.Machine.execFrespKick part s
  | .shootdownRequest part asid va => Sys2Proof.Machine.execShootdownRequest part asid va s
  | .uncorrectableError tgt => Sys2Proof.Machine.execUncorrectableError tgt s
  | .engineEntryStart wg q => Sys2Proof.Machine.execEngineEntryStart wg q s
  | .copyComplete wg q => Sys2Proof.Machine.execCopyComplete wg q s
  | .mmaStart core id => Sys2Proof.Machine.execMmaStart core id s
  | .mmaComplete core id => Sys2Proof.Machine.execMmaComplete core id s
  | .collComplete wg q => Sys2Proof.Machine.execCollComplete wg q s
  | .seedWrite wid v => Sys2Proof.Machine.execSeedWrite wid v s
  | .controlRegisterWrite wid n v => Sys2Proof.Machine.execControlRegisterWrite wid n v s
  | .moduleReset => Sys2Proof.Machine.execModuleReset s
  | .recoveryImage img => Sys2Proof.Machine.execRecoveryImage img s
  | .hocpTickLoad t => Sys2Proof.Machine.execHocpTickLoad t s
  | .wakeWrite q tail => Sys2Proof.Machine.execWakeWrite q tail s
  | .launch q => Sys2Proof.Machine.execLaunch q s
  | .xcopy q => Sys2Proof.Machine.execXcopy q s
  | .xcopyComplete q idx => Sys2Proof.Machine.execXcopyComplete q idx s
  | .signal q => Sys2Proof.Machine.execSignal q s
  | .cond q => Sys2Proof.Machine.execCond q s
  | .condReread q => Sys2Proof.Machine.execCondReread q s
  | .fencePacket q => Sys2Proof.Machine.execFencePacket q s
  | .fencePacketComplete q => Sys2Proof.Machine.execFencePacketComplete q s
  | .waitord q => Sys2Proof.Machine.execWaitord q s
  | .contract q => Sys2Proof.Machine.execContract q s
  | .workgroupPlace l => Sys2Proof.Machine.execWorkgroupPlace l s
  | .workgroupRelease wg => Sys2Proof.Machine.execWorkgroupRelease wg s
  | .workgroupRetire wg => Sys2Proof.Machine.execWorkgroupRetire wg s
  | .bind q => Sys2Proof.Machine.execBind q s
  | .unbind q => Sys2Proof.Machine.execUnbind q s
  | .queueStop q => Sys2Proof.Machine.execQueueStop q s
  | .queueStart q => Sys2Proof.Machine.execQueueStart q s
  | .queueReset q => Sys2Proof.Machine.execQueueReset q s
  | .skipOp q => Sys2Proof.Machine.execSkipOp q s
  | .qcbAudit q => Sys2Proof.Machine.execQcbAudit q s
  | .shadowExchange core => Sys2Proof.Machine.execShadowExchange core s
  | .stagingComplete core ctx => Sys2Proof.Machine.execStagingComplete core ctx s
  | .loadOp ctx => Sys2Proof.Machine.execLoadOp ctx s
  | .saveOp ctx => Sys2Proof.Machine.execSaveOp ctx s
  | .restore ctx => Sys2Proof.Machine.execRestore ctx s
  | .discard ctx => Sys2Proof.Machine.execDiscard ctx s
  | .queueHang q => Sys2Proof.Machine.execQueueHang q s
  | .quiesceDone part => Sys2Proof.Machine.execQuiesceDone part s
  | .writebackDone part => Sys2Proof.Machine.execWritebackDone part s
  | .zeroDone part => Sys2Proof.Machine.execZeroDone part s
  | .replayDone part => Sys2Proof.Machine.execReplayDone part s
  | .clusterRetentionExit c => Sys2Proof.Machine.execClusterRetentionExit c s
  | .joinTimeoutExpiry wid e => Sys2Proof.Machine.execJoinTimeoutExpiry wid e s
  | .regangTimeoutExpiry wid e => Sys2Proof.Machine.execRegangTimeoutExpiry wid e s
  | .beatIntervalEnd ctx => Sys2Proof.Machine.execBeatIntervalEnd ctx s
  | .controllerStep ctx => Sys2Proof.Machine.execControllerStep ctx s
  | .equinoxGrant part => Sys2Proof.Machine.execEquinoxGrant part s
  | .grantRise ctx => Sys2Proof.Machine.execGrantRise ctx s
  | .grantFall ctx => Sys2Proof.Machine.execGrantFall ctx s
  | .wcAgeDrain core id => Sys2Proof.Machine.execWcAgeDrain core id s
  | .l1DirtyAgeWriteback core line => Sys2Proof.Machine.execL1DirtyAgeWriteback core line s
  | .powerEstimate samples hbmLines flits => Sys2Proof.Machine.execPowerEstimate samples hbmLines flits s
  | .weightRefit pair shunt => Sys2Proof.Machine.execWeightRefit pair shunt s
  | .stepChangeRequest c n => Sys2Proof.Machine.execStepChangeRequest c n s
  | .stepChangeDone c => Sys2Proof.Machine.execStepChangeDone c s
  | .pageAgeScan => Sys2Proof.Machine.execPageAgeScan s
  | .usageRecordWrite part => Sys2Proof.Machine.execUsageRecordWrite part s
  | .timesliceBoundary => Sys2Proof.Machine.execTimesliceBoundary s
  | .scheduleStart => Sys2Proof.Machine.execScheduleStart s
  | .scheduleStop => Sys2Proof.Machine.execScheduleStop s
  | .create part => Sys2Proof.Machine.execCreate part s
  | .update part => Sys2Proof.Machine.execUpdate part s
  | .destroy part => Sys2Proof.Machine.execDestroy part s
  | .destroyZeroingDone part => Sys2Proof.Machine.execDestroyZeroingDone part s
  | .resetpart part => Sys2Proof.Machine.execResetpart part s
  | .generate slot => Sys2Proof.Machine.execGenerate slot s
  | .zeroOp slot => Sys2Proof.Machine.execZeroOp slot s
  | .attestationRequest => Sys2Proof.Machine.execAttestationRequest s
  | .attestationRequestHocp part nonce => Sys2Proof.Machine.execAttestationRequestHocp part nonce s
  | .stoptickArm t => Sys2Proof.Machine.execStoptickArm t s
  | .stoptick => Sys2Proof.Machine.execStoptick s
  | .coreDumpWrite wid => Sys2Proof.Machine.execCoreDumpWrite wid s
  | .fabidWrite peer => Sys2Proof.Machine.execFabidWrite peer s
  | .portcfgWrite port v => Sys2Proof.Machine.execPortcfgWrite port v s
  | .lock port => Sys2Proof.Machine.execLock port s
  | .portStart port => Sys2Proof.Machine.execPortStart port s
  | .portStop port => Sys2Proof.Machine.execPortStop port s
  | .keyupdate port => Sys2Proof.Machine.execKeyupdate port s
  | .peerLostClear peer => Sys2Proof.Machine.execPeerLostClear peer s
  | .linkControlWord port w => Sys2Proof.Machine.execLinkControlWord port w s
  | .linkDown port => Sys2Proof.Machine.execLinkDown port s
  | .spdm port msg => Sys2Proof.Machine.execSpdm port msg s
  | .pstate plane map => Sys2Proof.Machine.execPstate plane map s
  | .pathDown plane peer => Sys2Proof.Machine.execPathDown plane peer s
  | .peerLost peer => Sys2Proof.Machine.execPeerLost peer s
  | .rd x => Sys2Proof.Machine.execRd x s
  | .rdata x => Sys2Proof.Machine.execRdata x s
  | .wr x => Sys2Proof.Machine.execWr x s
  | .wrm x => Sys2Proof.Machine.execWrm x s
  | .doneOp x => Sys2Proof.Machine.execDoneOp x s
  | .fabricAtom x => Sys2Proof.Machine.execFabricAtom x s
  | .ares x => Sys2Proof.Machine.execAres x s
  | .ticket x => Sys2Proof.Machine.execTicket x s
  | .busy x => Sys2Proof.Machine.execBusy x s
  | .busyRetry plane peer => Sys2Proof.Machine.execBusyRetry plane peer s
  | .refuse x => Sys2Proof.Machine.execRefuse x s
  | .notice x => Sys2Proof.Machine.execNotice x s
  | .noteack x => Sys2Proof.Machine.execNoteack x s
  | .planeq x => Sys2Proof.Machine.execPlaneq x s
  | .planea x => Sys2Proof.Machine.execPlanea x s
  | .beatmrg x n least => Sys2Proof.Machine.execBeatmrg x n least s
  | .colld x => Sys2Proof.Machine.execColld x s
  | .systemMemoryAnswer id ans => Sys2Proof.Machine.execSystemMemoryAnswer id ans s
  | .hocpWrite pa v => Sys2Proof.Machine.execHocpWrite pa v s
  | .hocpBlockTransfer pa len data => Sys2Proof.Machine.execHocpBlockTransfer pa len data s
  | .schedulerFault part => Sys2Proof.Machine.execSchedulerFault part s
  | .parityError tgt => Sys2Proof.Machine.execParityError tgt s
  | .evictedPageRestore part idx frame data => Sys2Proof.Machine.execEvictedPageRestore part idx frame data s
  | .firmwareUpdate img => Sys2Proof.Machine.execFirmwareUpdate img s
  | .dbgctlWrite ctx v => Sys2Proof.Machine.execDbgctlWrite ctx v s
  | .flitDrop port => Sys2Proof.Machine.execFlitDrop port s
  | .nop m => Sys2Proof.Machine.execNop m s
  | .yield m => Sys2Proof.Machine.execYield m s
  | .waitall m => Sys2Proof.Machine.execWaitall m s
  | .exit m => Sys2Proof.Machine.execExit m s
  | .eret m => Sys2Proof.Machine.execEret m s
  | .beat m => Sys2Proof.Machine.execBeat m s
  | .beatn m a => Sys2Proof.Machine.execBeatn m a s
  | .ungang m => Sys2Proof.Machine.execUngang m s
  | .getmode m d => Sys2Proof.Machine.execGetmode m d s
  | .mode m d im => Sys2Proof.Machine.execMode m d im s
  | .bra m im => Sys2Proof.Machine.execBra m im s
  | .call m im => Sys2Proof.Machine.execCall m im s
  | .brq m n q im => Sys2Proof.Machine.execBrq m n q im s
  | .brp m n p im => Sys2Proof.Machine.execBrp m n p im s
  | .brx m a => Sys2Proof.Machine.execBrx m a s
  | .callx m d a => Sys2Proof.Machine.execCallx m d a s
  | .ret m a => Sys2Proof.Machine.execRet m a s
  | .brv m a => Sys2Proof.Machine.execBrv m a s
  | .join m d im => Sys2Proof.Machine.execJoin m d im s
  | .regang m d a im => Sys2Proof.Machine.execRegang m d a im s
  | .bar m g => Sys2Proof.Machine.execBar m g s
  | .bara m g => Sys2Proof.Machine.execBara m g s
  | .barw m g => Sys2Proof.Machine.execBarw m g s
  | .trap m im => Sys2Proof.Machine.execTrap m im s
  | .rdc m d im => Sys2Proof.Machine.execRdc m d im s
  | .wrc m a im => Sys2Proof.Machine.execWrc m a im s
  | .setquotaGive m b => Sys2Proof.Machine.execSetquotaGive m b s
  | .setquotaQuery m d => Sys2Proof.Machine.execSetquotaQuery m d s
  | .sysvTid m d => Sys2Proof.Machine.execSysvTid m d s
  | .sysvLane m d => Sys2Proof.Machine.execSysvLane m d s
  | .sysvRank m d => Sys2Proof.Machine.execSysvRank m d s
  | .sysvWid m d => Sys2Proof.Machine.execSysvWid m d s
  | .sysvWgid m d => Sys2Proof.Machine.execSysvWgid m d s
  | .sysvWgx m d => Sys2Proof.Machine.execSysvWgx m d s
  | .sysvWgy m d => Sys2Proof.Machine.execSysvWgy m d s
  | .sysvWgz m d => Sys2Proof.Machine.execSysvWgz m d s
  | .sysvRole m d => Sys2Proof.Machine.execSysvRole m d s
  | .sysvCore m d => Sys2Proof.Machine.execSysvCore m d s
  | .sysvSlice m d => Sys2Proof.Machine.execSysvSlice m d s
  | .sysvLaunch m d => Sys2Proof.Machine.execSysvLaunch m d s
  | .sysvTick m d => Sys2Proof.Machine.execSysvTick m d s
  | .sysvGroups m d => Sys2Proof.Machine.execSysvGroups m d s
  | .sysvPart m d => Sys2Proof.Machine.execSysvPart m d s
  | .addScalar m d a b => Sys2Proof.Machine.execAddScalar m d a b s
  | .addVector m d a b => Sys2Proof.Machine.execAddVector m d a b s
  | .subScalar m d a b => Sys2Proof.Machine.execSubScalar m d a b s
  | .subVector m d a b => Sys2Proof.Machine.execSubVector m d a b s
  | .andScalar m d a b => Sys2Proof.Machine.execAndScalar m d a b s
  | .andVector m d a b => Sys2Proof.Machine.execAndVector m d a b s
  | .orScalar m d a b => Sys2Proof.Machine.execOrScalar m d a b s
  | .orVector m d a b => Sys2Proof.Machine.execOrVector m d a b s
  | .xorScalar m d a b => Sys2Proof.Machine.execXorScalar m d a b s
  | .xorVector m d a b => Sys2Proof.Machine.execXorVector m d a b s
  | .andnScalar m d a b => Sys2Proof.Machine.execAndnScalar m d a b s
  | .andnVector m d a b => Sys2Proof.Machine.execAndnVector m d a b s
  | .ornScalar m d a b => Sys2Proof.Machine.execOrnScalar m d a b s
  | .ornVector m d a b => Sys2Proof.Machine.execOrnVector m d a b s
  | .shlScalar m d a b => Sys2Proof.Machine.execShlScalar m d a b s
  | .shlVector m d a b => Sys2Proof.Machine.execShlVector m d a b s
  | .shrScalar m d a b => Sys2Proof.Machine.execShrScalar m d a b s
  | .shrVector m d a b => Sys2Proof.Machine.execShrVector m d a b s
  | .sraScalar m d a b => Sys2Proof.Machine.execSraScalar m d a b s
  | .sraVector m d a b => Sys2Proof.Machine.execSraVector m d a b s
  | .rotScalar m d a b => Sys2Proof.Machine.execRotScalar m d a b s
  | .rotVector m d a b => Sys2Proof.Machine.execRotVector m d a b s
  | .minScalar m d a b => Sys2Proof.Machine.execMinScalar m d a b s
  | .minVector m d a b => Sys2Proof.Machine.execMinVector m d a b s
  | .maxScalar m d a b => Sys2Proof.Machine.execMaxScalar m d a b s
  | .maxVector m d a b => Sys2Proof.Machine.execMaxVector m d a b s
  | .minnScalar m d a b => Sys2Proof.Machine.execMinnScalar m d a b s
  | .minnVector m d a b => Sys2Proof.Machine.execMinnVector m d a b s
  | .maxnScalar m d a b => Sys2Proof.Machine.execMaxnScalar m d a b s
  | .maxnVector m d a b => Sys2Proof.Machine.execMaxnVector m d a b s
  | .absScalar m d a => Sys2Proof.Machine.execAbsScalar m d a s
  | .absVector m d a => Sys2Proof.Machine.execAbsVector m d a s
  | .negScalar m d a => Sys2Proof.Machine.execNegScalar m d a s
  | .negVector m d a => Sys2Proof.Machine.execNegVector m d a s
  | .addsatScalar m d a b => Sys2Proof.Machine.execAddsatScalar m d a b s
  | .addsatVector m d a b => Sys2Proof.Machine.execAddsatVector m d a b s
  | .subsatScalar m d a b => Sys2Proof.Machine.execSubsatScalar m d a b s
  | .subsatVector m d a b => Sys2Proof.Machine.execSubsatVector m d a b s
  | .addsatnScalar m d a b => Sys2Proof.Machine.execAddsatnScalar m d a b s
  | .addsatnVector m d a b => Sys2Proof.Machine.execAddsatnVector m d a b s
  | .subsatnScalar m d a b => Sys2Proof.Machine.execSubsatnScalar m d a b s
  | .subsatnVector m d a b => Sys2Proof.Machine.execSubsatnVector m d a b s
  | .addiScalar m d a im => Sys2Proof.Machine.execAddiScalar m d a im s
  | .addiVector m d a im => Sys2Proof.Machine.execAddiVector m d a im s
  | .shliScalar m d a n => Sys2Proof.Machine.execShliScalar m d a n s
  | .shliVector m d a n => Sys2Proof.Machine.execShliVector m d a n s
  | .shriScalar m d a n => Sys2Proof.Machine.execShriScalar m d a n s
  | .shriVector m d a n => Sys2Proof.Machine.execShriVector m d a n s
  | .sraiScalar m d a n => Sys2Proof.Machine.execSraiScalar m d a n s
  | .sraiVector m d a n => Sys2Proof.Machine.execSraiVector m d a n s
  | .rotiScalar m d a n => Sys2Proof.Machine.execRotiScalar m d a n s
  | .rotiVector m d a n => Sys2Proof.Machine.execRotiVector m d a n s
  | .mulScalar m d a b => Sys2Proof.Machine.execMulScalar m d a b s
  | .mulVector m d a b => Sys2Proof.Machine.execMulVector m d a b s
  | .mulhiScalar m d a b => Sys2Proof.Machine.execMulhiScalar m d a b s
  | .mulhiVector m d a b => Sys2Proof.Machine.execMulhiVector m d a b s
  | .mulhinScalar m d a b => Sys2Proof.Machine.execMulhinScalar m d a b s
  | .mulhinVector m d a b => Sys2Proof.Machine.execMulhinVector m d a b s
  | .madScalar m d a b => Sys2Proof.Machine.execMadScalar m d a b s
  | .madVector m d a b => Sys2Proof.Machine.execMadVector m d a b s
  | .mulwScalar m d a b => Sys2Proof.Machine.execMulwScalar m d a b s
  | .mulwVector m d a b => Sys2Proof.Machine.execMulwVector m d a b s
  | .mulwnScalar m d a b => Sys2Proof.Machine.execMulwnScalar m d a b s
  | .mulwnVector m d a b => Sys2Proof.Machine.execMulwnVector m d a b s
  | .divScalar m d a b => Sys2Proof.Machine.execDivScalar m d a b s
  | .divVector m d a b => Sys2Proof.Machine.execDivVector m d a b s
  | .divnScalar m d a b => Sys2Proof.Machine.execDivnScalar m d a b s
  | .divnVector m d a b => Sys2Proof.Machine.execDivnVector m d a b s
  | .remScalar m d a b => Sys2Proof.Machine.execRemScalar m d a b s
  | .remVector m d a b => Sys2Proof.Machine.execRemVector m d a b s
  | .remnScalar m d a b => Sys2Proof.Machine.execRemnScalar m d a b s
  | .remnVector m d a b => Sys2Proof.Machine.execRemnVector m d a b s
  | .popcScalar m d a => Sys2Proof.Machine.execPopcScalar m d a s
  | .popcVector m d a => Sys2Proof.Machine.execPopcVector m d a s
  | .clzScalar m d a => Sys2Proof.Machine.execClzScalar m d a s
  | .clzVector m d a => Sys2Proof.Machine.execClzVector m d a s
  | .ctzScalar m d a => Sys2Proof.Machine.execCtzScalar m d a s
  | .ctzVector m d a => Sys2Proof.Machine.execCtzVector m d a s
  | .brevScalar m d a => Sys2Proof.Machine.execBrevScalar m d a s
  | .brevVector m d a => Sys2Proof.Machine.execBrevVector m d a s
  | .bfxScalar m d a b => Sys2Proof.Machine.execBfxScalar m d a b s
  | .bfxVector m d a b => Sys2Proof.Machine.execBfxVector m d a b s
  | .bfxnScalar m d a b => Sys2Proof.Machine.execBfxnScalar m d a b s
  | .bfxnVector m d a b => Sys2Proof.Machine.execBfxnVector m d a b s
  | .bfiScalar m d a b => Sys2Proof.Machine.execBfiScalar m d a b s
  | .bfiVector m d a b => Sys2Proof.Machine.execBfiVector m d a b s
  | .bswapScalar m d a => Sys2Proof.Machine.execBswapScalar m d a s
  | .bswapVector m d a => Sys2Proof.Machine.execBswapVector m d a s
  | .cmpScalar m mm c d a b => Sys2Proof.Machine.execCmpScalar m mm c d a b s
  | .cmpVector m mm c r k d a b => Sys2Proof.Machine.execCmpVector m mm c r k d a b s
  | .cmpiScalar m d a c im => Sys2Proof.Machine.execCmpiScalar m d a c im s
  | .cmpiVector m r k d a c im => Sys2Proof.Machine.execCmpiVector m r k d a c im s
  | .selScalar m n p d a b => Sys2Proof.Machine.execSelScalar m n p d a b s
  | .selVector m n k p d a b => Sys2Proof.Machine.execSelVector m n k p d a b s
  | .moviScalar m d im => Sys2Proof.Machine.execMoviScalar m d im s
  | .moviVector m d im => Sys2Proof.Machine.execMoviVector m d im s
  | .movhiScalar m d im => Sys2Proof.Machine.execMovhiScalar m d im s
  | .movhiVector m d im => Sys2Proof.Machine.execMovhiVector m d im s
  | .movlScalar m d lit => Sys2Proof.Machine.execMovlScalar m d lit s
  | .movlVector m d t lit => Sys2Proof.Machine.execMovlVector m d t lit s
  | .addlScalar m d a lit => Sys2Proof.Machine.execAddlScalar m d a lit s
  | .addlVector m d a lit => Sys2Proof.Machine.execAddlVector m d a lit s
  | .andlScalar m d a lit => Sys2Proof.Machine.execAndlScalar m d a lit s
  | .andlVector m d a lit => Sys2Proof.Machine.execAndlVector m d a lit s
  | .orlScalar m d a lit => Sys2Proof.Machine.execOrlScalar m d a lit s
  | .orlVector m d a lit => Sys2Proof.Machine.execOrlVector m d a lit s
  | .cmplScalar m d a mm c lit => Sys2Proof.Machine.execCmplScalar m d a mm c lit s
  | .cmplVector m r k d a mm c lit => Sys2Proof.Machine.execCmplVector m r k d a mm c lit s
  | .movScalar m d a => Sys2Proof.Machine.execMovScalar m d a s
  | .movVector m d a => Sys2Proof.Machine.execMovVector m d a s
  | .movsv m d a t => Sys2Proof.Machine.execMovsv m d a t s
  | .movvs m d a => Sys2Proof.Machine.execMovvs m d a s
  | .movpScalar m d a n => Sys2Proof.Machine.execMovpScalar m d a n s
  | .movpVector m d k a n => Sys2Proof.Machine.execMovpVector m d k a n s
  | .leaScalar m h d a b => Sys2Proof.Machine.execLeaScalar m h d a b s
  | .leaVector m h d a b => Sys2Proof.Machine.execLeaVector m h d a b s
  | .add64Scalar m d a b => Sys2Proof.Machine.execAdd64Scalar m d a b s
  | .add64Vector m d a b => Sys2Proof.Machine.execAdd64Vector m d a b s
  | .sub64Scalar m d a b => Sys2Proof.Machine.execSub64Scalar m d a b s
  | .sub64Vector m d a b => Sys2Proof.Machine.execSub64Vector m d a b s
  | .cmp64Scalar m d a b => Sys2Proof.Machine.execCmp64Scalar m d a b s
  | .cmp64Vector m d a b => Sys2Proof.Machine.execCmp64Vector m d a b s
  | .shl64Scalar m d a b => Sys2Proof.Machine.execShl64Scalar m d a b s
  | .shl64Vector m d a b => Sys2Proof.Machine.execShl64Vector m d a b s
  | .shr64Scalar m d a b => Sys2Proof.Machine.execShr64Scalar m d a b s
  | .shr64Vector m d a b => Sys2Proof.Machine.execShr64Vector m d a b s
  | .mul64Scalar m d a b => Sys2Proof.Machine.execMul64Scalar m d a b s
  | .mul64Vector m d a b => Sys2Proof.Machine.execMul64Vector m d a b s
  | .fadd m d a b => Sys2Proof.Machine.execFadd m d a b s
  | .fsub m d a b => Sys2Proof.Machine.execFsub m d a b s
  | .fmul m d a b => Sys2Proof.Machine.execFmul m d a b s
  | .fmin m d a b => Sys2Proof.Machine.execFmin m d a b s
  | .fmax m d a b => Sys2Proof.Machine.execFmax m d a b s
  | .fminnum m d a b => Sys2Proof.Machine.execFminnum m d a b s
  | .fmaxnum m d a b => Sys2Proof.Machine.execFmaxnum m d a b s
  | .fcpys m d a b => Sys2Proof.Machine.execFcpys m d a b s
  | .fscale m d a b => Sys2Proof.Machine.execFscale m d a b s
  | .fma m d a b => Sys2Proof.Machine.execFma m d a b s
  | .fms m d a b => Sys2Proof.Machine.execFms m d a b s
  | .fnma m d a b => Sys2Proof.Machine.execFnma m d a b s
  | .fnms m d a b => Sys2Proof.Machine.execFnms m d a b s
  | .fcmp m mm c r k d a b => Sys2Proof.Machine.execFcmp m mm c r k d a b s
  | .fabs m d a => Sys2Proof.Machine.execFabs m d a s
  | .fneg m d a => Sys2Proof.Machine.execFneg m d a s
  | .fclass m d a => Sys2Proof.Machine.execFclass m d a s
  | .frnd m d a => Sys2Proof.Machine.execFrnd m d a s
  | .frcp m d a => Sys2Proof.Machine.execFrcp m d a s
  | .frsq m d a => Sys2Proof.Machine.execFrsq m d a s
  | .fsqrt m d a => Sys2Proof.Machine.execFsqrt m d a s
  | .fexp2 m d a => Sys2Proof.Machine.execFexp2 m d a s
  | .flog2 m d a => Sys2Proof.Machine.execFlog2 m d a s
  | .fsin m d a => Sys2Proof.Machine.execFsin m d a s
  | .fcos m d a => Sys2Proof.Machine.execFcos m d a s
  | .ftanh m d a => Sys2Proof.Machine.execFtanh m d a s
  | .fsig m d a => Sys2Proof.Machine.execFsig m d a s
  | .fdiv m d a b => Sys2Proof.Machine.execFdiv m d a b s
  | .dot2 m d a b => Sys2Proof.Machine.execDot2 m d a b s
  | .dot4 m d a b => Sys2Proof.Machine.execDot4 m d a b s
  | .dot8 m d a b => Sys2Proof.Machine.execDot8 m d a b s
  | .cvt m p t d a => Sys2Proof.Machine.execCvt m p t d a s
  | .cvti m p t d a u => Sys2Proof.Machine.execCvti m p t d a u s
  | .cvtf m p t d a u => Sys2Proof.Machine.execCvtf m p t d a u s
  | .qnt m h d a b => Sys2Proof.Machine.execQnt m h d a b s
  | .dqnt m h t d a b => Sys2Proof.Machine.execDqnt m h t d a b s
  | .pack m d a b => Sys2Proof.Machine.execPack m d a b s
  | .unpacklo m d a => Sys2Proof.Machine.execUnpacklo m d a s
  | .unpackhi m d a => Sys2Proof.Machine.execUnpackhi m d a s
  | .retag m d a t => Sys2Proof.Machine.execRetag m d a t s
  | .tagq m d a => Sys2Proof.Machine.execTagq m d a s
  | .xprev m c d a b => Sys2Proof.Machine.execXprev m c d a b s
  | .xidx m d a b => Sys2Proof.Machine.execXidx m d a b s
  | .xbc m l d a b => Sys2Proof.Machine.execXbc m l d a b s
  | .xscan m x o d a => Sys2Proof.Machine.execXscan m x o d a s
  | .xred m x o d a => Sys2Proof.Machine.execXred m x o d a s
  | .voteBallot m n d a => Sys2Proof.Machine.execVoteBallot m n d a s
  | .voteAny m n d a => Sys2Proof.Machine.execVoteAny m n d a s
  | .voteAll m n d a => Sys2Proof.Machine.execVoteAll m n d a s
  | .matchOp m d a c => Sys2Proof.Machine.execMatchOp m d a c s
  | .matchf m d a c => Sys2Proof.Machine.execMatchf m d a c s
  | .xswzLane m d a l => Sys2Proof.Machine.execXswzLane m d a l s
  | .xswzRx m d a mm => Sys2Proof.Machine.execXswzRx m d a mm s
  | .xswzRev m d a => Sys2Proof.Machine.execXswzRev m d a s
  | .ldg m h c w d a b => Sys2Proof.Machine.execLdg m h c w d a b s
  | .stg m h c w d a b => Sys2Proof.Machine.execStg m h c w d a b s
  | .ldgx m h w d a t => Sys2Proof.Machine.execLdgx m h w d a t s
  | .stgx m h w d a => Sys2Proof.Machine.execStgx m h w d a s
  | .lds m c w d a b => Sys2Proof.Machine.execLds m c w d a b s
  | .sts m c w d a b => Sys2Proof.Machine.execSts m c w d a b s
  | .ldu m h c w d a b => Sys2Proof.Machine.execLdu m h c w d a b s
  | .stu m h c w d a b => Sys2Proof.Machine.execStu m h c w d a b s
  | .ldp m w d a b => Sys2Proof.Machine.execLdp m w d a b s
  | .stp m w d a b => Sys2Proof.Machine.execStp m w d a b s
  | .atom m x r o d a k c => Sys2Proof.Machine.execAtom m x r o d a k c s
  | .atoms m x r o d a k c => Sys2Proof.Machine.execAtoms m x r o d a k c s
  | .cas m y x d a k c => Sys2Proof.Machine.execCas m y x d a k c s
  | .fatom m y r o d a k c => Sys2Proof.Machine.execFatom m y r o d a k c s
  | .lda m y w d a c => Sys2Proof.Machine.execLda m y w d a c s
  | .strel m y w d a c => Sys2Proof.Machine.execStrel m y w d a c s
  | .fence m k c => Sys2Proof.Machine.execFence m k c s
  | .pref m c l a b => Sys2Proof.Machine.execPref m c l a b s
  | .cmaint m l v a b => Sys2Proof.Machine.execCmaint m l v a b s
  | .rdrain m l a => Sys2Proof.Machine.execRdrain m l a s
  | .tdef m k t d a b => Sys2Proof.Machine.execTdef m k t d a b s
  | .tfree m a => Sys2Proof.Machine.execTfree m a s
  | .tstate m d a => Sys2Proof.Machine.execTstate m d a s
  | .twait m a => Sys2Proof.Machine.execTwait m a s
  | .claim m a => Sys2Proof.Machine.execClaim m a s
  | .claimt m d a => Sys2Proof.Machine.execClaimt m d a s
  | .release m a => Sys2Proof.Machine.execRelease m a s
  | .cpy m x e d a b => Sys2Proof.Machine.execCpy m x e d a b s
  | .cpyg m y x z e d a => Sys2Proof.Machine.execCpyg m y x z e d a s
  | .mma m d a b => Sys2Proof.Machine.execMma m d a b s
  | .mmaz m d a b => Sys2Proof.Machine.execMmaz m d a b s
  | .accrd m d a b => Sys2Proof.Machine.execAccrd m d a b s
  | .accrdc m d a b => Sys2Proof.Machine.execAccrdc m d a b s
  | .accwr m d a b => Sys2Proof.Machine.execAccwr m d a b s
  | .accz m d => Sys2Proof.Machine.execAccz m d s
  | .accmax m d a => Sys2Proof.Machine.execAccmax m d a s
  | .accsum m d a => Sys2Proof.Machine.execAccsum m d a s
  | .accexp m d a b => Sys2Proof.Machine.execAccexp m d a b s
  | .accscl m d a => Sys2Proof.Machine.execAccscl m d a s
  | .accmask m d a b => Sys2Proof.Machine.execAccmask m d a b s
  | .mfence m l a => Sys2Proof.Machine.execMfence m l a s
  | .qfence m mm => Sys2Proof.Machine.execQfence m mm s
  | .coll m x e a b => Sys2Proof.Machine.execColl m x e a b s
  | .colli m d a => Sys2Proof.Machine.execColli m d a s
  | .wset m n d a => Sys2Proof.Machine.execWset m n d a s
  | .wclr m a => Sys2Proof.Machine.execWclr m a s
  | .wstat m d a => Sys2Proof.Machine.execWstat m d a s
  | .warm m a b => Sys2Proof.Machine.execWarm m a b s
  | .hread m mm d a b => Sys2Proof.Machine.execHread m mm d a b s
  | .hwrite m mm d a b => Sys2Proof.Machine.execHwrite m mm d a b s
  | .hstop m a b => Sys2Proof.Machine.execHstop m a b s
  | .hstep m a b => Sys2Proof.Machine.execHstep m a b s
  | .hresume m a b => Sys2Proof.Machine.execHresume m a b s
  | .invlp m a b => Sys2Proof.Machine.execInvlp m a b s
  | .tlbinv m a => Sys2Proof.Machine.execTlbinv m a s
  | .pmread m d a => Sys2Proof.Machine.execPmread m d a s
  | .tracem m a b => Sys2Proof.Machine.execTracem m a b s
  | .rpchk m a => Sys2Proof.Machine.execRpchk m a s

end Sys2Proof.Machine
end

