-- ==== Sys2Proof/Machine/Cycle.lean ====
section
/-! DEFINITION. What one machine step does: a due event, else a stepped word, else the end of a wait, else the word that the next
slice issues in this cycle, else an expiry, else the end of the cycle or of the tick. The choice of a slice is that of R365 to R368;
its slots are counted under R433 to R436. -/

namespace Sys2Proof.Machine

/-- Fetches, decodes and executes the word of the warp that `cur` names (R89, R95, R102). -/
noncomputable def runWord (s : State) : Out :=
  match s.fetchPair with
  | (.stop s1, _) => .next s1
  | (.got v s1, bs) =>
    match decode bs with
    | .ok (i, _) => exec i s1
    | .error _ => .next (s1.illegal s1.cur v)

/-- The stepped word of a warp (R263): a refused one, a thread's, or a split's. -/
noncomputable def stepWord (s : State) (w : Nat) : Out :=
  match (s.warp w).step with
  | some (0, t, issuer) =>
    let y := (s.warp w).solo t
    let refused := match ({ s.setWarp w y with cur := w } : State).fetchPair with
      | (.got _ _, bs) => (match decode bs with
        | .ok (i, _) => stepRefused i
        | .error _ => false)
      | _ => false
    if refused then .next ((s.modWarp w fun x => { x with step := none }).dbgSet issuer 2)
    else s.stepThread runWord w t issuer
  | some (1, t, issuer) => s.stepSplit runWord w t issuer
  | _ => .next (s.stepSettle w)

/-- The first calendar entry that is due; a stopped device heeds only a module reset (R432). -/
def State.due (s : State) : Option (Nat × Instr) :=
  if s.stopped then s.calendar.find? fun e => e.2 == .moduleReset else s.calendar.find? fun e => decide (e.1 ≤ s.tick.toNat)

/-- The slice of a key. -/
def State.slice (s : State) (k : Nat) : Slice := Store.get {} s.slices k

/-- Whether a cluster's pattern masks the cycle (R451). -/
def State.masked (s : State) (core : Nat) : Bool := !(s.cluster (clusterOf core)).pattern.getLsbD 0

/-- Whether a slice has issued in this cycle. -/
def State.sliceIssued (s : State) (k : Nat) : Bool := (s.slice k).issued == s.cycle (k / 16) + 1

/-- A warp whose stepped word is to run or to settle in this machine step: a stepped word takes a slot of its slice as any other, in a
cycle that is not masked and in which the slice has issued nothing (R365, R433). -/
def State.stepping (s : State) : Option Nat :=
  let may := fun (w : Nat) (x : Warp) => s.ticks (coreOf w) && decide (x.readyAt ≤ s.now w) && !x.park.fetches
    && !s.masked (coreOf w) && !s.sliceIssued (sliceKey w)
  (s.warps.find? fun e => match e.2.step with
    | some (0, _) => may e.1 e.2
    | some (1, _) => may e.1 e.2
    | some _ => (e.2.pending.isEmpty && e.2.log.isEmpty) || e.2.refusedEntry.isSome
    | none => false).map Prod.fst

/-- A warp whose wait is over. -/
def State.ending (s : State) : Option Nat := (s.warps.find? fun e => e.2.park != .none && s.waitOver e.1).map Prod.fst

/-! ### Readiness (R365) -/

/-- Whether a warp has a RUNNING split with a thread that may issue, and is neither halted nor being pre-empted. -/
def State.runnable (s : State) (w : Nat) : Bool :=
  let x := s.warp w
  x.resident && decide (x.run < 8) && !x.whalt && !x.doubled && x.cur.m &&& ~~~x.thalt != 0 && !(s.core (coreOf w)).swapping
    && (!(s.wg x.wg).stopping || !x.rest.isEmpty)

/-- Whether the spacing of a warp has elapsed, in a cycle that its clock begins in this pass (R4, R19, R130). -/
def State.spaced (s : State) (w : Nat) : Bool :=
  let x := s.warp w
  s.ticks (coreOf w) && decide (x.readyAt ≤ s.now w) && !(x.yieldAt == s.now w && x.yieldAt != 0)

/-- Whether the word of a warp needs the lane pipe: tried with a free pipe, it takes it. -/
noncomputable def State.usesPipe (s : State) (w : Nat) : Bool :=
  let k := sliceKey w
  match runWord { s with cur := w, slices := Store.set {} s.slices k { s.slice k with pipe := 0 } } with
  | .next t => (t.slice k).pipe != 0
  | _ => false

/-- Whether the unit that a warp's word needs is free (R365). -/
noncomputable def State.unitFree (s : State) (w : Nat) : Bool := decide ((s.slice (sliceKey w)).pipe ≤ s.now w) || !s.usesPipe w

/-- Ready under R365 but for the cluster's pattern. -/
noncomputable def State.nearReady (s : State) (w : Nat) : Bool :=
  s.runnable w && (s.warp w).park == .none && s.spaced w && s.unitFree w

/-- Ready under R365. -/
noncomputable def State.ready (s : State) (w : Nat) : Bool := !s.masked (coreOf w) && s.nearReady w

/-- A parked warp whose word is to be tried in this cycle. -/
def State.polling (s : State) : Option Nat :=
  (s.warps.find? fun e => e.2.park.retries && e.2.step.isNone && s.runnable e.1 && s.spaced e.1).map Prod.fst

/-- Tries the word of a parked warp: what its wait has come to stands, and a word that would issue makes the warp ready in this
cycle. -/
noncomputable def pollWord (s : State) (w : Nat) : Out :=
  match runWord { s with cur := w } with
  | .next t =>
    if (t.warp w).park.retries || (t.warp w).park.fetches then .next t
    else .next (s.modWarp w fun x => { x with park := .none, readyAt := s.now w })
  | o => o

/-! ### The choice of a slice (R366 to R368) -/

/-- The slices that hold a resident warp, ascending; slice k of a core c is 16c + k. -/
def State.activeSlices (s : State) : List Nat := ((s.warps.filter fun e => e.2.resident).map fun e => e.1 / 8).eraseDups
/-- The resident warps of a slice, ascending. -/
def State.sliceWarps (s : State) (k : Nat) : List Nat :=
  (List.range 8).filterMap fun i => if (s.warp (8 * k + i)).resident then some (8 * k + i) else none

/-- The weight of a context (R367); a context of no partition has a PWEIGHT of 1. -/
def State.weight (s : State) (ctx : Nat) : Int :=
  (((match s.partOf ctx with
    | some p => (s.part p).field 2 1
    | none => 1) * (s.ctx ctx).loop.iw : Nat) : Int)

/-- The deficits of a slice's resident contexts, in order of arrival: those that have left go, new ones start at 0. -/
def State.deficits (s : State) (k : Nat) : List (Nat × Int) :=
  let here := (s.sliceWarps k).map fun w => s.ctxOf w
  let old := (s.slice k).defs.filter fun d => here.contains d.1
  old ++ ((here.eraseDups.filter fun c => !old.any fun d => d.1 == c).map fun c => (c, (0 : Int)))

/-- Replenishes when no context with a ready split has a deficit of 0 or more (R366). -/
def State.replenish (s : State) (ready : List Nat) (defs : List (Nat × Int)) : List (Nat × Int) :=
  if defs.any fun d => ready.contains d.1 && decide (d.2 ≥ 0) then defs
  else defs.map fun d =>
    if ready.contains d.1 then (d.1, min (d.2 + s.weight d.1) (4 * s.weight d.1)) else (d.1, min d.2 0)

/-- The context of the largest deficit, ties to the lowest resident index. -/
def bestContext (ready : List Nat) (defs : List (Nat × Int)) : Option Nat :=
  ((defs.filter fun d => ready.contains d.1 && decide (d.2 ≥ 0)).foldl (fun (b : Option (Nat × Int)) d =>
    match b with
    | none => some d
    | some x => if x.2 < d.2 then some d else b) none).map Prod.fst

/-- Whether a warp has issued in this cycle. -/
def State.issuedNow (s : State) (w : Nat) : Bool := (s.slice (sliceKey w)).issued == s.now w + 1 && (s.warp w).issuedAt == s.now w

/-- Whether every member of a warp's gang is ready, or has issued in this cycle (R368). -/
noncomputable def State.gangReady (s : State) (w : Nat) : Bool :=
  let g := (s.warp w).gang
  g != 0 && s.warps.all fun e => e.2.gang != g || s.issuedNow e.1 || s.ready e.1

/-- The cycle, plus one, from which a ready split has been ready: this one, unless an earlier one left it ready (R368). -/
def State.readyFrom (s : State) (w : Nat) : Nat := if (s.warp w).readySince = 0 then s.now w + 1 else (s.warp w).readySince

/-- The warp that became ready earliest, ties to the lowest warp id. -/
def State.earliest (s : State) (ws : List Nat) : Option Nat :=
  ws.foldl (fun (b : Option Nat) w =>
    match b with
    | none => some w
    | some x => if s.readyFrom w < s.readyFrom x then some w else b) none

/-- Whether a split was ready in this cycle and did not issue: the pipe that another word of its slice took was free for it too. -/
noncomputable def State.passedOver (s : State) (w : Nat) : Bool :=
  !s.issuedNow w && !s.masked (coreOf w) && s.runnable w && (s.warp w).park == .none && s.spaced w
    && ((s.slice (sliceKey w)).taken == s.now w + 1 || s.unitFree w)

/-- Notes, at the end of a cycle, since when each split has been ready. -/
noncomputable def State.noteReady (s : State) : State :=
  { s with warps := Store.mapVals {} s.warps fun w x =>
      if !s.ticks (coreOf w) then x else { x with readySince := if s.passedOver w then s.readyFrom w else 0 } }

/-- The warp of a context that a slice chooses (R368): one of a full gang first, then the earliest ready. Of several full gangs on
one slice the earliest ready takes precedence, as R56 has the oldest first: the model's reading (log 7). -/
noncomputable def State.chooseWarp (s : State) (ws : List Nat) : Option Nat :=
  let gs := ws.filter fun w => s.gangReady w
  s.earliest (if gs.isEmpty then ws else gs)

/-- The contexts of some warps. -/
def State.ctxsOf (s : State) (ws : List Nat) : List Nat := (ws.map fun w => s.ctxOf w).eraseDups

/-- What a slice issues in this cycle, and its deficits after the choice; nothing when no split is ready. One replenishment in a
cycle: a context still below 0 waits, and keeps what it gained (`carry`). -/
noncomputable def State.chooseSlice (s : State) (k : Nat) : Option (Nat × State) :=
  let rs := (s.sliceWarps k).filter s.ready
  if rs.isEmpty then none
  else
    let cs := s.ctxsOf rs
    let defs := s.replenish cs (s.deficits k)
    let s1 : State := { s with slices := Store.set {} s.slices k { s.slice k with defs := defs } }
    match bestContext cs defs with
    | none => none
    | some c => (s.chooseWarp (rs.filter fun w => s.ctxOf w == c)).map fun w => (w, s1)

/-- The next slice from `slicePtr` on that issues a word: the slice, the warp, and the state with its deficits. -/
noncomputable def State.issuer (s : State) : Option (Nat × Nat × State) :=
  (s.activeSlices.filter fun k => decide (s.slicePtr ≤ k) && s.ticks (k / 16) && !s.sliceIssued k).findSome? fun k =>
    (s.chooseSlice k).map fun p => (k, p.1, p.2)

/-- Marks a warp's context as one that issued a word in this second (R467). -/
def State.usedBy (s : State) (w : Nat) : State := s.modCtx (s.ctxOf w) fun c => { c with usedSec := true }

/-- After a slice has tried a word: the slice is done for this cycle, or the word has not issued, and the slice chooses again with
the deficits it had, since no split of that warp was ready. -/
def State.closeTry (s : State) (k w : Nat) (old : Slice) : State :=
  if s.sliceIssued k then { s with slicePtr := k + 1 }.usedBy w
  else { s with slices := Store.set {} s.slices k old, slicePtr := k }

/-- A split-table entry whose time-out has expired: the warp, the entry, and whether it is a REGANG, which expires while it is
SUSPENDED too. -/
def State.expiring (s : State) : Option (Nat × Nat × Bool) :=
  s.warps.findSome? fun p => (p.2.valid.find? fun e => (p.2.split e).due).map fun e => (p.1, e, p.2.codeOf e == 5)

/-! ### Stalled slots (R433 to R436) -/

/-- The reason of a warp that does not issue, as its place in the list of R435 and its leaf. -/
def State.stall (s : State) (w : Nat) : Nat × Nat :=
  let x := s.warp w
  let st := (x.valid.map fun e => (x.split e).state)
  if x.whalt || x.doubled || (decide (x.run < 8) && x.cur.m &&& ~~~x.thalt == 0) then (1, 0x12)
  else if x.run ≥ 8 ∧ st.contains .parked then (2, 0x0D)
  else if x.run ≥ 8 then (3, 0x0E)
  else match x.park with
    | .tile => (4, 0x0C)
    | .none => (7, 0x10)
    | .fetch .. => (6, 0x0F)
    | .retry => if x.tried then (5, 0x0B) else (6, 0x0F)
    | _ => (5, 0x0B)

/-- The stall of a slice: the warp whose reason is latest in the list, ties to the lowest warp id, and its leaf. -/
def State.sliceStall (s : State) (ws : List Nat) : Option (Nat × Nat) :=
  (ws.foldl (fun (b : Option (Nat × Nat × Nat)) w =>
    let r := s.stall w
    match b with
    | none => some (w, r)
    | some y => if y.2.1 < r.1 then some (w, r) else b) none).map fun y => (y.1, y.2.2)

/-- The context that R366 would have chosen on a slice whose cluster's pattern masks the cycle, or that of the stall (R436). -/
noncomputable def State.throttledCtx (s : State) (k : Nat) : Option Nat :=
  let rs := (s.sliceWarps k).filter s.nearReady
  let cs := s.ctxsOf rs
  match bestContext cs (s.replenish cs (s.deficits k)) with
  | some c => some c
  | none => (s.sliceStall (s.sliceWarps k)).map fun p => s.ctxOf p.1

/-- Counts the slot of a slice that has issued nothing in this cycle: SWAP to the incoming context, THROTTLED, or a stall; the
slots of NOWARP are those that no other leaf counts (`nowarpSlots`). -/
noncomputable def State.countIdle (s : State) (k : Nat) : State :=
  let core := k / 16
  if !s.ticks core || s.sliceIssued k then s
  else if s.halting core then s.countSwap k
  else if s.masked core then s.countSlot k (s.throttledCtx k) 0x11
  else match s.sliceStall (s.sliceWarps k) with
    | none => s
    | some (w, leaf) => s.countSlot k (some (s.ctxOf w)) leaf

/-- The NOWARP slots of a slice: the cycles of its clock that are in no other leaf (R433, R436). -/
def State.nowarpSlots (s : State) (k : Nat) : Nat :=
  s.cycle (k / 16) - ((List.range 32).map fun l => Store.get 0 s.slots (k * 32 + l)).sum

/-- The slices whose slots are counted one by one: those with a warp, those of a halting core, and those of a masked cluster. -/
def State.countedSlices (s : State) : List Nat :=
  let cores := ((s.cores.map Prod.fst).filter s.halting ++ (s.clusters.flatMap fun e => (List.range 4).map (4 * e.1 + ·)).filter s.masked).eraseDups
  (s.activeSlices ++ cores.flatMap fun c => (List.range 16).map (16 * c + ·)).eraseDups

/-! ### The end of a cycle and of a tick -/

/-- Counts a timeout down (R122, R126); an entry that falls to 0 expires at the end of the next cycle. -/
def Split.tickDown (p : Split) : Split :=
  if (p.state = .joinWait ∨ p.state = .gangWait) ∧ p.timeout ≠ 0 then
    { p with timeout := p.timeout - 1, due := p.timeout == 1 }
  else p

/-- A slice whose ready contexts all stay below 0 keeps its replenished deficits (R366). -/
noncomputable def State.carry (s : State) (k : Nat) : State :=
  let rs := (s.sliceWarps k).filter s.ready
  if rs.isEmpty || s.sliceIssued k then s
  else { s with slices := Store.set {} s.slices k { s.slice k with defs := s.replenish (s.ctxsOf rs) (s.deficits k) } }

/-- The end of the cycles of this pass: idle slots, and pattern registers (R451). -/
noncomputable def State.endCycle (s : State) : State :=
  let s1 := s.noteReady.countedSlices.foldl (fun s k => (s.carry k).countIdle k) s.noteReady
  { s1 with
    clusters := Store.mapVals {} s1.clusters fun c k => if s1.ticks (4 * c) then { k with pattern := k.pattern.rotateRight 1 } else k
    sub := s1.sub + 1, slicePtr := 0 }

/-- Whether another cycle of a clock begins in this nanosecond (R4); a cluster at step 0 has at most one. -/
def State.moreCycles (s : State) : Bool := s.clusters.any fun e => decide (s.cycle (4 * e.1) + 1 < s.cycleEnd (4 * e.1))

/-- The end of a nanosecond: time-outs, deficits of contexts that have left their slices, the tick. -/
noncomputable def State.endTick (s : State) : State :=
  let s1 := s.endCycle
  { s1 with
    warps := Store.mapVals {} s1.warps fun _ x =>
      if x.splits.any fun e => e.2.timeout != 0 then { x with splits := Store.mapVals {} x.splits fun _ p => p.tickDown } else x
    slices := (s1.activeSlices ++ s1.slices.map Prod.fst).eraseDups.foldl (fun m k =>
      Store.set {} m k { Store.get ({} : Slice) m k with defs := s1.deficits k }) s1.slices
    tick := if s1.holdTick then s1.tick else s1.tick + 1, holdTick := false, time := s1.time + 1, sub := 0 }

/-- What a machine step does: a due event, a stepped word, the end of a wait, a slice's word, an expiry, or the end of the cycle or
the tick. -/
noncomputable def act (s : State) : Out :=
  match s.due with
  | some e => exec e.2 { s with calendar := s.calendar.erase e }
  | none =>
    if s.stopped then .next s
    else match s.stepping with
      | some w => stepWord s w
      | none => match s.ending with
        | some w => .next (s.endPark w)
        | none => match s.polling with
          | some w => pollWord s w
          | none => match s.issuer with
            | some (k, w, s1) =>
              (match runWord { s1 with cur := w } with
              | .next t => .next (t.closeTry k w (s.slice k))
              | o => o)
            | none => match s.expiring with
              | some (w, e, gang) => exec (if gang then .regangTimeoutExpiry w e else .joinTimeoutExpiry w e) s
              | none => .next (if s.moreCycles then s.endCycle else s.endTick)

/-- What the home L2 brings about of itself after each step: a stopped device's notifies nobody (R340, R375, R432). -/
def State.notified (s : State) : State := if s.stopped then s else s.notifyWakes.flushHeld

/-- The warp that `withFetchWord` makes resident: thread 0 of warp 0 on core 0 at PC 0. -/
def probeWarp : Warp :=
  { resident := true, live := 1, nsregs := 64, allot := 64
    splits := [(0, { state := .running, pc := 0, m := 1, a := 1 })] }

end Sys2Proof.Machine
end

