-- ==== Sys2Proof/Machine/Step.lean ====
section
/-! DEFINITION. One machine step, and the machine about to run one given word. -/

namespace Sys2Proof.Machine

/-- One step of the machine. -/
noncomputable def step (s : State) : Host.Outcome State Fault Refusal :=
  match act { s with serial := s.serial + 1 } with
  | .next s1 => .next s1.notified
  | .fault f => .fault f
  | .refused r => .refused r

/-- The machine about to issue one word: a launch of context 0 with one warp, its code page mapped at physical page 0 and
holding the word's bytes, and no event due. -/
def State.withFetchWord (s : State) (nbits w : Nat) : State :=
  { s with
    stopped := false, calendar := s.calendar.filter fun e => decide (s.tick.toNat < e.1), slicePtr := 0, sub := 0
    slices := (List.range 16).foldl (fun m k => Store.erase m k) s.slices
    warps := [(0, probeWarp)]
    wgs := [(0, { resident := true, warps := [0] })]
    launches := [(0, { active := true, gridX := 1, gridY := 1, gridZ := 1
                       roles := [{ warps := 1, vregs := 64, sregs := 64, threads := 1 }] })]
    ctxs := Store.erase s.ctxs 0
    cores := [(0, { tlb := [{ part := 16, asid := 0, ctx := 0, vpage := 0, size := 13, pa := 0, rd := true, wr := true, ex := true
                              sys := false, d := true }] })]
    clusters := Store.set {} s.clusters 0 { since := s.time }, zeroing := []
    l2 := (leBytes 8 (w % 2 ^ nbits)).zipIdx.foldl (fun m p => Store.set none m p.2 (some p.1)) s.l2 }

end Sys2Proof.Machine
end

