-- ==== Sys2Proof/Safety.lean ====
section
/-! DEFINITION. The terms in which claims are stated: what a word needs so that it performs (R18, R28, R79, R93, R142), what
it may change, and, family by family, the result that the spec gives it. Nothing here runs; the meanings are in Machine/. -/

namespace Sys2Proof.Safety

open Sys2Proof.Machine

/-! ### The warp that issues -/

/-- The warp that `cur` names. -/
abbrev me (s : State) : Warp := s.warp s.cur

/-- No watch of the warp's core is armed (R252), so that none is hit. -/
def unwatched (s : State) : Bool := (s.bank s.cur).all fun e => !e.2.armed

/-- The warp is resident and has a RUNNING split (R34), no watch looks at it, its log holds no refused entry (R319), and no store of it has
performed in part (R280). -/
def issuing (s : State) : Bool :=
  (me s).resident && decide ((me s).run < 8) && unwatched s && (me s).refusedEntry.isNone && (me s).rest.isEmpty

/-- The registers lie in the warp's windows (R28, R29). -/
def inWindow (x : Warp) (ss vs : List Nat) : Bool :=
  ss.all (fun r => decide (r < x.nsregs ∨ r ≥ 61)) && vs.all fun r => decide (r < x.allot)

/-- HAZCHK is 0 for the warp, or no pending long-latency write goes to one of the registers (R93) or to the mask in s61 to s63,
under which every word is issued (R58). -/
def settled (s : State) (ss vs : List Nat) : Bool :=
  !s.hazardChecks s.cur
    || (me s).pending.all fun p => p.regs.all fun r => if p.scalar then decide (r < 61) && !ss.contains r else !vs.contains r

/-- Scalar registers hold no poison (R334). -/
def cleanS (x : Warp) (ss : List Nat) : Bool := ss.all fun r => !x.spoison.getLsbD r
/-- No active thread's elements of some vector registers are poisoned (R334). -/
def cleanV (x : Warp) (vs : List Nat) : Bool :=
  vs.all fun r => (threads x.active).all fun t => !x.poisonV r t 0 && !x.poisonV r t 1

/-! ### What a word leaves alone -/

/-- A word that works on registers changes, outside its warp, only the slice's deficits and the counts of slots (R366, R433):
no byte of memory, no other warp, no register of a context. -/
def onlyWarp (s t : State) : Prop :=
  t = { s with warps := t.warps, slices := t.slices, slots := t.slots, ctxs := t.ctxs }
  ∧ (∀ v, v ≠ s.cur → t.warp v = s.warp v)
  ∧ (∀ c, t.ctx c = { s.ctx c with counts := (t.ctx c).counts })

/-- Memory and the queues, which a write at the home L2 may ring (R340), are in their canonical form, and all that HBM holds was
enciphered under the keys in force (R465), so that a line leaves the L2 and comes back as it was. All hold after reset. -/
def plainMemory (s : State) : Prop := Memory.wf s = true ∧ s.keysStand ∧ Store.wf {} s.queues = true

/-- Every byte of memory reads as before, for every core and at its home L2. -/
def sameMemory (s t : State) : Prop :=
  (∀ core pa, t.coreRead core pa = s.coreRead core pa) ∧ ∀ pa, t.l2Read pa = s.l2Read pa

/-- No access is about to go on (R318). -/
abbrev noneReady (s : State) : Prop := ∀ e ∈ s.warps, ∀ l ∈ e.2.log, l.wait ≠ .ready

/-- The same of every physical address, in the 40 bits that they have (R304). -/
def sameReads (s t : State) : Prop :=
  (∀ core pa, pa < 2 ^ 40 → t.coreRead core pa = s.coreRead core pa) ∧ ∀ pa, t.l2Read pa = s.l2Read pa

/-- The running split has moved to a PC and keeps its place; the other splits are as before. `y.cur.a` may differ. -/
def movedTo (x y : Warp) (pc : Word) : Prop :=
  y.run = x.run ∧ (∀ e, e ≠ x.run → y.split e = x.split e) ∧ y.cur = { x.cur with pc := pc, a := y.cur.a }

/-- What every retired word does to its warp's book-keeping: RC counts it, and its place and time of issue are noted. The
other fields are those of `x`. -/
def booked (x y : Warp) : Warp :=
  { x with rc := x.rc + 1, resumeFrom := 0, readyAt := y.readyAt, tried := false, issuedAt := y.issuedAt, issuedPc := y.issuedPc
           park := y.park, splits := y.splits }
/-- The same of a word by which its warp may leave its gang, or go on in it (R38). -/
def bookedApart (x y : Warp) : Warp := { booked x y with gang := y.gang, gangPath := y.gangPath }
/-- Another warp of the gang may be left alone, or follow (R38). -/
def apartFrom (s t : State) : Prop :=
  ∀ v, v ≠ s.cur → t.warp v = { s.warp v with gang := (t.warp v).gang, gangPath := (t.warp v).gangPath }
    ∧ ((me s).gang = 0 ∨ (s.warp v).gang ≠ (me s).gang → t.warp v = s.warp v)

/-! ### Scalar words -/

/-- A word that computes scalar registers once (R24). -/
structure ScalarSpec where
  /-- The scalar registers read, those written, and the fields that must be even. -/
  reads : List Nat
  writes : List Nat
  even : List Nat := []
  /-- Vector registers named. -/
  vs : List Nat := []
  /-- What the word asks of the state besides. -/
  ok : State → Bool := fun _ => true
  /-- Words the instruction takes. -/
  len : Nat := 1
  /-- The values of the registers written, in order. -/
  value : State → List Word

/-- The operands are such that the word performs. -/
def ScalarSpec.fits (p : ScalarSpec) (s : State) : Bool :=
  inWindow (me s) (p.writes ++ p.reads) p.vs && p.even.all (fun r => r % 2 == 0) && cleanS (me s) p.reads
    && settled s (p.writes ++ p.reads) p.vs && p.ok s

/-- What a scalar register reads as after a write: s0 stays zero (R27), and s61 to s63 take only threads of M (R22). -/
def readBack (x : Warp) (r : Nat) (v : Word) : Word :=
  if r = 0 then 0 else if r ≥ 61 then v &&& maskWord x.cur.m (r - 61) else v

/-- The effect of a scalar word: its destinations hold its values, the PC passes the word, all else is unchanged. -/
def ScalarSpec.done (p : ScalarSpec) (s t : State) : Prop :=
  onlyWarp s t ∧ sameMemory s t
  ∧ me t = { booked (me s) (me t) with sregs := (me t).sregs, spoison := (me t).spoison }
  ∧ movedTo (me s) (me t) ((me s).pc + BitVec.ofNat 32 p.len)
  ∧ (∀ r, r < 64 → (me t).readS r = match (p.writes.zip (p.value s)).lookup r with
      | some v => readBack (me s) r v
      | none => (me s).readS r)
  ∧ (∀ r, r < 61 → (me t).spoison.getLsbD r = ((me s).spoison.getLsbD r && (r == 0 || !p.writes.contains r)))

/-- D := f(A, B). -/
def sBin (d a b : BitVec 6) (f : Word → Word → Word) : Option ScalarSpec :=
  some { writes := [d.toNat], reads := [a.toNat, b.toNat], value := fun s => [f ((me s).readS a.toNat) ((me s).readS b.toNat)] }
/-- D := f(A). -/
def sUn (d a : BitVec 6) (f : Word → Word) : Option ScalarSpec :=
  some { writes := [d.toNat], reads := [a.toNat], value := fun s => [f ((me s).readS a.toNat)] }
/-- D := f(A), of two words. -/
def sLit (d a : BitVec 6) (f : Word → Word) : Option ScalarSpec := (sUn d a f).map fun p => { p with len := 2 }
/-- D := f(A, B, D). -/
def sTri (d a b : BitVec 6) (f : Word → Word → Word → Word) : Option ScalarSpec :=
  some { writes := [d.toNat], reads := [a.toNat, b.toNat, d.toNat]
         value := fun s => [f ((me s).readS a.toNat) ((me s).readS b.toNat) ((me s).readS d.toNat)] }
/-- The pair D := f(A, B). -/
def sWide (d a b : BitVec 6) (f : Word → Word → DWord) : Option ScalarSpec :=
  some { writes := pair d, reads := [a.toNat, b.toNat], even := [d.toNat]
         value := fun s => let r := f ((me s).readS a.toNat) ((me s).readS b.toNat); [r.lo, r.hi] }
/-- The pair D := f(A, B) of pairs. -/
def sPair (d a b : BitVec 6) (f : DWord → DWord → DWord) : Option ScalarSpec :=
  some { writes := pair d, reads := pair a ++ pair b, even := [a.toNat, b.toNat, d.toNat]
         value := fun s => let r := f ((me s).readS2 a.toNat) ((me s).readS2 b.toNat); [r.lo, r.hi] }
/-- The pair D := f(A, B) of a pair and a register. -/
def sPairBy (d a b : BitVec 6) (f : DWord → Word → DWord) : Option ScalarSpec :=
  some { writes := pair d, reads := pair a ++ [b.toNat], even := [a.toNat, d.toNat]
         value := fun s => let r := f ((me s).readS2 a.toNat) ((me s).readS b.toNat); [r.lo, r.hi] }
/-- D := a value of the machine. -/
def sSys (d : BitVec 6) (f : State → Nat) : Option ScalarSpec :=
  some { writes := [d.toNat], reads := [], value := fun s => [BitVec.ofNat 32 (f s)] }

/-! ### Vector words -/

/-- A word that computes vector registers per active thread, or once (R20, R25). -/
structure VectorSpec where
  /-- Scalar and vector registers read; the vector registers written with the tags they take; fields that must be even. -/
  sreads : List Nat := []
  vreads : List Nat
  writes : List (Nat × Nat)
  even : List Nat := []
  len : Nat := 1
  /-- The class accepts the sources' tags (R78). -/
  tagsOk : Bool
  /-- The registers whose U bits make the word uniform; none for a word that never is (R25). -/
  uni : Option (List Nat)
  /-- The values of a thread, in the order of `writes`. -/
  value : Nat → List Word
  /-- The elements are written whole, which clears their marks (R335). -/
  whole : Bool := true
  /-- The generators the word steps, where it does (R69). -/
  gens : Option (Nat → Word) := none

/-- The word executes once. -/
def VectorSpec.uniform (p : VectorSpec) (s : State) : Bool :=
  match p.uni with
  | some rs => rs.all (me s).uBit
  | none => false

/-- The thread whose value a thread's destinations take. -/
def VectorSpec.from' (p : VectorSpec) (s : State) (t : Nat) : Nat := if p.uniform s then lowest (me s).active else t

/-- The operands are such that the word performs. -/
def VectorSpec.fits (p : VectorSpec) (s : State) : Bool :=
  let vs := p.writes.map Prod.fst ++ p.vreads
  inWindow (me s) p.sreads vs && p.even.all (fun r => r % 2 == 0) && decide ((me s).active ≠ 0)
    && p.vreads.all (fun r => (me s).tag r != 0) && p.tagsOk && cleanS (me s) p.sreads && cleanV (me s) p.vreads
    && settled s p.sreads vs

/-- The tag and U bit of each register after the word: a destination takes its tag, and U when the word was uniform with every
live thread active (R30). -/
def VectorSpec.tagged (p : VectorSpec) (s t : State) : Prop :=
  ∀ r, r < 64 → match p.writes.lookup r with
    | some g => (me t).tag r = BitVec.ofNat 4 g ∧ (me t).uBit r = (p.uniform s && (me s).active == (me s).live)
    | none => (me t).tag r = (me s).tag r ∧ (me t).uBit r = (me s).uBit r

/-- The effect of a vector word of fixed latency: active threads' elements hold its values, inactive threads' are unchanged. -/
def VectorSpec.done (p : VectorSpec) (s t : State) : Prop :=
  onlyWarp s t ∧ sameMemory s t
  ∧ me t = { booked (me s) (me t) with
      vregs := (me t).vregs, vpoison := (me t).vpoison, tags := (me t).tags, u := (me t).u
      lfsr := if p.gens.isSome then (me t).lfsr else (me s).lfsr }
  ∧ movedTo (me s) (me t) ((me s).pc + BitVec.ofNat 32 p.len) ∧ (me t).cur.a = (me s).cur.a
  ∧ p.tagged s t
  ∧ (∀ r k, r < 64 → k < 96 →
      match (if (me s).active.getLsbD k then ((p.writes.map Prod.fst).zip (p.value (p.from' s k))).lookup r else none) with
      | some v => (me t).readV r k = v ∧ (p.whole → ∀ h, h < 2 → (me t).poisonV r k h = false)
      | none => (me t).readV r k = (me s).readV r k ∧ ∀ h, h < 2 → (me t).poisonV r k h = (me s).poisonV r k h)
  ∧ (∀ g, p.gens = some g → ∀ k, k < 96 →
      (me t).gen s.cur k = if (me s).active.getLsbD k && p.from' s k == k then g k else (me s).gen s.cur k)

/-- A record of a long-latency word: the registers and threads it will write, with all their data (R91). -/
def holdsData (q : Pending) (scalar : Bool) (regs : List Nat) (ts : List Nat) (value : Nat → List Word) : Prop :=
  q.scalar = scalar ∧ q.regs = regs ∧ q.held = 0 ∧ q.poison = [] ∧ (∀ k, k < 96 → q.threads.getLsbD k = ts.contains k)
  ∧ ∀ k, k ∈ ts → ∀ j, j < regs.length → (value k)[j]? = some (Store.get 0 q.data (regs.getD j 0 * 96 + k))

/-- The state with the parts of `t` that every retired word keeps books in. -/
def booksOf (s t : State) : State := { s with warps := t.warps, slices := t.slices, slots := t.slots, ctxs := t.ctxs, memCtx := t.memCtx }
/-- The other warps are as before. -/
def othersKept (s t : State) : Prop := ∀ v, v ≠ s.cur → t.warp v = s.warp v
/-- The contexts are as before but for their event counts. -/
def ctxsKept (s t : State) : Prop := ∀ c, t.ctx c = { s.ctx c with counts := (t.ctx c).counts }

/-- Outside its warp a long-latency word also takes names, one free value per event, and puts its events on the calendar:
one LONG_LATENCY_WRITE per thread, in a later tick. `base` holds the rest of the state. -/
def postsWrites (base s t : State) (id : Nat) (ts : List Nat) : Prop :=
  t = { base with names := t.names, free := s.free + ts.length, calendar := t.calendar }
  ∧ othersKept s t ∧ ctxsKept s t
  ∧ ∃ new : List (Nat × Instr), t.calendar = s.calendar ++ new ∧ new.map Prod.snd = ts.map (fun k => .longLatencyWrite s.cur id k)
      ∧ ∀ e ∈ new, s.tick.toNat < e.1

/-- The effect at issue of a long-latency vector word: tags and U are set, and one record holds every active thread's data. -/
def VectorSpec.posted (p : VectorSpec) (base s t : State) : Prop :=
  postsWrites base s t s.names (threads (me s).active)
  ∧ (∃ q, me t = { booked (me s) (me t) with
        tags := (me t).tags, u := (me t).u, pending := (me s).pending ++ [q] }
      ∧ q.id = s.names ∧ holdsData q false (p.writes.map Prod.fst) (threads (me s).active) fun k => p.value (p.from' s k))
  ∧ movedTo (me s) (me t) ((me s).pc + BitVec.ofNat 32 p.len) ∧ (me t).cur.a = (me s).cur.a
  ∧ p.tagged s t

/-- The effect at issue of a long-latency scalar word: one record, of thread 0, holds its registers' values. -/
def ScalarSpec.posted (p : ScalarSpec) (base s t : State) : Prop :=
  postsWrites base s t s.names [0]
  ∧ (∃ q, me t = { booked (me s) (me t) with pending := (me s).pending ++ [q] }
      ∧ q.id = s.names ∧ holdsData q true p.writes [0] fun _ => p.value s)
  ∧ movedTo (me s) (me t) ((me s).pc + BitVec.ofNat 32 p.len) ∧ (me t).cur.a = (me s).cur.a

/-- Sources of one word each, over 32-bit tags (R78, R139). -/
def vSpec (s : State) (vs : List Nat) (writes : List (Nat × Nat)) (value : Nat → List Word) : Option VectorSpec :=
  some { vreads := vs, writes := writes, tagsOk := vs.all fun r => is32 ((me s).tag r), uni := some vs, value := value }
def vBin (s : State) (tag : Nat) (d a b : BitVec 6) (f : Word → Word → Word) : Option VectorSpec :=
  vSpec s [a.toNat, b.toNat] [(d.toNat, tag)] fun t => [f ((me s).readV a.toNat t) ((me s).readV b.toNat t)]
def vUn (s : State) (tag : Nat) (d a : BitVec 6) (f : Word → Word) : Option VectorSpec :=
  vSpec s [a.toNat] [(d.toNat, tag)] fun t => [f ((me s).readV a.toNat t)]
def vLit (s : State) (d a : BitVec 6) (f : Word → Word) : Option VectorSpec := (vUn s 2 d a f).map fun p => { p with len := 2 }
def vTri (s : State) (d a b : BitVec 6) (f : Word → Word → Word → Word) : Option VectorSpec :=
  vSpec s [a.toNat, b.toNat, d.toNat] [(d.toNat, 2)] fun t =>
    [f ((me s).readV a.toNat t) ((me s).readV b.toNat t) ((me s).readV d.toNat t)]
def vWide (s : State) (d a b : BitVec 6) (f : Word → Word → DWord) : Option VectorSpec :=
  (vSpec s [a.toNat, b.toNat] [(d.toNat, 14), (d.toNat + 1, 15)] fun t =>
    let r := f ((me s).readV a.toNat t) ((me s).readV b.toNat t); [r.lo, r.hi]).map fun p => { p with even := [d.toNat] }
/-- Pairs tagged I64 and HI (R158). -/
def vPair (s : State) (d a b : BitVec 6) (f : DWord → DWord → DWord) : Option VectorSpec :=
  some { vreads := pair a ++ pair b, writes := [(d.toNat, 14), (d.toNat + 1, 15)], even := [a.toNat, b.toNat, d.toNat]
         tagsOk := isI64 (me s) a.toNat && isI64 (me s) b.toNat, uni := some (pair a ++ pair b)
         value := fun t => let r := f ((me s).readV2 a.toNat t) ((me s).readV2 b.toNat t); [r.lo, r.hi] }
def vPairBy (s : State) (d a b : BitVec 6) (f : DWord → Word → DWord) : Option VectorSpec :=
  some { vreads := pair a ++ [b.toNat], writes := [(d.toNat, 14), (d.toNat + 1, 15)], even := [a.toNat, d.toNat]
         tagsOk := isI64 (me s) a.toNat && is32 ((me s).tag b.toNat), uni := some (pair a ++ [b.toNat])
         value := fun t => let r := f ((me s).readV2 a.toNat t) ((me s).readV b.toNat t); [r.lo, r.hi] }

/-! ### Integer results (R60, R144 to R149, R158), written from their tables -/

/-- Signed and unsigned saturation to 32 bits (R60). -/
def satS (v : Int) : Word := if v < -2147483648 then 0x80000000 else if 2147483647 < v then 0x7FFFFFFF else BitVec.ofInt 32 v
def satU (v : Int) : Word := if v < 0 then 0 else if 4294967295 < v then 0xFFFFFFFF else BitVec.ofInt 32 v
/-- Shifts by the whole amount (R145): 32 or more gives 0, or copies of the sign. -/
def leftBy (x y : Word) : Word := if 32 ≤ y.toNat then 0 else x <<< y.toNat
def rightBy (x y : Word) : Word := if 32 ≤ y.toNat then 0 else x >>> y.toNat
def arithBy (x y : Word) : Word := if 32 ≤ y.toNat then (if x.msb then 0xFFFFFFFF else 0) else x.sshiftRight y.toNat
def rotateBy (x y : Word) : Word := x.rotateLeft (y.toNat % 32)
/-- Quotients and remainders with their corners (R60). -/
def quotS (x y : Word) : Word := if y = 0 then 0xFFFFFFFF else BitVec.ofInt 32 (x.toInt.tdiv y.toInt)
def quotU (x y : Word) : Word := if y = 0 then 0xFFFFFFFF else BitVec.ofNat 32 (x.toNat / y.toNat)
def restS (x y : Word) : Word := if y = 0 then x else BitVec.ofInt 32 (x.toInt.tmod y.toInt)
def restU (x y : Word) : Word := if y = 0 then x else BitVec.ofNat 32 (x.toNat % y.toNat)
/-- Products (R147). -/
def prodS (x y : Word) : DWord := BitVec.ofInt 64 (x.toInt * y.toInt)
def prodU (x y : Word) : DWord := BitVec.ofNat 64 (x.toNat * y.toNat)

/-- Additions, logic, minima and the like, scalar (R144, R146). -/
def scalarArith : Instr → Option ScalarSpec
  | .addScalar _ d a b => sBin d a b fun x y => x + y
  | .subScalar _ d a b => sBin d a b fun x y => x - y
  | .andScalar _ d a b => sBin d a b fun x y => x &&& y
  | .orScalar _ d a b => sBin d a b fun x y => x ||| y
  | .xorScalar _ d a b => sBin d a b fun x y => x ^^^ y
  | .andnScalar _ d a b => sBin d a b fun x y => x &&& ~~~y
  | .ornScalar _ d a b => sBin d a b fun x y => x ||| ~~~y
  | .minScalar _ d a b => sBin d a b fun x y => if x.toInt ≤ y.toInt then x else y
  | .maxScalar _ d a b => sBin d a b fun x y => if x.toInt ≤ y.toInt then y else x
  | .minnScalar _ d a b => sBin d a b fun x y => if x.toNat ≤ y.toNat then x else y
  | .maxnScalar _ d a b => sBin d a b fun x y => if x.toNat ≤ y.toNat then y else x
  | .absScalar _ d a => sUn d a fun x => if x.toInt < 0 then -x else x
  | .negScalar _ d a => sUn d a fun x => -x
  | .addsatScalar _ d a b => sBin d a b fun x y => satS (x.toInt + y.toInt)
  | .subsatScalar _ d a b => sBin d a b fun x y => satS (x.toInt - y.toInt)
  | .addsatnScalar _ d a b => sBin d a b fun x y => satU (x.toNat + y.toNat)
  | .subsatnScalar _ d a b => sBin d a b fun x y => satU ((x.toNat : Int) - y.toNat)
  | .addiScalar _ d a i => sUn d a fun x => x + i.signExtend 32
  | .addlScalar _ d a lit => sLit d a fun x => x + lit
  | .andlScalar _ d a lit => sLit d a fun x => x &&& lit
  | .orlScalar _ d a lit => sLit d a fun x => x ||| lit
  | _ => none

/-- The same, vector. -/
def vectorArith (i : Instr) (s : State) : Option VectorSpec :=
  match i with
  | .addVector _ d a b => vBin s 2 d a b fun x y => x + y
  | .subVector _ d a b => vBin s 2 d a b fun x y => x - y
  | .andVector _ d a b => vBin s 2 d a b fun x y => x &&& y
  | .orVector _ d a b => vBin s 2 d a b fun x y => x ||| y
  | .xorVector _ d a b => vBin s 2 d a b fun x y => x ^^^ y
  | .andnVector _ d a b => vBin s 2 d a b fun x y => x &&& ~~~y
  | .ornVector _ d a b => vBin s 2 d a b fun x y => x ||| ~~~y
  | .minVector _ d a b => vBin s 2 d a b fun x y => if x.toInt ≤ y.toInt then x else y
  | .maxVector _ d a b => vBin s 2 d a b fun x y => if x.toInt ≤ y.toInt then y else x
  | .minnVector _ d a b => vBin s 3 d a b fun x y => if x.toNat ≤ y.toNat then x else y
  | .maxnVector _ d a b => vBin s 3 d a b fun x y => if x.toNat ≤ y.toNat then y else x
  | .absVector _ d a => vUn s 2 d a fun x => if x.toInt < 0 then -x else x
  | .negVector _ d a => vUn s 2 d a fun x => -x
  | .addsatVector _ d a b => vBin s 2 d a b fun x y => satS (x.toInt + y.toInt)
  | .subsatVector _ d a b => vBin s 2 d a b fun x y => satS (x.toInt - y.toInt)
  | .addsatnVector _ d a b => vBin s 3 d a b fun x y => satU (x.toNat + y.toNat)
  | .subsatnVector _ d a b => vBin s 3 d a b fun x y => satU ((x.toNat : Int) - y.toNat)
  | .addiVector _ d a i => vUn s 2 d a fun x => x + i.signExtend 32
  | .addlVector _ d a lit => vLit s d a fun x => x + lit
  | .andlVector _ d a lit => vLit s d a fun x => x &&& lit
  | .orlVector _ d a lit => vLit s d a fun x => x ||| lit
  | _ => none

/-- Shifts, bit counts and bit fields, scalar (R145, R146, R149). -/
def scalarBits : Instr → Option ScalarSpec
  | .shlScalar _ d a b => sBin d a b leftBy
  | .shrScalar _ d a b => sBin d a b rightBy
  | .sraScalar _ d a b => sBin d a b arithBy
  | .rotScalar _ d a b => sBin d a b rotateBy
  | .shliScalar _ d a n => sUn d a fun x => x <<< n.toNat
  | .shriScalar _ d a n => sUn d a fun x => x >>> n.toNat
  | .sraiScalar _ d a n => sUn d a fun x => x.sshiftRight n.toNat
  | .rotiScalar _ d a n => sUn d a fun x => x.rotateLeft n.toNat
  | .popcScalar _ d a => sUn d a popcW
  | .clzScalar _ d a => sUn d a clzW
  | .ctzScalar _ d a => sUn d a ctzW
  | .brevScalar _ d a => sUn d a brevW
  | .bswapScalar _ d a => sUn d a bswapW
  | .bfxScalar _ d a b => sBin d a b (bfxW true)
  | .bfxnScalar _ d a b => sBin d a b (bfxW false)
  | .bfiScalar _ d a b => sTri d a b fun x c z => bfiW z x c
  | _ => none

/-- The same, vector. -/
def vectorBits (i : Instr) (s : State) : Option VectorSpec :=
  match i with
  | .shlVector _ d a b => vBin s 2 d a b leftBy
  | .shrVector _ d a b => vBin s 2 d a b rightBy
  | .sraVector _ d a b => vBin s 2 d a b arithBy
  | .rotVector _ d a b => vBin s 2 d a b rotateBy
  | .shliVector _ d a n => vUn s 2 d a fun x => x <<< n.toNat
  | .shriVector _ d a n => vUn s 2 d a fun x => x >>> n.toNat
  | .sraiVector _ d a n => vUn s 2 d a fun x => x.sshiftRight n.toNat
  | .rotiVector _ d a n => vUn s 2 d a fun x => x.rotateLeft n.toNat
  | .popcVector _ d a => vUn s 2 d a popcW
  | .clzVector _ d a => vUn s 2 d a clzW
  | .ctzVector _ d a => vUn s 2 d a ctzW
  | .brevVector _ d a => vUn s 2 d a brevW
  | .bswapVector _ d a => vUn s 2 d a bswapW
  | .bfxVector _ d a b => vBin s 2 d a b (bfxW true)
  | .bfxnVector _ d a b => vBin s 3 d a b (bfxW false)
  | .bfiVector _ d a b => vTri s d a b fun x c z => bfiW z x c
  | _ => none

/-- Products and quotients, scalar (R147, R148). -/
def scalarMul : Instr → Option ScalarSpec
  | .mulScalar _ d a b => sBin d a b fun x y => x * y
  | .mulhiScalar _ d a b => sBin d a b fun x y => (prodS x y).hi
  | .mulhinScalar _ d a b => sBin d a b fun x y => (prodU x y).hi
  | .madScalar _ d a b => sTri d a b fun x y z => x * y + z
  | .mulwScalar _ d a b => sWide d a b prodS
  | .mulwnScalar _ d a b => sWide d a b prodU
  | .divScalar _ d a b => sBin d a b quotS
  | .divnScalar _ d a b => sBin d a b quotU
  | .remScalar _ d a b => sBin d a b restS
  | .remnScalar _ d a b => sBin d a b restU
  | _ => none

/-- The same, vector. -/
def vectorMul (i : Instr) (s : State) : Option VectorSpec :=
  match i with
  | .mulVector _ d a b => vBin s 2 d a b fun x y => x * y
  | .mulhiVector _ d a b => vBin s 2 d a b fun x y => (prodS x y).hi
  | .mulhinVector _ d a b => vBin s 3 d a b fun x y => (prodU x y).hi
  | .madVector _ d a b => vTri s d a b fun x y z => x * y + z
  | .mulwVector _ d a b => vWide s d a b prodS
  | .mulwnVector _ d a b => vWide s d a b prodU
  | .divVector _ d a b => vBin s 2 d a b quotS
  | .divnVector _ d a b => vBin s 3 d a b quotU
  | .remVector _ d a b => vBin s 2 d a b restS
  | .remnVector _ d a b => vBin s 3 d a b restU
  | _ => none

/-- The comparison word of CMP64 (R158): bit 0 equal, bit 1 signed less, bit 2 unsigned less. -/
def compare64 (a b : DWord) : Word :=
  BitVec.ofNat 32 ((if a = b then 1 else 0) + (if a.toInt < b.toInt then 2 else 0) + if a.toNat < b.toNat then 4 else 0)
def leftBy64 (a : DWord) (n : Word) : DWord := if 64 ≤ n.toNat then 0 else a <<< n.toNat
def rightBy64 (a : DWord) (n : Word) : DWord := if 64 ≤ n.toNat then 0 else a >>> n.toNat

/-- 64-bit forms and LEA, scalar (R157, R158). -/
def scalarPair : Instr → Option ScalarSpec
  | .add64Scalar _ d a b => sPair d a b fun x y => x + y
  | .sub64Scalar _ d a b => sPair d a b fun x y => x - y
  | .mul64Scalar _ d a b => sPair d a b fun x y => x * y
  | .cmp64Scalar _ d a b => some
      { writes := [d.toNat], reads := pair a ++ pair b, even := [a.toNat, b.toNat]
        value := fun s => [compare64 ((me s).readS2 a.toNat) ((me s).readS2 b.toNat)] }
  | .shl64Scalar _ d a b => sPairBy d a b leftBy64
  | .shr64Scalar _ d a b => sPairBy d a b rightBy64
  | .leaScalar _ h d a b => sPairBy d a b fun x y => x + (y.signExtend 64 <<< h.toNat)
  | _ => none

/-- The same, vector. -/
def vectorPair (i : Instr) (s : State) : Option VectorSpec :=
  match i with
  | .add64Vector _ d a b => vPair s d a b fun x y => x + y
  | .sub64Vector _ d a b => vPair s d a b fun x y => x - y
  | .mul64Vector _ d a b => vPair s d a b fun x y => x * y
  | .cmp64Vector _ d a b => some
      { vreads := pair a ++ pair b, writes := [(d.toNat, 2)], even := [a.toNat, b.toNat]
        tagsOk := isI64 (me s) a.toNat && isI64 (me s) b.toNat, uni := some (pair a ++ pair b)
        value := fun t => [compare64 ((me s).readV2 a.toNat t) ((me s).readV2 b.toNat t)] }
  | .shl64Vector _ d a b => vPairBy s d a b leftBy64
  | .shr64Vector _ d a b => vPairBy s d a b rightBy64
  | .leaVector _ h d a b => some
      { sreads := pair a, vreads := [b.toNat], writes := [(d.toNat, 14), (d.toNat + 1, 15)], even := [d.toNat, a.toNat]
        tagsOk := is32 ((me s).tag b.toNat), uni := some [b.toNat]
        value := fun t =>
          let r := (me s).readS2 a.toNat + ((me s).readV b.toNat t).signExtend 64 <<< h.toNat
          [r.lo, r.hi] }
  | _ => none

/-- Moves, selections and the mode, scalar destinations (R98, R131, R153 to R156, R182). -/
def scalarMove : Instr → Option ScalarSpec
  | .movScalar _ d a => sUn d a fun x => x
  | .moviScalar _ d i => some { writes := [d.toNat], reads := [], value := fun _ => [i.signExtend 32] }
  | .movhiScalar _ d i => some
      { writes := [d.toNat], reads := [d.toNat]
        value := fun s => [(BitVec.extractLsb 13 0 ((me s).readS d.toNat)).setWidth 32 ||| (i.setWidth 32 <<< 14)] }
  | .movlScalar _ d lit => some { writes := [d.toNat], reads := [], len := 2, value := fun _ => [lit] }
  | .selScalar _ n p d a b => some
      { writes := [d.toNat], reads := [a.toNat, b.toNat]
        value := fun s => [if (me s).q.getLsbD p.toNat != (n == 1#1) then (me s).readS a.toNat else (me s).readS b.toNat] }
  | .getmode _ d => some { writes := [d.toNat], reads := [], value := fun s => [(me s).mode.setWidth 32] }
  | .setquotaQuery _ d => some { writes := [d.toNat], reads := [], value := fun s => [BitVec.ofNat 32 (me s).allot] }
  | _ => none

/-- Moves and selections, vector destinations (R153 to R156, R181). RETAG copies marks, of which clean sources have none. -/
def vectorMove (i : Instr) (s : State) : Option VectorSpec :=
  match i with
  | .movVector _ d a => some
      { vreads := [a.toNat], writes := [(d.toNat, ((me s).tag a.toNat).toNat)], tagsOk := true, uni := some [a.toNat]
        value := fun t => [(me s).readV a.toNat t] }
  | .moviVector _ d i => vSpec s [] [(d.toNat, 2)] fun _ => [i.signExtend 32]
  | .movhiVector _ d i => vSpec s [d.toNat] [(d.toNat, 2)] fun t =>
      [(BitVec.extractLsb 13 0 ((me s).readV d.toNat t)).setWidth 32 ||| (i.setWidth 32 <<< 14)]
  | .movlVector _ d g lit => (vSpec s [] [(d.toNat, g.toNat)] fun _ => [lit]).map fun p => { p with len := 2 }
  | .movsv _ d a g => (vSpec s [] [(d.toNat, g.toNat)] fun _ => [(me s).readS a.toNat]).map fun p => { p with sreads := [a.toNat] }
  | .selVector _ n k p d a b => some
      { vreads := [a.toNat, b.toNat], writes := [(d.toNat, ((me s).tag a.toNat).toNat)]
        tagsOk := (me s).tag a.toNat == (me s).tag b.toNat, uni := if k = 1#1 then some [a.toNat, b.toNat] else none
        value := fun t =>
          let c := if k = 1#1 then (me s).q.getLsbD p.toNat else ((me s).pred p.toNat).getLsbD t
          [if c != (n == 1#1) then (me s).readV a.toNat t else (me s).readV b.toNat t] }
  | .retag _ d a g =>
      let w := isPair g.toNat
      some
      { vreads := if w then pair a else [a.toNat], writes := if w then [(d.toNat, g.toNat), (d.toNat + 1, 15)] else [(d.toNat, g.toNat)]
        even := if w then [d.toNat, a.toNat] else [], tagsOk := true, uni := some (if w then pair a else [a.toNat])
        value := fun t => if w then [(me s).readV a.toNat t, (me s).readV (a.toNat + 1) t] else [(me s).readV a.toNat t] }
  | .sysvTid _ d => some { vreads := [], writes := [(d.toNat, 3)], tagsOk := true, uni := none, value := fun t => [BitVec.ofNat 32 t] }
  | .sysvLane _ d => some
      { vreads := [], writes := [(d.toNat, 3)], tagsOk := true, uni := none, value := fun t => [BitVec.ofNat 32 (t % 4)] }
  | .sysvRank _ d => some
      { vreads := [], writes := [(d.toNat, 3)], tagsOk := true, uni := none, value := fun t => [BitVec.ofNat 32 (t / 4)] }
  | _ => none

/-- System values, scalar destinations (R132, R359). -/
def scalarSys : Instr → Option ScalarSpec
  | .sysvWid _ d => sSys d fun s => (me s).num
  | .sysvWgid _ d => sSys d fun s => (s.wg (me s).wg).wgid
  | .sysvWgx _ d => sSys d fun s => (s.wg (me s).wg).wgid % (s.launchOf s.cur).gridX
  | .sysvWgy _ d => sSys d fun s => (s.wg (me s).wg).wgid / (s.launchOf s.cur).gridX % (s.launchOf s.cur).gridY
  | .sysvWgz _ d => sSys d fun s => (s.wg (me s).wg).wgid / ((s.launchOf s.cur).gridX * (s.launchOf s.cur).gridY)
  | .sysvRole _ d => sSys d fun s => (me s).role
  | .sysvCore _ d => sSys d fun s => coreOf s.cur
  | .sysvSlice _ d => sSys d fun s => sliceOf s.cur
  | .sysvLaunch _ d => sSys d fun s => (s.launchOf s.cur).id.toNat
  | .sysvPart _ d => sSys d fun s => s.partNum (s.ctxOf s.cur)
  | .sysvGroups _ d => some
      { writes := pair d, reads := [], even := [d.toNat]
        value := fun s =>
          let gs := (s.launchOf s.cur).groupsOf (me s).num
          [BitVec.ofNat 32 (leNat (gs.map (BitVec.ofNat 8))), BitVec.ofNat 32 gs.length] }
  | _ => none

/-! ### Floating words (R165 to R173): the value of an element is that of the format's operation -/

/-- A floating word: destination, sources, whether it takes pairs of F64, whether its results are long-latency, and the element
function over a format and a mode. -/
structure FloatSpec where
  d : BitVec 6
  srcs : List Nat
  f64 : Bool
  long : Bool
  elem : Fmt → BitVec 11 → List Nat → FRes

/-- The operands of an element function, as the mode's FTZ reads them. -/
def arg (k : Fmt) (c : BitVec 11) (l : List Nat) (i : Nat) : Val := k.input (modeFtz c) (l.getD i 0)

/-- The floating words over sources of one tag. D is the third operand of the fused forms. -/
def floatTable : Instr → Option FloatSpec
  | .fadd _ d a b => some ⟨d, [a.toNat, b.toNat], true, false, fun k c l => k.addRes (modeArith c) (modeFtz c) (arg k c l 0) (arg k c l 1)⟩
  | .fsub _ d a b => some ⟨d, [a.toNat, b.toNat], true, false, fun k c l => k.addRes (modeArith c) (modeFtz c) (arg k c l 0) (arg k c l 1).neg⟩
  | .fmul _ d a b => some ⟨d, [a.toNat, b.toNat], true, false, fun k c l => k.mulRes (modeArith c) (modeFtz c) (arg k c l 0) (arg k c l 1)⟩
  | .fmin _ d a b => some ⟨d, [a.toNat, b.toNat], true, false, fun k c l => k.minmaxRes false false (arg k c l 0) (arg k c l 1)⟩
  | .fmax _ d a b => some ⟨d, [a.toNat, b.toNat], true, false, fun k c l => k.minmaxRes true false (arg k c l 0) (arg k c l 1)⟩
  | .fminnum _ d a b => some ⟨d, [a.toNat, b.toNat], true, false, fun k c l => k.minmaxRes false true (arg k c l 0) (arg k c l 1)⟩
  | .fmaxnum _ d a b => some ⟨d, [a.toNat, b.toNat], true, false, fun k c l => k.minmaxRes true true (arg k c l 0) (arg k c l 1)⟩
  | .fcpys _ d a b => some ⟨d, [a.toNat, b.toNat], true, false, fun k c l =>
      k.deliver .rne false false ((arg k c l 0).withSign (l.getD 1 0 / 2 ^ (k.ebits + k.mbits) % 2 == 1))
        ((arg k c l 0).isSig || (k.decode (l.getD 1 0)).isSig)⟩
  | .fma _ d a b => some ⟨d, [a.toNat, b.toNat, d.toNat], true, false, fun k c l =>
      k.fmaRes (modeArith c) (modeFtz c) false false (arg k c l 0) (arg k c l 1) (arg k c l 2)⟩
  | .fms _ d a b => some ⟨d, [a.toNat, b.toNat, d.toNat], true, false, fun k c l =>
      k.fmaRes (modeArith c) (modeFtz c) false true (arg k c l 0) (arg k c l 1) (arg k c l 2)⟩
  | .fnma _ d a b => some ⟨d, [a.toNat, b.toNat, d.toNat], true, false, fun k c l =>
      k.fmaRes (modeArith c) (modeFtz c) true false (arg k c l 0) (arg k c l 1) (arg k c l 2)⟩
  | .fnms _ d a b => some ⟨d, [a.toNat, b.toNat, d.toNat], true, false, fun k c l =>
      k.fmaRes (modeArith c) (modeFtz c) true true (arg k c l 0) (arg k c l 1) (arg k c l 2)⟩
  | .fabs _ d a => some ⟨d, [a.toNat], true, false, fun k c l => k.deliver .rne false false ((arg k c l 0).withSign false) (arg k c l 0).isSig⟩
  | .fneg _ d a => some ⟨d, [a.toNat], true, false, fun k c l => k.deliver .rne false false (arg k c l 0).neg (arg k c l 0).isSig⟩
  | .frnd _ d a => some ⟨d, [a.toNat], true, false, fun k c l => k.rndRes (modeArith c) (arg k c l 0)⟩
  | .frcp _ d a => some ⟨d, [a.toNat], true, true, fun k c l => k.divRes (modeArith c) (modeFtz c) (.fin false 1 0) (arg k c l 0)⟩
  | .frsq _ d a => some ⟨d, [a.toNat], true, true, fun k c l => k.rsqRes (modeArith c) (modeFtz c) (arg k c l 0)⟩
  | .fsqrt _ d a => some ⟨d, [a.toNat], true, true, fun k c l => k.sqrtRes (modeArith c) (modeFtz c) (arg k c l 0)⟩
  | .fdiv _ d a b => some ⟨d, [a.toNat, b.toNat], true, true, fun k c l => k.divRes (modeArith c) (modeFtz c) (arg k c l 0) (arg k c l 1)⟩
  | .fexp2 _ d a => some ⟨d, [a.toNat], false, true, fun k c l => k.funRes .exp2 (modeFtz c) (arg k c l 0)⟩
  | .flog2 _ d a => some ⟨d, [a.toNat], false, true, fun k c l => k.funRes .log2 (modeFtz c) (arg k c l 0)⟩
  | .fsin _ d a => some ⟨d, [a.toNat], false, true, fun k c l => k.funRes .sin (modeFtz c) (arg k c l 0)⟩
  | .fcos _ d a => some ⟨d, [a.toNat], false, true, fun k c l => k.funRes .cos (modeFtz c) (arg k c l 0)⟩
  | .ftanh _ d a => some ⟨d, [a.toNat], false, true, fun k c l => k.funRes .tanh (modeFtz c) (arg k c l 0)⟩
  | .fsig _ d a => some ⟨d, [a.toNat], false, true, fun k c l => k.funRes .sig (modeFtz c) (arg k c l 0)⟩
  | _ => none

/-- The tag that decides a floating word's format: that of its first source. -/
def FloatSpec.tag (p : FloatSpec) (s : State) : Nat := ((me s).tag (p.srcs.headD 0)).toNat
/-- A floating word as a vector word: each element of the tag's format on its own. -/
def FloatSpec.spec (p : FloatSpec) (s : State) : VectorSpec :=
  let g := p.tag s
  let regs := p.srcs.flatMap (regsOf g)
  { vreads := regs, writes := dstOf g p.d.toNat, even := if g = 13 then p.d.toNat :: p.srcs else []
    tagsOk := isArith g && (p.f64 || g != 13) && p.srcs.all fun r => ((me s).tag r).toNat == g && (g != 13 || (me s).tag (r + 1) == 15)
    uni := some regs
    value := fun t => wordsOf g (joinElems (tagWidth g) ((List.range (tagCount g)).map fun i =>
      (p.elem (tagFmt g) (me s).mode (p.srcs.map fun r => ((me s).elemsV g r t).getD i 0)).bits)) }
/-- The floating words of fixed latency, and the long-latency ones (R91). -/
def floatArith (i : Instr) (s : State) : Option VectorSpec :=
  (floatTable i).bind fun p => if p.long then none else some (p.spec s)
def floatSpecial (i : Instr) (s : State) : Option VectorSpec :=
  (floatTable i).bind fun p => if p.long then some (p.spec s) else none

/-- A dot product: its registers and the tags it takes (R173). -/
def dotSpec (s : State) (d : BitVec 6) (as bs even ok : List Nat) : Option VectorSpec :=
  let g := ((me s).tag (as.headD 0)).toNat
  let int := g == 11 || g == 12
  some
  { vreads := as ++ bs ++ [d.toNat], writes := [(d.toNat, if int then 2 else 4)], even := even
    tagsOk := ok.contains g && (as ++ bs).all (fun r => ((me s).tag r).toNat == g) && ((me s).tag d.toNat).toNat == if int then 2 else 4
    uni := some (as ++ bs ++ [d.toNat])
    value := fun t => [BitVec.ofNat 32 (dotRes (modeArith (me s).mode) (modeFtz (me s).mode) g (as.flatMap fun r => (me s).elemsV g r t)
      (bs.flatMap fun r => (me s).elemsV g r t) ((me s).readV d.toNat t).toNat).bits] }

/-- FSCALE, FCLASS, the dot products, the unpack forms and the block forms (R167, R170, R173, R178 to R180). -/
def floatOther (i : Instr) (s : State) : Option VectorSpec :=
  match i with
  | .fscale _ d a b =>
    let g := ((me s).tag a.toNat).toNat
    let bt := if g = 5 ∨ g = 6 then 12 else 2
    let n := if tagCount g = 2 then 16 else 32
    some
    { vreads := regsOf g a.toNat ++ [b.toNat], writes := dstOf g d.toNat, even := if g = 13 then [d.toNat, a.toNat] else []
      tagsOk := isArith g && (g != 13 || (me s).tag (a.toNat + 1) == 15) && (me s).tag b.toNat == bt
      uni := some (regsOf g a.toNat ++ [b.toNat])
      value := fun t => wordsOf g (joinElems (tagWidth g)
        ((((me s).elemsV g a.toNat t).zip (splitElems (tagCount g) n ((me s).readV b.toNat t).toNat)).map fun p =>
          ((tagFmt g).scaleRes (modeArith (me s).mode) (modeFtz (me s).mode) ((tagFmt g).input (modeFtz (me s).mode) p.1)
            (toSigned n p.2)).bits)) }
  | .fclass _ d a =>
    let g := ((me s).tag a.toNat).toNat
    some
    { vreads := regsOf g a.toNat, writes := [(d.toNat, 2)], even := if g = 13 then [a.toNat] else []
      tagsOk := isArith g && (g != 13 || (me s).tag (a.toNat + 1) == 15), uni := some (regsOf g a.toNat)
      value := fun t => [BitVec.ofNat 32 (joinElems 16 (((me s).elemsV g a.toNat t).map (tagFmt g).classOf))] }
  | .dot2 _ d a b => dotSpec s d [a.toNat] [b.toNat] [] [5, 6, 12]
  | .dot4 _ d a b => dotSpec s d [a.toNat] [b.toNat] [] [7, 8, 11]
  | .dot8 _ d a b => dotSpec s d [a.toNat, a.toNat + 1] [b.toNat, b.toNat + 1] [a.toNat, b.toNat] [7, 8, 11]
  | .unpacklo _ d a => unpackSpec 0 d a
  | .unpackhi _ d a => unpackSpec 1 d a
  | .qnt _ h d a b =>
    let srcs := (List.range 8).map (a.toNat + ·)
    some
    { vreads := b.toNat :: srcs, writes := [(d.toNat, 9), (b.toNat, 10)], tagsOk := srcs.all fun r => (me s).tag r == 4
      uni := none
      value := fun t =>
        let q := qntOf (me s) a.toNat t
        let old := ((me s).readV b.toNat t).toNat
        let pr := q.scale + 256 * q.special
        [BitVec.ofNat 32 (joinElems 4 ((q.codes.drop (t % 4 * 8)).take 8)),
         BitVec.ofNat 32 (if h = 1#1 then old % 2 ^ 16 + 2 ^ 16 * pr else old / 2 ^ 16 * 2 ^ 16 + pr)] }
  | .dqnt _ h g d a b =>
    let dt := g.toNat
    let n := if dt = 4 then 8 else 4
    let ds := (List.range n).map (d.toNat + ·)
    some
    { vreads := [a.toNat, b.toNat], writes := ds.map fun r => (r, dt), tagsOk := (me s).tag a.toNat == 9 && (me s).tag b.toNat == 10
      uni := some [a.toNat, b.toNat]
      value := fun t =>
        let pr := ((me s).readV b.toNat t).toNat / 2 ^ (16 * h.toNat)
        let bits := (splitElems 8 4 ((me s).readV a.toNat t).toNat).map fun c =>
          ((tagFmt dt).deliver (modeArith (me s).mode) (modeFtz (me s).mode) (modeSat (me s).mode)
            (e2m1xVal (pr % 256) (pr / 256 % 256) c) false).bits
        (List.range n).map fun j => BitVec.ofNat 32 (joinElems (tagWidth dt) ((bits.drop (j * tagCount dt)).take (tagCount dt))) }
  | _ => none
where
  /-- Half `h` of A, element by element, in the wider format. -/
  unpackSpec (h : Nat) (d a : BitVec 6) : Option VectorSpec :=
    let g := ((me s).tag a.toNat).toNat
    let dt := unpackTag g
    some
    { vreads := [a.toNat], writes := [(d.toNat, dt)], tagsOk := dt != 0, uni := some [a.toNat]
      value := fun t => [BitVec.ofNat 32 (joinElems (tagWidth dt)
        (((((me s).elemsV g a.toNat t).drop (h * (tagCount g / 2))).take (tagCount g / 2)).map fun e =>
          if g = 11 ∨ g = 12 then (intElem g e % 2 ^ tagWidth dt).toNat
          else ((tagFmt dt).deliver .rne (modeFtz (me s).mode) false ((tagFmt g).input (modeFtz (me s).mode) e)
            ((tagFmt g).input (modeFtz (me s).mode) e).isSig).bits))] }

/-- A conversion (R174): the source's elements in their place, each rounded under the mode, or by the thread's generator under
SR (R68), which the word steps. -/
def convertSpec (s : State) (p : BitVec 2) (g : BitVec 4) (d a : BitVec 6) (accept : List Nat) (bad : Nat → Bool)
    (conv : Nat → BitVec 11 → Rnd → Nat → FRes) : Option VectorSpec :=
  let x := me s
  let dt := g.toNat
  let nd := tagCount dt
  let st := (x.tag a.toNat).toNat
  let ns := tagCount st
  let srcs := regsOf st a.toNat
  let run := fun (t : Nat) =>
    let es := x.elemsV st a.toNat t
    convertAll (modeSr x.mode) (modeField x.mode) (conv st x.mode) (if nd < ns then (es.drop (p.toNat * nd)).take nd else es) (x.gen s.cur t)
  some
  { vreads := srcs, writes := dstOf dt d.toNat
    even := (if isPair dt then [d.toNat] else []) ++ if isPair st then [a.toNat] else []
    tagsOk := accept.contains st && (!isPair st || x.tag (a.toNat + 1) == 15) && !bad st
      && decide (p.toNat < if nd = ns then 1 else if nd > ns then nd / ns else ns / nd)
    uni := some (srcs ++ if nd > ns then [d.toNat] else [])
    value := fun t => wordsOf dt (placeElems ns nd p.toNat (tagWidth dt) (x.readV d.toNat t).toNat ((run t).1.map FRes.bits))
    whole := decide (nd ≤ ns), gens := some fun t => (run t).2 }

/-- CVT, CVTI, CVTF and PACK (R174 to R178). -/
def conversions (i : Instr) (s : State) : Option VectorSpec :=
  match i with
  | .cvt _ p g d a => convertSpec s p g d a floatTags (fun _ => false) fun st c md e =>
      let v := (tagFmt st).input (modeFtz c) e
      (tagFmt g.toNat).deliver md (modeFtz c) (modeSat c) v v.isSig
  | .cvti _ p g d a u => convertSpec s p g d a floatTags (fun _ => false) fun st c md e =>
      let rg := intRange g.toNat (u == 1#1)
      let r := toIntRes md rg.1 rg.2 ((tagFmt st).input (modeFtz c) e)
      { bits := (r.1 % 2 ^ tagWidth g.toNat).toNat, fl := r.2.1, step := r.2.2 }
  | .cvtf _ p g d a u => convertSpec s p g d a [2, 3, 11, 12, 14] (fun st => u == 1#1 && !(st == 11 || st == 12)) fun st c md e =>
      (tagFmt g.toNat).deliver md (modeFtz c) (modeSat c) (Val.ofInt (if st = 3 ∨ u = 1#1 then e else toSigned (tagWidth st) e)) false
  | .pack _ d a b =>
    let x := me s
    let st := (x.tag a.toNat).toNat
    let dt := packTag st
    let run := fun (t : Nat) => convertAll (modeSr x.mode) (modeField x.mode) (packElem st x.mode)
      (x.elemsV st a.toNat t ++ x.elemsV st b.toNat t) (x.gen s.cur t)
    some
    { vreads := [a.toNat, b.toNat], writes := [(d.toNat, dt)], tagsOk := dt != 0 && x.tag a.toNat == x.tag b.toNat
      uni := some [a.toNat, b.toNat]
      value := fun t => [BitVec.ofNat 32 (joinElems (tagWidth dt) ((run t).1.map FRes.bits))], gens := some fun t => (run t).2 }
  | _ => none

/-! ### Predicates (R31, R150, R151, R169) -/

/-- A word that writes a q, or a p for its active threads. -/
structure PredSpec where
  sreads : List Nat := []
  vreads : List Nat := []
  even : List Nat := []
  len : Nat := 1
  tagsOk : Bool := true
  /-- A vector word, which asks for an active thread. -/
  vector : Bool
  toQ : Bool
  d : Nat
  /-- The new bit: of q, or of p for a thread. -/
  value : Nat → Bool

/-- The operands are such that the word performs. -/
def PredSpec.fits (p : PredSpec) (s : State) : Bool :=
  inWindow (me s) p.sreads p.vreads && p.even.all (fun r => r % 2 == 0) && (!p.vector || decide ((me s).active ≠ 0))
    && p.vreads.all (fun r => (me s).tag r != 0) && p.tagsOk && cleanS (me s) p.sreads && cleanV (me s) p.vreads
    && settled s p.sreads p.vreads

/-- The effect: one bit of q, or the active threads' bits of one p, and no other predicate. -/
def PredSpec.done (p : PredSpec) (s t : State) : Prop :=
  onlyWarp s t ∧ sameMemory s t
  ∧ movedTo (me s) (me t) ((me s).pc + BitVec.ofNat 32 p.len) ∧ (me t).cur.a = (me s).cur.a
  ∧ if p.toQ then
      me t = { booked (me s) (me t) with q := (me t).q }
      ∧ ∀ j, j < 8 → (me t).q.getLsbD j = if j = p.d then p.value 0 else (me s).q.getLsbD j
    else
      me t = { booked (me s) (me t) with preds := (me t).preds }
      ∧ ∀ j k, j < 8 → k < 96 → ((me t).pred j).getLsbD k =
          if j = p.d && (me s).active.getLsbD k then p.value k else ((me s).pred j).getLsbD k

/-- What a condition of a vector compare gives: a p per thread, or with K a q over all (R) or any of the active threads; a
uniform compare evaluates its lowest active thread's. -/
def comparing (s : State) (p : PredSpec) (uni : List Nat) (r k : BitVec 1) (rule : Nat) (c : Nat → Bool) : PredSpec :=
  let at' := fun t => c (if uni.all (me s).uBit then lowest (me s).active else t)
  { p with
    toQ := k == 1#1
    value := fun t =>
      if k = 1#1 then
        combine rule ((me s).q.getLsbD p.d) (if r = 1#1 then (threads (me s).active).all at' else (threads (me s).active).any at')
      else combine rule (((me s).pred p.d).getLsbD t) (at' t) }

/-- Compares, MOVP and the votes that write a q (R151, R152, R155, R156, R169, R198). -/
def predicates (i : Instr) (s : State) : Option PredSpec :=
  let x := me s
  match i with
  | .cmpScalar _ mm c d a b => some
      { sreads := [a.toNat, b.toNat], vector := false, toQ := true, d := d.toNat
        value := fun _ => combine mm.toNat (x.q.getLsbD d.toNat) (intCond c.toNat (x.readS a.toNat) (x.readS b.toNat)) }
  | .cmpiScalar _ d a c i => some
      { sreads := [a.toNat], vector := false, toQ := true, d := d.toNat
        value := fun _ => intCond c.toNat (x.readS a.toNat) (if c.toNat ≤ 5 then i.signExtend 32 else i.setWidth 32) }
  | .cmplScalar _ d a mm c lit => some
      { sreads := [a.toNat], len := 2, vector := false, toQ := true, d := d.toNat
        value := fun _ => combine mm.toNat (x.q.getLsbD d.toNat) (intCond c.toNat (x.readS a.toNat) lit) }
  | .cmpVector _ mm c r k d a b => some (comparing s
      { vreads := [a.toNat, b.toNat], tagsOk := is32 (x.tag a.toNat) && is32 (x.tag b.toNat), vector := true, toQ := false, d := d.toNat
        value := fun _ => false } [a.toNat, b.toNat] r k mm.toNat fun t => intCond c.toNat (x.readV a.toNat t) (x.readV b.toNat t))
  | .cmpiVector _ r k d a c i => some (comparing s
      { vreads := [a.toNat], tagsOk := is32 (x.tag a.toNat), vector := true, toQ := false, d := d.toNat, value := fun _ => false }
      [a.toNat] r k 0 fun t => intCond c.toNat (x.readV a.toNat t) (if c.toNat ≤ 5 then i.signExtend 32 else i.setWidth 32))
  | .cmplVector _ r k d a mm c lit => some (comparing s
      { vreads := [a.toNat], len := 2, tagsOk := is32 (x.tag a.toNat), vector := true, toQ := false, d := d.toNat, value := fun _ => false }
      [a.toNat] r k mm.toNat fun t => intCond c.toNat (x.readV a.toNat t) lit)
  | .fcmp _ mm c r k d a b =>
    let g := (x.tag a.toNat).toNat
    let regs := regsOf g a.toNat ++ regsOf g b.toNat
    some (comparing s
      { vreads := regs, even := if g = 13 then [a.toNat, b.toNat] else []
        tagsOk := isArith g && x.tag b.toNat == x.tag a.toNat
          && (g != 13 || (x.tag (a.toNat + 1) == 15 && x.tag (b.toNat + 1) == 15))
        vector := true, toQ := false, d := d.toNat, value := fun _ => false } regs r k mm.toNat fun t =>
        floatCond c.toNat ((tagFmt g).input (modeFtz x.mode) ((x.elemsV g a.toNat t).getD 0 0))
          ((tagFmt g).input (modeFtz x.mode) ((x.elemsV g b.toNat t).getD 0 0)))
  | .movpScalar _ d a n => some
      { vector := false, toQ := true, d := d.toNat, value := fun _ => x.q.getLsbD a.toNat != (n == 1#1) }
  | .movpVector _ d k a n => some
      { vector := true, toQ := false, d := d.toNat
        value := fun t => (if k = 1#1 then x.q.getLsbD a.toNat else (x.pred a.toNat).getLsbD t) != (n == 1#1) }
  | .voteAny _ n d a => some
      { vector := true, toQ := true, d := d.toNat
        value := fun _ => (threads x.active).any fun t => (x.pred a.toNat).getLsbD t != (n == 1#1) }
  | .voteAll _ n d a => some
      { vector := true, toQ := true, d := d.toNat
        value := fun _ => (threads x.active).all fun t => (x.pred a.toNat).getLsbD t != (n == 1#1) }
  | _ => none

/-! ### Cross-thread words (R194 to R199) -/

/-- No thread's element of a register is poisoned, active or not. -/
def cleanAll (x : Warp) (r : Nat) : Bool := (List.range 96).all fun t => !x.poisonV r t 0 && !x.poisonV r t 1

/-- vD(t) := vA(u), or 0 where there is no such thread. -/
def moveFrom (s : State) (d a : BitVec 6) (srcs : List Nat) (ss : List Nat) (u : Nat → Option Nat) : Option VectorSpec :=
  some
  { sreads := ss, vreads := srcs, writes := [(d.toNat, ((me s).tag a.toNat).toNat)]
    tagsOk := srcs.all (fun r => is32 ((me s).tag r)) && cleanAll (me s) a.toNat, uni := none
    value := fun t => [match u t with
      | some k => (me s).readV a.toNat k
      | none => 0] }

/-- The exchanges and matches (R195, R197, R199). -/
def exchanges (i : Instr) (s : State) : Option VectorSpec :=
  let x := me s
  match i with
  | .xprev _ c d a b => moveFrom s d a [a.toNat] [b.toNat] fun t =>
      let n := (x.readS b.toNat).toNat
      if c = 1#1 then
        -- the n-th active thread below, the thread itself for 0
        if n = 0 then some t else (((threads x.active).filter fun u => decide (u < t)).reverse)[n - 1]?
      else if n ≤ t then some (t - n) else none
  | .xidx _ d a b => moveFrom s d a [a.toNat, b.toNat] [] fun t =>
      if (x.readV b.toNat t).toNat < 96 then some (x.readV b.toNat t).toNat else none
  | .xbc _ l d a b => (moveFrom s d a [a.toNat] (if l = 1#1 then [] else [b.toNat]) fun _ =>
      if l = 1#1 then some (lowest x.active)
      else if (x.readS b.toNat).toNat < 96 then some (x.readS b.toNat).toNat else none).map fun p => { p with uni := some [a.toNat] }
  | .xswzLane _ d a l => moveFrom s d a [a.toNat] [] fun t => some (4 * (t / 4) + l.toNat / 4 ^ (t % 4) % 4)
  | .xswzRx _ d a mm => moveFrom s d a [a.toNat] [] fun t =>
      if Nat.xor (t / 4) mm.toNat < 24 then some (4 * Nat.xor (t / 4) mm.toNat + t % 4) else none
  | .xswzRev _ d a => moveFrom s d a [a.toNat] [] fun t => some (95 - t)
  | .matchOp _ d a c => some
      { vreads := [a.toNat], writes := [(d.toNat, 3)], tagsOk := is32 (x.tag a.toNat), uni := none
        value := fun t =>
          let l := (threads x.active).filter fun u => x.readV a.toNat u == x.readV a.toNat t
          [BitVec.ofNat 32 (if c = 1#1 then l.length else l.headD 0)] }
  | .matchf _ d a c => some
      { vreads := [a.toNat], writes := [(d.toNat, 3)], tagsOk := x.tag a.toNat == 4, uni := none
        value := fun t =>
          let l := matchList true x a.toNat t
          [BitVec.ofNat 32 (if c = 1#1 then l.length else l.headD 0)] }
  | _ => none

/-- The left fold of a scan's combination over the active threads up to one (R82, R196). -/
def foldUpTo (s : State) (o : Nat) (fl : Bool) (a : Nat) (ts : List Nat) : Word :=
  match ts with
  | [] => scanId o fl
  | t :: rest => rest.foldl (fun acc u => (scanStep o fl (me s).mode acc ((me s).readV a u)).1)
      (scanFirst fl (me s).mode ((me s).readV a t)).1

/-- Scans and vector reductions, long-latency (R196). A reduction gives every thread one value, so its U bit follows R30. -/
def scans (i : Instr) (s : State) : Option VectorSpec :=
  let ts := threads (me s).active
  match i with
  | .xscan _ x o d a =>
    let g := ((me s).tag a.toNat).toNat
    some
    { vreads := [a.toNat], writes := [(d.toNat, scanOut o.toNat g)], tagsOk := scanTag o.toNat ((me s).tag a.toNat), uni := none
      value := fun t => [foldUpTo s o.toNat (scanFloat o.toNat g) a.toNat (ts.filter fun u => if x = 1#1 then decide (u < t) else decide (u ≤ t))] }
  | .xred _ x o d a =>
    let g := ((me s).tag a.toNat).toNat
    if x = 1#1 then none
    else some
    { vreads := [a.toNat], writes := [(d.toNat, scanOut o.toNat g)], tagsOk := scanTag o.toNat ((me s).tag a.toNat), uni := some []
      value := fun _ => [foldUpTo s o.toNat (scanFloat o.toNat g) a.toNat ts] }
  | _ => none

/-- Words over vector registers with scalar results: MOVVS, TAGQ and VOTE BALLOT (R156, R182, R198). -/
def gathers : Instr → Option ScalarSpec
  | .movvs _ d a => some
      { writes := [d.toNat], reads := [], vs := [a.toNat]
        ok := fun s => decide ((me s).active ≠ 0) && (me s).tag a.toNat != 0 && cleanV (me s) [a.toNat]
        value := fun s => [(me s).readV a.toNat (lowest (me s).active)] }
  | .tagq _ d a => some
      { writes := [d.toNat], reads := [], vs := [a.toNat]
        value := fun s => [BitVec.ofNat 32 (((me s).tag a.toNat).toNat + if (me s).uBit a.toNat then 16 else 0)] }
  | .voteBallot _ n d a => some
      { writes := [d.toNat, d.toNat + 1, d.toNat + 2], reads := []
        ok := fun s => decide ((me s).active ≠ 0) && decide (d.toNat ≤ 61)
        value := fun s => (List.range 3).map fun k =>
          maskWord ((if n = 1#1 then ~~~((me s).pred a.toNat) else (me s).pred a.toNat) &&& (me s).active) k }
  | _ => none

/-! ### Words that name their own effect -/

/-- A word by its operands, what it asks of the state, and what holds after it. -/
structure Effect where
  /-- Scalar registers read, all scalar and vector registers named, fields that must be even, and the least level (R50). -/
  reads : List Nat := []
  ss : List Nat := []
  vs : List Nat := []
  even : List Nat := []
  level : Nat := 0
  /-- What the word asks besides. -/
  ok : Bool := true
  holds : State → Prop

/-- The operands are such that the word performs. -/
def Effect.fits (p : Effect) (s : State) : Bool :=
  decide (p.level ≤ s.levelOf (s.ctxOf s.cur)) && inWindow (me s) (p.reads ++ p.ss) p.vs && p.even.all (fun r => r % 2 == 0)
    && cleanS (me s) p.reads && settled s (p.reads ++ p.ss) p.vs && p.ok

/-- The running split moves past one word and keeps its A. -/
def passed (s t : State) : Prop := movedTo (me s) (me t) ((me s).pc + 1) ∧ (me t).cur.a = (me s).cur.a

/-! ### Control flow (R118 to R131) -/

/-- A word that moves its split whole: a link, as a scalar write, and a target (R118). A gang may part (R38). -/
structure JumpSpec where
  link : ScalarSpec
  target : State → Word

def JumpSpec.done (p : JumpSpec) (s t : State) : Prop :=
  t = booksOf s t ∧ ctxsKept s t ∧ sameMemory s t
  ∧ apartFrom s t ∧ ((me s).gang = 0 → (me t).gang = 0 ∧ (me t).gangPath = (me s).gangPath)
  ∧ me t = { bookedApart (me s) (me t) with sregs := (me t).sregs, spoison := (me t).spoison }
  ∧ movedTo (me s) (me t) (p.target s)
  ∧ ∀ r, r < 64 → (me t).readS r = match (p.link.writes.zip (p.link.value s)).lookup r with
      | some v => readBack (me s) r v
      | none => (me s).readS r

/-- The branches, calls and returns to one target. -/
def jumps : Instr → Option JumpSpec
  | .bra _ i => some ⟨{ reads := [], writes := [], value := fun _ => [] }, fun s => (me s).pc + i.signExtend 32⟩
  | .call _ i => some ⟨{ reads := [], writes := [1], value := fun s => [(me s).pc + 1] }, fun s => (me s).pc + i.signExtend 32⟩
  | .brq _ n q i => some ⟨{ reads := [], writes := [], value := fun _ => [] }, fun s =>
      if (me s).q.getLsbD q.toNat != (n == 1#1) then (me s).pc + i.signExtend 32 else (me s).pc + 1⟩
  | .brx _ a => some ⟨{ reads := [a.toNat], writes := [], value := fun _ => [] }, fun s => (me s).readS a.toNat⟩
  | .callx _ d a => some ⟨{ reads := [a.toNat], writes := [d.toNat], value := fun s => [(me s).pc + 1] }, fun s => (me s).readS a.toNat⟩
  | .ret _ a => some ⟨{ reads := [a.toNat], writes := [], value := fun _ => [] }, fun s => (me s).readS a.toNat⟩
  | _ => none

/-- After a branch by threads (R119): every thread of A is in a RUNNING or READY split at its own destination, in M and A of it;
the threads of M outside A stay with the running entry, and the other entries keep all but their ORDER. -/
def dividedBy (goes : Nat → Word) (s t : State) : Prop :=
  let x := me s
  let y := me t
  t = booksOf s t ∧ ctxsKept s t ∧ sameMemory s t
  ∧ apartFrom s t ∧ y = bookedApart x y ∧ y.run = x.run
  ∧ (x.cur.a = 0 → y.cur.pc = x.pc + 1)
  ∧ (∀ k, k < 96 → x.cur.a.getLsbD k → ∃ e, e < 8 ∧ (y.split e).pc = goes k ∧ (y.split e).m.getLsbD k ∧ (y.split e).a.getLsbD k
      ∧ ((y.split e).state = .running ∨ (y.split e).state = .ready) ∧ (y.split e).trapm = x.cur.trapm)
  ∧ (∀ k, k < 96 → x.cur.m.getLsbD k → !x.cur.a.getLsbD k → y.cur.m.getLsbD k)
  ∧ ∀ e, e < 8 → e ≠ x.run → (x.split e).state ≠ .invalid → y.split e = { x.split e with order := (y.split e).order }

/-- The table has room for the destinations of the threads of A. -/
def roomFor (s : State) (goes : Nat → Word) : Bool :=
  decide (((threads (me s).cur.a).map goes).eraseDups.length + (me s).valid.length ≤ 9)

/-- BRP and BRV (R119). -/
def divergent (i : Instr) (s : State) : Option Effect :=
  let x := me s
  match i with
  | .brp _ n p i =>
    let goes := fun k => if (x.pred p.toNat).getLsbD k != (n == 1#1) then x.pc + i.signExtend 32 else x.pc + 1
    some { ok := roomFor s goes && x.cur.a &&& ~~~x.cur.m == 0, holds := dividedBy goes s }
  | .brv _ a =>
    let goes := fun k => x.readV a.toNat (if x.uBit a.toNat then lowest x.cur.a else k)
    some
    { vs := [a.toNat]
      ok := roomFor s goes && x.cur.a &&& ~~~x.cur.m == 0
        && (x.cur.a == 0 || (x.tag a.toNat == 1 || x.tag a.toNat == 2 || x.tag a.toNat == 3))
        && (threads x.cur.a).all fun k => !x.poisonV a.toNat k 0 && !x.poisonV a.toNat k 1
      holds := dividedBy goes s }
  | _ => none

/-- Another split of the warp may run. -/
def otherReady (x : Warp) : Bool := x.valid.any fun e => e != x.run && (x.split e).state == .ready

/-- The running split has left its entry to another (R117, R123): its entry is as `p` says, and a READY one runs. -/
def handedOver (s t : State) (p : Split → Split) : Prop :=
  (∃ o, (me t).split (me s).run = { p (me s).cur with order := o })
  ∧ (me t).run < 8 ∧ (me t).run ≠ (me s).run ∧ ((me s).split (me t).run).state = .ready

/-- NOP, MODE, BEAT, BEATN and UNGANG (R98, R124, R130, R383). -/
def plainControl (i : Instr) (s : State) : Option Effect :=
  let x := me s
  let beats := fun (n : Nat) (t : State) =>
    t = booksOf s t ∧ othersKept s t ∧ sameMemory s t ∧ me t = booked x (me t) ∧ passed s t
    ∧ (∀ c, c ≠ s.ctxOf s.cur → t.ctx c = s.ctx c)
    ∧ t.ctx (s.ctxOf s.cur) = { s.ctx (s.ctxOf s.cur) with
        counts := (t.ctx (s.ctxOf s.cur)).counts
        loop := { (s.ctx (s.ctxOf s.cur)).loop with
          count := BitVec.ofNat 32 (min ((s.ctx (s.ctxOf s.cur)).loop.count.toNat + n) (2 ^ 32 - 1))
          beatsSec := (s.ctx (s.ctxOf s.cur)).loop.beatsSec + n } }
  match i with
  | .nop _ => some { holds := fun t => onlyWarp s t ∧ sameMemory s t ∧ me t = booked x (me t) ∧ passed s t }
  | .mode _ d v => some
    { holds := fun t => onlyWarp s t ∧ sameMemory s t ∧ passed s t ∧ me t = { booked x (me t) with mode := (me t).mode }
        ∧ ∀ b, b < 11 → (me t).mode.getLsbD b =
            -- the field of each bit: the guard, RND, SR, SAT, FTZ (R98, R99)
            if d.getLsbD (if b < 5 then 0 else if b < 8 then 1 else b - 6) then v.getLsbD b else x.mode.getLsbD b }
  | .beat _ => some { holds := beats 1 }
  | .beatn _ a => some { reads := [a.toNat], holds := beats (x.readS a.toNat).toNat }
  | .ungang _ => some
    { holds := fun t => t = booksOf s t ∧ ctxsKept s t ∧ sameMemory s t ∧ passed s t
        ∧ me t = { bookedApart x (me t) with gang := 0 } ∧ apartFrom s t }
  | _ => none

/-- Words that hand the warp to another split, or go on where none is READY (R121, R123, R125, R130). -/
def handing (i : Instr) (s : State) : Option Effect :=
  let x := me s
  let alone := x.valid == [x.run]
  let free := fun (t : State) => t = booksOf s t ∧ othersKept s t ∧ ctxsKept s t ∧ sameMemory s t ∧ me t = { booked x (me t) with yieldAt := (me t).yieldAt }
  match i with
  | .yield _ => some
    { ok := alone || otherReady x
      holds := fun t => free t ∧ (me t).yieldAt = s.now s.cur + 1
        ∧ (alone → (me t).run = x.run ∧ (me t).pc = x.pc + 1 ∧ (me t).cur.m = x.cur.m ∧ (me t).cur.a = x.cur.a)
        ∧ (otherReady x → handedOver s t fun p => { p with state := .ready, pc := x.pc + 1, since := s.serial }) }
  | .join _ d j => some
    { reads := [d.toNat], ok := alone || otherReady x
      holds := fun t => free t
        ∧ (alone → (me t).run = x.run ∧ (me t).pc = x.pc + 1 ∧ (me t).cur.m = x.cur.m ∧ (me t).cur.a = x.cur.a)
        ∧ (otherReady x → handedOver s t fun p =>
            { p with state := .joinWait, joinid := j, timeout := x.readS d.toNat, pc := x.pc + 1, due := false, since := s.serial }) }
  | .waitall _ => some
    { ok := x.pending.isEmpty && x.log.isEmpty
      holds := fun t => onlyWarp s t ∧ sameMemory s t ∧ me t = booked x (me t) ∧ passed s t }
  | _ => none

/-- REGANG (R125): a warp outside the set, or with other splits, or in a handler, is released at once: its split is READY at the end
of the order, and the gang parts. Else its split waits, while a warp of the set neither waits nor has ended. -/
def regangs (i : Instr) (s : State) : Option Effect :=
  let x := me s
  match i with
  | .regang _ d a j =>
    let n := x.readS d.toNat
    let apart := !n.getLsbD x.num || decide (x.valid.length > 1) || x.inTrap
    let missing := (s.wg x.wg).warps.any fun w => w != s.cur && n.getLsbD (s.warp w).num && (s.warp w).live != 0
      && ((s.warp w).gangWaiter j n).isNone
    some
    { reads := [d.toNat, a.toNat], ok := apart || (x.valid == [x.run] && missing)
      holds := fun t => t = booksOf s t ∧ ctxsKept s t ∧ sameMemory s t ∧ apartFrom s t
        ∧ (apart → me t = { bookedApart x (me t) with gang := 0 }
          ∧ (!otherReady x → (me t).run = x.run ∧ (me t).pc = x.pc + 1 ∧ (me t).cur.m = x.cur.m ∧ (me t).cur.a = x.cur.a)
          ∧ (otherReady x → handedOver s t fun p =>
              { p with state := .ready, pc := x.pc + 1, joinid := 0xFFF, timeout := 0, due := false, since := s.serial }))
        ∧ (!apart → othersKept s t ∧ me t = booked x (me t) ∧ (me t).run = 8 ∧ ∃ o, (me t).split x.run =
            { x.cur with state := .gangWait, joinid := j, timeout := x.readS a.toNat, gangSet := n, released := false, due := false
                         since := s.serial, pc := x.pc + 1, order := o }) }
  | _ => none

/-- EXIT of some threads of the running split (R130): they leave every mask, and the split goes on. No arrival of the warp is
pending that their leaving would complete. -/
def exits (i : Instr) (s : State) : Option Effect :=
  let x := me s
  match i with
  | .exit _ => some
    { ok := x.cur.m &&& ~~~x.active != 0 && x.cur.m &&& ~~~x.live == 0 && x.barX.isEmpty
      holds := fun t => onlyWarp s t ∧ sameMemory s t
        ∧ me t = { booked x (me t) with live := x.live &&& ~~~x.active, thalt := x.thalt &&& ~~~x.active }
        ∧ (me t).run = x.run ∧ (me t).cur = { x.cur with pc := x.pc + 1, m := x.cur.m &&& ~~~x.active, a := x.cur.a &&& ~~~x.active }
        ∧ ∀ e, e < 8 → e ≠ x.run → (x.split e).state ≠ .invalid → (me t).split e =
            { x.split e with m := (x.split e).m &&& ~~~x.active, a := (x.split e).a &&& ~~~x.active } }
  | _ => none

/-- What taking a trap does to its warp (R133, R137): the trap registers, the mode cleared, the running split in trap mode at TVEC,
every other valid entry SUSPENDED. -/
def entered (s t : State) (cause slot : Nat) (addr : DWord) (part : Bool) (pc : Word) : Prop :=
  let x := me s
  let y := me t
  y.trap.pc = pc ∧ y.trap.cause = BitVec.ofNat 8 cause ∧ y.trap.second = 0 ∧ y.trap.addr = addr ∧ y.trap.first = 0
  ∧ y.trap.slot = BitVec.ofNat 7 slot ∧ y.trap.partialBit = part ∧ y.trap.mask = x.cur.a ∧ y.trap.mode = x.mode
  ∧ y.mode = 0 ∧ y.run = x.run ∧ y.pc = (s.ctx (s.ctxOf s.cur)).tvec ∧ y.cur.trapm = true ∧ y.cur.m = x.cur.m ∧ y.cur.a = x.cur.a
  ∧ (∀ e, e < 8 → e ≠ x.run → (x.split e).state ≠ .invalid → (y.split e).state = .suspended ∧ (y.split e).m = (x.split e).m)
  ∧ (∀ r, r < 64 → y.readS r = x.readS r) ∧ y.vregs = x.vregs ∧ y.tags = x.tags ∧ y.preds = x.preds ∧ y.q = x.q ∧ y.rc = x.rc

/-- The warp takes a trap into its handler at once: it is not in one, is not stepped, waits for no result (R94), and the cause does
not dump (R133, R264, R441); the trace ring records none (R429). -/
def trapsPlainly (s : State) (cause : Nat) : Bool :=
  !(me s).cur.trapm && (me s).step.isNone && !(me s).awaits && !(s.ctx (s.ctxOf s.cur)).dumps cause && !(s.ctx (s.ctxOf s.cur)).trTraps

/-- TRAP (R136) and ERET (R135). -/
def trapWords (i : Instr) (s : State) : Option Effect :=
  let x := me s
  match i with
  | .trap _ v => some
    { ok := trapsPlainly s 0x0B
      holds := fun t => entered s t 0x0B x.reportSlot (v.setWidth 64) (decide (x.resumeFrom > 0)) (x.pc + 1) ∧ sameMemory s t }
  | .eret _ => some
    { ok := x.cur.trapm && !x.logDefer && x.valid.all fun e => e == x.run || ((x.split e).trapm && (x.split e).state != .suspended)
        || ((x.split e).state == .suspended && (x.trap.susp >>> (3 * e)).toNat % 8 == 2)
      holds := fun t =>
        let mr := x.valid.foldl (fun m e => if (x.split e).trapm then m ||| (x.split e).m else m) (0 : Mask)
        sameMemory s t ∧ (me t).rc = x.rc + 1 ∧ (me t).run = x.run ∧ (me t).pc = x.trap.pc ∧ (me t).cur.m = mr
        ∧ (me t).cur.a = x.trap.mask &&& mr ∧ (me t).cur.trapm = false ∧ (me t).mode = x.trap.mode
        ∧ (me t).resumeFrom = (if x.trap.partialBit ∧ x.trap.slot.toNat ≠ x.resumeFrom then x.trap.slot.toNat else 0)
        ∧ (∀ e, e < 8 → e ≠ x.run → (x.split e).state = .suspended → !(x.split e).trapm →
            ((me t).split e).state = .ready ∧ ((me t).split e).pc = (x.split e).pc ∧ ((me t).split e).m = (x.split e).m)
        ∧ (∀ r, r < 61 → (me t).readS r = x.readS r) ∧ (me t).vregs = x.vregs ∧ (me t).preds = x.preds ∧ (me t).q = x.q }
  | _ => none

/-! ### Memory words (R184 to R211) -/

/-- SYSV TICK and the scalar reductions (R91, R132, R196). -/
def scalarLong : Instr → Option ScalarSpec
  | .sysvTick _ d => some { writes := pair d, reads := [], even := [d.toNat], value := fun s => [s.tick.lo, s.tick.hi] }
  | .xred _ x o d a =>
    if x = 0#1 then none
    else some
    { writes := [d.toNat], reads := [], vs := [a.toNat]
      ok := fun s => decide ((me s).active ≠ 0) && (me s).tag a.toNat != 0 && scanTag o.toNat ((me s).tag a.toNat)
        && cleanV (me s) [a.toNat]
      value := fun s => [foldUpTo s o.toNat (scanFloat o.toNat ((me s).tag a.toNat).toNat) a.toNat (threads (me s).active)] }
  | _ => none

/-- The word records no check point (R439). -/
def noRecord (s : State) : Bool := (me s).rrMode == 0
/-- The context performs a scope as it is named (R282, R297). -/
def scopeKept (s : State) (c : BitVec 3) : Bool := decide (c.toNat ≤ (s.ctx (s.ctxOf s.cur)).widest)

/-- An access of some bytes to the scratchpad lies in it, is aligned, and is not race-checked (R187, R191, R277, R300). -/
def scratchOk (s : State) (off n align : Nat) : Bool :=
  decide (off + n ≤ (s.wg (me s).wg).scratchLen) && off % align == 0 && (s.launchOf s.cur).races.isEmpty

/-- Bytes and alignment of a width's access. -/
def widTotal (w : Nat) : Nat := (widBytes w).1 * (widBytes w).2
def widAlign (w : Nat) : Nat := if (widBytes w).2 = 4 then 16 else widTotal w

/-- The words a load of a width delivers from a number. -/
def loaded (w v : Nat) : List Word := loadWords (widSigned w) (widBytes w).1 (widTotal w) v

/-- The scratchpad bytes of a warp's workgroup as a number. -/
def scratchNum (s : State) (off n : Nat) : Nat := leNat (Store.range 0 (s.wg (me s).wg).scratch off n)

/-- Loads from the scratchpad: LDS, and LDA of a scratchpad offset (R200, R207). -/
def scratchLoads (i : Instr) (s : State) : Option VectorSpec :=
  let x := me s
  match i with
  | .lds _ c w d a b =>
    let ds := dataRegs w.toNat d.toNat
    let off := fun k => (x.readS a.toNat + x.readV b.toNat k * BitVec.ofNat 32 (scaleOf c w.toNat)).toNat
    some
    { sreads := [a.toNat], vreads := [b.toNat], writes := ds.map fun r => (r, widTag w.toNat), even := dataEven w.toNat d.toNat
      tagsOk := is32 (x.tag b.toNat) && decide (x.log.length < 4) && !x.log.any LogEntry.acquiring
        && (threads x.active).all fun k => scratchOk s (off k) (widTotal w.toNat) (widAlign w.toNat)
      uni := some [b.toNat], value := fun k => loaded w.toNat (scratchNum s (off k) (widTotal w.toNat)) }
  | .lda _ y w d a c =>
    let ds := dataRegs w.toNat d.toNat
    let off := fun k => (x.readV a.toNat k).toNat
    if y = 0#1 then none
    else some
    { vreads := [a.toNat], writes := ds.map fun r => (r, widTag w.toNat), even := dataEven w.toNat d.toNat
      tagsOk := is32 (x.tag a.toNat) && decide (x.log.length < 4) && !x.log.any LogEntry.acquiring && noRecord s && scopeKept s c
        && (threads x.active).all fun k => scratchOk s (off k) (widTotal w.toNat) (widAlign w.toNat)
      uni := some [a.toNat], value := fun k => loaded w.toNat (scratchNum s (off k) (widTotal w.toNat)) }
  | _ => none

/-- The translation a thread's last-page register or its core's TLB holds (R309). -/
def tlbHit (s : State) (k va : Nat) (kind : Access) : Option Tlb :=
  let ctx := s.ctxOf s.cur
  let hit := fun (e : Tlb) => e.covers (s.partNum ctx) (s.ctx ctx).asid va && e.allows kind
  match Store.get none (s.core (coreOf s.cur)).lastPage (sliceOf s.cur * 4 + k % 4) with
  | some e => if e.gen = s.gen ∧ e.ctx = ctx ∧ hit e then some e else (s.core (coreOf s.cur)).tlb.find? hit
  | none => (s.core (coreOf s.cur)).tlb.find? hit

/-- The physical address of a thread's access to local HBM: translated without a walk, of clean memory, on a line that the L1 has
room for, with an empty operand log (R190, R191, R273, R309, R334). -/
def local? (s : State) (k va n align : Nat) (kind : Access) : Option Nat :=
  match tlbHit s k va kind with
  | some e =>
    let pa := e.addr va
    if va < 2 ^ 49 ∧ va % align = 0 ∧ e.sys = false ∧ pa + n ≤ 2 ^ 40 ∧ !s.zeroing.contains (.frame (pa / 8192)) ∧ !s.reported (coreOf s.cur) pa n
        ∧ (s.core (coreOf s.cur)).l1lines.length < 1024 ∧ (me s).log.isEmpty then some pa else none
  | none => none

/-- The state after a load or store: besides the books, the issuing core's L1 and last-page registers, and the home L2, in which a
line may give way to another (R2). -/
def memBooks (s t : State) : State :=
  { booksOf s t with cores := t.cores, l1 := t.l1, work := t.work, hbmMoves := t.hbmMoves, l2Misses := t.l2Misses, l2 := t.l2, hbm := t.hbm, l2Ways := t.l2Ways, lineGen := t.lineGen }
/-- A write at the home L2 may touch the TAIL of a queue, which wakes it (R340). -/
def queuesRung (s t : State) : Prop := ∀ q, t.queue q = { s.queue q with rung := (t.queue q).rung }
/-- Only the last-page registers and the L1's lines of the issuing core differ. -/
def coresKept (s t : State) : Prop :=
  (∀ c, c ≠ coreOf s.cur → t.core c = s.core c)
  ∧ t.core (coreOf s.cur) = { s.core (coreOf s.cur) with
      lastPage := (t.core (coreOf s.cur)).lastPage, l1lines := (t.core (coreOf s.cur)).l1lines }

/-- The bytes at a physical address as the issuing core sees them, as a number. -/
def coreNum (s : State) (pa n : Nat) : Nat := leNat ((List.range n).map fun i => s.coreRead (coreOf s.cur) (pa + i))

/-- A word of one lane: uniform, or with one active thread. -/
def oneLane (s : State) (uni : List Nat) : Bool := uni.all (me s).uBit || (threads (me s).active).length == 1

/-- A load of one lane from an address: its registers take the words at its physical address. -/
def loadSpec (s : State) (w d : Nat) (tags : List (Nat × Nat)) (sreads vreads even : List Nat) (ok : Bool) (pa : Option Nat) :
    Option VectorSpec :=
  some
  { sreads := sreads, vreads := vreads, writes := tags, even := even ++ dataEven w d
    tagsOk := ok && oneLane s vreads && pa.isSome, uni := some vreads
    value := fun _ => loaded w (coreNum s (pa.getD 0) (widTotal w)) }

/-- The address of a private access of a thread (R201). -/
def privVa (s : State) (k : Nat) (off : Word) : Nat := ((me s).privBase.toNat + (off.toNat * 96 + k) * 4) % 2 ^ 64

/-- Loads from memory by one lane: LDG, LDGX and LDP (R200, R201). -/
def memoryLoads (i : Instr) (s : State) : Option VectorSpec :=
  let x := me s
  let k := lowest x.active
  match i with
  | .ldg _ _ c w d a b =>
    let va := globalAddr c w.toNat (x.readS2 a.toNat) (x.readV b.toNat k)
    loadSpec s w.toNat d.toNat ((dataRegs w.toNat d.toNat).map fun r => (r, widTag w.toNat)) (pair a) [b.toNat] [a.toNat]
      (is32 (x.tag b.toNat)) (local? s k va.toNat (widTotal w.toNat) (widAlign w.toNat) .read)
  | .ldgx _ _ w d a g =>
    loadSpec s w.toNat d.toNat (ldgxTags w.toNat d.toNat g.toNat) [] (pair a) [a.toNat] (addrOk x a.toNat)
      (local? s k (x.readV2 a.toNat k).toNat (widTotal w.toNat) (widAlign w.toNat) .read)
  | .ldp _ w d a b =>
    let off := x.readS a.toNat + x.readV b.toNat k
    loadSpec s w.toNat d.toNat ((dataRegs w.toNat d.toNat).map fun r => (r, widTag w.toNat)) [a.toNat] [b.toNat] []
      (is32 (x.tag b.toNat) && w.toNat == 4 && decide (off.toNat < x.privSize))
      (local? s k (privVa s k off) 4 1 .read)
  | _ => none

/-- LDU (R185, R200). -/
def scalarLoads (i : Instr) (s : State) : Option ScalarSpec :=
  let x := me s
  match i with
  | .ldu _ _ c w d a b =>
    let va := globalAddr c w.toNat (x.readS2 a.toNat) (x.readS b.toNat)
    let pa := local? s x.reportSlot va.toNat (widTotal w.toNat) (widAlign w.toNat) .read
    some
    { writes := dataRegs w.toNat d.toNat, reads := pair a ++ [b.toNat], even := a.toNat :: dataEven w.toNat d.toNat
      ok := fun _ => pa.isSome, value := fun s => loaded w.toNat (coreNum s (pa.getD 0) (widTotal w.toNat)) }
  | _ => none

/-- A store of one lane. -/
structure StoreSpec where
  sreads : List Nat := []
  vreads : List Nat := []
  even : List Nat
  ok : Bool
  /-- The physical address, and the bytes stored there. -/
  pa : Option Nat
  bytes : List Byte
  /-- The hint is L2: the home L2 serves the store, and L1 keeps none of its bytes (R189). -/
  past : Bool := false

/-- The operands are such that the store performs. -/
def StoreSpec.fits (p : StoreSpec) (s : State) : Bool :=
  inWindow (me s) p.sreads p.vreads && p.even.all (fun r => r % 2 == 0) && (p.vreads.isEmpty || decide ((me s).active ≠ 0))
    && p.vreads.all (fun r => (me s).tag r != 0) && cleanS (me s) p.sreads && cleanV (me s) p.vreads && settled s p.sreads p.vreads
    && p.ok && p.pa.isSome

/-- The effect of a plain store: its bytes stand at its address as the core sees memory, every other byte reads as before for
every core, and no register changes. The home L2 is not written (R273), but by a store past L1, whose bytes stand there. -/
def StoreSpec.done (p : StoreSpec) (s t : State) : Prop :=
  t = { memBooks s t with calendar := t.calendar, poisoned := t.poisoned, written := t.written, names := t.names, queues := t.queues }
  ∧ othersKept s t ∧ ctxsKept s t ∧ coresKept s t ∧ queuesRung s t
  ∧ me t = booked (me s) (me t) ∧ movedTo (me s) (me t) ((me s).pc + 1) ∧ (me t).cur.a = (me s).cur.a
  ∧ ∀ pa, p.pa = some pa →
      let out := fun (a : Nat) => a < pa ∨ pa + p.bytes.length ≤ a
      (∀ j, j < p.bytes.length → some (t.coreRead (coreOf s.cur) (pa + j)) = p.bytes[j]?)
      ∧ (∀ c a, a < 2 ^ 40 → ((c ≠ coreOf s.cur ∧ p.past = false) ∨ out a) → t.coreRead c a = s.coreRead c a)
      ∧ (∀ a, (p.past = false ∨ out a) → t.l2Read a = s.l2Read a)
      ∧ (p.past = true → ∀ j, j < p.bytes.length → some (t.l2Read (pa + j)) = p.bytes[j]?)

/-- The bytes of store data of a width. -/
def storedBytes (w : Nat) (ws : List Word) : List Byte := leBytes (widTotal w) (wordsNat ws)

/-- Stores to memory by one lane: STG, STGX, STP and STU (R200, R201). -/
def memoryStores (i : Instr) (s : State) : Option StoreSpec :=
  let x := me s
  let k := lowest x.active
  match i with
  | .stg _ h c w d a b =>
    let ds := dataRegs w.toNat d.toNat
    let va := globalAddr c w.toNat (x.readS2 a.toNat) (x.readV b.toNat k)
    some
    { sreads := pair a, vreads := b.toNat :: ds, even := a.toNat :: dataEven w.toNat d.toNat
      ok := is32 (x.tag b.toNat) && dataOk w.toNat x d.toNat && oneLane s (b.toNat :: ds)
      pa := local? s k va.toNat (widTotal w.toNat) (widAlign w.toNat) .write
      bytes := storedBytes w.toNat (ds.map fun r => x.readV r k), past := h == 2 }
  | .stgx _ h w d a =>
    let ds := dataRegs w.toNat d.toNat
    some
    { vreads := pair a ++ ds, even := a.toNat :: dataEven w.toNat d.toNat
      ok := addrOk x a.toNat && dataOk w.toNat x d.toNat && oneLane s (pair a ++ ds)
      pa := local? s k (x.readV2 a.toNat k).toNat (widTotal w.toNat) (widAlign w.toNat) .write
      bytes := storedBytes w.toNat (ds.map fun r => x.readV r k), past := h == 2 }
  | .stp _ w d a b =>
    let off := x.readS a.toNat + x.readV b.toNat k
    some
    { sreads := [a.toNat], vreads := [b.toNat, d.toNat], even := []
      ok := is32 (x.tag b.toNat) && is32 (x.tag d.toNat) && w.toNat == 4 && oneLane s [b.toNat, d.toNat] && decide (off.toNat < x.privSize)
      pa := local? s k (privVa s k off) 4 1 .write, bytes := leBytes 4 (x.readV d.toNat k).toNat }
  | .stu _ h c w d a b =>
    let ds := dataRegs w.toNat d.toNat
    let va := globalAddr c w.toNat (x.readS2 a.toNat) (x.readS b.toNat)
    some
    { sreads := pair a ++ [b.toNat] ++ ds, even := a.toNat :: dataEven w.toNat d.toNat, ok := true
      pa := local? s x.reportSlot va.toNat (widTotal w.toNat) (widAlign w.toNat) .write
      bytes := storedBytes w.toNat (ds.map x.readS), past := h == 2 }
  | _ => none

/-- A scratchpad write of one lane: its offset and bytes; the scratchpad's other bytes, and all of memory, are as before. -/
structure ScratchSpec where
  sreads : List Nat := []
  vreads : List Nat
  even : List Nat
  ok : Bool
  off : Nat
  bytes : List Byte
  /-- The registers it returns the old value to, with their tags (R203, R204). -/
  writes : List (Nat × Nat) := []
  old : List Word := []

def ScratchSpec.fits (p : ScratchSpec) (s : State) : Bool :=
  let vs := p.vreads ++ p.writes.map Prod.fst
  inWindow (me s) p.sreads vs && p.even.all (fun r => r % 2 == 0) && decide ((me s).active ≠ 0)
    && p.vreads.all (fun r => (me s).tag r != 0) && cleanS (me s) p.sreads && cleanV (me s) p.vreads && settled s p.sreads vs && p.ok
    && (me s).log.isEmpty

/-- The workgroup's scratchpad after a write. -/
def scratchWritten (s t : State) (off : Nat) (bytes : List Byte) : Prop :=
  (∀ g, g ≠ (me s).wg → t.wg g = s.wg g)
  ∧ t.wg (me s).wg = { s.wg (me s).wg with scratch := (t.wg (me s).wg).scratch }
  ∧ (∀ j, j < bytes.length → some (Store.get 0 (t.wg (me s).wg).scratch (off + j)) = bytes[j]?)
  ∧ ∀ a, (a < off ∨ off + bytes.length ≤ a) → Store.get 0 (t.wg (me s).wg).scratch a = Store.get 0 (s.wg (me s).wg).scratch a

/-- The effect: the bytes, and where it returns a value, one record with the old one. -/
def ScratchSpec.done (p : ScratchSpec) (s t : State) : Prop :=
  sameMemory s t ∧ scratchWritten s t p.off p.bytes ∧ othersKept s t ∧ ctxsKept s t
  ∧ movedTo (me s) (me t) ((me s).pc + 1) ∧ (me t).cur.a = (me s).cur.a
  ∧ if p.writes.isEmpty then
      t = { booksOf s t with wgs := t.wgs, names := t.names } ∧ me t = { booked (me s) (me t) with relWait := (me t).relWait }
    else
      t = { booksOf s t with wgs := t.wgs, names := t.names, free := t.free, calendar := t.calendar }
      ∧ (∃ q, me t = { booked (me s) (me t) with
            tags := (me t).tags, u := (me t).u, pending := (me s).pending ++ [q], relWait := (me t).relWait }
          ∧ holdsData q false (p.writes.map Prod.fst) (threads (me s).active) fun _ => p.old)
      ∧ ∀ d ∈ p.writes, (me t).tag d.1 = BitVec.ofNat 4 d.2

/-- One active thread. -/
def oneThread (s : State) : Bool := (threads (me s).active).length == 1

/-- Scratchpad stores and atomics of one thread: STS, STREL, ATOMS, and CAS and FATOM of a scratchpad offset (R200, R203 to R207). -/
def scratchWrites (i : Instr) (s : State) : Option ScratchSpec :=
  let x := me s
  let k := lowest x.active
  match i with
  | .sts _ c w d a b =>
    let ds := dataRegs w.toNat d.toNat
    let off := (x.readS a.toNat + x.readV b.toNat k * BitVec.ofNat 32 (scaleOf c w.toNat)).toNat
    some
    { sreads := [a.toNat], vreads := b.toNat :: ds, even := dataEven w.toNat d.toNat, off := off
      ok := is32 (x.tag b.toNat) && dataOk w.toNat x d.toNat && oneLane s (b.toNat :: ds)
        && scratchOk s off (widTotal w.toNat) (widAlign w.toNat)
      bytes := storedBytes w.toNat (ds.map fun r => x.readV r k) }
  | .strel _ y w d a c =>
    let ds := dataRegs w.toNat d.toNat
    let off := (x.readV a.toNat k).toNat
    if y = 0#1 then none
    else some
    { vreads := a.toNat :: ds, even := dataEven w.toNat d.toNat, off := off
      -- at the scope of a workgroup or less the release waits for nothing but the log (R208)
      ok := is32 (x.tag a.toNat) && dataOk w.toNat x d.toNat && oneLane s (a.toNat :: ds) && decide (c.toNat ≤ 1) && scopeKept s c && noRecord s && x.log.isEmpty
        && x.owed.isNone && scratchOk s off (widTotal w.toNat) (widAlign w.toNat)
      bytes := storedBytes w.toNat (ds.map fun r => x.readV r k) }
  | .atoms _ wide r o d a kk c =>
    let w64 := wide == 1#1
    let n := if w64 then 8 else 4
    let ds := if w64 then pair d else [d.toNat]
    let off := (x.readV a.toNat k).toNat
    let old := scratchNum s off n
    some
    { vreads := a.toNat :: ds, even := if w64 then [d.toNat] else [], off := off
      ok := is32 (x.tag a.toNat) && (w64 || is32 (x.tag d.toNat)) && oneThread s && kk == 0 && scopeKept s c && scratchOk s off n n
      bytes := leBytes n (atomNew o.toNat (8 * n) old (wordsNat (ds.map fun r => x.readV r k)))
      writes := if r = 1#1 then atomTags o.toNat d.toNat w64 else [], old := natWords (n / 4) old }
  | .cas _ y wide d a kk c =>
    let w64 := wide == 1#1
    let n := if w64 then 8 else 4
    let ds := (List.range (n / 2)).map (d.toNat + ·)
    let off := (x.readV a.toNat k).toNat
    let old := scratchNum s off n
    let v := wordsNat (ds.map fun r => x.readV r k)
    if y = 0#1 then none
    else some
    { vreads := a.toNat :: ds, even := [d.toNat], off := off
      ok := is32 (x.tag a.toNat) && oneThread s && kk == 0 && scopeKept s c && scratchOk s off n n
      -- the comparand lies below the new value
      bytes := leBytes n (if old = v % 2 ^ (8 * n) then v / 2 ^ (8 * n) else old)
      writes := if w64 then [(d.toNat, 14), (d.toNat + 1, 15)] else [(d.toNat, 1)], old := natWords (n / 4) old }
  | .fatom _ y r o d a kk c =>
    let g := (x.tag d.toNat).toNat
    let off := (x.readV a.toNat k).toNat
    let old := scratchNum s off 4
    if y = 0#1 then none
    else some
    { vreads := [a.toNat, d.toNat], even := [], off := off
      ok := is32 (x.tag a.toNat) && (g == 4 || g == 5 || g == 6) && oneThread s && kk == 0 && scopeKept s c && scratchOk s off 4 4
      bytes := leBytes 4 (fatomNew o.toNat g old (x.readV d.toNat k).toNat).1
      writes := if r = 1#1 then [(d.toNat, g)] else [], old := natWords 1 old }
  | _ => none

/-- An atomic of one thread on local HBM performs at the home L2, after the core's copy of the line has been written back and
dropped (R203, R274). -/
structure AtomSpec where
  vreads : List Nat
  even : List Nat
  ok : Bool
  pa : Option Nat
  n : Nat
  /-- The new value as a function of the old. -/
  new : Nat → Nat
  writes : List (Nat × Nat)

def AtomSpec.fits (p : AtomSpec) (s : State) : Bool :=
  inWindow (me s) [] p.vreads && p.even.all (fun r => r % 2 == 0) && decide ((me s).active ≠ 0) && p.vreads.all (fun r => (me s).tag r != 0)
    && cleanV (me s) p.vreads && settled s [] p.vreads && p.ok && oneThread s && p.pa.isSome

/-- The state an atomic finds: the core's copy of the line is gone. -/
def purged (s : State) (pa : Nat) : State := s.l1Purge (coreOf s.cur) (pa / 128)

def AtomSpec.done (p : AtomSpec) (s t : State) : Prop :=
  t = { memBooks s t with poisoned := t.poisoned, names := t.names, free := t.free, calendar := t.calendar, queues := t.queues }
  ∧ othersKept s t ∧ ctxsKept s t ∧ coresKept s t ∧ queuesRung s t ∧ movedTo (me s) (me t) ((me s).pc + 1) ∧ (me t).cur.a = (me s).cur.a
  ∧ ∀ pa, p.pa = some pa →
      let old := (purged s pa).l2Num pa p.n
      (∀ j, j < p.n → some (t.l2Read (pa + j)) = (leBytes p.n (p.new old))[j]?)
      ∧ (∀ a, (a < pa ∨ pa + p.n ≤ a) → t.l2Read a = (purged s pa).l2Read a)
      ∧ (∀ c a, a < 2 ^ 40 → (a < pa ∨ pa + p.n ≤ a) → t.coreRead c a = (purged s pa).coreRead c a)
      ∧ if p.writes.isEmpty then me t = booked (me s) (me t)
        else (∃ q, me t = { booked (me s) (me t) with tags := (me t).tags, u := (me t).u, pending := (me s).pending ++ [q] }
            ∧ holdsData q false (p.writes.map Prod.fst) (threads (me s).active) fun _ => natWords (p.n / 4) old)
          ∧ ∀ d ∈ p.writes, (me t).tag d.1 = BitVec.ofNat 4 d.2

/-- ATOM, and CAS and FATOM of a memory address, relaxed, by one thread (R203 to R206). -/
def memoryAtomics (i : Instr) (s : State) : Option AtomSpec :=
  let x := me s
  let k := lowest x.active
  match i with
  | .atom _ wide r o d a kk c =>
    let w64 := wide == 1#1
    let n := if w64 then 8 else 4
    let ds := if w64 then pair d else [d.toNat]
    some
    { vreads := pair a ++ ds, even := a.toNat :: if w64 then [d.toNat] else []
      ok := addrOk x a.toNat && (w64 || is32 (x.tag d.toNat)) && kk == 0 && scopeKept s c
      pa := local? s k (x.readV2 a.toNat k).toNat n n .atomic, n := n
      new := fun old => atomNew o.toNat (8 * n) old (wordsNat (ds.map fun r => x.readV r k))
      writes := if r = 1#1 then atomTags o.toNat d.toNat w64 else [] }
  | .cas _ y wide d a kk c =>
    let w64 := wide == 1#1
    let n := if w64 then 8 else 4
    let ds := (List.range (n / 2)).map (d.toNat + ·)
    let v := wordsNat (ds.map fun r => x.readV r k)
    if y = 1#1 then none
    else some
    { vreads := pair a ++ ds, even := [a.toNat, d.toNat], ok := addrOk x a.toNat && kk == 0 && scopeKept s c
      pa := local? s k (x.readV2 a.toNat k).toNat n n .atomic, n := n
      new := fun old => if old = v % 2 ^ (8 * n) then v / 2 ^ (8 * n) else old
      writes := if w64 then [(d.toNat, 14), (d.toNat + 1, 15)] else [(d.toNat, 1)] }
  | .fatom _ y r o d a kk c =>
    let g := (x.tag d.toNat).toNat
    if y = 1#1 then none
    else some
    { vreads := pair a ++ [d.toNat], even := [a.toNat], ok := addrOk x a.toNat && (g == 4 || g == 5 || g == 6) && kk == 0 && scopeKept s c
      pa := local? s k (x.readV2 a.toNat k).toNat 4 4 .atomic, n := 4
      new := fun old => (fatomNew o.toNat g old (x.readV d.toNat k).toNat).1
      writes := if r = 1#1 then [(d.toNat, g)] else [] }
  | _ => none

/-- The issuing core's clean bytes have been dropped (R226, R274). -/
def acquired (s t : State) : Prop := t.l1 = (s.l1Acquire (coreOf s.cur)).l1

/-- FENCE, PREF, CMAINT of one lane, and RDRAIN with nothing buffered (R208 to R211). -/
def fences (i : Instr) (s : State) : Option Effect :=
  let x := me s
  match i with
  | .fence _ kk c => some
    -- an acquire at any scope, or a release at a scope at which it waits for nothing but the log
    { ok := x.pending.isEmpty && noRecord s && scopeKept s c && (kk == 0 || (decide (c.toNat ≤ 1) && x.log.isEmpty && x.owed.isNone))
      holds := fun t => t = { booksOf s t with l1 := t.l1 } ∧ othersKept s t ∧ ctxsKept s t ∧ passed s t
        ∧ me t = { booked x (me t) with relWait := (me t).relWait }
        ∧ (if c.toNat ≥ 2 then acquired s t else t.l1 = s.l1) ∧ ∀ a, t.l2Read a = s.l2Read a }
  | .pref _ _ _ a b => some
    { ss := pair a, vs := [b.toNat], even := [a.toNat]
      ok := decide (x.active ≠ 0) && x.tag b.toNat != 0 && is32 (x.tag b.toNat) && decide (x.log.length < 4)
      holds := fun t => onlyWarp s t ∧ sameMemory s t ∧ me t = booked x (me t) ∧ passed s t }
  | .cmaint _ l v a b =>
    let k := lowest x.active
    let va := (x.readS2 a.toNat + (x.readV b.toNat k).signExtend 64).toNat / 128 * 128
    let pa := local? s k va 1 1 .read
    some
    { reads := pair a, vs := [b.toNat], even := [a.toNat]
      ok := decide (x.active ≠ 0) && x.tag b.toNat != 0 && is32 (x.tag b.toNat) && cleanV x [b.toNat] && oneLane s [b.toNat] && pa.isSome
      holds := fun t => othersKept s t ∧ ctxsKept s t ∧ coresKept s t ∧ queuesRung s t ∧ me t = booked x (me t) ∧ passed s t
        ∧ ∀ p, pa = some p →
            let s1 := s.l1Writeback (coreOf s.cur) (fun q _ => q / 128 == p / 128) (v == 1#1)
            t = { memBooks s t with l1 := s1.l1, poisoned := t.poisoned, names := t.names, queues := t.queues }
            ∧ (∀ q, t.l2Read q = s1.l2Read q)
            -- to the DRAM level, the line's bytes stand in HBM
            ∧ (l = 1#1 → ∀ q, q / 128 = p / 128 → Store.get 0 t.hbm q = s1.l2Read q)
            -- and an invalidation leaves no copy of it at its home
            ∧ (l = 1#1 → v = 1#1 → t.l2Way (p / 128) = none) }
  | .rdrain _ l a => some
    { reads := if l = 1#1 then [] else [a.toNat], ok := s.cores.all fun e => e.2.wc.isEmpty
      holds := fun t => onlyWarp s t ∧ sameMemory s t ∧ me t = booked x (me t) ∧ passed s t }
  | _ => none

/-! ### Barriers and quotas (R129, R131) -/

/-- The counts of a group after the running split's threads have arrived (R129): X takes M, and when it covers the live threads
the phase count rises and X empties. -/
def arrivedAt (s t : State) (g : Nat) : Prop :=
  let x := Store.get 0 (me s).barX g ||| (me s).cur.m
  let full := x &&& (me s).live == (me s).live
  Store.get 0 (me t).barX g = (if full then 0 else x)
  ∧ Store.get 0 (me t).barA g = Store.get 0 (me s).barA g + (if full then 1 else 0)
  ∧ ∀ h, h ≠ g → Store.get 0 (me t).barX h = Store.get 0 (me s).barX h ∧ Store.get 0 (me t).barA h = Store.get 0 (me s).barA h

/-- The warp is a member of the group, records no check point, and its arrival's release waits for nothing (R129, R287). -/
def barOk (s : State) (g : BitVec 8) : Bool :=
  (s.launchOf s.cur).selects g.toNat (me s).num && noRecord s && (me s).log.isEmpty && (me s).owed.isNone

/-- A warp's registers are as before. -/
def regsKept (x y : Warp) : Prop :=
  (∀ r, r < 61 → y.readS r = x.readS r) ∧ y.vregs = x.vregs ∧ y.tags = x.tags ∧ y.u = x.u ∧ y.preds = x.preds ∧ y.q = x.q
  ∧ y.mode = x.mode ∧ y.trap = x.trap

/-- BAR, BARA and BARW (R129): the arrival, then the wait, in which the split goes on when the count it waits for is complete and
else is PARKED on it. -/
def barriers (i : Instr) (s : State) : Option Effect :=
  let x := me s
  -- an arrival at a group of several workgroups is a release at DEVICE scope (R287)
  let retired := fun (t : State) (g : BitVec 8) (arrives : Bool) => (me t).rc = x.rc + 1 ∧ regsKept x (me t)
    ∧ (s.groupScope s.cur g.toNat = 1 → sameMemory s t)
    ∧ ∀ a, t.l2Read a = if arrives && s.groupScope s.cur g.toNat == 2 then (s.releaseL1 s.cur).l2Read a else s.l2Read a
  match i with
  | .bara _ g => some
    { ok := barOk s g && decide ((Store.get 0 x.barA g.toNat - s.completed s.cur g.toNat).toNat < 2 ^ 30)
      holds := fun t => retired t g true ∧ arrivedAt s t g.toNat ∧ (me t).run = x.run ∧ (me t).pc = x.pc + 1 }
  | .barw _ g =>
    let a := Store.get 0 x.barA g.toNat
    let met := a == 0 || countGe (s.completed s.cur g.toNat) a
    some
    { ok := (s.launchOf s.cur).selects g.toNat x.num && noRecord s && (met || x.valid == [x.run])
      holds := fun t => retired t g false
        ∧ (met → passed s t ∧ Store.get 0 (me t).seen g.toNat = a)
        ∧ (!met → (me t).run = 8 ∧ ((me t).split x.run).state = .parked ∧ ((me t).split x.run).parkGroup = g.toNat
            ∧ ((me t).split x.run).parkPhase = a ∧ ((me t).split x.run).pc = x.pc) }
  | .bar _ g =>
    -- other threads of the warp have yet to arrive, so that its count stays
    let waits := !(Store.get 0 x.barA g.toNat == 0 || countGe (s.completed s.cur g.toNat) (Store.get 0 x.barA g.toNat))
    some
    { ok := barOk s g && x.live &&& ~~~(Store.get 0 x.barX g.toNat ||| x.cur.m) != 0 && (!waits || x.valid == [x.run])
      holds := fun t => retired t g true ∧ arrivedAt s t g.toNat
        ∧ (!waits → (me t).run = x.run ∧ (me t).pc = x.pc + 1)
        ∧ (waits → (me t).run = 8 ∧ ((me t).split x.run).state = .parked ∧ ((me t).split x.run).parkGroup = g.toNat
            ∧ ((me t).split x.run).parkPhase = Store.get 0 x.barA g.toNat) }
  | .setquotaGive _ b =>
    let k := (x.readS b.toNat).toNat
    match s.windowAbove s.cur with
    | none => none
    | some v => some
      { reads := [b.toNat]
        ok := k % 8 == 0 && decide (k ≠ 0) && decide (k + 8 ≤ x.allot) && decide ((s.warp v).allot + k ≤ 64) && x.giveK == 0 && x.pending.isEmpty
        -- the gift is on its way, and the transfer is due within 64 cycles
        holds := fun t => sameMemory s t ∧ passed s t ∧ othersKept s t ∧ ctxsKept s t
          ∧ t = { booksOf s t with calendar := t.calendar, free := s.free + 1 }
          ∧ me t = { booked x (me t) with allot := x.allot - k, giveTo := v, giveK := k }
          ∧ ∃ n, t.calendar = s.calendar ++ [(n, .quotaTransferComplete s.cur)] ∧ s.tick.toNat < n
              ∧ n ≤ s.tick.toNat + s.cycles (coreOf s.cur) 64 }
  | _ => none

/-! ### Control registers (R50 to R52, R132) -/

/-- RDC gives a register's value as the view shows it. -/
def registerReads : Instr → Option ScalarSpec
  | .rdc _ d n => some
      { writes := [d.toNat], reads := [], ok := fun s => decide (n.toNat / 1024 ≤ s.levelOf (s.ctxOf s.cur))
        value := fun s => [s.readReg s.cur n.toNat] }
  | _ => none

/-- A context's register after a write. -/
def ctxBecomes (s t : State) (f : Ctx → Ctx) : Prop :=
  let c := s.ctxOf s.cur
  t.ctx c = { f (s.ctx c) with counts := (t.ctx c).counts } ∧ ∀ d, d ≠ c → t.ctx d = s.ctx d

/-- What a write leaves in the trap registers (R137): by the register's number, in every view. -/
def trapRegister (r : Nat) (v : Word) : Option (TrapRegs → TrapRegs) :=
  if r = 0x021 then some fun k => { k with pc := v }
  else if r = 0x026 then some fun k => { k with partialBit := v.getLsbD 7 }
  else if 0x027 ≤ r ∧ r ≤ 0x029 then some fun k => { k with mask := maskSet k.mask (r - 0x027) v }
  -- a reserved rounding code is stored as zero
  else if r = 0x02A then some fun k => { k with mode := if v.toNat / 32 % 8 ≥ 5 then BitVec.setWidth 11 v &&& 0x71F#11 else BitVec.setWidth 11 v }
  else none

/-- What a write by a warp at a moment leaves in a context's registers (R12, R52, R137, R267, R282, R283, R308, R431): by view and
number. EXECCFG keeps the old value for the context's other warps to use for a while. -/
def ctxRegister (time w view r : Nat) (v : Word) : Option (Ctx → Ctx) :=
  if r = 0x010 then some fun c =>
    if view = 0 then
      (if c.hazlock then c else { c with hazchk := v.getLsbD 0, hazOld := c.hazchk, hazAt := time, hazBy := w + 1 })
    else { c with hazchk := v.getLsbD 0, hazlock := v.getLsbD 1, hazOld := c.hazchk, hazAt := time, hazBy := w + 1 }
  else if r = 0x020 then some fun c => if view = 0 then c else { c with tvec := v }
  else if r = 0x040 then some fun c => { c with fdemote := c.fdemote && !v.getLsbD 0, peerlost := c.peerlost && !v.getLsbD 1 }
  else if r = 0x041 then some fun c =>
    { c with strict := if view = 0 then c.strict else v.getLsbD 0, pltrap := v.getLsbD 1, wcage := v.toNat / 4 % 256 }
  else if r = 0x051 then some fun c => { c with dbgstat := c.dbgstat &&& ~~~(BitVec.setWidth 5 v) }
  else if r = 0x060 then some fun c => { c with ptroot := c.ptroot / 2 ^ 32 * 2 ^ 32 + v.toNat / 8192 * 8192 }
  else if r = 0x061 then some fun c => { c with ptroot := c.ptroot % 2 ^ 32 + v.toNat % 256 * 2 ^ 32 }
  else if r = 0x0B1 then some fun c => { c with tracebase := DWord.ofWords v c.tracebase.hi }
  else if r = 0x0B2 then some fun c => { c with tracebase := DWord.ofWords c.tracebase.lo v }
  -- a write of 1 clears its bit of the count
  else if r = 0x0B4 then some fun c => { c with traceovf := clear16 c.traceovf v }
  else if r = 0x0B6 then some fun c => { c with rrarea := DWord.ofWords v c.rrarea.hi }
  else if r = 0x0B7 then some fun c => { c with rrarea := DWord.ofWords c.rrarea.lo v }
  else if r = 0x0B8 then some fun c => { c with dumpOn := v.getLsbD 0, dumpCauses := BitVec.setWidth 20 (v >>> 1) }
  else if r = 0x0B9 then some fun c => { c with dumpbase := DWord.ofWords v c.dumpbase.hi }
  else if r = 0x0BA then some fun c => { c with dumpbase := DWord.ofWords c.dumpbase.lo v }
  else if r = 0x0BB then some fun c => { c with dumpsize := v }
  else none

/-- What a write leaves in the device's selecting registers (R341, R376, R425, R454, R459). -/
def deviceRegister (r : Nat) (v : Word) : Option (State → State) :=
  let n := v.toNat
  if r = 0x090 then some fun s => { s with qsel := n % 1024 }
  else if r = 0x091 then some fun s => { s with qbase := s.qbase / 2 ^ 32 * 2 ^ 32 + n / 64 * 64 }
  else if r = 0x092 then some fun s => { s with qbase := s.qbase % 2 ^ 32 + n % 256 * 2 ^ 32 }
  else if r = 0x093 then some fun s => { s with qpriv0 := v.setWidth 22 }
  else if r = 0x094 then some fun s => { s with qpriv1 := v }
  else if r = 0x0A1 then some fun s => { s with portsel := n % 32 }
  else if r = 0x0A5 then some fun s => { s with peersel := n % 512 }
  else if r = 0x0C0 then some fun s => { s with pwrsel := n % 64 }
  -- a cap out of range is stored as 300
  else if r = 0x0C1 then some fun s => { s with pwrcap := if 50 ≤ n % 512 ∧ n % 512 ≤ 300 then n % 512 else 300 }
  else if r = 0x0D4 then some fun s => { s with ctxsel := n }
  else if r = 0x0D8 then some fun s => { s with ringsel := v.setWidth 6 }
  else if r = 0x0E0 then some fun s => { s with ptbase := s.ptbase / 2 ^ 32 * 2 ^ 32 + n / 256 * 256 }
  else if r = 0x0E1 then some fun s => { s with ptbase := s.ptbase % 2 ^ 32 + n % 256 * 2 ^ 32 }
  else none

/-- WRC (R52, R70, R137, R267, R282, R308, R321, R431): the fields each register of a warp, of a context and of the device takes
from sA. A number that names no register of the view changes nothing. -/
def registerWrites (i : Instr) (s : State) : Option Effect :=
  let x := me s
  match i with
  | .wrc _ a n =>
    let v := x.readS a.toNat
    let view := n.toNat / 1024
    let r := n.toNat % 1024
    let quiet := fun (t : State) => t = booksOf s t ∧ othersKept s t ∧ sameMemory s t ∧ passed s t
    let own := fun (t : State) (f : Warp → Warp) => quiet t ∧ ctxsKept s t ∧ me t = f (booked x (me t))
    some
    { reads := [a.toNat], level := view
      ok := !viewHolds view r || (trapRegister r v).isSome || (ctxRegister s.time s.cur view r v).isSome || (deviceRegister r v).isSome
        || (0x020 ≤ r && decide (r ≤ 0x02E))
      holds := fun t =>
        if !viewHolds view r then own t id
        else match trapRegister r v, ctxRegister s.time s.cur view r v, deviceRegister r v with
          | some f, _, _ => own t fun y => { y with trap := f y.trap }
          | none, some f, _ => quiet t ∧ me t = booked x (me t) ∧ ctxBecomes s t f
          | none, none, some f => t = booksOf (f s) t ∧ othersKept s t ∧ ctxsKept s t ∧ sameMemory s t ∧ passed s t ∧ me t = booked x (me t)
          | none, none, none => if r = 0x02E then own t fun y => { y with logDrop := v.getLsbD 0 } else own t id }
  | _ => none

/-! ### Tiles (R213 to R244) -/

/-- The warp's workgroup, and whether its tiles are those of the core the warp is on. -/
def myWg (s : State) : Nat := (me s).wg
def homeOk (s : State) : Bool := (s.wg (myWg s)).core == coreOf s.cur

/-- The state after a word on tiles: besides the books, the core's tiles and engines; `more` gives the further parts. -/
def tileBooks (s t : State) : State := { booksOf s t with cores := t.cores }
/-- One tile is as a function says and every other tile of every core is as before. -/
def tileBecomes (s t : State) (n : Nat) (f : Tile → Tile) : Prop :=
  let g := s.wg (myWg s)
  (∀ c k, (c ≠ g.core ∨ k ≠ g.tbase + n) → Store.get ({} : Tile) (t.core c).tiles k = Store.get ({} : Tile) (s.core c).tiles k)
  ∧ t.tile (myWg s) n = f (s.tile (myWg s) n)

/-- Tile n is in the window and has no error (R218). -/
def tileOk (s : State) (n : Nat) : Bool := decide (n < (s.wg (myWg s)).tcount) && !(s.tile (myWg s) n).err

/-- The value of TSTATE (R223), by its bit fields. PEND also tells of a row operation whose results are outstanding (R91). -/
def tileStatus (s : State) (n : Nat) : Word :=
  let e := s.tile (myWg s) n
  let st := match e.state with
    | .empty => 0
    | .filling => 1
    | .ready => 2
    | .draining => 3
  let kd := match e.kind with
    | .scr => 0
    | .opnd => 1
    | .acc => 2
  let rows := (s.wg (myWg s)).warps.any fun w => (s.warp w).pending.any fun p => p.tile == some n
  BitVec.ofNat 32 (st + 4 * kd + (if e.bound ∨ e.kind ≠ .opnd then 16 else 0)
    + (if e.work ≠ 0 ∨ e.mmas ≠ 0 ∨ e.readers ≠ 0 ∨ rows then 32 else 0) + (if e.err then 64 else 0) + 256 * e.readers + 65536 * e.tag)

/-- A word that names a READY tile acquires, and no other does (R226); the home L2 is as before. -/
def namedAs (s t : State) (e : Tile) : Prop :=
  (if e.state = .ready then acquired s t else t.l1 = s.l1) ∧ ∀ a, t.l2Read a = s.l2Read a

/-- TDEF, TFREE, TSTATE, TWAIT, CLAIM, CLAIMT, RELEASE and MFENCE (R220 to R223, R226, R237). -/
def tileWords (i : Instr) (s : State) : Option Effect :=
  let x := me s
  let g := myWg s
  let base := fun (t : State) => othersKept s t ∧ ctxsKept s t ∧ passed s t
  match i with
  | .tdef _ k tg d a b =>
    let n := d.toNat
    let sa := (x.readS a.toNat).toNat
    let sb := (x.readS b.toNat).toNat
    let kind : TileKind := if k = 0#2 then .scr else if k = 1#2 then .opnd else .acc
    let cols := if kind = .opnd then kSpan tg.toNat else sa / 1024 % 4096
    let e := s.tile g n
    some
    { reads := [a.toNat, b.toNat]
      ok := decide (n < (s.wg g).tcount) && e.state == .empty && !s.tilePend g n && !(e.kind == .opnd && e.bound)
        && decide (sa < 2 ^ 22) && shapeOk kind tg.toNat (sa % 1024) cols
        && (match kind with
          | .scr => sb % 128 == 0 && decide (sb + scrBytes tg.toNat (sa % 1024) cols ≤ (s.wg g).scratchLen)
          | .opnd => sa / 1024 % 4096 == 0 && sb == 0
          | .acc => decide (sb < 32) && decide (sb / 4 * 32 + cols ≤ 192) && (s.accOf g (sb % 4)).isSome)
      holds := fun t => base t ∧ t = tileBooks s t ∧ me t = booked x (me t) ∧ sameMemory s t
        ∧ tileBecomes s t n fun _ =>
            { used := true, kind := kind, tag := tg.toNat, rows := sa % 1024, cols := cols, owner := g, bound := kind != .opnd
              base := if kind = .scr then sb else if kind = .acc then sb / 4 % 8 * 32 else 0, lacc := if kind = .acc then sb % 4 else 0 } }
  | .tfree _ a => some
    { ok := decide (a.toNat < (s.wg g).tcount) && !s.tilePend g a.toNat
      holds := fun t => base t ∧ t = { tileBooks s t with l1 := t.l1 } ∧ me t = booked x (me t) ∧ namedAs s t (s.tile g a.toNat)
        ∧ tileBecomes s t a.toNat fun k => { k with state := .empty, err := false, errCause := 0, errAddr := 0 } }
  | .tstate _ d a =>
    let e := s.tile g a.toNat
    some
    { ss := [d.toNat], ok := decide (a.toNat < (s.wg g).tcount)
      holds := fun t => othersKept s t ∧ ctxsKept s t ∧ t = { booksOf s t with l1 := t.l1 } ∧ namedAs s t e
        ∧ movedTo x (me t) (x.pc + 1) ∧ me t = { booked x (me t) with sregs := (me t).sregs, spoison := (me t).spoison }
        ∧ ∀ r, r < 64 → (me t).readS r = if r = d.toNat then readBack x r (tileStatus s a.toNat) else x.readS r }
  | .twait _ a =>
    let e := s.tile g a.toNat
    some
    { ok := decide (a.toNat < (s.wg g).tcount) && !s.tilePend g a.toNat && (e.state == .ready || e.state == .empty) && noRecord s
      holds := fun t => base t ∧ t = { booksOf s t with l1 := t.l1 } ∧ me t = booked x (me t) ∧ acquired s t }
  | .claim _ a =>
    let e := s.tile g a.toNat
    some
    { ok := tileOk s a.toNat && e.kind == .opnd && !e.bound && homeOk s && (s.freeQuanta (coreOf s.cur) e.rows).isSome
      holds := fun t => base t ∧ me t = booked x (me t) ∧ sameMemory s t
        ∧ ∀ q, s.freeQuanta (coreOf s.cur) e.rows = some q →
            tileBecomes s t a.toNat (fun k => { k with bound := true, base := q })
            ∧ ∀ j, j < quantaOf e.rows → Store.get 0 (t.core (coreOf s.cur)).qOwner (q + j) = g + 1 }
  | .claimt _ d a =>
    let e := s.tile g a.toNat
    some
    { ok := tileOk s a.toNat && e.kind == .opnd && !e.bound && homeOk s
      holds := fun t => base t ∧ me t = { booked x (me t) with q := (me t).q } ∧ sameMemory s t
        ∧ (∀ j, j < 8 → (me t).q.getLsbD j =
            if j = d.toNat then (s.freeQuanta (coreOf s.cur) e.rows).isSome else x.q.getLsbD j)
        ∧ match s.freeQuanta (coreOf s.cur) e.rows with
          | some q => tileBecomes s t a.toNat fun k => { k with bound := true, base := q }
          | none => t = booksOf s t }
  | .release _ a =>
    let e := s.tile g a.toNat
    some
    { ok := decide (a.toNat < (s.wg g).tcount) && e.kind == .opnd && e.bound && e.readers == 0 && (e.state == .ready || e.state == .empty)
      holds := fun t => base t ∧ t = { tileBooks s t with l1 := t.l1 } ∧ me t = booked x (me t) ∧ namedAs s t e
        ∧ tileBecomes s t a.toNat (fun k => { k with state := .empty, bound := false, base := 0, err := false, errCause := 0, errAddr := 0 })
        ∧ ∀ j, j < quantaOf e.rows → Store.get 0 (t.core (s.wg g).core).qOwner (e.base + j) = 0 }
  | .mfence _ l a =>
    let e := s.tile g a.toNat
    some
    { ok := !((s.core (coreOf s.cur)).mmas.any fun k => k.wg == g && (l == 1#1 || k.dst == a.toNat || k.a == a.toNat || k.b == a.toNat))
        && (l == 1#1 || (tileOk s a.toNat && e.state != .empty && (e.kind != .acc || (s.accOf g e.lacc).isSome)))
      holds := fun t => base t ∧ t = { booksOf s t with l1 := t.l1 } ∧ me t = { booked x (me t) with mark := none }
        ∧ namedAs s t (if l = 1#1 then {} else e) }
  | _ => none

/-- TSTATE of a tile that is not READY, whose naming acquires nothing. -/
def tileReads : Instr → Option ScalarSpec
  | .tstate _ d a => some
      { writes := [d.toNat], reads := []
        ok := fun s => decide (a.toNat < (s.wg (myWg s)).tcount) && (s.tile (myWg s) a.toNat).state != .ready
        value := fun s => [tileStatus s a.toNat] }
  | _ => none

/-- An engine queue has taken one entry at its end (R227): its work, its warp and the mode it latched. -/
def postedTo (s t : State) (q : Nat) (work : EngineWork) : Prop :=
  (∃ id, t.engine (myWg s) q = s.engine (myWg s) q ++ [{ id := id, work := work, wid := s.cur, mode := (me s).mode }])
  ∧ ∀ r, r ≠ q → t.engine (myWg s) r = s.engine (myWg s) r

/-- CPY, CPYG, QFENCE, COLL, MMA, MMAZ and ACCZ (R228 to R244): the checks of R218 hold, nothing must be waited for, and the
entry is posted. -/
def engineWords (i : Instr) (s : State) : Option Effect :=
  let x := me s
  let g := myWg s
  let base := fun (t : State) => othersKept s t ∧ passed s t ∧ me t = booked x (me t) ∧ ∀ a, t.l2Read a = s.l2Read a
  let named := fun (n : Nat) => tileOk s n && ((s.tile g n).kind != .acc || (s.accOf g (s.tile g n).lacc).isSome)
  let dest := fun (n : Nat) (q : Option Nat) => named n && (s.tile g n).fillOk q && ((s.tile g n).kind != .opnd || (s.tile g n).bound)
  let source := fun (n : Nat) (q : Option Nat) => named n && (s.tile g n).sourceOk q
  match i with
  | .cpy _ fr e d a b =>
    let sb := (x.readS b.toNat).toNat
    let r0 := sb % 1024
    let c0 := sb / 1024
    let td := s.tile g d.toNat
    let ta := s.tile g a.toNat
    some
    { reads := [b.toNat]
      ok := noRecord s && d != a && dest d.toNat (some e.toNat) && source a.toNat (some e.toNat) && copyPair ta.tag td.tag
        && decide (c0 < 4096 ∧ r0 + ta.rows ≤ td.rows ∧ c0 + ta.cols ≤ td.cols) && (td.tag != 9 || (c0 % 32 == 0 && ta.cols % 32 == 0))
        && decide ((s.engine g e.toNat).length < 16)
      holds := fun t => base t ∧ ctxsKept s t ∧ postedTo s t e.toNat (.cpy d.toNat a.toNat r0 c0 (fr == 1#1))
        ∧ (t.tile g d.toNat).state = .filling ∧ (t.tile g d.toNat).work = td.work + 1 ∧ (t.tile g d.toNat).queue = e.toNat
        ∧ (t.tile g a.toNat).state = .draining ∧ (t.tile g a.toNat).work = ta.work + 1 ∧ (t.tile g a.toNat).queue = e.toNat }
  | .cpyg _ y fr z e d a =>
    let r := 4 * a.toNat
    let td := s.tile g d.toNat
    let va := x.readS2 r
    let pitch := (x.readS (r + 2)).toNat
    let bp := (x.readS (r + 3)).toNat
    let st := z == 1#1
    some
    { reads := [r, r + 1, r + 2, r + 3]
      ok := noRecord s && (if st then source d.toNat (some e.toNat) else dest d.toNat (some e.toNat)) && (s.wg g).core == coreOf s.cur
        && (y == 0#1 || tagNibs td.tag == 4 || tagNibs td.tag == 8) && va.toNat % 16 == 0 && pitch % 16 == 0 && bp % 16 == 0
        && decide ((s.engine g e.toNat).length < 16) && s.l1.isEmpty
      holds := fun t => base t ∧ ctxsKept s t ∧ postedTo s t e.toNat (.cpyg d.toNat st (fr == 1#1) (y == 1#1) va pitch bp)
        ∧ (t.tile g d.toNat).state = (if st then .draining else .filling) ∧ (t.tile g d.toNat).work = td.work + 1 }
  | .qfence _ mm => some
    { ok := noRecord s && (List.range 8).all fun q => !mm.getLsbD q || decide ((s.engine g q).length < 16)
      holds := fun t => base t ∧ ctxsKept s t ∧ ∃ id, ∀ q, q < 8 → t.engine g q =
        if mm.getLsbD q then s.engine g q ++ [{ id := id, work := .marker id mm.toNat, wid := s.cur, mode := x.mode }] else s.engine g q }
  | .coll _ tl e a b =>
    let hn := (x.readS a.toNat).toNat
    let h := Store.get ({} : Handle) (s.ctx (s.ctxOf s.cur)).handles hn
    some
    { reads := [a.toNat]
      ok := noRecord s && decide (hn < 16) && h.used && decide ((s.engine g e.toNat).length < 16) && s.l1.isEmpty
        && (tl == 0#1 || (dest b.toNat none && (s.tile g b.toNat).kind != .opnd && (s.tile g b.toNat).tag == 4))
      holds := fun t => base t
        ∧ postedTo s t e.toNat (.coll hn h.round (if tl = 1#1 then some b.toNat else none))
        ∧ Store.get ({} : Handle) (t.ctx (s.ctxOf s.cur)).handles hn = { h with posted := h.posted + 1, round := (h.round + 1) % 256 }
        ∧ (tl = 1#1 → (t.tile g b.toNat).state = .filling ∧ (t.tile g b.toNat).queue = e.toNat) }
  | .mma _ d a b => matrix false d.toNat a.toNat b.toNat
  | .mmaz _ d a b => matrix true d.toNat a.toNat b.toNat
  | .accz _ d =>
    let e := s.tile g d.toNat
    some
    { ok := dest d.toNat none && e.kind == .acc && homeOk s && (s.core (coreOf s.cur)).mmas.isEmpty && decide (e.base + e.cols ≤ 192)
      holds := fun t => base t ∧ ctxsKept s t ∧ t = { tileBooks s t with l1 := t.l1 } ∧ (t.tile g d.toNat).state = .ready
        ∧ ∀ p, s.accOf g e.lacc = some p → ∀ r c, r < 96 → c < e.cols → t.accAt (coreOf s.cur) p r (e.base + c) = 0 }
  | _ => none
where
  /-- An MMA joins the core's queue, and its tiles count it. -/
  matrix (z : Bool) (d a b : Nat) : Option Effect :=
    let g := myWg s
    let td := s.tile g d
    let ta := s.tile g a
    let tb := s.tile g b
    some
    { ok := noRecord s && tileOk s d && tileOk s a && tileOk s b && td.kind == .acc && ta.kind == .opnd && tb.kind == .opnd
        && ta.tag == tb.tag && td.tag == (if ta.tag = 11 then 2 else 4) && ta.rows == 96 && tb.rows == td.cols
        && (if z then td.fillOk none else td.state == .ready) && ta.state == .ready && tb.state == .ready && (s.accOf g td.lacc).isSome
        && decide (ta.readers < 254) && decide (tb.readers < 254) && decide ((s.core (coreOf s.cur)).mmas.length < 8) && homeOk s
      holds := fun t => othersKept s t ∧ passed s t ∧ me t = booked (me s) (me t) ∧ ctxsKept s t ∧ (∀ p, t.l2Read p = s.l2Read p)
        ∧ (∃ id, (t.core (coreOf s.cur)).mmas = (s.core (coreOf s.cur)).mmas ++ [{ id := id, wg := g, dst := d, a := a, b := b, zero := z }]
            -- its start is at least 16 cycles away (R234)
            ∧ ∃ n, t.calendar = s.calendar ++ [(n, .mmaStart (coreOf s.cur) id)] ∧ s.tick.toNat + s.cycles (coreOf s.cur) 16 ≤ n)
        ∧ (t.tile g a).readers = ta.readers + (if a = b then 2 else 1) ∧ (t.tile g b).readers = tb.readers + (if a = b then 2 else 1)
        ∧ (t.tile g d).state = .ready ∧ (t.tile g d).mmas = td.mmas + 1 }

/-- COLLI (R242): allocates the lowest free handle, or frees one with nothing posted; all ones where there is none. -/
def collectiveHandles (i : Instr) (s : State) : Option ScalarSpec :=
  match i with
  | .colli _ d a =>
    let desc := (me s).readS2 a.toNat
    let hs := (s.ctx (s.ctxOf s.cur)).handles
    -- a call that finds no handle, or names none, changes no handle
    some
    { writes := [d.toNat], reads := pair a ++ if desc = 0 then [d.toNat] else [], even := [a.toNat]
      ok := fun _ => if desc ≠ 0 then (List.range 16).all fun n => (Store.get ({} : Handle) hs n).used
        else decide (16 ≤ ((me s).readS d.toNat).toNat)
      value := fun _ => [0xFFFFFFFF] }
  | _ => none

/-- COLLI that allocates or frees. -/
def collectiveOpens (i : Instr) (s : State) : Option Effect :=
  let x := me s
  match i with
  | .colli _ d a =>
    let desc := x.readS2 a.toNat
    let c := s.ctxOf s.cur
    let h := fun (u : State) (n : Nat) => Store.get ({} : Handle) (u.ctx c).handles n
    let free := (List.range 16).find? fun n => !(h s n).used
    let n := (x.readS d.toNat).toNat
    some
    { reads := pair a ++ if desc = 0 then [d.toNat] else [], ss := [d.toNat], even := [a.toNat]
      ok := if desc ≠ 0 then free.isSome else decide (n < 16) && (h s n).used && (h s n).posted == 0
      holds := fun t => t = booksOf s t ∧ othersKept s t ∧ sameMemory s t ∧ movedTo x (me t) (x.pc + 1)
        ∧ me t = { booked x (me t) with sregs := (me t).sregs, spoison := (me t).spoison }
        ∧ (if desc ≠ 0 then ∀ k, free = some k →
              h t k = { used := true, desc := desc } ∧ (me t).readS d.toNat = readBack x d.toNat (BitVec.ofNat 32 k)
              ∧ ∀ j, j ≠ k → h t j = h s j
            else h t n = {} ∧ (me t).readS d.toNat = readBack x d.toNat 0 ∧ ∀ j, j ≠ n → h t j = h s j) }
  | _ => none

/-! ### Accumulator rows (R238 to R241) -/

/-- What a row word asks: a READY accumulator tile of the warp's core, within its 192 columns (R213), bound and touched by its workgroup before, no MMA in
progress, and every active thread a row. -/
def accOk (s : State) (n : Nat) : Bool :=
  let e := s.tile (myWg s) n
  tileOk s n && e.kind == .acc && e.state == .ready && homeOk s && (s.core (coreOf s.cur)).mmas.isEmpty && decide (e.base + e.cols ≤ 192)
    && (match s.accOf (myWg s) e.lacc with
      | some p => Store.get 0 (s.core (coreOf s.cur)).accLast p == myWg s + 1
      | none => false)

/-- An element of an accumulator tile's window: row r, column c of the tile. -/
def accElem (s : State) (n r c : Nat) : Word :=
  let e := s.tile (myWg s) n
  s.accAt (coreOf s.cur) ((s.accOf (myWg s) e.lacc).getD 0) r (e.base + c)

/-- The row reads, long-latency (R239). -/
def accReads (i : Instr) (s : State) : Option VectorSpec :=
  let x := me s
  let spec := fun (d n : Nat) (ss : List Nat) (value : Nat → Word) => some
    ({ sreads := ss, vreads := [], writes := [(d, (s.tile (myWg s) n).tag)], tagsOk := accOk s n, uni := none
       value := fun t => [value t] } : VectorSpec)
  let wd := fun (n : Nat) => (s.tile (myWg s) n).cols
  match i with
  | .accrd _ d a b =>
    let c := (x.readS b.toNat).toNat
    spec d.toNat a.toNat [b.toNat] fun t => if c < wd a.toNat then accElem s a.toNat t c else 0
  | .accrdc _ d a b =>
    let r := (x.readS b.toNat).toNat % 256
    let c := (x.readS b.toNat).toNat / 256 % 256
    spec d.toNat a.toNat [b.toNat] fun t => if r < 96 ∧ c + t < wd a.toNat then accElem s a.toNat r (c + t) else 0
  | .accmax _ d a => spec d.toNat a.toNat [] fun t =>
      (rowFold true ((s.tile (myWg s) a.toNat).tag == 4) ((List.range (wd a.toNat)).map (accElem s a.toNat t))).1
  | .accsum _ d a => spec d.toNat a.toNat [] fun t =>
      (rowFold false ((s.tile (myWg s) a.toNat).tag == 4) ((List.range (wd a.toNat)).map (accElem s a.toNat t))).1
  | _ => none

/-- A word that rewrites elements of the active rows: `new` gives the element of a row and a column, where it writes one. -/
structure RowSpec where
  sreads : List Nat
  vreads : List Nat
  n : Nat
  /-- The tile must hold FP32. -/
  fp : Bool
  new : Nat → Nat → Option Word

def RowSpec.fits (p : RowSpec) (s : State) : Bool :=
  inWindow (me s) p.sreads p.vreads && decide ((me s).active ≠ 0) && p.vreads.all (fun r => (me s).tag r != 0) && cleanS (me s) p.sreads
    && cleanV (me s) p.vreads && settled s p.sreads p.vreads && accOk s p.n
    && (!p.fp || (s.tile (myWg s) p.n).tag == 4) && p.vreads.all fun r => ((me s).tag r).toNat == (s.tile (myWg s) p.n).tag

/-- The effect: each active thread's row has its new elements; other elements, and every register, are as before. -/
def RowSpec.done (p : RowSpec) (s t : State) : Prop :=
  othersKept s t ∧ ctxsKept s t ∧ passed s t ∧ me t = booked (me s) (me t) ∧ t = { tileBooks s t with l1 := t.l1 } ∧ acquired s t
  ∧ (∀ c, c ≠ coreOf s.cur → t.core c = s.core c)
  ∧ t.core (coreOf s.cur) = { s.core (coreOf s.cur) with acc := (t.core (coreOf s.cur)).acc }
  ∧ ∀ r c, r < 96 → c < (s.tile (myWg s) p.n).cols →
      accElem t p.n r c = if (me s).active.getLsbD r then (p.new r c).getD (accElem s p.n r c) else accElem s p.n r c

/-- ACCWR, ACCSCL, ACCEXP and ACCMASK (R239 to R241). -/
def accWrites (i : Instr) (s : State) : Option RowSpec :=
  let x := me s
  let f := Fmt.fp32
  match i with
  | .accwr _ d a b => some
      { sreads := [b.toNat], vreads := [a.toNat], n := d.toNat, fp := false
        new := fun t c => if c = (x.readS b.toNat).toNat then some (x.readV a.toNat t) else none }
  | .accscl _ d a => some
      { sreads := [], vreads := [a.toNat], n := d.toNat, fp := true
        new := fun t c => some (BitVec.ofNat 32
          (f.mulRes .rne false (f.decode (accElem s d.toNat t c).toNat) (f.decode (x.readV a.toNat t).toNat)).bits) }
  | .accexp _ d a b => some
      { sreads := [b.toNat], vreads := [a.toNat], n := d.toNat, fp := true
        new := fun t c => some (if x.readV a.toNat t = 0xFF800000 then 0 else BitVec.ofNat 32 (f.funRes .exp2 false (f.decode
          (f.fmaRes .rne false false true (f.decode (accElem s d.toNat t c).toNat) (f.decode (x.readS b.toNat).toNat)
            (f.decode (x.readV a.toNat t).toNat)).bits)).bits) }
  | .accmask _ d a b => some
      { sreads := [a.toNat, b.toNat], vreads := [], n := d.toNat, fp := true
        new := fun t c => if (t : Int) + (x.readS a.toNat).toInt < c ∨ (x.readS b.toNat).toNat ≤ c then some 0xFF800000 else none }
  | _ => none

/-! ### Watches, halts and privileged words (R249 to R271) -/

/-- A bank's watches after a word: those the warp may act on change as a function says, the others and every other bank not. -/
def banksBecome (s t : State) (core : Nat) (f : Nat → Watch → Watch) : Prop :=
  (∀ c, c ≠ core → t.core c = s.core c) ∧ t.core core = { s.core core with watches := (t.core core).watches }
  ∧ ∀ n, n < 16 →
      let k := Store.get ({} : Watch) (s.core core).watches n
      Store.get ({} : Watch) (t.core core).watches n = if s.ownsWatch s.cur k then f n k else k

/-- WSET, WCLR, WARM, HWRITE, HSTOP, HRESUME, HSTEP, TRACEM and RPCHK. -/
def debugWords (i : Instr) (s : State) : Option Effect :=
  let x := me s
  let base := fun (t : State) => passed s t ∧ sameMemory s t
  let num := fun (r : Nat) => (x.readS r).toNat
  match i with
  | .wset _ n d a =>
    let r := 8 * a.toNat
    let desc := fun j => num (r + j)
    some
    { reads := (List.range 8).map (r + ·), ss := [d.toNat], level := 1
      holds := fun t => othersKept s t ∧ sameMemory s t ∧ movedTo x (me t) (x.pc + 1)
        ∧ me t = { booked x (me t) with sregs := (me t).sregs, spoison := (me t).spoison }
        ∧ (∀ q, q < 61 → q ≠ d.toNat → (me t).readS q = x.readS q)
        ∧ match s.watchFrom s.cur n.toNat desc with
          | some (core, k) => ctxsKept s t ∧ t = tileBooks s t ∧ (me t).readS d.toNat = 0 ∧ (∀ c, c ≠ core → t.core c = s.core c)
              ∧ t.core core = { s.core core with watches := (t.core core).watches }
              ∧ ∀ j, Store.get ({} : Watch) (t.core core).watches j = if j = n.toNat then k else Store.get ({} : Watch) (s.core core).watches j
          | none => t = booksOf s t ∧ (me t).readS d.toNat = readBack x d.toNat 1
              ∧ ∀ c, t.ctx c = { s.ctx c with
                  counts := (t.ctx c).counts
                  dbgstat := if c = s.ctxOf s.cur then (s.ctx c).dbgstat ||| 1 else (s.ctx c).dbgstat } }
  | .wclr _ a =>
    let core := bankOf s.cur (num a.toNat / 2 ^ 24)
    some
    { reads := [a.toNat], level := 1, ok := s.reachesCore s.cur core
      holds := fun t => base t ∧ othersKept s t ∧ ctxsKept s t ∧ me t = booked x (me t) ∧ t = tileBooks s t
        ∧ banksBecome s t core fun j k => if num a.toNat / 2 ^ j % 2 = 1 then {} else k }
  | .warm _ a b =>
    let core := bankOf s.cur (num a.toNat / 2 ^ 24)
    some
    { reads := [a.toNat, b.toNat], level := 1, ok := s.reachesCore s.cur core
      holds := fun t => base t ∧ othersKept s t ∧ ctxsKept s t ∧ me t = booked x (me t) ∧ t = tileBooks s t
        ∧ banksBecome s t core fun j k =>
            if !k.valid then k
            -- arming comes before disarming
            else if num a.toNat / 2 ^ j % 2 = 1 then { k with armed := true }
            else if num b.toNat / 2 ^ j % 2 = 1 then { k with armed := false } else k }
  | .hwrite _ mm d a b =>
    let sel := num b.toNat
    let v := x.readS d.toNat
    some
    { reads := [a.toNat, b.toNat, d.toNat], level := 1
      ok := match s.target s.cur (x.readS a.toNat) with
        | some (k, th) => k != s.cur && s.itemOk k th mm.toNat sel && decide (mm.toNat ≤ 2) && decide (sel ≤ 60)
        | none => false
      holds := fun t => base t ∧ ctxsKept s t ∧ me t = booked x (me t) ∧ t = booksOf s t
        ∧ ∀ k th, s.target s.cur (x.readS a.toNat) = some (k, th) →
            (∀ w, w ≠ s.cur → w ≠ k → t.warp w = s.warp w)
            ∧ (mm = 0#3 → (t.warp k).readV sel th = v ∧ ∀ r j, r < 64 → j < 96 → (r ≠ sel ∨ j ≠ th) → (t.warp k).readV r j = (s.warp k).readV r j)
            ∧ (mm = 1#3 → (t.warp k).tag sel = BitVec.setWidth 4 v ∧ (t.warp k).uBit sel = v.getLsbD 4)
            ∧ (mm = 2#3 → (t.warp k).readS sel = if sel = 0 then 0 else v) }
  | .hstop _ a b => some
    { reads := [a.toNat, b.toNat], level := 1
      ok := match s.target s.cur (x.readS a.toNat) with
        | some (k, _) => k != s.cur && x.readS b.toNat == 2 && !(s.warp k).held && (s.warp k).gang == 0 && (s.warp k).rest.isEmpty
            && !(s.ctx (s.ctxOf k)).dbgctl.getLsbD 1
        | none => false
      holds := fun t => passed s t ∧ sameMemory s t ∧ me t = booked x (me t)
        ∧ ∀ k th, s.target s.cur (x.readS a.toNat) = some (k, th) →
            t.warp k = { s.warp k with whalt := true, haltCause := 2, haltWatch := 0, haltSlot := 0, haltPartial := false }
            ∧ (t.ctx (s.ctxOf k)).dbgstat.getLsbD 4 = true ∧ ∀ w, w ≠ s.cur → w ≠ k → t.warp w = s.warp w }
  | .hresume _ a b => some
    { reads := [a.toNat, b.toNat], level := 1
      ok := match s.target s.cur (x.readS a.toNat) with
        | some (k, _) => k != s.cur && x.readS b.toNat == 2 && (s.warp k).held && (s.warp k).log.isEmpty && !(s.wg (s.warp k).wg).engHalt
        | none => false
      holds := fun t => base t ∧ ctxsKept s t ∧ me t = booked x (me t) ∧ t = booksOf s t
        ∧ ∀ k th, s.target s.cur (x.readS a.toNat) = some (k, th) →
            t.warp k = { s.warp k with
              whalt := false, doubled := false, haltPartial := false
              resumeFrom := if (s.warp k).haltPartial then (s.warp k).haltSlot else (s.warp k).resumeFrom }
            ∧ ∀ w, w ≠ s.cur → w ≠ k → t.warp w = s.warp w }
  | .hstep m a b => some
    { reads := [a.toNat, b.toNat], level := 1
      ok := match s.target s.cur (x.readS a.toNat) with
        | some (k, th) => k != s.cur && x.readS b.toNat == 0 && ((s.warp k).entryOf th).isSome && (s.warp k).step.isNone
            && (s.warp k).isHalted th
        | none => false
      holds := fun t => base t ∧ ctxsKept s t ∧ me t = booked x (me t) ∧ t = booksOf s t
        -- the issuer waits while the word runs (R264)
        ∧ ∀ k th, s.target s.cur (x.readS a.toNat) = some (k, th) →
            (me t).park = .hstep k (m && !x.pending.isEmpty) ∧ t.warp k = { s.warp k with step := some (0, th, s.cur) }
            ∧ ∀ w, w ≠ s.cur → w ≠ k → t.warp w = s.warp w }
  | .tracem _ a b => some
    { reads := [a.toNat, b.toNat], ok := !(s.ctx (s.ctxOf s.cur)).dbgctl.getLsbD 3 || !(s.ctx (s.ctxOf s.cur)).trOn
      holds := fun t => base t ∧ onlyWarp s t ∧ me t = booked x (me t) }
  | .rpchk _ a => some
    { reads := [a.toNat], ok := noRecord s, holds := fun t => base t ∧ onlyWarp s t ∧ me t = booked x (me t) }
  | _ => none

/-- The state of a machine `m` but for the warps, the slots and the contexts, which are those of `t`. -/
def recordedIn (m t : State) : Prop := t = { m with warps := t.warps, slices := t.slices, slots := t.slots, ctxs := t.ctxs }

/-- TRACEM with TRACEU and tracing on (R270): its 32-byte record (R429) is written through the context's translation at TRACEBASE +
(TRACEPTR mod 2^TRLOG) × 32, and TRACEPTR rises by 1 (R430). -/
def traceWords (i : Instr) (s : State) : Option Effect :=
  let x := me s
  let ctx := s.ctxOf s.cur
  let c := s.ctx ctx
  match i with
  | .tracem _ a b =>
    let va := c.tracebase.toNat / 8192 * 8192 + c.traceptr.toNat % 2 ^ c.trlog * 32
    let bytes := leBytes 8 s.tick.toNat ++ [2, 0] ++ leBytes 2 (coreOf s.cur + 256 * (s.cur % 128)) ++ leBytes 4 x.pc.toNat ++ leBytes 4 ctx
      ++ [0, 0, 0, 0] ++ leBytes 4 (x.readS a.toNat).toNat ++ leBytes 4 (x.readS b.toNat).toNat
    some
      { reads := [a.toNat, b.toNat]
        ok := c.dbgctl.getLsbD 3 && c.trOn && (c.trWrap || decide ((c.traceptr - c.traceMark).toNat < 2 ^ c.trlog))
          && (s.ctxWrite ctx va bytes).isSome
        holds := fun t => passed s t ∧ othersKept s t ∧ me t = booked x (me t)
          ∧ ∀ m, s.ctxWrite ctx va bytes = some m → recordedIn m t
            ∧ ∀ k, t.ctx k = { m.ctx k with
                counts := (t.ctx k).counts
                traceptr := if k = ctx then c.traceptr + 1 else (m.ctx k).traceptr } }
  | _ => none

/-- RPCHK at its check point (R271, R439, R440): in record mode its 16-byte entry of ordinal, RC, sA and major is appended to the
warp's area; in replay mode it is compared with the entry there, which agrees. -/
def checkWords (i : Instr) (s : State) : Option Effect :=
  let x := me s
  let ctx := s.ctxOf s.cur
  match i with
  | .rpchk _ a =>
    let va := x.rrBase.toNat + 16 * x.ordinal
    let bytes := leBytes 4 x.ordinal ++ leBytes 4 (x.rc + 1) ++ leBytes 4 (x.readS a.toNat).toNat ++ [0x78, 0, 0, 0]
    let after := fun (t : State) => passed s t ∧ othersKept s t ∧ me t = { booked x (me t) with ordinal := x.ordinal + 1 }
    let same := fun (m t : State) => recordedIn m t ∧ ∀ k, t.ctx k = { m.ctx k with counts := (t.ctx k).counts }
    if x.rrMode = 1 then some
      { reads := [a.toNat], ok := decide (x.ordinal < 2 ^ x.rrLog) && (s.ctxWrite ctx va bytes).isSome
        holds := fun t => after t ∧ ∀ m, s.ctxWrite ctx va bytes = some m → same m t }
    else if x.rrMode = 2 then some
      { reads := [a.toNat]
        ok := decide (x.ordinal < 2 ^ x.rrLog) && (match s.ctxRead ctx va 16 with
          | some e => e.1.take 13 == bytes.take 13
          | none => false)
        holds := fun t => after t ∧ ∀ e, s.ctxRead ctx va 16 = some e → same e.2 t }
    else none
  | _ => none

/-- HREAD, WSTAT and PMREAD: what they return (R257, R260, R268). A target out of reach gives 0 and MISS. -/
def debugReads : Instr → Option ScalarSpec
  | .hread _ mm d a b => some
      { writes := [d.toNat], reads := [a.toNat, b.toNat]
        ok := fun s => decide (1 ≤ s.levelOf (s.ctxOf s.cur)) && match s.target s.cur ((me s).readS a.toNat) with
          | some (k, th) =>
            let sel := ((me s).readS b.toNat).toNat
            let g := (s.warp k).wg
            -- the first use of an accumulator would zero it (R53)
            s.itemOk k th mm.toNat sel
              && ((mm != 4 && mm != 5) || Store.get 0 (s.core (s.wg g).core).accLast (s.accSel k sel) == g + 1)
          | none => false
        value := fun s => match s.target s.cur ((me s).readS a.toNat) with
          | some (k, th) => [s.haltRead k th mm.toNat ((me s).readS b.toNat).toNat]
          | none => [] }
  | .wstat _ d a => some
      { writes := pair d, reads := [a.toNat], even := [d.toNat]
        ok := fun s => decide (1 ≤ s.levelOf (s.ctxOf s.cur)) && s.reachesCore s.cur (bankOf s.cur (((me s).readS a.toNat).toNat / 2 ^ 24))
        value := fun s =>
          let k := Store.get ({} : Watch) (s.core (bankOf s.cur (((me s).readS a.toNat).toNat / 2 ^ 24))).watches (((me s).readS a.toNat).toNat % 16)
          let bit := fun (b : Bool) (n : Nat) => if b then n else 0
          if s.ownsWatch s.cur k then
            [BitVec.ofNat 32 (bit k.valid 1 + bit k.armed 2 + bit k.hit 4 + bit k.cntovf 8 + 16 * k.lastT + 65536 * k.lastW), k.count]
          else [0, 0] }
  | .pmread _ d a => some
      { writes := pair d, reads := [a.toNat], even := [d.toNat]
        -- an event that the device has not: bit 63 and a count of 0
        ok := fun s => decide ((if (s.ctx (s.ctxOf s.cur)).dbgctl.getLsbD 2 then 0 else 1) ≤ s.levelOf (s.ctxOf s.cur))
          && decide (((me s).readS a.toNat).toNat / 2 ^ 16 < 3) && !hasEvent (((me s).readS a.toNat).toNat % 2 ^ 16)
        value := fun _ => [0, 0x80000000] }
  | _ => none

/-- PMREAD of an event that the device has (R268): a count of 63 bits, of the slot tree's leaves below the event (R433). -/
def counterReads (i : Instr) (s : State) : Option Effect :=
  let x := me s
  match i with
  | .pmread _ d a =>
    let v := (x.readS a.toNat).toNat
    some
    { reads := [a.toNat], ss := pair d, even := [d.toNat], level := if (s.ctx (s.ctxOf s.cur)).dbgctl.getLsbD 2 then 0 else 1
      ok := decide (v / 2 ^ 16 < 3) && hasEvent (v % 2 ^ 16)
      holds := fun t => t = booksOf s t ∧ othersKept s t ∧ ctxsKept s t ∧ sameMemory s t ∧ movedTo x (me t) (x.pc + 1)
        ∧ me t = { booked x (me t) with sregs := (me t).sregs, spoison := (me t).spoison }
        ∧ (d.toNat < 60 → d.toNat ≠ 0 → (me t).readS2 d.toNat = BitVec.ofNat 64 (s.eventCount s.cur (v % 2 ^ 16) (v / 2 ^ 16) % 2 ^ 63))
        ∧ ∀ r, r < 61 → r ≠ d.toNat → r ≠ d.toNat + 1 → (me t).readS r = x.readS r }
  | _ => none

/-- INVLP and TLBINV with no access to control-node memory outstanding (R266): no TLB keeps a translation of the space and, for
INVLP, of the page, and the last-page registers' generation moves on (R310). -/
def sweeps (i : Instr) (s : State) : Option Effect :=
  let x := me s
  let swept := fun (q : Tlb → Bool) (t : State) =>
    othersKept s t ∧ ctxsKept s t ∧ passed s t ∧ (me t).mark = none ∧ regsKept x (me t)
    ∧ (∀ c, ∀ e ∈ (t.core c).tlb, !q e) ∧ ∀ c, ∀ e ∈ (t.cluster c).tlb, !q e
  let ready := x.mark.isNone && x.log.isEmpty && s.sysReqs.isEmpty
  match i with
  | .invlp _ a b =>
    let va := (x.readS2 a.toNat).toNat
    match s.spaces s.cur (x.readS b.toNat).toNat with
    | some (p, asid) => some
      { reads := [a.toNat, a.toNat + 1, b.toNat], even := [a.toNat], level := 1, ok := decide (va < 2 ^ 50) && ready
        holds := swept fun e => e.part == p && (asid.isNone || asid == some e.asid) && e.vpage == va / 2 ^ e.size }
    | none => none
  | .tlbinv _ a =>
    match s.spaces s.cur (x.readS a.toNat).toNat with
    | some (p, asid) => some
      { reads := [a.toNat], level := 1, ok := ready, holds := swept fun e => e.part == p && (asid.isNone || asid == some e.asid) }
    | none => none
  | _ => none

/-! ### Events (R1 to R17): when one has its own effect, and what the machine then holds -/

/-- What an event needs so that it has its effect, and what holds of the machine after it. -/
structure Claim where
  ok : Prop := True
  holds : State → Prop

/-- An event is on the calendar, no sooner than at a tick. -/
def dueFrom (t : State) (n : Nat) (e : Instr) : Prop := ∃ m, n ≤ m ∧ (m, e) ∈ t.calendar

/-- The warp waits to enter a trap (R94). -/
def entering : Park → Bool
  | .trapEntry .. => true
  | _ => false

/-- The timed ends of a warp's own waits (R92, R118, R122, R131), its seed (R80) and the registers of its context (R50, R267). -/
def warpClaims (i : Instr) (s : State) : Option Claim :=
  match i with
  | .quotaTransferComplete w => some
      { ok := (s.warp w).giveK ≠ 0 ∧ (s.warp w).giveTo ≠ w
        holds := fun t =>
          let x := s.warp w
          let y := s.warp x.giveTo
          (t.warp w).giveK = 0 ∧ (t.warp w).allot = x.allot ∧ (t.warp x.giveTo).allot = y.allot + x.giveK
          ∧ (∀ r th, th < 96 → y.allot ≤ r → r < y.allot + x.giveK → (t.warp x.giveTo).readV r th = 0 ∧ (t.warp x.giveTo).tag r = 0)
          ∧ (∀ r th, th < 96 → r < y.allot → (t.warp x.giveTo).readV r th = y.readV r th)
          ∧ (∀ v, v ≠ w → v ≠ x.giveTo → t.warp v = s.warp v) ∧ sameMemory s t }
  | .longLatencyWrite w id th =>
      let x := s.warp w
      (x.pending.find? fun p => p.id == id).map fun p =>
      { ok := p.regs.Nodup ∧ (∀ r ∈ p.regs, r < 61) ∧ p.threads.getLsbD th = true ∧ p.held.getLsbD th = false ∧ th < 96
        holds := fun t =>
          let y := t.warp w
          (∀ r ∈ p.regs, if p.scalar then y.readS r = if r = 0 then 0 else Store.get 0 p.data (r * 96 + th)
            else y.readV r th = Store.get 0 p.data (r * 96 + th))
          ∧ (∀ r k, k < 96 → (p.scalar = true ∨ k ≠ th ∨ r ∉ p.regs) → y.readV r k = x.readV r k)
          ∧ (∀ r, (p.scalar = false ∨ r ∉ p.regs) → y.readS r = x.readS r)
          ∧ (∀ q ∈ y.pending, q.id = id → q.threads.getLsbD th = false)
          ∧ (entering x.park = false → (∀ v, v ≠ w → t.warp v = s.warp v) ∧ sameMemory s t)
          -- the last result that a trap waits for lets it enter its handler
          ∧ (∀ c f a first part pc, x.park = .trapEntry c f a first part pc → (x.landed id th).awaits = false →
              y.trap.cause = BitVec.ofNat 8 c ∧ y.trap.slot = BitVec.ofNat 7 f ∧ y.trap.addr = a ∧ y.trap.pc = pc ∧ y.mode = 0) }
  | .seedWrite w v => some
      { holds := fun t =>
          (t.ctx (s.ctxOf w)).seed = v ∧ (t.warp w).seedBase = v ∧ (t.warp w).lfsr = [] ∧ (t.wg (s.warp w).wg).seed = v
          ∧ (t.wg (s.warp w).wg).lfsr = [] ∧ (∀ u, u ≠ w → t.warp u = s.warp u) ∧ sameMemory s t }
  | .joinTimeoutExpiry w e => some
      { ok := ((s.warp w).split e).state = .joinWait ∧ (s.warp w).run < 8
        holds := fun t => ((t.warp w).split e).state = .ready ∧ ((t.warp w).split e).m = ((s.warp w).split e).m
          ∧ (∀ f, f ≠ e → (t.warp w).split f = (s.warp w).split f) ∧ (∀ v, v ≠ w → t.warp v = s.warp v) ∧ sameMemory s t }
  | .regangTimeoutExpiry w e =>
      let p := (s.warp w).split e
      -- every warp of the set that waits with the id, whatever its own set
      let l := s.gangWaiters (s.warp w).wg p.joinid p.gangSet false
      some
      { ok := p.state = .gangWait ∧ (w, e) ∈ l ∧ l.Nodup ∧ ∀ q ∈ l, (s.warp q.1).gang = 0 ∧ (s.warp q.1).run < 8 ∧ ((s.warp q.1).split q.2).state = .gangWait
        holds := fun t => (∀ q ∈ l, ((t.warp q.1).split q.2).state = .ready ∧ ((t.warp q.1).split q.2).m = ((s.warp q.1).split q.2).m)
          ∧ (∀ v, v ∉ l.map Prod.fst → t.warp v = s.warp v) ∧ sameMemory s t }
  | .dbgctlWrite c v => some
      { holds := fun t => (t.ctx c).dbgctl = BitVec.setWidth 4 v ∧ ∀ d, d ≠ c → (t.ctx d).dbgctl = (s.ctx d).dbgctl }
  | .controlRegisterWrite w n v =>
      let view := n.toNat / 1024
      let r := n.toNat % 1024
      some
      { ok := viewHolds view r = false ∨ (trapRegister r v).isSome ∨ (ctxRegister s.time w view r v).isSome ∨ (deviceRegister r v).isSome
        holds := fun t => sameMemory s t ∧ (∀ u, u ≠ w → t.warp u = s.warp u) ∧ (∀ c, c ≠ s.ctxOf w → t.ctx c = s.ctx c) ∧
          if !viewHolds view r then t.warp w = s.warp w ∧ t.ctx (s.ctxOf w) = s.ctx (s.ctxOf w)
          else match trapRegister r v, ctxRegister s.time w view r v, deviceRegister r v with
            | some f, _, _ => t.warp w = { s.warp w with trap := f (s.warp w).trap } ∧ t.ctx (s.ctxOf w) = s.ctx (s.ctxOf w)
            | none, some f, _ => t.warp w = s.warp w ∧ t.ctx (s.ctxOf w) = f (s.ctx (s.ctxOf w))
            | none, none, some f => t = f s
            | none, none, none => True }
  | _ => none

/-! #### The service of memory -/

/-- Nothing waits for the service of a record. -/
def unawaited (s : State) (part idx : Nat) : Prop :=
  (∀ w, ∀ e ∈ (s.warp w).log, e.wait ≠ .service part idx) ∧ (∀ e ∈ s.warps, ∀ l ∈ e.2.log, l.wait ≠ .service part idx)
  ∧ (∀ w p i va b, (s.warp w).park = .fetch p i va b → ¬ (p = part ∧ i = idx))
  ∧ (∀ g ∈ s.wgs, ∀ q ∈ g.2.queues, ∀ e ∈ q.2, e.waitRec ≠ some (part, idx))
  ∧ (∀ q ∈ s.queues, q.2.waitRec ≠ some (part, idx) ∧ ∀ c ∈ q.2.copies, c.waitRec ≠ some (part, idx))
  ∧ ∀ k ∈ s.keysOut, ¬ (k.part = part ∧ k.record = idx)

/-- Walks, faults, sweeps, errors and ages (R274, R281, R309 to R314, R331 to R334, R378), and what comes over HOCP (R275, R276, R340). -/
def serviceClaims (i : Instr) (s : State) : Option Claim :=
  match i with
  | .translationWalk core ctx va k => some
      { ok := match s.walk ctx va.toNat k false none with
          | .ok _ _ => True
          | _ => False
        holds := fun t => match s.walk ctx va.toNat k false none with
          | .ok e s1 => (t.core core).tlb.head? = some e ∧ (t.cluster (clusterOf core)).tlb.head? = some e ∧ t.hbm = s1.hbm ∧ t.l2 = s1.l2
          | _ => False }
  | .zeroingComplete b => some
      { ok := noneReady s
        holds := fun t => (∀ c, c ∈ t.zeroing ↔ c ∈ s.zeroing ∧ c ≠ b) ∧ t.warps = s.warps ∧ t.hbm = s.hbm ∧ t.l2 = s.l2 ∧ t.l1 = s.l1 }
  | .frespAnswer part idx _ => some
      { ok := plainMemory s ∧ (∃ f ∈ (s.part part).faults, f.1 = idx) ∧ unawaited s part idx
        holds := fun t => (∀ f, f ∈ (t.part part).faults ↔ f ∈ (s.part part).faults ∧ f.1 ≠ idx) ∧ (∀ q, q ≠ part → t.part q = s.part q)
          ∧ t.warps = s.warps ∧ sameMemory s t }
  | .frespKick part => some
      { ok := (∀ e ∈ s.warps, ∀ l ∈ e.2.log, l.wait ≠ .service part unposted ∧ l.wait ≠ .dirty part)
          ∧ ∀ k ∈ s.keysOut, k.part ≠ part
        -- a packet that could not post its record is tried again
        holds := fun t => ∀ q ev, (s.queue q).waitEv = some ev → (s.queue q).waitRec = some (part, unposted) →
          (t.queue q).waitRec = none ∧ dueFrom t (s.tick.toNat + 1) ev }
  | .shootdownRequest part asid va =>
      let hit := fun (e : Tlb) => e.part = part ∧ (∀ a, asid = some a → e.asid = a) ∧ ∀ v, va = some v → e.vpage = v.toNat / 2 ^ e.size
      some
      { ok := Store.wf {} s.cores = true ∧ Store.wf {} s.clusters = true
        holds := fun t => (∀ c e, e ∈ (t.core c).tlb ↔ e ∈ (s.core c).tlb ∧ ¬ hit e) ∧ (∀ c e, e ∈ (t.cluster c).tlb ↔ e ∈ (s.cluster c).tlb ∧ ¬ hit e)
          ∧ t.gen = (if s.gen ≥ 0xFFFF then 0 else s.gen + 1) ∧ t.warps = s.warps ∧ sameMemory s t }
  | .uncorrectableError (.vreg w r th h) => some
      { holds := fun t => Store.get false (t.warp w).vpoison ((r * 96 + th) * 2 + h) = true
          ∧ (∀ k, k ≠ (r * 96 + th) * 2 + h → Store.get false (t.warp w).vpoison k = Store.get false (s.warp w).vpoison k)
          ∧ t.warp w = { s.warp w with vpoison := (t.warp w).vpoison } ∧ (∀ v, v ≠ w → t.warp v = s.warp v) ∧ sameMemory s t }
  | .uncorrectableError (.sreg w r) => some
      { ok := r < 64
        holds := fun t => (t.warp w).spoison.getLsbD r = true ∧ (∀ k, k ≠ r → (t.warp w).spoison.getLsbD k = (s.warp w).spoison.getLsbD k)
          ∧ t.warp w = { s.warp w with spoison := (t.warp w).spoison } ∧ (∀ v, v ≠ w → t.warp v = s.warp v) ∧ sameMemory s t }
  | .uncorrectableError (.memory pa) => some
      { holds := fun t => Store.get false t.poisoned (pa / 32) = true ∧ t = { s with poisoned := t.poisoned } }
  | .uncorrectableError (.state p) => some
      { ok := (s.part p).state = .active ∧ (s.part p).reset = .run
        holds := fun t => (t.part p).state = .resetting ∧ (t.part p).reset = .quiesce ∧ (t.part p).cause = 3 ∧ dueFrom t (s.tick.toNat + 1) (.quiesceDone p) }
  | .parityError (.lastPage c l) => some
      { holds := fun t => Store.get none (t.core c).lastPage l = none ∧ (∀ d, d ≠ c → t.core d = s.core d) ∧ (t.core c).tlb = (s.core c).tlb ∧ sameMemory s t }
  | .parityError (.coreTlb c g) => some
      { holds := fun t => (∀ e, e ∈ (t.core c).tlb ↔ e ∈ (s.core c).tlb ∧ e.vpage ≠ g * 8192 / 2 ^ e.size) ∧ (∀ d, d ≠ c → t.core d = s.core d) ∧ sameMemory s t }
  | .parityError (.clusterTlb c g) => some
      { holds := fun t => (∀ e, e ∈ (t.cluster c).tlb ↔ e ∈ (s.cluster c).tlb ∧ e.vpage ≠ g * 8192 / 2 ^ e.size)
          ∧ (∀ d, d ≠ c → t.cluster d = s.cluster d) ∧ sameMemory s t }
  | .wcAgeDrain core id =>
      ((s.core core).wc.find? fun e => e.id == id).map fun e =>
      { ok := noneReady s ∧ e.sent = false ∧ e.ticket = none ∧ Store.get false s.lost e.peer = false
          ∧ ((s.core core).tickets.find? fun t => t.ctx == e.ctx && t.peer == e.peer && t.page == e.line / 64) = none
        holds := fun t => (∀ x ∈ (t.core core).wc, x.id = id → x.sent = true)
          ∧ (∃ r ∈ t.sent ++ t.unsent, r.link = .wc core id ∧ r.x.dst = e.peer ∧ r.x.payload = e.payload.2) ∧ sameMemory s t }
  | .l1DirtyAgeWriteback core line =>
      -- the line's dirty non-private bytes
      let dirty := fun (pa : Nat) (b : L1Byte) => pa / 128 = line ∧ Store.get none s.l1 (l1Key core pa) = some b ∧ b.dirty = true ∧ b.priv = false
      let old := ∃ pa b, dirty pa b ∧ b.since + 50000 ≤ s.time
      some
      { ok := plainMemory s ∧ line < 2 ^ 33
        holds := fun t => t.warps = s.warps
          ∧ (old → (∀ pa b, dirty pa b → t.l2Read pa = b.val ∧ Store.get none t.l1 (l1Key core pa) = some { b with dirty := false, whole := false })
            ∧ ∀ pa, pa < 2 ^ 40 → (∀ b, ¬ dirty pa b) → t.l2Read pa = s.l2Read pa)
          ∧ (¬ old → t.l1 = s.l1 ∧ sameMemory s t) }
  | .pageAgeScan =>
      let ls := ((List.range 16).flatMap s.partLeaves).eraseDups
      some
      { ok := plainMemory s ∧ ls.Pairwise fun a b => a.1 ≠ b.1 ∧ a.2.2 / 8192 ≠ b.2.2 / 8192
        holds := fun t =>
          (∀ x ∈ ls, let f := x.2.2 / 8192
            if s.l2Read x.1 &&& 0x40 = 0 then Store.get 0 t.ages f = min 255 (Store.get 0 s.ages f + 1)
            else Store.get 0 t.ages f = 0 ∧ t.l2Read x.1 = s.l2Read x.1 &&& 0xBF)
          ∧ (∀ pa, (∀ x ∈ ls, x.1 ≠ pa) → t.l2Read pa = s.l2Read pa)
          ∧ ((∀ e ∈ s.calendar, e.2 ≠ .pageAgeScan) → dueFrom t (s.tick.toNat + 4000000) .pageAgeScan) }
  | .evictedPageRestore part idx frame data =>
      ((s.part part).faults.find? fun f => f.1 == idx).bind fun f =>
      (s.evictedSlot (f.2.2.1 * 8192) 4 (s.ctx f.2.2.2.1).ptroot).map fun (slot, shift) =>
      let n := 2 ^ (shift - 13)
      { ok := plainMemory s ∧ unawaited s part idx ∧ 13 ≤ shift ∧ s.frameUse part + n ≤ (s.part part).guaranteed + (s.part part).burstable
          ∧ (∀ i, i < n → s.ownerOf (frame + i) = 18 ∧ frame + i < hbmSize / 8192) ∧ (slot + 8 ≤ frame * 8192 ∨ (frame + n) * 8192 ≤ slot)
        holds := fun t => (∀ i, i < n → t.ownerOf (frame + i) = part + 1) ∧ (∀ g, ¬ (frame ≤ g ∧ g < frame + n) → t.ownerOf g = s.ownerOf g)
          ∧ (∀ i, i < n * 8192 → t.l2Read (frame * 8192 + i) = data.getD i 0)
          -- the entry is present and names the frame
          ∧ t.l2Num slot 8 % 2 = 1 ∧ t.l2Num slot 8 / 2 ^ 13 % 2 ^ 39 = frame
          ∧ (∀ g, g ∈ (t.part part).faults ↔ g ∈ (s.part part).faults ∧ g.1 ≠ idx) }
  | .systemMemoryAnswer id a =>
      (s.sysReqs.find? fun r => r.id == id).map fun r =>
      { ok := r.posted = true
        holds := fun t => (∀ x ∈ t.sysReqs, x.id ≠ id) ∧ (t.ctx r.ctx).sysOut = (s.ctx r.ctx).sysOut - 1
          ∧ (t.ctx r.ctx).sysFault = (if a = .refuse ∧ (s.ctx r.ctx).sysFault = none then some (0x0F, r.addr) else (s.ctx r.ctx).sysFault)
          ∧ t.warps = s.warps ∧ sameMemory s t }
  | .hocpWrite pa v => some
      { ok := plainMemory s ∧ pa + 4 ≤ hbmSize
        holds := fun t => t.l2Num pa 4 = v.toNat ∧ (∀ q, ¬ (pa ≤ q ∧ q < pa + 4) → t.l2Read q = s.l2Read q) ∧ queuesRung s t
          ∧ t = { s with l2 := t.l2, hbm := t.hbm, hbmMoves := t.hbmMoves, l2Misses := t.l2Misses, l2Ways := t.l2Ways, lineGen := t.lineGen, poisoned := t.poisoned, queues := t.queues } }
  | .hocpBlockTransfer pa n none => some
      { ok := pa + n ≤ hbmSize
        holds := fun t => ∃ bs : List Byte, bs.length = n ∧ (∀ i, i < n → bs.getD i 0 = s.hbmRead (pa + i))
          ∧ t = { s with hocpOut := s.hocpOut ++ [.block pa bs], hbmMoves := t.hbmMoves } }
  | .hocpBlockTransfer pa n (some bs) => some
      { ok := s.keysStand ∧ pa + n ≤ hbmSize
        holds := fun t => (∀ i, i < min n bs.length → Store.get 0 t.hbm (pa + i) = bs.getD i 0)
          ∧ (∀ q, ¬ (pa ≤ q ∧ q < pa + min n bs.length) → Store.get 0 t.hbm q = Store.get 0 s.hbm q)
          ∧ t = { s with hbm := t.hbm, hbmMoves := t.hbmMoves, poisoned := t.poisoned } }
  | _ => none

/-! #### Engines -/

/-- The starts and ends of engine work (R229 to R236): the entry at the head of a queue, and the MMAs of a core. -/
def engineClaims (i : Instr) (s : State) : Option Claim :=
  match i with
  | .engineEntryStart g q =>
      (s.engine g q).head?.map fun e =>
      { ok := e.started = false ∧ (s.wg g).engHalt = false ∧ (s.wg g).out = false ∧ (s.wg g).stopping = false ∧
          match e.work with
          | .marker id mask => s.markerDone g id mask = true
          | w => (∀ l ∈ (s.warp e.wid).log, ¬ (l.id < e.id ∧ (s.warp e.wid).wg = g))
              ∧ (∀ n, w.tiles.1 = some n ∨ w.tiles.2 = some n → s.tileClean g n = true)
        holds := fun t => match e.work with
          | .marker .. => t.engine g q = (s.engine g q).tail
          | w => t.engine g q = { e with started := true, since := s.cycle (s.wg g).core } :: (s.engine g q).tail
              ∧ dueFrom t (s.tick.toNat + s.cycles (s.wg g).core (s.chunks g w - e.chunk)) (e.finish g q) }
  | .copyComplete g q =>
      (s.engine g q).head?.bind fun e =>
      match e.work with
      | .cpy d a _ _ free => some
          { ok := e.started = true ∧ e.waitRec = none ∧ (s.wg g).engHalt = false ∧ a ≠ d
            holds := fun t => t.engine g q = (s.engine g q).tail
              ∧ (t.tile g d).work = (s.tile g d).work - 1 ∧ ((s.tile g d).work = 1 → (t.tile g d).state = .ready)
              ∧ (t.tile g a).work = (s.tile g a).work - 1
              ∧ ((s.tile g a).work = 1 → (t.tile g a).state = if free then .empty else .ready) ∧ t.hbm = s.hbm ∧ t.l2 = s.l2 }
      | .cpyg n store free tr base pitch bpoff =>
          let xs := (s.tile g n).pieces tr base.toNat pitch bpoff
          match s.reach (some (s.wg g).core) (s.wgCtx g) (if store then .write else .read) (pageStarts (xs.map Piece.at')) [] with
          | .ok ps s1 => some
              { ok := e.started = true ∧ e.waitRec = none ∧ e.refused = none ∧ (s.wg g).engHalt = false ∧ s1.dirtyFrame ps = false ∧ plainMemory s1 ∧
                  if store then e.asked = false ∧ (s1.storeRuns g n xs).2.awayRuns ps (s1.storeRuns g n xs).1 = []
                  else s1.missing ps e.got (xs.map Piece.at') = [] ∧ s1.spansPoisoned ps (xs.map Piece.at') = false
                holds := fun t => t.engine g q = (s.engine g q).tail ∧ (t.tile g n).work = (s.tile g n).work - 1
                  ∧ ((s.tile g n).work = 1 → (t.tile g n).state = if store && free then .empty else .ready)
                  ∧ (store = false → sameMemory s1 t)
                  ∧ (store = true → ∀ pa, t.l2Read pa = ((s1.storeRuns g n xs).2.putRuns (s.wgCtx g) (s.wg g).core ps (s1.storeRuns g n xs).1).l2Read pa) }
          | _ => none
      | _ => none
  | .mmaStart core id =>
      let s1 := s.modCore core fun k => { k with mmas := k.mmas.map fun x => if x.id = id then { x with due := true } else x }
      (s.core core).mmas.head?.map fun m =>
      { ok := m.id = id ∧ m.running = false ∧ s1.mmaFits core { m with due := true } = true ∧ (s.wg m.wg).engHalt = false ∧ (s.wg m.wg).stopping = false
          ∧ s.tileClean m.wg m.a = true ∧ s.tileClean m.wg m.b = true
        holds := fun t => (t.core core).mmas.head? = some { m with due := true, running := true, since := s.cycle core }
          ∧ dueFrom t (s.tick.toNat + s.cycles core (128 - m.step)) (.mmaComplete core id) ∧ sameMemory s t }
  | .mmaComplete core id =>
      ((s.core core).mmas.find? fun x => x.id == id).map fun m =>
      { ok := m.running = true ∧ (s.wg m.wg).engHalt = false ∧ 128 ≤ m.current (s.cycle core) ∧ m.a ≠ m.b
        holds := fun t => (∀ x ∈ (t.core core).mmas, x.id ≠ id)
          ∧ (t.tile m.wg m.a).readers = (s.tile m.wg m.a).readers - 1 ∧ (t.tile m.wg m.b).readers = (s.tile m.wg m.b).readers - 1
          ∧ (t.tile m.wg m.dst).mmas = (s.tile m.wg m.dst).mmas - 1 ∧ sameMemory s t }
  | _ => none

/-! #### Queues (R337 to R352) -/

/-- The commands of a queue, its wake, its audit and its watchdog (R338 to R343, R377). -/
def queueClaims (i : Instr) (s : State) : Option Claim :=
  -- the fields of a QCB are written at the home L2, where the TAIL of another queue may stand (R340)
  let others := fun (t : State) (q : Nat) => ∀ r, r ≠ q → t.queue r = { s.queue r with rung := (t.queue r).rung }
  -- the queue goes on with the packet at HEAD, if there is one
  let goesOn := fun (t : State) (q : Nat) (head : Word) =>
    (t.queue q).head = head ∧ (t.queue q).err = 0
    ∧ (t.queue q).state = (if 0 < idxDiff (s.queue q).tail head then .active else .idle) ∧ (t.queue q).busy = decide (0 < idxDiff (s.queue q).tail head)
  match i with
  | .bind q =>
      let asid := s.qpriv0.toNat % 2 ^ 16
      let part := s.qpriv0.toNat / 2 ^ 16 % 16
      let cls := s.qpriv0.toNat / 2 ^ 20
      let ctx := s.qpriv1.toNat
      let qcb := s.qbase / 64 * 64
      let base := s.l2Num qcb 8
      let log := s.l2Num (qcb + 30) 1
      some
      { ok := plainMemory s ∧ (s.queue q).state = .unbound ∧ cls ≠ 3 ∧ ((s.ctx ctx).live = true ∨ ctx = 0) ∧ (s.ctx ctx).asid = asid
          ∧ (ctx ≠ 0 → s.partOf ctx = some part) ∧ qcb + 64 ≤ hbmSize ∧ 4 ≤ log ∧ log ≤ 16 ∧ base % 64 = 0 ∧ base + 2 ^ log * 64 ≤ 2 ^ 49
          ∧ (s.l2Num (qcb + 12) 4 + 2 ^ 32 - s.l2Num (qcb + 24) 4) % 2 ^ 32 ≤ 2 ^ log
          ∧ s.l2Num (qcb + 32) 2 = asid ∧ s.l2Num (qcb + 34) 1 = part ∧ s.l2Num (qcb + 35) 1 = cls ∧ s.l2Num (qcb + 36) 4 = ctx
        holds := fun t =>
          let k := t.queue q
          k.state = .idle ∧ k.err = 0 ∧ k.qcb = qcb ∧ k.asid = asid ∧ k.part = part ∧ k.cls = cls ∧ k.ctx = ctx ∧ k.ringbase.toNat = base ∧ k.ringlog = log
          ∧ k.head.toNat = s.l2Num (qcb + 12) 4 ∧ k.tail.toNat = s.l2Num (qcb + 8) 4 ∧ k.donepos.toNat = s.l2Num (qcb + 24) 4
          ∧ k.doneord.toNat = s.l2Num (qcb + 16) 8 ∧ Store.get false t.pinned (qcb / 8192) = true
          ∧ (s.tick.toNat + 1000000, .qcbAudit q) ∈ t.calendar
          -- but for what waits on an ordinal, which looks again (R348)
          ∧ ∀ r, r ≠ q → (s.queue r).waitEv ≠ some (.waitord r) → t.queue r = { s.queue r with rung := (t.queue r).rung } }
  | .unbind q => some
      { ok := plainMemory s ∧ ((s.queue q).state = .idle ∨ (s.queue q).state = .stopped) ∧ (s.queue q).isBusy = false
        -- what stays is the signals of launches that have ended (R363)
        holds := fun t => t.queue q = { copies := (s.queue q).copies.map fun c => { c with orphan := true } }
          ∧ (∀ e ∈ t.calendar, startEvent q e.2 = false ∧ e.2 ≠ .queueHang q ∧ e.2 ≠ .qcbAudit q) ∧ others t q }
  | .queueStop q => some
      { ok := plainMemory s ∧ (s.queue q).state ≠ .unbound ∧ (s.queue q).state ≠ .stopped ∧ (s.queue q).placing = 0
        holds := fun t => (t.queue q).state = .stopped ∧ (t.queue q).busy = false ∧ (t.queue q).head = (s.queue q).head
          ∧ (t.queue q).inflight = (s.queue q).inflight ∧ (∀ e ∈ t.calendar, startEvent q e.2 = false) ∧ others t q }
  | .queueStart q => some
      { ok := plainMemory s ∧ (s.queue q).state = .stopped ∧ (s.queue q).placing = 0
        holds := fun t => goesOn t q (s.queue q).head ∧ others t q }
  | .skipOp q => some
      { ok := plainMemory s ∧ (s.queue q).state = .stopped
        holds := fun t => goesOn t q ((s.queue q).head + 1) ∧ others t q }
  | .queueReset q => some
      { ok := plainMemory s ∧ (s.queue q).state = .stopped ∧ (s.queue q).isBusy = false
        holds := fun t => goesOn t q (s.queue q).donepos ∧ (t.queue q).donepos = (s.queue q).donepos ∧ others t q }
  | .wakeWrite q tail => some
      { ok := plainMemory s ∧ (s.queue q).state ≠ .unbound ∧ (tail - (s.queue q).donepos).toNat ≤ 2 ^ (s.queue q).ringlog
        holds := fun t => (t.queue q).tail = tail ∧ (t.queue q).head = (s.queue q).head ∧ t.l2Num ((s.queue q).qcb + 8) 4 = tail.toNat ∧ others t q
          ∧ ((s.queue q).state = .idle → (s.queue q).busy = false → (s.queue q).placing = 0 → 0 < idxDiff tail (s.queue q).head →
            (t.queue q).state = .active ∧ ∃ e, startEvent q e = true ∧ dueFrom t (s.tick.toNat + 1) e) }
  | .qcbAudit q => some
      { ok := plainMemory s ∧ (s.queue q).state ≠ .unbound ∧ (s.queue q).state ≠ .stopped
        holds := fun t => (s.tick.toNat + 1000000, .qcbAudit q) ∈ t.calendar ∧ others t q ∧ match s.auditAt q with
          | none => t.queue q = s.queue q ∧ sameMemory s t
          | some _ => (t.queue q).state = .stopped ∧ (t.queue q).err = 4 }
  | .queueHang q =>
      let k := s.queue q
      some
      { ok := plainMemory s ∧ (k.state = .active ∨ k.state = .waiting) ∧ k.nowd = false ∧ k.ctx ≠ 0 ∧ k.advance + s.wdog * 1000000 ≤ s.tick.toNat
          ∧ (s.part k.part).state = .active ∧ (s.part k.part).reset = .run
        holds := fun t => (t.part k.part).state = .resetting ∧ (t.part k.part).reset = .quiesce ∧ (t.part k.part).cause = 1
          ∧ dueFrom t (s.tick.toNat + 1) (.quiesceDone k.part) ∧ ∀ r, (s.queue r).state ≠ .unbound → (s.queue r).partition = some k.part → (t.queue r).state = .stopped }
  | _ => none

/-- A packet is read (R344, R345): the queue is at work on it, nothing else comes first, and its 64 bytes are here, or were read at
its start; `r` is the machine after the read. -/
def packetRead (s : State) (q : Nat) (ev : Instr) (bs : List Byte) (r : State) : Prop :=
  let k := s.queue q
  k.going = true ∧ k.placing = 0 ∧ k.out = 0 ∧ k.waitRec = none ∧ s.yields q = none
  ∧ ∃ ps, s.readPacket q ev = .ok [bs] ps r

/-- Packets (R345 to R351): what each does once its bytes are read and are as the spec asks. `bs` are its bytes, and `r` the
machine after they are read. -/
def packetClaims (i : Instr) (s : State) (bs : List Byte) (r : State) : Option Claim :=
  let f := bytesField bs
  let zero := fun (xs : List (Nat × Nat)) => ∀ x ∈ xs, bytesZero bs x.1 x.2 = true
  let head := fun (t : State) (q : Nat) (h : Word) => (t.queue q).head = h
  match i with
  | .signal q =>
      let k := r.queue q
      let c : XCopy := { run := r.names, idx := k.head.toNat, copied := true, sigAddr := some (f 8 8), sigVal := f 16 8, msg := f 1 1 % 2 == 1, sys := f 1 1 / 2 == 1 }
      let p := r.fresh.2.passPacket q c
      some
      { ok := packetRead s q i bs r ∧ f 0 1 = 3 ∧ f 1 1 < 4 ∧ zero [(2, 2), (4, 4), (24, 40)] ∧ f 8 8 % 8 = 0
        holds := fun t => head t q (k.head + 1)
          -- where the address is here, the value is written, with SYS once the release has nothing left to wait for
          ∧ ∀ ps u pa, p.reach none k.ctx .write [f 8 8] [] = .ok ps u → u.dirtyFrame ps = false → byteAt ps (f 8 8) = some pa →
              plainMemory u → k.copies = [] → (c.sys = true → p.sysReleased k.ctx = true) → t.l2Num pa 8 = f 16 8 }
  | .xcopy q =>
      let k := r.queue q
      some
      { ok := packetRead s q i bs r ∧ f 0 1 = 2 ∧ zero [(1, 1), (2, 2), (4, 4), (48, 16)] ∧ f 8 8 % 16 = 0 ∧ f 16 8 % 16 = 0 ∧ f 24 8 % 16 = 0
          ∧ f 24 8 ≠ 0 ∧ f 32 8 % 8 = 0
        holds := fun t => head t q (k.head + 1) ∧ dueFrom t (r.tick.toNat + 1) (.xcopyComplete q r.names)
          ∧ (t.queue q).copies = k.copies ++ [{ run := r.names, idx := k.head.toNat, ctx := k.ctx, src := f 8 8, dst := f 16 8, len := f 24 8
                                                sigAddr := sigOf (f 32 8), sigVal := f 40 8 }]
          ∧ (t.queue q).inflight = k.inflight ++ [k.head.toNat] }
  | .waitord q =>
      let o := f 8 2
      some
      { ok := packetRead s q i bs r ∧ f 0 1 = 7 ∧ f 1 1 < 2 ∧ zero [(2, 2), (4, 4), (10, 6), (24, 40)] ∧ o < 1024 ∧ (r.queue o).state ≠ .unbound
          ∧ (r.queue o).partition = (r.queue q).partition
        holds := fun t =>
          if f 16 8 ≤ (r.queue o).doneord.toNat then head t q ((r.queue q).head + 1)
          else head t q (r.queue q).head ∧ (t.queue q).state = .waiting ∧ (t.queue q).nowd = (f 1 1 == 1) ∧ (t.queue q).waitEv = some (.waitord q) }
  | .fencePacket q => some
      { ok := packetRead s q i bs r ∧ f 0 1 = 5 ∧ zero [(1, 1), (2, 2), (4, 4), (24, 40)] ∧ f 16 8 % 8 = 0
        holds := fun t => head t q (r.queue q).head ∧
          if (r.queue q).inflight = [] then dueFrom t (r.tick.toNat + 1) (.fencePacketComplete q)
          else (t.queue q).state = .waiting ∧ (t.queue q).waitEv = some (.fencePacketComplete q) }
  | .fencePacketComplete q => some
      { ok := packetRead s q i bs r ∧ f 0 1 = 5 ∧ zero [(2, 2)] ∧ (r.queue q).inflight = [] ∧ f 16 8 = 0 ∧ Store.wf none r.l1 = true
        holds := fun t => head t q ((r.queue q).head + 1) ∧ (t.queue q).donepos = (r.queue q).head + 1 ∧ (t.queue q).doneord.toNat = f 8 8
          -- every core has released its dirty lines (R349 step 2)
          ∧ ∀ c ∈ r.cores.map Prod.fst, ∀ e ∈ t.l1, e.1 / 2 ^ 40 = c → ∀ b, e.2 = some b → b.dirty = true → b.priv = true }
  | .contract q =>
      match r.scarabReach q i (f 8 8) with
      | .ok _ ps u =>
        let k := r.queue q
        let c := readContract bs
        let why := u.admission k.ctx k.cls (contractZero bs) c
        some
        { ok := packetRead s q i bs r ∧ f 0 1 = 6 ∧ zero [(1, 1), (2, 2), (4, 4)] ∧ f 8 8 % 8 = 0 ∧ u.dirtyFrame ps = false
          holds := fun t =>
            -- HEAD passes the packet either way (R344)
            head t q (k.head + 1) ∧
            if why = 0 then c.activeBit = true → (t.ctx k.ctx).loop.waiting = some c
            else (t.queue q).state = .stopped ∧ (t.queue q).err = 10 }
      | _ => none
  | _ => none

/-- The comparison and the move of a COND (R347): the value found, and where HEAD goes, or none for a wait. -/
def condTarget (bs : List Byte) (head : Word) (x : Nat) : Option Word :=
  let f := bytesField bs
  let n := if f 1 1 % 2 = 1 then 64 else 32
  let num := fun (v : Nat) => if f 1 1 / 2 % 2 = 1 then toSigned n v else (v : Int)
  let a := num x
  let b := num (f 16 8 % 2 ^ n)
  let holds := (f 24 1 = 0 ∧ a = b) ∨ (f 24 1 = 1 ∧ a ≠ b) ∨ (f 24 1 = 2 ∧ a < b) ∨ (f 24 1 = 3 ∧ a ≤ b) ∨ (f 24 1 = 4 ∧ a > b) ∨ (f 24 1 = 5 ∧ a ≥ b)
  if f 25 1 = 1 then (if holds then some (head + 1) else none)
  else if ¬ holds then some (head + 1)
  else if f 25 1 = 0 then some (head + 1 + BitVec.ofNat 32 (f 28 4)) else some (head + BitVec.ofNat 32 (f 28 4))

/-- COND and its rereading, with the value `x` read from memory. -/
def condClaims (i : Instr) (s : State) (bs : List Byte) (r : State) (x : List Byte) (u : State) : Option Claim :=
  let f := bytesField bs
  let go := fun (q : Nat) =>
    let k := r.queue q
    let n := if f 1 1 % 2 = 1 then 8 else 4
    let nowd := f 1 1 / 4 % 2 == 1
    { ok := packetRead s q i bs r ∧ f 0 1 = 4 ∧ f 1 1 < 8 ∧ (∀ z ∈ [(2, 2), (4, 4), (26, 2), (32, 32)], bytesZero bs z.1 z.2 = true)
        ∧ f 8 8 % n = 0 ∧ f 24 1 ≤ 5 ∧ f 25 1 ≤ 2 ∧ (f 25 1 = 0 → f 28 4 < 2 ^ k.ringlog) ∧ (f 25 1 = 1 → f 28 4 = 0) ∧ (f 25 1 = 2 → f 28 4 ≠ 0)
        ∧ (∃ ps, (r.modQueue q fun k => { k with nowd := nowd }).scarabRead q i [{ va := f 8 8, len := n }] = .ok [x] ps u)
        ∧ u.queue q = { k with nowd := nowd } ∧ u.tick = s.tick
      holds := fun t => match condTarget bs k.head (leNat x) with
        | some h => if f 25 1 ≠ 1 ∧ idxDiff h k.donepos < 0 then (t.queue q).state = .stopped ∧ (t.queue q).err = 1 else (t.queue q).head = h
        | none => (t.queue q).head = k.head ∧ (t.queue q).state = .waiting ∧ (t.queue q).nowd = nowd
            ∧ (s.tick.toNat + 1000, .condReread q) ∈ t.calendar : Claim }
  match i with
  | .cond q => some (go q)
  | .condReread q => some (go q)
  | _ => none

/-- LAUNCH (R354 to R358): the descriptor `d` and the tables `ts` are read, and its checks hold. -/
def launchClaim (q : Nat) (s : State) (bs : List Byte) (r : State) (d : List Byte) (u : State) (ts : List (List Byte)) (v : State) : Claim :=
  let f := bytesField bs
  let k := v.queue q
  let nt := bytesField d 45 1
  let gp := bytesField d 56 8
  let spans := (if 1 ≤ nt ∧ nt ≤ 32 then [({ va := bytesField d 48 8, len := 16 * nt } : Span)] else [])
    ++ (if gp = 0 then [] else [({ va := gp, len := 2048 } : Span)])
  let tt := if 1 ≤ nt ∧ nt ≤ 32 then ts.headD [] else []
  let gt := if gp = 0 then [] else ts.getLastD []
  let l : Launch := { readLaunch bs d tt gt q (r.queue q).head.toNat (r.queue q).ctx with ring := (r.queue q).ringbase }
  { ok := packetRead s q (.launch q) bs r ∧ f 0 1 = 1 ∧ (∀ z ∈ [(1, 1), (2, 2), (40, 24)], bytesZero bs z.1 z.2 = true) ∧ f 8 8 % 256 = 0 ∧ f 16 8 % 8 = 0
      ∧ (∃ ps, r.scarabRead q (.launch q) [{ va := f 8 8, len := 256 }] = .ok [d] ps u)
      ∧ (∃ ps, u.scarabRead q (.launch q) spans = .ok ts ps v)
      ∧ launchOk d tt gt l = true ∧ l.groupsOk = true ∧ l.scopeOk = true ∧ l.racesOk = true ∧ v.launchFits l = true
    holds := fun t => t.launch v.names = l ∧ (t.queue q).placing = v.names + 1 ∧ (t.queue q).inflight = k.inflight ++ [l.index]
      ∧ (t.queue q).head = k.head ∧ dueFrom t (v.tick.toNat + 1) (.workgroupPlace v.names) }

/-- The end of a copy (R346, R350): its bytes move where every page is here, and then its packet is over. -/
def copyClaim (q run : Nat) (s : State) (c : XCopy) (ps : List PageAt) (u : State) (pd : List PageAt) (v : State) : Claim :=
  let bytes := v.spanBytes ps c.got { va := c.src, len := c.len }
  { ok := ((s.queue q).copies.find? fun c => c.run == run) = some c ∧ c.refused = false ∧ c.out = 0 ∧ c.waitRec = none ∧
      if c.copied then c.sigAddr = none ∨ c.asked = true
      else s.reach none c.ctx .read (pageStarts [{ va := c.src, len := c.len }]) [] = .ok ps u
        ∧ u.reach none c.ctx .write (pageStarts [{ va := c.dst, len := c.len }]) [] = .ok pd v
        ∧ v.dirtyFrame ps = false ∧ v.dirtyFrame pd = false ∧ v.missing ps c.got [{ va := c.src, len := c.len }] = []
        ∧ v.spansPoisoned ps [{ va := c.src, len := c.len }] = false ∧ ∀ i, i < c.len → (byteAt pd (c.dst + i)).isSome
    holds := fun t =>
      if c.copied then (t.queue q).copies.length + 1 = (s.queue q).copies.length ∧ sameMemory s t
        -- the signal of an ended launch completes no packet, nor does one that outlives its queue's binding
        ∧ (t.queue q).inflight = (if c.counts && !c.orphan then (s.queue q).inflight.erase c.idx else (s.queue q).inflight)
      else (∀ pa, t.l2Read pa = (v.putRuns c.ctx scarabCore pd [(c.dst, bytes)]).l2Read pa) ∧ dueFrom t (v.tick.toNat + 1) (.xcopyComplete q run)
        ∧ ((v.queue q).copies = (s.queue q).copies → ((t.queue q).copies.find? fun c => c.run == run).map XCopy.copied = some true) }

/-! #### Launches and contexts (R360 to R374) -/

/-- WORKGROUP_PLACE, WORKGROUP_RELEASE and WORKGROUP_RETIRE (R360, R361, R363), and the shadow banks (R370). -/
def placeClaims (i : Instr) (s : State) : Option Claim :=
  match i with
  | .workgroupPlace l =>
      let k := s.launch l
      let ok := k.active = true ∧ s.placeYields l = none ∧ s.savedOf l = [] ∧ k.next < k.total
      let placed := fun (t : State) (g : Nat) => (t.wg g).launch = l ∧ (t.wg g).resident = false ∧ (t.wg g).core ∈ s.coresOf k.ctx
        ∧ dueFrom t (s.tick.toNat + 1) (.workgroupRelease g)
      -- a resident grid is placed whole
      if k.isResident then (s.placeAll l).map fun p =>
        { ok := ok, holds := fun t => (t.launch l).next = k.next + k.total ∧ ∀ g ∈ p.1, placed t g }
      else (s.placeNext l).map fun p =>
        { ok := ok, holds := fun t => (t.launch l).next = k.next + 1 ∧ placed t p.1 ∧ (t.wg p.1).wgid = k.next }
  | .workgroupRelease g =>
      let w := s.wg g
      let k := s.launch w.launch
      some
      { ok := w.warps ≠ [] ∧ w.resident = false ∧ k.active = true ∧ w.warps.Nodup
        holds := fun t => (t.wg g).resident = true ∧ (t.wg g).warps = w.warps ∧ sameMemory s t
          ∧ (∀ p ∈ w.warps.zipIdx,
            let ri := roleOf k.roles p.2 0
            let x := t.warp p.1
            -- the threads that the role's record gives the warp (R36)
            let n := min 96 ((k.roles.getD ri {}).threads - 96 * (p.2 - k.roleStart ri))
            x.resident = true ∧ x.wg = g ∧ x.num = p.2 ∧ x.role = ri ∧ x.pc = (k.roles.getD ri {}).entry ∧ x.run = 0
            ∧ (∀ th, th < 96 → (x.live.getLsbD th = true ↔ th < n)) ∧ x.cur.m = x.live ∧ x.cur.a = x.live ∧ x.sregs = [] ∧ x.vregs = [] ∧ x.mode = 0)
          ∧ ∀ v, v ∉ w.warps → (t.warp v).splits = (s.warp v).splits }
  | .workgroupRetire g =>
      let w := s.wg g
      let k := s.launch w.launch
      some
      { ok := s.mayRetire g = true ∧ w.out = false ∧ (∀ v ∈ w.warps, (s.warp v).wg = g) ∧ Store.wf {} s.warps = true
        holds := fun t => t.wg g = {} ∧ (∀ v ∈ w.warps, t.warp v = {}) ∧ (∀ v, v ∉ w.warps → t.warp v = s.warp v)
          ∧ if k.retired + 1 < k.total then (t.launch w.launch).retired = k.retired + 1
            -- the end of the launch completes its packet, and its signal is then written
            else t.launch w.launch = {} ∧ (k.active = true → (∃ n, dueFrom t (s.tick.toNat + 1) (.xcopyComplete k.queue n))
              ∧ (t.queue k.queue).inflight = (s.queue k.queue).inflight.erase k.index) }
  | .stagingComplete c ctx => some
      { ok := (s.core c).shadow = ctx + 1
        holds := fun t => (t.core c).shadowReady = true ∧ (t.core c).shadow = ctx + 1 ∧ (∀ d, d ≠ c → t.core d = s.core d) ∧ t.warps = s.warps ∧ sameMemory s t }
  | .shadowExchange c =>
      let ctx := (s.core c).shadow - 1
      let ls := (s.launches.filter fun e => e.2.active && e.2.ctx == ctx).map Prod.fst
      let u := s.modCore c fun k => { k with swapping := false, shadow := 0, shadowReady := false }
      some
      { holds := fun t => (t.core c).shadow = 0 ∧ (t.core c).shadowReady = false ∧ (t.core c).swapping = false
          -- a staged workgroup that fits comes onto the core
          ∧ ∀ l g, (s.core c).shadow ≠ 0 → ls = [l] → u.savedOf l = [g] → c ∈ u.coresOf (u.wgCtx g) → u.fitSaved g c = true →
            ((s.launch l).isResident = true → ∀ e ∈ s.wgs, e.2.launch = l → e.2.out = true) →
            (∀ e ∈ (Store.get ({} : Saved) s.saves (s.wgCtx g)).warps, e.2.log = [] ∧ e.2.park = .none) →
            (t.wg g).out = false ∧ (t.wg g).core = c ∧ (t.wg g).wgid = (s.wg g).wgid }
  | _ => none

/-- LOAD, SAVE, RESTORE and DISCARD of a context (R372 to R374). -/
def contextClaims (i : Instr) (s : State) : Option Claim :=
  match i with
  | .loadOp c =>
      (s.recordAt c).map fun a =>
      let b := s.l2Bytes a 256
      { ok := plainMemory s ∧ s.inActive c = true ∧ (s.ctx c).live = false ∧ (s.ctx c).saved = false ∧ s.recordOk b = true
        holds := fun t =>
          let k := t.ctx c
          let f := bytesField b
          k.live = true ∧ k.busy = false ∧ k.err = 0 ∧ k.ptroot = f 0 8 ∧ k.asid = f 8 2 ∧ k.tvec.toNat = f 12 4 ∧ k.hazchk = (f 16 4 % 2 == 1)
          ∧ k.hazlock = (f 16 4 / 2 % 2 == 1) ∧ k.seed.toNat = f 20 4 ∧ k.strict = (f 24 4 % 2 == 1) ∧ k.pltrap = (f 24 4 / 2 % 2 == 1)
          ∧ k.wcage = f 24 4 / 4 % 256 ∧ k.dbgctl.toNat = f 28 4 ∧ k.tracebase.toNat = f 40 8 ∧ k.rrarea.toNat = f 56 8
          ∧ k.dumpbase.toNat = f 72 8 ∧ k.dumpsize.toNat = f 80 4 ∧ k.savebase = f 88 8 ∧ k.savesize = f 96 8
          ∧ (∀ d, d ≠ c → t.ctx d = s.ctx d) ∧ t.warps = s.warps ∧ sameMemory s t }
  | .saveOp c =>
      let gs := s.allWgs c
      let on := gs.filter fun g => !(s.wg g).out
      let s0 := on.foldl (fun s g => if (s.wg g).resident then s else s.releaseWg g) (s.modCtx c fun k => { k with out := true })
      let r := (s0.drainCtx c).preemptAll on
      some
      { ok := plainMemory s ∧ (s.ctx c).live = true ∧ c ≠ 0 ∧ 65536 + 2097152 * gs.length ≤ (s.ctx c).savesize ∧ r.2 = true ∧ (∀ k ∈ r.1.cores, r.1.drainAwaits k.1 c = false) ∧ Store.wf {} s.wgs = true
          ∧ ∀ q ∈ s.queues, q.2.ctx = c → q.2.state = .unbound ∨ q.2.state = .stopped
        holds := fun t => (t.ctx c).saved = true ∧ (t.ctx c).live = false ∧ (∀ e ∈ t.wgs, e.1 ∉ gs)
          ∧ (Store.get ({} : Saved) t.saves c).whole = true
          -- the first word of the area is the mark of a save
          ∧ t.l2Num (s.ctx c).savebase 4 = 0x56415343 }
  | .restore c =>
      let sv := Store.get ({} : Saved) s.saves c
      (s.recordAt c).map fun a =>
      let base := s.l2Num (a + 88) 8
      { ok := (s.ctx c).live = false ∧ sv.whole = true ∧ sv.image = s.l2Bytes base sv.image.length
        holds := fun t =>
          let k := t.ctx c
          k.live = true ∧ k.saved = false ∧ k.busy = false ∧ k.err = 0 ∧ k.asid = sv.regs.asid ∧ k.ptroot = sv.regs.ptroot ∧ k.tvec = sv.regs.tvec
          ∧ k.seed = sv.regs.seed ∧ k.strict = sv.regs.strict ∧ k.counts = sv.regs.counts ∧ k.savebase = base ∧ k.savesize = s.l2Num (a + 96) 8
          ∧ t.wgs = sv.wgs.foldl (fun m e => Store.set {} m e.1 e.2) s.wgs ∧ (Store.get ({} : Saved) t.saves c).whole = false }
  | .discard c =>
      let sv := Store.get ({} : Saved) s.saves c
      let idle := s.allWgs c = [] ∧ c ≠ 0 ∧ ∀ q ∈ s.queues, q.2.ctx = c → q.2.state = .unbound
      some
      { ok := ((s.ctx c).live = false ∧ (s.ctx c).saved = true ∧ plainMemory s ∧ sv.base % 8192 = 0 ∧ sv.size % 8192 = 0) ∨ ((s.ctx c).live = true ∧ idle)
        holds := fun t => (t.ctx c).live = false ∧ (t.ctx c).busy = false ∧ (t.ctx c).err = 0 ∧
          ((s.ctx c).live = false → (t.ctx c).saved = false ∧ Store.get {} t.saves c = {}
            ∧ ∀ pa, t.l2Read pa = if sv.base ≤ pa ∧ pa < sv.base + sv.size then 0 else s.l2Read pa) }
  | _ => none

/-- The states of a partition reset, and its causes (R378 to R381). -/
def resetClaims (i : Instr) (s : State) : Option Claim :=
  match i with
  | .quiesceDone p => some
      { ok := (s.part p).reset = .quiesce ∧ (s.haltPart p).partAwaits p = false
        holds := fun t => (t.part p).reset = .writeback ∧ dueFrom t (s.tick.toNat + 1) (.writebackDone p)
          ∧ (∀ g ∈ s.partWgs p, (s.wg g).out = false → ∀ w ∈ (s.wg g).warps, (t.warp w).whalt = true ∧ (t.warp w).log = []) ∧ sameMemory s t }
  | .writebackDone p => some
      { ok := (s.part p).reset = .writeback
        holds := fun t => (t.part p).reset = .zero ∧ dueFrom t (s.tick.toNat + 1) (.zeroDone p)
          ∧ (∀ e ∈ t.l2, s.ownerOf (e.1 / 8192) ≠ p + 1) ∧ t.warps = s.warps }
  | .zeroDone p => some
      { ok := (s.part p).reset = .zero
        holds := fun t => (t.part p).reset = .replay ∧ dueFrom t (s.tick.toNat + 1) (.replayDone p)
          ∧ (∀ e ∈ t.launches, (s.part p).holds e.2.ctx = false) }
  | .replayDone p => some
      { ok := (s.part p).reset = .replay ∧ (s.part p).nextCause = 0 ∧ (s.part p).destroyWait = false
        holds := fun t => (t.part p).state = .active ∧ (t.part p).reset = .run ∧ (t.part p).stoppedQ = [] }
  | .schedulerFault p => some
      { ok := plainMemory s ∧ (s.part p).state = .active ∧ (s.part p).reset = .run
        holds := fun t => (t.part p).state = .resetting ∧ (t.part p).reset = .quiesce ∧ (t.part p).cause = 4
          ∧ dueFrom t (s.tick.toNat + 1) (.quiesceDone p)
          ∧ ∀ q, (s.queue q).state ≠ .unbound → (s.queue q).partition = some p → (t.queue q).state = .stopped ∧ (t.queue q).inflight = [] }
  | .resetpart p => some
      { ok := plainMemory s ∧ (s.part p).state = .active ∧ (s.part p).reset = .run
        holds := fun t => (t.part p).state = .resetting ∧ (t.part p).reset = .quiesce ∧ (t.part p).cause = 6 ∧ t.perr = 0 ∧ t.pbusy = false
          ∧ dueFrom t (s.tick.toNat + 1) (.quiesceDone p)
          ∧ ∀ q, (s.queue q).state ≠ .unbound → (s.queue q).partition = some p → (t.queue q).state = .stopped ∧ (t.queue q).inflight = [] }
  | .clusterRetentionExit c => some
      { ok := Store.wf {} s.cores = true
        holds := fun t => (t.cluster c).tlb = [] ∧ (∀ n, n / 4 = c → (t.core n).tlb = [] ∧ (t.core n).quanta = [] ∧ (t.core n).acc = [])
          ∧ (∀ w, coreOf w / 4 = c → (t.warp w).sregs = [] ∧ (t.warp w).vregs = []) ∧ (∀ e ∈ t.l1, e.1 / 2 ^ 40 / 4 ≠ c)
          ∧ ∀ p, p < 16 → s.retainedIn p c = true → (s.part p).state = .active → (s.part p).reset = .run →
              (t.part p).state = .resetting ∧ (t.part p).cause = 5 }
  | _ => none

/-! #### Beats and power (R383 to R398, R444 to R454) -/

/-- One step of the controller (R390): E, I, D and HELD. -/
def controllerStep (l : Loop) (k : Contract) (m : Nat) : Int × Int × Int × Bool :=
  let e := max (-32768) (min 32767 ((k.target : Int) - m))
  let held := (decide (l.dprev = k.dceil) && decide (e > 0)) || (decide (l.dprev = k.dfloor) && decide (e < 0))
  let i := if held then l.i else max (-(k.imax : Int)) (min k.imax (l.i + k.ki * e))
  -- the shift right by 12 rounds down
  (e, i, max (k.dfloor : Int) (min k.dceil (k.res + Int.fdiv (k.kp * e + i) 4096)), held)

/-- The events of the beat loops (R383, R388, R390 to R396, R403, R483). -/
def loopClaims (i : Instr) (s : State) : Option Claim :=
  let stepped := fun (t : State) (c m : Nat) (k : Contract) =>
    let l := (s.ctx c).loop
    let x := (t.ctx c).loop
    let r := controllerStep l k m
    x.used = m ∧ x.e = r.1 ∧ x.i = r.2.1 ∧ (x.d : Int) = r.2.2.1 ∧ (x.dprev : Int) = r.2.2.1 ∧ x.held = r.2.2.2 ∧ x.merging = false
    ∧ ∀ p, s.partOf c = some p → dueFrom t (s.tick.toNat + 1) (.equinoxGrant p)
  match i with
  | .beatIntervalEnd c =>
      let l := (s.ctx c).loop
      let sampled := fun (t : State) => (t.ctx c).loop.count = 0 ∧ (t.ctx c).loop.lcl = l.count.toNat
      let next := fun (t : State) (n : Nat) => ((s.tick.toNat / 2 ^ n + 1) * 2 ^ n, .beatIntervalEnd c) ∈ t.calendar
      match l.waiting, l.contract with
      | some n, _ => some
          { ok := (s.ctx c).live = true
            holds := fun t => let x := (t.ctx c).loop
              sampled t ∧ x.waiting = none ∧ if n.activeBit then x.contract = some n ∧ x.g = n.res ∧ x.d = n.res ∧ next t n.ilog
                else x.contract = none ∧ x.iw = 4 }
      | none, some k => some
          { ok := (s.ctx c).live = true
            holds := fun t => sampled t ∧ (t.ctx c).loop.contract = some k ∧ next t k.ilog ∧ dueFrom t (s.tick.toNat + 1) (.controllerStep c) }
      | none, none => none
  | .controllerStep c =>
      (s.ctx c).loop.contract.map fun k =>
      { holds := fun t => stepped t c (s.ctx c).loop.lcl k ∧ (t.ctx c).loop.gmiss = (s.ctx c).loop.merging }
  | .beatmrg x n least =>
      ((s.receive x).mergeFor x).bind fun c => (s.ctx c).loop.contract.map fun k =>
      { ok := (s.receive x).takes x 17 = true ∧ (s.receive x).ctx c = s.ctx c
        holds := fun t => stepped t c least k ∧ (t.ctx c).loop.gmiss = decide (n < k.gsize) }
  | .equinoxGrant p =>
      let ms := s.members p
      some
      -- what the partition's contexts ask for fits, so that nothing is shed
      { ok := (∀ c ∈ ms, (s.ctx c).loop.susp = false) ∧ (∃ c ∈ ms, (s.ctx c).loop.contract.isSome)
          ∧ s.stakesFit p (s.grantCores p) (ms.map fun c => match (s.ctx c).loop.contract with
              | some k => k.stake c (s.ctx c).loop.d
              | none => s.plainStake p c) = true
        holds := fun t => ∀ c ∈ ms, (t.ctx c).loop.susp = false ∧ dueFrom t (s.tick.toNat + 1) (.grantRise c) ∧ dueFrom t (s.tick.toNat + 1) (.grantFall c)
          ∧ ∀ k, (s.ctx c).loop.contract = some k → (t.ctx c).loop.g = (s.ctx c).loop.d
            ∧ (t.ctx c).loop.iw = 1 + 14 * ((s.ctx c).loop.d + 1 - k.dfloor) / (k.dceil - k.dfloor + 1) }
  | .grantRise c =>
      let l := (s.ctx c).loop
      l.contract.map fun k =>
      { ok := l.susp = false
        -- no actuator falls yet (R393)
        holds := fun t => let x := (t.ctx c).loop
          x.contract = some k ∧ x.g = l.g ∧ (l.pos = [] → x.pos = k.positions l.g)
          ∧ (l.pos.length = 5 → (k.positions l.g).length = 5 → ∀ j, j < 5 → x.pos.getD j 0 = max (l.pos.getD j 0) ((k.positions l.g).getD j 0))
          ∧ (∀ o ∈ l.cores, o ∈ x.cores) }
  | .grantFall c =>
      let l := (s.ctx c).loop
      l.contract.map fun k =>
      { ok := l.susp = false
        holds := fun t => (t.ctx c).loop.pos = k.positions l.g ∧ (t.ctx c).loop.contract = some k ∧ (t.ctx c).loop.g = l.g }
  | _ => none

/-- Clocks, estimates and weights (R444 to R449). -/
def powerClaims (i : Instr) (s : State) : Option Claim :=
  match i with
  | .powerEstimate xs _ _ => some
      { holds := fun t => (s.tick.toNat + 1000, .powerEstimate [] 0 0) ∈ t.calendar
          ∧ ∀ c, c < 40 → (t.cluster c).est = s.estimate c (addSamples (s.sampled c) (xs.getD c {}))
          ∧ (t.cluster c).step = (s.cluster c).step ∧ (t.sampled c) = {} }
  | .weightRefit p _ => some
      { holds := fun t => t = { s with refits := t.refits } ∧ (∀ q, q ≠ p → Store.get {} t.refits q = Store.get {} s.refits q)
          ∧ ∀ x ∈ (Store.get ({} : Refit) t.refits p).w.zip nominalWeights, x.2 / 2 ≤ x.1 ∧ x.1 ≤ 2 * x.2 }
  | .stepChangeRequest c n =>
      -- the cap holds no cluster of a class-0 contract below the promise clock
      let b := s.stepBounds c
      let m := max b.1 (min b.2 (max (min n 23 - s.heldSteps c) (if s.holdsClass0 c then min (min n 23) 8 else 0)))
      let k := s.cluster c
      some
      { ok := k.changing = false ∧ m ≠ k.step ∧ b.1 ≤ min n 23 ∧ min n 23 ≤ b.2
        holds := fun t => (t.cluster c).target = m ∧ (t.cluster c).changing = true ∧ (t.cluster c).step = k.step
          -- a rise switches after the steps it climbs in us, no less than 2, and a fall after 2 us
          ∧ (s.tick.toNat + 1000 * (if m > k.step then max 2 (m - k.step) else 2), .stepChangeDone c) ∈ t.calendar
          ∧ ∀ d, d ≠ c → t.cluster d = s.cluster d }
  | .stepChangeDone c => some
      { ok := (s.cluster c).changing = true ∧ (s.cluster c).queued = none
        holds := fun t =>
          let k := s.cluster c
          t.cluster c = { k with
            step := k.target, changing := decide (k.target < k.step), base := k.run s.time, since := s.time
            rampAt := if k.target < k.step then s.tick.toNat else k.rampAt }
          -- of a fall the voltage still ramps, one step in each us
          ∧ (k.target < k.step → (s.tick.toNat + 1000 * (k.step - k.target), .stepChangeDone c) ∈ t.calendar)
          ∧ ∀ d, d ≠ c → t.cluster d = s.cluster d }
  | _ => none

/-! #### Partitions (R455 to R468) -/

/-- The commands of partitions, their keys, time slices and usage records (R456 to R468). -/
def partitionClaims (i : Instr) (s : State) : Option Claim :=
  -- the frames of those who carry the key's slot stand under a new key, and no others (R465)
  let rekeyed := fun (t : State) (k : Nat) => ∀ c, Store.get 0 t.keyGen c = if c ∈ s.slotOwners k then s.free + 1 else Store.get 0 s.keyGen c
  match i with
  | .create p =>
      let b := s.entryBytes p
      some
      { ok := (s.part p).state = .free ∧ ∀ x ∈ s.entryChecks p b true, x.2 = false
        holds := fun t => (t.part p).state = .active ∧ (∀ j, j < 256 → Store.get 0 (t.part p).entry j = b.getD j 0) ∧ t.perr = 0 ∧ t.pbusy = false
          ∧ ((s.tick.toNat / 1000000000 + 1) * 1000000000, .usageRecordWrite p) ∈ t.calendar ∧ ∀ q, q ≠ p → t.part q = s.part q }
  | .update p =>
      let b := s.entryBytes p
      some
      { ok := (s.part p).state = .active ∧ ∀ x ∈ s.entryChecks p b false, x.2 = false
        holds := fun t => t.perr = 0 ∧ t.pbusy = false ∧
          -- under a contract the new values wait for an interval end
          if (s.members p).any fun c => (s.ctx c).loop.contract.isSome then (t.part p).updated = some (entryStore b) ∧ (t.part p).entry = (s.part p).entry
          else (t.part p).entry = entryStore b }
  | .destroy p => some
      { ok := p < 16 ∧ (s.part p).state = .active ∧ s.queuesOf p = [] ∧ ∀ q ∈ (s.part p).queues, (s.queue q).state = .unbound
        holds := fun t => (t.part p).state = .destroying ∧ t.perr = 0 ∧ t.pbusy = false ∧ dueFrom t (s.tick.toNat + 1) (.destroyZeroingDone p)
          ∧ (∀ n, t.ownerOf n ≠ p + 1) ∧ t.keysHeld.getLsbD ((s.part p).field 3 1) = false ∧ ∀ c, (s.part p).holds c = true → t.ctx c = {} }
  | .destroyZeroingDone p => some
      { ok := (s.part p).state = .destroying
        holds := fun t => t.part p = {} ∧ (∀ q, q ≠ p → t.part q = s.part q) ∧ t.warps = s.warps }
  | .generate k => some
      { ok := k < 32 ∧ s.keyInUse k = false
        holds := fun t => t.keysHeld.getLsbD k = true ∧ (∀ j, j ≠ k → t.keysHeld.getLsbD j = s.keysHeld.getLsbD j)
          ∧ (∀ j, j ≠ k → Store.get 0 t.keys j = Store.get 0 s.keys j) ∧ rekeyed t k
          ∧ t = { s with keysHeld := t.keysHeld, keys := t.keys, keyGen := t.keyGen, free := s.free + 1 } }
  | .zeroOp k => some
      { ok := k < 32 ∧ s.keyInUse k = false
        holds := fun t => t.keysHeld.getLsbD k = false ∧ (∀ j, j ≠ k → t.keysHeld.getLsbD j = s.keysHeld.getLsbD j)
          ∧ Store.get 0 t.keys k = 0 ∧ rekeyed t k ∧ t = { s with keysHeld := t.keysHeld, keys := t.keys, keyGen := t.keyGen, free := s.free + 1 } }
  | .scheduleStart =>
      let e := (s.tick.toNat + 999) / 1000 * 1000
      some
      { ok := s.tsRunning = false ∧ s.tsEn = false ∧ s.scheduleOk = true
        holds := fun t => t = { s with tsEn := true, tsRunning := true, tsEpoch := e, tsSlot := 0, tsStart := e, calendar := s.calendar ++ [(e, .timesliceBoundary)] } }
  | .scheduleStop => some { holds := fun t => t = { s with tsEn := false } }
  | .timesliceBoundary =>
      let n := s.slotList.length
      some
      { ok := s.tsRunning = true ∧ (s.tsSlot = 0 ∨ s.slotEnd ≤ s.tick.toNat)
        holds := fun t =>
          if s.tsEn = false then t.tsRunning = false ∧ t.tsSlot = 0
          else t.tsRunning = true ∧ t.tsSlot = (if s.tsSlot ≥ n then 1 else s.tsSlot + 1)
            ∧ t.tsStart = (if s.tsSlot = 0 then s.tsEpoch else s.slotEnd) ∧ (t.slotEnd, .timesliceBoundary) ∈ t.calendar }
  | .usageRecordWrite p => some
      { ok := (s.part p).state = .active ∨ (s.part p).state = .resetting
        holds := fun t => ((s.tick.toNat / 1000000000 + 1) * 1000000000, .usageRecordWrite p) ∈ t.calendar
          ∧ ∀ e ∈ s.ctxs, (s.part p).holds e.1 = true → (t.ctx e.1).usedSec = false }
  | _ => none

/-! #### Firmware (R432, R441, R469 to R475) -/

/-- Resets, images, reports, the tick and the core dump. -/
def firmwareClaims (i : Instr) (s : State) : Option Claim :=
  match i with
  | .moduleReset => some
      { holds := fun t => t.warps = State.reset.warps ∧ t.hbm = State.reset.hbm ∧ t.l2 = State.reset.l2 ∧ t.tick = State.reset.tick ∧ t.parts = State.reset.parts
          ∧ t.calendar = State.reset.calendar ∧ t.flash = s.flash ∧ ∀ img, s.flash = some img →
            if s.imageOk img then t.running = some img ∧ t.recovery = false ∧ t.fuseSvn = max s.fuseSvn img.svn
            else t.recovery = true ∧ t.fuseSvn = s.fuseSvn }
  | .recoveryImage img => some
      -- an image that does not verify is not run
      { ok := s.recovery = true
        holds := fun t => t = if s.imageOk img then
            { s with running := some img, flash := some img, recovery := false, up := true, fuseSvn := max s.fuseSvn img.svn }
          else s }
  | .firmwareUpdate img => some
      { ok := s.recovery = false
        holds := fun t => t = { s with staged := some img, flash := if s.imageOk img then some img else s.flash } }
  | .hocpTickLoad v => some
      { ok := s.mayLoadTick = true
        holds := fun t => t.tick = v ∧ t.hbm = s.hbm ∧ t.l2 = s.l2 ∧ t.parts = s.parts ∧ t.calendar.map Prod.snd = s.calendar.map Prod.snd }
  | .attestationRequest =>
      let b := s.l2Bytes (s.attreq / 64 * 64) 64
      let out := bytesField b 56 8
      let r := (s.report (bytesField b 0 1) ((b.drop 8).take 48)).take 8192
      some
      { ok := plainMemory s ∧ out % 256 = 0 ∧ s.hyperRun out 8192 = true
        holds := fun t => t.attDone = true ∧ t.attBusy = false ∧ (∀ j, j < r.length → t.l2Read (out + j) = r.getD j 0)
          ∧ ∀ pa, ¬ (out ≤ pa ∧ pa < out + r.length) → t.l2Read pa = s.l2Read pa }
  | .attestationRequestHocp p n => some { holds := fun t => t = { s with hocpOut := s.hocpOut ++ [.report (s.report p n)] } }
  | .stoptickArm v => some
      { holds := fun t => t.stoptick = v ∧ t.stopArm = true ∧ (max v.toNat (if s.tick.toNat ≤ v.toNat then 0 else s.tick.toNat + 1), .stoptick) ∈ t.calendar
          ∧ t = { s with stoptick := v, stopArm := true, calendar := t.calendar } }
  | .stoptick => some
      { ok := s.stopArm = true ∧ s.stoptick.toNat ≤ s.tick.toNat
        holds := fun t => t = { s with stopped := true } }
  | .coreDumpWrite w =>
      let c := s.ctxOf w
      let u := (s.ctxWgs c).foldl (fun s g => s.stopMmas g) s
      some
      { ok := (u.ctx c).dumping = true ∧ (u.ctx c).dumpWait = none ∧ (u.dumpReach w c (dumpPages (u.ctx c).dumpBad (u.dumpImage w).1)).1 = true
        holds := fun t => (t.ctx c).dumping = false ∧ (t.ctx c).dumpBad = [] ∧ (t.ctx c).dumpWait = none }
  | _ => none

/-! #### Ports and the fabric (R7, R409 to R425) -/

/-- The ports, the link and the paths (R7, R411, R412, R418 to R425). -/
def portClaims (i : Instr) (s : State) : Option Claim :=
  let p := fun (k : Nat) => s.port k
  match i with
  | .fabidWrite n => some
      { ok := ∀ k, k < 24 → (p k).state = .unlocked
        holds := fun t => t = { s with fabid := n % 512, lost := t.lost, calendar := t.calendar } ∧ Store.get false t.lost (n % 512) = false
          ∧ (∀ d, d ≠ n % 512 → Store.get false t.lost d = Store.get false s.lost d) ∧ ∀ e ∈ s.calendar, e ∈ t.calendar }
  | .portcfgWrite k v => some
      { ok := (p k).state ≠ .error
        holds := fun t =>
          if (p k).state = .unlocked then t.port k = { p k with en := v.getLsbD 0, loopback := v.getLsbD 1, tagmax := max 1 (v.toNat / 16 % 16) }
          -- a write once the port is locked is a violation
          else (t.port k).state = .error ∧ (t.port k).errcause = 4 }
  | .lock k => some
      { ok := (p k).state = .unlocked ∧ (p k).en = true
        holds := fun t => (t.port k).state = .locked ∧ (t.port k).en = true ∧ (t.port k).asking = some .getVersion
          ∧ (s.tick.toNat + 4001, .linkDown k) ∈ t.calendar ∧ ∀ j, j ≠ k → t.port j = p j }
  | .portStart k => some
      { ok := (p k).state = .locked ∧ (p k).session = true ∧ s.tickNear = true
        holds := fun t => (t.port k).state = .run ∧ (t.port k).keyAt = (p k).sentCnt ∧ (t.port k).keyRcvd = (p k).rcvdCnt ∧ t.begun = true }
  | .portStop k => some
      { ok := (p k).state ≠ .unlocked
        holds := fun t => (t.port k).state = .unlocked ∧ (t.port k).session = false ∧ (t.port k).linkup = (p k).linkup
          ∧ (t.port k).en = (p k).en ∧ (t.port k).errcause = (p k).errcause }
  | .keyupdate k => some
      { ok := (p k).state = .run
        holds := fun t => (t.port k).keyUpdating = true ∧ (t.port k).asking = some .keyUpdate ∧ (t.port k).state = .run
          ∧ ∀ j, j ≠ k → t.port j = p j }
  | .linkControlWord k w => some
      { ok := Store.wf {} s.ports = true
        holds := fun t =>
          let x := t.port k
          if w.tagOk then x.tagFail = 0 ∧ x.ackCnt = max (p k).ackCnt w.ack ∧ x.heard = s.tick.toNat
            ∧ ∀ v, v < 4 → x.stopped.getLsbD v = (if w.go = some v then false else (p k).stopped.getLsbD v || decide (w.stop = some v))
          else x.tagFail = (p k).tagFail + 1 ∧ ((p k).state = .run → (p k).tagmax ≤ (p k).tagFail + 1 → x.state = .error ∧ x.errcause = 2) }
  | .linkDown k => some
      { ok := s.tick.toNat ≥ (p k).heard + 50000
        holds := fun t => (t.port k).linkup = false
          ∧ if (p k).state = .locked ∨ (p k).state = .run then (t.port k).state = .error ∧ (t.port k).errcause = 1
            else (t.port k).state = (p k).state ∧ (t.port k).errcause = (p k).errcause }
  | .spdm k msg => some
      { ok := match msg with
          | .established => (p k).state = .locked ∧ (p k).asking = some .finish
          | .keyUpdated => (p k).state = .run ∧ (p k).keyUpdating = true
          | .keyUpdateFailed => (p k).state = .run ∧ (p k).keyUpdating = true
          | .algorithms _ => (p k).state = .locked ∧ (p k).asking = some .negotiateAlgorithms
          | .other => True
          | _ => (p k).state = .locked ∨ (p k).state = .run
        holds := fun t =>
          let x := t.port k
          match msg with
          | .established => x.session = true ∧ x.state = .locked
          | .keyUpdated => x.keyUpdating = false ∧ x.state = .run
          | .keyUpdateFailed => x.state = .error ∧ x.errcause = 5
          | .algorithms a =>
            -- no other selection is accepted
            if a = spdmChosen then x.state = .locked ∧ x.asking = some .getDigests else x.state = .error ∧ x.errcause = 3
          | .other => x.state = (p k).state ∧ x.heard = s.tick.toNat
          | _ => x.state = .error ∧ x.errcause = 3 }
  | .pstate k map => some { holds := fun t => (t.port k).pstate = map ∧ (t.port k).pstateSeen = true ∧ (t.port k).state = (p k).state }
  | .flitDrop k => some { holds := fun t => (t.port k).drops = min 0xFFFF ((p k).drops + 1) ∧ (t.port k).state = (p k).state }
  | .pathDown k d => some
      { ok := noneReady s ∧ (s.path k d).timing = true ∧ (s.path k d).down = false ∧ s.pathTiming k d = true
        holds := fun t => (t.path k d).down = true ∧ t.lost = s.lost ∧ sameMemory s t }
  | .peerLost d => some
      -- what is unanswered belongs to engines and queues, and nothing else is about to go on
      { ok := s.lossDue d = true
          ∧ (∀ r ∈ s.sent ++ s.unsent, r.x.dst = d → (∃ g q, r.link = .engine g q) ∨ ∃ q, r.link = .queue q)
          ∧ (∀ c ∈ s.cores, ∀ e ∈ c.2.tickets, e.peer ≠ d) ∧ noneReady s
        holds := fun t => Store.get false t.lost d = true ∧ ∀ c ∈ s.metLoss d, (t.ctx c).peerlost = true }
  | .peerLostClear d => some
      { ok := ∃ k, k < 24 ∧ s.pathUp k d = true
        holds := fun t => Store.get false t.lost d = false ∧ (∀ e, e ≠ d → Store.get false t.lost e = Store.get false s.lost e) ∧ t = { s with lost := t.lost } }
  | _ => none

/-- Where a transaction to the sender of `x` goes, on the plane of `x` (R409, R424): out by a
port in RUN none of whose virtual channels is stopped (R419) and which has nonces left (R423), or, for what the device has sent
to its own index, to its own owner path (R303). -/
def goesOut (u t : State) (x : Txn) (p : Txn → Prop) : Prop :=
  (x.src = u.fabid → ∃ y, p y ∧ (u.tick.toNat + 1, txnEvent y) ∈ t.calendar)
  ∧ (x.src ≠ u.fabid → (u.port x.plane).state = .run → (u.port x.plane).loopback = false → (u.port x.plane).stopped = 0 → (u.port x.plane).keySpent = false →
      ∃ y, t.fabOut.getLast? = some y ∧ p y ∧ y.dst = x.src ∧ y.plane = x.plane)

/-- What an owner does with a request that it may serve at once (R413): `pa` is where it acts, and `u` the machine after the
translation. The answer goes out with the request's plane and SEQ. -/
def ownerClaims (i : Instr) (s : State) (pa : Nat) (u : State) : Option Claim :=
  let served := fun (x : Txn) =>
    let r := s.receive x
    (∃ p, r.tenant x.ten x.src = some p ∧ r.partOf x.ctx = some p) ∧ (r.ctx x.ctx).live = true
    ∧ Store.get 0 r.busyEnd (x.src * 24 + x.plane) ≤ r.tick.toNat ∧ (∀ k ∈ r.keysOut, k.covers x = false) ∧ r.ownerWalk x = .ok pa u
    ∧ plainMemory u
  let answered := fun (t : State) (x : Txn) (typ : Nat) (bs : List Byte) =>
    goesOut u t x (fun y => y.typ = typ ∧ y.seq = x.seq ∧ y.payload = bs) ∧ Store.get 0 t.lastseq (x.src * 24 + x.plane) = x.seq
  match i with
  | .rd x => some
      { ok := served x ∧ (s.receive x).takes x 1 = true
        holds := fun t => answered t x 2 (u.l2Bytes pa x.len) ∧ sameMemory u t }
  | .wr x => some
      { ok := served x ∧ (s.receive x).takes x 3 = true ∧ x.payload.length ≤ 128
        holds := fun t => answered t x 5 [] ∧ (∀ j, j < x.payload.length → t.l2Read (pa + j) = x.payload.getD j 0)
          ∧ ∀ q, ¬ (pa ≤ q ∧ q < pa + x.payload.length) → t.l2Read q = u.l2Read q }
  | .wrm x => some
      { ok := served x ∧ (s.receive x).takes x 4 = true ∧ x.payload.length = 144
        holds := fun t => answered t x 5 []
          ∧ (∀ j, j < 128 → t.l2Read (pa + j) = if leNat (x.payload.take 16) / 2 ^ j % 2 = 1 then x.payload.getD (16 + j) 0 else u.l2Read (pa + j))
          ∧ ∀ q, ¬ (pa ≤ q ∧ q < pa + 128) → t.l2Read q = u.l2Read q }
  | .fabricAtom x =>
      let op := atomOf x
      let old := u.l2Num pa op.bytes
      some
      { ok := served x ∧ (s.receive x).takes x 6 = true ∧ (x.op ≤ 12 ∨ (16 ≤ x.op ∧ x.op ≤ 18))
        holds := fun t => answered t x 7 (leBytes op.bytes old)
          ∧ (∀ v, (op.rmw old (leNat x.payload)).1 = some v → ∀ j, j < op.bytes → t.l2Read (pa + j) = (leBytes op.bytes v).getD j 0)
          ∧ ((op.rmw old (leNat x.payload)).1 = none → sameMemory u t)
          ∧ ∀ q, ¬ (pa ≤ q ∧ q < pa + op.bytes) → t.l2Read q = u.l2Read q }
  | _ => none

/-- What a requester does with an answer (R412, R415, R416, R420, R501): `r` is the request that it ends. -/
def answerClaims (i : Instr) (s : State) (r : Sent) : Option Claim :=
  let ends := fun (typ : Nat) (x : Txn) (a : Answer) =>
    let met := (s.receive x).takes x typ = true ∧ (s.receive x).asked x = some r
    match r.link with
    | .engine g q =>
      (s.engine g q).head?.map fun e =>
        let va := 2 ^ 49 + r.x.dst * 2 ^ 40 + r.x.addr
        ({ ok := met ∧ e.out = 1
           holds := fun t =>
             (∃ e', (t.engine g q).head? = some e' ∧ e'.out = 0 ∧ e'.got = gotBytes e.got va a.bytes
               ∧ e'.refused = ((a.cause.map fun c => (c, BitVec.ofNat 64 va)).or e.refused))
             -- the head goes on when nothing is outstanding
             ∧ dueFrom t (s.tick.toNat + 1) (e.finish g q) } : Claim)
    | .queue q =>
        let k := s.queue q
        let va := 2 ^ 49 + r.x.dst * 2 ^ 40 + r.x.addr
        k.waitEv.map fun ev =>
        ({ ok := met ∧ k.out = 1
           holds := fun t => (t.queue q).out = 0 ∧ (t.queue q).got = gotBytes k.got va a.bytes ∧ (t.queue q).refused = (k.refused || a.cause.isSome)
             ∧ dueFrom t (s.tick.toNat + 1) ev } : Claim)
    | .xcopy q run =>
        let va := 2 ^ 49 + r.x.dst * 2 ^ 40 + r.x.addr
        ((s.queue q).copies.find? fun c => c.run == run).map fun c =>
        ({ ok := met ∧ c.out = 1
           holds := fun t => dueFrom t (s.tick.toNat + 1) (.xcopyComplete q run) ∧
             ∃ c', ((t.queue q).copies.find? fun c => c.run == run) = some c' ∧ c'.out = 0 ∧ c'.got = gotBytes c.got va a.bytes
               ∧ c'.refused = (c.refused || a.cause.isSome) } : Claim)
    | .wc core id => some
        ({ ok := met ∧ noneReady (s.receive x) ∧ ∃ e ∈ (s.core core).wc, e.id = id
           holds := fun t => ∀ e ∈ (t.core core).wc, e.id ≠ id } : Claim)
    | .lane w lid th =>
        ((s.warp w).log.find? fun e => e.id == lid).bind fun e =>
        match a, e.out.find? (fun l => l.t == th), e.op.pend with
        | .data _, some _, some id => some
          -- the data of one thread among several, which no watch looks at
          ({ ok := met ∧ e.op.isLoad = true ∧ e.op.scalar = false ∧ e.op.uniform = false ∧ s.bank w = [] ∧ e.refused = []
               ∧ e.lanes = [] ∧ (s.receive x).warp w = s.warp w ∧ (s.warp w).log = [e] ∧ (∃ l ∈ e.out, l.t ≠ th) ∧ ∃ p ∈ (s.warp w).pending, p.id = id
             holds := fun t => dueFrom t (s.tick.toNat + 1) (.longLatencyWrite w id th)
               ∧ ∃ e', ((t.warp w).log.find? fun e => e.id == lid) = some e' ∧ e'.out = e.out.filter fun l => l.t != th } : Claim)
        | _, _, _ => none
  match i with
  | .rdata x => ends 2 x (.data x.payload)
  | .ares x => ends 7 x (.data x.payload)
  | .refuse x => ends 10 x (.refuse x.aux)
  | .doneOp x => if r.x.typ = 20 then none else ends 5 x .done
  | .ticket x => some
      { ok := (s.receive x).takes x 8 = true ∧ (s.receive x).asked x = some r
        -- the access is linked to its page's entry, and no longer waits for an answer
        holds := fun t => ∃ e ∈ (t.core r.core).tickets, e.ctx = r.x.ctx ∧ e.peer = r.x.dst ∧ e.page = r.x.addr / 8192 ∧ e.ticket = x.aux
          ∧ ∃ l ∈ e.links, l.link = r.link ∧ l.x.addr = r.x.addr ∧ l.x.resent = false }
  | .busy x => some
      { ok := (s.receive x).takes x 9 = true ∧ (s.receive x).asked x = some r ∧ Store.get false (s.receive x).busyHold (x.src * 24 + x.plane) = false
        holds := fun t => Store.get false t.busyHold (x.src * 24 + x.plane) = true ∧ { r with busied := true } ∈ t.sent
          ∧ (s.tick.toNat + x.aux * 1000, .busyRetry x.plane x.src) ∈ t.calendar }
  | .planea x => some
      { ok := (s.receive x).takes x 14 = true ∧ (s.receive x).asked x = some r ∧ r.x.typ = 13
          -- the owner has no record of an unanswered request of the failed plane
          ∧ (∀ o ∈ (s.receive x).sent, o.x.dst = r.x.dst → o.x.plane = r.x.op → o.ord ≠ r.ord →
              ∀ b ∈ cut16 ((x.payload.length - 16) / 16) (x.payload.drop 16), leNat (b.take 2) ≠ o.x.seq)
        holds := fun t => Store.get false t.settling (r.x.dst * 24 + r.x.op) = false
          ∧ ∀ o ∈ (s.receive x).sent, o.x.dst = r.x.dst → o.x.plane = r.x.op → o.ord ≠ r.ord →
              -- it is sent again, or a ticket that its page has got meanwhile holds it (R324)
              ∃ n ∈ t.sent ++ t.unsent ++ t.cores.flatMap (fun c => c.2.tickets.flatMap TicketEntry.links), n.link = o.link ∧ n.x.addr = o.x.addr
                -- a buffered write goes with the bytes that its entry holds by then (R280)
                ∧ ((∀ c id, o.link ≠ .wc c id) → n.x.typ = o.x.typ ∧ n.x.payload = o.x.payload) }
  | _ => none

/-- The other transactions (R412 to R420). -/
def fabricClaims (i : Instr) (s : State) : Option Claim :=
  let sends := fun (u t : State) (x : Txn) (typ : Nat) => goesOut u t x fun y => y.typ = typ
  match i with
  | .busyRetry k d => some
      { holds := fun t => Store.get false t.busyHold (d * 24 + k) = false
          ∧ ∀ r ∈ s.sent, r.busied = true → r.x.dst = d → r.x.plane = k → { r with busied := false, x := { r.x with resent := true } } ∈ t.sent }
  | .notice x =>
      let u := s.receive x
      some
      { ok := u.takes x 11 = true ∧ u.savedTickets x.src x.aux = [] ∧ Store.get false u.lost x.src = false
          ∧ ((u.ticketEntries x.src x.aux = []) ∨ (x.op = 0 ∧ u.ticketLinks x.src x.aux ≠ []))
        holds := fun t =>
          -- a ticket that nobody holds is acknowledged; else every linked access is sent again
          if u.ticketEntries x.src x.aux = [] then sends u t x 12
          else ∀ r ∈ u.ticketLinks x.src x.aux, ∃ n ∈ t.sent ++ t.unsent, n.link = r.link ∧ n.x.addr = r.x.addr ∧ n.x.resent = true }
  | .noteack x => some { ok := (s.receive x).takes x 12 = true, holds := fun t => ∀ k, k ∈ t.keysOut ↔ k ∈ (s.receive x).keysOut ∧ ¬ (k.src = x.src ∧ k.ticket = x.aux) }
  | .planeq x => some
      { ok := (s.receive x).takes x 13 = true ∧ (s.receive x).pathUp x.op x.src = false
        holds := fun t => sends (s.receive x) t x 14 ∧ t.records = (s.receive x).records ∧ t.lastseq = (s.receive x).lastseq }
  | .colld x => some
      { ok := (s.receive x).takes x 20 = true ∧ ∃ p, (s.receive x).tenant x.ten x.src = some p ∧ (s.receive x).partOf x.ctx = some p
        holds := fun t => { ctx := x.ctx, handle := x.aux, src := x.src, round := x.op, off := x.addr, bytes := x.payload } ∈ t.collIn
          ∧ (∀ c ∈ (s.receive x).collIn, c ∈ t.collIn) ∧ sends (s.receive x) t x 5 }
  | .doneOp x =>
      ((s.receive x).asked x).bind fun r =>
        if r.x.typ ≠ 20 then none
        else some
        -- the chunk is no longer unanswered
        { ok := (s.receive x).takes x 5 = true ∧ r.x.resent = false ∧ (s.receive x).unsent = [] ∧ noneReady (s.receive x)
          holds := fun t => ∀ o, o ∈ t.sent ↔ o ∈ (s.receive x).sent ∧ o.ord ≠ r.ord }
  | _ => none

/-- COLL_COMPLETE (R244 to R246): the descriptor `bs`, the members `ms` and every contribution are here, and the result can be
written on this device; `w` is the machine before the writes, `pages` where the results go, and `z` the machine that signals. -/
def collectiveClaim (g q : Nat) (s : State) (bs : List Byte) (u : State) (ms : List Byte) (v : State) (ds : List (List Word))
    (pages : List PageAt) (w : State) (sig : List PageAt) (z : State) : Option Claim :=
  (s.engine g q).head?.bind fun e =>
  match e.work with
  | .coll h round tile =>
    let ctx := s.wgCtx g
    let core := some (s.wg g).core
    let hd := Store.get ({} : Handle) (s.ctx ctx).handles h
    let d := CollDesc.ofBytes bs
    let peers := (List.range d.gsize).map fun j => leNat ((ms.drop (2 * j)).take 2)
    let res := collResult d ds
    let runs := d.runs tile res e.res
    let done := w.writeColl g q tile res pages runs
    some
    { ok := e.started = true ∧ e.waitRec = none ∧ e.refused = none ∧ e.asked = true ∧ e.stored = false ∧ (s.wg g).engHalt = false
        ∧ hd.desc.toNat % 64 = 0 ∧ s.collGather g q e [{ va := hd.desc.toNat, len := 64 }] = .inl (some [bs], u)
        ∧ d.ok (tile.map fun n => s.tile g n) = true ∧ u.collGather g q e [{ va := d.peers, len := 2 * d.gsize }] = .inl (some [ms], v)
        ∧ (∀ p ∈ peers.zipIdx, p.2 ≠ d.rank → Store.get false v.lost p.1 = false)
        ∧ (d.res && v.onSys g { va := d.resbuf, len := 4 * d.count }) = false ∧ v.collect ctx h round d peers e.own = some ds
        ∧ v.reach core ctx .write (pageStarts ((runs.1 ++ runs.2).map fun r => ({ va := r.1, len := 4 } : Span))) [] = .ok pages w
        ∧ w.dirtyFrame pages = false ∧ done.1 = []
        ∧ d.signal % 4 = 0 ∧ done.2.reach core ctx .atomic [d.signal] [] = .ok sig z ∧ plainMemory z ∧ z.dirtyFrame sig = false
      holds := fun t => t.engine g q = (s.engine g q).tail
        ∧ (Store.get ({} : Handle) (t.ctx ctx).handles h).posted = (Store.get ({} : Handle) (z.ctx ctx).handles h).posted - 1
        ∧ (∀ n, tile = some n → (t.tile g n).work = (s.tile g n).work - 1)
        -- the results stand where they belong, and SIGNAL counts one more
        ∧ (∀ a, done.2.l2Read a = (w.putRuns (s.wgCtx g) (s.wg g).core pages (runs.1 ++ runs.2)).l2Read a)
        ∧ ∀ pa, byteAt sig d.signal = some pa →
          t.l2Num pa 4 = (z.l2Num pa 4 + 1) % 2 ^ 32 ∧ ∀ a, ¬ (pa ≤ a ∧ a < pa + 4) → t.l2Read a = z.l2Read a }
  | _ => none

/-! ### What comes before the effect of a word -/

/-- An instruction answers a next state, and something holds of it. -/
def completes (i : Instr) (s : State) (holds : State → Prop) : Prop := ∃ t, exec i s = .next t ∧ holds t

/-- The check that a scalar word of level U fails first, by its cause: ILLEGAL for a register above s63, REG_RANGE, ILLEGAL for
an odd pair, HAZARD (R28, R79, R93, R103; the place of HAZARD is the model's choice, log 85). -/
def ScalarSpec.breach (p : ScalarSpec) (s : State) : Option Nat :=
  let ss := p.writes ++ p.reads
  if ss.any fun r => decide (64 ≤ r) then some 0x01
  else if !inWindow (me s) ss p.vs then some 0x03
  else if !p.even.all (fun r => r % 2 == 0) then some 0x01
  else if !settled s ss p.vs then some 0x06
  else none

/-- The same of a vector word, with FMT_NONE and FMT_MISMATCH before HAZARD; with no active thread it is checked by its names only
(R18, R29, R79). -/
def VectorSpec.breach (p : VectorSpec) (s : State) : Option Nat :=
  let vs := p.writes.map Prod.fst ++ p.vreads
  if p.sreads.any fun r => decide (64 ≤ r) then some 0x01
  else if !inWindow (me s) p.sreads vs then some 0x03
  else if !p.even.all (fun r => r % 2 == 0) then some 0x01
  else if (me s).active = 0 then none
  else if !p.vreads.all (fun r => (me s).tag r != 0) then some 0x04
  else if !p.tagsOk then some 0x05
  else if !settled s p.sreads vs then some 0x06
  else none

/-- The scalar words and the vector words whose checks come with them. -/
def plainScalar (i : Instr) : Option ScalarSpec := scalarArith i <|> scalarBits i <|> scalarMul i <|> scalarPair i
def plainVector (i : Instr) (s : State) : Option VectorSpec :=
  vectorArith i s <|> vectorBits i s <|> vectorMul i s <|> vectorPair i s

/-- A trap before any effect (R20, R133): the warp's trap registers tell of it, and every byte of memory is as before. -/
def trapped (s t : State) (cause slot : Nat) : Prop :=
  entered s t cause slot 0 ((me s).resumedPart cause) (me s).pc ∧ sameMemory s t

/-- A trap taken while results are outstanding that no log entry holds (R94): the warp waits at its word to enter the handler, and no
register, split or byte of memory has changed. -/
def waitsToTrap (s t : State) (cause slot : Nat) : Prop :=
  (me t).park = .trapEntry cause slot 0 0 ((me s).resumedPart cause) (me s).pc ∧ (me t).splits = (me s).splits
  ∧ (me t).run = (me s).run ∧ (me t).pending = (me s).pending ∧ (me t).rc = (me s).rc ∧ regsKept (me s) (me t) ∧ sameMemory s t

/-- The warp waits for results before it takes a trap: it is not in a handler, and is not stepped (R94, R264). -/
def trapsWaiting (s : State) : Bool := !(me s).cur.trapm && (me s).step.isNone && (me s).awaits

/-- Bit 31 of an instruction's first word, the switch marker (R86). -/
def marker (i : Instr) : Bool := decide (2 ^ 31 ≤ (encode i).headD 0)

/-- A word that retires as skipped: its PC passes it and RC counts it, and nothing else is done (R18). -/
def skips (s t : State) (len : Nat) : Prop :=
  onlyWarp s t ∧ sameMemory s t ∧ me t = booked (me s) (me t) ∧ movedTo (me s) (me t) ((me s).pc + BitVec.ofNat 32 len) ∧ (me t).cur.a = (me s).cur.a

/-- The 32-bit registers that firmware writes whole (R137, R430, R431): TVEC, TRAPPC, TRAPMASK0 to 2, TRACEBASELO and HI, RRAREALO
and HI, DUMPBASELO and HI, DUMPSIZE, in the firmware view. -/
def wholeRegisters : List Nat := [0xC20, 0xC21, 0xC27, 0xC28, 0xC29, 0xCB1, 0xCB2, 0xCB6, 0xCB7, 0xCB9, 0xCBA, 0xCBB]

end Sys2Proof.Safety
end

