-- ==== Sys2Proof/Certificates/Slice0/Obligations.lean ====
section
/-! DEFINITION. The statements for the provers: one definition each. The words' families, what they need and what holds after
them are defined in Sys2Proof/Safety.lean. -/

open Sys2Proof Sys2Proof.Machine Sys2Proof.Safety

/-- O1. Scalar integer words compute their results and change nothing else. R144, R145, R146, R147, R148, R149, R155, R158, R24, R27, R28. -/
def Obligations.ScalarIntegerWords : Prop :=
  ∀ (i : Instr) (s : State) (p : ScalarSpec), plainScalar i = some p →
    i.wellFormed = true → issuing s = true → p.fits s = true →
    completes i s (p.done s)

/-- O2. Vector integer words compute their results per active thread. R144, R145, R146, R147, R148, R149, R155, R158, R20, R21, R25, R30. -/
def Obligations.VectorIntegerWords : Prop :=
  ∀ (i : Instr) (s : State) (p : VectorSpec), plainVector i s = some p →
    i.wellFormed = true → issuing s = true → p.fits s = true →
    completes i s (p.done s)

/-- O3. Scalar moves, system values, register reads, gathers and handle words give their values. R132, R153, R154, R155, R156, R157, R182, R198, R223, R242, R257, R260. -/
def Obligations.ScalarOtherWords : Prop :=
  (∀ (i : Instr) (s : State) (p : ScalarSpec), (scalarMove i = some p ∨ scalarSys i = some p ∨ gathers i = some p ∨ registerReads i = some p ∨ tileReads i = some p ∨ debugReads i = some p) →
    i.wellFormed = true → issuing s = true → p.fits s = true →
    completes i s (p.done s)) ∧
  (∀ (i : Instr) (s : State) (p : ScalarSpec), collectiveHandles i s = some p →
    i.wellFormed = true → issuing s = true → p.fits s = true →
    completes i s (p.done s))

/-- O4. Vector moves and exchanges give their values and keep the rest. R132, R153, R154, R155, R156, R181, R194, R195, R197, R199, R21, R30. -/
def Obligations.VectorMoveWords : Prop :=
  ∀ (i : Instr) (s : State) (p : VectorSpec), (vectorMove i s = some p ∨ exchanges i s = some p) →
    i.wellFormed = true → issuing s = true → p.fits s = true →
    completes i s (p.done s)

/-- O5. Floating arithmetic, dot products, quantisation and conversions deliver their rounded results. R165, R166, R168, R171, R173, R174, R175, R176, R177, R178, R179, R180. -/
def Obligations.FloatWords : Prop :=
  ∀ (i : Instr) (s : State) (p : VectorSpec), (floatArith i s = some p ∨ floatOther i s = some p ∨ conversions i s = some p) →
    i.wellFormed = true → issuing s = true → p.fits s = true →
    completes i s (p.done s)

/-- O6. Long-latency words post one record that holds their results. R82, R91, R132, R171, R172, R196. -/
def Obligations.LongLatencyWords : Prop :=
  (∀ (i : Instr) (s : State) (p : VectorSpec), (floatSpecial i s = some p ∨ scans i s = some p) →
    i.wellFormed = true → issuing s = true → p.fits s = true →
    completes i s fun t => p.posted (booksOf s t) s t) ∧
  (∀ (i : Instr) (s : State) (p : ScalarSpec), scalarLong i = some p →
    i.wellFormed = true → issuing s = true → p.fits s = true →
    completes i s fun t => p.posted (booksOf s t) s t)

/-- O7. Compares, votes and matches write their predicates. R31, R150, R151, R152, R169, R198. -/
def Obligations.PredicateWords : Prop :=
  ∀ (i : Instr) (s : State) (p : PredSpec), predicates i s = some p →
    i.wellFormed = true → issuing s = true → p.fits s = true →
    completes i s (p.done s)

/-- O8. BRA, CALL, BRQ, BRX, CALLX and RET move the running split whole. R118. -/
def Obligations.JumpWords : Prop :=
  ∀ (i : Instr) (s : State) (p : JumpSpec), jumps i = some p →
    i.wellFormed = true → issuing s = true → p.link.fits s = true →
    completes i s (p.done s)

/-- O9. Divergence, gangs, barriers, modes and quota words act on the split table as the spec says. R38, R98, R99, R119, R124, R125, R128, R129, R130, R131, R383. -/
def Obligations.ControlWords : Prop :=
  ∀ (i : Instr) (s : State) (p : Effect), (divergent i s = some p ∨ plainControl i s = some p ∨ regangs i s = some p ∨ barriers i s = some p) →
    i.wellFormed = true → issuing s = true → p.fits s = true →
    completes i s p.holds

/-- O10. YIELD, joins that hand over, WAITALL, EXIT, TRAP and ERET. R44, R121, R130, R133, R135, R136. -/
def Obligations.HandingWords : Prop :=
  ∀ (i : Instr) (s : State) (p : Effect), (handing i s = some p ∨ exits i s = some p ∨ trapWords i s = some p) →
    i.wellFormed = true → issuing s = true → p.fits s = true →
    completes i s p.holds

/-- O11. Loads bring the bytes at their addresses. R187, R188, R190, R191, R200, R201, R207, R274. -/
def Obligations.LoadWords : Prop :=
  (∀ (i : Instr) (s : State) (p : VectorSpec), memoryLoads i s = some p →
    i.wellFormed = true → issuing s = true → plainMemory s → p.fits s = true →
    completes i s fun t =>
      p.posted (memBooks s t) s t ∧ coresKept s t ∧ sameReads s t) ∧
  (∀ (i : Instr) (s : State) (p : ScalarSpec), scalarLoads i s = some p →
    i.wellFormed = true → issuing s = true → plainMemory s → p.fits s = true →
    completes i s fun t =>
      p.posted (memBooks s t) s t ∧ coresKept s t ∧ sameReads s t) ∧
  (∀ (i : Instr) (s : State) (p : VectorSpec), scratchLoads i s = some p →
    i.wellFormed = true → issuing s = true → p.fits s = true →
    completes i s fun t => p.posted (booksOf s t) s t)

/-- O12. Stores write the bytes at the address they compute, and no others. R187, R188, R190, R191, R201, R207, R274. -/
def Obligations.StoreWords : Prop :=
  ∀ (i : Instr) (s : State) (p : StoreSpec), memoryStores i s = some p →
    i.wellFormed = true → issuing s = true → plainMemory s → p.fits s = true →
    completes i s (p.done s)

/-- O13. Scratchpad stores and atomics write the bytes they name. R187, R203, R204, R205, R206, R277. -/
def Obligations.ScratchWords : Prop :=
  ∀ (i : Instr) (s : State) (p : ScratchSpec), scratchWrites i s = some p →
    i.wellFormed = true → issuing s = true → p.fits s = true →
    completes i s (p.done s)

/-- O14. Atomics on memory perform once at the home L2. R202, R203, R204, R205, R206, R274. -/
def Obligations.AtomicWords : Prop :=
  ∀ (i : Instr) (s : State) (p : AtomSpec), memoryAtomics i s = some p →
    i.wellFormed = true → issuing s = true → plainMemory s → p.fits s = true →
    completes i s (p.done s)

/-- O15. Fences, prefetch, cache maintenance and drains. R208, R209, R210, R211, R274, R281. -/
def Obligations.FenceWords : Prop :=
  ∀ (i : Instr) (s : State) (p : Effect), fences i s = some p →
    i.wellFormed = true → issuing s = true → plainMemory s → p.fits s = true →
    completes i s p.holds

/-- O16. WRC, PMREAD and the invalidations act on the registers they name. R50, R52, R132, R137, R266, R267, R268, R282, R283, R308, R321, R431. -/
def Obligations.RegisterWords : Prop :=
  ∀ (i : Instr) (s : State) (p : Effect), (registerWrites i s = some p ∨ counterReads i s = some p ∨ sweeps i s = some p) →
    i.wellFormed = true → issuing s = true → p.fits s = true →
    completes i s p.holds

/-- O17. Tile words define, free, claim and wait as the spec says. R45, R47, R218, R220, R221, R222, R224, R225, R237. -/
def Obligations.TileWords : Prop :=
  ∀ (i : Instr) (s : State) (p : Effect), tileWords i s = some p →
    i.wellFormed = true → issuing s = true → p.fits s = true →
    completes i s p.holds

/-- O18. CPY, CPYG, MMA, MMAZ, QFENCE and COLL post one entry, ACCZ clears its tile, and COLLI gives a handle. R227, R228, R229, R232, R234, R235, R242, R244. -/
def Obligations.EngineWords : Prop :=
  ∀ (i : Instr) (s : State) (p : Effect), (engineWords i s = some p ∨ collectiveOpens i s = some p) →
    i.wellFormed = true → issuing s = true → p.fits s = true →
    completes i s p.holds

/-- O19. Accumulator reads and row operations. R238, R239, R240, R241. -/
def Obligations.AccumulatorWords : Prop :=
  (∀ (i : Instr) (s : State) (p : VectorSpec), accReads i s = some p →
    i.wellFormed = true → issuing s = true → p.fits s = true →
    completes i s fun t =>
      p.posted { tileBooks s t with l1 := t.l1 } s t ∧ acquired s t ∧ ∀ pa, t.l2Read pa = s.l2Read pa) ∧
  (∀ (i : Instr) (s : State) (p : RowSpec), accWrites i s = some p →
    i.wellFormed = true → issuing s = true → p.fits s = true →
    completes i s (p.done s))

/-- O20. Watch, halt and trace words; TRACEM with tracing on writes its record, and RPCHK in record or replay mode is a check point.
R252, R253, R257, R260, R261, R262, R263, R265, R270, R271, R429, R439. -/
def Obligations.DebugWords : Prop :=
  ∀ (i : Instr) (s : State) (p : Effect), (debugWords i s = some p ∨ traceWords i s = some p ∨ checkWords i s = some p) →
    i.wellFormed = true → issuing s = true → p.fits s = true →
    completes i s p.holds

/-- O21. The timed ends of a warp's own waits. R50, R70, R91, R122, R126, R131, R267. Each of these answers a next state with its own
effect, wherever its conditions on the state and the operands hold: quotaTransferComplete, longLatencyWrite, seedWrite,
joinTimeoutExpiry, regangTimeoutExpiry, dbgctlWrite, controlRegisterWrite. -/
def Obligations.WarpEvents : Prop :=
  ∀ (i : Instr) (s : State) (p : Claim), warpClaims i s = some p → p.ok → completes i s p.holds

/-- O22. Translation, faults, sweeps, errors, ages and HOCP. R54, R274, R275, R276, R309, R310, R311, R314, R332, R333, R334, R340. Each
of these answers a next state with its own effect, wherever its conditions on the state and the operands hold: translationWalk,
zeroingComplete, frespAnswer, frespKick, shootdownRequest, uncorrectableError, parityError, wcAgeDrain, l1DirtyAgeWriteback,
pageAgeScan, evictedPageRestore, systemMemoryAnswer, hocpWrite, hocpBlockTransfer. -/
def Obligations.ServiceEvents : Prop :=
  ∀ (i : Instr) (s : State) (p : Claim), serviceClaims i s = some p → p.ok → completes i s p.holds

/-- O23. Engine entries and MMAs start and complete. R225, R226, R228, R229, R232, R235. Each of these answers a next state with its own
effect, wherever its conditions on the state and the operands hold: engineEntryStart, copyComplete, mmaStart, mmaComplete. -/
def Obligations.EngineEvents : Prop :=
  ∀ (i : Instr) (s : State) (p : Claim), engineClaims i s = some p → p.ok → completes i s p.holds

/-- O24. Commands to queues, wakes, audits and the watchdog. R337, R338, R339, R340, R342, R343, R377. Each of these answers a next
state with its own effect, wherever its conditions on the state and the operands hold: bind, unbind, queueStop, queueStart, skipOp,
queueReset, wakeWrite, qcbAudit, queueHang. -/
def Obligations.QueueEvents : Prop :=
  ∀ (i : Instr) (s : State) (p : Claim), queueClaims i s = some p → p.ok → completes i s p.holds

/-- O25. SIGNAL, XCOPY, WAITORD, FENCE and CONTRACT packets. R344, R345, R346, R348, R349, R350, R351, R386. Each of these answers a
next state with its own effect, wherever its conditions on the state and the operands hold: signal, xcopy, waitord, fencePacket,
fencePacketComplete, contract. -/
def Obligations.PacketEvents : Prop :=
  ∀ (i : Instr) (s : State) (bs : List Byte) (r : State) (p : Claim), packetClaims i s bs r = some p → p.ok → completes i s p.holds

/-- O26. COND compares the memory word and moves HEAD. R347, R343. Each of these answers a next state with its own effect, wherever its
conditions on the state and the operands hold: cond, condReread. -/
def Obligations.CondEvents : Prop :=
  ∀ (i : Instr) (s : State) (bs : List Byte) (r : State) (x : List Byte) (u : State) (p : Claim), condClaims i s bs r x u = some p → p.ok → completes i s p.holds

/-- O27. A LAUNCH packet that passes every check becomes a launch to be placed. R354, R355, R356, R357, R358. Each of these answers a
next state with its own effect, wherever its conditions on the state and the operands hold: launch. -/
def Obligations.LaunchEvent : Prop :=
  ∀ (q : Nat) (s : State) (bs : List Byte) (r : State) (d : List Byte) (u : State) (ts : List (List Byte)) (v : State),
    (launchClaim q s bs r d u ts v).ok → completes (.launch q) s (launchClaim q s bs r d u ts v).holds

/-- O28. XCOPY_COMPLETE moves the bytes and then ends its packet. R346, R350. Each of these answers a next state with its own effect,
wherever its conditions on the state and the operands hold: xcopyComplete. -/
def Obligations.CopyEvent : Prop :=
  ∀ (q run : Nat) (s : State) (c : XCopy) (ps : List PageAt) (u : State) (pd : List PageAt) (v : State),
    (copyClaim q run s c ps u pd v).ok → completes (.xcopyComplete q run) s (copyClaim q run s c ps u pd v).holds

/-- O29. Workgroups are placed, released and retired. R27, R36, R359, R360, R361, R363, R370. Each of these answers a next state with
its own effect, wherever its conditions on the state and the operands hold: workgroupPlace, workgroupRelease, workgroupRetire,
stagingComplete, shadowExchange. -/
def Obligations.PlacementEvents : Prop :=
  ∀ (i : Instr) (s : State) (p : Claim), placeClaims i s = some p → p.ok → completes i s p.holds

/-- O30. LOAD, SAVE, RESTORE and DISCARD of a context. R371, R372, R373, R374. Each of these answers a next state with its own effect,
wherever its conditions on the state and the operands hold: loadOp, saveOp, restore, discard. -/
def Obligations.ContextEvents : Prop :=
  ∀ (i : Instr) (s : State) (p : Claim), contextClaims i s = some p → p.ok → completes i s p.holds

/-- O31. A partition reset goes through its states. R369, R378, R379, R381. Each of these answers a next state with its own effect,
wherever its conditions on the state and the operands hold: quiesceDone, writebackDone, zeroDone, replayDone, schedulerFault,
resetpart, clusterRetentionExit. -/
def Obligations.ResetEvents : Prop :=
  ∀ (i : Instr) (s : State) (p : Claim), resetClaims i s = some p → p.ok → completes i s p.holds

/-- O32. Interval ends, grants, rises and falls. R383, R387, R388, R391, R393, R394, R395, R400, R483. Each of these answers a next
state with its own effect, wherever its conditions on the state and the operands hold: beatIntervalEnd, equinoxGrant, grantRise,
grantFall. -/
def Obligations.LoopEvents : Prop :=
  ∀ (i : Instr) (c : Nat) (s : State) (p : Claim), (i = .beatIntervalEnd c ∨ i = .equinoxGrant c ∨ i = .grantRise c ∨ i = .grantFall c) →
    loopClaims i s = some p → p.ok → completes i s p.holds

/-- O33. The controller computes E, I and D as the listing says. R390. Each of these answers a next state with its own effect, wherever
its conditions on the state and the operands hold: controllerStep, beatmrg, beatIntervalEnd. -/
def Obligations.ControllerSteps : Prop :=
  (∀ (i : Instr) (c n m : Nat) (x : Txn) (s : State) (p : Claim), (i = .controllerStep c ∨ i = .beatmrg x n m) →
    loopClaims i s = some p → p.ok → completes i s p.holds) ∧
  (∀ (c : Nat) (s : State) (n : Contract), (s.ctx c).live = true → (s.ctx c).loop.waiting = some n → n.activeBit = true →
    completes (.beatIntervalEnd c) s fun t => (t.ctx c).loop.dprev = n.res)

/-- O34. Estimates, refits and step changes. R444, R446, R448, R449. Each of these answers a next state with its own effect, wherever
its conditions on the state and the operands hold: powerEstimate, weightRefit, stepChangeRequest, stepChangeDone. -/
def Obligations.PowerEvents : Prop :=
  ∀ (i : Instr) (s : State) (p : Claim), powerClaims i s = some p → p.ok → completes i s p.holds

/-- O35. Partitions are created, updated and destroyed, keys and time slices run, usage is recorded. R455, R456, R457, R459, R460, R463,
R464, R467. Each of these answers a next state with its own effect, wherever its conditions on the state and the operands hold:
create, update, destroy, destroyZeroingDone, generate, zeroOp, scheduleStart, scheduleStop, timesliceBoundary, usageRecordWrite. -/
def Obligations.PartitionEvents : Prop :=
  ∀ (i : Instr) (s : State) (p : Claim), partitionClaims i s = some p → p.ok → completes i s p.holds

/-- O36. Module reset, images, the tick, attestation, stop tick and core dumps. R7, R432, R441, R442, R470, R472, R473, R475. Each of
these answers a next state with its own effect, wherever its conditions on the state and the operands hold: moduleReset,
recoveryImage, firmwareUpdate, hocpTickLoad, attestationRequest, attestationRequestHocp, stoptickArm, stoptick, coreDumpWrite. -/
def Obligations.FirmwareEvents : Prop :=
  ∀ (i : Instr) (s : State) (p : Claim), firmwareClaims i s = some p → p.ok → completes i s p.holds

/-- O37. Fabric ports, links, paths and lost peers. R7, R418, R419, R420, R421, R422, R423, R424, R425. Each of these answers a next
state with its own effect, wherever its conditions on the state and the operands hold: fabidWrite, portcfgWrite, lock, portStart,
portStop, keyupdate, linkControlWord, linkDown, spdm, pstate, flitDrop, pathDown, peerLost, peerLostClear. -/
def Obligations.PortEvents : Prop :=
  ∀ (i : Instr) (s : State) (p : Claim), portClaims i s = some p → p.ok → completes i s p.holds

/-- O38. An owner serves reads, writes, masked writes and atomics. R410, R412, R413. Each of these answers a next state with its own
effect, wherever its conditions on the state and the operands hold: rd, wr, wrm, fabricAtom. -/
def Obligations.OwnerEvents : Prop :=
  ∀ (i : Instr) (s : State) (pa : Nat) (u : State) (p : Claim), ownerClaims i s pa u = some p → p.ok → completes i s p.holds

/-- O39. A requester takes answers, tickets, busy answers and plane answers. R323, R324, R410, R412, R414, R415, R416, R420, R501. Each
of these answers a next state with its own effect, wherever its conditions on the state and the operands hold: rdata, ares, refuse,
doneOp, ticket, busy, planea. -/
def Obligations.AnswerEvents : Prop :=
  ∀ (i : Instr) (s : State) (r : Sent) (p : Claim), answerClaims i s r = some p → p.ok → completes i s p.holds

/-- O40. Retries, notices, plane queries and collective data. R326, R412, R415, R416, R420. Each of these answers a next state with its
own effect, wherever its conditions on the state and the operands hold: busyRetry, notice, noteack, planeq, colld, doneOp. -/
def Obligations.FabricEvents : Prop :=
  ∀ (i : Instr) (s : State) (p : Claim), fabricClaims i s = some p → p.ok → completes i s p.holds

/-- O41. COLL_COMPLETE writes the reduced result and signals. R83, R243, R244, R245, R246. Each of these answers a next state with its
own effect, wherever its conditions on the state and the operands hold: collComplete. -/
def Obligations.CollectiveEvent : Prop :=
  ∀ (g q : Nat) (s : State) (bs : List Byte) (u : State) (ms : List Byte) (v : State) (ds : List (List Word)) (pages : List PageAt) (w : State)
    (sig : List PageAt) (z : State) (p : Claim),
    collectiveClaim g q s bs u ms v ds pages w sig z = some p → p.ok → completes (.collComplete g q) s p.holds

/-- O42. Every word of a resident warp answers a next state, every event does, but an access of the HOCP to an address that does
not exist, and nothing is ever refused. R34, R365. -/
def Obligations.WordsIssue : Prop :=
  (∀ (i : Instr) (s : State), encode i ≠ [] → (me s).resident = true → (me s).run < 8 → ∃ t, exec i s = .next t) ∧
  (∀ (i : Instr) (s : State), encode i ≠ [] → ((me s).resident = false ∨ 8 ≤ (me s).run) → exec i s = .fault .noWarp) ∧
  (∀ (i : Instr) (s : State) (r : Refusal), exec i s ≠ .refused r) ∧
  (∀ (i : Instr) (s : State), encode i = [] → (∀ pa v, i = .hocpWrite pa v → pa + 4 ≤ hbmSize) →
    (∀ pa len data, i = .hocpBlockTransfer pa len data → pa + len ≤ hbmSize) → ∃ t, exec i s = .next t) ∧
  (∀ (pa len : Nat) (v : Word) (data : Option (List Byte)) (s : State),
    (hbmSize < pa + 4 → exec (.hocpWrite pa v) s = .fault .noMemory)
    ∧ (hbmSize < pa + len → exec (.hocpBlockTransfer pa len data) s = .fault .noMemory))

/-- O43. The shared checks trap in their order, before any effect; the place of HAZARD in it is the model's choice (log 85). R28, R29, R79, R93, R103, R133. -/
def Obligations.CheckTraps : Prop :=
  (∀ (i : Instr) (s : State) (p : ScalarSpec) (c : Nat), plainScalar i = some p → p.breach s = some c →
    issuing s = true → (trapsPlainly s c = true → completes i s fun t => trapped s t c (me s).reportSlot)
      ∧ (trapsWaiting s = true → completes i s fun t => waitsToTrap s t c (me s).reportSlot)) ∧
  (∀ (i : Instr) (s : State) (p : VectorSpec) (c : Nat), plainVector i s = some p → p.breach s = some c →
    issuing s = true → (trapsPlainly s c = true → completes i s fun t => trapped s t c (me s).reportSlot)
      ∧ (trapsWaiting s = true → completes i s fun t => waitsToTrap s t c (me s).reportSlot))

/-- O44. A word above the current level traps PRIV before any effect. R50, R103, R133, R250, R269. -/
def Obligations.PrivilegeTraps : Prop :=
  (∀ (m : Bool) (d : BitVec 6) (n : BitVec 12) (i : Instr) (s : State), (i = .rdc m d n ∨ i = .wrc m d n) →
    s.levelOf (s.ctxOf s.cur) < n.toNat / 1024 → issuing s = true → trapsPlainly s 0x02 = true →
    completes i s fun t => trapped s t 0x02 (me s).reportSlot) ∧
  (∀ (i : Instr) (s : State) (p : Effect), (debugWords i s = some p ∨ counterReads i s = some p ∨ sweeps i s = some p) →
    s.levelOf (s.ctxOf s.cur) < p.level → issuing s = true → trapsPlainly s 0x02 = true →
    completes i s fun t => trapped s t 0x02 (me s).reportSlot)

/-- O45. A vector word with no active thread retires as skipped. R18, R79, R93. -/
def Obligations.SkippedWords : Prop :=
  ∀ (i : Instr) (s : State) (p : VectorSpec), plainVector i s = some p → (me s).active = 0 → p.breach s = none → issuing s = true →
    completes i s fun t => skips s t p.len

/-- O46. A marked word parks its warp while long-latency results are outstanding. R86, R91, R92. -/
def Obligations.SwitchMarker : Prop :=
  (∀ (i : Instr) (s : State) (p : ScalarSpec), plainScalar i = some p → i.wellFormed = true → issuing s = true → p.fits s = true →
    completes i s fun t => (me t).park = if marker i = true ∧ (me s).pending ≠ [] then .marker else .none) ∧
  (∀ (i : Instr) (s : State) (p : VectorSpec), plainVector i s = some p → i.wellFormed = true → issuing s = true → p.fits s = true →
    completes i s fun t => (me t).park = if marker i = true ∧ (me s).pending ≠ [] then .marker else .none) ∧
  (∀ (i : Instr) (s : State) (p : VectorSpec), floatSpecial i s = some p → i.wellFormed = true → issuing s = true → p.fits s = true →
    completes i s fun t => (me t).park = if marker i = true then .marker else .none)

/-- O47. Bytes that decode to no instruction trap ILLEGAL. R100, R102, R103, R133. -/
def Obligations.IllegalWords : Prop :=
  (∀ (s r : State) (v : Word) (bs : List Byte) (e : Reject), s.fetchPair = (.got v r, bs) → decode bs = .error e →
    (me r).run < 8 → trapsPlainly r 0x01 = true → ∃ t, runWord s = .next t ∧ trapped r t 0x01 (me r).reportSlot) ∧
  (∀ w lit : Nat, w / 2 ^ 24 % 128 ∈ [0x0F, 0x1E, 0x1F, 0x2E, 0x2F, 0x3D, 0x3E, 0x3F, 0x5C, 0x5D, 0x5E, 0x5F, 0x6A, 0x6B, 0x6C, 0x6D, 0x6E, 0x6F,
      0x79, 0x7A, 0x7B, 0x7C, 0x7D, 0x7E, 0x7F] → ∃ e, decodeWord w lit = .error e)

/-- O48. A trap in trap mode halts the warp and keeps the first trap's registers. R133, R138. -/
def Obligations.DoubleTrap : Prop :=
  ∀ (m : Bool) (v : BitVec 18) (s : State), issuing s = true → (me s).cur.trapm = true → (me s).step = none → settled s [] [] = true →
    completes (.trap m v) s fun t => (me t).doubled = true ∧ (me t).trap = { (me s).trap with second := 0x0B }
      ∧ (me t).splits = (me s).splits ∧ (t.ctx (s.ctxOf s.cur)).dbgstat.getLsbD 4 = true
      ∧ (s.partOf (s.ctxOf s.cur) = none → sameMemory s t)

/-- O49. A step runs the instruction that the bytes at the PC decode to, or the event that is due. R89, R95, R365. -/
def Obligations.StepRunsTheWord : Prop :=
  (∀ (s u r : State) (k w : Nat) (v : Word) (bs rest : List Byte) (i : Instr),
    let c : State := { s with serial := s.serial + 1 }
    c.due = none → c.stopped = false → c.stepping = none → c.ending = none → c.polling = none → c.issuer = some (k, w, u) →
    ({ u with cur := w } : State).fetchPair = (.got v r, bs) → decode bs = .ok (i, rest) →
    step s = match exec i r with
      | .next t => .next (t.closeTry k w (c.slice k)).notified
      | o => o) ∧
  (∀ (s : State) (e : Nat × Instr),
    let c : State := { s with serial := s.serial + 1 }
    c.due = some e → step s = match exec e.2 { c with calendar := c.calendar.erase e } with
      | .next t => .next t.notified
      | o => o)

/-- O50. A fetch reads the word at the PC. R89, R309. -/
def Obligations.FetchReadsThePc : Prop :=
  ∀ (s : State) (e : Tlb),
    let va := ((s.launchOf s.cur).codebase + ((me s).pc.setWidth 64 <<< 2)).toNat
    let n := s.l2Num (e.addr va) 4
    -- the core's instruction cache holds no older word of the launch at the address (R104)
    (∀ h ∈ (s.core (coreOf s.cur)).icache, h.1 = (s.wg (me s).wg).launch → h.2.1 = e.addr va → h.2.2 = BitVec.ofNat 32 n) →
    va < 2 ^ 49 → tlbHit s 0 va .fetch = some e → e.sys = false → .frame (e.addr va / 8192) ∉ s.zeroing → isLitWord n = false →
    ∃ r, s.fetchPair = (.got (BitVec.ofNat 32 n) r, leBytes 4 n) ∧ r.warps = s.warps ∧ sameMemory s r

/-- O51. Words written out from the encoding tables decode to their instructions. R86, R87, R95, R99, R102, R112. -/
def Obligations.WordsDecode : Prop :=
  decodeTableWord 32 0x10005187 = some (.addScalar false 5 6 7) ∧
  decodeTableWord 32 0x90005187 = some (.addScalar true 5 6 7) ∧
  decodeTableWord 32 0x110C4FFB = some (.addiScalar false 3 4 0xFFB) ∧
  decodeTableWord 32 0x31004209 = some (.fma false 4 8 9) ∧
  decodeTableWord 32 0x012C020A = some (.mode false 0b01011 0x20A) ∧
  decodeTableWord 64 0xBF8000009A009000 = some (.movlScalar true 9 0xBF800000) ∧
  decodeTableWord 32 0x02FFFFF9 = some (.bra false 0xFFFFF9) ∧
  decodeTableWord 32 0x0B100072 = some (.rdc false 4 0x072) ∧
  decodeTableWord 32 0x18080021 = some (.moviScalar false 2 0x21) ∧
  decodeTableWord 32 0x06080040 = some (.ret false 1) ∧
  decodeTableWord 32 0x00000000 = some (.nop false) ∧
  decodeTableWord 32 0xFFFFFFFF = none

/-- O52. Decoding an encoded well-formed instruction gives it back. R86, R87, R88, R95, R100, R101, R114, R143, R164, R193, R219, R249. -/
def Obligations.EncodedWordDecodes : Prop :=
  ∀ (i : Instr) (rest : List Byte), i.wellFormed = true → encode i ≠ [] → decode (encodeBytes i ++ rest) = .ok (i, rest)

/-- O53. Every step keeps memory in its canonical form. R273, R275, R304. -/
def Obligations.MemoryStaysCanonical : Prop :=
  ∀ s t : State, Memory.wf s = true → step s = .next t → Memory.wf t = true

/-- O54. Memory after reset is in its canonical form. R475. -/
def Obligations.ResetMemoryCanonical : Prop :=
  Memory.wf State.reset = true

/-- O55. What reset leaves. R7, R341, R342, R425, R454, R457, R464, R475. -/
def Obligations.ResetState : Prop :=
  (State.reset.tick = 0 ∧ State.reset.wdog = 2000 ∧ State.reset.keysHeld = 1 ∧ State.reset.pwrcap = 300 ∧ State.reset.stopped = false) ∧
  (∀ w, (State.reset.warp w).resident = false) ∧ (∀ c, (State.reset.ctx c).live = false) ∧ (∀ q, (State.reset.queue q).state = .unbound) ∧
  (∀ p, (State.reset.part p).state = .free ∧ (State.reset.part p).reset = .run) ∧
  (∀ k, (State.reset.port k).state = .unlocked ∧ (State.reset.port k).tagmax = 3) ∧
  (∀ c, (State.reset.cluster c).step = 0 ∧ (State.reset.cluster c).pattern = 0xFFFFFFFF) ∧ ∀ pa, State.reset.l2Read pa = 0

/-- O56. A stopped device stays as it is until a module reset. R432. -/
def Obligations.StoppedDeviceStands : Prop :=
  ∀ (n : Nat) (s : State), s.stopped = true → (∀ e ∈ s.calendar, e.2 ≠ .moduleReset) →
    core.run n s = .next ({ s with serial := s.serial + n } : State)

/-- O57. The bit words' results, bit by bit. R149. -/
def Obligations.BitResults : Prop :=
  ∀ x c z : Word,
    let pos := c.toNat % 32
    let l := min (c.toNat / 256 % 64) (32 - pos)
    (popcW x).toNat = ((List.range 32).filter fun i => x.getLsbD i).length ∧
    (∀ i, i < 32 → (brevW x).getLsbD i = x.getLsbD (31 - i)) ∧
    (∀ i, i < 32 → (bswapW x).getLsbD i = x.getLsbD (8 * (3 - i / 8) + i % 8)) ∧
    ((clzW x).toNat ≤ 32 ∧ (∀ i, i < 32 → 31 - (clzW x).toNat < i → x.getLsbD i = false)
      ∧ ((clzW x).toNat < 32 → x.getLsbD (31 - (clzW x).toNat) = true) ∧ ((clzW x).toNat = 32 → x = 0)) ∧
    ((ctzW x).toNat ≤ 32 ∧ (∀ i, i < (ctzW x).toNat → x.getLsbD i = false) ∧ ((ctzW x).toNat < 32 → x.getLsbD (ctzW x).toNat = true)) ∧
    (∀ i, i < 32 → (bfxW false x c).getLsbD i = (decide (i < l) && x.getLsbD (pos + i))) ∧
    (∀ i, i < 32 → (bfxW true x c).getLsbD i = (decide (0 < l) && x.getLsbD (pos + min i (l - 1)))) ∧
    ∀ i, i < 32 → (bfiW z x c).getLsbD i = if pos ≤ i ∧ i < pos + l then x.getLsbD (i - pos) else z.getLsbD i

/-- O58. Demand fills the actuators in order, and the grant's positions are in force. R391. -/
def Obligations.ActuatorsFillInOrder : Prop :=
  (∀ (k : Contract) (d : Nat), k.floors.length = 5 → k.ceils.length = 5 → (∀ j, j < 5 → k.floors.getD j 0 ≤ k.ceils.getD j 0) → k.floors.sum ≤ d →
    (k.positions d).length = 5 ∧ (∀ j, j < 5 → k.floors.getD j 0 ≤ (k.positions d).getD j 0 ∧ (k.positions d).getD j 0 ≤ k.ceils.getD j 0) ∧
    (k.positions d).sum = min d k.ceils.sum ∧
    ∀ i j, j < i → i < 5 → (k.positions d).getD j 0 < k.ceils.getD j 0 → (k.positions d).getD i 0 = k.floors.getD i 0) ∧
  (∀ (c : Nat) (s : State) (k : Contract), (s.ctx c).loop.contract = some k → (s.ctx c).loop.susp = false →
    completes (.grantFall c) s fun t => (t.ctx c).loop.pos = k.positions (s.ctx c).loop.g ∧ (t.ctx c).loop.g = (s.ctx c).loop.g)

/-- O59. One K step of an integer MMA adds its products to one element. R80, R234. -/
def Obligations.IntegerMatrixStep : Prop :=
  ∀ (s : State) (n : Nat) (m : Mma) (r c : Nat),
    let a := s.mmaArea m
    let k := m.done (accKey a.1 r c)
    let per := kPer 11
    let prod := fun (j : Nat) => toSigned 8 (s.tileElem m.wg m.a r (k * per + j)) * toSigned 8 (s.tileElem m.wg m.b (c - a.2.1) (k * per + j))
    (s.tile m.wg m.a).tag = 11 → (s.tile m.wg m.b).tag = 11 → a.1 < 4 → r < 96 → c < 192 →
    ((s.kStep n m r c).accAt n a.1 r c
      = (if m.zero = true ∧ k = 0 then 0 else s.accAt n a.1 r c) + BitVec.ofInt 32 ((List.range per).map prod).sum) ∧
    (∀ p r' c', p < 4 → r' < 96 → c' < 192 → ¬ (p = a.1 ∧ r' = r ∧ c' = c) → (s.kStep n m r c).accAt n p r' c' = s.accAt n p r' c') ∧
    sameMemory s (s.kStep n m r c)

/-- O60. A 32-bit register that firmware writes reads back. R137, R430, R431, R441. -/
def Obligations.RegistersReadBack : Prop :=
  ∀ (w : Nat) (n : BitVec 12) (v : Word) (s : State), n.toNat ∈ wholeRegisters →
    completes (.controlRegisterWrite w n v) s fun t => t.readReg w n.toNat = v.toNat
end

