-- ==== Sys2Proof/Laws/Store.lean ====
section
/-! SUPPORT. The laws of keyed collections: a read after a write, and the canonical form, which every operation keeps. -/

namespace Sys2Proof.Machine

variable {α : Type}

@[simp] theorem Store.get_nil (d : α) (k : Nat) : Store.get d [] k = d := rfl

theorem Store.get_cons (d : α) (j : Nat) (v : α) (m : Store α) (k : Nat) :
    Store.get d ((j, v) :: m) k = if j = k then v else Store.get d m k := rfl

/-- Keeping entries by their keys. -/
theorem Store.get_filterKeys (d : α) (m : Store α) (p : Nat → Bool) (k : Nat) :
    Store.get d (m.filter fun e => p e.1) k = if p k then Store.get d m k else d := by
  induction m with
  | nil => simp
  | cons e m ih =>
    obtain ⟨j, v⟩ := e
    rw [List.filter_cons]
    by_cases hp : p j = true
    · rw [if_pos hp, Store.get_cons, Store.get_cons, ih]
      by_cases hj : j = k
      · subst hj; simp [hp]
      · simp [hj]
    · rw [if_neg hp, ih, Store.get_cons]
      by_cases hj : j = k
      · subst hj; simp [hp]
      · simp [hj]

theorem Store.get_erase (d : α) (m : Store α) (k j : Nat) :
    Store.get d (Store.erase m k) j = if j = k then d else Store.get d m j := by
  have h := Store.get_filterKeys d m (fun i => decide (i ≠ k)) j
  unfold Store.erase
  rw [h]
  by_cases hj : j = k <;> simp [hj]

theorem Store.get_insert (d : α) (m : Store α) (k : Nat) (v : α) (j : Nat) :
    Store.get d (Store.insert m k v) j = if j = k then v else Store.get d m j := by
  induction m with
  | nil => simp only [Store.insert, Store.get_cons, Store.get_nil, eq_comm]
  | cons e m ih =>
    obtain ⟨i, x⟩ := e
    simp only [Store.insert]
    split
    · rename_i h
      rw [Store.get_cons, ih, Store.get_cons]
      by_cases hj : j = k
      · subst hj; rw [if_neg (by omega)]; simp
      · simp [hj]
    · split
      · rename_i h; subst h
        rw [Store.get_cons, Store.get_cons]
        by_cases hj : j = i
        · subst hj; simp
        · rw [if_neg (Ne.symm hj), if_neg hj, if_neg (Ne.symm hj)]
      · rw [Store.get_cons]
        by_cases hj : j = k
        · subst hj; simp
        · rw [if_neg (Ne.symm hj), if_neg hj]

/-- A read after a write, in any collection. -/
@[simp] theorem Store.get_set [DecidableEq α] (d : α) (m : Store α) (k : Nat) (v : α) (j : Nat) :
    Store.get d (Store.set d m k v) j = if j = k then v else Store.get d m j := by
  unfold Store.set
  split
  · rename_i h; subst h; rw [Store.get_erase]
  · exact Store.get_insert d m k v j

/-! ### The canonical form -/

theorem Store.wf_iff [DecidableEq α] (d : α) (m : Store α) :
    Store.wf d m = true ↔ (m.Pairwise fun a b => a.1 < b.1) ∧ ∀ e ∈ m, e.2 ≠ d := by
  simp [Store.wf]

@[simp] theorem Store.wf_nil [DecidableEq α] (d : α) : Store.wf d ([] : Store α) = true := by simp [Store.wf_iff]

/-- Any selection of entries keeps the form. -/
theorem Store.wf_filter [DecidableEq α] (d : α) (m : Store α) (p : Nat × α → Bool) (h : Store.wf d m = true) :
    Store.wf d (m.filter p) = true := by
  rw [Store.wf_iff] at *
  exact ⟨h.1.filter p, fun e he => h.2 e ((List.mem_filter.mp he).1)⟩

theorem Store.wf_erase [DecidableEq α] (d : α) (m : Store α) (k : Nat) (h : Store.wf d m = true) :
    Store.wf d (Store.erase m k) = true := Store.wf_filter d m _ h

/-- The entries of an insertion. -/
theorem Store.mem_insert (m : Store α) (k : Nat) (v : α) (e : Nat × α) (h : e ∈ Store.insert m k v) : e = (k, v) ∨ e ∈ m := by
  induction m with
  | nil => simpa [Store.insert] using h
  | cons f m ih =>
    obtain ⟨j, x⟩ := f
    simp only [Store.insert] at h
    split at h
    · rcases List.mem_cons.mp h with h | h
      · exact .inr (h ▸ List.mem_cons_self ..)
      · exact (ih h).imp id (List.mem_cons_of_mem _)
    · split at h
      · rcases List.mem_cons.mp h with h | h
        · exact .inl h
        · exact .inr (List.mem_cons_of_mem _ h)
      · rcases List.mem_cons.mp h with h | h
        · exact .inl h
        · exact .inr h

theorem Store.wf_insert [DecidableEq α] (d : α) (m : Store α) (k : Nat) (v : α) (hv : v ≠ d) (h : Store.wf d m = true) :
    Store.wf d (Store.insert m k v) = true := by
  rw [Store.wf_iff] at *
  refine ⟨?_, fun e he => (Store.mem_insert m k v e he).elim (fun q => by rw [q]; exact hv) (h.2 e)⟩
  obtain ⟨hp, hn⟩ := h
  clear hn
  induction m with
  | nil => simp [Store.insert]
  | cons f m ih =>
    obtain ⟨j, x⟩ := f
    obtain ⟨h1, h2⟩ := List.pairwise_cons.mp hp
    simp only [Store.insert]
    split
    · rename_i hjk
      refine List.pairwise_cons.mpr ⟨fun e he => ?_, ih h2⟩
      rcases Store.mem_insert m k v e he with q | q
      · rw [q]; exact hjk
      · exact h1 e q
    · split
      · rename_i hjk; subst hjk
        exact List.pairwise_cons.mpr ⟨h1, h2⟩
      · rename_i a b
        refine List.pairwise_cons.mpr ⟨fun e he => ?_, hp⟩
        rcases List.mem_cons.mp he with q | q
        · rw [q]; show k < j; omega
        · have := h1 e q; show k < e.1; simp only at this; omega

/-- A write keeps the form. -/
theorem Store.wf_set [DecidableEq α] (d : α) (m : Store α) (k : Nat) (v : α) (h : Store.wf d m = true) :
    Store.wf d (Store.set d m k v) = true := by
  unfold Store.set
  split
  · exact Store.wf_erase d m k h
  · rename_i hv; exact Store.wf_insert d m k v hv h

/-- Any run of steps that each keep the form keeps it. -/
theorem Store.wf_foldl [DecidableEq α] {β : Type} (d : α) (f : Store α → β → Store α)
    (hf : ∀ m b, Store.wf d m = true → Store.wf d (f m b) = true) (bs : List β) (m : Store α) (h : Store.wf d m = true) :
    Store.wf d (bs.foldl f m) = true := by
  induction bs generalizing m with
  | nil => exact h
  | cons b bs ih => exact ih (f m b) (hf m b h)

theorem Store.wf_setAll [DecidableEq α] (d : α) (m : Store α) (kvs : List (Nat × α)) (h : Store.wf d m = true) :
    Store.wf d (Store.setAll d m kvs) = true :=
  Store.wf_foldl d _ (fun m b hm => Store.wf_set d m b.1 b.2 hm) kvs m h

theorem Store.wf_mapVals [DecidableEq α] (d : α) (m : Store α) (f : Nat → α → α) (h : Store.wf d m = true) :
    Store.wf d (Store.mapVals d m f) = true := by
  rw [Store.wf_iff] at *
  refine ⟨(List.Pairwise.filter _ ?_), fun e he => by simpa [Store.mapVals] using (List.mem_filter.mp he).2⟩
  exact List.pairwise_map.mpr (h.1.imp fun hab => hab)

/-- Two collections in canonical form that read alike are equal. -/
theorem Store.ext_of_wf [DecidableEq α] (d : α) (m n : Store α) (hm : Store.wf d m = true) (hn : Store.wf d n = true)
    (h : ∀ k, Store.get d m k = Store.get d n k) : m = n := by
  induction m generalizing n with
  | nil =>
    cases n with
    | nil => rfl
    | cons e n =>
      have := h e.1
      rw [Store.get_nil, Store.get_cons, if_pos rfl] at this
      exact absurd this.symm ((Store.wf_iff d _).mp hn |>.2 e (List.mem_cons_self ..))
  | cons e m ih =>
    obtain ⟨j, v⟩ := e
    have hm' := (Store.wf_iff d _).mp hm
    obtain ⟨m1, m2⟩ := List.pairwise_cons.mp hm'.1
    have low : ∀ (k : Nat) (x : α) (l : Store α), (∀ e ∈ l, k < e.1) → ∀ i, i ≤ k → Store.get d l i = d := by
      intro k x l hl i hi
      induction l with
      | nil => rfl
      | cons f l ihl =>
        have := hl f (List.mem_cons_self ..)
        rw [show f = (f.1, f.2) from rfl, Store.get_cons, if_neg (by omega)]
        exact ihl fun e he => hl e (List.mem_cons_of_mem _ he)
    cases n with
    | nil =>
      have := h j
      rw [Store.get_nil, Store.get_cons, if_pos rfl] at this
      exact absurd this (hm'.2 _ (List.mem_cons_self ..))
    | cons g n =>
      obtain ⟨i, w⟩ := g
      have hn' := (Store.wf_iff d _).mp hn
      obtain ⟨n1, n2⟩ := List.pairwise_cons.mp hn'.1
      have hv := hm'.2 _ (List.mem_cons_self ..)
      have hw := hn'.2 _ (List.mem_cons_self ..)
      have hij : j = i := by
        rcases Nat.lt_trichotomy j i with q | q | q
        · have := h j
          rw [Store.get_cons, if_pos rfl, Store.get_cons, if_neg (by omega), low i w n n1 j (by omega)] at this
          exact absurd this hv
        · exact q
        · have := h i
          rw [Store.get_cons, if_neg (by omega), low j v m m1 i (by omega), Store.get_cons, if_pos rfl] at this
          exact absurd this.symm hw
      subst hij
      have hvw : v = w := by simpa [Store.get_cons] using h j
      subst hvw
      congr 1
      refine ih n ((Store.wf_iff d _).mpr ⟨m2, fun e he => hm'.2 e (List.mem_cons_of_mem _ he)⟩)
        ((Store.wf_iff d _).mpr ⟨n2, fun e he => hn'.2 e (List.mem_cons_of_mem _ he)⟩) fun k => ?_
      by_cases hk : j = k
      · subst hk; rw [low j v m m1 j (Nat.le_refl _), low j v n n1 j (Nat.le_refl _)]
      · simpa [Store.get_cons, hk] using h k

end Sys2Proof.Machine
end

