-- ==== Sys2Proof/Laws/State.lean ====
section
/-! SUPPORT. What each update of the state does to each field and to each accessor: one lemma for each. -/

namespace Sys2Proof.Machine

/-! ### modWarp -/

section
variable (s : State) (w : Nat) (f : Warp → Warp)

@[simp] theorem State.modWarp_tick : (s.modWarp w f).tick = s.tick := rfl
@[simp] theorem State.modWarp_serial : (s.modWarp w f).serial = s.serial := rfl
@[simp] theorem State.modWarp_names : (s.modWarp w f).names = s.names := rfl
@[simp] theorem State.modWarp_free : (s.modWarp w f).free = s.free := rfl
@[simp] theorem State.modWarp_calendar : (s.modWarp w f).calendar = s.calendar := rfl
@[simp] theorem State.modWarp_cur : (s.modWarp w f).cur = s.cur := rfl
@[simp] theorem State.modWarp_slicePtr : (s.modWarp w f).slicePtr = s.slicePtr := rfl
@[simp] theorem State.modWarp_slices : (s.modWarp w f).slices = s.slices := rfl
@[simp] theorem State.modWarp_wgs : (s.modWarp w f).wgs = s.wgs := rfl
@[simp] theorem State.modWarp_launches : (s.modWarp w f).launches = s.launches := rfl
@[simp] theorem State.modWarp_cores : (s.modWarp w f).cores = s.cores := rfl
@[simp] theorem State.modWarp_hbm : (s.modWarp w f).hbm = s.hbm := rfl
@[simp] theorem State.modWarp_l2 : (s.modWarp w f).l2 = s.l2 := rfl
@[simp] theorem State.modWarp_l1 : (s.modWarp w f).l1 = s.l1 := rfl
@[simp] theorem State.modWarp_poisoned : (s.modWarp w f).poisoned = s.poisoned := rfl
@[simp] theorem State.modWarp_frames : (s.modWarp w f).frames = s.frames := rfl
@[simp] theorem State.modWarp_ages : (s.modWarp w f).ages = s.ages := rfl
@[simp] theorem State.modWarp_pinned : (s.modWarp w f).pinned = s.pinned := rfl
@[simp] theorem State.modWarp_gen : (s.modWarp w f).gen = s.gen := rfl
@[simp] theorem State.modWarp_ctxs : (s.modWarp w f).ctxs = s.ctxs := rfl
@[simp] theorem State.modWarp_parts : (s.modWarp w f).parts = s.parts := rfl
@[simp] theorem State.modWarp_queues : (s.modWarp w f).queues = s.queues := rfl
@[simp] theorem State.modWarp_zeroing : (s.modWarp w f).zeroing = s.zeroing := rfl
@[simp] theorem State.modWarp_saves : (s.modWarp w f).saves = s.saves := rfl
@[simp] theorem State.modWarp_qsel : (s.modWarp w f).qsel = s.qsel := rfl
@[simp] theorem State.modWarp_qbase : (s.modWarp w f).qbase = s.qbase := rfl
@[simp] theorem State.modWarp_qpriv0 : (s.modWarp w f).qpriv0 = s.qpriv0 := rfl
@[simp] theorem State.modWarp_qpriv1 : (s.modWarp w f).qpriv1 = s.qpriv1 := rfl
@[simp] theorem State.modWarp_wdog : (s.modWarp w f).wdog = s.wdog := rfl
@[simp] theorem State.modWarp_ctxsel : (s.modWarp w f).ctxsel = s.ctxsel := rfl
@[simp] theorem State.modWarp_ringsel : (s.modWarp w f).ringsel = s.ringsel := rfl
@[simp] theorem State.modWarp_attreq : (s.modWarp w f).attreq = s.attreq := rfl
@[simp] theorem State.modWarp_attBusy : (s.modWarp w f).attBusy = s.attBusy := rfl
@[simp] theorem State.modWarp_attDone : (s.modWarp w f).attDone = s.attDone := rfl
@[simp] theorem State.modWarp_ptbase : (s.modWarp w f).ptbase = s.ptbase := rfl
@[simp] theorem State.modWarp_plast : (s.modWarp w f).plast = s.plast := rfl
@[simp] theorem State.modWarp_pbusy : (s.modWarp w f).pbusy = s.pbusy := rfl
@[simp] theorem State.modWarp_perr : (s.modWarp w f).perr = s.perr := rfl
@[simp] theorem State.modWarp_keysHeld : (s.modWarp w f).keysHeld = s.keysHeld := rfl
@[simp] theorem State.modWarp_keys : (s.modWarp w f).keys = s.keys := rfl
@[simp] theorem State.modWarp_tscl : (s.modWarp w f).tscl = s.tscl := rfl
@[simp] theorem State.modWarp_tsEn : (s.modWarp w f).tsEn = s.tsEn := rfl
@[simp] theorem State.modWarp_tslend : (s.modWarp w f).tslend = s.tslend := rfl
@[simp] theorem State.modWarp_tsRunning : (s.modWarp w f).tsRunning = s.tsRunning := rfl
@[simp] theorem State.modWarp_tsslots : (s.modWarp w f).tsslots = s.tsslots := rfl
@[simp] theorem State.modWarp_tsEpoch : (s.modWarp w f).tsEpoch = s.tsEpoch := rfl
@[simp] theorem State.modWarp_tsSlot : (s.modWarp w f).tsSlot = s.tsSlot := rfl
@[simp] theorem State.modWarp_tsStart : (s.modWarp w f).tsStart = s.tsStart := rfl
@[simp] theorem State.modWarp_stoptick : (s.modWarp w f).stoptick = s.stoptick := rfl
@[simp] theorem State.modWarp_stopArm : (s.modWarp w f).stopArm = s.stopArm := rfl
@[simp] theorem State.modWarp_stopped : (s.modWarp w f).stopped = s.stopped := rfl
@[simp] theorem State.modWarp_begun : (s.modWarp w f).begun = s.begun := rfl
@[simp] theorem State.modWarp_slewAt : (s.modWarp w f).slewAt = s.slewAt := rfl
@[simp] theorem State.modWarp_holdTick : (s.modWarp w f).holdTick = s.holdTick := rfl
@[simp] theorem State.modWarp_fabid : (s.modWarp w f).fabid = s.fabid := rfl
@[simp] theorem State.modWarp_portsel : (s.modWarp w f).portsel = s.portsel := rfl
@[simp] theorem State.modWarp_peersel : (s.modWarp w f).peersel = s.peersel := rfl
@[simp] theorem State.modWarp_ports : (s.modWarp w f).ports = s.ports := rfl
@[simp] theorem State.modWarp_paths : (s.modWarp w f).paths = s.paths := rfl
@[simp] theorem State.modWarp_remap : (s.modWarp w f).remap = s.remap := rfl
@[simp] theorem State.modWarp_lost : (s.modWarp w f).lost = s.lost := rfl
@[simp] theorem State.modWarp_memCtx : (s.modWarp w f).memCtx = s.memCtx := rfl
@[simp] theorem State.modWarp_l2Misses : (s.modWarp w f).l2Misses = s.l2Misses := rfl
@[simp] theorem State.modWarp_work : (s.modWarp w f).work = s.work := rfl
@[simp] theorem State.modWarp_hbmMoves : (s.modWarp w f).hbmMoves = s.hbmMoves := rfl
@[simp] theorem State.modWarp_flitsAt : (s.modWarp w f).flitsAt = s.flitsAt := rfl
@[simp] theorem State.modWarp_estimates : (s.modWarp w f).estimates = s.estimates := rfl
@[simp] theorem State.modWarp_written : (s.modWarp w f).written = s.written := rfl
@[simp] theorem State.modWarp_timingFrom : (s.modWarp w f).timingFrom = s.timingFrom := rfl
@[simp] theorem State.modWarp_queries : (s.modWarp w f).queries = s.queries := rfl
@[simp] theorem State.modWarp_stalled : (s.modWarp w f).stalled = s.stalled := rfl
@[simp] theorem State.modWarp_seqs : (s.modWarp w f).seqs = s.seqs := rfl
@[simp] theorem State.modWarp_sent : (s.modWarp w f).sent = s.sent := rfl
@[simp] theorem State.modWarp_unsent : (s.modWarp w f).unsent = s.unsent := rfl
@[simp] theorem State.modWarp_busyHold : (s.modWarp w f).busyHold = s.busyHold := rfl
@[simp] theorem State.modWarp_settling : (s.modWarp w f).settling = s.settling := rfl
@[simp] theorem State.modWarp_lastseq : (s.modWarp w f).lastseq = s.lastseq := rfl
@[simp] theorem State.modWarp_records : (s.modWarp w f).records = s.records := rfl
@[simp] theorem State.modWarp_busyEnd : (s.modWarp w f).busyEnd = s.busyEnd := rfl
@[simp] theorem State.modWarp_keysOut : (s.modWarp w f).keysOut = s.keysOut := rfl
@[simp] theorem State.modWarp_fabOut : (s.modWarp w f).fabOut = s.fabOut := rfl
@[simp] theorem State.modWarp_hocpOut : (s.modWarp w f).hocpOut = s.hocpOut := rfl
@[simp] theorem State.modWarp_collIn : (s.modWarp w f).collIn = s.collIn := rfl
@[simp] theorem State.modWarp_sysReqs : (s.modWarp w f).sysReqs = s.sysReqs := rfl
@[simp] theorem State.modWarp_pwrsel : (s.modWarp w f).pwrsel = s.pwrsel := rfl
@[simp] theorem State.modWarp_pwrcap : (s.modWarp w f).pwrcap = s.pwrcap := rfl
@[simp] theorem State.modWarp_capActs : (s.modWarp w f).capActs = s.capActs := rfl
@[simp] theorem State.modWarp_calmUs : (s.modWarp w f).calmUs = s.calmUs := rfl
@[simp] theorem State.modWarp_clusters : (s.modWarp w f).clusters = s.clusters := rfl
@[simp] theorem State.modWarp_refits : (s.modWarp w f).refits = s.refits := rfl
@[simp] theorem State.modWarp_slots : (s.modWarp w f).slots = s.slots := rfl
@[simp] theorem State.modWarp_flash : (s.modWarp w f).flash = s.flash := rfl
@[simp] theorem State.modWarp_fuseSvn : (s.modWarp w f).fuseSvn = s.fuseSvn := rfl
@[simp] theorem State.modWarp_recovery : (s.modWarp w f).recovery = s.recovery := rfl
@[simp] theorem State.modWarp_staged : (s.modWarp w f).staged = s.staged := rfl
@[simp] theorem State.modWarp_running : (s.modWarp w f).running = s.running := rfl
@[simp] theorem State.modWarp_up : (s.modWarp w f).up = s.up := rfl
@[simp] theorem State.modWarp_time : (s.modWarp w f).time = s.time := rfl
@[simp] theorem State.modWarp_sub : (s.modWarp w f).sub = s.sub := rfl
@[simp] theorem State.modWarp_l2Ways : (s.modWarp w f).l2Ways = s.l2Ways := rfl
@[simp] theorem State.modWarp_keyGen : (s.modWarp w f).keyGen = s.keyGen := rfl
@[simp] theorem State.modWarp_lineGen : (s.modWarp w f).lineGen = s.lineGen := rfl
@[simp] theorem State.modWarp_reloaded : (s.modWarp w f).reloaded = s.reloaded := rfl

end

/-! ### modCore -/

section
variable (s : State) (c : Nat) (f : Core → Core)

@[simp] theorem State.modCore_tick : (s.modCore c f).tick = s.tick := rfl
@[simp] theorem State.modCore_serial : (s.modCore c f).serial = s.serial := rfl
@[simp] theorem State.modCore_names : (s.modCore c f).names = s.names := rfl
@[simp] theorem State.modCore_free : (s.modCore c f).free = s.free := rfl
@[simp] theorem State.modCore_calendar : (s.modCore c f).calendar = s.calendar := rfl
@[simp] theorem State.modCore_cur : (s.modCore c f).cur = s.cur := rfl
@[simp] theorem State.modCore_slicePtr : (s.modCore c f).slicePtr = s.slicePtr := rfl
@[simp] theorem State.modCore_slices : (s.modCore c f).slices = s.slices := rfl
@[simp] theorem State.modCore_warps : (s.modCore c f).warps = s.warps := rfl
@[simp] theorem State.modCore_wgs : (s.modCore c f).wgs = s.wgs := rfl
@[simp] theorem State.modCore_launches : (s.modCore c f).launches = s.launches := rfl
@[simp] theorem State.modCore_hbm : (s.modCore c f).hbm = s.hbm := rfl
@[simp] theorem State.modCore_l2 : (s.modCore c f).l2 = s.l2 := rfl
@[simp] theorem State.modCore_l1 : (s.modCore c f).l1 = s.l1 := rfl
@[simp] theorem State.modCore_poisoned : (s.modCore c f).poisoned = s.poisoned := rfl
@[simp] theorem State.modCore_frames : (s.modCore c f).frames = s.frames := rfl
@[simp] theorem State.modCore_ages : (s.modCore c f).ages = s.ages := rfl
@[simp] theorem State.modCore_pinned : (s.modCore c f).pinned = s.pinned := rfl
@[simp] theorem State.modCore_gen : (s.modCore c f).gen = s.gen := rfl
@[simp] theorem State.modCore_ctxs : (s.modCore c f).ctxs = s.ctxs := rfl
@[simp] theorem State.modCore_parts : (s.modCore c f).parts = s.parts := rfl
@[simp] theorem State.modCore_queues : (s.modCore c f).queues = s.queues := rfl
@[simp] theorem State.modCore_zeroing : (s.modCore c f).zeroing = s.zeroing := rfl
@[simp] theorem State.modCore_saves : (s.modCore c f).saves = s.saves := rfl
@[simp] theorem State.modCore_qsel : (s.modCore c f).qsel = s.qsel := rfl
@[simp] theorem State.modCore_qbase : (s.modCore c f).qbase = s.qbase := rfl
@[simp] theorem State.modCore_qpriv0 : (s.modCore c f).qpriv0 = s.qpriv0 := rfl
@[simp] theorem State.modCore_qpriv1 : (s.modCore c f).qpriv1 = s.qpriv1 := rfl
@[simp] theorem State.modCore_wdog : (s.modCore c f).wdog = s.wdog := rfl
@[simp] theorem State.modCore_ctxsel : (s.modCore c f).ctxsel = s.ctxsel := rfl
@[simp] theorem State.modCore_ringsel : (s.modCore c f).ringsel = s.ringsel := rfl
@[simp] theorem State.modCore_attreq : (s.modCore c f).attreq = s.attreq := rfl
@[simp] theorem State.modCore_attBusy : (s.modCore c f).attBusy = s.attBusy := rfl
@[simp] theorem State.modCore_attDone : (s.modCore c f).attDone = s.attDone := rfl
@[simp] theorem State.modCore_ptbase : (s.modCore c f).ptbase = s.ptbase := rfl
@[simp] theorem State.modCore_plast : (s.modCore c f).plast = s.plast := rfl
@[simp] theorem State.modCore_pbusy : (s.modCore c f).pbusy = s.pbusy := rfl
@[simp] theorem State.modCore_perr : (s.modCore c f).perr = s.perr := rfl
@[simp] theorem State.modCore_keysHeld : (s.modCore c f).keysHeld = s.keysHeld := rfl
@[simp] theorem State.modCore_keys : (s.modCore c f).keys = s.keys := rfl
@[simp] theorem State.modCore_tscl : (s.modCore c f).tscl = s.tscl := rfl
@[simp] theorem State.modCore_tsEn : (s.modCore c f).tsEn = s.tsEn := rfl
@[simp] theorem State.modCore_tslend : (s.modCore c f).tslend = s.tslend := rfl
@[simp] theorem State.modCore_tsRunning : (s.modCore c f).tsRunning = s.tsRunning := rfl
@[simp] theorem State.modCore_tsslots : (s.modCore c f).tsslots = s.tsslots := rfl
@[simp] theorem State.modCore_tsEpoch : (s.modCore c f).tsEpoch = s.tsEpoch := rfl
@[simp] theorem State.modCore_tsSlot : (s.modCore c f).tsSlot = s.tsSlot := rfl
@[simp] theorem State.modCore_tsStart : (s.modCore c f).tsStart = s.tsStart := rfl
@[simp] theorem State.modCore_stoptick : (s.modCore c f).stoptick = s.stoptick := rfl
@[simp] theorem State.modCore_stopArm : (s.modCore c f).stopArm = s.stopArm := rfl
@[simp] theorem State.modCore_stopped : (s.modCore c f).stopped = s.stopped := rfl
@[simp] theorem State.modCore_begun : (s.modCore c f).begun = s.begun := rfl
@[simp] theorem State.modCore_slewAt : (s.modCore c f).slewAt = s.slewAt := rfl
@[simp] theorem State.modCore_holdTick : (s.modCore c f).holdTick = s.holdTick := rfl
@[simp] theorem State.modCore_fabid : (s.modCore c f).fabid = s.fabid := rfl
@[simp] theorem State.modCore_portsel : (s.modCore c f).portsel = s.portsel := rfl
@[simp] theorem State.modCore_peersel : (s.modCore c f).peersel = s.peersel := rfl
@[simp] theorem State.modCore_ports : (s.modCore c f).ports = s.ports := rfl
@[simp] theorem State.modCore_paths : (s.modCore c f).paths = s.paths := rfl
@[simp] theorem State.modCore_remap : (s.modCore c f).remap = s.remap := rfl
@[simp] theorem State.modCore_lost : (s.modCore c f).lost = s.lost := rfl
@[simp] theorem State.modCore_memCtx : (s.modCore c f).memCtx = s.memCtx := rfl
@[simp] theorem State.modCore_l2Misses : (s.modCore c f).l2Misses = s.l2Misses := rfl
@[simp] theorem State.modCore_work : (s.modCore c f).work = s.work := rfl
@[simp] theorem State.modCore_hbmMoves : (s.modCore c f).hbmMoves = s.hbmMoves := rfl
@[simp] theorem State.modCore_flitsAt : (s.modCore c f).flitsAt = s.flitsAt := rfl
@[simp] theorem State.modCore_estimates : (s.modCore c f).estimates = s.estimates := rfl
@[simp] theorem State.modCore_written : (s.modCore c f).written = s.written := rfl
@[simp] theorem State.modCore_timingFrom : (s.modCore c f).timingFrom = s.timingFrom := rfl
@[simp] theorem State.modCore_queries : (s.modCore c f).queries = s.queries := rfl
@[simp] theorem State.modCore_stalled : (s.modCore c f).stalled = s.stalled := rfl
@[simp] theorem State.modCore_seqs : (s.modCore c f).seqs = s.seqs := rfl
@[simp] theorem State.modCore_sent : (s.modCore c f).sent = s.sent := rfl
@[simp] theorem State.modCore_unsent : (s.modCore c f).unsent = s.unsent := rfl
@[simp] theorem State.modCore_busyHold : (s.modCore c f).busyHold = s.busyHold := rfl
@[simp] theorem State.modCore_settling : (s.modCore c f).settling = s.settling := rfl
@[simp] theorem State.modCore_lastseq : (s.modCore c f).lastseq = s.lastseq := rfl
@[simp] theorem State.modCore_records : (s.modCore c f).records = s.records := rfl
@[simp] theorem State.modCore_busyEnd : (s.modCore c f).busyEnd = s.busyEnd := rfl
@[simp] theorem State.modCore_keysOut : (s.modCore c f).keysOut = s.keysOut := rfl
@[simp] theorem State.modCore_fabOut : (s.modCore c f).fabOut = s.fabOut := rfl
@[simp] theorem State.modCore_hocpOut : (s.modCore c f).hocpOut = s.hocpOut := rfl
@[simp] theorem State.modCore_collIn : (s.modCore c f).collIn = s.collIn := rfl
@[simp] theorem State.modCore_sysReqs : (s.modCore c f).sysReqs = s.sysReqs := rfl
@[simp] theorem State.modCore_pwrsel : (s.modCore c f).pwrsel = s.pwrsel := rfl
@[simp] theorem State.modCore_pwrcap : (s.modCore c f).pwrcap = s.pwrcap := rfl
@[simp] theorem State.modCore_capActs : (s.modCore c f).capActs = s.capActs := rfl
@[simp] theorem State.modCore_calmUs : (s.modCore c f).calmUs = s.calmUs := rfl
@[simp] theorem State.modCore_clusters : (s.modCore c f).clusters = s.clusters := rfl
@[simp] theorem State.modCore_refits : (s.modCore c f).refits = s.refits := rfl
@[simp] theorem State.modCore_slots : (s.modCore c f).slots = s.slots := rfl
@[simp] theorem State.modCore_flash : (s.modCore c f).flash = s.flash := rfl
@[simp] theorem State.modCore_fuseSvn : (s.modCore c f).fuseSvn = s.fuseSvn := rfl
@[simp] theorem State.modCore_recovery : (s.modCore c f).recovery = s.recovery := rfl
@[simp] theorem State.modCore_staged : (s.modCore c f).staged = s.staged := rfl
@[simp] theorem State.modCore_running : (s.modCore c f).running = s.running := rfl
@[simp] theorem State.modCore_up : (s.modCore c f).up = s.up := rfl
@[simp] theorem State.modCore_time : (s.modCore c f).time = s.time := rfl
@[simp] theorem State.modCore_sub : (s.modCore c f).sub = s.sub := rfl
@[simp] theorem State.modCore_l2Ways : (s.modCore c f).l2Ways = s.l2Ways := rfl
@[simp] theorem State.modCore_keyGen : (s.modCore c f).keyGen = s.keyGen := rfl
@[simp] theorem State.modCore_lineGen : (s.modCore c f).lineGen = s.lineGen := rfl
@[simp] theorem State.modCore_reloaded : (s.modCore c f).reloaded = s.reloaded := rfl

end

/-! ### modWg -/

section
variable (s : State) (g : Nat) (f : Workgroup → Workgroup)

@[simp] theorem State.modWg_tick : (s.modWg g f).tick = s.tick := rfl
@[simp] theorem State.modWg_serial : (s.modWg g f).serial = s.serial := rfl
@[simp] theorem State.modWg_names : (s.modWg g f).names = s.names := rfl
@[simp] theorem State.modWg_free : (s.modWg g f).free = s.free := rfl
@[simp] theorem State.modWg_calendar : (s.modWg g f).calendar = s.calendar := rfl
@[simp] theorem State.modWg_cur : (s.modWg g f).cur = s.cur := rfl
@[simp] theorem State.modWg_slicePtr : (s.modWg g f).slicePtr = s.slicePtr := rfl
@[simp] theorem State.modWg_slices : (s.modWg g f).slices = s.slices := rfl
@[simp] theorem State.modWg_warps : (s.modWg g f).warps = s.warps := rfl
@[simp] theorem State.modWg_launches : (s.modWg g f).launches = s.launches := rfl
@[simp] theorem State.modWg_cores : (s.modWg g f).cores = s.cores := rfl
@[simp] theorem State.modWg_hbm : (s.modWg g f).hbm = s.hbm := rfl
@[simp] theorem State.modWg_l2 : (s.modWg g f).l2 = s.l2 := rfl
@[simp] theorem State.modWg_l1 : (s.modWg g f).l1 = s.l1 := rfl
@[simp] theorem State.modWg_poisoned : (s.modWg g f).poisoned = s.poisoned := rfl
@[simp] theorem State.modWg_frames : (s.modWg g f).frames = s.frames := rfl
@[simp] theorem State.modWg_ages : (s.modWg g f).ages = s.ages := rfl
@[simp] theorem State.modWg_pinned : (s.modWg g f).pinned = s.pinned := rfl
@[simp] theorem State.modWg_gen : (s.modWg g f).gen = s.gen := rfl
@[simp] theorem State.modWg_ctxs : (s.modWg g f).ctxs = s.ctxs := rfl
@[simp] theorem State.modWg_parts : (s.modWg g f).parts = s.parts := rfl
@[simp] theorem State.modWg_queues : (s.modWg g f).queues = s.queues := rfl
@[simp] theorem State.modWg_zeroing : (s.modWg g f).zeroing = s.zeroing := rfl
@[simp] theorem State.modWg_saves : (s.modWg g f).saves = s.saves := rfl
@[simp] theorem State.modWg_qsel : (s.modWg g f).qsel = s.qsel := rfl
@[simp] theorem State.modWg_qbase : (s.modWg g f).qbase = s.qbase := rfl
@[simp] theorem State.modWg_qpriv0 : (s.modWg g f).qpriv0 = s.qpriv0 := rfl
@[simp] theorem State.modWg_qpriv1 : (s.modWg g f).qpriv1 = s.qpriv1 := rfl
@[simp] theorem State.modWg_wdog : (s.modWg g f).wdog = s.wdog := rfl
@[simp] theorem State.modWg_ctxsel : (s.modWg g f).ctxsel = s.ctxsel := rfl
@[simp] theorem State.modWg_ringsel : (s.modWg g f).ringsel = s.ringsel := rfl
@[simp] theorem State.modWg_attreq : (s.modWg g f).attreq = s.attreq := rfl
@[simp] theorem State.modWg_attBusy : (s.modWg g f).attBusy = s.attBusy := rfl
@[simp] theorem State.modWg_attDone : (s.modWg g f).attDone = s.attDone := rfl
@[simp] theorem State.modWg_ptbase : (s.modWg g f).ptbase = s.ptbase := rfl
@[simp] theorem State.modWg_plast : (s.modWg g f).plast = s.plast := rfl
@[simp] theorem State.modWg_pbusy : (s.modWg g f).pbusy = s.pbusy := rfl
@[simp] theorem State.modWg_perr : (s.modWg g f).perr = s.perr := rfl
@[simp] theorem State.modWg_keysHeld : (s.modWg g f).keysHeld = s.keysHeld := rfl
@[simp] theorem State.modWg_keys : (s.modWg g f).keys = s.keys := rfl
@[simp] theorem State.modWg_tscl : (s.modWg g f).tscl = s.tscl := rfl
@[simp] theorem State.modWg_tsEn : (s.modWg g f).tsEn = s.tsEn := rfl
@[simp] theorem State.modWg_tslend : (s.modWg g f).tslend = s.tslend := rfl
@[simp] theorem State.modWg_tsRunning : (s.modWg g f).tsRunning = s.tsRunning := rfl
@[simp] theorem State.modWg_tsslots : (s.modWg g f).tsslots = s.tsslots := rfl
@[simp] theorem State.modWg_tsEpoch : (s.modWg g f).tsEpoch = s.tsEpoch := rfl
@[simp] theorem State.modWg_tsSlot : (s.modWg g f).tsSlot = s.tsSlot := rfl
@[simp] theorem State.modWg_tsStart : (s.modWg g f).tsStart = s.tsStart := rfl
@[simp] theorem State.modWg_stoptick : (s.modWg g f).stoptick = s.stoptick := rfl
@[simp] theorem State.modWg_stopArm : (s.modWg g f).stopArm = s.stopArm := rfl
@[simp] theorem State.modWg_stopped : (s.modWg g f).stopped = s.stopped := rfl
@[simp] theorem State.modWg_begun : (s.modWg g f).begun = s.begun := rfl
@[simp] theorem State.modWg_slewAt : (s.modWg g f).slewAt = s.slewAt := rfl
@[simp] theorem State.modWg_holdTick : (s.modWg g f).holdTick = s.holdTick := rfl
@[simp] theorem State.modWg_fabid : (s.modWg g f).fabid = s.fabid := rfl
@[simp] theorem State.modWg_portsel : (s.modWg g f).portsel = s.portsel := rfl
@[simp] theorem State.modWg_peersel : (s.modWg g f).peersel = s.peersel := rfl
@[simp] theorem State.modWg_ports : (s.modWg g f).ports = s.ports := rfl
@[simp] theorem State.modWg_paths : (s.modWg g f).paths = s.paths := rfl
@[simp] theorem State.modWg_remap : (s.modWg g f).remap = s.remap := rfl
@[simp] theorem State.modWg_lost : (s.modWg g f).lost = s.lost := rfl
@[simp] theorem State.modWg_memCtx : (s.modWg g f).memCtx = s.memCtx := rfl
@[simp] theorem State.modWg_l2Misses : (s.modWg g f).l2Misses = s.l2Misses := rfl
@[simp] theorem State.modWg_work : (s.modWg g f).work = s.work := rfl
@[simp] theorem State.modWg_hbmMoves : (s.modWg g f).hbmMoves = s.hbmMoves := rfl
@[simp] theorem State.modWg_flitsAt : (s.modWg g f).flitsAt = s.flitsAt := rfl
@[simp] theorem State.modWg_estimates : (s.modWg g f).estimates = s.estimates := rfl
@[simp] theorem State.modWg_written : (s.modWg g f).written = s.written := rfl
@[simp] theorem State.modWg_timingFrom : (s.modWg g f).timingFrom = s.timingFrom := rfl
@[simp] theorem State.modWg_queries : (s.modWg g f).queries = s.queries := rfl
@[simp] theorem State.modWg_stalled : (s.modWg g f).stalled = s.stalled := rfl
@[simp] theorem State.modWg_seqs : (s.modWg g f).seqs = s.seqs := rfl
@[simp] theorem State.modWg_sent : (s.modWg g f).sent = s.sent := rfl
@[simp] theorem State.modWg_unsent : (s.modWg g f).unsent = s.unsent := rfl
@[simp] theorem State.modWg_busyHold : (s.modWg g f).busyHold = s.busyHold := rfl
@[simp] theorem State.modWg_settling : (s.modWg g f).settling = s.settling := rfl
@[simp] theorem State.modWg_lastseq : (s.modWg g f).lastseq = s.lastseq := rfl
@[simp] theorem State.modWg_records : (s.modWg g f).records = s.records := rfl
@[simp] theorem State.modWg_busyEnd : (s.modWg g f).busyEnd = s.busyEnd := rfl
@[simp] theorem State.modWg_keysOut : (s.modWg g f).keysOut = s.keysOut := rfl
@[simp] theorem State.modWg_fabOut : (s.modWg g f).fabOut = s.fabOut := rfl
@[simp] theorem State.modWg_hocpOut : (s.modWg g f).hocpOut = s.hocpOut := rfl
@[simp] theorem State.modWg_collIn : (s.modWg g f).collIn = s.collIn := rfl
@[simp] theorem State.modWg_sysReqs : (s.modWg g f).sysReqs = s.sysReqs := rfl
@[simp] theorem State.modWg_pwrsel : (s.modWg g f).pwrsel = s.pwrsel := rfl
@[simp] theorem State.modWg_pwrcap : (s.modWg g f).pwrcap = s.pwrcap := rfl
@[simp] theorem State.modWg_capActs : (s.modWg g f).capActs = s.capActs := rfl
@[simp] theorem State.modWg_calmUs : (s.modWg g f).calmUs = s.calmUs := rfl
@[simp] theorem State.modWg_clusters : (s.modWg g f).clusters = s.clusters := rfl
@[simp] theorem State.modWg_refits : (s.modWg g f).refits = s.refits := rfl
@[simp] theorem State.modWg_slots : (s.modWg g f).slots = s.slots := rfl
@[simp] theorem State.modWg_flash : (s.modWg g f).flash = s.flash := rfl
@[simp] theorem State.modWg_fuseSvn : (s.modWg g f).fuseSvn = s.fuseSvn := rfl
@[simp] theorem State.modWg_recovery : (s.modWg g f).recovery = s.recovery := rfl
@[simp] theorem State.modWg_staged : (s.modWg g f).staged = s.staged := rfl
@[simp] theorem State.modWg_running : (s.modWg g f).running = s.running := rfl
@[simp] theorem State.modWg_up : (s.modWg g f).up = s.up := rfl
@[simp] theorem State.modWg_time : (s.modWg g f).time = s.time := rfl
@[simp] theorem State.modWg_sub : (s.modWg g f).sub = s.sub := rfl
@[simp] theorem State.modWg_l2Ways : (s.modWg g f).l2Ways = s.l2Ways := rfl
@[simp] theorem State.modWg_keyGen : (s.modWg g f).keyGen = s.keyGen := rfl
@[simp] theorem State.modWg_lineGen : (s.modWg g f).lineGen = s.lineGen := rfl
@[simp] theorem State.modWg_reloaded : (s.modWg g f).reloaded = s.reloaded := rfl

end

/-! ### modLaunch -/

section
variable (s : State) (l : Nat) (f : Launch → Launch)

@[simp] theorem State.modLaunch_tick : (s.modLaunch l f).tick = s.tick := rfl
@[simp] theorem State.modLaunch_serial : (s.modLaunch l f).serial = s.serial := rfl
@[simp] theorem State.modLaunch_names : (s.modLaunch l f).names = s.names := rfl
@[simp] theorem State.modLaunch_free : (s.modLaunch l f).free = s.free := rfl
@[simp] theorem State.modLaunch_calendar : (s.modLaunch l f).calendar = s.calendar := rfl
@[simp] theorem State.modLaunch_cur : (s.modLaunch l f).cur = s.cur := rfl
@[simp] theorem State.modLaunch_slicePtr : (s.modLaunch l f).slicePtr = s.slicePtr := rfl
@[simp] theorem State.modLaunch_slices : (s.modLaunch l f).slices = s.slices := rfl
@[simp] theorem State.modLaunch_warps : (s.modLaunch l f).warps = s.warps := rfl
@[simp] theorem State.modLaunch_wgs : (s.modLaunch l f).wgs = s.wgs := rfl
@[simp] theorem State.modLaunch_cores : (s.modLaunch l f).cores = s.cores := rfl
@[simp] theorem State.modLaunch_hbm : (s.modLaunch l f).hbm = s.hbm := rfl
@[simp] theorem State.modLaunch_l2 : (s.modLaunch l f).l2 = s.l2 := rfl
@[simp] theorem State.modLaunch_l1 : (s.modLaunch l f).l1 = s.l1 := rfl
@[simp] theorem State.modLaunch_poisoned : (s.modLaunch l f).poisoned = s.poisoned := rfl
@[simp] theorem State.modLaunch_frames : (s.modLaunch l f).frames = s.frames := rfl
@[simp] theorem State.modLaunch_ages : (s.modLaunch l f).ages = s.ages := rfl
@[simp] theorem State.modLaunch_pinned : (s.modLaunch l f).pinned = s.pinned := rfl
@[simp] theorem State.modLaunch_gen : (s.modLaunch l f).gen = s.gen := rfl
@[simp] theorem State.modLaunch_ctxs : (s.modLaunch l f).ctxs = s.ctxs := rfl
@[simp] theorem State.modLaunch_parts : (s.modLaunch l f).parts = s.parts := rfl
@[simp] theorem State.modLaunch_queues : (s.modLaunch l f).queues = s.queues := rfl
@[simp] theorem State.modLaunch_zeroing : (s.modLaunch l f).zeroing = s.zeroing := rfl
@[simp] theorem State.modLaunch_saves : (s.modLaunch l f).saves = s.saves := rfl
@[simp] theorem State.modLaunch_qsel : (s.modLaunch l f).qsel = s.qsel := rfl
@[simp] theorem State.modLaunch_qbase : (s.modLaunch l f).qbase = s.qbase := rfl
@[simp] theorem State.modLaunch_qpriv0 : (s.modLaunch l f).qpriv0 = s.qpriv0 := rfl
@[simp] theorem State.modLaunch_qpriv1 : (s.modLaunch l f).qpriv1 = s.qpriv1 := rfl
@[simp] theorem State.modLaunch_wdog : (s.modLaunch l f).wdog = s.wdog := rfl
@[simp] theorem State.modLaunch_ctxsel : (s.modLaunch l f).ctxsel = s.ctxsel := rfl
@[simp] theorem State.modLaunch_ringsel : (s.modLaunch l f).ringsel = s.ringsel := rfl
@[simp] theorem State.modLaunch_attreq : (s.modLaunch l f).attreq = s.attreq := rfl
@[simp] theorem State.modLaunch_attBusy : (s.modLaunch l f).attBusy = s.attBusy := rfl
@[simp] theorem State.modLaunch_attDone : (s.modLaunch l f).attDone = s.attDone := rfl
@[simp] theorem State.modLaunch_ptbase : (s.modLaunch l f).ptbase = s.ptbase := rfl
@[simp] theorem State.modLaunch_plast : (s.modLaunch l f).plast = s.plast := rfl
@[simp] theorem State.modLaunch_pbusy : (s.modLaunch l f).pbusy = s.pbusy := rfl
@[simp] theorem State.modLaunch_perr : (s.modLaunch l f).perr = s.perr := rfl
@[simp] theorem State.modLaunch_keysHeld : (s.modLaunch l f).keysHeld = s.keysHeld := rfl
@[simp] theorem State.modLaunch_keys : (s.modLaunch l f).keys = s.keys := rfl
@[simp] theorem State.modLaunch_tscl : (s.modLaunch l f).tscl = s.tscl := rfl
@[simp] theorem State.modLaunch_tsEn : (s.modLaunch l f).tsEn = s.tsEn := rfl
@[simp] theorem State.modLaunch_tslend : (s.modLaunch l f).tslend = s.tslend := rfl
@[simp] theorem State.modLaunch_tsRunning : (s.modLaunch l f).tsRunning = s.tsRunning := rfl
@[simp] theorem State.modLaunch_tsslots : (s.modLaunch l f).tsslots = s.tsslots := rfl
@[simp] theorem State.modLaunch_tsEpoch : (s.modLaunch l f).tsEpoch = s.tsEpoch := rfl
@[simp] theorem State.modLaunch_tsSlot : (s.modLaunch l f).tsSlot = s.tsSlot := rfl
@[simp] theorem State.modLaunch_tsStart : (s.modLaunch l f).tsStart = s.tsStart := rfl
@[simp] theorem State.modLaunch_stoptick : (s.modLaunch l f).stoptick = s.stoptick := rfl
@[simp] theorem State.modLaunch_stopArm : (s.modLaunch l f).stopArm = s.stopArm := rfl
@[simp] theorem State.modLaunch_stopped : (s.modLaunch l f).stopped = s.stopped := rfl
@[simp] theorem State.modLaunch_begun : (s.modLaunch l f).begun = s.begun := rfl
@[simp] theorem State.modLaunch_slewAt : (s.modLaunch l f).slewAt = s.slewAt := rfl
@[simp] theorem State.modLaunch_holdTick : (s.modLaunch l f).holdTick = s.holdTick := rfl
@[simp] theorem State.modLaunch_fabid : (s.modLaunch l f).fabid = s.fabid := rfl
@[simp] theorem State.modLaunch_portsel : (s.modLaunch l f).portsel = s.portsel := rfl
@[simp] theorem State.modLaunch_peersel : (s.modLaunch l f).peersel = s.peersel := rfl
@[simp] theorem State.modLaunch_ports : (s.modLaunch l f).ports = s.ports := rfl
@[simp] theorem State.modLaunch_paths : (s.modLaunch l f).paths = s.paths := rfl
@[simp] theorem State.modLaunch_remap : (s.modLaunch l f).remap = s.remap := rfl
@[simp] theorem State.modLaunch_lost : (s.modLaunch l f).lost = s.lost := rfl
@[simp] theorem State.modLaunch_memCtx : (s.modLaunch l f).memCtx = s.memCtx := rfl
@[simp] theorem State.modLaunch_l2Misses : (s.modLaunch l f).l2Misses = s.l2Misses := rfl
@[simp] theorem State.modLaunch_work : (s.modLaunch l f).work = s.work := rfl
@[simp] theorem State.modLaunch_hbmMoves : (s.modLaunch l f).hbmMoves = s.hbmMoves := rfl
@[simp] theorem State.modLaunch_flitsAt : (s.modLaunch l f).flitsAt = s.flitsAt := rfl
@[simp] theorem State.modLaunch_estimates : (s.modLaunch l f).estimates = s.estimates := rfl
@[simp] theorem State.modLaunch_written : (s.modLaunch l f).written = s.written := rfl
@[simp] theorem State.modLaunch_timingFrom : (s.modLaunch l f).timingFrom = s.timingFrom := rfl
@[simp] theorem State.modLaunch_queries : (s.modLaunch l f).queries = s.queries := rfl
@[simp] theorem State.modLaunch_stalled : (s.modLaunch l f).stalled = s.stalled := rfl
@[simp] theorem State.modLaunch_seqs : (s.modLaunch l f).seqs = s.seqs := rfl
@[simp] theorem State.modLaunch_sent : (s.modLaunch l f).sent = s.sent := rfl
@[simp] theorem State.modLaunch_unsent : (s.modLaunch l f).unsent = s.unsent := rfl
@[simp] theorem State.modLaunch_busyHold : (s.modLaunch l f).busyHold = s.busyHold := rfl
@[simp] theorem State.modLaunch_settling : (s.modLaunch l f).settling = s.settling := rfl
@[simp] theorem State.modLaunch_lastseq : (s.modLaunch l f).lastseq = s.lastseq := rfl
@[simp] theorem State.modLaunch_records : (s.modLaunch l f).records = s.records := rfl
@[simp] theorem State.modLaunch_busyEnd : (s.modLaunch l f).busyEnd = s.busyEnd := rfl
@[simp] theorem State.modLaunch_keysOut : (s.modLaunch l f).keysOut = s.keysOut := rfl
@[simp] theorem State.modLaunch_fabOut : (s.modLaunch l f).fabOut = s.fabOut := rfl
@[simp] theorem State.modLaunch_hocpOut : (s.modLaunch l f).hocpOut = s.hocpOut := rfl
@[simp] theorem State.modLaunch_collIn : (s.modLaunch l f).collIn = s.collIn := rfl
@[simp] theorem State.modLaunch_sysReqs : (s.modLaunch l f).sysReqs = s.sysReqs := rfl
@[simp] theorem State.modLaunch_pwrsel : (s.modLaunch l f).pwrsel = s.pwrsel := rfl
@[simp] theorem State.modLaunch_pwrcap : (s.modLaunch l f).pwrcap = s.pwrcap := rfl
@[simp] theorem State.modLaunch_capActs : (s.modLaunch l f).capActs = s.capActs := rfl
@[simp] theorem State.modLaunch_calmUs : (s.modLaunch l f).calmUs = s.calmUs := rfl
@[simp] theorem State.modLaunch_clusters : (s.modLaunch l f).clusters = s.clusters := rfl
@[simp] theorem State.modLaunch_refits : (s.modLaunch l f).refits = s.refits := rfl
@[simp] theorem State.modLaunch_slots : (s.modLaunch l f).slots = s.slots := rfl
@[simp] theorem State.modLaunch_flash : (s.modLaunch l f).flash = s.flash := rfl
@[simp] theorem State.modLaunch_fuseSvn : (s.modLaunch l f).fuseSvn = s.fuseSvn := rfl
@[simp] theorem State.modLaunch_recovery : (s.modLaunch l f).recovery = s.recovery := rfl
@[simp] theorem State.modLaunch_staged : (s.modLaunch l f).staged = s.staged := rfl
@[simp] theorem State.modLaunch_running : (s.modLaunch l f).running = s.running := rfl
@[simp] theorem State.modLaunch_up : (s.modLaunch l f).up = s.up := rfl
@[simp] theorem State.modLaunch_time : (s.modLaunch l f).time = s.time := rfl
@[simp] theorem State.modLaunch_sub : (s.modLaunch l f).sub = s.sub := rfl
@[simp] theorem State.modLaunch_l2Ways : (s.modLaunch l f).l2Ways = s.l2Ways := rfl
@[simp] theorem State.modLaunch_keyGen : (s.modLaunch l f).keyGen = s.keyGen := rfl
@[simp] theorem State.modLaunch_lineGen : (s.modLaunch l f).lineGen = s.lineGen := rfl
@[simp] theorem State.modLaunch_reloaded : (s.modLaunch l f).reloaded = s.reloaded := rfl

end

/-! ### modCtx -/

section
variable (s : State) (c : Nat) (f : Ctx → Ctx)

@[simp] theorem State.modCtx_tick : (s.modCtx c f).tick = s.tick := rfl
@[simp] theorem State.modCtx_serial : (s.modCtx c f).serial = s.serial := rfl
@[simp] theorem State.modCtx_names : (s.modCtx c f).names = s.names := rfl
@[simp] theorem State.modCtx_free : (s.modCtx c f).free = s.free := rfl
@[simp] theorem State.modCtx_calendar : (s.modCtx c f).calendar = s.calendar := rfl
@[simp] theorem State.modCtx_cur : (s.modCtx c f).cur = s.cur := rfl
@[simp] theorem State.modCtx_slicePtr : (s.modCtx c f).slicePtr = s.slicePtr := rfl
@[simp] theorem State.modCtx_slices : (s.modCtx c f).slices = s.slices := rfl
@[simp] theorem State.modCtx_warps : (s.modCtx c f).warps = s.warps := rfl
@[simp] theorem State.modCtx_wgs : (s.modCtx c f).wgs = s.wgs := rfl
@[simp] theorem State.modCtx_launches : (s.modCtx c f).launches = s.launches := rfl
@[simp] theorem State.modCtx_cores : (s.modCtx c f).cores = s.cores := rfl
@[simp] theorem State.modCtx_hbm : (s.modCtx c f).hbm = s.hbm := rfl
@[simp] theorem State.modCtx_l2 : (s.modCtx c f).l2 = s.l2 := rfl
@[simp] theorem State.modCtx_l1 : (s.modCtx c f).l1 = s.l1 := rfl
@[simp] theorem State.modCtx_poisoned : (s.modCtx c f).poisoned = s.poisoned := rfl
@[simp] theorem State.modCtx_frames : (s.modCtx c f).frames = s.frames := rfl
@[simp] theorem State.modCtx_ages : (s.modCtx c f).ages = s.ages := rfl
@[simp] theorem State.modCtx_pinned : (s.modCtx c f).pinned = s.pinned := rfl
@[simp] theorem State.modCtx_gen : (s.modCtx c f).gen = s.gen := rfl
@[simp] theorem State.modCtx_parts : (s.modCtx c f).parts = s.parts := rfl
@[simp] theorem State.modCtx_queues : (s.modCtx c f).queues = s.queues := rfl
@[simp] theorem State.modCtx_zeroing : (s.modCtx c f).zeroing = s.zeroing := rfl
@[simp] theorem State.modCtx_saves : (s.modCtx c f).saves = s.saves := rfl
@[simp] theorem State.modCtx_qsel : (s.modCtx c f).qsel = s.qsel := rfl
@[simp] theorem State.modCtx_qbase : (s.modCtx c f).qbase = s.qbase := rfl
@[simp] theorem State.modCtx_qpriv0 : (s.modCtx c f).qpriv0 = s.qpriv0 := rfl
@[simp] theorem State.modCtx_qpriv1 : (s.modCtx c f).qpriv1 = s.qpriv1 := rfl
@[simp] theorem State.modCtx_wdog : (s.modCtx c f).wdog = s.wdog := rfl
@[simp] theorem State.modCtx_ctxsel : (s.modCtx c f).ctxsel = s.ctxsel := rfl
@[simp] theorem State.modCtx_ringsel : (s.modCtx c f).ringsel = s.ringsel := rfl
@[simp] theorem State.modCtx_attreq : (s.modCtx c f).attreq = s.attreq := rfl
@[simp] theorem State.modCtx_attBusy : (s.modCtx c f).attBusy = s.attBusy := rfl
@[simp] theorem State.modCtx_attDone : (s.modCtx c f).attDone = s.attDone := rfl
@[simp] theorem State.modCtx_ptbase : (s.modCtx c f).ptbase = s.ptbase := rfl
@[simp] theorem State.modCtx_plast : (s.modCtx c f).plast = s.plast := rfl
@[simp] theorem State.modCtx_pbusy : (s.modCtx c f).pbusy = s.pbusy := rfl
@[simp] theorem State.modCtx_perr : (s.modCtx c f).perr = s.perr := rfl
@[simp] theorem State.modCtx_keysHeld : (s.modCtx c f).keysHeld = s.keysHeld := rfl
@[simp] theorem State.modCtx_keys : (s.modCtx c f).keys = s.keys := rfl
@[simp] theorem State.modCtx_tscl : (s.modCtx c f).tscl = s.tscl := rfl
@[simp] theorem State.modCtx_tsEn : (s.modCtx c f).tsEn = s.tsEn := rfl
@[simp] theorem State.modCtx_tslend : (s.modCtx c f).tslend = s.tslend := rfl
@[simp] theorem State.modCtx_tsRunning : (s.modCtx c f).tsRunning = s.tsRunning := rfl
@[simp] theorem State.modCtx_tsslots : (s.modCtx c f).tsslots = s.tsslots := rfl
@[simp] theorem State.modCtx_tsEpoch : (s.modCtx c f).tsEpoch = s.tsEpoch := rfl
@[simp] theorem State.modCtx_tsSlot : (s.modCtx c f).tsSlot = s.tsSlot := rfl
@[simp] theorem State.modCtx_tsStart : (s.modCtx c f).tsStart = s.tsStart := rfl
@[simp] theorem State.modCtx_stoptick : (s.modCtx c f).stoptick = s.stoptick := rfl
@[simp] theorem State.modCtx_stopArm : (s.modCtx c f).stopArm = s.stopArm := rfl
@[simp] theorem State.modCtx_stopped : (s.modCtx c f).stopped = s.stopped := rfl
@[simp] theorem State.modCtx_begun : (s.modCtx c f).begun = s.begun := rfl
@[simp] theorem State.modCtx_slewAt : (s.modCtx c f).slewAt = s.slewAt := rfl
@[simp] theorem State.modCtx_holdTick : (s.modCtx c f).holdTick = s.holdTick := rfl
@[simp] theorem State.modCtx_fabid : (s.modCtx c f).fabid = s.fabid := rfl
@[simp] theorem State.modCtx_portsel : (s.modCtx c f).portsel = s.portsel := rfl
@[simp] theorem State.modCtx_peersel : (s.modCtx c f).peersel = s.peersel := rfl
@[simp] theorem State.modCtx_ports : (s.modCtx c f).ports = s.ports := rfl
@[simp] theorem State.modCtx_paths : (s.modCtx c f).paths = s.paths := rfl
@[simp] theorem State.modCtx_remap : (s.modCtx c f).remap = s.remap := rfl
@[simp] theorem State.modCtx_lost : (s.modCtx c f).lost = s.lost := rfl
@[simp] theorem State.modCtx_memCtx : (s.modCtx c f).memCtx = s.memCtx := rfl
@[simp] theorem State.modCtx_l2Misses : (s.modCtx c f).l2Misses = s.l2Misses := rfl
@[simp] theorem State.modCtx_work : (s.modCtx c f).work = s.work := rfl
@[simp] theorem State.modCtx_hbmMoves : (s.modCtx c f).hbmMoves = s.hbmMoves := rfl
@[simp] theorem State.modCtx_flitsAt : (s.modCtx c f).flitsAt = s.flitsAt := rfl
@[simp] theorem State.modCtx_estimates : (s.modCtx c f).estimates = s.estimates := rfl
@[simp] theorem State.modCtx_written : (s.modCtx c f).written = s.written := rfl
@[simp] theorem State.modCtx_timingFrom : (s.modCtx c f).timingFrom = s.timingFrom := rfl
@[simp] theorem State.modCtx_queries : (s.modCtx c f).queries = s.queries := rfl
@[simp] theorem State.modCtx_stalled : (s.modCtx c f).stalled = s.stalled := rfl
@[simp] theorem State.modCtx_seqs : (s.modCtx c f).seqs = s.seqs := rfl
@[simp] theorem State.modCtx_sent : (s.modCtx c f).sent = s.sent := rfl
@[simp] theorem State.modCtx_unsent : (s.modCtx c f).unsent = s.unsent := rfl
@[simp] theorem State.modCtx_busyHold : (s.modCtx c f).busyHold = s.busyHold := rfl
@[simp] theorem State.modCtx_settling : (s.modCtx c f).settling = s.settling := rfl
@[simp] theorem State.modCtx_lastseq : (s.modCtx c f).lastseq = s.lastseq := rfl
@[simp] theorem State.modCtx_records : (s.modCtx c f).records = s.records := rfl
@[simp] theorem State.modCtx_busyEnd : (s.modCtx c f).busyEnd = s.busyEnd := rfl
@[simp] theorem State.modCtx_keysOut : (s.modCtx c f).keysOut = s.keysOut := rfl
@[simp] theorem State.modCtx_fabOut : (s.modCtx c f).fabOut = s.fabOut := rfl
@[simp] theorem State.modCtx_hocpOut : (s.modCtx c f).hocpOut = s.hocpOut := rfl
@[simp] theorem State.modCtx_collIn : (s.modCtx c f).collIn = s.collIn := rfl
@[simp] theorem State.modCtx_sysReqs : (s.modCtx c f).sysReqs = s.sysReqs := rfl
@[simp] theorem State.modCtx_pwrsel : (s.modCtx c f).pwrsel = s.pwrsel := rfl
@[simp] theorem State.modCtx_pwrcap : (s.modCtx c f).pwrcap = s.pwrcap := rfl
@[simp] theorem State.modCtx_capActs : (s.modCtx c f).capActs = s.capActs := rfl
@[simp] theorem State.modCtx_calmUs : (s.modCtx c f).calmUs = s.calmUs := rfl
@[simp] theorem State.modCtx_clusters : (s.modCtx c f).clusters = s.clusters := rfl
@[simp] theorem State.modCtx_refits : (s.modCtx c f).refits = s.refits := rfl
@[simp] theorem State.modCtx_slots : (s.modCtx c f).slots = s.slots := rfl
@[simp] theorem State.modCtx_flash : (s.modCtx c f).flash = s.flash := rfl
@[simp] theorem State.modCtx_fuseSvn : (s.modCtx c f).fuseSvn = s.fuseSvn := rfl
@[simp] theorem State.modCtx_recovery : (s.modCtx c f).recovery = s.recovery := rfl
@[simp] theorem State.modCtx_staged : (s.modCtx c f).staged = s.staged := rfl
@[simp] theorem State.modCtx_running : (s.modCtx c f).running = s.running := rfl
@[simp] theorem State.modCtx_up : (s.modCtx c f).up = s.up := rfl
@[simp] theorem State.modCtx_time : (s.modCtx c f).time = s.time := rfl
@[simp] theorem State.modCtx_sub : (s.modCtx c f).sub = s.sub := rfl
@[simp] theorem State.modCtx_l2Ways : (s.modCtx c f).l2Ways = s.l2Ways := rfl
@[simp] theorem State.modCtx_keyGen : (s.modCtx c f).keyGen = s.keyGen := rfl
@[simp] theorem State.modCtx_lineGen : (s.modCtx c f).lineGen = s.lineGen := rfl
@[simp] theorem State.modCtx_reloaded : (s.modCtx c f).reloaded = s.reloaded := rfl

end

/-! ### modPart -/

section
variable (s : State) (p : Nat) (f : Part → Part)

@[simp] theorem State.modPart_tick : (s.modPart p f).tick = s.tick := rfl
@[simp] theorem State.modPart_serial : (s.modPart p f).serial = s.serial := rfl
@[simp] theorem State.modPart_names : (s.modPart p f).names = s.names := rfl
@[simp] theorem State.modPart_free : (s.modPart p f).free = s.free := rfl
@[simp] theorem State.modPart_calendar : (s.modPart p f).calendar = s.calendar := rfl
@[simp] theorem State.modPart_cur : (s.modPart p f).cur = s.cur := rfl
@[simp] theorem State.modPart_slicePtr : (s.modPart p f).slicePtr = s.slicePtr := rfl
@[simp] theorem State.modPart_slices : (s.modPart p f).slices = s.slices := rfl
@[simp] theorem State.modPart_warps : (s.modPart p f).warps = s.warps := rfl
@[simp] theorem State.modPart_wgs : (s.modPart p f).wgs = s.wgs := rfl
@[simp] theorem State.modPart_launches : (s.modPart p f).launches = s.launches := rfl
@[simp] theorem State.modPart_cores : (s.modPart p f).cores = s.cores := rfl
@[simp] theorem State.modPart_hbm : (s.modPart p f).hbm = s.hbm := rfl
@[simp] theorem State.modPart_l2 : (s.modPart p f).l2 = s.l2 := rfl
@[simp] theorem State.modPart_l1 : (s.modPart p f).l1 = s.l1 := rfl
@[simp] theorem State.modPart_poisoned : (s.modPart p f).poisoned = s.poisoned := rfl
@[simp] theorem State.modPart_frames : (s.modPart p f).frames = s.frames := rfl
@[simp] theorem State.modPart_ages : (s.modPart p f).ages = s.ages := rfl
@[simp] theorem State.modPart_pinned : (s.modPart p f).pinned = s.pinned := rfl
@[simp] theorem State.modPart_gen : (s.modPart p f).gen = s.gen := rfl
@[simp] theorem State.modPart_ctxs : (s.modPart p f).ctxs = s.ctxs := rfl
@[simp] theorem State.modPart_queues : (s.modPart p f).queues = s.queues := rfl
@[simp] theorem State.modPart_zeroing : (s.modPart p f).zeroing = s.zeroing := rfl
@[simp] theorem State.modPart_saves : (s.modPart p f).saves = s.saves := rfl
@[simp] theorem State.modPart_qsel : (s.modPart p f).qsel = s.qsel := rfl
@[simp] theorem State.modPart_qbase : (s.modPart p f).qbase = s.qbase := rfl
@[simp] theorem State.modPart_qpriv0 : (s.modPart p f).qpriv0 = s.qpriv0 := rfl
@[simp] theorem State.modPart_qpriv1 : (s.modPart p f).qpriv1 = s.qpriv1 := rfl
@[simp] theorem State.modPart_wdog : (s.modPart p f).wdog = s.wdog := rfl
@[simp] theorem State.modPart_ctxsel : (s.modPart p f).ctxsel = s.ctxsel := rfl
@[simp] theorem State.modPart_ringsel : (s.modPart p f).ringsel = s.ringsel := rfl
@[simp] theorem State.modPart_attreq : (s.modPart p f).attreq = s.attreq := rfl
@[simp] theorem State.modPart_attBusy : (s.modPart p f).attBusy = s.attBusy := rfl
@[simp] theorem State.modPart_attDone : (s.modPart p f).attDone = s.attDone := rfl
@[simp] theorem State.modPart_ptbase : (s.modPart p f).ptbase = s.ptbase := rfl
@[simp] theorem State.modPart_plast : (s.modPart p f).plast = s.plast := rfl
@[simp] theorem State.modPart_pbusy : (s.modPart p f).pbusy = s.pbusy := rfl
@[simp] theorem State.modPart_perr : (s.modPart p f).perr = s.perr := rfl
@[simp] theorem State.modPart_keysHeld : (s.modPart p f).keysHeld = s.keysHeld := rfl
@[simp] theorem State.modPart_keys : (s.modPart p f).keys = s.keys := rfl
@[simp] theorem State.modPart_tscl : (s.modPart p f).tscl = s.tscl := rfl
@[simp] theorem State.modPart_tsEn : (s.modPart p f).tsEn = s.tsEn := rfl
@[simp] theorem State.modPart_tslend : (s.modPart p f).tslend = s.tslend := rfl
@[simp] theorem State.modPart_tsRunning : (s.modPart p f).tsRunning = s.tsRunning := rfl
@[simp] theorem State.modPart_tsslots : (s.modPart p f).tsslots = s.tsslots := rfl
@[simp] theorem State.modPart_tsEpoch : (s.modPart p f).tsEpoch = s.tsEpoch := rfl
@[simp] theorem State.modPart_tsSlot : (s.modPart p f).tsSlot = s.tsSlot := rfl
@[simp] theorem State.modPart_tsStart : (s.modPart p f).tsStart = s.tsStart := rfl
@[simp] theorem State.modPart_stoptick : (s.modPart p f).stoptick = s.stoptick := rfl
@[simp] theorem State.modPart_stopArm : (s.modPart p f).stopArm = s.stopArm := rfl
@[simp] theorem State.modPart_stopped : (s.modPart p f).stopped = s.stopped := rfl
@[simp] theorem State.modPart_begun : (s.modPart p f).begun = s.begun := rfl
@[simp] theorem State.modPart_slewAt : (s.modPart p f).slewAt = s.slewAt := rfl
@[simp] theorem State.modPart_holdTick : (s.modPart p f).holdTick = s.holdTick := rfl
@[simp] theorem State.modPart_fabid : (s.modPart p f).fabid = s.fabid := rfl
@[simp] theorem State.modPart_portsel : (s.modPart p f).portsel = s.portsel := rfl
@[simp] theorem State.modPart_peersel : (s.modPart p f).peersel = s.peersel := rfl
@[simp] theorem State.modPart_ports : (s.modPart p f).ports = s.ports := rfl
@[simp] theorem State.modPart_paths : (s.modPart p f).paths = s.paths := rfl
@[simp] theorem State.modPart_remap : (s.modPart p f).remap = s.remap := rfl
@[simp] theorem State.modPart_lost : (s.modPart p f).lost = s.lost := rfl
@[simp] theorem State.modPart_memCtx : (s.modPart p f).memCtx = s.memCtx := rfl
@[simp] theorem State.modPart_l2Misses : (s.modPart p f).l2Misses = s.l2Misses := rfl
@[simp] theorem State.modPart_work : (s.modPart p f).work = s.work := rfl
@[simp] theorem State.modPart_hbmMoves : (s.modPart p f).hbmMoves = s.hbmMoves := rfl
@[simp] theorem State.modPart_flitsAt : (s.modPart p f).flitsAt = s.flitsAt := rfl
@[simp] theorem State.modPart_estimates : (s.modPart p f).estimates = s.estimates := rfl
@[simp] theorem State.modPart_written : (s.modPart p f).written = s.written := rfl
@[simp] theorem State.modPart_timingFrom : (s.modPart p f).timingFrom = s.timingFrom := rfl
@[simp] theorem State.modPart_queries : (s.modPart p f).queries = s.queries := rfl
@[simp] theorem State.modPart_stalled : (s.modPart p f).stalled = s.stalled := rfl
@[simp] theorem State.modPart_seqs : (s.modPart p f).seqs = s.seqs := rfl
@[simp] theorem State.modPart_sent : (s.modPart p f).sent = s.sent := rfl
@[simp] theorem State.modPart_unsent : (s.modPart p f).unsent = s.unsent := rfl
@[simp] theorem State.modPart_busyHold : (s.modPart p f).busyHold = s.busyHold := rfl
@[simp] theorem State.modPart_settling : (s.modPart p f).settling = s.settling := rfl
@[simp] theorem State.modPart_lastseq : (s.modPart p f).lastseq = s.lastseq := rfl
@[simp] theorem State.modPart_records : (s.modPart p f).records = s.records := rfl
@[simp] theorem State.modPart_busyEnd : (s.modPart p f).busyEnd = s.busyEnd := rfl
@[simp] theorem State.modPart_keysOut : (s.modPart p f).keysOut = s.keysOut := rfl
@[simp] theorem State.modPart_fabOut : (s.modPart p f).fabOut = s.fabOut := rfl
@[simp] theorem State.modPart_hocpOut : (s.modPart p f).hocpOut = s.hocpOut := rfl
@[simp] theorem State.modPart_collIn : (s.modPart p f).collIn = s.collIn := rfl
@[simp] theorem State.modPart_sysReqs : (s.modPart p f).sysReqs = s.sysReqs := rfl
@[simp] theorem State.modPart_pwrsel : (s.modPart p f).pwrsel = s.pwrsel := rfl
@[simp] theorem State.modPart_pwrcap : (s.modPart p f).pwrcap = s.pwrcap := rfl
@[simp] theorem State.modPart_capActs : (s.modPart p f).capActs = s.capActs := rfl
@[simp] theorem State.modPart_calmUs : (s.modPart p f).calmUs = s.calmUs := rfl
@[simp] theorem State.modPart_clusters : (s.modPart p f).clusters = s.clusters := rfl
@[simp] theorem State.modPart_refits : (s.modPart p f).refits = s.refits := rfl
@[simp] theorem State.modPart_slots : (s.modPart p f).slots = s.slots := rfl
@[simp] theorem State.modPart_flash : (s.modPart p f).flash = s.flash := rfl
@[simp] theorem State.modPart_fuseSvn : (s.modPart p f).fuseSvn = s.fuseSvn := rfl
@[simp] theorem State.modPart_recovery : (s.modPart p f).recovery = s.recovery := rfl
@[simp] theorem State.modPart_staged : (s.modPart p f).staged = s.staged := rfl
@[simp] theorem State.modPart_running : (s.modPart p f).running = s.running := rfl
@[simp] theorem State.modPart_up : (s.modPart p f).up = s.up := rfl
@[simp] theorem State.modPart_time : (s.modPart p f).time = s.time := rfl
@[simp] theorem State.modPart_sub : (s.modPart p f).sub = s.sub := rfl
@[simp] theorem State.modPart_l2Ways : (s.modPart p f).l2Ways = s.l2Ways := rfl
@[simp] theorem State.modPart_keyGen : (s.modPart p f).keyGen = s.keyGen := rfl
@[simp] theorem State.modPart_lineGen : (s.modPart p f).lineGen = s.lineGen := rfl
@[simp] theorem State.modPart_reloaded : (s.modPart p f).reloaded = s.reloaded := rfl

end

/-! ### modQueue -/

section
variable (s : State) (q : Nat) (f : Queue → Queue)

@[simp] theorem State.modQueue_tick : (s.modQueue q f).tick = s.tick := rfl
@[simp] theorem State.modQueue_serial : (s.modQueue q f).serial = s.serial := rfl
@[simp] theorem State.modQueue_names : (s.modQueue q f).names = s.names := rfl
@[simp] theorem State.modQueue_free : (s.modQueue q f).free = s.free := rfl
@[simp] theorem State.modQueue_calendar : (s.modQueue q f).calendar = s.calendar := rfl
@[simp] theorem State.modQueue_cur : (s.modQueue q f).cur = s.cur := rfl
@[simp] theorem State.modQueue_slicePtr : (s.modQueue q f).slicePtr = s.slicePtr := rfl
@[simp] theorem State.modQueue_slices : (s.modQueue q f).slices = s.slices := rfl
@[simp] theorem State.modQueue_warps : (s.modQueue q f).warps = s.warps := rfl
@[simp] theorem State.modQueue_wgs : (s.modQueue q f).wgs = s.wgs := rfl
@[simp] theorem State.modQueue_launches : (s.modQueue q f).launches = s.launches := rfl
@[simp] theorem State.modQueue_cores : (s.modQueue q f).cores = s.cores := rfl
@[simp] theorem State.modQueue_hbm : (s.modQueue q f).hbm = s.hbm := rfl
@[simp] theorem State.modQueue_l2 : (s.modQueue q f).l2 = s.l2 := rfl
@[simp] theorem State.modQueue_l1 : (s.modQueue q f).l1 = s.l1 := rfl
@[simp] theorem State.modQueue_poisoned : (s.modQueue q f).poisoned = s.poisoned := rfl
@[simp] theorem State.modQueue_frames : (s.modQueue q f).frames = s.frames := rfl
@[simp] theorem State.modQueue_ages : (s.modQueue q f).ages = s.ages := rfl
@[simp] theorem State.modQueue_pinned : (s.modQueue q f).pinned = s.pinned := rfl
@[simp] theorem State.modQueue_gen : (s.modQueue q f).gen = s.gen := rfl
@[simp] theorem State.modQueue_ctxs : (s.modQueue q f).ctxs = s.ctxs := rfl
@[simp] theorem State.modQueue_parts : (s.modQueue q f).parts = s.parts := rfl
@[simp] theorem State.modQueue_zeroing : (s.modQueue q f).zeroing = s.zeroing := rfl
@[simp] theorem State.modQueue_saves : (s.modQueue q f).saves = s.saves := rfl
@[simp] theorem State.modQueue_qsel : (s.modQueue q f).qsel = s.qsel := rfl
@[simp] theorem State.modQueue_qbase : (s.modQueue q f).qbase = s.qbase := rfl
@[simp] theorem State.modQueue_qpriv0 : (s.modQueue q f).qpriv0 = s.qpriv0 := rfl
@[simp] theorem State.modQueue_qpriv1 : (s.modQueue q f).qpriv1 = s.qpriv1 := rfl
@[simp] theorem State.modQueue_wdog : (s.modQueue q f).wdog = s.wdog := rfl
@[simp] theorem State.modQueue_ctxsel : (s.modQueue q f).ctxsel = s.ctxsel := rfl
@[simp] theorem State.modQueue_ringsel : (s.modQueue q f).ringsel = s.ringsel := rfl
@[simp] theorem State.modQueue_attreq : (s.modQueue q f).attreq = s.attreq := rfl
@[simp] theorem State.modQueue_attBusy : (s.modQueue q f).attBusy = s.attBusy := rfl
@[simp] theorem State.modQueue_attDone : (s.modQueue q f).attDone = s.attDone := rfl
@[simp] theorem State.modQueue_ptbase : (s.modQueue q f).ptbase = s.ptbase := rfl
@[simp] theorem State.modQueue_plast : (s.modQueue q f).plast = s.plast := rfl
@[simp] theorem State.modQueue_pbusy : (s.modQueue q f).pbusy = s.pbusy := rfl
@[simp] theorem State.modQueue_perr : (s.modQueue q f).perr = s.perr := rfl
@[simp] theorem State.modQueue_keysHeld : (s.modQueue q f).keysHeld = s.keysHeld := rfl
@[simp] theorem State.modQueue_keys : (s.modQueue q f).keys = s.keys := rfl
@[simp] theorem State.modQueue_tscl : (s.modQueue q f).tscl = s.tscl := rfl
@[simp] theorem State.modQueue_tsEn : (s.modQueue q f).tsEn = s.tsEn := rfl
@[simp] theorem State.modQueue_tslend : (s.modQueue q f).tslend = s.tslend := rfl
@[simp] theorem State.modQueue_tsRunning : (s.modQueue q f).tsRunning = s.tsRunning := rfl
@[simp] theorem State.modQueue_tsslots : (s.modQueue q f).tsslots = s.tsslots := rfl
@[simp] theorem State.modQueue_tsEpoch : (s.modQueue q f).tsEpoch = s.tsEpoch := rfl
@[simp] theorem State.modQueue_tsSlot : (s.modQueue q f).tsSlot = s.tsSlot := rfl
@[simp] theorem State.modQueue_tsStart : (s.modQueue q f).tsStart = s.tsStart := rfl
@[simp] theorem State.modQueue_stoptick : (s.modQueue q f).stoptick = s.stoptick := rfl
@[simp] theorem State.modQueue_stopArm : (s.modQueue q f).stopArm = s.stopArm := rfl
@[simp] theorem State.modQueue_stopped : (s.modQueue q f).stopped = s.stopped := rfl
@[simp] theorem State.modQueue_begun : (s.modQueue q f).begun = s.begun := rfl
@[simp] theorem State.modQueue_slewAt : (s.modQueue q f).slewAt = s.slewAt := rfl
@[simp] theorem State.modQueue_holdTick : (s.modQueue q f).holdTick = s.holdTick := rfl
@[simp] theorem State.modQueue_fabid : (s.modQueue q f).fabid = s.fabid := rfl
@[simp] theorem State.modQueue_portsel : (s.modQueue q f).portsel = s.portsel := rfl
@[simp] theorem State.modQueue_peersel : (s.modQueue q f).peersel = s.peersel := rfl
@[simp] theorem State.modQueue_ports : (s.modQueue q f).ports = s.ports := rfl
@[simp] theorem State.modQueue_paths : (s.modQueue q f).paths = s.paths := rfl
@[simp] theorem State.modQueue_remap : (s.modQueue q f).remap = s.remap := rfl
@[simp] theorem State.modQueue_lost : (s.modQueue q f).lost = s.lost := rfl
@[simp] theorem State.modQueue_memCtx : (s.modQueue q f).memCtx = s.memCtx := rfl
@[simp] theorem State.modQueue_l2Misses : (s.modQueue q f).l2Misses = s.l2Misses := rfl
@[simp] theorem State.modQueue_work : (s.modQueue q f).work = s.work := rfl
@[simp] theorem State.modQueue_hbmMoves : (s.modQueue q f).hbmMoves = s.hbmMoves := rfl
@[simp] theorem State.modQueue_flitsAt : (s.modQueue q f).flitsAt = s.flitsAt := rfl
@[simp] theorem State.modQueue_estimates : (s.modQueue q f).estimates = s.estimates := rfl
@[simp] theorem State.modQueue_written : (s.modQueue q f).written = s.written := rfl
@[simp] theorem State.modQueue_timingFrom : (s.modQueue q f).timingFrom = s.timingFrom := rfl
@[simp] theorem State.modQueue_queries : (s.modQueue q f).queries = s.queries := rfl
@[simp] theorem State.modQueue_stalled : (s.modQueue q f).stalled = s.stalled := rfl
@[simp] theorem State.modQueue_seqs : (s.modQueue q f).seqs = s.seqs := rfl
@[simp] theorem State.modQueue_sent : (s.modQueue q f).sent = s.sent := rfl
@[simp] theorem State.modQueue_unsent : (s.modQueue q f).unsent = s.unsent := rfl
@[simp] theorem State.modQueue_busyHold : (s.modQueue q f).busyHold = s.busyHold := rfl
@[simp] theorem State.modQueue_settling : (s.modQueue q f).settling = s.settling := rfl
@[simp] theorem State.modQueue_lastseq : (s.modQueue q f).lastseq = s.lastseq := rfl
@[simp] theorem State.modQueue_records : (s.modQueue q f).records = s.records := rfl
@[simp] theorem State.modQueue_busyEnd : (s.modQueue q f).busyEnd = s.busyEnd := rfl
@[simp] theorem State.modQueue_keysOut : (s.modQueue q f).keysOut = s.keysOut := rfl
@[simp] theorem State.modQueue_fabOut : (s.modQueue q f).fabOut = s.fabOut := rfl
@[simp] theorem State.modQueue_hocpOut : (s.modQueue q f).hocpOut = s.hocpOut := rfl
@[simp] theorem State.modQueue_collIn : (s.modQueue q f).collIn = s.collIn := rfl
@[simp] theorem State.modQueue_sysReqs : (s.modQueue q f).sysReqs = s.sysReqs := rfl
@[simp] theorem State.modQueue_pwrsel : (s.modQueue q f).pwrsel = s.pwrsel := rfl
@[simp] theorem State.modQueue_pwrcap : (s.modQueue q f).pwrcap = s.pwrcap := rfl
@[simp] theorem State.modQueue_capActs : (s.modQueue q f).capActs = s.capActs := rfl
@[simp] theorem State.modQueue_calmUs : (s.modQueue q f).calmUs = s.calmUs := rfl
@[simp] theorem State.modQueue_clusters : (s.modQueue q f).clusters = s.clusters := rfl
@[simp] theorem State.modQueue_refits : (s.modQueue q f).refits = s.refits := rfl
@[simp] theorem State.modQueue_slots : (s.modQueue q f).slots = s.slots := rfl
@[simp] theorem State.modQueue_flash : (s.modQueue q f).flash = s.flash := rfl
@[simp] theorem State.modQueue_fuseSvn : (s.modQueue q f).fuseSvn = s.fuseSvn := rfl
@[simp] theorem State.modQueue_recovery : (s.modQueue q f).recovery = s.recovery := rfl
@[simp] theorem State.modQueue_staged : (s.modQueue q f).staged = s.staged := rfl
@[simp] theorem State.modQueue_running : (s.modQueue q f).running = s.running := rfl
@[simp] theorem State.modQueue_up : (s.modQueue q f).up = s.up := rfl
@[simp] theorem State.modQueue_time : (s.modQueue q f).time = s.time := rfl
@[simp] theorem State.modQueue_sub : (s.modQueue q f).sub = s.sub := rfl
@[simp] theorem State.modQueue_l2Ways : (s.modQueue q f).l2Ways = s.l2Ways := rfl
@[simp] theorem State.modQueue_keyGen : (s.modQueue q f).keyGen = s.keyGen := rfl
@[simp] theorem State.modQueue_lineGen : (s.modQueue q f).lineGen = s.lineGen := rfl
@[simp] theorem State.modQueue_reloaded : (s.modQueue q f).reloaded = s.reloaded := rfl

end

/-! ### modPort -/

section
variable (s : State) (p : Nat) (f : Port → Port)

@[simp] theorem State.modPort_tick : (s.modPort p f).tick = s.tick := rfl
@[simp] theorem State.modPort_serial : (s.modPort p f).serial = s.serial := rfl
@[simp] theorem State.modPort_names : (s.modPort p f).names = s.names := rfl
@[simp] theorem State.modPort_free : (s.modPort p f).free = s.free := rfl
@[simp] theorem State.modPort_calendar : (s.modPort p f).calendar = s.calendar := rfl
@[simp] theorem State.modPort_cur : (s.modPort p f).cur = s.cur := rfl
@[simp] theorem State.modPort_slicePtr : (s.modPort p f).slicePtr = s.slicePtr := rfl
@[simp] theorem State.modPort_slices : (s.modPort p f).slices = s.slices := rfl
@[simp] theorem State.modPort_warps : (s.modPort p f).warps = s.warps := rfl
@[simp] theorem State.modPort_wgs : (s.modPort p f).wgs = s.wgs := rfl
@[simp] theorem State.modPort_launches : (s.modPort p f).launches = s.launches := rfl
@[simp] theorem State.modPort_cores : (s.modPort p f).cores = s.cores := rfl
@[simp] theorem State.modPort_hbm : (s.modPort p f).hbm = s.hbm := rfl
@[simp] theorem State.modPort_l2 : (s.modPort p f).l2 = s.l2 := rfl
@[simp] theorem State.modPort_l1 : (s.modPort p f).l1 = s.l1 := rfl
@[simp] theorem State.modPort_poisoned : (s.modPort p f).poisoned = s.poisoned := rfl
@[simp] theorem State.modPort_frames : (s.modPort p f).frames = s.frames := rfl
@[simp] theorem State.modPort_ages : (s.modPort p f).ages = s.ages := rfl
@[simp] theorem State.modPort_pinned : (s.modPort p f).pinned = s.pinned := rfl
@[simp] theorem State.modPort_gen : (s.modPort p f).gen = s.gen := rfl
@[simp] theorem State.modPort_ctxs : (s.modPort p f).ctxs = s.ctxs := rfl
@[simp] theorem State.modPort_parts : (s.modPort p f).parts = s.parts := rfl
@[simp] theorem State.modPort_queues : (s.modPort p f).queues = s.queues := rfl
@[simp] theorem State.modPort_zeroing : (s.modPort p f).zeroing = s.zeroing := rfl
@[simp] theorem State.modPort_saves : (s.modPort p f).saves = s.saves := rfl
@[simp] theorem State.modPort_qsel : (s.modPort p f).qsel = s.qsel := rfl
@[simp] theorem State.modPort_qbase : (s.modPort p f).qbase = s.qbase := rfl
@[simp] theorem State.modPort_qpriv0 : (s.modPort p f).qpriv0 = s.qpriv0 := rfl
@[simp] theorem State.modPort_qpriv1 : (s.modPort p f).qpriv1 = s.qpriv1 := rfl
@[simp] theorem State.modPort_wdog : (s.modPort p f).wdog = s.wdog := rfl
@[simp] theorem State.modPort_ctxsel : (s.modPort p f).ctxsel = s.ctxsel := rfl
@[simp] theorem State.modPort_ringsel : (s.modPort p f).ringsel = s.ringsel := rfl
@[simp] theorem State.modPort_attreq : (s.modPort p f).attreq = s.attreq := rfl
@[simp] theorem State.modPort_attBusy : (s.modPort p f).attBusy = s.attBusy := rfl
@[simp] theorem State.modPort_attDone : (s.modPort p f).attDone = s.attDone := rfl
@[simp] theorem State.modPort_ptbase : (s.modPort p f).ptbase = s.ptbase := rfl
@[simp] theorem State.modPort_plast : (s.modPort p f).plast = s.plast := rfl
@[simp] theorem State.modPort_pbusy : (s.modPort p f).pbusy = s.pbusy := rfl
@[simp] theorem State.modPort_perr : (s.modPort p f).perr = s.perr := rfl
@[simp] theorem State.modPort_keysHeld : (s.modPort p f).keysHeld = s.keysHeld := rfl
@[simp] theorem State.modPort_keys : (s.modPort p f).keys = s.keys := rfl
@[simp] theorem State.modPort_tscl : (s.modPort p f).tscl = s.tscl := rfl
@[simp] theorem State.modPort_tsEn : (s.modPort p f).tsEn = s.tsEn := rfl
@[simp] theorem State.modPort_tslend : (s.modPort p f).tslend = s.tslend := rfl
@[simp] theorem State.modPort_tsRunning : (s.modPort p f).tsRunning = s.tsRunning := rfl
@[simp] theorem State.modPort_tsslots : (s.modPort p f).tsslots = s.tsslots := rfl
@[simp] theorem State.modPort_tsEpoch : (s.modPort p f).tsEpoch = s.tsEpoch := rfl
@[simp] theorem State.modPort_tsSlot : (s.modPort p f).tsSlot = s.tsSlot := rfl
@[simp] theorem State.modPort_tsStart : (s.modPort p f).tsStart = s.tsStart := rfl
@[simp] theorem State.modPort_stoptick : (s.modPort p f).stoptick = s.stoptick := rfl
@[simp] theorem State.modPort_stopArm : (s.modPort p f).stopArm = s.stopArm := rfl
@[simp] theorem State.modPort_stopped : (s.modPort p f).stopped = s.stopped := rfl
@[simp] theorem State.modPort_begun : (s.modPort p f).begun = s.begun := rfl
@[simp] theorem State.modPort_slewAt : (s.modPort p f).slewAt = s.slewAt := rfl
@[simp] theorem State.modPort_holdTick : (s.modPort p f).holdTick = s.holdTick := rfl
@[simp] theorem State.modPort_fabid : (s.modPort p f).fabid = s.fabid := rfl
@[simp] theorem State.modPort_portsel : (s.modPort p f).portsel = s.portsel := rfl
@[simp] theorem State.modPort_peersel : (s.modPort p f).peersel = s.peersel := rfl
@[simp] theorem State.modPort_paths : (s.modPort p f).paths = s.paths := rfl
@[simp] theorem State.modPort_remap : (s.modPort p f).remap = s.remap := rfl
@[simp] theorem State.modPort_lost : (s.modPort p f).lost = s.lost := rfl
@[simp] theorem State.modPort_memCtx : (s.modPort p f).memCtx = s.memCtx := rfl
@[simp] theorem State.modPort_l2Misses : (s.modPort p f).l2Misses = s.l2Misses := rfl
@[simp] theorem State.modPort_work : (s.modPort p f).work = s.work := rfl
@[simp] theorem State.modPort_hbmMoves : (s.modPort p f).hbmMoves = s.hbmMoves := rfl
@[simp] theorem State.modPort_flitsAt : (s.modPort p f).flitsAt = s.flitsAt := rfl
@[simp] theorem State.modPort_estimates : (s.modPort p f).estimates = s.estimates := rfl
@[simp] theorem State.modPort_written : (s.modPort p f).written = s.written := rfl
@[simp] theorem State.modPort_timingFrom : (s.modPort p f).timingFrom = s.timingFrom := rfl
@[simp] theorem State.modPort_queries : (s.modPort p f).queries = s.queries := rfl
@[simp] theorem State.modPort_stalled : (s.modPort p f).stalled = s.stalled := rfl
@[simp] theorem State.modPort_seqs : (s.modPort p f).seqs = s.seqs := rfl
@[simp] theorem State.modPort_sent : (s.modPort p f).sent = s.sent := rfl
@[simp] theorem State.modPort_unsent : (s.modPort p f).unsent = s.unsent := rfl
@[simp] theorem State.modPort_busyHold : (s.modPort p f).busyHold = s.busyHold := rfl
@[simp] theorem State.modPort_settling : (s.modPort p f).settling = s.settling := rfl
@[simp] theorem State.modPort_lastseq : (s.modPort p f).lastseq = s.lastseq := rfl
@[simp] theorem State.modPort_records : (s.modPort p f).records = s.records := rfl
@[simp] theorem State.modPort_busyEnd : (s.modPort p f).busyEnd = s.busyEnd := rfl
@[simp] theorem State.modPort_keysOut : (s.modPort p f).keysOut = s.keysOut := rfl
@[simp] theorem State.modPort_fabOut : (s.modPort p f).fabOut = s.fabOut := rfl
@[simp] theorem State.modPort_hocpOut : (s.modPort p f).hocpOut = s.hocpOut := rfl
@[simp] theorem State.modPort_collIn : (s.modPort p f).collIn = s.collIn := rfl
@[simp] theorem State.modPort_sysReqs : (s.modPort p f).sysReqs = s.sysReqs := rfl
@[simp] theorem State.modPort_pwrsel : (s.modPort p f).pwrsel = s.pwrsel := rfl
@[simp] theorem State.modPort_pwrcap : (s.modPort p f).pwrcap = s.pwrcap := rfl
@[simp] theorem State.modPort_capActs : (s.modPort p f).capActs = s.capActs := rfl
@[simp] theorem State.modPort_calmUs : (s.modPort p f).calmUs = s.calmUs := rfl
@[simp] theorem State.modPort_clusters : (s.modPort p f).clusters = s.clusters := rfl
@[simp] theorem State.modPort_refits : (s.modPort p f).refits = s.refits := rfl
@[simp] theorem State.modPort_slots : (s.modPort p f).slots = s.slots := rfl
@[simp] theorem State.modPort_flash : (s.modPort p f).flash = s.flash := rfl
@[simp] theorem State.modPort_fuseSvn : (s.modPort p f).fuseSvn = s.fuseSvn := rfl
@[simp] theorem State.modPort_recovery : (s.modPort p f).recovery = s.recovery := rfl
@[simp] theorem State.modPort_staged : (s.modPort p f).staged = s.staged := rfl
@[simp] theorem State.modPort_running : (s.modPort p f).running = s.running := rfl
@[simp] theorem State.modPort_up : (s.modPort p f).up = s.up := rfl
@[simp] theorem State.modPort_time : (s.modPort p f).time = s.time := rfl
@[simp] theorem State.modPort_sub : (s.modPort p f).sub = s.sub := rfl
@[simp] theorem State.modPort_l2Ways : (s.modPort p f).l2Ways = s.l2Ways := rfl
@[simp] theorem State.modPort_keyGen : (s.modPort p f).keyGen = s.keyGen := rfl
@[simp] theorem State.modPort_lineGen : (s.modPort p f).lineGen = s.lineGen := rfl
@[simp] theorem State.modPort_reloaded : (s.modPort p f).reloaded = s.reloaded := rfl

end

/-! ### modCluster -/

section
variable (s : State) (c : Nat) (f : Cluster → Cluster)

@[simp] theorem State.modCluster_tick : (s.modCluster c f).tick = s.tick := rfl
@[simp] theorem State.modCluster_serial : (s.modCluster c f).serial = s.serial := rfl
@[simp] theorem State.modCluster_names : (s.modCluster c f).names = s.names := rfl
@[simp] theorem State.modCluster_free : (s.modCluster c f).free = s.free := rfl
@[simp] theorem State.modCluster_calendar : (s.modCluster c f).calendar = s.calendar := rfl
@[simp] theorem State.modCluster_cur : (s.modCluster c f).cur = s.cur := rfl
@[simp] theorem State.modCluster_slicePtr : (s.modCluster c f).slicePtr = s.slicePtr := rfl
@[simp] theorem State.modCluster_slices : (s.modCluster c f).slices = s.slices := rfl
@[simp] theorem State.modCluster_warps : (s.modCluster c f).warps = s.warps := rfl
@[simp] theorem State.modCluster_wgs : (s.modCluster c f).wgs = s.wgs := rfl
@[simp] theorem State.modCluster_launches : (s.modCluster c f).launches = s.launches := rfl
@[simp] theorem State.modCluster_cores : (s.modCluster c f).cores = s.cores := rfl
@[simp] theorem State.modCluster_hbm : (s.modCluster c f).hbm = s.hbm := rfl
@[simp] theorem State.modCluster_l2 : (s.modCluster c f).l2 = s.l2 := rfl
@[simp] theorem State.modCluster_l1 : (s.modCluster c f).l1 = s.l1 := rfl
@[simp] theorem State.modCluster_poisoned : (s.modCluster c f).poisoned = s.poisoned := rfl
@[simp] theorem State.modCluster_frames : (s.modCluster c f).frames = s.frames := rfl
@[simp] theorem State.modCluster_ages : (s.modCluster c f).ages = s.ages := rfl
@[simp] theorem State.modCluster_pinned : (s.modCluster c f).pinned = s.pinned := rfl
@[simp] theorem State.modCluster_gen : (s.modCluster c f).gen = s.gen := rfl
@[simp] theorem State.modCluster_ctxs : (s.modCluster c f).ctxs = s.ctxs := rfl
@[simp] theorem State.modCluster_parts : (s.modCluster c f).parts = s.parts := rfl
@[simp] theorem State.modCluster_queues : (s.modCluster c f).queues = s.queues := rfl
@[simp] theorem State.modCluster_zeroing : (s.modCluster c f).zeroing = s.zeroing := rfl
@[simp] theorem State.modCluster_saves : (s.modCluster c f).saves = s.saves := rfl
@[simp] theorem State.modCluster_qsel : (s.modCluster c f).qsel = s.qsel := rfl
@[simp] theorem State.modCluster_qbase : (s.modCluster c f).qbase = s.qbase := rfl
@[simp] theorem State.modCluster_qpriv0 : (s.modCluster c f).qpriv0 = s.qpriv0 := rfl
@[simp] theorem State.modCluster_qpriv1 : (s.modCluster c f).qpriv1 = s.qpriv1 := rfl
@[simp] theorem State.modCluster_wdog : (s.modCluster c f).wdog = s.wdog := rfl
@[simp] theorem State.modCluster_ctxsel : (s.modCluster c f).ctxsel = s.ctxsel := rfl
@[simp] theorem State.modCluster_ringsel : (s.modCluster c f).ringsel = s.ringsel := rfl
@[simp] theorem State.modCluster_attreq : (s.modCluster c f).attreq = s.attreq := rfl
@[simp] theorem State.modCluster_attBusy : (s.modCluster c f).attBusy = s.attBusy := rfl
@[simp] theorem State.modCluster_attDone : (s.modCluster c f).attDone = s.attDone := rfl
@[simp] theorem State.modCluster_ptbase : (s.modCluster c f).ptbase = s.ptbase := rfl
@[simp] theorem State.modCluster_plast : (s.modCluster c f).plast = s.plast := rfl
@[simp] theorem State.modCluster_pbusy : (s.modCluster c f).pbusy = s.pbusy := rfl
@[simp] theorem State.modCluster_perr : (s.modCluster c f).perr = s.perr := rfl
@[simp] theorem State.modCluster_keysHeld : (s.modCluster c f).keysHeld = s.keysHeld := rfl
@[simp] theorem State.modCluster_keys : (s.modCluster c f).keys = s.keys := rfl
@[simp] theorem State.modCluster_tscl : (s.modCluster c f).tscl = s.tscl := rfl
@[simp] theorem State.modCluster_tsEn : (s.modCluster c f).tsEn = s.tsEn := rfl
@[simp] theorem State.modCluster_tslend : (s.modCluster c f).tslend = s.tslend := rfl
@[simp] theorem State.modCluster_tsRunning : (s.modCluster c f).tsRunning = s.tsRunning := rfl
@[simp] theorem State.modCluster_tsslots : (s.modCluster c f).tsslots = s.tsslots := rfl
@[simp] theorem State.modCluster_tsEpoch : (s.modCluster c f).tsEpoch = s.tsEpoch := rfl
@[simp] theorem State.modCluster_tsSlot : (s.modCluster c f).tsSlot = s.tsSlot := rfl
@[simp] theorem State.modCluster_tsStart : (s.modCluster c f).tsStart = s.tsStart := rfl
@[simp] theorem State.modCluster_stoptick : (s.modCluster c f).stoptick = s.stoptick := rfl
@[simp] theorem State.modCluster_stopArm : (s.modCluster c f).stopArm = s.stopArm := rfl
@[simp] theorem State.modCluster_stopped : (s.modCluster c f).stopped = s.stopped := rfl
@[simp] theorem State.modCluster_begun : (s.modCluster c f).begun = s.begun := rfl
@[simp] theorem State.modCluster_slewAt : (s.modCluster c f).slewAt = s.slewAt := rfl
@[simp] theorem State.modCluster_holdTick : (s.modCluster c f).holdTick = s.holdTick := rfl
@[simp] theorem State.modCluster_fabid : (s.modCluster c f).fabid = s.fabid := rfl
@[simp] theorem State.modCluster_portsel : (s.modCluster c f).portsel = s.portsel := rfl
@[simp] theorem State.modCluster_peersel : (s.modCluster c f).peersel = s.peersel := rfl
@[simp] theorem State.modCluster_ports : (s.modCluster c f).ports = s.ports := rfl
@[simp] theorem State.modCluster_paths : (s.modCluster c f).paths = s.paths := rfl
@[simp] theorem State.modCluster_remap : (s.modCluster c f).remap = s.remap := rfl
@[simp] theorem State.modCluster_lost : (s.modCluster c f).lost = s.lost := rfl
@[simp] theorem State.modCluster_memCtx : (s.modCluster c f).memCtx = s.memCtx := rfl
@[simp] theorem State.modCluster_l2Misses : (s.modCluster c f).l2Misses = s.l2Misses := rfl
@[simp] theorem State.modCluster_work : (s.modCluster c f).work = s.work := rfl
@[simp] theorem State.modCluster_hbmMoves : (s.modCluster c f).hbmMoves = s.hbmMoves := rfl
@[simp] theorem State.modCluster_flitsAt : (s.modCluster c f).flitsAt = s.flitsAt := rfl
@[simp] theorem State.modCluster_estimates : (s.modCluster c f).estimates = s.estimates := rfl
@[simp] theorem State.modCluster_written : (s.modCluster c f).written = s.written := rfl
@[simp] theorem State.modCluster_timingFrom : (s.modCluster c f).timingFrom = s.timingFrom := rfl
@[simp] theorem State.modCluster_queries : (s.modCluster c f).queries = s.queries := rfl
@[simp] theorem State.modCluster_stalled : (s.modCluster c f).stalled = s.stalled := rfl
@[simp] theorem State.modCluster_seqs : (s.modCluster c f).seqs = s.seqs := rfl
@[simp] theorem State.modCluster_sent : (s.modCluster c f).sent = s.sent := rfl
@[simp] theorem State.modCluster_unsent : (s.modCluster c f).unsent = s.unsent := rfl
@[simp] theorem State.modCluster_busyHold : (s.modCluster c f).busyHold = s.busyHold := rfl
@[simp] theorem State.modCluster_settling : (s.modCluster c f).settling = s.settling := rfl
@[simp] theorem State.modCluster_lastseq : (s.modCluster c f).lastseq = s.lastseq := rfl
@[simp] theorem State.modCluster_records : (s.modCluster c f).records = s.records := rfl
@[simp] theorem State.modCluster_busyEnd : (s.modCluster c f).busyEnd = s.busyEnd := rfl
@[simp] theorem State.modCluster_keysOut : (s.modCluster c f).keysOut = s.keysOut := rfl
@[simp] theorem State.modCluster_fabOut : (s.modCluster c f).fabOut = s.fabOut := rfl
@[simp] theorem State.modCluster_hocpOut : (s.modCluster c f).hocpOut = s.hocpOut := rfl
@[simp] theorem State.modCluster_collIn : (s.modCluster c f).collIn = s.collIn := rfl
@[simp] theorem State.modCluster_sysReqs : (s.modCluster c f).sysReqs = s.sysReqs := rfl
@[simp] theorem State.modCluster_pwrsel : (s.modCluster c f).pwrsel = s.pwrsel := rfl
@[simp] theorem State.modCluster_pwrcap : (s.modCluster c f).pwrcap = s.pwrcap := rfl
@[simp] theorem State.modCluster_capActs : (s.modCluster c f).capActs = s.capActs := rfl
@[simp] theorem State.modCluster_calmUs : (s.modCluster c f).calmUs = s.calmUs := rfl
@[simp] theorem State.modCluster_refits : (s.modCluster c f).refits = s.refits := rfl
@[simp] theorem State.modCluster_slots : (s.modCluster c f).slots = s.slots := rfl
@[simp] theorem State.modCluster_flash : (s.modCluster c f).flash = s.flash := rfl
@[simp] theorem State.modCluster_fuseSvn : (s.modCluster c f).fuseSvn = s.fuseSvn := rfl
@[simp] theorem State.modCluster_recovery : (s.modCluster c f).recovery = s.recovery := rfl
@[simp] theorem State.modCluster_staged : (s.modCluster c f).staged = s.staged := rfl
@[simp] theorem State.modCluster_running : (s.modCluster c f).running = s.running := rfl
@[simp] theorem State.modCluster_up : (s.modCluster c f).up = s.up := rfl
@[simp] theorem State.modCluster_time : (s.modCluster c f).time = s.time := rfl
@[simp] theorem State.modCluster_sub : (s.modCluster c f).sub = s.sub := rfl
@[simp] theorem State.modCluster_l2Ways : (s.modCluster c f).l2Ways = s.l2Ways := rfl
@[simp] theorem State.modCluster_keyGen : (s.modCluster c f).keyGen = s.keyGen := rfl
@[simp] theorem State.modCluster_lineGen : (s.modCluster c f).lineGen = s.lineGen := rfl
@[simp] theorem State.modCluster_reloaded : (s.modCluster c f).reloaded = s.reloaded := rfl

end

/-! ### at -/

section
variable (s : State) (n : Nat) (e : Instr)

@[simp] theorem State.at_tick : (s.at n e).tick = s.tick := rfl
@[simp] theorem State.at_serial : (s.at n e).serial = s.serial := rfl
@[simp] theorem State.at_names : (s.at n e).names = s.names := rfl
@[simp] theorem State.at_free : (s.at n e).free = s.free := rfl
@[simp] theorem State.at_cur : (s.at n e).cur = s.cur := rfl
@[simp] theorem State.at_slicePtr : (s.at n e).slicePtr = s.slicePtr := rfl
@[simp] theorem State.at_slices : (s.at n e).slices = s.slices := rfl
@[simp] theorem State.at_warps : (s.at n e).warps = s.warps := rfl
@[simp] theorem State.at_wgs : (s.at n e).wgs = s.wgs := rfl
@[simp] theorem State.at_launches : (s.at n e).launches = s.launches := rfl
@[simp] theorem State.at_cores : (s.at n e).cores = s.cores := rfl
@[simp] theorem State.at_hbm : (s.at n e).hbm = s.hbm := rfl
@[simp] theorem State.at_l2 : (s.at n e).l2 = s.l2 := rfl
@[simp] theorem State.at_l1 : (s.at n e).l1 = s.l1 := rfl
@[simp] theorem State.at_poisoned : (s.at n e).poisoned = s.poisoned := rfl
@[simp] theorem State.at_frames : (s.at n e).frames = s.frames := rfl
@[simp] theorem State.at_ages : (s.at n e).ages = s.ages := rfl
@[simp] theorem State.at_pinned : (s.at n e).pinned = s.pinned := rfl
@[simp] theorem State.at_gen : (s.at n e).gen = s.gen := rfl
@[simp] theorem State.at_ctxs : (s.at n e).ctxs = s.ctxs := rfl
@[simp] theorem State.at_parts : (s.at n e).parts = s.parts := rfl
@[simp] theorem State.at_queues : (s.at n e).queues = s.queues := rfl
@[simp] theorem State.at_zeroing : (s.at n e).zeroing = s.zeroing := rfl
@[simp] theorem State.at_saves : (s.at n e).saves = s.saves := rfl
@[simp] theorem State.at_qsel : (s.at n e).qsel = s.qsel := rfl
@[simp] theorem State.at_qbase : (s.at n e).qbase = s.qbase := rfl
@[simp] theorem State.at_qpriv0 : (s.at n e).qpriv0 = s.qpriv0 := rfl
@[simp] theorem State.at_qpriv1 : (s.at n e).qpriv1 = s.qpriv1 := rfl
@[simp] theorem State.at_wdog : (s.at n e).wdog = s.wdog := rfl
@[simp] theorem State.at_ctxsel : (s.at n e).ctxsel = s.ctxsel := rfl
@[simp] theorem State.at_ringsel : (s.at n e).ringsel = s.ringsel := rfl
@[simp] theorem State.at_attreq : (s.at n e).attreq = s.attreq := rfl
@[simp] theorem State.at_attBusy : (s.at n e).attBusy = s.attBusy := rfl
@[simp] theorem State.at_attDone : (s.at n e).attDone = s.attDone := rfl
@[simp] theorem State.at_ptbase : (s.at n e).ptbase = s.ptbase := rfl
@[simp] theorem State.at_plast : (s.at n e).plast = s.plast := rfl
@[simp] theorem State.at_pbusy : (s.at n e).pbusy = s.pbusy := rfl
@[simp] theorem State.at_perr : (s.at n e).perr = s.perr := rfl
@[simp] theorem State.at_keysHeld : (s.at n e).keysHeld = s.keysHeld := rfl
@[simp] theorem State.at_keys : (s.at n e).keys = s.keys := rfl
@[simp] theorem State.at_tscl : (s.at n e).tscl = s.tscl := rfl
@[simp] theorem State.at_tsEn : (s.at n e).tsEn = s.tsEn := rfl
@[simp] theorem State.at_tslend : (s.at n e).tslend = s.tslend := rfl
@[simp] theorem State.at_tsRunning : (s.at n e).tsRunning = s.tsRunning := rfl
@[simp] theorem State.at_tsslots : (s.at n e).tsslots = s.tsslots := rfl
@[simp] theorem State.at_tsEpoch : (s.at n e).tsEpoch = s.tsEpoch := rfl
@[simp] theorem State.at_tsSlot : (s.at n e).tsSlot = s.tsSlot := rfl
@[simp] theorem State.at_tsStart : (s.at n e).tsStart = s.tsStart := rfl
@[simp] theorem State.at_stoptick : (s.at n e).stoptick = s.stoptick := rfl
@[simp] theorem State.at_stopArm : (s.at n e).stopArm = s.stopArm := rfl
@[simp] theorem State.at_stopped : (s.at n e).stopped = s.stopped := rfl
@[simp] theorem State.at_begun : (s.at n e).begun = s.begun := rfl
@[simp] theorem State.at_slewAt : (s.at n e).slewAt = s.slewAt := rfl
@[simp] theorem State.at_holdTick : (s.at n e).holdTick = s.holdTick := rfl
@[simp] theorem State.at_fabid : (s.at n e).fabid = s.fabid := rfl
@[simp] theorem State.at_portsel : (s.at n e).portsel = s.portsel := rfl
@[simp] theorem State.at_peersel : (s.at n e).peersel = s.peersel := rfl
@[simp] theorem State.at_ports : (s.at n e).ports = s.ports := rfl
@[simp] theorem State.at_paths : (s.at n e).paths = s.paths := rfl
@[simp] theorem State.at_remap : (s.at n e).remap = s.remap := rfl
@[simp] theorem State.at_lost : (s.at n e).lost = s.lost := rfl
@[simp] theorem State.at_memCtx : (s.at n e).memCtx = s.memCtx := rfl
@[simp] theorem State.at_l2Misses : (s.at n e).l2Misses = s.l2Misses := rfl
@[simp] theorem State.at_work : (s.at n e).work = s.work := rfl
@[simp] theorem State.at_hbmMoves : (s.at n e).hbmMoves = s.hbmMoves := rfl
@[simp] theorem State.at_flitsAt : (s.at n e).flitsAt = s.flitsAt := rfl
@[simp] theorem State.at_estimates : (s.at n e).estimates = s.estimates := rfl
@[simp] theorem State.at_written : (s.at n e).written = s.written := rfl
@[simp] theorem State.at_timingFrom : (s.at n e).timingFrom = s.timingFrom := rfl
@[simp] theorem State.at_queries : (s.at n e).queries = s.queries := rfl
@[simp] theorem State.at_stalled : (s.at n e).stalled = s.stalled := rfl
@[simp] theorem State.at_seqs : (s.at n e).seqs = s.seqs := rfl
@[simp] theorem State.at_sent : (s.at n e).sent = s.sent := rfl
@[simp] theorem State.at_unsent : (s.at n e).unsent = s.unsent := rfl
@[simp] theorem State.at_busyHold : (s.at n e).busyHold = s.busyHold := rfl
@[simp] theorem State.at_settling : (s.at n e).settling = s.settling := rfl
@[simp] theorem State.at_lastseq : (s.at n e).lastseq = s.lastseq := rfl
@[simp] theorem State.at_records : (s.at n e).records = s.records := rfl
@[simp] theorem State.at_busyEnd : (s.at n e).busyEnd = s.busyEnd := rfl
@[simp] theorem State.at_keysOut : (s.at n e).keysOut = s.keysOut := rfl
@[simp] theorem State.at_fabOut : (s.at n e).fabOut = s.fabOut := rfl
@[simp] theorem State.at_hocpOut : (s.at n e).hocpOut = s.hocpOut := rfl
@[simp] theorem State.at_collIn : (s.at n e).collIn = s.collIn := rfl
@[simp] theorem State.at_sysReqs : (s.at n e).sysReqs = s.sysReqs := rfl
@[simp] theorem State.at_pwrsel : (s.at n e).pwrsel = s.pwrsel := rfl
@[simp] theorem State.at_pwrcap : (s.at n e).pwrcap = s.pwrcap := rfl
@[simp] theorem State.at_capActs : (s.at n e).capActs = s.capActs := rfl
@[simp] theorem State.at_calmUs : (s.at n e).calmUs = s.calmUs := rfl
@[simp] theorem State.at_clusters : (s.at n e).clusters = s.clusters := rfl
@[simp] theorem State.at_refits : (s.at n e).refits = s.refits := rfl
@[simp] theorem State.at_slots : (s.at n e).slots = s.slots := rfl
@[simp] theorem State.at_flash : (s.at n e).flash = s.flash := rfl
@[simp] theorem State.at_fuseSvn : (s.at n e).fuseSvn = s.fuseSvn := rfl
@[simp] theorem State.at_recovery : (s.at n e).recovery = s.recovery := rfl
@[simp] theorem State.at_staged : (s.at n e).staged = s.staged := rfl
@[simp] theorem State.at_running : (s.at n e).running = s.running := rfl
@[simp] theorem State.at_up : (s.at n e).up = s.up := rfl
@[simp] theorem State.at_time : (s.at n e).time = s.time := rfl
@[simp] theorem State.at_sub : (s.at n e).sub = s.sub := rfl
@[simp] theorem State.at_l2Ways : (s.at n e).l2Ways = s.l2Ways := rfl
@[simp] theorem State.at_keyGen : (s.at n e).keyGen = s.keyGen := rfl
@[simp] theorem State.at_lineGen : (s.at n e).lineGen = s.lineGen := rfl
@[simp] theorem State.at_reloaded : (s.at n e).reloaded = s.reloaded := rfl

end

/-! ### soon -/

section
variable (s : State) (e : Instr)

@[simp] theorem State.soon_tick : (s.soon e).tick = s.tick := rfl
@[simp] theorem State.soon_serial : (s.soon e).serial = s.serial := rfl
@[simp] theorem State.soon_names : (s.soon e).names = s.names := rfl
@[simp] theorem State.soon_cur : (s.soon e).cur = s.cur := rfl
@[simp] theorem State.soon_slicePtr : (s.soon e).slicePtr = s.slicePtr := rfl
@[simp] theorem State.soon_slices : (s.soon e).slices = s.slices := rfl
@[simp] theorem State.soon_warps : (s.soon e).warps = s.warps := rfl
@[simp] theorem State.soon_wgs : (s.soon e).wgs = s.wgs := rfl
@[simp] theorem State.soon_launches : (s.soon e).launches = s.launches := rfl
@[simp] theorem State.soon_cores : (s.soon e).cores = s.cores := rfl
@[simp] theorem State.soon_hbm : (s.soon e).hbm = s.hbm := rfl
@[simp] theorem State.soon_l2 : (s.soon e).l2 = s.l2 := rfl
@[simp] theorem State.soon_l1 : (s.soon e).l1 = s.l1 := rfl
@[simp] theorem State.soon_poisoned : (s.soon e).poisoned = s.poisoned := rfl
@[simp] theorem State.soon_frames : (s.soon e).frames = s.frames := rfl
@[simp] theorem State.soon_ages : (s.soon e).ages = s.ages := rfl
@[simp] theorem State.soon_pinned : (s.soon e).pinned = s.pinned := rfl
@[simp] theorem State.soon_gen : (s.soon e).gen = s.gen := rfl
@[simp] theorem State.soon_ctxs : (s.soon e).ctxs = s.ctxs := rfl
@[simp] theorem State.soon_parts : (s.soon e).parts = s.parts := rfl
@[simp] theorem State.soon_queues : (s.soon e).queues = s.queues := rfl
@[simp] theorem State.soon_zeroing : (s.soon e).zeroing = s.zeroing := rfl
@[simp] theorem State.soon_saves : (s.soon e).saves = s.saves := rfl
@[simp] theorem State.soon_qsel : (s.soon e).qsel = s.qsel := rfl
@[simp] theorem State.soon_qbase : (s.soon e).qbase = s.qbase := rfl
@[simp] theorem State.soon_qpriv0 : (s.soon e).qpriv0 = s.qpriv0 := rfl
@[simp] theorem State.soon_qpriv1 : (s.soon e).qpriv1 = s.qpriv1 := rfl
@[simp] theorem State.soon_wdog : (s.soon e).wdog = s.wdog := rfl
@[simp] theorem State.soon_ctxsel : (s.soon e).ctxsel = s.ctxsel := rfl
@[simp] theorem State.soon_ringsel : (s.soon e).ringsel = s.ringsel := rfl
@[simp] theorem State.soon_attreq : (s.soon e).attreq = s.attreq := rfl
@[simp] theorem State.soon_attBusy : (s.soon e).attBusy = s.attBusy := rfl
@[simp] theorem State.soon_attDone : (s.soon e).attDone = s.attDone := rfl
@[simp] theorem State.soon_ptbase : (s.soon e).ptbase = s.ptbase := rfl
@[simp] theorem State.soon_plast : (s.soon e).plast = s.plast := rfl
@[simp] theorem State.soon_pbusy : (s.soon e).pbusy = s.pbusy := rfl
@[simp] theorem State.soon_perr : (s.soon e).perr = s.perr := rfl
@[simp] theorem State.soon_keysHeld : (s.soon e).keysHeld = s.keysHeld := rfl
@[simp] theorem State.soon_keys : (s.soon e).keys = s.keys := rfl
@[simp] theorem State.soon_tscl : (s.soon e).tscl = s.tscl := rfl
@[simp] theorem State.soon_tsEn : (s.soon e).tsEn = s.tsEn := rfl
@[simp] theorem State.soon_tslend : (s.soon e).tslend = s.tslend := rfl
@[simp] theorem State.soon_tsRunning : (s.soon e).tsRunning = s.tsRunning := rfl
@[simp] theorem State.soon_tsslots : (s.soon e).tsslots = s.tsslots := rfl
@[simp] theorem State.soon_tsEpoch : (s.soon e).tsEpoch = s.tsEpoch := rfl
@[simp] theorem State.soon_tsSlot : (s.soon e).tsSlot = s.tsSlot := rfl
@[simp] theorem State.soon_tsStart : (s.soon e).tsStart = s.tsStart := rfl
@[simp] theorem State.soon_stoptick : (s.soon e).stoptick = s.stoptick := rfl
@[simp] theorem State.soon_stopArm : (s.soon e).stopArm = s.stopArm := rfl
@[simp] theorem State.soon_stopped : (s.soon e).stopped = s.stopped := rfl
@[simp] theorem State.soon_begun : (s.soon e).begun = s.begun := rfl
@[simp] theorem State.soon_slewAt : (s.soon e).slewAt = s.slewAt := rfl
@[simp] theorem State.soon_holdTick : (s.soon e).holdTick = s.holdTick := rfl
@[simp] theorem State.soon_fabid : (s.soon e).fabid = s.fabid := rfl
@[simp] theorem State.soon_portsel : (s.soon e).portsel = s.portsel := rfl
@[simp] theorem State.soon_peersel : (s.soon e).peersel = s.peersel := rfl
@[simp] theorem State.soon_ports : (s.soon e).ports = s.ports := rfl
@[simp] theorem State.soon_paths : (s.soon e).paths = s.paths := rfl
@[simp] theorem State.soon_remap : (s.soon e).remap = s.remap := rfl
@[simp] theorem State.soon_lost : (s.soon e).lost = s.lost := rfl
@[simp] theorem State.soon_memCtx : (s.soon e).memCtx = s.memCtx := rfl
@[simp] theorem State.soon_l2Misses : (s.soon e).l2Misses = s.l2Misses := rfl
@[simp] theorem State.soon_work : (s.soon e).work = s.work := rfl
@[simp] theorem State.soon_hbmMoves : (s.soon e).hbmMoves = s.hbmMoves := rfl
@[simp] theorem State.soon_flitsAt : (s.soon e).flitsAt = s.flitsAt := rfl
@[simp] theorem State.soon_estimates : (s.soon e).estimates = s.estimates := rfl
@[simp] theorem State.soon_written : (s.soon e).written = s.written := rfl
@[simp] theorem State.soon_timingFrom : (s.soon e).timingFrom = s.timingFrom := rfl
@[simp] theorem State.soon_queries : (s.soon e).queries = s.queries := rfl
@[simp] theorem State.soon_stalled : (s.soon e).stalled = s.stalled := rfl
@[simp] theorem State.soon_seqs : (s.soon e).seqs = s.seqs := rfl
@[simp] theorem State.soon_sent : (s.soon e).sent = s.sent := rfl
@[simp] theorem State.soon_unsent : (s.soon e).unsent = s.unsent := rfl
@[simp] theorem State.soon_busyHold : (s.soon e).busyHold = s.busyHold := rfl
@[simp] theorem State.soon_settling : (s.soon e).settling = s.settling := rfl
@[simp] theorem State.soon_lastseq : (s.soon e).lastseq = s.lastseq := rfl
@[simp] theorem State.soon_records : (s.soon e).records = s.records := rfl
@[simp] theorem State.soon_busyEnd : (s.soon e).busyEnd = s.busyEnd := rfl
@[simp] theorem State.soon_keysOut : (s.soon e).keysOut = s.keysOut := rfl
@[simp] theorem State.soon_fabOut : (s.soon e).fabOut = s.fabOut := rfl
@[simp] theorem State.soon_hocpOut : (s.soon e).hocpOut = s.hocpOut := rfl
@[simp] theorem State.soon_collIn : (s.soon e).collIn = s.collIn := rfl
@[simp] theorem State.soon_sysReqs : (s.soon e).sysReqs = s.sysReqs := rfl
@[simp] theorem State.soon_pwrsel : (s.soon e).pwrsel = s.pwrsel := rfl
@[simp] theorem State.soon_pwrcap : (s.soon e).pwrcap = s.pwrcap := rfl
@[simp] theorem State.soon_capActs : (s.soon e).capActs = s.capActs := rfl
@[simp] theorem State.soon_calmUs : (s.soon e).calmUs = s.calmUs := rfl
@[simp] theorem State.soon_clusters : (s.soon e).clusters = s.clusters := rfl
@[simp] theorem State.soon_refits : (s.soon e).refits = s.refits := rfl
@[simp] theorem State.soon_slots : (s.soon e).slots = s.slots := rfl
@[simp] theorem State.soon_flash : (s.soon e).flash = s.flash := rfl
@[simp] theorem State.soon_fuseSvn : (s.soon e).fuseSvn = s.fuseSvn := rfl
@[simp] theorem State.soon_recovery : (s.soon e).recovery = s.recovery := rfl
@[simp] theorem State.soon_staged : (s.soon e).staged = s.staged := rfl
@[simp] theorem State.soon_running : (s.soon e).running = s.running := rfl
@[simp] theorem State.soon_up : (s.soon e).up = s.up := rfl
@[simp] theorem State.soon_time : (s.soon e).time = s.time := rfl
@[simp] theorem State.soon_sub : (s.soon e).sub = s.sub := rfl
@[simp] theorem State.soon_l2Ways : (s.soon e).l2Ways = s.l2Ways := rfl
@[simp] theorem State.soon_keyGen : (s.soon e).keyGen = s.keyGen := rfl
@[simp] theorem State.soon_lineGen : (s.soon e).lineGen = s.lineGen := rfl
@[simp] theorem State.soon_reloaded : (s.soon e).reloaded = s.reloaded := rfl

end

/-! ### cancel -/

section
variable (s : State) (p : Instr → Bool)

@[simp] theorem State.cancel_tick : (s.cancel p).tick = s.tick := rfl
@[simp] theorem State.cancel_serial : (s.cancel p).serial = s.serial := rfl
@[simp] theorem State.cancel_names : (s.cancel p).names = s.names := rfl
@[simp] theorem State.cancel_free : (s.cancel p).free = s.free := rfl
@[simp] theorem State.cancel_cur : (s.cancel p).cur = s.cur := rfl
@[simp] theorem State.cancel_slicePtr : (s.cancel p).slicePtr = s.slicePtr := rfl
@[simp] theorem State.cancel_slices : (s.cancel p).slices = s.slices := rfl
@[simp] theorem State.cancel_warps : (s.cancel p).warps = s.warps := rfl
@[simp] theorem State.cancel_wgs : (s.cancel p).wgs = s.wgs := rfl
@[simp] theorem State.cancel_launches : (s.cancel p).launches = s.launches := rfl
@[simp] theorem State.cancel_cores : (s.cancel p).cores = s.cores := rfl
@[simp] theorem State.cancel_hbm : (s.cancel p).hbm = s.hbm := rfl
@[simp] theorem State.cancel_l2 : (s.cancel p).l2 = s.l2 := rfl
@[simp] theorem State.cancel_l1 : (s.cancel p).l1 = s.l1 := rfl
@[simp] theorem State.cancel_poisoned : (s.cancel p).poisoned = s.poisoned := rfl
@[simp] theorem State.cancel_frames : (s.cancel p).frames = s.frames := rfl
@[simp] theorem State.cancel_ages : (s.cancel p).ages = s.ages := rfl
@[simp] theorem State.cancel_pinned : (s.cancel p).pinned = s.pinned := rfl
@[simp] theorem State.cancel_gen : (s.cancel p).gen = s.gen := rfl
@[simp] theorem State.cancel_ctxs : (s.cancel p).ctxs = s.ctxs := rfl
@[simp] theorem State.cancel_parts : (s.cancel p).parts = s.parts := rfl
@[simp] theorem State.cancel_queues : (s.cancel p).queues = s.queues := rfl
@[simp] theorem State.cancel_zeroing : (s.cancel p).zeroing = s.zeroing := rfl
@[simp] theorem State.cancel_saves : (s.cancel p).saves = s.saves := rfl
@[simp] theorem State.cancel_qsel : (s.cancel p).qsel = s.qsel := rfl
@[simp] theorem State.cancel_qbase : (s.cancel p).qbase = s.qbase := rfl
@[simp] theorem State.cancel_qpriv0 : (s.cancel p).qpriv0 = s.qpriv0 := rfl
@[simp] theorem State.cancel_qpriv1 : (s.cancel p).qpriv1 = s.qpriv1 := rfl
@[simp] theorem State.cancel_wdog : (s.cancel p).wdog = s.wdog := rfl
@[simp] theorem State.cancel_ctxsel : (s.cancel p).ctxsel = s.ctxsel := rfl
@[simp] theorem State.cancel_ringsel : (s.cancel p).ringsel = s.ringsel := rfl
@[simp] theorem State.cancel_attreq : (s.cancel p).attreq = s.attreq := rfl
@[simp] theorem State.cancel_attBusy : (s.cancel p).attBusy = s.attBusy := rfl
@[simp] theorem State.cancel_attDone : (s.cancel p).attDone = s.attDone := rfl
@[simp] theorem State.cancel_ptbase : (s.cancel p).ptbase = s.ptbase := rfl
@[simp] theorem State.cancel_plast : (s.cancel p).plast = s.plast := rfl
@[simp] theorem State.cancel_pbusy : (s.cancel p).pbusy = s.pbusy := rfl
@[simp] theorem State.cancel_perr : (s.cancel p).perr = s.perr := rfl
@[simp] theorem State.cancel_keysHeld : (s.cancel p).keysHeld = s.keysHeld := rfl
@[simp] theorem State.cancel_keys : (s.cancel p).keys = s.keys := rfl
@[simp] theorem State.cancel_tscl : (s.cancel p).tscl = s.tscl := rfl
@[simp] theorem State.cancel_tsEn : (s.cancel p).tsEn = s.tsEn := rfl
@[simp] theorem State.cancel_tslend : (s.cancel p).tslend = s.tslend := rfl
@[simp] theorem State.cancel_tsRunning : (s.cancel p).tsRunning = s.tsRunning := rfl
@[simp] theorem State.cancel_tsslots : (s.cancel p).tsslots = s.tsslots := rfl
@[simp] theorem State.cancel_tsEpoch : (s.cancel p).tsEpoch = s.tsEpoch := rfl
@[simp] theorem State.cancel_tsSlot : (s.cancel p).tsSlot = s.tsSlot := rfl
@[simp] theorem State.cancel_tsStart : (s.cancel p).tsStart = s.tsStart := rfl
@[simp] theorem State.cancel_stoptick : (s.cancel p).stoptick = s.stoptick := rfl
@[simp] theorem State.cancel_stopArm : (s.cancel p).stopArm = s.stopArm := rfl
@[simp] theorem State.cancel_stopped : (s.cancel p).stopped = s.stopped := rfl
@[simp] theorem State.cancel_begun : (s.cancel p).begun = s.begun := rfl
@[simp] theorem State.cancel_slewAt : (s.cancel p).slewAt = s.slewAt := rfl
@[simp] theorem State.cancel_holdTick : (s.cancel p).holdTick = s.holdTick := rfl
@[simp] theorem State.cancel_fabid : (s.cancel p).fabid = s.fabid := rfl
@[simp] theorem State.cancel_portsel : (s.cancel p).portsel = s.portsel := rfl
@[simp] theorem State.cancel_peersel : (s.cancel p).peersel = s.peersel := rfl
@[simp] theorem State.cancel_ports : (s.cancel p).ports = s.ports := rfl
@[simp] theorem State.cancel_paths : (s.cancel p).paths = s.paths := rfl
@[simp] theorem State.cancel_remap : (s.cancel p).remap = s.remap := rfl
@[simp] theorem State.cancel_lost : (s.cancel p).lost = s.lost := rfl
@[simp] theorem State.cancel_memCtx : (s.cancel p).memCtx = s.memCtx := rfl
@[simp] theorem State.cancel_l2Misses : (s.cancel p).l2Misses = s.l2Misses := rfl
@[simp] theorem State.cancel_work : (s.cancel p).work = s.work := rfl
@[simp] theorem State.cancel_hbmMoves : (s.cancel p).hbmMoves = s.hbmMoves := rfl
@[simp] theorem State.cancel_flitsAt : (s.cancel p).flitsAt = s.flitsAt := rfl
@[simp] theorem State.cancel_estimates : (s.cancel p).estimates = s.estimates := rfl
@[simp] theorem State.cancel_written : (s.cancel p).written = s.written := rfl
@[simp] theorem State.cancel_timingFrom : (s.cancel p).timingFrom = s.timingFrom := rfl
@[simp] theorem State.cancel_queries : (s.cancel p).queries = s.queries := rfl
@[simp] theorem State.cancel_stalled : (s.cancel p).stalled = s.stalled := rfl
@[simp] theorem State.cancel_seqs : (s.cancel p).seqs = s.seqs := rfl
@[simp] theorem State.cancel_sent : (s.cancel p).sent = s.sent := rfl
@[simp] theorem State.cancel_unsent : (s.cancel p).unsent = s.unsent := rfl
@[simp] theorem State.cancel_busyHold : (s.cancel p).busyHold = s.busyHold := rfl
@[simp] theorem State.cancel_settling : (s.cancel p).settling = s.settling := rfl
@[simp] theorem State.cancel_lastseq : (s.cancel p).lastseq = s.lastseq := rfl
@[simp] theorem State.cancel_records : (s.cancel p).records = s.records := rfl
@[simp] theorem State.cancel_busyEnd : (s.cancel p).busyEnd = s.busyEnd := rfl
@[simp] theorem State.cancel_keysOut : (s.cancel p).keysOut = s.keysOut := rfl
@[simp] theorem State.cancel_fabOut : (s.cancel p).fabOut = s.fabOut := rfl
@[simp] theorem State.cancel_hocpOut : (s.cancel p).hocpOut = s.hocpOut := rfl
@[simp] theorem State.cancel_collIn : (s.cancel p).collIn = s.collIn := rfl
@[simp] theorem State.cancel_sysReqs : (s.cancel p).sysReqs = s.sysReqs := rfl
@[simp] theorem State.cancel_pwrsel : (s.cancel p).pwrsel = s.pwrsel := rfl
@[simp] theorem State.cancel_pwrcap : (s.cancel p).pwrcap = s.pwrcap := rfl
@[simp] theorem State.cancel_capActs : (s.cancel p).capActs = s.capActs := rfl
@[simp] theorem State.cancel_calmUs : (s.cancel p).calmUs = s.calmUs := rfl
@[simp] theorem State.cancel_clusters : (s.cancel p).clusters = s.clusters := rfl
@[simp] theorem State.cancel_refits : (s.cancel p).refits = s.refits := rfl
@[simp] theorem State.cancel_slots : (s.cancel p).slots = s.slots := rfl
@[simp] theorem State.cancel_flash : (s.cancel p).flash = s.flash := rfl
@[simp] theorem State.cancel_fuseSvn : (s.cancel p).fuseSvn = s.fuseSvn := rfl
@[simp] theorem State.cancel_recovery : (s.cancel p).recovery = s.recovery := rfl
@[simp] theorem State.cancel_staged : (s.cancel p).staged = s.staged := rfl
@[simp] theorem State.cancel_running : (s.cancel p).running = s.running := rfl
@[simp] theorem State.cancel_up : (s.cancel p).up = s.up := rfl
@[simp] theorem State.cancel_time : (s.cancel p).time = s.time := rfl
@[simp] theorem State.cancel_sub : (s.cancel p).sub = s.sub := rfl
@[simp] theorem State.cancel_l2Ways : (s.cancel p).l2Ways = s.l2Ways := rfl
@[simp] theorem State.cancel_keyGen : (s.cancel p).keyGen = s.keyGen := rfl
@[simp] theorem State.cancel_lineGen : (s.cancel p).lineGen = s.lineGen := rfl
@[simp] theorem State.cancel_reloaded : (s.cancel p).reloaded = s.reloaded := rfl

end

/-! ### Accessors after an update of their own store -/

@[simp] theorem State.warp_modWarp (s : State) (w : Nat) (f : Warp → Warp) (k : Nat) : (s.modWarp w f).warp k = if k = w then f (s.warp w) else s.warp k := by
  simp only [State.modWarp, State.warp, State.setWarp, Store.get_set]
@[simp] theorem State.core_modWarp (s : State) (w : Nat) (f : Warp → Warp) (k : Nat) : (s.modWarp w f).core k = s.core k := rfl
@[simp] theorem State.wg_modWarp (s : State) (w : Nat) (f : Warp → Warp) (k : Nat) : (s.modWarp w f).wg k = s.wg k := rfl
@[simp] theorem State.launch_modWarp (s : State) (w : Nat) (f : Warp → Warp) (k : Nat) : (s.modWarp w f).launch k = s.launch k := rfl
@[simp] theorem State.ctx_modWarp (s : State) (w : Nat) (f : Warp → Warp) (k : Nat) : (s.modWarp w f).ctx k = s.ctx k := rfl
@[simp] theorem State.part_modWarp (s : State) (w : Nat) (f : Warp → Warp) (k : Nat) : (s.modWarp w f).part k = s.part k := rfl
@[simp] theorem State.queue_modWarp (s : State) (w : Nat) (f : Warp → Warp) (k : Nat) : (s.modWarp w f).queue k = s.queue k := rfl
@[simp] theorem State.port_modWarp (s : State) (w : Nat) (f : Warp → Warp) (k : Nat) : (s.modWarp w f).port k = s.port k := rfl
@[simp] theorem State.cluster_modWarp (s : State) (w : Nat) (f : Warp → Warp) (k : Nat) : (s.modWarp w f).cluster k = s.cluster k := rfl
@[simp] theorem State.l2Read_modWarp (s : State) (w : Nat) (f : Warp → Warp) (pa : Nat) : (s.modWarp w f).l2Read pa = s.l2Read pa := rfl
@[simp] theorem State.coreRead_modWarp (s : State) (w : Nat) (f : Warp → Warp) (core pa : Nat) : (s.modWarp w f).coreRead core pa = s.coreRead core pa := rfl

@[simp] theorem State.core_modCore (s : State) (c : Nat) (f : Core → Core) (k : Nat) : (s.modCore c f).core k = if k = c then f (s.core c) else s.core k := by
  simp only [State.modCore, State.core, Store.get_set]
@[simp] theorem State.warp_modCore (s : State) (c : Nat) (f : Core → Core) (k : Nat) : (s.modCore c f).warp k = s.warp k := rfl
@[simp] theorem State.wg_modCore (s : State) (c : Nat) (f : Core → Core) (k : Nat) : (s.modCore c f).wg k = s.wg k := rfl
@[simp] theorem State.launch_modCore (s : State) (c : Nat) (f : Core → Core) (k : Nat) : (s.modCore c f).launch k = s.launch k := rfl
@[simp] theorem State.ctx_modCore (s : State) (c : Nat) (f : Core → Core) (k : Nat) : (s.modCore c f).ctx k = s.ctx k := rfl
@[simp] theorem State.part_modCore (s : State) (c : Nat) (f : Core → Core) (k : Nat) : (s.modCore c f).part k = s.part k := rfl
@[simp] theorem State.queue_modCore (s : State) (c : Nat) (f : Core → Core) (k : Nat) : (s.modCore c f).queue k = s.queue k := rfl
@[simp] theorem State.port_modCore (s : State) (c : Nat) (f : Core → Core) (k : Nat) : (s.modCore c f).port k = s.port k := rfl
@[simp] theorem State.cluster_modCore (s : State) (c : Nat) (f : Core → Core) (k : Nat) : (s.modCore c f).cluster k = s.cluster k := rfl
@[simp] theorem State.l2Read_modCore (s : State) (c : Nat) (f : Core → Core) (pa : Nat) : (s.modCore c f).l2Read pa = s.l2Read pa := rfl
@[simp] theorem State.coreRead_modCore (s : State) (c : Nat) (f : Core → Core) (core pa : Nat) : (s.modCore c f).coreRead core pa = s.coreRead core pa := rfl

@[simp] theorem State.wg_modWg (s : State) (g : Nat) (f : Workgroup → Workgroup) (k : Nat) : (s.modWg g f).wg k = if k = g then f (s.wg g) else s.wg k := by
  simp only [State.modWg, State.wg, Store.get_set]
@[simp] theorem State.warp_modWg (s : State) (g : Nat) (f : Workgroup → Workgroup) (k : Nat) : (s.modWg g f).warp k = s.warp k := rfl
@[simp] theorem State.core_modWg (s : State) (g : Nat) (f : Workgroup → Workgroup) (k : Nat) : (s.modWg g f).core k = s.core k := rfl
@[simp] theorem State.launch_modWg (s : State) (g : Nat) (f : Workgroup → Workgroup) (k : Nat) : (s.modWg g f).launch k = s.launch k := rfl
@[simp] theorem State.ctx_modWg (s : State) (g : Nat) (f : Workgroup → Workgroup) (k : Nat) : (s.modWg g f).ctx k = s.ctx k := rfl
@[simp] theorem State.part_modWg (s : State) (g : Nat) (f : Workgroup → Workgroup) (k : Nat) : (s.modWg g f).part k = s.part k := rfl
@[simp] theorem State.queue_modWg (s : State) (g : Nat) (f : Workgroup → Workgroup) (k : Nat) : (s.modWg g f).queue k = s.queue k := rfl
@[simp] theorem State.port_modWg (s : State) (g : Nat) (f : Workgroup → Workgroup) (k : Nat) : (s.modWg g f).port k = s.port k := rfl
@[simp] theorem State.cluster_modWg (s : State) (g : Nat) (f : Workgroup → Workgroup) (k : Nat) : (s.modWg g f).cluster k = s.cluster k := rfl
@[simp] theorem State.l2Read_modWg (s : State) (g : Nat) (f : Workgroup → Workgroup) (pa : Nat) : (s.modWg g f).l2Read pa = s.l2Read pa := rfl
@[simp] theorem State.coreRead_modWg (s : State) (g : Nat) (f : Workgroup → Workgroup) (core pa : Nat) : (s.modWg g f).coreRead core pa = s.coreRead core pa := rfl

@[simp] theorem State.launch_modLaunch (s : State) (l : Nat) (f : Launch → Launch) (k : Nat) : (s.modLaunch l f).launch k = if k = l then f (s.launch l) else s.launch k := by
  simp only [State.modLaunch, State.launch, Store.get_set]
@[simp] theorem State.warp_modLaunch (s : State) (l : Nat) (f : Launch → Launch) (k : Nat) : (s.modLaunch l f).warp k = s.warp k := rfl
@[simp] theorem State.core_modLaunch (s : State) (l : Nat) (f : Launch → Launch) (k : Nat) : (s.modLaunch l f).core k = s.core k := rfl
@[simp] theorem State.wg_modLaunch (s : State) (l : Nat) (f : Launch → Launch) (k : Nat) : (s.modLaunch l f).wg k = s.wg k := rfl
@[simp] theorem State.ctx_modLaunch (s : State) (l : Nat) (f : Launch → Launch) (k : Nat) : (s.modLaunch l f).ctx k = s.ctx k := rfl
@[simp] theorem State.part_modLaunch (s : State) (l : Nat) (f : Launch → Launch) (k : Nat) : (s.modLaunch l f).part k = s.part k := rfl
@[simp] theorem State.queue_modLaunch (s : State) (l : Nat) (f : Launch → Launch) (k : Nat) : (s.modLaunch l f).queue k = s.queue k := rfl
@[simp] theorem State.port_modLaunch (s : State) (l : Nat) (f : Launch → Launch) (k : Nat) : (s.modLaunch l f).port k = s.port k := rfl
@[simp] theorem State.cluster_modLaunch (s : State) (l : Nat) (f : Launch → Launch) (k : Nat) : (s.modLaunch l f).cluster k = s.cluster k := rfl
@[simp] theorem State.l2Read_modLaunch (s : State) (l : Nat) (f : Launch → Launch) (pa : Nat) : (s.modLaunch l f).l2Read pa = s.l2Read pa := rfl
@[simp] theorem State.coreRead_modLaunch (s : State) (l : Nat) (f : Launch → Launch) (core pa : Nat) : (s.modLaunch l f).coreRead core pa = s.coreRead core pa := rfl

@[simp] theorem State.ctx_modCtx (s : State) (c : Nat) (f : Ctx → Ctx) (k : Nat) : (s.modCtx c f).ctx k = if k = c then f (s.ctx c) else s.ctx k := by
  simp only [State.modCtx, State.ctx, Store.get_set]
@[simp] theorem State.warp_modCtx (s : State) (c : Nat) (f : Ctx → Ctx) (k : Nat) : (s.modCtx c f).warp k = s.warp k := rfl
@[simp] theorem State.core_modCtx (s : State) (c : Nat) (f : Ctx → Ctx) (k : Nat) : (s.modCtx c f).core k = s.core k := rfl
@[simp] theorem State.wg_modCtx (s : State) (c : Nat) (f : Ctx → Ctx) (k : Nat) : (s.modCtx c f).wg k = s.wg k := rfl
@[simp] theorem State.launch_modCtx (s : State) (c : Nat) (f : Ctx → Ctx) (k : Nat) : (s.modCtx c f).launch k = s.launch k := rfl
@[simp] theorem State.part_modCtx (s : State) (c : Nat) (f : Ctx → Ctx) (k : Nat) : (s.modCtx c f).part k = s.part k := rfl
@[simp] theorem State.queue_modCtx (s : State) (c : Nat) (f : Ctx → Ctx) (k : Nat) : (s.modCtx c f).queue k = s.queue k := rfl
@[simp] theorem State.port_modCtx (s : State) (c : Nat) (f : Ctx → Ctx) (k : Nat) : (s.modCtx c f).port k = s.port k := rfl
@[simp] theorem State.cluster_modCtx (s : State) (c : Nat) (f : Ctx → Ctx) (k : Nat) : (s.modCtx c f).cluster k = s.cluster k := rfl
@[simp] theorem State.l2Read_modCtx (s : State) (c : Nat) (f : Ctx → Ctx) (pa : Nat) : (s.modCtx c f).l2Read pa = s.l2Read pa := rfl
@[simp] theorem State.coreRead_modCtx (s : State) (c : Nat) (f : Ctx → Ctx) (core pa : Nat) : (s.modCtx c f).coreRead core pa = s.coreRead core pa := rfl

@[simp] theorem State.part_modPart (s : State) (p : Nat) (f : Part → Part) (k : Nat) : (s.modPart p f).part k = if k = p then f (s.part p) else s.part k := by
  simp only [State.modPart, State.part, Store.get_set]
@[simp] theorem State.warp_modPart (s : State) (p : Nat) (f : Part → Part) (k : Nat) : (s.modPart p f).warp k = s.warp k := rfl
@[simp] theorem State.core_modPart (s : State) (p : Nat) (f : Part → Part) (k : Nat) : (s.modPart p f).core k = s.core k := rfl
@[simp] theorem State.wg_modPart (s : State) (p : Nat) (f : Part → Part) (k : Nat) : (s.modPart p f).wg k = s.wg k := rfl
@[simp] theorem State.launch_modPart (s : State) (p : Nat) (f : Part → Part) (k : Nat) : (s.modPart p f).launch k = s.launch k := rfl
@[simp] theorem State.ctx_modPart (s : State) (p : Nat) (f : Part → Part) (k : Nat) : (s.modPart p f).ctx k = s.ctx k := rfl
@[simp] theorem State.queue_modPart (s : State) (p : Nat) (f : Part → Part) (k : Nat) : (s.modPart p f).queue k = s.queue k := rfl
@[simp] theorem State.port_modPart (s : State) (p : Nat) (f : Part → Part) (k : Nat) : (s.modPart p f).port k = s.port k := rfl
@[simp] theorem State.cluster_modPart (s : State) (p : Nat) (f : Part → Part) (k : Nat) : (s.modPart p f).cluster k = s.cluster k := rfl
@[simp] theorem State.l2Read_modPart (s : State) (p : Nat) (f : Part → Part) (pa : Nat) : (s.modPart p f).l2Read pa = s.l2Read pa := rfl
@[simp] theorem State.coreRead_modPart (s : State) (p : Nat) (f : Part → Part) (core pa : Nat) : (s.modPart p f).coreRead core pa = s.coreRead core pa := rfl

@[simp] theorem State.queue_modQueue (s : State) (q : Nat) (f : Queue → Queue) (k : Nat) : (s.modQueue q f).queue k = if k = q then f (s.queue q) else s.queue k := by
  simp only [State.modQueue, State.queue, Store.get_set]
@[simp] theorem State.warp_modQueue (s : State) (q : Nat) (f : Queue → Queue) (k : Nat) : (s.modQueue q f).warp k = s.warp k := rfl
@[simp] theorem State.core_modQueue (s : State) (q : Nat) (f : Queue → Queue) (k : Nat) : (s.modQueue q f).core k = s.core k := rfl
@[simp] theorem State.wg_modQueue (s : State) (q : Nat) (f : Queue → Queue) (k : Nat) : (s.modQueue q f).wg k = s.wg k := rfl
@[simp] theorem State.launch_modQueue (s : State) (q : Nat) (f : Queue → Queue) (k : Nat) : (s.modQueue q f).launch k = s.launch k := rfl
@[simp] theorem State.ctx_modQueue (s : State) (q : Nat) (f : Queue → Queue) (k : Nat) : (s.modQueue q f).ctx k = s.ctx k := rfl
@[simp] theorem State.part_modQueue (s : State) (q : Nat) (f : Queue → Queue) (k : Nat) : (s.modQueue q f).part k = s.part k := rfl
@[simp] theorem State.port_modQueue (s : State) (q : Nat) (f : Queue → Queue) (k : Nat) : (s.modQueue q f).port k = s.port k := rfl
@[simp] theorem State.cluster_modQueue (s : State) (q : Nat) (f : Queue → Queue) (k : Nat) : (s.modQueue q f).cluster k = s.cluster k := rfl
@[simp] theorem State.l2Read_modQueue (s : State) (q : Nat) (f : Queue → Queue) (pa : Nat) : (s.modQueue q f).l2Read pa = s.l2Read pa := rfl
@[simp] theorem State.coreRead_modQueue (s : State) (q : Nat) (f : Queue → Queue) (core pa : Nat) : (s.modQueue q f).coreRead core pa = s.coreRead core pa := rfl

@[simp] theorem State.port_modPort (s : State) (p : Nat) (f : Port → Port) (k : Nat) : (s.modPort p f).port k = if k = p then f (s.port p) else s.port k := by
  simp only [State.modPort, State.port, Store.get_set]
@[simp] theorem State.warp_modPort (s : State) (p : Nat) (f : Port → Port) (k : Nat) : (s.modPort p f).warp k = s.warp k := rfl
@[simp] theorem State.core_modPort (s : State) (p : Nat) (f : Port → Port) (k : Nat) : (s.modPort p f).core k = s.core k := rfl
@[simp] theorem State.wg_modPort (s : State) (p : Nat) (f : Port → Port) (k : Nat) : (s.modPort p f).wg k = s.wg k := rfl
@[simp] theorem State.launch_modPort (s : State) (p : Nat) (f : Port → Port) (k : Nat) : (s.modPort p f).launch k = s.launch k := rfl
@[simp] theorem State.ctx_modPort (s : State) (p : Nat) (f : Port → Port) (k : Nat) : (s.modPort p f).ctx k = s.ctx k := rfl
@[simp] theorem State.part_modPort (s : State) (p : Nat) (f : Port → Port) (k : Nat) : (s.modPort p f).part k = s.part k := rfl
@[simp] theorem State.queue_modPort (s : State) (p : Nat) (f : Port → Port) (k : Nat) : (s.modPort p f).queue k = s.queue k := rfl
@[simp] theorem State.cluster_modPort (s : State) (p : Nat) (f : Port → Port) (k : Nat) : (s.modPort p f).cluster k = s.cluster k := rfl
@[simp] theorem State.l2Read_modPort (s : State) (p : Nat) (f : Port → Port) (pa : Nat) : (s.modPort p f).l2Read pa = s.l2Read pa := rfl
@[simp] theorem State.coreRead_modPort (s : State) (p : Nat) (f : Port → Port) (core pa : Nat) : (s.modPort p f).coreRead core pa = s.coreRead core pa := rfl

@[simp] theorem State.cluster_modCluster (s : State) (c : Nat) (f : Cluster → Cluster) (k : Nat) : (s.modCluster c f).cluster k = if k = c then f (s.cluster c) else s.cluster k := by
  simp only [State.modCluster, State.cluster, Store.get_set]
@[simp] theorem State.warp_modCluster (s : State) (c : Nat) (f : Cluster → Cluster) (k : Nat) : (s.modCluster c f).warp k = s.warp k := rfl
@[simp] theorem State.core_modCluster (s : State) (c : Nat) (f : Cluster → Cluster) (k : Nat) : (s.modCluster c f).core k = s.core k := rfl
@[simp] theorem State.wg_modCluster (s : State) (c : Nat) (f : Cluster → Cluster) (k : Nat) : (s.modCluster c f).wg k = s.wg k := rfl
@[simp] theorem State.launch_modCluster (s : State) (c : Nat) (f : Cluster → Cluster) (k : Nat) : (s.modCluster c f).launch k = s.launch k := rfl
@[simp] theorem State.ctx_modCluster (s : State) (c : Nat) (f : Cluster → Cluster) (k : Nat) : (s.modCluster c f).ctx k = s.ctx k := rfl
@[simp] theorem State.part_modCluster (s : State) (c : Nat) (f : Cluster → Cluster) (k : Nat) : (s.modCluster c f).part k = s.part k := rfl
@[simp] theorem State.queue_modCluster (s : State) (c : Nat) (f : Cluster → Cluster) (k : Nat) : (s.modCluster c f).queue k = s.queue k := rfl
@[simp] theorem State.port_modCluster (s : State) (c : Nat) (f : Cluster → Cluster) (k : Nat) : (s.modCluster c f).port k = s.port k := rfl
@[simp] theorem State.l2Read_modCluster (s : State) (c : Nat) (f : Cluster → Cluster) (pa : Nat) : (s.modCluster c f).l2Read pa = s.l2Read pa := rfl
@[simp] theorem State.coreRead_modCluster (s : State) (c : Nat) (f : Cluster → Cluster) (core pa : Nat) : (s.modCluster c f).coreRead core pa = s.coreRead core pa := rfl

end Sys2Proof.Machine
end

