-- ==== Sys2Proof/Laws/Warp.lean ====
section
/-! SUPPORT. What each write of a warp's registers does to its other fields, and the read of each register after each write. -/

namespace Sys2Proof.Machine

section
variable (x : Warp) (e : Nat) (y : Split)

@[simp] theorem Warp.setSplit_resident : (x.setSplit e y).resident = x.resident := rfl
@[simp] theorem Warp.setSplit_wg : (x.setSplit e y).wg = x.wg := rfl
@[simp] theorem Warp.setSplit_num : (x.setSplit e y).num = x.num := rfl
@[simp] theorem Warp.setSplit_role : (x.setSplit e y).role = x.role := rfl
@[simp] theorem Warp.setSplit_live : (x.setSplit e y).live = x.live := rfl
@[simp] theorem Warp.setSplit_sregs : (x.setSplit e y).sregs = x.sregs := rfl
@[simp] theorem Warp.setSplit_spoison : (x.setSplit e y).spoison = x.spoison := rfl
@[simp] theorem Warp.setSplit_vregs : (x.setSplit e y).vregs = x.vregs := rfl
@[simp] theorem Warp.setSplit_tags : (x.setSplit e y).tags = x.tags := rfl
@[simp] theorem Warp.setSplit_u : (x.setSplit e y).u = x.u := rfl
@[simp] theorem Warp.setSplit_vpoison : (x.setSplit e y).vpoison = x.vpoison := rfl
@[simp] theorem Warp.setSplit_preds : (x.setSplit e y).preds = x.preds := rfl
@[simp] theorem Warp.setSplit_q : (x.setSplit e y).q = x.q := rfl
@[simp] theorem Warp.setSplit_mode : (x.setSplit e y).mode = x.mode := rfl
@[simp] theorem Warp.setSplit_nsregs : (x.setSplit e y).nsregs = x.nsregs := rfl
@[simp] theorem Warp.setSplit_allot : (x.setSplit e y).allot = x.allot := rfl
@[simp] theorem Warp.setSplit_giveTo : (x.setSplit e y).giveTo = x.giveTo := rfl
@[simp] theorem Warp.setSplit_giveK : (x.setSplit e y).giveK = x.giveK := rfl
@[simp] theorem Warp.setSplit_trap : (x.setSplit e y).trap = x.trap := rfl
@[simp] theorem Warp.setSplit_doubled : (x.setSplit e y).doubled = x.doubled := rfl
@[simp] theorem Warp.setSplit_logDefer : (x.setSplit e y).logDefer = x.logDefer := rfl
@[simp] theorem Warp.setSplit_logRef : (x.setSplit e y).logRef = x.logRef := rfl
@[simp] theorem Warp.setSplit_logPc : (x.setSplit e y).logPc = x.logPc := rfl
@[simp] theorem Warp.setSplit_logDrop : (x.setSplit e y).logDrop = x.logDrop := rfl
@[simp] theorem Warp.setSplit_log : (x.setSplit e y).log = x.log := rfl
@[simp] theorem Warp.setSplit_pending : (x.setSplit e y).pending = x.pending := rfl
@[simp] theorem Warp.setSplit_park : (x.setSplit e y).park = x.park := rfl
@[simp] theorem Warp.setSplit_resumeFrom : (x.setSplit e y).resumeFrom = x.resumeFrom := rfl
@[simp] theorem Warp.setSplit_readyAt : (x.setSplit e y).readyAt = x.readyAt := rfl
@[simp] theorem Warp.setSplit_yieldAt : (x.setSplit e y).yieldAt = x.yieldAt := rfl
@[simp] theorem Warp.setSplit_issuedAt : (x.setSplit e y).issuedAt = x.issuedAt := rfl
@[simp] theorem Warp.setSplit_issuedPc : (x.setSplit e y).issuedPc = x.issuedPc := rfl
@[simp] theorem Warp.setSplit_gang : (x.setSplit e y).gang = x.gang := rfl
@[simp] theorem Warp.setSplit_seedBase : (x.setSplit e y).seedBase = x.seedBase := rfl
@[simp] theorem Warp.setSplit_lfsr : (x.setSplit e y).lfsr = x.lfsr := rfl
@[simp] theorem Warp.setSplit_barA : (x.setSplit e y).barA = x.barA := rfl
@[simp] theorem Warp.setSplit_barX : (x.setSplit e y).barX = x.barX := rfl
@[simp] theorem Warp.setSplit_seen : (x.setSplit e y).seen = x.seen := rfl
@[simp] theorem Warp.setSplit_thalt : (x.setSplit e y).thalt = x.thalt := rfl
@[simp] theorem Warp.setSplit_hpc : (x.setSplit e y).hpc = x.hpc := rfl
@[simp] theorem Warp.setSplit_whalt : (x.setSplit e y).whalt = x.whalt := rfl
@[simp] theorem Warp.setSplit_haltSlot : (x.setSplit e y).haltSlot = x.haltSlot := rfl
@[simp] theorem Warp.setSplit_haltPartial : (x.setSplit e y).haltPartial = x.haltPartial := rfl
@[simp] theorem Warp.setSplit_haltCause : (x.setSplit e y).haltCause = x.haltCause := rfl
@[simp] theorem Warp.setSplit_haltWatch : (x.setSplit e y).haltWatch = x.haltWatch := rfl
@[simp] theorem Warp.setSplit_privBase : (x.setSplit e y).privBase = x.privBase := rfl
@[simp] theorem Warp.setSplit_privSize : (x.setSplit e y).privSize = x.privSize := rfl
@[simp] theorem Warp.setSplit_rc : (x.setSplit e y).rc = x.rc := rfl
@[simp] theorem Warp.setSplit_ordinal : (x.setSplit e y).ordinal = x.ordinal := rfl
@[simp] theorem Warp.setSplit_rrMode : (x.setSplit e y).rrMode = x.rrMode := rfl
@[simp] theorem Warp.setSplit_rrLog : (x.setSplit e y).rrLog = x.rrLog := rfl
@[simp] theorem Warp.setSplit_rrBase : (x.setSplit e y).rrBase = x.rrBase := rfl
@[simp] theorem Warp.setSplit_mark : (x.setSplit e y).mark = x.mark := rfl
@[simp] theorem Warp.setSplit_step : (x.setSplit e y).step = x.step := rfl
@[simp] theorem Warp.setSplit_owed : (x.setSplit e y).owed = x.owed := rfl
@[simp] theorem Warp.setSplit_relWait : (x.setSplit e y).relWait = x.relWait := rfl

end

section
variable (x : Warp) (r t : Nat) (v : Word)

@[simp] theorem Warp.writeV_resident : (x.writeV r t v).resident = x.resident := rfl
@[simp] theorem Warp.writeV_wg : (x.writeV r t v).wg = x.wg := rfl
@[simp] theorem Warp.writeV_num : (x.writeV r t v).num = x.num := rfl
@[simp] theorem Warp.writeV_role : (x.writeV r t v).role = x.role := rfl
@[simp] theorem Warp.writeV_live : (x.writeV r t v).live = x.live := rfl
@[simp] theorem Warp.writeV_splits : (x.writeV r t v).splits = x.splits := rfl
@[simp] theorem Warp.writeV_sregs : (x.writeV r t v).sregs = x.sregs := rfl
@[simp] theorem Warp.writeV_spoison : (x.writeV r t v).spoison = x.spoison := rfl
@[simp] theorem Warp.writeV_tags : (x.writeV r t v).tags = x.tags := rfl
@[simp] theorem Warp.writeV_u : (x.writeV r t v).u = x.u := rfl
@[simp] theorem Warp.writeV_preds : (x.writeV r t v).preds = x.preds := rfl
@[simp] theorem Warp.writeV_q : (x.writeV r t v).q = x.q := rfl
@[simp] theorem Warp.writeV_mode : (x.writeV r t v).mode = x.mode := rfl
@[simp] theorem Warp.writeV_nsregs : (x.writeV r t v).nsregs = x.nsregs := rfl
@[simp] theorem Warp.writeV_allot : (x.writeV r t v).allot = x.allot := rfl
@[simp] theorem Warp.writeV_giveTo : (x.writeV r t v).giveTo = x.giveTo := rfl
@[simp] theorem Warp.writeV_giveK : (x.writeV r t v).giveK = x.giveK := rfl
@[simp] theorem Warp.writeV_trap : (x.writeV r t v).trap = x.trap := rfl
@[simp] theorem Warp.writeV_doubled : (x.writeV r t v).doubled = x.doubled := rfl
@[simp] theorem Warp.writeV_logDefer : (x.writeV r t v).logDefer = x.logDefer := rfl
@[simp] theorem Warp.writeV_logRef : (x.writeV r t v).logRef = x.logRef := rfl
@[simp] theorem Warp.writeV_logPc : (x.writeV r t v).logPc = x.logPc := rfl
@[simp] theorem Warp.writeV_logDrop : (x.writeV r t v).logDrop = x.logDrop := rfl
@[simp] theorem Warp.writeV_log : (x.writeV r t v).log = x.log := rfl
@[simp] theorem Warp.writeV_pending : (x.writeV r t v).pending = x.pending := rfl
@[simp] theorem Warp.writeV_park : (x.writeV r t v).park = x.park := rfl
@[simp] theorem Warp.writeV_resumeFrom : (x.writeV r t v).resumeFrom = x.resumeFrom := rfl
@[simp] theorem Warp.writeV_readyAt : (x.writeV r t v).readyAt = x.readyAt := rfl
@[simp] theorem Warp.writeV_yieldAt : (x.writeV r t v).yieldAt = x.yieldAt := rfl
@[simp] theorem Warp.writeV_issuedAt : (x.writeV r t v).issuedAt = x.issuedAt := rfl
@[simp] theorem Warp.writeV_issuedPc : (x.writeV r t v).issuedPc = x.issuedPc := rfl
@[simp] theorem Warp.writeV_gang : (x.writeV r t v).gang = x.gang := rfl
@[simp] theorem Warp.writeV_seedBase : (x.writeV r t v).seedBase = x.seedBase := rfl
@[simp] theorem Warp.writeV_lfsr : (x.writeV r t v).lfsr = x.lfsr := rfl
@[simp] theorem Warp.writeV_barA : (x.writeV r t v).barA = x.barA := rfl
@[simp] theorem Warp.writeV_barX : (x.writeV r t v).barX = x.barX := rfl
@[simp] theorem Warp.writeV_seen : (x.writeV r t v).seen = x.seen := rfl
@[simp] theorem Warp.writeV_thalt : (x.writeV r t v).thalt = x.thalt := rfl
@[simp] theorem Warp.writeV_hpc : (x.writeV r t v).hpc = x.hpc := rfl
@[simp] theorem Warp.writeV_whalt : (x.writeV r t v).whalt = x.whalt := rfl
@[simp] theorem Warp.writeV_haltSlot : (x.writeV r t v).haltSlot = x.haltSlot := rfl
@[simp] theorem Warp.writeV_haltPartial : (x.writeV r t v).haltPartial = x.haltPartial := rfl
@[simp] theorem Warp.writeV_haltCause : (x.writeV r t v).haltCause = x.haltCause := rfl
@[simp] theorem Warp.writeV_haltWatch : (x.writeV r t v).haltWatch = x.haltWatch := rfl
@[simp] theorem Warp.writeV_privBase : (x.writeV r t v).privBase = x.privBase := rfl
@[simp] theorem Warp.writeV_privSize : (x.writeV r t v).privSize = x.privSize := rfl
@[simp] theorem Warp.writeV_rc : (x.writeV r t v).rc = x.rc := rfl
@[simp] theorem Warp.writeV_ordinal : (x.writeV r t v).ordinal = x.ordinal := rfl
@[simp] theorem Warp.writeV_rrMode : (x.writeV r t v).rrMode = x.rrMode := rfl
@[simp] theorem Warp.writeV_rrLog : (x.writeV r t v).rrLog = x.rrLog := rfl
@[simp] theorem Warp.writeV_rrBase : (x.writeV r t v).rrBase = x.rrBase := rfl
@[simp] theorem Warp.writeV_mark : (x.writeV r t v).mark = x.mark := rfl
@[simp] theorem Warp.writeV_step : (x.writeV r t v).step = x.step := rfl
@[simp] theorem Warp.writeV_owed : (x.writeV r t v).owed = x.owed := rfl
@[simp] theorem Warp.writeV_relWait : (x.writeV r t v).relWait = x.relWait := rfl

end

section
variable (x : Warp) (r : Nat) (g : BitVec 4)

@[simp] theorem Warp.setTag_resident : (x.setTag r g).resident = x.resident := rfl
@[simp] theorem Warp.setTag_wg : (x.setTag r g).wg = x.wg := rfl
@[simp] theorem Warp.setTag_num : (x.setTag r g).num = x.num := rfl
@[simp] theorem Warp.setTag_role : (x.setTag r g).role = x.role := rfl
@[simp] theorem Warp.setTag_live : (x.setTag r g).live = x.live := rfl
@[simp] theorem Warp.setTag_splits : (x.setTag r g).splits = x.splits := rfl
@[simp] theorem Warp.setTag_sregs : (x.setTag r g).sregs = x.sregs := rfl
@[simp] theorem Warp.setTag_spoison : (x.setTag r g).spoison = x.spoison := rfl
@[simp] theorem Warp.setTag_vregs : (x.setTag r g).vregs = x.vregs := rfl
@[simp] theorem Warp.setTag_u : (x.setTag r g).u = x.u := rfl
@[simp] theorem Warp.setTag_vpoison : (x.setTag r g).vpoison = x.vpoison := rfl
@[simp] theorem Warp.setTag_preds : (x.setTag r g).preds = x.preds := rfl
@[simp] theorem Warp.setTag_q : (x.setTag r g).q = x.q := rfl
@[simp] theorem Warp.setTag_mode : (x.setTag r g).mode = x.mode := rfl
@[simp] theorem Warp.setTag_nsregs : (x.setTag r g).nsregs = x.nsregs := rfl
@[simp] theorem Warp.setTag_allot : (x.setTag r g).allot = x.allot := rfl
@[simp] theorem Warp.setTag_giveTo : (x.setTag r g).giveTo = x.giveTo := rfl
@[simp] theorem Warp.setTag_giveK : (x.setTag r g).giveK = x.giveK := rfl
@[simp] theorem Warp.setTag_trap : (x.setTag r g).trap = x.trap := rfl
@[simp] theorem Warp.setTag_doubled : (x.setTag r g).doubled = x.doubled := rfl
@[simp] theorem Warp.setTag_logDefer : (x.setTag r g).logDefer = x.logDefer := rfl
@[simp] theorem Warp.setTag_logRef : (x.setTag r g).logRef = x.logRef := rfl
@[simp] theorem Warp.setTag_logPc : (x.setTag r g).logPc = x.logPc := rfl
@[simp] theorem Warp.setTag_logDrop : (x.setTag r g).logDrop = x.logDrop := rfl
@[simp] theorem Warp.setTag_log : (x.setTag r g).log = x.log := rfl
@[simp] theorem Warp.setTag_pending : (x.setTag r g).pending = x.pending := rfl
@[simp] theorem Warp.setTag_park : (x.setTag r g).park = x.park := rfl
@[simp] theorem Warp.setTag_resumeFrom : (x.setTag r g).resumeFrom = x.resumeFrom := rfl
@[simp] theorem Warp.setTag_readyAt : (x.setTag r g).readyAt = x.readyAt := rfl
@[simp] theorem Warp.setTag_yieldAt : (x.setTag r g).yieldAt = x.yieldAt := rfl
@[simp] theorem Warp.setTag_issuedAt : (x.setTag r g).issuedAt = x.issuedAt := rfl
@[simp] theorem Warp.setTag_issuedPc : (x.setTag r g).issuedPc = x.issuedPc := rfl
@[simp] theorem Warp.setTag_gang : (x.setTag r g).gang = x.gang := rfl
@[simp] theorem Warp.setTag_seedBase : (x.setTag r g).seedBase = x.seedBase := rfl
@[simp] theorem Warp.setTag_lfsr : (x.setTag r g).lfsr = x.lfsr := rfl
@[simp] theorem Warp.setTag_barA : (x.setTag r g).barA = x.barA := rfl
@[simp] theorem Warp.setTag_barX : (x.setTag r g).barX = x.barX := rfl
@[simp] theorem Warp.setTag_seen : (x.setTag r g).seen = x.seen := rfl
@[simp] theorem Warp.setTag_thalt : (x.setTag r g).thalt = x.thalt := rfl
@[simp] theorem Warp.setTag_hpc : (x.setTag r g).hpc = x.hpc := rfl
@[simp] theorem Warp.setTag_whalt : (x.setTag r g).whalt = x.whalt := rfl
@[simp] theorem Warp.setTag_haltSlot : (x.setTag r g).haltSlot = x.haltSlot := rfl
@[simp] theorem Warp.setTag_haltPartial : (x.setTag r g).haltPartial = x.haltPartial := rfl
@[simp] theorem Warp.setTag_haltCause : (x.setTag r g).haltCause = x.haltCause := rfl
@[simp] theorem Warp.setTag_haltWatch : (x.setTag r g).haltWatch = x.haltWatch := rfl
@[simp] theorem Warp.setTag_privBase : (x.setTag r g).privBase = x.privBase := rfl
@[simp] theorem Warp.setTag_privSize : (x.setTag r g).privSize = x.privSize := rfl
@[simp] theorem Warp.setTag_rc : (x.setTag r g).rc = x.rc := rfl
@[simp] theorem Warp.setTag_ordinal : (x.setTag r g).ordinal = x.ordinal := rfl
@[simp] theorem Warp.setTag_rrMode : (x.setTag r g).rrMode = x.rrMode := rfl
@[simp] theorem Warp.setTag_rrLog : (x.setTag r g).rrLog = x.rrLog := rfl
@[simp] theorem Warp.setTag_rrBase : (x.setTag r g).rrBase = x.rrBase := rfl
@[simp] theorem Warp.setTag_mark : (x.setTag r g).mark = x.mark := rfl
@[simp] theorem Warp.setTag_step : (x.setTag r g).step = x.step := rfl
@[simp] theorem Warp.setTag_owed : (x.setTag r g).owed = x.owed := rfl
@[simp] theorem Warp.setTag_relWait : (x.setTag r g).relWait = x.relWait := rfl

end

section
variable (x : Warp) (r : Nat) (b : Bool)

@[simp] theorem Warp.setU_resident : (x.setU r b).resident = x.resident := rfl
@[simp] theorem Warp.setU_wg : (x.setU r b).wg = x.wg := rfl
@[simp] theorem Warp.setU_num : (x.setU r b).num = x.num := rfl
@[simp] theorem Warp.setU_role : (x.setU r b).role = x.role := rfl
@[simp] theorem Warp.setU_live : (x.setU r b).live = x.live := rfl
@[simp] theorem Warp.setU_splits : (x.setU r b).splits = x.splits := rfl
@[simp] theorem Warp.setU_sregs : (x.setU r b).sregs = x.sregs := rfl
@[simp] theorem Warp.setU_spoison : (x.setU r b).spoison = x.spoison := rfl
@[simp] theorem Warp.setU_vregs : (x.setU r b).vregs = x.vregs := rfl
@[simp] theorem Warp.setU_tags : (x.setU r b).tags = x.tags := rfl
@[simp] theorem Warp.setU_vpoison : (x.setU r b).vpoison = x.vpoison := rfl
@[simp] theorem Warp.setU_preds : (x.setU r b).preds = x.preds := rfl
@[simp] theorem Warp.setU_q : (x.setU r b).q = x.q := rfl
@[simp] theorem Warp.setU_mode : (x.setU r b).mode = x.mode := rfl
@[simp] theorem Warp.setU_nsregs : (x.setU r b).nsregs = x.nsregs := rfl
@[simp] theorem Warp.setU_allot : (x.setU r b).allot = x.allot := rfl
@[simp] theorem Warp.setU_giveTo : (x.setU r b).giveTo = x.giveTo := rfl
@[simp] theorem Warp.setU_giveK : (x.setU r b).giveK = x.giveK := rfl
@[simp] theorem Warp.setU_trap : (x.setU r b).trap = x.trap := rfl
@[simp] theorem Warp.setU_doubled : (x.setU r b).doubled = x.doubled := rfl
@[simp] theorem Warp.setU_logDefer : (x.setU r b).logDefer = x.logDefer := rfl
@[simp] theorem Warp.setU_logRef : (x.setU r b).logRef = x.logRef := rfl
@[simp] theorem Warp.setU_logPc : (x.setU r b).logPc = x.logPc := rfl
@[simp] theorem Warp.setU_logDrop : (x.setU r b).logDrop = x.logDrop := rfl
@[simp] theorem Warp.setU_log : (x.setU r b).log = x.log := rfl
@[simp] theorem Warp.setU_pending : (x.setU r b).pending = x.pending := rfl
@[simp] theorem Warp.setU_park : (x.setU r b).park = x.park := rfl
@[simp] theorem Warp.setU_resumeFrom : (x.setU r b).resumeFrom = x.resumeFrom := rfl
@[simp] theorem Warp.setU_readyAt : (x.setU r b).readyAt = x.readyAt := rfl
@[simp] theorem Warp.setU_yieldAt : (x.setU r b).yieldAt = x.yieldAt := rfl
@[simp] theorem Warp.setU_issuedAt : (x.setU r b).issuedAt = x.issuedAt := rfl
@[simp] theorem Warp.setU_issuedPc : (x.setU r b).issuedPc = x.issuedPc := rfl
@[simp] theorem Warp.setU_gang : (x.setU r b).gang = x.gang := rfl
@[simp] theorem Warp.setU_seedBase : (x.setU r b).seedBase = x.seedBase := rfl
@[simp] theorem Warp.setU_lfsr : (x.setU r b).lfsr = x.lfsr := rfl
@[simp] theorem Warp.setU_barA : (x.setU r b).barA = x.barA := rfl
@[simp] theorem Warp.setU_barX : (x.setU r b).barX = x.barX := rfl
@[simp] theorem Warp.setU_seen : (x.setU r b).seen = x.seen := rfl
@[simp] theorem Warp.setU_thalt : (x.setU r b).thalt = x.thalt := rfl
@[simp] theorem Warp.setU_hpc : (x.setU r b).hpc = x.hpc := rfl
@[simp] theorem Warp.setU_whalt : (x.setU r b).whalt = x.whalt := rfl
@[simp] theorem Warp.setU_haltSlot : (x.setU r b).haltSlot = x.haltSlot := rfl
@[simp] theorem Warp.setU_haltPartial : (x.setU r b).haltPartial = x.haltPartial := rfl
@[simp] theorem Warp.setU_haltCause : (x.setU r b).haltCause = x.haltCause := rfl
@[simp] theorem Warp.setU_haltWatch : (x.setU r b).haltWatch = x.haltWatch := rfl
@[simp] theorem Warp.setU_privBase : (x.setU r b).privBase = x.privBase := rfl
@[simp] theorem Warp.setU_privSize : (x.setU r b).privSize = x.privSize := rfl
@[simp] theorem Warp.setU_rc : (x.setU r b).rc = x.rc := rfl
@[simp] theorem Warp.setU_ordinal : (x.setU r b).ordinal = x.ordinal := rfl
@[simp] theorem Warp.setU_rrMode : (x.setU r b).rrMode = x.rrMode := rfl
@[simp] theorem Warp.setU_rrLog : (x.setU r b).rrLog = x.rrLog := rfl
@[simp] theorem Warp.setU_rrBase : (x.setU r b).rrBase = x.rrBase := rfl
@[simp] theorem Warp.setU_mark : (x.setU r b).mark = x.mark := rfl
@[simp] theorem Warp.setU_step : (x.setU r b).step = x.step := rfl
@[simp] theorem Warp.setU_owed : (x.setU r b).owed = x.owed := rfl
@[simp] theorem Warp.setU_relWait : (x.setU r b).relWait = x.relWait := rfl

end

section
variable (x : Warp) (p : Nat) (m : Mask)

@[simp] theorem Warp.setPred_resident : (x.setPred p m).resident = x.resident := rfl
@[simp] theorem Warp.setPred_wg : (x.setPred p m).wg = x.wg := rfl
@[simp] theorem Warp.setPred_num : (x.setPred p m).num = x.num := rfl
@[simp] theorem Warp.setPred_role : (x.setPred p m).role = x.role := rfl
@[simp] theorem Warp.setPred_live : (x.setPred p m).live = x.live := rfl
@[simp] theorem Warp.setPred_splits : (x.setPred p m).splits = x.splits := rfl
@[simp] theorem Warp.setPred_sregs : (x.setPred p m).sregs = x.sregs := rfl
@[simp] theorem Warp.setPred_spoison : (x.setPred p m).spoison = x.spoison := rfl
@[simp] theorem Warp.setPred_vregs : (x.setPred p m).vregs = x.vregs := rfl
@[simp] theorem Warp.setPred_tags : (x.setPred p m).tags = x.tags := rfl
@[simp] theorem Warp.setPred_u : (x.setPred p m).u = x.u := rfl
@[simp] theorem Warp.setPred_vpoison : (x.setPred p m).vpoison = x.vpoison := rfl
@[simp] theorem Warp.setPred_q : (x.setPred p m).q = x.q := rfl
@[simp] theorem Warp.setPred_mode : (x.setPred p m).mode = x.mode := rfl
@[simp] theorem Warp.setPred_nsregs : (x.setPred p m).nsregs = x.nsregs := rfl
@[simp] theorem Warp.setPred_allot : (x.setPred p m).allot = x.allot := rfl
@[simp] theorem Warp.setPred_giveTo : (x.setPred p m).giveTo = x.giveTo := rfl
@[simp] theorem Warp.setPred_giveK : (x.setPred p m).giveK = x.giveK := rfl
@[simp] theorem Warp.setPred_trap : (x.setPred p m).trap = x.trap := rfl
@[simp] theorem Warp.setPred_doubled : (x.setPred p m).doubled = x.doubled := rfl
@[simp] theorem Warp.setPred_logDefer : (x.setPred p m).logDefer = x.logDefer := rfl
@[simp] theorem Warp.setPred_logRef : (x.setPred p m).logRef = x.logRef := rfl
@[simp] theorem Warp.setPred_logPc : (x.setPred p m).logPc = x.logPc := rfl
@[simp] theorem Warp.setPred_logDrop : (x.setPred p m).logDrop = x.logDrop := rfl
@[simp] theorem Warp.setPred_log : (x.setPred p m).log = x.log := rfl
@[simp] theorem Warp.setPred_pending : (x.setPred p m).pending = x.pending := rfl
@[simp] theorem Warp.setPred_park : (x.setPred p m).park = x.park := rfl
@[simp] theorem Warp.setPred_resumeFrom : (x.setPred p m).resumeFrom = x.resumeFrom := rfl
@[simp] theorem Warp.setPred_readyAt : (x.setPred p m).readyAt = x.readyAt := rfl
@[simp] theorem Warp.setPred_yieldAt : (x.setPred p m).yieldAt = x.yieldAt := rfl
@[simp] theorem Warp.setPred_issuedAt : (x.setPred p m).issuedAt = x.issuedAt := rfl
@[simp] theorem Warp.setPred_issuedPc : (x.setPred p m).issuedPc = x.issuedPc := rfl
@[simp] theorem Warp.setPred_gang : (x.setPred p m).gang = x.gang := rfl
@[simp] theorem Warp.setPred_seedBase : (x.setPred p m).seedBase = x.seedBase := rfl
@[simp] theorem Warp.setPred_lfsr : (x.setPred p m).lfsr = x.lfsr := rfl
@[simp] theorem Warp.setPred_barA : (x.setPred p m).barA = x.barA := rfl
@[simp] theorem Warp.setPred_barX : (x.setPred p m).barX = x.barX := rfl
@[simp] theorem Warp.setPred_seen : (x.setPred p m).seen = x.seen := rfl
@[simp] theorem Warp.setPred_thalt : (x.setPred p m).thalt = x.thalt := rfl
@[simp] theorem Warp.setPred_hpc : (x.setPred p m).hpc = x.hpc := rfl
@[simp] theorem Warp.setPred_whalt : (x.setPred p m).whalt = x.whalt := rfl
@[simp] theorem Warp.setPred_haltSlot : (x.setPred p m).haltSlot = x.haltSlot := rfl
@[simp] theorem Warp.setPred_haltPartial : (x.setPred p m).haltPartial = x.haltPartial := rfl
@[simp] theorem Warp.setPred_haltCause : (x.setPred p m).haltCause = x.haltCause := rfl
@[simp] theorem Warp.setPred_haltWatch : (x.setPred p m).haltWatch = x.haltWatch := rfl
@[simp] theorem Warp.setPred_privBase : (x.setPred p m).privBase = x.privBase := rfl
@[simp] theorem Warp.setPred_privSize : (x.setPred p m).privSize = x.privSize := rfl
@[simp] theorem Warp.setPred_rc : (x.setPred p m).rc = x.rc := rfl
@[simp] theorem Warp.setPred_ordinal : (x.setPred p m).ordinal = x.ordinal := rfl
@[simp] theorem Warp.setPred_rrMode : (x.setPred p m).rrMode = x.rrMode := rfl
@[simp] theorem Warp.setPred_rrLog : (x.setPred p m).rrLog = x.rrLog := rfl
@[simp] theorem Warp.setPred_rrBase : (x.setPred p m).rrBase = x.rrBase := rfl
@[simp] theorem Warp.setPred_mark : (x.setPred p m).mark = x.mark := rfl
@[simp] theorem Warp.setPred_step : (x.setPred p m).step = x.step := rfl
@[simp] theorem Warp.setPred_owed : (x.setPred p m).owed = x.owed := rfl
@[simp] theorem Warp.setPred_relWait : (x.setPred p m).relWait = x.relWait := rfl

end

section
variable (x : Warp) (k : Nat) (b : Bool)

@[simp] theorem Warp.setQ_resident : (x.setQ k b).resident = x.resident := rfl
@[simp] theorem Warp.setQ_wg : (x.setQ k b).wg = x.wg := rfl
@[simp] theorem Warp.setQ_num : (x.setQ k b).num = x.num := rfl
@[simp] theorem Warp.setQ_role : (x.setQ k b).role = x.role := rfl
@[simp] theorem Warp.setQ_live : (x.setQ k b).live = x.live := rfl
@[simp] theorem Warp.setQ_splits : (x.setQ k b).splits = x.splits := rfl
@[simp] theorem Warp.setQ_sregs : (x.setQ k b).sregs = x.sregs := rfl
@[simp] theorem Warp.setQ_spoison : (x.setQ k b).spoison = x.spoison := rfl
@[simp] theorem Warp.setQ_vregs : (x.setQ k b).vregs = x.vregs := rfl
@[simp] theorem Warp.setQ_tags : (x.setQ k b).tags = x.tags := rfl
@[simp] theorem Warp.setQ_u : (x.setQ k b).u = x.u := rfl
@[simp] theorem Warp.setQ_vpoison : (x.setQ k b).vpoison = x.vpoison := rfl
@[simp] theorem Warp.setQ_preds : (x.setQ k b).preds = x.preds := rfl
@[simp] theorem Warp.setQ_mode : (x.setQ k b).mode = x.mode := rfl
@[simp] theorem Warp.setQ_nsregs : (x.setQ k b).nsregs = x.nsregs := rfl
@[simp] theorem Warp.setQ_allot : (x.setQ k b).allot = x.allot := rfl
@[simp] theorem Warp.setQ_giveTo : (x.setQ k b).giveTo = x.giveTo := rfl
@[simp] theorem Warp.setQ_giveK : (x.setQ k b).giveK = x.giveK := rfl
@[simp] theorem Warp.setQ_trap : (x.setQ k b).trap = x.trap := rfl
@[simp] theorem Warp.setQ_doubled : (x.setQ k b).doubled = x.doubled := rfl
@[simp] theorem Warp.setQ_logDefer : (x.setQ k b).logDefer = x.logDefer := rfl
@[simp] theorem Warp.setQ_logRef : (x.setQ k b).logRef = x.logRef := rfl
@[simp] theorem Warp.setQ_logPc : (x.setQ k b).logPc = x.logPc := rfl
@[simp] theorem Warp.setQ_logDrop : (x.setQ k b).logDrop = x.logDrop := rfl
@[simp] theorem Warp.setQ_log : (x.setQ k b).log = x.log := rfl
@[simp] theorem Warp.setQ_pending : (x.setQ k b).pending = x.pending := rfl
@[simp] theorem Warp.setQ_park : (x.setQ k b).park = x.park := rfl
@[simp] theorem Warp.setQ_resumeFrom : (x.setQ k b).resumeFrom = x.resumeFrom := rfl
@[simp] theorem Warp.setQ_readyAt : (x.setQ k b).readyAt = x.readyAt := rfl
@[simp] theorem Warp.setQ_yieldAt : (x.setQ k b).yieldAt = x.yieldAt := rfl
@[simp] theorem Warp.setQ_issuedAt : (x.setQ k b).issuedAt = x.issuedAt := rfl
@[simp] theorem Warp.setQ_issuedPc : (x.setQ k b).issuedPc = x.issuedPc := rfl
@[simp] theorem Warp.setQ_gang : (x.setQ k b).gang = x.gang := rfl
@[simp] theorem Warp.setQ_seedBase : (x.setQ k b).seedBase = x.seedBase := rfl
@[simp] theorem Warp.setQ_lfsr : (x.setQ k b).lfsr = x.lfsr := rfl
@[simp] theorem Warp.setQ_barA : (x.setQ k b).barA = x.barA := rfl
@[simp] theorem Warp.setQ_barX : (x.setQ k b).barX = x.barX := rfl
@[simp] theorem Warp.setQ_seen : (x.setQ k b).seen = x.seen := rfl
@[simp] theorem Warp.setQ_thalt : (x.setQ k b).thalt = x.thalt := rfl
@[simp] theorem Warp.setQ_hpc : (x.setQ k b).hpc = x.hpc := rfl
@[simp] theorem Warp.setQ_whalt : (x.setQ k b).whalt = x.whalt := rfl
@[simp] theorem Warp.setQ_haltSlot : (x.setQ k b).haltSlot = x.haltSlot := rfl
@[simp] theorem Warp.setQ_haltPartial : (x.setQ k b).haltPartial = x.haltPartial := rfl
@[simp] theorem Warp.setQ_haltCause : (x.setQ k b).haltCause = x.haltCause := rfl
@[simp] theorem Warp.setQ_haltWatch : (x.setQ k b).haltWatch = x.haltWatch := rfl
@[simp] theorem Warp.setQ_privBase : (x.setQ k b).privBase = x.privBase := rfl
@[simp] theorem Warp.setQ_privSize : (x.setQ k b).privSize = x.privSize := rfl
@[simp] theorem Warp.setQ_rc : (x.setQ k b).rc = x.rc := rfl
@[simp] theorem Warp.setQ_ordinal : (x.setQ k b).ordinal = x.ordinal := rfl
@[simp] theorem Warp.setQ_rrMode : (x.setQ k b).rrMode = x.rrMode := rfl
@[simp] theorem Warp.setQ_rrLog : (x.setQ k b).rrLog = x.rrLog := rfl
@[simp] theorem Warp.setQ_rrBase : (x.setQ k b).rrBase = x.rrBase := rfl
@[simp] theorem Warp.setQ_mark : (x.setQ k b).mark = x.mark := rfl
@[simp] theorem Warp.setQ_step : (x.setQ k b).step = x.step := rfl
@[simp] theorem Warp.setQ_owed : (x.setQ k b).owed = x.owed := rfl
@[simp] theorem Warp.setQ_relWait : (x.setQ k b).relWait = x.relWait := rfl

end

/-! ### Reads after writes -/

@[simp] theorem Warp.readS_zero (x : Warp) : x.readS 0 = 0 := rfl

@[simp] theorem Warp.writeS_zero (x : Warp) (v : Word) : x.writeS 0 v = x := rfl

@[simp] theorem Warp.readV_writeV (x : Warp) (r t : Nat) (v : Word) (q k : Nat) :
    (x.writeV r t v).readV q k = if q * 96 + k = r * 96 + t then v else x.readV q k := by
  simp only [Warp.readV, Warp.writeV, Store.get_set]

@[simp] theorem Warp.tag_setTag (x : Warp) (r : Nat) (g : BitVec 4) (q : Nat) : (x.setTag r g).tag q = if q = r then g else x.tag q := by
  simp only [Warp.tag, Warp.setTag, Store.get_set]

@[simp] theorem Warp.pred_setPred (x : Warp) (p : Nat) (m : Mask) (q : Nat) : (x.setPred p m).pred q = if q = p then m else x.pred q := by
  simp only [Warp.pred, Warp.setPred, Store.get_set]

@[simp] theorem Warp.split_setSplit (x : Warp) (e : Nat) (y : Split) (f : Nat) : (x.setSplit e y).split f = if f = e then y else x.split f := by
  simp only [Warp.split, Warp.setSplit, Store.get_set]

/-- A scalar register below s61 after a write below s61. -/
theorem Warp.readS_writeS_low (x : Warp) (r : Nat) (v : Word) (q : Nat) (hr : r < 61) (hq : q < 61) :
    (x.writeS r v).readS q = if q = r ∧ r ≠ 0 then v else x.readS q := by
  unfold Warp.writeS Warp.readS
  by_cases h0 : r = 0
  · simp [h0]
  · rw [if_neg h0, if_neg (by omega : ¬ r ≥ 61)]
    by_cases hq0 : q = 0
    · simp [hq0, Ne.symm h0]
    · rw [if_neg hq0, if_neg (by omega : ¬ q ≥ 61), if_neg hq0, if_neg (by omega : ¬ q ≥ 61), Store.get_set]
      by_cases hqr : q = r <;> simp [hqr, h0]

/-- The warp has a running entry exactly when some entry is RUNNING, and then `run` names one. -/
theorem Warp.run_state (x : Warp) (h : x.run < 8) : (x.split x.run).state = .running := by
  unfold Warp.run at *
  cases hl : ((List.range 8).filter fun e => (x.split e).state == .running).head? with
  | none => rw [hl] at h; simp at h
  | some e =>
    simp only [Option.getD_some]
    have := List.mem_of_mem_head? (by rw [hl]; rfl : e ∈ ((List.range 8).filter fun e => (x.split e).state == .running).head?)
    exact eq_of_beq (List.mem_filter.mp this).2

/-- Whether an entry is RUNNING decides `run`: warps that agree on it agree on `run`. -/
theorem Warp.run_congr (x y : Warp) (h : ∀ e, e < 8 → ((y.split e).state == .running) = ((x.split e).state == .running)) : y.run = x.run := by
  unfold Warp.run
  rw [List.filter_congr fun e he => h e (List.mem_range.mp he)]

/-- Moving the PC keeps the running entry and every other entry. -/
theorem Warp.run_setPc (x : Warp) (pc : Word) : (x.setPc pc).run = x.run := by
  refine Warp.run_congr _ _ fun e _ => ?_
  unfold Warp.setPc Warp.setCur
  split
  · rw [Warp.split_setSplit]
    split
    · rename_i h; rw [h]; rfl
    · rfl
  · rfl

theorem Warp.pc_setPc (x : Warp) (pc : Word) (h : x.run < 8) : (x.setPc pc).pc = pc := by
  unfold Warp.pc Warp.cur
  rw [Warp.run_setPc]
  unfold Warp.setPc Warp.setCur
  rw [if_pos h, Warp.split_setSplit, if_pos rfl]

theorem Warp.split_setPc (x : Warp) (pc : Word) (e : Nat) (h : e ≠ x.run) : (x.setPc pc).split e = x.split e := by
  unfold Warp.setPc Warp.setCur
  split
  · rw [Warp.split_setSplit, if_neg h]
  · rfl

end Sys2Proof.Machine
end

