-- ==== Sys2Proof/Laws/Issue.lean ====
section
/-! SUPPORT. What the shared operations of a word can do: its issue, its retirement, its end, and the trap it may take. -/

namespace Sys2Proof.Machine

/-- A word of a resident warp with a running split answers a next state, whatever its form and its effect. -/
theorem issue_next (form : Warp → Form) (body : Nat → State → Act) (s : State) (h : (s.warp s.cur).resident = true)
    (hr : (s.warp s.cur).run < 8) : ∃ t, issue form body s = .next t := by
  unfold issue
  rw [if_neg (by simp [h]; omega)]
  exact ⟨_, rfl⟩

/-- Without one it faults. -/
theorem issue_fault (form : Warp → Form) (body : Nat → State → Act) (s : State)
    (h : (s.warp s.cur).resident = false ∨ 8 ≤ (s.warp s.cur).run) : issue form body s = .fault .noWarp := by
  unfold issue
  rw [if_pos]
  rcases h with h | h <;> simp [h]

/-- No word is refused. -/
theorem issue_not_refused (form : Warp → Form) (body : Nat → State → Act) (s : State) (r : Refusal) : issue form body s ≠ .refused r := by
  unfold issue
  simp only
  split <;> simp

/-- Where no watch that looks is armed, presenting a thread's sources changes nothing and halts nothing. -/
theorem presentAll_unwatched (s : State) (bank : Store Watch) (w t : Nat) (pc : Word) (xs : List Show)
    (h : ∀ e ∈ bank, e.2.armed = false) : s.presentAll bank w t pc xs = (s, 0, 0) := by
  have hn : s.hits bank w t xs = [] := by
    unfold State.hits
    rw [List.flatMap_eq_nil_iff]
    intro e he
    rw [List.map_eq_nil_iff, List.filter_eq_nil_iff]
    intro x _ hc
    have := h e he
    simp [State.watches, this] at hc
  unfold State.presentAll
  rw [hn]
  rfl

/-- No armed watch of a core sees nothing: presenting a source changes nothing and halts nothing. -/
theorem present_unwatched (s : State) (w t src space : Nat) (v : DWord) (fl : FFlags) (h : ∀ e ∈ s.bank w, e.2.armed = false) :
    s.present w t src space v fl = (s, 0, 0) := presentAll_unwatched s _ w t _ _ h

theorem presentPc_unwatched (s : State) (w : Nat) (ts : List Nat) (h : ∀ e ∈ s.bank w, e.2.armed = false) : s.presentPc w ts = (s, false) := by
  induction ts with
  | nil => rfl
  | cons t ts ih =>
    unfold State.presentPc
    rw [present_unwatched s w t 5 0 _ {} h]
    simpa using ih

@[simp] theorem State.warp_noted (s : State) (w v : Nat) :
    (s.noted w).warp v = if v = w then (s.warp w).noted (s.now w) else s.warp v := by
  simp [State.noted]

/-- The issue of a word that no watch looks at: its checks, a skip, or its effect. -/
theorem issue_plain (form : Warp → Form) (body : Nat → State → Act) (s : State) (h : (s.warp s.cur).resident = true)
    (hr : (s.warp s.cur).run < 8) (hb : ∀ e ∈ s.bank s.cur, e.2.armed = false) :
    issue form body s = .next ((s.noted s.cur).checked s.cur (form ((s.warp s.cur).noted (s.now s.cur))) body) := by
  have hb' : ∀ e ∈ (s.noted s.cur).bank s.cur, e.2.armed = false := hb
  unfold issue
  rw [if_neg (by simp [h]; omega)]
  simp only [presentPc_unwatched _ _ _ hb', ite_self, State.warp_noted, if_true, Bool.false_eq_true, if_false]

/-- A word that is not the rest of a store fails a check and traps. -/
theorem checked_fails (s : State) (w : Nat) (f : Form) (body : Nat → State → Act) (c t : Nat) (a : DWord)
    (hr : (s.warp w).rest = []) (h : f.fails (s.warp w) (s.levelOf (s.ctxOf w)) (s.hazardChecks w) = some (c, t, a)) :
    s.checked w f body = s.conclude w f (s.warp w) (.trap c t a false s) := by
  unfold State.checked
  simp [h, hr]

/-- A vector word with no active thread is skipped. -/
theorem checked_skips (s : State) (w : Nat) (f : Form) (body : Nat → State → Act) (hr : (s.warp w).rest = [])
    (h : f.fails (s.warp w) (s.levelOf (s.ctxOf w)) (s.hazardChecks w) = none) (hv : f.vector = true) (ha : (s.warp w).active = 0) :
    s.checked w f body = ((s.advance w f.len).retire w f (s.warp w) true).marked w f.m := by
  unfold State.checked
  simp [h, hv, ha, hr]

/-- Any other word that is no check point performs its effect. -/
theorem checked_performs (s : State) (w : Nat) (f : Form) (body : Nat → State → Act) (hr : (s.warp w).rest = [])
    (h : f.fails (s.warp w) (s.levelOf (s.ctxOf w)) (s.hazardChecks w) = none) (hv : f.vector = false ∨ (s.warp w).active ≠ 0)
    (hc : f.check = none) : s.checked w f body = s.conclude w f (s.warp w) (body w s) := by
  unfold State.checked State.runBody
  have hk : (f.vector && (s.warp w).active == 0) = false := by
    rcases hv with hv | hv
    · simp [hv]
    · rw [beq_false_of_ne hv, Bool.and_false]
  simp only [h, hk, hc, hr, Bool.false_eq_true, if_false, List.isEmpty_nil, Bool.not_true]

/-! ### Ends of a word -/

@[simp] theorem conclude_done (s t : State) (w : Nat) (f : Form) (x : Warp) :
    s.conclude w f x (.done t) = ((t.advance w f.len).retire w f x false).marked w f.m := rfl
@[simp] theorem conclude_jump (s t : State) (w : Nat) (f : Form) (x : Warp) :
    s.conclude w f x (.jump t) = (t.retire w f x false).marked w f.m := rfl
@[simp] theorem conclude_halt (s t : State) (w : Nat) (f : Form) (x : Warp) : s.conclude w f x (.halt t) = t.issued w f x false := rfl
@[simp] theorem conclude_park (s t : State) (w : Nat) (f : Form) (x : Warp) (p : Park) : s.conclude w f x (.park p t) = t.parkWarp w p := rfl
@[simp] theorem conclude_trap (s t : State) (w : Nat) (f : Form) (x : Warp) (c g : Nat) (a : DWord) (p : Bool) :
    s.conclude w f x (.trap c g a p t) = (t.trapAt w c g a (p || x.resumedPart c)).issued w f x false := rfl

/-- A word raises no deferred trap while the log holds no refused entry. -/
theorem marked_clean (s : State) (w : Nat) (m : Bool) (h : (s.warp w).refusedEntry = none) : s.marked w m = s := by
  unfold State.marked
  rw [if_neg]
  simp [h]

/-- Retirement of a word that is no check point changes its warp's books, then the slice's: the deficit, the slot, the pipe. -/
theorem retire_eq (s : State) (w : Nat) (f : Form) (x0 : Warp) (sk : Bool) (h : f.check = none) :
    s.retire w f x0 sk = (s.modWarp w fun x => { x with
      rc := x.rc + 1, resumeFrom := if x.resumeFrom = x0.resumeFrom then 0 else x.resumeFrom
      park := if f.m && !x.pending.isEmpty then x.park.marked else x.park }).issued w f x0 sk := by
  unfold State.retire
  rw [h]

@[simp] theorem advance_eq (s : State) (w len : Nat) : s.advance w len = s.modWarp w fun x => x.setPc (x.pc + BitVec.ofNat 32 len) := rfl

/-! ### Traps -/

/-- A trap of a warp that is not stepped, not in a handler and waits for no result, in a context that neither traces traps nor dumps
this one. -/
theorem takeTrap_plain (s : State) (w c f : Nat) (a : DWord) (first : Word) (part : Bool) (pc : Word)
    (h1 : (s.warp w).step = none) (h2 : (s.warp w).cur.trapm = false) (h3 : (s.ctx (s.ctxOf w)).trTraps = false)
    (h4 : (s.ctx (s.ctxOf w)).dumps c = false) (h5 : (s.warp w).awaits = false) :
    s.takeTrap w c f a first part pc =
      (s.modWarp w fun x => { x.enterTrap (s.ctx (s.ctxOf w)).tvec c f a first part pc with park := .none }).partGang w := by
  unfold State.takeTrap State.trapEnters
  simp only [h1, h2, h3, h4, h5, Option.any_none, Bool.false_eq_true, if_false]

/-- One that waits for results enters its handler later (R94). -/
theorem takeTrap_waits (s : State) (w c f : Nat) (a : DWord) (first : Word) (part : Bool) (pc : Word)
    (h1 : (s.warp w).step = none) (h2 : (s.warp w).cur.trapm = false) (h5 : (s.warp w).awaits = true) :
    s.takeTrap w c f a first part pc = (s.modWarp w fun x => { x with park := .trapEntry c f a first part pc }).partGang w := by
  unfold State.takeTrap
  simp only [h1, h2, h5, Option.any_none, Bool.false_eq_true, if_false, if_true]

/-- A trap in a handler halts the warp. -/
theorem takeTrap_double (s : State) (w c f : Nat) (a : DWord) (first : Word) (part : Bool) (pc : Word)
    (h1 : (s.warp w).step = none) (h2 : (s.warp w).cur.trapm = true)
    (h4 : (((s.modWarp w fun x => x.doubleTrap c).partGang w).haltEvent w).partOf (s.ctxOf w) = none) :
    s.takeTrap w c f a first part pc = ((s.modWarp w fun x => x.doubleTrap c).partGang w).haltEvent w := by
  unfold State.takeTrap
  simp only [h1, h2, Option.any_none, Bool.false_eq_true, if_false, if_true, h4]

/-- A warp outside every gang parts from none. -/
theorem partGang_alone (s : State) (w : Nat) (h : (s.warp w).gang = 0) : s.partGang w = s := by
  unfold State.partGang
  simp only [h, if_true]

end Sys2Proof.Machine
end

