-- ==== Sys2Proof/Laws/Memory.lean ====
section
/-! SUPPORT. Every operation over memory keeps the canonical form, and what a read gives after a write. -/

namespace Sys2Proof.Machine

theorem Memory.wf_iff (s : State) : Memory.wf s = true ↔ Store.wf 0 s.hbm = true ∧ Store.wf none s.l2 = true ∧ Store.wf none s.l1 = true := by
  simp [Memory.wf, and_assoc]

/-- An operation that leaves the three collections alone keeps the form. -/
theorem Memory.wf_congr (s t : State) (h1 : t.hbm = s.hbm) (h2 : t.l2 = s.l2) (h3 : t.l1 = s.l1) : Memory.wf t = Memory.wf s := by
  simp only [Memory.wf, h1, h2, h3]

@[simp] theorem Memory.wf_modWarp (s : State) (w : Nat) (f : Warp → Warp) : Memory.wf (s.modWarp w f) = Memory.wf s := rfl
@[simp] theorem Memory.wf_modCore (s : State) (c : Nat) (f : Core → Core) : Memory.wf (s.modCore c f) = Memory.wf s := rfl
@[simp] theorem Memory.wf_modWg (s : State) (g : Nat) (f : Workgroup → Workgroup) : Memory.wf (s.modWg g f) = Memory.wf s := rfl
@[simp] theorem Memory.wf_modLaunch (s : State) (l : Nat) (f : Launch → Launch) : Memory.wf (s.modLaunch l f) = Memory.wf s := rfl
@[simp] theorem Memory.wf_modCtx (s : State) (c : Nat) (f : Ctx → Ctx) : Memory.wf (s.modCtx c f) = Memory.wf s := rfl
@[simp] theorem Memory.wf_modPart (s : State) (p : Nat) (f : Part → Part) : Memory.wf (s.modPart p f) = Memory.wf s := rfl
@[simp] theorem Memory.wf_modQueue (s : State) (q : Nat) (f : Queue → Queue) : Memory.wf (s.modQueue q f) = Memory.wf s := rfl
@[simp] theorem Memory.wf_modPort (s : State) (p : Nat) (f : Port → Port) : Memory.wf (s.modPort p f) = Memory.wf s := rfl
@[simp] theorem Memory.wf_modCluster (s : State) (c : Nat) (f : Cluster → Cluster) : Memory.wf (s.modCluster c f) = Memory.wf s := rfl
@[simp] theorem Memory.wf_at (s : State) (n : Nat) (e : Instr) : Memory.wf (s.at n e) = Memory.wf s := rfl
@[simp] theorem Memory.wf_soon (s : State) (e : Instr) : Memory.wf (s.soon e) = Memory.wf s := rfl
@[simp] theorem Memory.wf_clearReport (s : State) (pa n : Nat) : Memory.wf (s.clearReport pa n) = Memory.wf s := rfl

/-- Any run of steps over the state that each keep the form keeps it. -/
theorem Memory.wf_foldl {β : Type} (f : State → β → State) (hf : ∀ s b, Memory.wf s = true → Memory.wf (f s b) = true) (bs : List β) (s : State)
    (h : Memory.wf s = true) : Memory.wf (bs.foldl f s) = true := by
  induction bs generalizing s with
  | nil => exact h
  | cons b bs ih => exact ih (f s b) (hf s b h)

theorem Memory.wf_recipher (s : State) (l : Nat) (h : Memory.wf s = true) : Memory.wf (s.recipher l) = true := by
  rw [Memory.wf_iff] at *
  exact ⟨Store.wf_foldl 0 _ (fun m b hm => Store.wf_set 0 m _ _ hm) _ _ h.1, h.2.1, h.2.2⟩

theorem Memory.wf_recipherAll (s : State) (ls : List Nat) (h : Memory.wf s = true) : Memory.wf (s.recipherAll ls) = true := by
  unfold State.recipherAll
  split
  · exact h
  · exact Memory.wf_foldl _ (fun s b hs => Memory.wf_recipher s b hs) _ s h

theorem Memory.wf_l2Clean (s : State) (p : Nat → Bool) (h : Memory.wf s = true) : Memory.wf (s.l2Clean p) = true := by
  unfold State.l2Clean
  have h1 := Memory.wf_recipherAll s ((s.l2.filterMap fun e => if p e.1 then some (e.1 / 128) else none).eraseDups) h
  rw [Memory.wf_iff] at *
  refine ⟨Store.wf_foldl 0 _ (fun m b hm => ?_) _ _ h1.1, Store.wf_filter none _ _ h1.2.1, h1.2.2⟩
  split
  · split
    · exact Store.wf_set 0 m _ _ hm
    · exact hm
  · exact hm

theorem Memory.wf_l2Alloc (s : State) (l hint : Nat) (h : Memory.wf s = true) : Memory.wf (s.l2Alloc l hint) = true := by
  unfold State.l2Alloc
  simp only
  split
  · exact h
  · split
    · exact h
    · show Memory.wf (if _ then _ else _) = true
      split
      · exact h
      · exact Memory.wf_l2Clean _ _ h

@[simp] theorem Memory.wf_addWork (s : State) (core : Nat) (x : PowerSample) : Memory.wf (s.addWork core x) = Memory.wf s := rfl

theorem Memory.wf_ring (s : State) (pa n : Nat) : Memory.wf (s.ring pa n) = Memory.wf s := by
  unfold State.ring; split <;> rfl

theorem Memory.wf_l2Put (s : State) (pa : Nat) (bs : List Byte) (hint : Nat) (h : Memory.wf s = true) :
    Memory.wf (s.l2Put pa bs hint) = true := by
  have h1 : Memory.wf (((linesOf pa bs.length).foldl (fun s l => s.l2Alloc l hint) s).ring pa bs.length) = true := by
    rw [Memory.wf_ring]
    exact Memory.wf_foldl _ (fun s b hs => Memory.wf_l2Alloc s b hint hs) _ s h
  unfold State.l2Put
  rw [Memory.wf_clearReport]
  rw [Memory.wf_iff] at *
  exact ⟨h1.1, Store.wf_foldl none _ (fun m b hm => Store.wf_set none m _ _ hm) _ _ h1.2.1, h1.2.2⟩

theorem Memory.wf_l2WriteAs (s : State) (pa : Nat) (bs : List Byte) (hint : Nat) (h : Memory.wf s = true) :
    Memory.wf (s.l2WriteAs pa bs hint) = true := by
  unfold State.l2WriteAs State.l2Through
  have h1 := Memory.wf_l2Put s pa bs hint h
  split
  · exact h1
  · exact Memory.wf_l2Clean _ _ h1

theorem Memory.wf_l2Write (s : State) (pa : Nat) (bs : List Byte) (h : Memory.wf s = true) : Memory.wf (s.l2Write pa bs) = true :=
  Memory.wf_l2WriteAs s pa bs 0 h

@[simp] theorem Memory.wf_replaces (s : State) (id pa n : Nat) : Memory.wf (s.replaces id pa n).2 = Memory.wf s := rfl
@[simp] theorem Memory.wf_clearUnits (s : State) (us : List Nat) : Memory.wf (s.clearUnits us) = Memory.wf s := rfl

theorem Memory.wf_l2Part (s : State) (id pa : Nat) (bs : List Byte) (hint : Nat) (h : Memory.wf s = true) :
    Memory.wf (s.l2Part id pa bs hint) = true := by
  unfold State.l2Part
  apply Memory.wf_l2WriteAs
  rw [Memory.wf_clearUnits, Memory.wf_replaces]
  exact h

theorem Memory.wf_l2SetNum (s : State) (pa n v : Nat) (h : Memory.wf s = true) : Memory.wf (s.l2SetNum pa n v) = true :=
  Memory.wf_l2Write s pa _ h

theorem Memory.wf_l1Writeback (s : State) (core : Nat) (p : Nat → L1Byte → Bool) (drop : Bool) (h : Memory.wf s = true) :
    Memory.wf (s.l1Writeback core p drop) = true := by
  unfold State.l1Writeback
  simp only
  generalize (s.l1.filterMap _) = mine
  have h1 := Memory.wf_foldl (fun (s : State) (e : Nat × L1Byte) =>
      if e.2.dirty = true then s.l2WriteAs e.1 [e.2.val] (s.l1Hint core (e.1 / 128)) else s)
    (fun s b hs => by
      show Memory.wf (if _ then _ else _) = true
      split
      · exact Memory.wf_l2WriteAs s _ _ _ hs
      · exact hs) mine s h
  generalize mine.foldl _ s = s1 at h1
  have h2 : Memory.wf (if s1.poisoned.isEmpty = true then s1 else
      s1.clearUnits ((mine.filter fun e => e.2.dirty && e.2.whole).map fun e => e.1 / 32)) = true := by
    split
    · exact h1
    · exact h1
  rw [Memory.wf_iff] at *
  refine ⟨h2.1, h2.2.1, Store.wf_foldl none _ (fun m b hm => ?_) _ _ h2.2.2⟩
  split
  · exact Store.wf_erase none m _ hm
  · exact Store.wf_insert none m _ _ (by simp) hm

theorem Memory.wf_l1Release (s : State) (core : Nat) (h : Memory.wf s = true) : Memory.wf (s.l1Release core) = true :=
  Memory.wf_l1Writeback s core _ _ h

theorem Memory.wf_l1Purge (s : State) (core line : Nat) (h : Memory.wf s = true) : Memory.wf (s.l1Purge core line) = true :=
  Memory.wf_l1Writeback s core _ _ h

theorem Memory.wf_l1Acquire (s : State) (core : Nat) (h : Memory.wf s = true) : Memory.wf (s.l1Acquire core) = true := by
  rw [Memory.wf_iff] at *
  exact ⟨h.1, h.2.1, Store.wf_filter none _ _ h.2.2⟩

theorem Memory.wf_l1DropPriv (s : State) (core : Nat) (p : Nat → Bool) (h : Memory.wf s = true) : Memory.wf (s.l1DropPriv core p) = true := by
  rw [Memory.wf_iff] at *
  exact ⟨h.1, h.2.1, Store.wf_filter none _ _ h.2.2⟩

theorem Memory.wf_l1Alloc (s : State) (core line hint : Nat) (h : Memory.wf s = true) : Memory.wf (s.l1Alloc core line hint) = true := by
  unfold State.l1Alloc
  simp only
  split
  · exact h
  · rw [Memory.wf_modCore]
    split
    · exact h
    · split
      · rw [Memory.wf_modCore]; exact Memory.wf_l1Writeback s core _ _ h
      · exact h

theorem Memory.wf_coreLoad (s : State) (core pa n hint : Nat) (priv : Bool) (h : Memory.wf s = true) :
    Memory.wf (s.coreLoad core pa n hint priv).2 = true := by
  unfold State.coreLoad
  simp only
  have h0 : Memory.wf (if ((List.range n).all fun i => (Store.get none s.l1 (l1Key core (pa + i))).isSome) = true then s
      else (s.l2Alloc (pa / 128) hint).addWork core { l := 1 }) = true := by
    split
    · exact h
    · exact Memory.wf_l2Alloc s _ _ h
  generalize (if ((List.range n).all fun i => (Store.get none s.l1 (l1Key core (pa + i))).isSome) = true then s
      else (s.l2Alloc (pa / 128) hint).addWork core { l := 1 }) = s0 at h0 ⊢
  split
  · exact h0
  · have h1 := Memory.wf_l1Alloc s0 core (pa / 128) hint h0
    rw [Memory.wf_iff] at *
    refine ⟨h1.1, h1.2.1, Store.wf_foldl none _ (fun m b hm => ?_) _ _ h1.2.2⟩
    split
    · exact hm
    · exact Store.wf_insert none m _ _ (by simp) hm

theorem Memory.wf_coreStore (s : State) (core id pa : Nat) (bs : List Byte) (hint : Nat) (priv : Bool) (h : Memory.wf s = true) :
    Memory.wf (s.coreStore core id pa bs hint priv) = true := by
  unfold State.coreStore
  split
  · apply Memory.wf_l2Part
    rw [Memory.wf_iff] at *
    exact ⟨h.1, h.2.1, Store.wf_foldl none _ (fun m b hm => Store.wf_erase none m _ hm) _ _ h.2.2⟩
  · have h0 : Memory.wf (s.replaces id pa bs.length).2 = true := by rw [Memory.wf_replaces]; exact h
    simp only
    have h1 := Memory.wf_l1Alloc _ core (pa / 128) hint h0
    generalize (s.replaces id pa bs.length).2.l1Alloc core (pa / 128) hint = s1 at h1
    have h3 : ∀ (put : Store (Option L1Byte) → Byte × Nat → Store (Option L1Byte)) (mark : Store (Option L1Byte) → Nat → Store (Option L1Byte)),
        (∀ m b, Store.wf none m = true → Store.wf none (put m b) = true) →
        (∀ m b, Store.wf none m = true → Store.wf none (mark m b) = true) →
        Memory.wf ({ s1 with l1 := (s.replaces id pa bs.length).1.foldl mark (bs.zipIdx.foldl put s1.l1) } : State) = true := by
      intro put mark hput hmark
      rw [Memory.wf_iff] at *
      exact ⟨h1.1, h1.2.1, Store.wf_foldl none _ hmark _ _ (Store.wf_foldl none _ hput _ _ h1.2.2)⟩
    have h4 : ∀ (m : Store (Option L1Byte)) (u : Nat), Store.wf none m = true →
        Store.wf none ((List.range 32).foldl (fun m i => match Store.get none m (l1Key core (u * 32 + i)) with
          | some b => Store.insert m (l1Key core (u * 32 + i)) (some { b with whole := b.dirty })
          | none => m) m) = true := fun m u hm =>
      Store.wf_foldl none _ (fun m b hm => by
        split
        · exact Store.wf_insert none m _ _ (by simp) hm
        · exact hm) _ _ hm
    split
    · exact h3 _ _ (fun m b hm => Store.wf_insert none m _ _ (by simp) hm) h4
    · exact h3 _ _ (fun m b hm => Store.wf_insert none m _ _ (by simp) hm) h4

/-! ### Reads after writes -/

/-- While the keys stand, the home L2 reads HBM as it is. -/
theorem State.homeByte_eq (s : State) (h : s.keysStand) (pa : Nat) : s.homeByte pa = Store.get 0 s.hbm pa := by
  unfold State.homeByte
  split
  · rfl
  · unfold State.hbmRead; rw [if_pos (h pa)]

/-- While the keys stand, no line is enciphered anew. -/
theorem State.recipherAll_eq (s : State) (h : s.keysStand) (ls : List Nat) : s.recipherAll ls = s := by
  unfold State.recipherAll
  split
  · rfl
  · rw [List.filter_eq_nil_iff.mpr (fun l _ => by rw [h (l * 128)]; simp)]; rfl

/-- A key below every key of a collection is unlisted. -/
theorem Store.get_below {α : Type} (d : α) (m : Store α) (k : Nat) (h : ∀ e ∈ m, k < e.1) : Store.get d m k = d := by
  induction m with
  | nil => rfl
  | cons e m ih =>
    rw [show e = (e.1, e.2) from rfl, Store.get_cons, if_neg (by have := h e (List.mem_cons_self ..); omega)]
    exact ih fun e he => h e (List.mem_cons_of_mem _ he)

/-- What HBM holds after the home L2's bytes of some lines have been written to it. -/
theorem Store.get_cleaned (p : Nat → Bool) (q : Nat) (l : Store (Option Byte)) (hl : l.Pairwise fun a b => a.1 < b.1) (m : Store Byte) :
    Store.get 0 (l.foldl (fun m e => match e.2 with
      | some b => if p e.1 then Store.set 0 m e.1 b else m
      | none => m) m) q = match Store.get none l q with
      | some b => if p q then b else Store.get 0 m q
      | none => Store.get 0 m q := by
  induction l generalizing m with
  | nil => rfl
  | cons e l ih =>
    obtain ⟨k, v⟩ := e
    obtain ⟨h1, h2⟩ := List.pairwise_cons.mp hl
    rw [List.foldl_cons, ih h2, Store.get_cons]
    by_cases hk : k = q
    · subst hk
      rw [Store.get_below none l k h1, if_pos rfl]
      cases v with
      | none => rfl
      | some b =>
        simp only
        split
        · rw [Store.get_set, if_pos rfl]
        · rfl
    · rw [if_neg hk]
      have hm : Store.get 0 (match v with
          | some b => if p k then Store.set 0 m k b else m
          | none => m) q = Store.get 0 m q := by
        cases v with
        | none => rfl
        | some b =>
          simp only
          split
          · rw [Store.get_set, if_neg (Ne.symm hk)]
          · rfl
      cases Store.get none l q with
      | none => exact hm
      | some b => simp only [hm]

/-- While the keys stand and memory is canonical, writing lines back to HBM changes no byte that the home L2 reads. -/
theorem State.l2Read_l2Clean (s : State) (p : Nat → Bool) (h : s.keysStand) (hw : Memory.wf s = true) (q : Nat) :
    (s.l2Clean p).keysStand ∧ (s.l2Clean p).l2Read q = s.l2Read q := by
  have hs : (s.l2Clean p).keysStand := by
    unfold State.l2Clean; simp only [State.recipherAll_eq s h]; exact h
  refine ⟨hs, ?_⟩
  have hp := ((Store.wf_iff none _).mp ((Memory.wf_iff s).mp hw).2.1).1
  unfold State.l2Read
  rw [State.homeByte_eq _ hs, State.homeByte_eq _ h]
  unfold State.l2Clean
  simp only [State.recipherAll_eq s h]
  rw [Store.get_filterKeys none s.l2 (fun k => !p k) q]
  have hc := Store.get_cleaned p q s.l2 hp s.hbm
  by_cases hq : p q = true
  · simp only [hq, Bool.not_true, Bool.false_eq_true, if_false]
    refine hc.trans ?_
    cases Store.get none s.l2 q <;> simp [hq]
  · simp only [hq, Bool.not_false, if_true]
    cases hg : Store.get none s.l2 q with
    | some b => rfl
    | none => rw [hg] at hc; exact hc

/-- The same of giving a line a way. -/
theorem State.l2Read_l2Alloc (s : State) (l hint : Nat) (h : s.keysStand) (hw : Memory.wf s = true) (q : Nat) :
    (s.l2Alloc l hint).keysStand ∧ (s.l2Alloc l hint).l2Read q = s.l2Read q := by
  have key : ∀ (s : State) (m : Store (Nat × Nat)), s.keysStand →
      ({ s with l2Ways := m } : State).keysStand ∧ ({ s with l2Ways := m } : State).l2Read q = s.l2Read q := by
    intro s m h
    have h' : ({ s with l2Ways := m } : State).keysStand := h
    refine ⟨h', ?_⟩
    unfold State.l2Read
    rw [State.homeByte_eq _ h', State.homeByte_eq _ h]
  unfold State.l2Alloc
  simp only
  split
  · exact key _ _ h
  · -- the model's counters of missed lines are no memory
    have h' : ({ s with l2Misses := s.l2Misses + 1, hbmMoves := s.hbmMoves + 1 } : State).keysStand := h
    have hr : ({ s with l2Misses := s.l2Misses + 1, hbmMoves := s.hbmMoves + 1 } : State).l2Read q = s.l2Read q := by
      unfold State.l2Read
      rw [State.homeByte_eq _ h', State.homeByte_eq _ h]
    split
    · exact ⟨h', hr⟩
    split
    · have hk := key _ (Store.set (0, 0) s.l2Ways (wayKey (l2Set l) (leastWay s.l2Ways (l2Set l) (s.waysFor (l * 128))))
        (l, if hint = 1 then 1 else if hint = 3 then 3 else 2)) h'
      exact ⟨hk.1, hk.2.trans hr⟩
    · have hc := State.l2Read_l2Clean { s with l2Misses := s.l2Misses + 1, hbmMoves := s.hbmMoves + 1 }
        (fun a => a / 128 == (Store.get (0, 0) s.l2Ways (wayKey (l2Set l)
          (leastWay s.l2Ways (l2Set l) (s.waysFor (l * 128))))).1) h' hw q
      have hk := key _ (Store.set (0, 0) (State.l2Clean { s with l2Misses := s.l2Misses + 1, hbmMoves := s.hbmMoves + 1 }
        (fun a => a / 128 == (Store.get (0, 0) s.l2Ways (wayKey (l2Set l)
          (leastWay s.l2Ways (l2Set l) (s.waysFor (l * 128))))).1)).l2Ways (wayKey (l2Set l)
        (leastWay s.l2Ways (l2Set l) (s.waysFor (l * 128)))) (l, if hint = 1 then 1 else if hint = 3 then 3 else 2)) hc.1
      exact ⟨hk.1, hk.2.trans (hc.2.trans hr)⟩

/-- A byte of the home L2 after a write there, while the keys stand: the new byte in its range, the old one elsewhere. -/
theorem State.l2Read_l2Put (s : State) (pa : Nat) (bs : List Byte) (hint : Nat) (h : s.keysStand) (hw : Memory.wf s = true) (q : Nat) :
    (s.l2Put pa bs hint).keysStand ∧
    (s.l2Put pa bs hint).l2Read q = if pa ≤ q ∧ q < pa + bs.length then bs.getD (q - pa) 0 else s.l2Read q := by
  have key : ∀ (bs : List Byte) (n : Nat) (m : Store (Option Byte)),
      Store.get none ((bs.zipIdx n).foldl (fun (m : Store (Option Byte)) (p : Byte × Nat) => Store.set none m (pa + p.2) (some p.1)) m) q
        = if pa + n ≤ q ∧ q < pa + n + bs.length then some (bs.getD (q - (pa + n)) 0) else Store.get none m q := by
    intro bs
    induction bs with
    | nil => intro n m; rw [if_neg (by simp)]; rfl
    | cons b bs ih =>
      intro n m
      rw [List.zipIdx_cons, List.foldl_cons, ih, Store.get_set, List.length_cons]
      by_cases h1 : q = pa + n
      · subst h1
        rw [if_neg (by omega), if_pos rfl, if_pos (by omega), Nat.sub_self]; rfl
      · rw [if_neg h1]
        by_cases h2 : pa + (n + 1) ≤ q ∧ q < pa + (n + 1) + bs.length
        · rw [if_pos h2, if_pos (by omega), show q - (pa + n) = (q - (pa + (n + 1))) + 1 by omega]; rfl
        · rw [if_neg h2, if_neg (by omega)]
  have allocs : ∀ (ls : List Nat) (s : State), s.keysStand → Memory.wf s = true →
      (ls.foldl (fun s l => s.l2Alloc l hint) s).keysStand ∧ (ls.foldl (fun s l => s.l2Alloc l hint) s).l2Read q = s.l2Read q := by
    intro ls
    induction ls with
    | nil => intro s h _; exact ⟨h, rfl⟩
    | cons l ls ih =>
      intro s h hw
      have h1 := State.l2Read_l2Alloc s l hint h hw q
      have h2 := ih _ h1.1 (Memory.wf_l2Alloc s l hint hw)
      exact ⟨h2.1, h2.2.trans h1.2⟩
  obtain ⟨ha, hr⟩ := allocs (linesOf pa bs.length) s h hw
  generalize hs1 : (linesOf pa bs.length).foldl (fun s l => s.l2Alloc l hint) s = s1 at ha hr
  have ring : (s1.ring pa bs.length).keysStand ∧ (s1.ring pa bs.length).l2Read q = s1.l2Read q ∧ (s1.ring pa bs.length).l2 = s1.l2 := by
    unfold State.ring
    split
    · exact ⟨ha, rfl, rfl⟩
    · exact ⟨ha, rfl, rfl⟩
  generalize hs2 : s1.ring pa bs.length = s2 at ring
  have e1 : (s.l2Put pa bs hint).l2 = bs.zipIdx.foldl (fun (m : Store (Option Byte)) (p : Byte × Nat) =>
      Store.set none m (pa + p.2) (some p.1)) s2.l2 := by
    unfold State.l2Put; rw [hs1, hs2]; rfl
  have e2 : (s.l2Put pa bs hint).hbm = s2.hbm := by unfold State.l2Put; rw [hs1, hs2]; rfl
  have hk : (s.l2Put pa bs hint).keysStand := by unfold State.l2Put; rw [hs1, hs2]; exact ring.1
  refine ⟨hk, ?_⟩
  have hb := key bs 0 s2.l2
  rw [← hr, ← ring.2.1]
  unfold State.l2Read
  rw [State.homeByte_eq _ hk, State.homeByte_eq _ ring.1]
  rw [e1, e2, hb]
  by_cases hq : pa ≤ q ∧ q < pa + bs.length
  · rw [if_pos (by simpa using hq), if_pos hq] <;> rfl
  · rw [if_neg (by simpa using hq), if_neg hq] <;> rfl

/-- The same of a write, whose lines may go through to HBM. -/
theorem State.l2Read_l2WriteAs (s : State) (pa : Nat) (bs : List Byte) (hint : Nat) (h : s.keysStand) (hw : Memory.wf s = true) (q : Nat) :
    (s.l2WriteAs pa bs hint).keysStand ∧
    (s.l2WriteAs pa bs hint).l2Read q = if pa ≤ q ∧ q < pa + bs.length then bs.getD (q - pa) 0 else s.l2Read q := by
  obtain ⟨hk, hr⟩ := State.l2Read_l2Put s pa bs hint h hw q
  unfold State.l2WriteAs State.l2Through
  split
  · exact ⟨hk, hr⟩
  · have hc := State.l2Read_l2Clean (s.l2Put pa bs hint) (fun a => (linesOf pa bs.length).contains (a / 128) &&
      ((s.l2Put pa bs hint).l2Way (a / 128)).isNone) hk (Memory.wf_l2Put s pa bs hint hw) q
    exact ⟨hc.1, hc.2.trans hr⟩

theorem State.l2Read_l2Write (s : State) (pa : Nat) (bs : List Byte) (h : s.keysStand) (hw : Memory.wf s = true) (q : Nat) :
    (s.l2Write pa bs).keysStand ∧
    (s.l2Write pa bs).l2Read q = if pa ≤ q ∧ q < pa + bs.length then bs.getD (q - pa) 0 else s.l2Read q :=
  State.l2Read_l2WriteAs s pa bs 0 h hw q

/-- An acquire changes no byte that any core or the home L2 reads, but for the core's own clean copies. -/
@[simp] theorem State.l2Read_l1Acquire (s : State) (core pa : Nat) : (s.l1Acquire core).l2Read pa = s.l2Read pa := rfl

end Sys2Proof.Machine
end

