-- ==== Sys2Proof/Laws/PerInstr.lean ====
section
/-! SUPPORT. The per-instruction family Encodable: how many words every instruction has, as syntax. -/

namespace Sys2Proof.Laws.Encodable

/-- An event has no words; an instruction has as many as the table gives it (R86, R95). -/
def Statement (i : Instr) : Prop := encode i = [] ∨ (encode i).length = i.words

theorem quotaTransferComplete (wid : Nat) : Statement (.quotaTransferComplete wid) := .inl rfl
theorem longLatencyWrite (wid : Nat) (id : Nat) (t : Nat) : Statement (.longLatencyWrite wid id t) := .inl rfl
theorem translationWalk (core : Nat) (ctx : Nat) (va : DWord) (kind : Access) : Statement (.translationWalk core ctx va kind) := .inl rfl
theorem zeroingComplete (buf : ZeroBuf) : Statement (.zeroingComplete buf) := .inl rfl
theorem frespAnswer (part : Nat) (idx : Nat) (refuse : Bool) : Statement (.frespAnswer part idx refuse) := .inl rfl
theorem frespKick (part : Nat) : Statement (.frespKick part) := .inl rfl
theorem shootdownRequest (part : Nat) (asid : Option Nat) (va : Option DWord) : Statement (.shootdownRequest part asid va) := .inl rfl
theorem uncorrectableError (tgt : ErrTarget) : Statement (.uncorrectableError tgt) := .inl rfl
theorem engineEntryStart (wg : Nat) (q : Nat) : Statement (.engineEntryStart wg q) := .inl rfl
theorem copyComplete (wg : Nat) (q : Nat) : Statement (.copyComplete wg q) := .inl rfl
theorem mmaStart (core : Nat) (id : Nat) : Statement (.mmaStart core id) := .inl rfl
theorem mmaComplete (core : Nat) (id : Nat) : Statement (.mmaComplete core id) := .inl rfl
theorem collComplete (wg : Nat) (q : Nat) : Statement (.collComplete wg q) := .inl rfl
theorem seedWrite (wid : Nat) (v : Word) : Statement (.seedWrite wid v) := .inl rfl
theorem controlRegisterWrite (wid : Nat) (n : BitVec 12) (v : Word) : Statement (.controlRegisterWrite wid n v) := .inl rfl
theorem moduleReset  : Statement (.moduleReset ) := .inl rfl
theorem recoveryImage (img : FwImage) : Statement (.recoveryImage img) := .inl rfl
theorem hocpTickLoad (t : DWord) : Statement (.hocpTickLoad t) := .inl rfl
theorem wakeWrite (q : Nat) (tail : Word) : Statement (.wakeWrite q tail) := .inl rfl
theorem launch (q : Nat) : Statement (.launch q) := .inl rfl
theorem xcopy (q : Nat) : Statement (.xcopy q) := .inl rfl
theorem xcopyComplete (q : Nat) (idx : Nat) : Statement (.xcopyComplete q idx) := .inl rfl
theorem signal (q : Nat) : Statement (.signal q) := .inl rfl
theorem cond (q : Nat) : Statement (.cond q) := .inl rfl
theorem condReread (q : Nat) : Statement (.condReread q) := .inl rfl
theorem fencePacket (q : Nat) : Statement (.fencePacket q) := .inl rfl
theorem fencePacketComplete (q : Nat) : Statement (.fencePacketComplete q) := .inl rfl
theorem waitord (q : Nat) : Statement (.waitord q) := .inl rfl
theorem contract (q : Nat) : Statement (.contract q) := .inl rfl
theorem workgroupPlace (l : Nat) : Statement (.workgroupPlace l) := .inl rfl
theorem workgroupRelease (wg : Nat) : Statement (.workgroupRelease wg) := .inl rfl
theorem workgroupRetire (wg : Nat) : Statement (.workgroupRetire wg) := .inl rfl
theorem bind (q : Nat) : Statement (.bind q) := .inl rfl
theorem unbind (q : Nat) : Statement (.unbind q) := .inl rfl
theorem queueStop (q : Nat) : Statement (.queueStop q) := .inl rfl
theorem queueStart (q : Nat) : Statement (.queueStart q) := .inl rfl
theorem queueReset (q : Nat) : Statement (.queueReset q) := .inl rfl
theorem skipOp (q : Nat) : Statement (.skipOp q) := .inl rfl
theorem qcbAudit (q : Nat) : Statement (.qcbAudit q) := .inl rfl
theorem shadowExchange (core : Nat) : Statement (.shadowExchange core) := .inl rfl
theorem stagingComplete (core : Nat) (ctx : Nat) : Statement (.stagingComplete core ctx) := .inl rfl
theorem loadOp (ctx : Nat) : Statement (.loadOp ctx) := .inl rfl
theorem saveOp (ctx : Nat) : Statement (.saveOp ctx) := .inl rfl
theorem restore (ctx : Nat) : Statement (.restore ctx) := .inl rfl
theorem discard (ctx : Nat) : Statement (.discard ctx) := .inl rfl
theorem queueHang (q : Nat) : Statement (.queueHang q) := .inl rfl
theorem quiesceDone (part : Nat) : Statement (.quiesceDone part) := .inl rfl
theorem writebackDone (part : Nat) : Statement (.writebackDone part) := .inl rfl
theorem zeroDone (part : Nat) : Statement (.zeroDone part) := .inl rfl
theorem replayDone (part : Nat) : Statement (.replayDone part) := .inl rfl
theorem clusterRetentionExit (c : Nat) : Statement (.clusterRetentionExit c) := .inl rfl
theorem joinTimeoutExpiry (wid : Nat) (e : Nat) : Statement (.joinTimeoutExpiry wid e) := .inl rfl
theorem regangTimeoutExpiry (wid : Nat) (e : Nat) : Statement (.regangTimeoutExpiry wid e) := .inl rfl
theorem beatIntervalEnd (ctx : Nat) : Statement (.beatIntervalEnd ctx) := .inl rfl
theorem controllerStep (ctx : Nat) : Statement (.controllerStep ctx) := .inl rfl
theorem equinoxGrant (part : Nat) : Statement (.equinoxGrant part) := .inl rfl
theorem grantRise (ctx : Nat) : Statement (.grantRise ctx) := .inl rfl
theorem grantFall (ctx : Nat) : Statement (.grantFall ctx) := .inl rfl
theorem wcAgeDrain (core : Nat) (id : Nat) : Statement (.wcAgeDrain core id) := .inl rfl
theorem l1DirtyAgeWriteback (core : Nat) (line : Nat) : Statement (.l1DirtyAgeWriteback core line) := .inl rfl
theorem powerEstimate (samples : List PowerSample) (hbmLines flits : Nat) : Statement (.powerEstimate samples hbmLines flits) := .inl rfl
theorem weightRefit (pair : Nat) (shunt : List Nat) : Statement (.weightRefit pair shunt) := .inl rfl
theorem stepChangeRequest (c : Nat) (n : Nat) : Statement (.stepChangeRequest c n) := .inl rfl
theorem stepChangeDone (c : Nat) : Statement (.stepChangeDone c) := .inl rfl
theorem pageAgeScan  : Statement (.pageAgeScan ) := .inl rfl
theorem usageRecordWrite (part : Nat) : Statement (.usageRecordWrite part) := .inl rfl
theorem timesliceBoundary  : Statement (.timesliceBoundary ) := .inl rfl
theorem scheduleStart  : Statement (.scheduleStart ) := .inl rfl
theorem scheduleStop  : Statement (.scheduleStop ) := .inl rfl
theorem create (part : Nat) : Statement (.create part) := .inl rfl
theorem update (part : Nat) : Statement (.update part) := .inl rfl
theorem destroy (part : Nat) : Statement (.destroy part) := .inl rfl
theorem destroyZeroingDone (part : Nat) : Statement (.destroyZeroingDone part) := .inl rfl
theorem resetpart (part : Nat) : Statement (.resetpart part) := .inl rfl
theorem generate (slot : Nat) : Statement (.generate slot) := .inl rfl
theorem zeroOp (slot : Nat) : Statement (.zeroOp slot) := .inl rfl
theorem attestationRequest  : Statement (.attestationRequest ) := .inl rfl
theorem attestationRequestHocp (part : Nat) (nonce : List Byte) : Statement (.attestationRequestHocp part nonce) := .inl rfl
theorem stoptickArm (t : DWord) : Statement (.stoptickArm t) := .inl rfl
theorem stoptick  : Statement (.stoptick ) := .inl rfl
theorem coreDumpWrite (wid : Nat) : Statement (.coreDumpWrite wid) := .inl rfl
theorem fabidWrite (peer : Nat) : Statement (.fabidWrite peer) := .inl rfl
theorem portcfgWrite (port : Nat) (v : Word) : Statement (.portcfgWrite port v) := .inl rfl
theorem lock (port : Nat) : Statement (.lock port) := .inl rfl
theorem portStart (port : Nat) : Statement (.portStart port) := .inl rfl
theorem portStop (port : Nat) : Statement (.portStop port) := .inl rfl
theorem keyupdate (port : Nat) : Statement (.keyupdate port) := .inl rfl
theorem peerLostClear (peer : Nat) : Statement (.peerLostClear peer) := .inl rfl
theorem linkControlWord (port : Nat) (w : LinkWord) : Statement (.linkControlWord port w) := .inl rfl
theorem linkDown (port : Nat) : Statement (.linkDown port) := .inl rfl
theorem spdm (port : Nat) (msg : SpdmMsg) : Statement (.spdm port msg) := .inl rfl
theorem pstate (plane : Nat) (map : BitVec 512) : Statement (.pstate plane map) := .inl rfl
theorem pathDown (plane : Nat) (peer : Nat) : Statement (.pathDown plane peer) := .inl rfl
theorem peerLost (peer : Nat) : Statement (.peerLost peer) := .inl rfl
theorem rd (x : Txn) : Statement (.rd x) := .inl rfl
theorem rdata (x : Txn) : Statement (.rdata x) := .inl rfl
theorem wr (x : Txn) : Statement (.wr x) := .inl rfl
theorem wrm (x : Txn) : Statement (.wrm x) := .inl rfl
theorem doneOp (x : Txn) : Statement (.doneOp x) := .inl rfl
theorem fabricAtom (x : Txn) : Statement (.fabricAtom x) := .inl rfl
theorem ares (x : Txn) : Statement (.ares x) := .inl rfl
theorem ticket (x : Txn) : Statement (.ticket x) := .inl rfl
theorem busy (x : Txn) : Statement (.busy x) := .inl rfl
theorem busyRetry (plane : Nat) (peer : Nat) : Statement (.busyRetry plane peer) := .inl rfl
theorem refuse (x : Txn) : Statement (.refuse x) := .inl rfl
theorem notice (x : Txn) : Statement (.notice x) := .inl rfl
theorem noteack (x : Txn) : Statement (.noteack x) := .inl rfl
theorem planeq (x : Txn) : Statement (.planeq x) := .inl rfl
theorem planea (x : Txn) : Statement (.planea x) := .inl rfl
theorem beatmrg (x : Txn) (n least : Nat) : Statement (.beatmrg x n least) := .inl rfl
theorem colld (x : Txn) : Statement (.colld x) := .inl rfl
theorem systemMemoryAnswer (id : Nat) (ans : SysAnswer) : Statement (.systemMemoryAnswer id ans) := .inl rfl
theorem hocpWrite (pa : Nat) (v : Word) : Statement (.hocpWrite pa v) := .inl rfl
theorem hocpBlockTransfer (pa : Nat) (len : Nat) (data : Option (List Byte)) : Statement (.hocpBlockTransfer pa len data) := .inl rfl
theorem schedulerFault (part : Nat) : Statement (.schedulerFault part) := .inl rfl
theorem parityError (tgt : ParityTarget) : Statement (.parityError tgt) := .inl rfl
theorem evictedPageRestore (part : Nat) (idx : Nat) (frame : Nat) (data : List Byte) : Statement (.evictedPageRestore part idx frame data) := .inl rfl
theorem firmwareUpdate (img : FwImage) : Statement (.firmwareUpdate img) := .inl rfl
theorem dbgctlWrite (ctx : Nat) (v : Word) : Statement (.dbgctlWrite ctx v) := .inl rfl
theorem flitDrop (port : Nat) : Statement (.flitDrop port) := .inl rfl
theorem nop (m : Bool) : Statement (.nop m) := .inr rfl
theorem yield (m : Bool) : Statement (.yield m) := .inr rfl
theorem waitall (m : Bool) : Statement (.waitall m) := .inr rfl
theorem exit (m : Bool) : Statement (.exit m) := .inr rfl
theorem eret (m : Bool) : Statement (.eret m) := .inr rfl
theorem beat (m : Bool) : Statement (.beat m) := .inr rfl
theorem beatn (m : Bool) (a : BitVec 6) : Statement (.beatn m a) := .inr rfl
theorem ungang (m : Bool) : Statement (.ungang m) := .inr rfl
theorem getmode (m : Bool) (d : BitVec 6) : Statement (.getmode m d) := .inr rfl
theorem mode (m : Bool) (d : BitVec 5) (i : BitVec 11) : Statement (.mode m d i) := .inr rfl
theorem bra (m : Bool) (i : BitVec 24) : Statement (.bra m i) := .inr rfl
theorem call (m : Bool) (i : BitVec 24) : Statement (.call m i) := .inr rfl
theorem brq (m : Bool) (n : BitVec 1) (q : BitVec 3) (i : BitVec 18) : Statement (.brq m n q i) := .inr rfl
theorem brp (m : Bool) (n : BitVec 1) (p : BitVec 3) (i : BitVec 18) : Statement (.brp m n p i) := .inr rfl
theorem brx (m : Bool) (a : BitVec 6) : Statement (.brx m a) := .inr rfl
theorem callx (m : Bool) (d : BitVec 6) (a : BitVec 6) : Statement (.callx m d a) := .inr rfl
theorem ret (m : Bool) (a : BitVec 6) : Statement (.ret m a) := .inr rfl
theorem brv (m : Bool) (a : BitVec 6) : Statement (.brv m a) := .inr rfl
theorem join (m : Bool) (d : BitVec 6) (i : BitVec 12) : Statement (.join m d i) := .inr rfl
theorem regang (m : Bool) (d : BitVec 6) (a : BitVec 6) (i : BitVec 12) : Statement (.regang m d a i) := .inr rfl
theorem bar (m : Bool) (g : BitVec 8) : Statement (.bar m g) := .inr rfl
theorem bara (m : Bool) (g : BitVec 8) : Statement (.bara m g) := .inr rfl
theorem barw (m : Bool) (g : BitVec 8) : Statement (.barw m g) := .inr rfl
theorem trap (m : Bool) (i : BitVec 18) : Statement (.trap m i) := .inr rfl
theorem rdc (m : Bool) (d : BitVec 6) (i : BitVec 12) : Statement (.rdc m d i) := .inr rfl
theorem wrc (m : Bool) (a : BitVec 6) (i : BitVec 12) : Statement (.wrc m a i) := .inr rfl
theorem setquotaGive (m : Bool) (b : BitVec 6) : Statement (.setquotaGive m b) := .inr rfl
theorem setquotaQuery (m : Bool) (d : BitVec 6) : Statement (.setquotaQuery m d) := .inr rfl
theorem sysvTid (m : Bool) (d : BitVec 6) : Statement (.sysvTid m d) := .inr rfl
theorem sysvLane (m : Bool) (d : BitVec 6) : Statement (.sysvLane m d) := .inr rfl
theorem sysvRank (m : Bool) (d : BitVec 6) : Statement (.sysvRank m d) := .inr rfl
theorem sysvWid (m : Bool) (d : BitVec 6) : Statement (.sysvWid m d) := .inr rfl
theorem sysvWgid (m : Bool) (d : BitVec 6) : Statement (.sysvWgid m d) := .inr rfl
theorem sysvWgx (m : Bool) (d : BitVec 6) : Statement (.sysvWgx m d) := .inr rfl
theorem sysvWgy (m : Bool) (d : BitVec 6) : Statement (.sysvWgy m d) := .inr rfl
theorem sysvWgz (m : Bool) (d : BitVec 6) : Statement (.sysvWgz m d) := .inr rfl
theorem sysvRole (m : Bool) (d : BitVec 6) : Statement (.sysvRole m d) := .inr rfl
theorem sysvCore (m : Bool) (d : BitVec 6) : Statement (.sysvCore m d) := .inr rfl
theorem sysvSlice (m : Bool) (d : BitVec 6) : Statement (.sysvSlice m d) := .inr rfl
theorem sysvLaunch (m : Bool) (d : BitVec 6) : Statement (.sysvLaunch m d) := .inr rfl
theorem sysvTick (m : Bool) (d : BitVec 6) : Statement (.sysvTick m d) := .inr rfl
theorem sysvGroups (m : Bool) (d : BitVec 6) : Statement (.sysvGroups m d) := .inr rfl
theorem sysvPart (m : Bool) (d : BitVec 6) : Statement (.sysvPart m d) := .inr rfl
theorem addScalar (m : Bool) (d : BitVec 6) (a : BitVec 6) (b : BitVec 6) : Statement (.addScalar m d a b) := .inr rfl
theorem addVector (m : Bool) (d : BitVec 6) (a : BitVec 6) (b : BitVec 6) : Statement (.addVector m d a b) := .inr rfl
theorem subScalar (m : Bool) (d : BitVec 6) (a : BitVec 6) (b : BitVec 6) : Statement (.subScalar m d a b) := .inr rfl
theorem subVector (m : Bool) (d : BitVec 6) (a : BitVec 6) (b : BitVec 6) : Statement (.subVector m d a b) := .inr rfl
theorem andScalar (m : Bool) (d : BitVec 6) (a : BitVec 6) (b : BitVec 6) : Statement (.andScalar m d a b) := .inr rfl
theorem andVector (m : Bool) (d : BitVec 6) (a : BitVec 6) (b : BitVec 6) : Statement (.andVector m d a b) := .inr rfl
theorem orScalar (m : Bool) (d : BitVec 6) (a : BitVec 6) (b : BitVec 6) : Statement (.orScalar m d a b) := .inr rfl
theorem orVector (m : Bool) (d : BitVec 6) (a : BitVec 6) (b : BitVec 6) : Statement (.orVector m d a b) := .inr rfl
theorem xorScalar (m : Bool) (d : BitVec 6) (a : BitVec 6) (b : BitVec 6) : Statement (.xorScalar m d a b) := .inr rfl
theorem xorVector (m : Bool) (d : BitVec 6) (a : BitVec 6) (b : BitVec 6) : Statement (.xorVector m d a b) := .inr rfl
theorem andnScalar (m : Bool) (d : BitVec 6) (a : BitVec 6) (b : BitVec 6) : Statement (.andnScalar m d a b) := .inr rfl
theorem andnVector (m : Bool) (d : BitVec 6) (a : BitVec 6) (b : BitVec 6) : Statement (.andnVector m d a b) := .inr rfl
theorem ornScalar (m : Bool) (d : BitVec 6) (a : BitVec 6) (b : BitVec 6) : Statement (.ornScalar m d a b) := .inr rfl
theorem ornVector (m : Bool) (d : BitVec 6) (a : BitVec 6) (b : BitVec 6) : Statement (.ornVector m d a b) := .inr rfl
theorem shlScalar (m : Bool) (d : BitVec 6) (a : BitVec 6) (b : BitVec 6) : Statement (.shlScalar m d a b) := .inr rfl
theorem shlVector (m : Bool) (d : BitVec 6) (a : BitVec 6) (b : BitVec 6) : Statement (.shlVector m d a b) := .inr rfl
theorem shrScalar (m : Bool) (d : BitVec 6) (a : BitVec 6) (b : BitVec 6) : Statement (.shrScalar m d a b) := .inr rfl
theorem shrVector (m : Bool) (d : BitVec 6) (a : BitVec 6) (b : BitVec 6) : Statement (.shrVector m d a b) := .inr rfl
theorem sraScalar (m : Bool) (d : BitVec 6) (a : BitVec 6) (b : BitVec 6) : Statement (.sraScalar m d a b) := .inr rfl
theorem sraVector (m : Bool) (d : BitVec 6) (a : BitVec 6) (b : BitVec 6) : Statement (.sraVector m d a b) := .inr rfl
theorem rotScalar (m : Bool) (d : BitVec 6) (a : BitVec 6) (b : BitVec 6) : Statement (.rotScalar m d a b) := .inr rfl
theorem rotVector (m : Bool) (d : BitVec 6) (a : BitVec 6) (b : BitVec 6) : Statement (.rotVector m d a b) := .inr rfl
theorem minScalar (m : Bool) (d : BitVec 6) (a : BitVec 6) (b : BitVec 6) : Statement (.minScalar m d a b) := .inr rfl
theorem minVector (m : Bool) (d : BitVec 6) (a : BitVec 6) (b : BitVec 6) : Statement (.minVector m d a b) := .inr rfl
theorem maxScalar (m : Bool) (d : BitVec 6) (a : BitVec 6) (b : BitVec 6) : Statement (.maxScalar m d a b) := .inr rfl
theorem maxVector (m : Bool) (d : BitVec 6) (a : BitVec 6) (b : BitVec 6) : Statement (.maxVector m d a b) := .inr rfl
theorem minnScalar (m : Bool) (d : BitVec 6) (a : BitVec 6) (b : BitVec 6) : Statement (.minnScalar m d a b) := .inr rfl
theorem minnVector (m : Bool) (d : BitVec 6) (a : BitVec 6) (b : BitVec 6) : Statement (.minnVector m d a b) := .inr rfl
theorem maxnScalar (m : Bool) (d : BitVec 6) (a : BitVec 6) (b : BitVec 6) : Statement (.maxnScalar m d a b) := .inr rfl
theorem maxnVector (m : Bool) (d : BitVec 6) (a : BitVec 6) (b : BitVec 6) : Statement (.maxnVector m d a b) := .inr rfl
theorem absScalar (m : Bool) (d : BitVec 6) (a : BitVec 6) : Statement (.absScalar m d a) := .inr rfl
theorem absVector (m : Bool) (d : BitVec 6) (a : BitVec 6) : Statement (.absVector m d a) := .inr rfl
theorem negScalar (m : Bool) (d : BitVec 6) (a : BitVec 6) : Statement (.negScalar m d a) := .inr rfl
theorem negVector (m : Bool) (d : BitVec 6) (a : BitVec 6) : Statement (.negVector m d a) := .inr rfl
theorem addsatScalar (m : Bool) (d : BitVec 6) (a : BitVec 6) (b : BitVec 6) : Statement (.addsatScalar m d a b) := .inr rfl
theorem addsatVector (m : Bool) (d : BitVec 6) (a : BitVec 6) (b : BitVec 6) : Statement (.addsatVector m d a b) := .inr rfl
theorem subsatScalar (m : Bool) (d : BitVec 6) (a : BitVec 6) (b : BitVec 6) : Statement (.subsatScalar m d a b) := .inr rfl
theorem subsatVector (m : Bool) (d : BitVec 6) (a : BitVec 6) (b : BitVec 6) : Statement (.subsatVector m d a b) := .inr rfl
theorem addsatnScalar (m : Bool) (d : BitVec 6) (a : BitVec 6) (b : BitVec 6) : Statement (.addsatnScalar m d a b) := .inr rfl
theorem addsatnVector (m : Bool) (d : BitVec 6) (a : BitVec 6) (b : BitVec 6) : Statement (.addsatnVector m d a b) := .inr rfl
theorem subsatnScalar (m : Bool) (d : BitVec 6) (a : BitVec 6) (b : BitVec 6) : Statement (.subsatnScalar m d a b) := .inr rfl
theorem subsatnVector (m : Bool) (d : BitVec 6) (a : BitVec 6) (b : BitVec 6) : Statement (.subsatnVector m d a b) := .inr rfl
theorem addiScalar (m : Bool) (d : BitVec 6) (a : BitVec 6) (i : BitVec 12) : Statement (.addiScalar m d a i) := .inr rfl
theorem addiVector (m : Bool) (d : BitVec 6) (a : BitVec 6) (i : BitVec 12) : Statement (.addiVector m d a i) := .inr rfl
theorem shliScalar (m : Bool) (d : BitVec 6) (a : BitVec 6) (n : BitVec 5) : Statement (.shliScalar m d a n) := .inr rfl
theorem shliVector (m : Bool) (d : BitVec 6) (a : BitVec 6) (n : BitVec 5) : Statement (.shliVector m d a n) := .inr rfl
theorem shriScalar (m : Bool) (d : BitVec 6) (a : BitVec 6) (n : BitVec 5) : Statement (.shriScalar m d a n) := .inr rfl
theorem shriVector (m : Bool) (d : BitVec 6) (a : BitVec 6) (n : BitVec 5) : Statement (.shriVector m d a n) := .inr rfl
theorem sraiScalar (m : Bool) (d : BitVec 6) (a : BitVec 6) (n : BitVec 5) : Statement (.sraiScalar m d a n) := .inr rfl
theorem sraiVector (m : Bool) (d : BitVec 6) (a : BitVec 6) (n : BitVec 5) : Statement (.sraiVector m d a n) := .inr rfl
theorem rotiScalar (m : Bool) (d : BitVec 6) (a : BitVec 6) (n : BitVec 5) : Statement (.rotiScalar m d a n) := .inr rfl
theorem rotiVector (m : Bool) (d : BitVec 6) (a : BitVec 6) (n : BitVec 5) : Statement (.rotiVector m d a n) := .inr rfl
theorem mulScalar (m : Bool) (d : BitVec 6) (a : BitVec 6) (b : BitVec 6) : Statement (.mulScalar m d a b) := .inr rfl
theorem mulVector (m : Bool) (d : BitVec 6) (a : BitVec 6) (b : BitVec 6) : Statement (.mulVector m d a b) := .inr rfl
theorem mulhiScalar (m : Bool) (d : BitVec 6) (a : BitVec 6) (b : BitVec 6) : Statement (.mulhiScalar m d a b) := .inr rfl
theorem mulhiVector (m : Bool) (d : BitVec 6) (a : BitVec 6) (b : BitVec 6) : Statement (.mulhiVector m d a b) := .inr rfl
theorem mulhinScalar (m : Bool) (d : BitVec 6) (a : BitVec 6) (b : BitVec 6) : Statement (.mulhinScalar m d a b) := .inr rfl
theorem mulhinVector (m : Bool) (d : BitVec 6) (a : BitVec 6) (b : BitVec 6) : Statement (.mulhinVector m d a b) := .inr rfl
theorem madScalar (m : Bool) (d : BitVec 6) (a : BitVec 6) (b : BitVec 6) : Statement (.madScalar m d a b) := .inr rfl
theorem madVector (m : Bool) (d : BitVec 6) (a : BitVec 6) (b : BitVec 6) : Statement (.madVector m d a b) := .inr rfl
theorem mulwScalar (m : Bool) (d : BitVec 6) (a : BitVec 6) (b : BitVec 6) : Statement (.mulwScalar m d a b) := .inr rfl
theorem mulwVector (m : Bool) (d : BitVec 6) (a : BitVec 6) (b : BitVec 6) : Statement (.mulwVector m d a b) := .inr rfl
theorem mulwnScalar (m : Bool) (d : BitVec 6) (a : BitVec 6) (b : BitVec 6) : Statement (.mulwnScalar m d a b) := .inr rfl
theorem mulwnVector (m : Bool) (d : BitVec 6) (a : BitVec 6) (b : BitVec 6) : Statement (.mulwnVector m d a b) := .inr rfl
theorem divScalar (m : Bool) (d : BitVec 6) (a : BitVec 6) (b : BitVec 6) : Statement (.divScalar m d a b) := .inr rfl
theorem divVector (m : Bool) (d : BitVec 6) (a : BitVec 6) (b : BitVec 6) : Statement (.divVector m d a b) := .inr rfl
theorem divnScalar (m : Bool) (d : BitVec 6) (a : BitVec 6) (b : BitVec 6) : Statement (.divnScalar m d a b) := .inr rfl
theorem divnVector (m : Bool) (d : BitVec 6) (a : BitVec 6) (b : BitVec 6) : Statement (.divnVector m d a b) := .inr rfl
theorem remScalar (m : Bool) (d : BitVec 6) (a : BitVec 6) (b : BitVec 6) : Statement (.remScalar m d a b) := .inr rfl
theorem remVector (m : Bool) (d : BitVec 6) (a : BitVec 6) (b : BitVec 6) : Statement (.remVector m d a b) := .inr rfl
theorem remnScalar (m : Bool) (d : BitVec 6) (a : BitVec 6) (b : BitVec 6) : Statement (.remnScalar m d a b) := .inr rfl
theorem remnVector (m : Bool) (d : BitVec 6) (a : BitVec 6) (b : BitVec 6) : Statement (.remnVector m d a b) := .inr rfl
theorem popcScalar (m : Bool) (d : BitVec 6) (a : BitVec 6) : Statement (.popcScalar m d a) := .inr rfl
theorem popcVector (m : Bool) (d : BitVec 6) (a : BitVec 6) : Statement (.popcVector m d a) := .inr rfl
theorem clzScalar (m : Bool) (d : BitVec 6) (a : BitVec 6) : Statement (.clzScalar m d a) := .inr rfl
theorem clzVector (m : Bool) (d : BitVec 6) (a : BitVec 6) : Statement (.clzVector m d a) := .inr rfl
theorem ctzScalar (m : Bool) (d : BitVec 6) (a : BitVec 6) : Statement (.ctzScalar m d a) := .inr rfl
theorem ctzVector (m : Bool) (d : BitVec 6) (a : BitVec 6) : Statement (.ctzVector m d a) := .inr rfl
theorem brevScalar (m : Bool) (d : BitVec 6) (a : BitVec 6) : Statement (.brevScalar m d a) := .inr rfl
theorem brevVector (m : Bool) (d : BitVec 6) (a : BitVec 6) : Statement (.brevVector m d a) := .inr rfl
theorem bfxScalar (m : Bool) (d : BitVec 6) (a : BitVec 6) (b : BitVec 6) : Statement (.bfxScalar m d a b) := .inr rfl
theorem bfxVector (m : Bool) (d : BitVec 6) (a : BitVec 6) (b : BitVec 6) : Statement (.bfxVector m d a b) := .inr rfl
theorem bfxnScalar (m : Bool) (d : BitVec 6) (a : BitVec 6) (b : BitVec 6) : Statement (.bfxnScalar m d a b) := .inr rfl
theorem bfxnVector (m : Bool) (d : BitVec 6) (a : BitVec 6) (b : BitVec 6) : Statement (.bfxnVector m d a b) := .inr rfl
theorem bfiScalar (m : Bool) (d : BitVec 6) (a : BitVec 6) (b : BitVec 6) : Statement (.bfiScalar m d a b) := .inr rfl
theorem bfiVector (m : Bool) (d : BitVec 6) (a : BitVec 6) (b : BitVec 6) : Statement (.bfiVector m d a b) := .inr rfl
theorem bswapScalar (m : Bool) (d : BitVec 6) (a : BitVec 6) : Statement (.bswapScalar m d a) := .inr rfl
theorem bswapVector (m : Bool) (d : BitVec 6) (a : BitVec 6) : Statement (.bswapVector m d a) := .inr rfl
theorem cmpScalar (m : Bool) (mm : BitVec 2) (c : BitVec 4) (d : BitVec 3) (a : BitVec 6) (b : BitVec 6) : Statement (.cmpScalar m mm c d a b) := .inr rfl
theorem cmpVector (m : Bool) (mm : BitVec 2) (c : BitVec 4) (r : BitVec 1) (k : BitVec 1) (d : BitVec 3) (a : BitVec 6) (b : BitVec 6) : Statement (.cmpVector m mm c r k d a b) := .inr rfl
theorem cmpiScalar (m : Bool) (d : BitVec 3) (a : BitVec 6) (c : BitVec 4) (i : BitVec 8) : Statement (.cmpiScalar m d a c i) := .inr rfl
theorem cmpiVector (m : Bool) (r : BitVec 1) (k : BitVec 1) (d : BitVec 3) (a : BitVec 6) (c : BitVec 4) (i : BitVec 8) : Statement (.cmpiVector m r k d a c i) := .inr rfl
theorem selScalar (m : Bool) (n : BitVec 1) (p : BitVec 3) (d : BitVec 6) (a : BitVec 6) (b : BitVec 6) : Statement (.selScalar m n p d a b) := .inr rfl
theorem selVector (m : Bool) (n : BitVec 1) (k : BitVec 1) (p : BitVec 3) (d : BitVec 6) (a : BitVec 6) (b : BitVec 6) : Statement (.selVector m n k p d a b) := .inr rfl
theorem moviScalar (m : Bool) (d : BitVec 6) (i : BitVec 18) : Statement (.moviScalar m d i) := .inr rfl
theorem moviVector (m : Bool) (d : BitVec 6) (i : BitVec 18) : Statement (.moviVector m d i) := .inr rfl
theorem movhiScalar (m : Bool) (d : BitVec 6) (i : BitVec 18) : Statement (.movhiScalar m d i) := .inr rfl
theorem movhiVector (m : Bool) (d : BitVec 6) (i : BitVec 18) : Statement (.movhiVector m d i) := .inr rfl
theorem movlScalar (m : Bool) (d : BitVec 6) (lit : BitVec 32) : Statement (.movlScalar m d lit) := .inr rfl
theorem movlVector (m : Bool) (d : BitVec 6) (t : BitVec 4) (lit : BitVec 32) : Statement (.movlVector m d t lit) := .inr rfl
theorem addlScalar (m : Bool) (d : BitVec 6) (a : BitVec 6) (lit : BitVec 32) : Statement (.addlScalar m d a lit) := .inr rfl
theorem addlVector (m : Bool) (d : BitVec 6) (a : BitVec 6) (lit : BitVec 32) : Statement (.addlVector m d a lit) := .inr rfl
theorem andlScalar (m : Bool) (d : BitVec 6) (a : BitVec 6) (lit : BitVec 32) : Statement (.andlScalar m d a lit) := .inr rfl
theorem andlVector (m : Bool) (d : BitVec 6) (a : BitVec 6) (lit : BitVec 32) : Statement (.andlVector m d a lit) := .inr rfl
theorem orlScalar (m : Bool) (d : BitVec 6) (a : BitVec 6) (lit : BitVec 32) : Statement (.orlScalar m d a lit) := .inr rfl
theorem orlVector (m : Bool) (d : BitVec 6) (a : BitVec 6) (lit : BitVec 32) : Statement (.orlVector m d a lit) := .inr rfl
theorem cmplScalar (m : Bool) (d : BitVec 3) (a : BitVec 6) (mm : BitVec 2) (c : BitVec 4) (lit : BitVec 32) : Statement (.cmplScalar m d a mm c lit) := .inr rfl
theorem cmplVector (m : Bool) (r : BitVec 1) (k : BitVec 1) (d : BitVec 3) (a : BitVec 6) (mm : BitVec 2) (c : BitVec 4) (lit : BitVec 32) : Statement (.cmplVector m r k d a mm c lit) := .inr rfl
theorem movScalar (m : Bool) (d : BitVec 6) (a : BitVec 6) : Statement (.movScalar m d a) := .inr rfl
theorem movVector (m : Bool) (d : BitVec 6) (a : BitVec 6) : Statement (.movVector m d a) := .inr rfl
theorem movsv (m : Bool) (d : BitVec 6) (a : BitVec 6) (t : BitVec 4) : Statement (.movsv m d a t) := .inr rfl
theorem movvs (m : Bool) (d : BitVec 6) (a : BitVec 6) : Statement (.movvs m d a) := .inr rfl
theorem movpScalar (m : Bool) (d : BitVec 3) (a : BitVec 3) (n : BitVec 1) : Statement (.movpScalar m d a n) := .inr rfl
theorem movpVector (m : Bool) (d : BitVec 3) (k : BitVec 1) (a : BitVec 3) (n : BitVec 1) : Statement (.movpVector m d k a n) := .inr rfl
theorem leaScalar (m : Bool) (h : BitVec 3) (d : BitVec 6) (a : BitVec 6) (b : BitVec 6) : Statement (.leaScalar m h d a b) := .inr rfl
theorem leaVector (m : Bool) (h : BitVec 3) (d : BitVec 6) (a : BitVec 6) (b : BitVec 6) : Statement (.leaVector m h d a b) := .inr rfl
theorem add64Scalar (m : Bool) (d : BitVec 6) (a : BitVec 6) (b : BitVec 6) : Statement (.add64Scalar m d a b) := .inr rfl
theorem add64Vector (m : Bool) (d : BitVec 6) (a : BitVec 6) (b : BitVec 6) : Statement (.add64Vector m d a b) := .inr rfl
theorem sub64Scalar (m : Bool) (d : BitVec 6) (a : BitVec 6) (b : BitVec 6) : Statement (.sub64Scalar m d a b) := .inr rfl
theorem sub64Vector (m : Bool) (d : BitVec 6) (a : BitVec 6) (b : BitVec 6) : Statement (.sub64Vector m d a b) := .inr rfl
theorem cmp64Scalar (m : Bool) (d : BitVec 6) (a : BitVec 6) (b : BitVec 6) : Statement (.cmp64Scalar m d a b) := .inr rfl
theorem cmp64Vector (m : Bool) (d : BitVec 6) (a : BitVec 6) (b : BitVec 6) : Statement (.cmp64Vector m d a b) := .inr rfl
theorem shl64Scalar (m : Bool) (d : BitVec 6) (a : BitVec 6) (b : BitVec 6) : Statement (.shl64Scalar m d a b) := .inr rfl
theorem shl64Vector (m : Bool) (d : BitVec 6) (a : BitVec 6) (b : BitVec 6) : Statement (.shl64Vector m d a b) := .inr rfl
theorem shr64Scalar (m : Bool) (d : BitVec 6) (a : BitVec 6) (b : BitVec 6) : Statement (.shr64Scalar m d a b) := .inr rfl
theorem shr64Vector (m : Bool) (d : BitVec 6) (a : BitVec 6) (b : BitVec 6) : Statement (.shr64Vector m d a b) := .inr rfl
theorem mul64Scalar (m : Bool) (d : BitVec 6) (a : BitVec 6) (b : BitVec 6) : Statement (.mul64Scalar m d a b) := .inr rfl
theorem mul64Vector (m : Bool) (d : BitVec 6) (a : BitVec 6) (b : BitVec 6) : Statement (.mul64Vector m d a b) := .inr rfl
theorem fadd (m : Bool) (d : BitVec 6) (a : BitVec 6) (b : BitVec 6) : Statement (.fadd m d a b) := .inr rfl
theorem fsub (m : Bool) (d : BitVec 6) (a : BitVec 6) (b : BitVec 6) : Statement (.fsub m d a b) := .inr rfl
theorem fmul (m : Bool) (d : BitVec 6) (a : BitVec 6) (b : BitVec 6) : Statement (.fmul m d a b) := .inr rfl
theorem fmin (m : Bool) (d : BitVec 6) (a : BitVec 6) (b : BitVec 6) : Statement (.fmin m d a b) := .inr rfl
theorem fmax (m : Bool) (d : BitVec 6) (a : BitVec 6) (b : BitVec 6) : Statement (.fmax m d a b) := .inr rfl
theorem fminnum (m : Bool) (d : BitVec 6) (a : BitVec 6) (b : BitVec 6) : Statement (.fminnum m d a b) := .inr rfl
theorem fmaxnum (m : Bool) (d : BitVec 6) (a : BitVec 6) (b : BitVec 6) : Statement (.fmaxnum m d a b) := .inr rfl
theorem fcpys (m : Bool) (d : BitVec 6) (a : BitVec 6) (b : BitVec 6) : Statement (.fcpys m d a b) := .inr rfl
theorem fscale (m : Bool) (d : BitVec 6) (a : BitVec 6) (b : BitVec 6) : Statement (.fscale m d a b) := .inr rfl
theorem fma (m : Bool) (d : BitVec 6) (a : BitVec 6) (b : BitVec 6) : Statement (.fma m d a b) := .inr rfl
theorem fms (m : Bool) (d : BitVec 6) (a : BitVec 6) (b : BitVec 6) : Statement (.fms m d a b) := .inr rfl
theorem fnma (m : Bool) (d : BitVec 6) (a : BitVec 6) (b : BitVec 6) : Statement (.fnma m d a b) := .inr rfl
theorem fnms (m : Bool) (d : BitVec 6) (a : BitVec 6) (b : BitVec 6) : Statement (.fnms m d a b) := .inr rfl
theorem fcmp (m : Bool) (mm : BitVec 2) (c : BitVec 4) (r : BitVec 1) (k : BitVec 1) (d : BitVec 3) (a : BitVec 6) (b : BitVec 6) : Statement (.fcmp m mm c r k d a b) := .inr rfl
theorem fabs (m : Bool) (d : BitVec 6) (a : BitVec 6) : Statement (.fabs m d a) := .inr rfl
theorem fneg (m : Bool) (d : BitVec 6) (a : BitVec 6) : Statement (.fneg m d a) := .inr rfl
theorem fclass (m : Bool) (d : BitVec 6) (a : BitVec 6) : Statement (.fclass m d a) := .inr rfl
theorem frnd (m : Bool) (d : BitVec 6) (a : BitVec 6) : Statement (.frnd m d a) := .inr rfl
theorem frcp (m : Bool) (d : BitVec 6) (a : BitVec 6) : Statement (.frcp m d a) := .inr rfl
theorem frsq (m : Bool) (d : BitVec 6) (a : BitVec 6) : Statement (.frsq m d a) := .inr rfl
theorem fsqrt (m : Bool) (d : BitVec 6) (a : BitVec 6) : Statement (.fsqrt m d a) := .inr rfl
theorem fexp2 (m : Bool) (d : BitVec 6) (a : BitVec 6) : Statement (.fexp2 m d a) := .inr rfl
theorem flog2 (m : Bool) (d : BitVec 6) (a : BitVec 6) : Statement (.flog2 m d a) := .inr rfl
theorem fsin (m : Bool) (d : BitVec 6) (a : BitVec 6) : Statement (.fsin m d a) := .inr rfl
theorem fcos (m : Bool) (d : BitVec 6) (a : BitVec 6) : Statement (.fcos m d a) := .inr rfl
theorem ftanh (m : Bool) (d : BitVec 6) (a : BitVec 6) : Statement (.ftanh m d a) := .inr rfl
theorem fsig (m : Bool) (d : BitVec 6) (a : BitVec 6) : Statement (.fsig m d a) := .inr rfl
theorem fdiv (m : Bool) (d : BitVec 6) (a : BitVec 6) (b : BitVec 6) : Statement (.fdiv m d a b) := .inr rfl
theorem dot2 (m : Bool) (d : BitVec 6) (a : BitVec 6) (b : BitVec 6) : Statement (.dot2 m d a b) := .inr rfl
theorem dot4 (m : Bool) (d : BitVec 6) (a : BitVec 6) (b : BitVec 6) : Statement (.dot4 m d a b) := .inr rfl
theorem dot8 (m : Bool) (d : BitVec 6) (a : BitVec 6) (b : BitVec 6) : Statement (.dot8 m d a b) := .inr rfl
theorem cvt (m : Bool) (p : BitVec 2) (t : BitVec 4) (d : BitVec 6) (a : BitVec 6) : Statement (.cvt m p t d a) := .inr rfl
theorem cvti (m : Bool) (p : BitVec 2) (t : BitVec 4) (d : BitVec 6) (a : BitVec 6) (u : BitVec 1) : Statement (.cvti m p t d a u) := .inr rfl
theorem cvtf (m : Bool) (p : BitVec 2) (t : BitVec 4) (d : BitVec 6) (a : BitVec 6) (u : BitVec 1) : Statement (.cvtf m p t d a u) := .inr rfl
theorem qnt (m : Bool) (h : BitVec 1) (d : BitVec 6) (a : BitVec 6) (b : BitVec 6) : Statement (.qnt m h d a b) := .inr rfl
theorem dqnt (m : Bool) (h : BitVec 1) (t : BitVec 4) (d : BitVec 6) (a : BitVec 6) (b : BitVec 6) : Statement (.dqnt m h t d a b) := .inr rfl
theorem pack (m : Bool) (d : BitVec 6) (a : BitVec 6) (b : BitVec 6) : Statement (.pack m d a b) := .inr rfl
theorem unpacklo (m : Bool) (d : BitVec 6) (a : BitVec 6) : Statement (.unpacklo m d a) := .inr rfl
theorem unpackhi (m : Bool) (d : BitVec 6) (a : BitVec 6) : Statement (.unpackhi m d a) := .inr rfl
theorem retag (m : Bool) (d : BitVec 6) (a : BitVec 6) (t : BitVec 4) : Statement (.retag m d a t) := .inr rfl
theorem tagq (m : Bool) (d : BitVec 6) (a : BitVec 6) : Statement (.tagq m d a) := .inr rfl
theorem xprev (m : Bool) (c : BitVec 1) (d : BitVec 6) (a : BitVec 6) (b : BitVec 6) : Statement (.xprev m c d a b) := .inr rfl
theorem xidx (m : Bool) (d : BitVec 6) (a : BitVec 6) (b : BitVec 6) : Statement (.xidx m d a b) := .inr rfl
theorem xbc (m : Bool) (l : BitVec 1) (d : BitVec 6) (a : BitVec 6) (b : BitVec 6) : Statement (.xbc m l d a b) := .inr rfl
theorem xscan (m : Bool) (x : BitVec 1) (o : BitVec 3) (d : BitVec 6) (a : BitVec 6) : Statement (.xscan m x o d a) := .inr rfl
theorem xred (m : Bool) (x : BitVec 1) (o : BitVec 3) (d : BitVec 6) (a : BitVec 6) : Statement (.xred m x o d a) := .inr rfl
theorem voteBallot (m : Bool) (n : BitVec 1) (d : BitVec 6) (a : BitVec 6) : Statement (.voteBallot m n d a) := .inr rfl
theorem voteAny (m : Bool) (n : BitVec 1) (d : BitVec 3) (a : BitVec 6) : Statement (.voteAny m n d a) := .inr rfl
theorem voteAll (m : Bool) (n : BitVec 1) (d : BitVec 3) (a : BitVec 6) : Statement (.voteAll m n d a) := .inr rfl
theorem matchOp (m : Bool) (d : BitVec 6) (a : BitVec 6) (c : BitVec 1) : Statement (.matchOp m d a c) := .inr rfl
theorem matchf (m : Bool) (d : BitVec 6) (a : BitVec 6) (c : BitVec 1) : Statement (.matchf m d a c) := .inr rfl
theorem xswzLane (m : Bool) (d : BitVec 6) (a : BitVec 6) (l : BitVec 8) : Statement (.xswzLane m d a l) := .inr rfl
theorem xswzRx (m : Bool) (d : BitVec 6) (a : BitVec 6) (mm : BitVec 5) : Statement (.xswzRx m d a mm) := .inr rfl
theorem xswzRev (m : Bool) (d : BitVec 6) (a : BitVec 6) : Statement (.xswzRev m d a) := .inr rfl
theorem ldg (m : Bool) (h : BitVec 2) (c : BitVec 1) (w : BitVec 3) (d : BitVec 6) (a : BitVec 6) (b : BitVec 6) : Statement (.ldg m h c w d a b) := .inr rfl
theorem stg (m : Bool) (h : BitVec 2) (c : BitVec 1) (w : BitVec 3) (d : BitVec 6) (a : BitVec 6) (b : BitVec 6) : Statement (.stg m h c w d a b) := .inr rfl
theorem ldgx (m : Bool) (h : BitVec 2) (w : BitVec 3) (d : BitVec 6) (a : BitVec 6) (t : BitVec 4) : Statement (.ldgx m h w d a t) := .inr rfl
theorem stgx (m : Bool) (h : BitVec 2) (w : BitVec 3) (d : BitVec 6) (a : BitVec 6) : Statement (.stgx m h w d a) := .inr rfl
theorem lds (m : Bool) (c : BitVec 1) (w : BitVec 3) (d : BitVec 6) (a : BitVec 6) (b : BitVec 6) : Statement (.lds m c w d a b) := .inr rfl
theorem sts (m : Bool) (c : BitVec 1) (w : BitVec 3) (d : BitVec 6) (a : BitVec 6) (b : BitVec 6) : Statement (.sts m c w d a b) := .inr rfl
theorem ldu (m : Bool) (h : BitVec 2) (c : BitVec 1) (w : BitVec 3) (d : BitVec 6) (a : BitVec 6) (b : BitVec 6) : Statement (.ldu m h c w d a b) := .inr rfl
theorem stu (m : Bool) (h : BitVec 2) (c : BitVec 1) (w : BitVec 3) (d : BitVec 6) (a : BitVec 6) (b : BitVec 6) : Statement (.stu m h c w d a b) := .inr rfl
theorem ldp (m : Bool) (w : BitVec 3) (d : BitVec 6) (a : BitVec 6) (b : BitVec 6) : Statement (.ldp m w d a b) := .inr rfl
theorem stp (m : Bool) (w : BitVec 3) (d : BitVec 6) (a : BitVec 6) (b : BitVec 6) : Statement (.stp m w d a b) := .inr rfl
theorem atom (m : Bool) (x : BitVec 1) (r : BitVec 1) (o : BitVec 4) (d : BitVec 6) (a : BitVec 6) (k : BitVec 2) (c : BitVec 3) : Statement (.atom m x r o d a k c) := .inr rfl
theorem atoms (m : Bool) (x : BitVec 1) (r : BitVec 1) (o : BitVec 4) (d : BitVec 6) (a : BitVec 6) (k : BitVec 2) (c : BitVec 3) : Statement (.atoms m x r o d a k c) := .inr rfl
theorem cas (m : Bool) (y : BitVec 1) (x : BitVec 1) (d : BitVec 6) (a : BitVec 6) (k : BitVec 2) (c : BitVec 3) : Statement (.cas m y x d a k c) := .inr rfl
theorem fatom (m : Bool) (y : BitVec 1) (r : BitVec 1) (o : BitVec 2) (d : BitVec 6) (a : BitVec 6) (k : BitVec 2) (c : BitVec 3) : Statement (.fatom m y r o d a k c) := .inr rfl
theorem lda (m : Bool) (y : BitVec 1) (w : BitVec 3) (d : BitVec 6) (a : BitVec 6) (c : BitVec 3) : Statement (.lda m y w d a c) := .inr rfl
theorem strel (m : Bool) (y : BitVec 1) (w : BitVec 3) (d : BitVec 6) (a : BitVec 6) (c : BitVec 3) : Statement (.strel m y w d a c) := .inr rfl
theorem fence (m : Bool) (k : BitVec 2) (c : BitVec 3) : Statement (.fence m k c) := .inr rfl
theorem pref (m : Bool) (c : BitVec 1) (l : BitVec 1) (a : BitVec 6) (b : BitVec 6) : Statement (.pref m c l a b) := .inr rfl
theorem cmaint (m : Bool) (l : BitVec 1) (v : BitVec 1) (a : BitVec 6) (b : BitVec 6) : Statement (.cmaint m l v a b) := .inr rfl
theorem rdrain (m : Bool) (l : BitVec 1) (a : BitVec 6) : Statement (.rdrain m l a) := .inr rfl
theorem tdef (m : Bool) (k : BitVec 2) (t : BitVec 4) (d : BitVec 5) (a : BitVec 6) (b : BitVec 6) : Statement (.tdef m k t d a b) := .inr rfl
theorem tfree (m : Bool) (a : BitVec 5) : Statement (.tfree m a) := .inr rfl
theorem tstate (m : Bool) (d : BitVec 6) (a : BitVec 5) : Statement (.tstate m d a) := .inr rfl
theorem twait (m : Bool) (a : BitVec 5) : Statement (.twait m a) := .inr rfl
theorem claim (m : Bool) (a : BitVec 5) : Statement (.claim m a) := .inr rfl
theorem claimt (m : Bool) (d : BitVec 3) (a : BitVec 5) : Statement (.claimt m d a) := .inr rfl
theorem release (m : Bool) (a : BitVec 5) : Statement (.release m a) := .inr rfl
theorem cpy (m : Bool) (x : BitVec 1) (e : BitVec 3) (d : BitVec 5) (a : BitVec 5) (b : BitVec 6) : Statement (.cpy m x e d a b) := .inr rfl
theorem cpyg (m : Bool) (y : BitVec 1) (x : BitVec 1) (z : BitVec 1) (e : BitVec 3) (d : BitVec 5) (a : BitVec 4) : Statement (.cpyg m y x z e d a) := .inr rfl
theorem mma (m : Bool) (d : BitVec 5) (a : BitVec 5) (b : BitVec 5) : Statement (.mma m d a b) := .inr rfl
theorem mmaz (m : Bool) (d : BitVec 5) (a : BitVec 5) (b : BitVec 5) : Statement (.mmaz m d a b) := .inr rfl
theorem accrd (m : Bool) (d : BitVec 6) (a : BitVec 5) (b : BitVec 6) : Statement (.accrd m d a b) := .inr rfl
theorem accrdc (m : Bool) (d : BitVec 6) (a : BitVec 5) (b : BitVec 6) : Statement (.accrdc m d a b) := .inr rfl
theorem accwr (m : Bool) (d : BitVec 5) (a : BitVec 6) (b : BitVec 6) : Statement (.accwr m d a b) := .inr rfl
theorem accz (m : Bool) (d : BitVec 5) : Statement (.accz m d) := .inr rfl
theorem accmax (m : Bool) (d : BitVec 6) (a : BitVec 5) : Statement (.accmax m d a) := .inr rfl
theorem accsum (m : Bool) (d : BitVec 6) (a : BitVec 5) : Statement (.accsum m d a) := .inr rfl
theorem accexp (m : Bool) (d : BitVec 5) (a : BitVec 6) (b : BitVec 6) : Statement (.accexp m d a b) := .inr rfl
theorem accscl (m : Bool) (d : BitVec 5) (a : BitVec 6) : Statement (.accscl m d a) := .inr rfl
theorem accmask (m : Bool) (d : BitVec 5) (a : BitVec 6) (b : BitVec 6) : Statement (.accmask m d a b) := .inr rfl
theorem mfence (m : Bool) (l : BitVec 1) (a : BitVec 5) : Statement (.mfence m l a) := .inr rfl
theorem qfence (m : Bool) (mm : BitVec 8) : Statement (.qfence m mm) := .inr rfl
theorem coll (m : Bool) (x : BitVec 1) (e : BitVec 3) (a : BitVec 6) (b : BitVec 5) : Statement (.coll m x e a b) := .inr rfl
theorem colli (m : Bool) (d : BitVec 6) (a : BitVec 6) : Statement (.colli m d a) := .inr rfl
theorem wset (m : Bool) (n : BitVec 4) (d : BitVec 6) (a : BitVec 3) : Statement (.wset m n d a) := .inr rfl
theorem wclr (m : Bool) (a : BitVec 6) : Statement (.wclr m a) := .inr rfl
theorem wstat (m : Bool) (d : BitVec 6) (a : BitVec 6) : Statement (.wstat m d a) := .inr rfl
theorem warm (m : Bool) (a : BitVec 6) (b : BitVec 6) : Statement (.warm m a b) := .inr rfl
theorem hread (m : Bool) (mm : BitVec 3) (d : BitVec 6) (a : BitVec 6) (b : BitVec 6) : Statement (.hread m mm d a b) := .inr rfl
theorem hwrite (m : Bool) (mm : BitVec 3) (d : BitVec 6) (a : BitVec 6) (b : BitVec 6) : Statement (.hwrite m mm d a b) := .inr rfl
theorem hstop (m : Bool) (a : BitVec 6) (b : BitVec 6) : Statement (.hstop m a b) := .inr rfl
theorem hstep (m : Bool) (a : BitVec 6) (b : BitVec 6) : Statement (.hstep m a b) := .inr rfl
theorem hresume (m : Bool) (a : BitVec 6) (b : BitVec 6) : Statement (.hresume m a b) := .inr rfl
theorem invlp (m : Bool) (a : BitVec 6) (b : BitVec 6) : Statement (.invlp m a b) := .inr rfl
theorem tlbinv (m : Bool) (a : BitVec 6) : Statement (.tlbinv m a) := .inr rfl
theorem pmread (m : Bool) (d : BitVec 6) (a : BitVec 6) : Statement (.pmread m d a) := .inr rfl
theorem tracem (m : Bool) (a : BitVec 6) (b : BitVec 6) : Statement (.tracem m a b) := .inr rfl
theorem rpchk (m : Bool) (a : BitVec 6) : Statement (.rpchk m a) := .inr rfl

end Sys2Proof.Laws.Encodable
end

