-- ==== Sys2Proof/Tests/Slice0.lean ====
section
/-! SUPPORT. Tests: ill-formed terms, decoding of words the spec writes out, and states that meet the hypotheses of every statement. -/

set_option maxRecDepth 100000

open Sys2Proof Sys2Proof.Machine Sys2Proof.Safety

namespace Sys2Proof.Tests

-- one theorem at a time: each thread that waits for the kernel would hold a stack of its own
set_option Elab.async false

/-- Bytes at a physical address. -/
def put (s : State) (pa n v : Nat) : State :=
  { s with hbm := (List.range n).foldl (fun m i => Store.set 0 m (pa + i) (BitVec.ofNat 8 (v / 256 ^ i))) s.hbm }

/-- Context 0 is live over pages of 8 MB that map onto themselves. -/
def home : State :=
  let s := put (put State.reset 0x10000 8 (0x12000 + 1)) 0x12000 8 (0x14000 + 1)
  let s := put (put s 0x14000 8 0xDF) 0x14008 8 (2 ^ 23 + 0xDF)
  s.modCtx 0 fun c => { c with live := true, ptroot := 0x10000 }

/-- The translation of the page of 8 MB at 0. -/
def page : Tlb := { part := 16, asid := 0, ctx := 0, vpage := 0, size := 23, pa := 0, rd := true, wr := true, ex := true, sys := false, d := true }

/-- The tags of the desk's vector registers. -/
def deskTag (r : Nat) : BitVec 4 :=
  if r < 6 then 1 else if r < 16 then 2 else if r < 28 then 4 else if r < 32 then 3 else if r < 48 then BitVec.ofNat 4 (14 + r % 2)
  else [7, 7, 5, 6, 11, 11, 9, 10, 12, 8].getD (r - 48) 1

/-- Two warps of a workgroup on core 0. Warp 0 runs: three threads in M, and A as given; `live` threads live, the fourth in a
split of its own when it lives. Even scalar registers hold addresses, three odd ones small numbers. -/
def desk (a live : Nat) (trapm halted : Bool) : State :=
  let x : Warp :=
    { resident := true, wg := 1, live := BitVec.ofNat 96 live, allot := 64, nsregs := 64, privSize := 16
      splits := (0, { state := .running, m := 7, a := BitVec.ofNat 96 a, pc := 0x80000, trapm := trapm }) ::
        if live = 15 then [(1, { state := .ready, m := 8, a := 8, pc := 0x80000 })] else []
      sregs := ((List.range 20).map fun r => (2 * r + 2, BitVec.ofNat 32 (0x20000 + 128 * r))) ++ [(41, 8), (43, 0x100), (45, 2), (47, 96)]
      vregs := (List.range 59).map fun r => ((r + 1) * 96, if r < 31 then BitVec.ofNat 32 (16 * r) else if r % 2 = 0 then 0 else 0x30000)
      tags := (List.range 58).map fun r => (r, deskTag r) }
  let role : Role := { warps := 2, vregs := 64, sregs := 64, threads := 6 }
  let launch : Launch :=
    { active := true, gridX := 1, gridY := 1, gridZ := 1, scratch := 8192, isResident := true, roles := [role]
      groups := [(3, { valid := true, roles := 1, warps := 3 })] }
  let opnd : Tile := { used := true, kind := .opnd, base := 2, rows := 96, cols := 256, tag := 11, state := .ready, bound := true, owner := 1 }
  let acc : Tile := { opnd with kind := .acc, base := 0, cols := 32, tag := 2 }
  let tiles : List Tile :=
    [{ acc with kind := .scr, rows := 1, cols := 8 }, { acc with kind := .scr, base := 128, rows := 1, cols := 8, state := .empty }
     , acc, { opnd with state := .empty, rows := 32, bound := false, base := 0 }, opnd, { acc with lacc := 1, tag := 4 }
     , { opnd with rows := 32, base := 3 }, { acc with base := 32, state := .empty }]
  let g : Workgroup := { resident := true, core := 0, launch := 2, warps := [0, 1], tbase := 0, tcount := 8, accs := [(0, 1), (1, 2)], scratchLen := 8192 }
  let s := { home with cur := 0, launches := [(2, launch)], wgs := [(1, g)], warps := [(0, x), (1, { x with num := 1, allot := 40, whalt := halted })] }
  let s := s.modCtx 0 fun c => { c with handles := [(0, { used := true, desc := 0x20000 })] }
  s.modCore 0 fun c => { c with tlb := [page], tiles := tiles.zipIdx.map fun e => (e.2, e.1), accOwner := [(0, 2), (1, 2)], accLast := [(0, 2), (1, 2)] }


/-! ### Words: for each, a desk on which it performs -/

theorem test_fits_accReads :
    [.accrd false 55 2 18, .accrdc false 1 2 41, .accmax false 26 2, .accsum false 52 2].all (fun i : Instr => i.wellFormed && (accReads i (desk 1 7 false false)).any fun p => p.fits (desk 1 7 false false)) = true := by decide

theorem test_fits_accWrites :
    [.accwr false 2 13 50, .accexp false 5 26 50, .accscl false 5 23, .accmask false 5 50 32].all (fun i : Instr => i.wellFormed && (accWrites i (desk 1 7 false false)).any fun p => p.fits (desk 1 7 false false)) = true := by decide

theorem test_fits_barriers :
    [.bara false 3, .barw false 3, .setquotaGive false 41].all (fun i : Instr => i.wellFormed && (barriers i (desk 1 7 false false)).any fun p => p.fits (desk 1 7 false false)) = true := by decide

theorem test_fits_barriers_halted :
    [.bar false 3].all (fun i : Instr => i.wellFormed && (barriers i (desk 1 15 false true)).any fun p => p.fits (desk 1 15 false true)) = true := by decide

theorem test_fits_collectiveOpens :
    [.colli false 55 4].all (fun i : Instr => i.wellFormed && (collectiveOpens i (desk 1 7 false false)).any fun p => p.fits (desk 1 7 false false)) = true := by decide

theorem test_fits_conversions :
    [.cvt false 1 8 55 18, .cvti false 0 11 55 18 0, .cvtf false 2 8 0 36 0, .pack false 18 11 11].all (fun i : Instr => i.wellFormed && (conversions i (desk 1 7 false false)).any fun p => p.fits (desk 1 7 false false)) = true := by decide

theorem test_fits_counterReads :
    [.pmread false 4 6].all (fun i : Instr => i.wellFormed && (counterReads i (desk 1 7 false false)).any fun p => p.fits (desk 1 7 false false)) = true := by decide

theorem test_fits_debugReads :
    [.wstat false 2 1].all (fun i : Instr => i.wellFormed && (debugReads i).any fun p => p.fits (desk 1 7 false false)) = true := by decide

theorem test_fits_debugReads_halted :
    [.hread false 6 15 43 53].all (fun i : Instr => i.wellFormed && (debugReads i).any fun p => p.fits (desk 1 15 false true)) = true := by decide

theorem test_fits_debugWords :
    [.wset false 2 12 6, .wclr false 5, .warm false 54 33, .hstop false 6 45, .tracem false 41 20, .rpchk false 43].all (fun i : Instr => i.wellFormed && (debugWords i (desk 1 7 false false)).any fun p => p.fits (desk 1 7 false false)) = true := by decide

/-- The desk with tracing on, or in record mode. -/
def traced : State := (desk 1 7 false false).modCtx 0 fun c => { c with dbgctl := 8, trOn := true, tracebase := 0x40000 }
def recording : State := (desk 1 7 false false).modWarp 0 fun x => { x with rrMode := 1, rrLog := 6, rrBase := 0x40000 }
/-- In replay mode, over the entry that RPCHK of s43 is to find. -/
def replaying : State := (put (desk 1 7 false false) 0x40000 16 0x78000001000000000100000000).modWarp 0 fun x =>
  { x with rrMode := 2, rrLog := 6, rrBase := 0x40000 }

theorem test_fits_traceWords : ((Instr.tracem false 41 20).wellFormed && (traceWords (.tracem false 41 20) traced).any fun p => p.fits traced) = true := by decide
theorem test_fits_checkWords :
    [recording, replaying].all (fun s => (Instr.rpchk false 43).wellFormed && (checkWords (.rpchk false 43) s).any fun p => p.fits s) = true := by decide

theorem test_fits_debugWords_halted :
    [.hwrite false 0 50 43 5, .hstep false 6 62, .hresume false 43 45].all (fun i : Instr => i.wellFormed && (debugWords i (desk 1 15 false true)).any fun p => p.fits (desk 1 15 false true)) = true := by decide

theorem test_fits_divergent :
    [.brp false 0 1 3, .brv false 3].all (fun i : Instr => i.wellFormed && (divergent i (desk 1 7 false false)).any fun p => p.fits (desk 1 7 false false)) = true := by decide

theorem test_fits_engineWords :
    [.cpy false 1 3 2 0 52, .cpyg false 0 0 0 2 0 0, .mma false 2 4 6, .accz false 2, .qfence false 197,
     .coll false 0 2 5 0, .mmaz false 7 4 6].all (fun i : Instr => i.wellFormed && (engineWords i (desk 1 7 false false)).any fun p => p.fits (desk 1 7 false false)) = true := by decide

theorem test_fits_exchanges :
    [.xprev false 0 2 18 23, .xidx false 43 18 3, .xbc false 0 16 3 14, .matchOp false 41 18 0, .matchf false 36 16 0,
     .xswzLane false 43 0 50, .xswzRx false 50 55 18, .xswzRev false 26 50].all (fun i : Instr => i.wellFormed && (exchanges i (desk 1 7 false false)).any fun p => p.fits (desk 1 7 false false)) = true := by decide

theorem test_fits_exits :
    [.exit false].all (fun i : Instr => i.wellFormed && (exits i (desk 1 7 false false)).any fun p => p.fits (desk 1 7 false false)) = true := by decide

theorem test_fits_fences :
    [.fence false 0 0, .pref false 0 1 16 3, .cmaint false 0 0 16 18, .rdrain false 0 52].all (fun i : Instr => i.wellFormed && (fences i (desk 1 7 false false)).any fun p => p.fits (desk 1 7 false false)) = true := by decide

theorem test_fits_floatArith_1 :
    [.fadd false 32 27 18, .fsub false 32 50 50, .fmul false 4 50 50, .fmin false 40 16 18, .fmax false 44 16 22,
     .fminnum false 36 16 16, .fmaxnum false 44 18 27, .fcpys false 6 16 21, .fma false 18 18 26, .fms false 16 18 16,
     .fnma false 27 18 18, .fnms false 16 18 20, .fabs false 52 20, .fneg false 41 24].all (fun i : Instr => i.wellFormed && (floatArith i (desk 1 7 false false)).any fun p => p.fits (desk 1 7 false false)) = true := by decide

theorem test_fits_floatArith_2 :
    [.frnd false 32 21].all (fun i : Instr => i.wellFormed && (floatArith i (desk 1 7 false false)).any fun p => p.fits (desk 1 7 false false)) = true := by decide

theorem test_fits_floatOther :
    [.fscale false 43 16 9, .fclass false 50 50, .dot2 false 16 50 50, .qnt false 1 25 16 32, .unpacklo false 54 50,
     .unpackhi false 28 57, .dot4 false 8 52 53, .dot8 false 8 52 52, .dqnt false 0 4 16 54 55].all (fun i : Instr => i.wellFormed && (floatOther i (desk 1 7 false false)).any fun p => p.fits (desk 1 7 false false)) = true := by decide

theorem test_fits_floatSpecial :
    [.frcp false 5 16, .frsq false 50 18, .fsqrt false 5 25, .fexp2 false 36 18, .flog2 false 41 16, .fsin false 43 25,
     .fcos false 32 16, .ftanh false 34 50, .fsig false 10 50, .fdiv false 16 16 27].all (fun i : Instr => i.wellFormed && (floatSpecial i (desk 1 7 false false)).any fun p => p.fits (desk 1 7 false false)) = true := by decide

theorem test_fits_gathers :
    [.movvs false 36 43, .tagq false 16 4, .voteBallot false 1 43 5].all (fun i : Instr => i.wellFormed && (gathers i).any fun p => p.fits (desk 1 7 false false)) = true := by decide

theorem test_fits_handing :
    [.yield false, .waitall false, .join false 36 748].all (fun i : Instr => i.wellFormed && (handing i (desk 1 7 false false)).any fun p => p.fits (desk 1 7 false false)) = true := by decide

theorem test_fits_jumps :
    [.bra false 0, .call false 2, .brq false 0 0 190667, .brx false 43, .callx false 43 45, .ret false 34].all (fun i : Instr => i.wellFormed && (jumps i).any fun p => p.link.fits (desk 1 7 false false)) = true := by decide

theorem test_fits_memoryAtomics :
    [.atom false 0 0 8 1 34 0 0, .cas false 0 0 20 0 0 4, .fatom false 0 0 1 19 36 0 3].all (fun i : Instr => i.wellFormed && (memoryAtomics i (desk 1 7 false false)).any fun p => p.fits (desk 1 7 false false)) = true := by decide

theorem test_fits_memoryLoads :
    [.ldg false 3 1 1 32 52 1, .ldgx false 3 4 3 44 1, .ldp false 4 41 45 55].all (fun i : Instr => i.wellFormed && (memoryLoads i (desk 1 7 false false)).any fun p => p.fits (desk 1 7 false false)) = true := by decide

theorem test_fits_memoryStores :
    [.stg false 0 0 2 4 52 24, .stgx false 0 0 27 32, .stgx false 2 0 27 32, .stu false 1 1 4 53 2 62, .stp false 4 50 41 57].all (fun i : Instr => i.wellFormed && (memoryStores i (desk 1 7 false false)).any fun p => p.fits (desk 1 7 false false)) = true := by decide

theorem test_fits_plainControl :
    [.nop false, .beat false, .beatn false 43, .ungang false, .mode false 11 58].all (fun i : Instr => i.wellFormed && (plainControl i (desk 1 7 false false)).any fun p => p.fits (desk 1 7 false false)) = true := by decide

theorem test_fits_plainScalar_1 :
    [.addScalar false 28 45 47, .subScalar false 20 18 43, .andScalar false 3 45 47, .orScalar false 25 3 43,
     .xorScalar false 4 54 55, .andnScalar false 6 58 35, .ornScalar false 45 1 61, .shlScalar false 5 50 52,
     .shrScalar false 52 34 1, .sraScalar false 3 27 4, .rotScalar false 39 16 41, .minScalar false 18 2 1,
     .maxScalar false 54 36 60, .minnScalar false 35 18 4].all (fun i : Instr => i.wellFormed && (plainScalar i).any fun p => p.fits (desk 1 7 false false)) = true := by decide

theorem test_fits_plainScalar_2 :
    [.maxnScalar false 5 1 54, .absScalar false 34 34, .negScalar false 50 0, .addsatScalar false 3 39 41,
     .subsatScalar false 41 18 41, .addsatnScalar false 41 5 3, .subsatnScalar false 1 55 6, .addiScalar false 55 0 48,
     .shliScalar false 5 0 0, .shriScalar false 32 27 27, .sraiScalar false 0 36 13, .rotiScalar false 45 36 19,
     .mulScalar false 1 27 34, .mulhiScalar false 4 1 0].all (fun i : Instr => i.wellFormed && (plainScalar i).any fun p => p.fits (desk 1 7 false false)) = true := by decide

theorem test_fits_plainScalar_3 :
    [.mulhinScalar false 39 0 1, .madScalar false 45 34 5, .mulwScalar false 52 0 5, .mulwnScalar false 0 16 32,
     .divScalar false 43 2 2, .divnScalar false 1 16 0, .remScalar false 6 2 20, .remnScalar false 4 36 41,
     .popcScalar false 43 18, .clzScalar false 3 3, .ctzScalar false 45 38, .brevScalar false 36 1,
     .bfxScalar false 57 18 34, .bfxnScalar false 0 55 55].all (fun i : Instr => i.wellFormed && (plainScalar i).any fun p => p.fits (desk 1 7 false false)) = true := by decide

theorem test_fits_plainScalar_4 :
    [.bfiScalar false 19 41 36, .bswapScalar false 50 28, .addlScalar false 17 36 22, .andlScalar false 50 54 4,
     .orlScalar false 2 43 5, .leaScalar false 2 6 32 41, .add64Scalar false 16 52 4, .sub64Scalar false 50 32 32,
     .cmp64Scalar false 54 34 4, .shl64Scalar false 0 52 4, .shr64Scalar false 0 0 34, .mul64Scalar false 22 32 52].all (fun i : Instr => i.wellFormed && (plainScalar i).any fun p => p.fits (desk 1 7 false false)) = true := by decide

theorem test_fits_plainVector_1 :
    [.addVector false 54 29 54, .subVector false 46 1 53, .andVector false 55 1 6, .orVector false 3 50 5,
     .xorVector false 45 6 16, .andnVector false 2 55 48, .ornVector false 16 51 16, .shlVector false 54 2 50,
     .shrVector false 6 6 16, .sraVector false 48 3 54, .rotVector false 45 49 1, .minVector false 6 53 50,
     .maxVector false 55 16 1, .minnVector false 2 54 2].all (fun i : Instr => i.wellFormed && (plainVector i (desk 1 7 false false)).any fun p => p.fits (desk 1 7 false false)) = true := by decide

theorem test_fits_plainVector_2 :
    [.maxnVector false 37 54 8, .absVector false 34 3, .negVector false 3 5, .addsatVector false 32 52 5,
     .subsatVector false 59 54 55, .addsatnVector false 2 3 54, .subsatnVector false 59 6 52, .addiVector false 52 3 36,
     .shliVector false 27 2 14, .shriVector false 3 10 3, .sraiVector false 45 3 1, .rotiVector false 5 3 6,
     .mulVector false 33 6 2, .mulhiVector false 18 6 0].all (fun i : Instr => i.wellFormed && (plainVector i (desk 1 7 false false)).any fun p => p.fits (desk 1 7 false false)) = true := by decide

theorem test_fits_plainVector_3 :
    [.mulhinVector false 52 1 6, .madVector false 18 18 18, .mulwVector false 6 4 6, .mulwnVector false 2 0 55,
     .divVector false 42 6 16, .divnVector false 1 4 55, .remVector false 36 0 51, .remnVector false 18 3 6,
     .popcVector false 4 0, .clzVector false 2 16, .ctzVector false 56 57, .brevVector false 45 50,
     .bfxVector false 1 55 52, .bfxnVector false 0 20 18].all (fun i : Instr => i.wellFormed && (plainVector i (desk 1 7 false false)).any fun p => p.fits (desk 1 7 false false)) = true := by decide

theorem test_fits_plainVector_4 :
    [.bfiVector false 29 7 0, .bswapVector false 0 55, .addlVector false 52 2 6, .andlVector false 43 49 408864185,
     .orlVector false 27 31 107436656, .leaVector false 2 6 18 57, .add64Vector false 4 34 34, .sub64Vector false 16 34 34,
     .cmp64Vector false 0 40 34, .shl64Vector false 0 36 0, .shr64Vector false 46 36 54, .mul64Vector false 32 34 32].all (fun i : Instr => i.wellFormed && (plainVector i (desk 1 7 false false)).any fun p => p.fits (desk 1 7 false false)) = true := by decide

theorem test_fits_predicates :
    [.cmpScalar false 2 1 5 43 42, .cmpVector false 3 2 0 0 7 0 5, .cmpiScalar false 6 50 1 103,
     .cmpiVector false 1 1 6 3 7 8, .cmplScalar false 4 5 2 6 2110476371, .cmplVector false 0 0 1 56 2 5 46,
     .movpScalar false 1 4 1, .movpVector false 2 0 3 1, .fcmp false 0 0 0 0 0 16 16, .voteAny false 0 0 3,
     .voteAll false 0 6 3].all (fun i : Instr => i.wellFormed && (predicates i (desk 1 7 false false)).any fun p => p.fits (desk 1 7 false false)) = true := by decide

theorem test_fits_regangs :
    [.regang false 59 24 3031].all (fun i : Instr => i.wellFormed && (regangs i (desk 1 7 false false)).any fun p => p.fits (desk 1 7 false false)) = true := by decide

theorem test_fits_registerReads :
    [.rdc false 14 28].all (fun i : Instr => i.wellFormed && (registerReads i).any fun p => p.fits (desk 1 7 false false)) = true := by decide

theorem test_fits_registerWrites :
    [.wrc false 3 6].all (fun i : Instr => i.wellFormed && (registerWrites i (desk 1 7 false false)).any fun p => p.fits (desk 1 7 false false)) = true := by decide

theorem test_fits_scalarLoads :
    [.ldu false 3 1 5 32 34 2].all (fun i : Instr => i.wellFormed && (scalarLoads i (desk 1 7 false false)).any fun p => p.fits (desk 1 7 false false)) = true := by decide

theorem test_fits_scalarLong :
    [.sysvTick false 2].all (fun i : Instr => i.wellFormed && (scalarLong i).any fun p => p.fits (desk 1 7 false false)) = true := by decide

theorem test_fits_scalarMove :
    [.getmode false 50, .setquotaQuery false 18, .selScalar false 1 5 14 18 52, .moviScalar false 55 28553,
     .movhiScalar false 54 7446, .movlScalar false 46 6, .movScalar false 6 5].all (fun i : Instr => i.wellFormed && (scalarMove i).any fun p => p.fits (desk 1 7 false false)) = true := by decide

theorem test_fits_scalarSys :
    [.sysvWid false 43, .sysvWgid false 18, .sysvWgx false 2, .sysvWgy false 52, .sysvWgz false 51, .sysvRole false 43,
     .sysvCore false 36, .sysvSlice false 50, .sysvLaunch false 4, .sysvGroups false 18, .sysvPart false 63].all (fun i : Instr => i.wellFormed && (scalarSys i).any fun p => p.fits (desk 1 7 false false)) = true := by decide

theorem test_fits_scans :
    [.xscan false 0 6 55 0, .xred false 0 6 16 21].all (fun i : Instr => i.wellFormed && (scans i (desk 1 7 false false)).any fun p => p.fits (desk 1 7 false false)) = true := by decide

theorem test_fits_scratchLoads :
    [.lds false 0 4 52 41 18, .lda false 1 4 2 1 0].all (fun i : Instr => i.wellFormed && (scratchLoads i (desk 1 7 false false)).any fun p => p.fits (desk 1 7 false false)) = true := by decide

theorem test_fits_scratchWrites :
    [.sts false 0 0 18 45 16, .atoms false 0 1 4 16 55 0 0, .strel false 1 4 2 1 0].all (fun i : Instr => i.wellFormed && (scratchWrites i (desk 1 7 false false)).any fun p => p.fits (desk 1 7 false false)) = true := by decide

theorem test_fits_sweeps :
    [.invlp false 4 0, .tlbinv false 45].all (fun i : Instr => i.wellFormed && (sweeps i (desk 1 7 false false)).any fun p => p.fits (desk 1 7 false false)) = true := by decide

theorem test_fits_tileReads :
    [.tstate false 6 1].all (fun i : Instr => i.wellFormed && (tileReads i).any fun p => p.fits (desk 1 7 false false)) = true := by decide

theorem test_fits_tileWords :
    [.tfree false 0, .twait false 6, .claim false 3, .claimt false 5 3, .release false 4, .mfence false 0 6,
     .tdef false 1 11 3 47 0, .tstate false 6 0].all (fun i : Instr => i.wellFormed && (tileWords i (desk 1 7 false false)).any fun p => p.fits (desk 1 7 false false)) = true := by decide

theorem test_fits_trapWords :
    [.trap false 2].all (fun i : Instr => i.wellFormed && (trapWords i (desk 1 7 false false)).any fun p => p.fits (desk 1 7 false false)) = true := by decide

theorem test_fits_trapWords_trapped :
    [.eret false].all (fun i : Instr => i.wellFormed && (trapWords i (desk 1 7 true false)).any fun p => p.fits (desk 1 7 true false)) = true := by decide

theorem test_fits_vectorMove :
    [.sysvTid false 36, .sysvLane false 0, .sysvRank false 52, .selVector false 1 0 5 43 3 1, .moviVector false 3 46583,
     .movhiVector false 3 34, .movlVector false 34 1 6, .movVector false 1 4, .movsv false 2 16 2, .retag false 43 41 4].all (fun i : Instr => i.wellFormed && (vectorMove i (desk 1 7 false false)).any fun p => p.fits (desk 1 7 false false)) = true := by decide

/-! ### Decoding: words of the spec's own listings (R112 and the worked programs), and words put together from the tables -/

theorem test_decode_listing_1 :
    decodeTableWord 32 0x10005187 = some (.addScalar false 5 6 7) ∧
    decodeTableWord 32 0x110C4FFB = some (.addiScalar false 3 4 4091) ∧
    decodeTableWord 32 0x31004209 = some (.fma false 4 8 9) ∧
    decodeTableWord 32 0x012C020A = some (.mode false 11 522) ∧
    decodeTableWord 64 0xBF8000009A009000 = some (.movlScalar true 9 3212836864) ∧
    decodeTableWord 32 0x02FFFFF9 = some (.bra false 16777209) ∧
    decodeTableWord 32 0x052BFFE1 = some (.brp false 1 2 262113) ∧
    decodeTableWord 32 0x07240011 = some (.join false 9 17) ∧
    decodeTableWord 64 0x3FC000002A001100 = some (.movlVector false 1 4 1069547520) ∧
    decodeTableWord 32 0x361C3040 = some (.cvt false 0 7 3 1) ∧
    decodeTableWord 32 0x350450C4 = some (.dot4 false 5 3 4) ∧
    decodeTableWord 32 0x46042040 = some (.matchf false 2 1 0) ∧
    decodeTableWord 32 0x46003040 = some (.matchOp false 3 1 0) ∧
    decodeTableWord 32 0x281C0000 = some (.moviVector false 7 0) ∧
    decodeTableWord 32 0x2C004307 = some (.leaVector false 0 4 12 7) ∧
    decodeTableWord 32 0xD2408102 = some (.atom true 0 1 0 8 4 0 2) := by decide
theorem test_decode_listing_2 :
    decodeTableWord 32 0xC3209200 = some (.xscan true 1 0 9 8) ∧
    decodeTableWord 32 0x610C0000 = some (.claim false 0) ∧
    decodeTableWord 32 0x63000200 = some (.cpyg false 0 0 0 0 0 2) ∧
    decodeTableWord 32 0x64042001 = some (.mmaz false 2 0 1) ∧
    decodeTableWord 32 0x66000080 = some (.mfence false 0 2) ∧
    decodeTableWord 32 0xE5104080 = some (.accmax true 4 2) ∧
    decodeTableWord 32 0x61140000 = some (.release false 0) ∧
    decodeTableWord 32 0x49103202 = some (.stg false 0 0 4 3 8 2) ∧
    decodeTableWord 32 0x700D5600 = some (.wset false 3 21 3) ∧
    decodeTableWord 32 0x7201428B = some (.hread false 0 20 10 11) ∧
    decodeTableWord 32 0x7404028C = some (.hstep false 10 12) ∧
    decodeTableWord 32 0x7408028C = some (.hresume false 10 12) ∧
    decodeTableWord 32 0x48103202 = some (.ldg false 0 0 4 3 8 2) ∧
    decodeTableWord 32 0x20005187 = some (.addVector false 5 6 7) ∧
    decodeTableWord 32 0x0B200074 = some (.rdc false 8 116) ∧
    decodeTableWord 32 0x18300400 = some (.moviScalar false 12 1024) := by decide
theorem test_decode_listing_3 :
    decodeTableWord 32 0x1C00A20C = some (.leaScalar false 0 10 8 12) ∧
    decodeTableWord 32 0x0E0D5000 = some (.sysvWid false 21) ∧
    decodeTableWord 32 0x1300D54E = some (.mulScalar false 13 21 14) ∧
    decodeTableWord 32 0x0E001000 = some (.sysvTid false 1) ∧
    decodeTableWord 32 0x2B043342 = some (.movsv false 3 13 2) ∧
    decodeTableWord 32 0x26045400 = some (.cmpiVector false 0 0 1 5 4 0) ∧
    decodeTableWord 32 0x27048187 = some (.selVector false 0 0 1 8 6 7) ∧
    decodeTableWord 32 0xC4414200 = some (.xred true 1 0 20 8) ∧
    decodeTableWord 32 0x4000A24F = some (.xprev false 0 10 9 15) ∧
    decodeTableWord 32 0x4D30B00C = some (.sts false 1 4 11 0 12) ∧
    decodeTableWord 32 0x09000000 = some (.bar false 0) ∧
    decodeTableWord 32 0xCC10D007 = some (.lds true 0 4 13 0 7) ∧
    decodeTableWord 32 0x2300E34C = some (.mulVector false 14 13 12) ∧
    decodeTableWord 32 0x2B096380 = some (.movvs false 22 14) ∧
    decodeTableWord 32 0x4F317415 = some (.stu false 0 1 4 23 16 21) ∧
    decodeTableWord 32 0x000C0000 = some (.exit false) := by decide
theorem test_decode_listing_4 :
    decodeTableWord 32 0x4E1C8100 = some (.ldu false 0 0 7 8 4 0) ∧
    decodeTableWord 32 0x0E110000 = some (.sysvWgid false 16) ∧
    decodeTableWord 32 0x1B03E000 = some (.movScalar false 62 0) ∧
    decodeTableWord 32 0x3C002085 = some (.retag false 2 2 5) ∧
    decodeTableWord 32 0x1524040E = some (.cmpScalar false 0 9 0 16 14) ∧
    decodeTableWord 32 0x0400000D = some (.brq false 0 0 13) ∧
    decodeTableWord 32 0x12450007 = some (.shliScalar false 17 16 7) ∧
    decodeTableWord 32 0x35005102 = some (.dot2 false 5 4 2) ∧
    decodeTableWord 32 0x00140000 = some (.beat false) ∧
    decodeTableWord 32 0x16008000 = some (.cmpiScalar false 0 8 0 0) ∧
    decodeTableWord 32 0x5B040000 = some (.rdrain false 1 0) ∧
    decodeTableWord 32 0x57106104 = some (.strel false 0 4 6 4 4) ∧
    decodeTableWord 32 0xD6106104 = some (.lda true 0 4 6 4 4) ∧
    decodeTableWord 32 0x69019300 = some (.colli false 25 12) ∧
    decodeTableWord 32 0x61080000 = some (.twait false 0) ∧
    decodeTableWord 32 0x68200640 = some (.coll false 1 0 25 0) := by decide
theorem test_decode_listing_5 :
    decodeTableWord 32 0x0C0028E4 = some (.wrc false 2 2276) ∧
    decodeTableWord 32 0x03000015 = some (.call false 21) ∧
    decodeTableWord 32 0x100860C7 = some (.andScalar false 6 3 7) ∧
    decodeTableWord 32 0x141460C8 = some (.bfxnScalar false 6 3 8) ∧
    decodeTableWord 32 0x06080040 = some (.ret false 1) := by decide
theorem test_decode_tables :
    decodeTableWord 32 0x3208A411 = some (.fcmp false 0 2 0 1 2 16 17) ∧
    decodeTableWord 32 0x33110440 = some (.frcp false 16 17) ∧
    decodeTableWord 32 0x58500000 = some (.fence false 2 4) ∧
    decodeTableWord 32 0x0A000155 = some (.trap false 0x155) ∧
    decodeTableWord 32 0x80100000 = some (.eret true) ∧
    decodeTableWord 32 0x080C4009 = some (.regang false 3 4 9) ∧
    decodeTableWord 32 0x0D000029 = some (.setquotaGive false 41) ∧
    decodeTableWord 32 0x230C3105 = some (.madVector false 3 4 5) ∧
    decodeTableWord 32 0x39043205 = some (.qnt false 1 3 8 5) ∧
    decodeTableWord 32 0x54083109 = some (.cas false 1 0 3 4 1 1) ∧
    decodeTableWord 32 0x55190104 = some (.fatom false 0 1 2 16 4 0 4) ∧
    decodeTableWord 32 0x606C3BC2 = some (.tdef false 1 11 3 47 2) ∧
    decodeTableWord 32 0x623417C6 = some (.cpy false 1 5 1 31 6) ∧
    decodeTableWord 32 0x651C5400 = some (.accscl false 5 16) ∧
    decodeTableWord 32 0x73084AED = some (.hwrite false 2 4 43 45) ∧
    decodeTableWord 32 0x75040B40 = some (.tlbinv false 45) ∧
    decodeTableWord 32 0x76004180 = some (.pmread false 4 6) ∧
    decodeTableWord 32 0x77000105 = some (.tracem false 4 5) ∧
    decodeTableWord 32 0x78000240 = some (.rpchk false 9) ∧
    decodeTableWord 32 0x5A080105 = some (.cmaint false 1 0 4 5) := by decide

/-! ### Ill-formed terms that the checks refuse -/

theorem test_illformed_events :
    [Instr.quotaTransferComplete 20480, .translationWalk 160 0 0 .read, .frespAnswer 16 0 false, .engineEntryStart 0 8, .launch 1024, .linkDown 24
     , .peerLost 512, .stepChangeDone 40].all (fun i => !i.wellFormed) = true := by decide
theorem test_illformed_mode :
    -- RND 5, a guard with no index enable, a bit of an unselected field
    [Instr.mode false 2 0xA0, .mode false 1 1, .mode false 0 0x400, .mode false 0 1, .mode false 0 0x20, .mode false 0 0x100, .mode false 0 0x200].all
      (fun i => !i.wellFormed) = true := by decide
theorem test_illformed_control : [Instr.join false 1 0xFFF, .regang false 1 2 0xFFF].all (fun i => !i.wellFormed) = true := by decide
theorem test_illformed_compare :
    [Instr.cmpScalar false 0 10 0 1 2, .cmpVector false 0 10 0 1 0 1 2, .cmpVector false 0 0 1 0 0 1 2, .cmpiScalar false 0 1 15 0, .cmpiVector false 0 0 0 1 10 0
     , .cmpiVector false 1 0 0 1 0 0, .fcmp false 0 8 0 0 0 1 2, .fcmp false 0 0 1 0 0 1 2].all (fun i => !i.wellFormed) = true := by decide
theorem test_illformed_tags :
    [Instr.movlVector false 1 0 5, .movlVector false 1 13 5, .movsv false 1 2 15, .cvt false 0 3 1 2, .retag false 1 2 0, .retag false 1 2 15, .dqnt false 0 4 4 1 2
     , .dqnt false 0 5 2 1 2, .dqnt false 0 7 8 1 2, .qnt false 0 1 4 2, .tdef false 0 10 1 2 3, .tdef false 1 4 1 2 3, .tdef false 2 3 1 2 3, .tdef false 3 2 1 2 3
     , .ldgx false 0 4 2 4 13].all (fun i => !i.wellFormed) = true := by decide
theorem test_illformed_memory :
    [Instr.ldg false 0 0 7 2 4 1, .stg false 0 0 1 2 4 1, .stgx false 0 3 2 4, .sts false 0 1 2 0 1, .ldp false 5 2 0 1, .stp false 0 2 0 1, .ldu false 0 0 7 6 4 0
     , .stu false 0 0 7 6 4 0].all (fun i => !i.wellFormed) = true := by decide
theorem test_illformed_atomics :
    [Instr.atom false 0 0 12 1 4 0 0, .atom false 0 0 0 1 4 0 6, .atoms false 0 0 0 1 4 0 2, .cas false 1 0 3 4 0 2, .cas false 0 1 2 4 0 0, .fatom false 0 0 3 1 4 0 0
     , .lda false 0 6 1 4 0, .strel false 0 1 2 4 0, .fence false 3 0, .fence false 0 6].all (fun i => !i.wellFormed) = true := by decide
theorem test_illformed_unused :
    [Instr.xbc false 1 1 2 3, .voteBallot false 0 1 8, .voteBallot false 0 62 0, .rdrain false 1 2, .mfence false 1 2, .coll false 0 0 1 2, .cpyg false 0 1 0 0 0 1].all
      (fun i => !i.wellFormed) = true := by decide
/-! ### A tenant: partition 0 with contexts 16 and 17 -/

/-- An entry's bytes from its fields: place, width, value. -/
def fieldsOf (fs : List (Nat × Nat × Nat)) : Store Byte :=
  fs.foldl (fun m x => (List.range x.2.1).foldl (fun m i => Store.set 0 m (x.1 + i) (BitVec.ofNat 8 (x.2.2 / 256 ^ i))) m) []

/-- The fields of partition 0's entry (R456). -/
def entryFields : List (Nat × Nat × Nat) :=
  [(1, 1, 0), (2, 1, 1), (3, 1, 1), (8, 8, 3), (16, 4, 0xff), (20, 2, 64), (22, 2, 7), (24, 2, 0), (26, 2, 4), (28, 4, 64), (32, 4, 64), (36, 4, 16)
   , (40, 2, 4), (48, 8, 0x40000), (56, 1, 10), (57, 1, 12), (64, 8, 0x50000), (58, 1, 10), (72, 8, 0x60000), (59, 1, 10), (80, 8, 0x70000)
   , (60, 1, 2), (88, 8, 0x80000), (96, 8, 0x100000003), (104, 8, 0x90000), (192, 8, 0xff)]

/-- Partition 0 holds frames from 1 GB on, and its two contexts map one page of 8 KB at 0x200000 onto them. -/
def tenant : State :=
  let b := 2 ^ 30
  let s := { home with parts := [(0, { state := .active, entry := fieldsOf entryFields })], frames := (List.range 9).map fun i => (2 ^ 17 + i, 1) }
  let s := put (put (put s b 8 (b + 0x2001)) (b + 0x2000) 8 (b + 0x4001)) (b + 0x4000) 8 (b + 0x6001)
  let s := put s (b + 0x6000 + 8 * 256) 8 (b + 0x10000 + 0xDF)
  let s := s.modCtx 16 fun k => { k with live := true, ptroot := b, asid := 5 }
  s.modCtx 17 fun k => { k with live := true, ptroot := b, asid := 5 }

/-! ### Event claims: a state that meets each one's hypotheses -/

/-- Memory is plain where no key has changed and what is listed is canonical. -/
theorem plain_of (s : State) (hk : s.keyGen = []) (hl : s.lineGen = []) (h : (Memory.wf s && Store.wf ({} : Queue) s.queues) = true) : plainMemory s := by
  rw [Bool.and_eq_true] at h
  refine ⟨h.1, fun pa => ?_, h.2⟩
  simp [State.keyNow, State.keyThen, hk, hl, Store.get]

/-- The desk, with warp 0 and warp 1 changed. -/
def deskWith (f : Warp → Warp) : State := ((desk 1 15 false false).modWarp 0 f).modWarp 1 fun x => { x with allot := 40 }

/-- The second split waits in a JOIN or a REGANG. -/
def waiter (st : SplitState) : State :=
  deskWith fun x => { x with splits := Store.set {} x.splits 1 { x.split 1 with state := st, joinid := 1, gangSet := 1 } }

theorem test_claims_warp :
    (∃ p, warpClaims (.quotaTransferComplete 0) (deskWith fun x => { x with giveK := 8, giveTo := 1 }) = some p ∧ p.ok)
    ∧ (∃ p, warpClaims (.longLatencyWrite 0 9 1) (deskWith fun x => { x with pending := [{ id := 9, scalar := false, regs := [3, 60], threads := 2 }] }) = some p ∧ p.ok)
    ∧ (∃ p, warpClaims (.seedWrite 0 7) (desk 1 7 false false) = some p ∧ p.ok)
    ∧ (∃ p, warpClaims (.joinTimeoutExpiry 0 1) (waiter .joinWait) = some p ∧ p.ok)
    ∧ (∃ p, warpClaims (.regangTimeoutExpiry 0 1) (waiter .gangWait) = some p ∧ p.ok)
    ∧ (∃ p, warpClaims (.dbgctlWrite 16 0xF) tenant = some p ∧ p.ok)
    ∧ (∃ p, warpClaims (.controlRegisterWrite 0 0xC20 7) tenant = some p ∧ p.ok) := by
  refine ⟨⟨_, rfl, ?_⟩, ⟨_, rfl, ?_⟩, ⟨_, rfl, ?_⟩, ⟨_, rfl, ?_⟩, ⟨_, rfl, ?_⟩, ⟨_, rfl, ?_⟩, ⟨_, rfl, ?_⟩⟩ <;> (try dsimp only) <;> decide

/-- Nothing waits on a state with no warps, workgroups, queues or keys. -/
theorem unawaited_of_nothing (s : State) (p i : Nat) (hw : s.warps = []) (hg : s.wgs = []) (hq : s.queues = []) (hk : s.keysOut = []) :
    unawaited s p i := by
  have h : ∀ w, s.warp w = {} := fun w => by simp [State.warp, hw, Store.get]
  refine ⟨fun w e he => ?_, by simp [hw], fun w p' i' va b hp => ?_, by simp [hg], by simp [hq], by simp [hk]⟩
  · rw [h] at he; cases he
  · rw [h] at hp; cases hp

/-- The tenant with one page fault of context 16 on the page at 0x200000. -/
def faulting : State := tenant.modPart 0 fun p => { p with faults := [(1, 5, 256, 16, 0, 0)] }
/-- Its page is evicted. -/
def evicted : State := put faulting (2 ^ 30 + 0x6000 + 8 * 256) 8 2

theorem test_claims_service_faults :
    (∃ p, serviceClaims (.translationWalk 0 16 0x200000 .read) tenant = some p ∧ p.ok)
    ∧ (∃ p, serviceClaims (.frespAnswer 0 1 false) faulting = some p ∧ p.ok)
    ∧ (∃ p, serviceClaims (.evictedPageRestore 0 1 (2 ^ 17 + 20) []) evicted = some p ∧ p.ok) := by
  refine ⟨⟨_, rfl, ?_⟩, ⟨_, rfl, ?_⟩, ⟨_, rfl, ?_⟩⟩
  · exact trivial
  · exact ⟨plain_of _ rfl rfl (by decide +kernel), ⟨_, List.mem_singleton.mpr rfl, rfl⟩, unawaited_of_nothing _ _ _ rfl rfl rfl rfl⟩
  · refine ⟨plain_of _ rfl rfl (by decide +kernel), unawaited_of_nothing _ _ _ rfl rfl rfl rfl, ?_⟩; dsimp only; decide

theorem test_claims_service :
    (∃ p, serviceClaims (.zeroingComplete (.frame 3)) { tenant with zeroing := [.frame 3] } = some p ∧ p.ok)
    ∧ (∃ p, serviceClaims (.frespKick 0) tenant = some p ∧ p.ok)
    ∧ (∃ p, serviceClaims (.shootdownRequest 0 (some 5) (some 0x200000)) tenant = some p ∧ p.ok)
    ∧ (∃ p, serviceClaims (.uncorrectableError (.vreg 0 3 1 0)) tenant = some p ∧ p.ok)
    ∧ (∃ p, serviceClaims (.uncorrectableError (.sreg 0 63)) tenant = some p ∧ p.ok)
    ∧ (∃ p, serviceClaims (.uncorrectableError (.memory 64)) tenant = some p ∧ p.ok)
    ∧ (∃ p, serviceClaims (.uncorrectableError (.state 0)) tenant = some p ∧ p.ok)
    ∧ (∃ p, serviceClaims (.parityError (.lastPage 0 255)) tenant = some p ∧ p.ok)
    ∧ (∃ p, serviceClaims (.parityError (.coreTlb 159 256)) tenant = some p ∧ p.ok)
    ∧ (∃ p, serviceClaims (.parityError (.clusterTlb 39 256)) tenant = some p ∧ p.ok)
    ∧ (∃ p, serviceClaims (.wcAgeDrain 0 2) (tenant.modCore 0 fun c =>
        { c with wc := [{ id := 2, ctx := 16, peer := 3, line := 5, mask := 7, bytes := [(0, 1), (1, 2), (2, 3)] }] }) = some p ∧ p.ok)
    ∧ (∃ p, serviceClaims (.l1DirtyAgeWriteback 0 5) tenant = some p ∧ p.ok)
    ∧ (∃ p, serviceClaims (.systemMemoryAnswer 3 .ack)
        { tenant with sysReqs := [{ id := 3, link := .lane 0 1 1, ctx := 16, addr := 4, isStore := true, posted := true, bytes := [], len := 4 }] } = some p ∧ p.ok)
    ∧ (∃ p, serviceClaims (.hocpWrite 0x300000 7) tenant = some p ∧ p.ok)
    ∧ (∃ p, serviceClaims (.hocpBlockTransfer 0x300000 64 none) tenant = some p ∧ p.ok)
    ∧ (∃ p, serviceClaims (.hocpBlockTransfer 0x300000 2 (some [1, 2])) tenant = some p ∧ p.ok) := by
  refine ⟨⟨_, rfl, ?_⟩, ⟨_, rfl, ?_⟩, ⟨_, rfl, ?_⟩, ⟨_, rfl, ?_⟩, ⟨_, rfl, ?_⟩, ⟨_, rfl, ?_⟩, ⟨_, rfl, ?_⟩, ⟨_, rfl, ?_⟩, ⟨_, rfl, ?_⟩, ⟨_, rfl, ?_⟩
    , ⟨_, rfl, ?_⟩, ⟨_, rfl, ?_⟩, ⟨_, rfl, ?_⟩, ⟨_, rfl, ?_⟩, ⟨_, rfl, ?_⟩, ⟨_, rfl, ?_⟩⟩
  case refine_12 => exact ⟨plain_of _ rfl rfl (by decide +kernel), by decide⟩
  case refine_14 => exact ⟨plain_of _ rfl rfl (by decide +kernel), by decide⟩
  case refine_16 => exact ⟨(plain_of _ rfl rfl (by decide +kernel)).2.1, by decide⟩
  all_goals ((try dsimp only) <;> decide)

/-- Context 16 alone, with one leaf of 8 GB. -/
def wide : State :=
  put (put ((({ tenant with hbm := [] } : State).modCtx 17 fun k => { k with live := false })) (2 ^ 30) 8 (2 ^ 30 + 0x2001)) (2 ^ 30 + 0x2000) 8 (2 ^ 33 + 0xDF)

theorem test_claims_page_ages : ∃ p, serviceClaims .pageAgeScan wide = some p ∧ p.ok := by
  exact ⟨_, rfl, plain_of _ rfl rfl (by decide +kernel), by decide +kernel⟩

/-- The desk's workgroup with an entry at the head of engine queue 0, or MMAs in the core's queue. -/
def working (e : EngineEntry) (ms : List Mma) : State :=
  let s := desk 1 7 false false
  ({ s with wgs := [(1, { s.wg 1 with queues := [(0, [e])] })] } : State).modCore 0 fun c => { c with mmas := ms }

theorem test_claims_engine :
    (∃ p, engineClaims (.engineEntryStart 1 0) (working { id := 4, work := .cpy 1 0 0 0 false } []) = some p ∧ p.ok)
    ∧ (∃ p, engineClaims (.engineEntryStart 1 0) (working { id := 9, work := .marker 9 1 } []) = some p ∧ p.ok)
    ∧ (∃ p, engineClaims (.copyComplete 1 0) (working { id := 4, work := .cpy 1 0 0 0 true, started := true } []) = some p ∧ p.ok)
    ∧ (∃ p, engineClaims (.mmaStart 0 6) (working { id := 4, work := .marker 9 1 } [{ id := 6, wg := 1, dst := 2, a := 4, b := 6, zero := true }]) = some p ∧ p.ok)
    ∧ (∃ p, engineClaims (.mmaComplete 0 6)
        { working { id := 4, work := .marker 9 1 } [{ id := 6, wg := 1, dst := 2, a := 4, b := 6, zero := true, running := true }] with
          time := 200 } = some p ∧ p.ok) := by
  refine ⟨⟨_, rfl, ?_⟩, ⟨_, rfl, ?_⟩, ⟨_, rfl, ?_⟩, ⟨_, rfl, ?_⟩, ⟨_, rfl, ?_⟩⟩
  · refine ⟨rfl, rfl, rfl, rfl, by decide, fun n h => ?_⟩
    rcases h with h | h <;> cases h <;> decide
  · exact ⟨rfl, rfl, rfl, rfl, by decide⟩
  all_goals ((try dsimp only) <;> decide)

/-- What reaching pages gives. -/
def reached (c : Option Nat) (s : State) (k : Access) (xs : List Nat) : List PageAt × State :=
  match s.reach c 0 k xs [] with
  | .ok ps u => (ps, u)
  | _ => ([], s)

theorem reached_eq (c : Option Nat) (s : State) (k : Access) (xs : List Nat)
    (h : (match s.reach c 0 k xs [] with | .ok _ _ => true | _ => false) = true) :
    s.reach c 0 k xs [] = .ok (reached c s k xs).1 (reached c s k xs).2 := by
  unfold reached
  revert h
  split <;> simp_all

/-- A copy from memory into tile 1 of the desk. -/
def fetching : State := working { id := 4, work := .cpyg 1 false false false 0x20000 32 0, started := true } []
def fetchSpans : List Nat := pageStarts (((fetching.tile 1 1).pieces false (0x20000 : DWord).toNat 32 0).map Piece.at')
theorem test_claims_fetch : ∃ p, engineClaims (.copyComplete 1 0) fetching = some p ∧ p.ok := by
  have h : fetching.reach (some (fetching.wg 1).core) (fetching.wgCtx 1) .read
      (pageStarts (((fetching.tile 1 1).pieces false (0x20000 : DWord).toNat 32 0).map Piece.at')) []
      = .ok (reached (some 0) fetching .read fetchSpans).1 (reached (some 0) fetching .read fetchSpans).2 :=
    reached_eq (some 0) fetching .read fetchSpans (by decide +kernel)
  have e : (fetching.engine 1 0).head? = some { id := 4, work := .cpyg 1 false false false 0x20000 32 0, started := true } := rfl
  simp only [engineClaims, e, Option.bind_some, Bool.false_eq_true, if_false, h, Option.some.injEq, exists_eq_left']
  refine ⟨trivial, trivial, trivial, rfl, by decide +kernel, plain_of _ (by decide +kernel) (by decide +kernel) (by decide +kernel), ?_, ?_⟩ <;>
    decide +kernel

/-- Queue 1 of context 0 in a state, its ring at 0x200000 and its QCB at 0xA0040. -/
def queued (k : Queue) : State := { home with queues := [(1, { k with qcb := 0xA0040, ringbase := 0x200000, ringlog := 4 })] }
/-- A QCB for BIND. -/
def binding : State := { put (put (put home 0xA0040 8 0x200000) 0xA005E 1 4) 0xA0063 1 1 with qpriv0 := 0x100000, qpriv1 := 0, qbase := 0xA0040 }

theorem test_claims_queue :
    (∃ p, queueClaims (.bind 1) binding = some p ∧ p.ok)
    ∧ (∃ p, queueClaims (.unbind 1) (queued { state := .idle }) = some p ∧ p.ok)
    ∧ (∃ p, queueClaims (.queueStop 1) (queued { state := .waiting }) = some p ∧ p.ok)
    ∧ (∃ p, queueClaims (.queueStart 1) (queued { state := .stopped }) = some p ∧ p.ok)
    ∧ (∃ p, queueClaims (.skipOp 1) (queued { state := .stopped, tail := 1 }) = some p ∧ p.ok)
    ∧ (∃ p, queueClaims (.queueReset 1) (queued { state := .stopped }) = some p ∧ p.ok)
    ∧ (∃ p, queueClaims (.wakeWrite 1 16) (queued { state := .idle }) = some p ∧ p.ok)
    ∧ (∃ p, queueClaims (.qcbAudit 1) (queued { state := .active }) = some p ∧ p.ok)
    ∧ (∃ p, queueClaims (.queueHang 1) { queued { state := .active, ctx := 16 } with tick := 2000000000, parts := [(0, { state := .active })] } = some p ∧ p.ok) := by
  refine ⟨⟨_, rfl, ?_⟩, ⟨_, rfl, ?_⟩, ⟨_, rfl, ?_⟩, ⟨_, rfl, ?_⟩, ⟨_, rfl, ?_⟩, ⟨_, rfl, ?_⟩, ⟨_, rfl, ?_⟩, ⟨_, rfl, ?_⟩, ⟨_, rfl, ?_⟩⟩
    <;> refine ⟨plain_of _ rfl rfl (by decide +kernel), ?_⟩ <;> (try dsimp only) <;> decide

/-! ### Packets -/

/-- A packet of 64 bytes from its fields, at slot 0 of queue 1's ring. -/
def packeted (fs : List (Nat × Nat × Nat)) : State :=
  fs.foldl (fun s x => put s (0x200000 + x.1) x.2.1 x.2.2) (queued { state := .active, busy := true, tail := 1 })

/-- What a queue's read gives: the bytes, and the machine after it. -/
def readOf (s : State) (i : Instr) (va len : Nat) : List Byte × State :=
  match s.scarabRead 1 i [{ va := va, len := len }] with
  | .ok [bs] _ r => (bs, r)
  | _ => ([], s)

/-- What the read of the packet at HEAD gives. -/
def packetOf (s : State) (i : Instr) : List Byte × State :=
  match s.readPacket 1 i with
  | .ok [bs] _ r => (bs, r)
  | _ => ([], s)

/-- A packet's claim has a state that meets its hypotheses. -/
def PacketMet (i : Instr) (s : State) : Prop :=
  ∃ bs r p, packetClaims i s bs r = some p ∧ p.ok

def signalPacket : State := packeted [(0, 1, 3), (1, 1, 1), (8, 8, 0x300000), (16, 8, 0x1122334455667788)]
def xcopyPacket : State := packeted [(0, 1, 2), (8, 8, 0x300000), (16, 8, 0x300100), (24, 8, 32), (32, 8, 0x300200), (40, 8, 1)]
def waitordPacket : State := packeted [(0, 1, 7), (8, 2, 1), (16, 8, 1)]
def fencePacketState : State := packeted [(0, 1, 5), (8, 8, 9)]
def contractPacket : State := packeted [(0, 1, 6), (8, 8, 0x300000)]

theorem test_claims_signal : PacketMet (.signal 1) signalPacket :=
  ⟨(packetOf signalPacket (.signal 1)).1, (packetOf signalPacket (.signal 1)).2, _, rfl
    , ⟨rfl, rfl, rfl, rfl, rfl, _, rfl⟩, by decide, by decide, by decide, by decide⟩
theorem test_claims_xcopy : PacketMet (.xcopy 1) xcopyPacket :=
  ⟨(packetOf xcopyPacket (.xcopy 1)).1, (packetOf xcopyPacket (.xcopy 1)).2, _, rfl
    , ⟨rfl, rfl, rfl, rfl, rfl, _, rfl⟩, by decide, by decide, by decide, by decide, by decide, by decide, by decide⟩
theorem test_claims_waitord : PacketMet (.waitord 1) waitordPacket :=
  ⟨(packetOf waitordPacket (.waitord 1)).1, (packetOf waitordPacket (.waitord 1)).2, _, rfl
    , ⟨rfl, rfl, rfl, rfl, rfl, _, rfl⟩, by decide, by decide, by decide, by decide, by decide, by decide⟩
theorem test_claims_fence : PacketMet (.fencePacket 1) fencePacketState :=
  ⟨(packetOf fencePacketState (.fencePacket 1)).1, (packetOf fencePacketState (.fencePacket 1)).2, _, rfl
    , ⟨rfl, rfl, rfl, rfl, rfl, _, rfl⟩, by decide, by decide, by decide⟩
theorem test_claims_fence_complete : PacketMet (.fencePacketComplete 1) fencePacketState :=
  ⟨(packetOf fencePacketState (.fencePacketComplete 1)).1, (packetOf fencePacketState (.fencePacketComplete 1)).2, _, rfl
    , ⟨rfl, rfl, rfl, rfl, rfl, _, rfl⟩, by decide, by decide, by decide, by decide, by decide⟩
theorem test_claims_contract : PacketMet (.contract 1) contractPacket :=
  ⟨(packetOf contractPacket (.contract 1)).1, (packetOf contractPacket (.contract 1)).2, _, rfl
    , ⟨rfl, rfl, rfl, rfl, rfl, _, rfl⟩, by decide, by decide, by decide, by decide⟩

/-- What a collective's read gives. -/
def gathered (s : State) (e : EngineEntry) (va len : Nat) : List Byte × State :=
  match s.collGather 1 0 e [{ va := va, len := len }] with
  | .inl (some [bs], u) => (bs, u)
  | _ => ([], s)
def condPacket : State := packeted [(0, 1, 4), (8, 8, 0x300000), (25, 1, 1)]

/-- The reading of a COND's packet and of its word. -/
def condRead (i : Instr) : (List Byte × State) × List Byte × State :=
  let r := packetOf condPacket i
  (r, readOf (r.2.modQueue 1 fun k => { k with nowd := false }) i 0x300000 4)

theorem test_claims_cond : ∃ bs r x u p, condClaims (.cond 1) condPacket bs r x u = some p ∧ p.ok := by
  refine ⟨(condRead (.cond 1)).1.1, (condRead (.cond 1)).1.2, (condRead (.cond 1)).2.1, (condRead (.cond 1)).2.2, _, rfl
    , ⟨rfl, rfl, rfl, rfl, rfl, _, rfl⟩, ?_, ?_, ?_, ?_, ?_, ?_, ?_, ?_, ?_, ⟨_, rfl⟩, rfl, rfl⟩ <;> decide
theorem test_claims_cond_reread : ∃ bs r x u p, condClaims (.condReread 1) condPacket bs r x u = some p ∧ p.ok := by
  refine ⟨(condRead (.condReread 1)).1.1, (condRead (.condReread 1)).1.2, (condRead (.condReread 1)).2.1, (condRead (.condReread 1)).2.2, _, rfl
    , ⟨rfl, rfl, rfl, rfl, rfl, _, rfl⟩, ?_, ?_, ?_, ?_, ?_, ?_, ?_, ?_, ?_, ⟨_, rfl⟩, rfl, rfl⟩ <;> decide

/-- A LAUNCH of one workgroup of one warp: 32 threads, 16 vector and 16 scalar registers. -/
def launchPacket : State :=
  [(0, 8, 0x400000), (32, 4, 1), (36, 4, 1), (40, 4, 1), (44, 1, 1), (64, 4, 0x10), (68, 1, 1), (69, 1, 16), (70, 1, 16), (72, 2, 32)].foldl
    (fun (s : State) (x : Nat × Nat × Nat) => put s (0x300000 + x.1) x.2.1 x.2.2) (packeted [(0, 1, 1), (8, 8, 0x300000)])

/-- What a read of spans gives: the bytes of each, and the machine after it. -/
def readsOf (s : State) (xs : List Span) : List (List Byte) × State :=
  match s.scarabRead 1 (.launch 1) xs with
  | .ok ds _ r => (ds, r)
  | _ => ([], s)
theorem readsOf_eq (s : State) (xs : List Span) (h : (match s.scarabRead 1 (.launch 1) xs with | .ok .. => true | _ => false) = true) :
    ∃ ps, s.scarabRead 1 (.launch 1) xs = .ok (readsOf s xs).1 ps (readsOf s xs).2 := by
  unfold readsOf
  revert h
  split <;> simp_all

def launchBytes : List Byte × State := packetOf launchPacket (.launch 1)
def launchDesc : List (List Byte) × State := readsOf launchBytes.2 [{ va := bytesField launchBytes.1 8 8, len := 256 }]
def launchTables : List (List Byte) × State := readsOf launchDesc.2 []
theorem test_launch_desc : launchDesc.1 = [launchDesc.1.headD []] := by decide +kernel
theorem test_launch_spans :
    bytesField (launchDesc.1.headD []) 45 1 = 0 ∧ bytesField (launchDesc.1.headD []) 56 8 = 0 := by decide +kernel

theorem test_claims_launch : ∃ bs r d u ts v, (launchClaim 1 launchPacket bs r d u ts v).ok := by
  refine ⟨launchBytes.1, launchBytes.2, launchDesc.1.headD [], launchDesc.2, launchTables.1, launchTables.2
    , ⟨rfl, rfl, rfl, rfl, rfl, _, rfl⟩, ?_, ?_, ?_, ?_, ?_, ?_, ?_, ?_, ?_, ?_, ?_⟩
  case refine_5 =>
    have h := readsOf_eq launchBytes.2 [{ va := bytesField launchBytes.1 8 8, len := 256 }] (by decide +kernel)
    obtain ⟨ps, h⟩ := h
    exact ⟨ps, h.trans (congrArg (fun x => Scarab.ok x ps launchDesc.2) test_launch_desc)⟩
  case refine_6 =>
    have h := readsOf_eq launchDesc.2 [] (by decide +kernel)
    simp only [test_launch_spans.1, test_launch_spans.2]
    exact h
  all_goals decide +kernel

/-- A copy of 32 bytes that is under way. -/
def copying : State := queued { state := .active, busy := true, inflight := [3], copies := [{ run := 3, idx := 3, src := 0x300000, dst := 0x300100, len := 32 }] }

theorem test_claims_copy : ∃ c ps u pd v, (copyClaim 1 3 copying c ps u pd v).ok := by
  refine ⟨{ run := 3, idx := 3, src := 0x300000, dst := 0x300100, len := 32 }, (reached none copying .read [0x300000]).1, (reached none copying .read [0x300000]).2
    , (reached none (reached none copying .read [0x300000]).2 .write [0x300100]).1, (reached none (reached none copying .read [0x300000]).2 .write [0x300100]).2
    , rfl, rfl, rfl, rfl, ⟨rfl, rfl, by decide, by decide, by decide, by decide, by decide⟩⟩

/-- A collective of one member, and its one element, which is 1.0. -/
def joiner : EngineEntry := { id := 4, work := .coll 0 0 none, started := true, asked := true, own := [0x3F800000] }
def collState : State :=
  [(0, 4, 0), (4, 4, 1), (8, 8, 0x300400), (24, 4, 1), (32, 8, 0x300100), (40, 8, 0x300200)].foldl
    (fun (s : State) (x : Nat × Nat × Nat) => put s (0x20000 + x.1) x.2.1 x.2.2) (working joiner [])

def collRead : List Byte × State := gathered collState joiner 0x20000 64
def collPeers : List Byte × State := gathered collRead.2 joiner 0x300100 2
def collPages : List PageAt × State := reached (some 0) collPeers.2 .write [0x300400]
def collDone : List (Nat × List Byte) × State :=
  let d := CollDesc.ofBytes collRead.1
  collPages.2.writeColl 1 0 none (collResult d [[0x3F800000]]) collPages.1 (d.runs none (collResult d [[0x3F800000]]) [])
def collSignal : List PageAt × State := reached (some 0) collDone.2 .atomic [0x300200]

theorem gathered_eq (s : State) (e : EngineEntry) (va len : Nat)
    (h : (match s.collGather 1 0 e [{ va := va, len := len }] with | .inl (some [_], _) => true | _ => false) = true) :
    s.collGather 1 0 e [{ va := va, len := len }] = .inl (some [(gathered s e va len).1], (gathered s e va len).2) := by
  unfold gathered
  revert h
  split <;> simp_all
theorem test_claims_collective : ∃ bs u ms v ds pages w sig z p, collectiveClaim 1 0 collState bs u ms v ds pages w sig z = some p ∧ p.ok :=
  ⟨collRead.1, collRead.2, collPeers.1, collPeers.2, [[0x3F800000]], collPages.1, collPages.2, collSignal.1, collSignal.2, _, rfl
    , rfl, rfl, rfl, rfl, rfl, rfl, rfl, gathered_eq _ _ _ _ (by decide +kernel), by decide +kernel, gathered_eq _ _ _ _ (by decide +kernel)
    , by decide +kernel, by decide +kernel, by decide +kernel, reached_eq _ _ _ _ (by decide +kernel), by decide +kernel, by decide +kernel
    , by decide +kernel, reached_eq _ _ _ _ (by decide +kernel)
    , plain_of _ (by decide +kernel) (by decide +kernel) (by decide +kernel), by decide +kernel⟩

/-! ### Launches, contexts, resets, loops and power -/

/-- The desk with its launch and its workgroup changed. -/
def launched (f : Launch → Launch) (g : Workgroup → Workgroup) : State :=
  let s := desk 1 7 false false
  { s with launches := [(2, f (s.launch 2))], wgs := [(1, g (s.wg 1))] }
/-- Its warps have no live thread. -/
def finished : State := { desk 1 7 false false with warps := [(0, { resident := true, wg := 1 }), (1, { resident := true, wg := 1, num := 1 })] }

theorem test_claims_place :
    (∃ p, placeClaims (.workgroupRelease 1) (launched id fun g => { g with resident := false }) = some p ∧ p.ok)
    ∧ (∃ p, placeClaims (.workgroupRetire 1) finished = some p ∧ p.ok)
    ∧ (∃ p, placeClaims (.stagingComplete 0 16) (tenant.modCore 0 fun c => { c with shadow := 17 }) = some p ∧ p.ok)
    ∧ (∃ p, placeClaims (.shadowExchange 0) (tenant.modCore 0 fun c => { c with shadow := 17, swapping := true }) = some p ∧ p.ok) := by
  refine ⟨⟨_, rfl, ?_⟩, ⟨_, rfl, ?_⟩, ⟨_, rfl, ?_⟩, ⟨_, rfl, ?_⟩⟩ <;> (try dsimp only) <;> decide +kernel

/-- The placement of a resident grid has a claim when its workgroups have a place. -/
theorem placeClaims_resident (s : State) (l : Nat) (hr : (s.launch l).isResident = true) (hp : (s.placeAll l).isSome = true)
    (ha : (s.launch l).active = true ∧ s.placeYields l = none ∧ s.savedOf l = [] ∧ (s.launch l).next < (s.launch l).total) :
    ∃ p, placeClaims (.workgroupPlace l) s = some p ∧ p.ok := by
  obtain ⟨x, hx⟩ := Option.isSome_iff_exists.mp hp
  simpa [placeClaims, hr, hx] using ha
theorem placeClaims_one (s : State) (l : Nat) (hr : (s.launch l).isResident = false) (hp : (s.placeNext l).isSome = true)
    (ha : (s.launch l).active = true ∧ s.placeYields l = none ∧ s.savedOf l = [] ∧ (s.launch l).next < (s.launch l).total) :
    ∃ p, placeClaims (.workgroupPlace l) s = some p ∧ p.ok := by
  obtain ⟨x, hx⟩ := Option.isSome_iff_exists.mp hp
  simpa [placeClaims, hr, hx] using ha

/-- Some core has room for the next workgroup whatever slice the implementation begins with: then it is placed. -/
theorem placeNext_isSome (s : State) (l : Nat)
    (h : ∀ r, r < 16 → ∃ c ∈ s.coresOf (s.launch l).ctx, (!(s.core c).swapping && (s.fitOn (s.launch l) c r).isSome) = true) :
    (s.placeNext l).isSome = true := by
  have hr : (s.choose 16).1 < 16 := Nat.mod_lt _ (by decide)
  obtain ⟨c, hc, hf⟩ := h _ hr
  unfold State.placeNext
  dsimp only
  have hm : c ∈ ((s.choose 16).2.coresOf (s.launch l).ctx).filter fun c =>
      !((s.choose 16).2.core c).swapping && ((s.choose 16).2.fitOn (s.launch l) c (s.choose 16).1).isSome :=
    List.mem_filter.mpr ⟨hc, hf⟩
  generalize hcs : ((s.choose 16).2.coresOf (s.launch l).ctx).filter (fun c =>
    !((s.choose 16).2.core c).swapping && ((s.choose 16).2.fitOn (s.launch l) c (s.choose 16).1).isSome) = cs at hm ⊢
  have hin : ∀ d ∈ cs, (s.fitOn (s.launch l) d (s.choose 16).1).isSome = true := fun d hd => by
    rw [← hcs] at hd; exact (Bool.and_eq_true _ _ ▸ (List.mem_filter.mp hd).2 : _ ∧ _).2
  cases cs with
  | nil => cases hm
  | cons a as =>
    show (Option.map _ _).isSome = true
    rw [Option.isSome_map]
    refine hin _ ?_
    rw [List.getD_eq_getElem?_getD]
    cases hk : ((s.choose 16).2.lighter (a :: as))[((s.choose 16).2.choose ((s.choose 16).2.lighter (a :: as)).length).1]? with
    | none => exact List.mem_cons_self
    | some d => exact List.mem_of_mem_filter (List.mem_of_getElem? hk)

theorem test_claims_place_grid : ∃ p, placeClaims (.workgroupPlace 2) (launched id id) = some p ∧ p.ok := by
  refine placeClaims_resident _ _ (by decide) ?_ (by decide)
  have h := placeNext_isSome (launched id id) 2 fun r hr => ⟨0, by decide, by revert r; decide +kernel⟩
  obtain ⟨x, hx⟩ := Option.isSome_iff_exists.mp h
  have hw : State.placeWhole (launched id id) 2 ((launched id id).launch 2).total = some ([x.1], x.2) := by
    show (State.placeNext (launched id id) 2).bind _ = _
    rw [hx]; rfl
  simp [State.placeAll, hw]
/-- Workgroups of a warp of 64 registers and two of 24: sixteen of them share an empty core, and no more do (R360, R479). -/
theorem test_plan_sixteen :
    let l : Launch := { roles := [{ entry := 0, warps := 1, vregs := 64, sregs := 16, threads := 96 }, { entry := 0, warps := 2, vregs := 24, sregs := 16, threads := 192 }] }
    (l.holds 16, l.holds 17) = (true, false) := by decide +kernel
theorem test_claims_place_part :
    ∃ p, placeClaims (.workgroupPlace 2) (launched (fun l => { l with isResident := false, gridX := 2, next := 1 }) id) = some p ∧ p.ok :=
  placeClaims_one _ _ (by decide) (placeNext_isSome _ _ fun r hr => ⟨0, by decide, by revert r; decide +kernel⟩) (by decide)

/-- The context record of context 16 (R371). -/
def recorded : State :=
  [(0, 8, 2 ^ 30), (8, 2, 5), (10, 1, 1), (12, 4, 0x99), (16, 4, 1), (20, 4, 7), (24, 4, 5), (28, 4, 3), (40, 8, 0x7000), (56, 8, 0x8000), (72, 8, 0x9000)
   , (80, 4, 5), (88, 8, 0x20000), (96, 8, 0x402000)].foldl (fun (s : State) (x : Nat × Nat × Nat) => put s (0x90000 + x.1) x.2.1 x.2.2)
    (tenant.modCtx 16 fun k => { k with live := false })

theorem test_claims_context :
    (∃ p, contextClaims (.loadOp 16) recorded = some p ∧ p.ok)
    ∧ (∃ p, contextClaims (.saveOp 16) (tenant.modCtx 16 fun k => { k with savebase := 0x20000, savesize := 0x402000 }) = some p ∧ p.ok)
    ∧ (∃ p, contextClaims (.restore 16) { recorded with saves := [(16, { whole := true })] } = some p ∧ p.ok)
    ∧ (∃ p, contextClaims (.discard 16) tenant = some p ∧ p.ok)
    ∧ (∃ p, contextClaims (.discard 16) (tenant.modCtx 16 fun k => { k with live := false, saved := true }) = some p ∧ p.ok) := by
  refine ⟨⟨_, rfl, plain_of _ rfl rfl (by decide +kernel), ?_⟩, ⟨_, rfl, plain_of _ rfl rfl (by decide +kernel), ?_⟩, ⟨_, rfl, ?_⟩
    , ⟨_, rfl, .inr ?_⟩, ⟨_, rfl, .inl ⟨rfl, rfl, plain_of _ rfl rfl (by decide +kernel), ?_⟩⟩⟩ <;> (try dsimp only) <;> decide +kernel

def resetting (r : ResetState) : State := tenant.modPart 0 fun p => { p with reset := r }

theorem test_claims_reset :
    (∃ p, resetClaims (.quiesceDone 0) (resetting .quiesce) = some p ∧ p.ok)
    ∧ (∃ p, resetClaims (.writebackDone 0) (resetting .writeback) = some p ∧ p.ok)
    ∧ (∃ p, resetClaims (.zeroDone 0) (resetting .zero) = some p ∧ p.ok)
    ∧ (∃ p, resetClaims (.replayDone 0) (resetting .replay) = some p ∧ p.ok)
    ∧ (∃ p, resetClaims (.schedulerFault 0) tenant = some p ∧ p.ok)
    ∧ (∃ p, resetClaims (.resetpart 0) tenant = some p ∧ p.ok)
    ∧ (∃ p, resetClaims (.clusterRetentionExit 0) tenant = some p ∧ p.ok) := by
  refine ⟨⟨_, rfl, ?_⟩, ⟨_, rfl, ?_⟩, ⟨_, rfl, ?_⟩, ⟨_, rfl, ?_⟩, ⟨_, rfl, plain_of _ rfl rfl (by decide +kernel), ?_⟩
    , ⟨_, rfl, plain_of _ rfl rfl (by decide +kernel), ?_⟩, ⟨_, rfl, ?_⟩⟩ <;> (try dsimp only) <;> decide

/-- A contract over five actuators, with every floor 1. -/
def deal : Contract :=
  { target := 9, ilog := 10, res := 5, kp := 4096, ki := 16, imax := 10000, dfloor := 5, dceil := 9, floors := [1, 1, 1, 1, 1], ceils := [3, 2, 2, 1, 1], activeBit := true }
/-- A merge of its group's reports. -/
def merged : Txn :=
  { typ := 17, src := 3, dst := 0, plane := 0, seq := 0, addr := 0, ten := 7, ctx := 0, aux := 0, op := 0, len := 20, tidx := 0, resent := false, last := false
    payload := leBytes 8 1024 ++ [0, 0, 10] }
/-- Context 16 under it. -/
def looping (l : Loop) : State := tenant.modCtx 16 fun k => { k with loop := l }

theorem test_claims_loop :
    (∃ p, loopClaims (.beatIntervalEnd 16) (looping { contract := some deal, count := 8 }) = some p ∧ p.ok)
    ∧ (∃ p, loopClaims (.beatIntervalEnd 16) (looping { waiting := some deal }) = some p ∧ p.ok)
    ∧ (∃ p, loopClaims (.equinoxGrant 0) ((looping { contract := some deal, d := 5 }).modCtx 17 fun k => { k with live := false }) = some p ∧ p.ok)
    ∧ (∃ p, loopClaims (.grantRise 16) (looping { contract := some deal, g := 9 }) = some p ∧ p.ok)
    ∧ (∃ p, loopClaims (.grantFall 16) (looping { contract := some deal, g := 5 }) = some p ∧ p.ok)
    ∧ (∃ p, loopClaims (.controllerStep 16) (looping { contract := some deal, lcl := 7 }) = some p ∧ p.ok)
    ∧ (∃ p, loopClaims (.beatmrg merged 2 7) { looping { contract := some deal, lcl := 7, merging := true, reported := 1024 } with
        ports := [(0, { state := .run })] } = some p ∧ p.ok) := by
  refine ⟨⟨_, rfl, ?_⟩, ⟨_, rfl, ?_⟩, ⟨_, rfl, ?_⟩, ⟨_, rfl, ?_⟩, ⟨_, rfl, ?_⟩, ⟨_, rfl, ?_⟩, ⟨_, rfl, ?_⟩⟩ <;> (try dsimp only) <;> decide +kernel
theorem test_waiting_contract : ((looping { waiting := some deal }).ctx 16).live = true ∧ ((looping { waiting := some deal }).ctx 16).loop.waiting = some deal
    ∧ deal.activeBit = true := by decide
/-- Demands at the floors, between, and at the ceilings. -/
theorem test_actuators : deal.positions 5 = [1, 1, 1, 1, 1] ∧ deal.positions 7 = [3, 1, 1, 1, 1] ∧ deal.positions 9 = [3, 2, 2, 1, 1]
    ∧ deal.positions 4000 = [3, 2, 2, 1, 1] := by decide

theorem test_claims_power :
    (∃ p, powerClaims (.powerEstimate [{ t := 900, p4 := 90 }] 5 6) tenant = some p ∧ p.ok)
    ∧ (∃ p, powerClaims (.weightRefit 1 [900, 1000]) tenant = some p ∧ p.ok)
    ∧ (∃ p, powerClaims (.stepChangeRequest 0 5) tenant = some p ∧ p.ok)
    ∧ (∃ p, powerClaims (.stepChangeDone 0) (tenant.modCluster 0 fun c => { c with changing := true, target := 3 }) = some p ∧ p.ok) := by
  refine ⟨⟨_, rfl, ?_⟩, ⟨_, rfl, ?_⟩, ⟨_, rfl, ?_⟩, ⟨_, rfl, ?_⟩⟩ <;> (try dsimp only) <;> decide +kernel

/-! ### Partitions and firmware -/

/-- An entry in the partition table at 0x1000000. -/
def tabled (p : Nat) (fs : List (Nat × Nat × Nat)) : State :=
  fs.foldl (fun (s : State) (x : Nat × Nat × Nat) => put s (0x1000000 + 256 * p + x.1) x.2.1 x.2.2) { tenant with ptbase := 0x1000000, keysHeld := 7, hbm := [] }
/-- The fields of an entry for partition 1. -/
def secondFields : List (Nat × Nat × Nat) :=
  [(1, 1, 0), (2, 1, 1), (3, 1, 2), (8, 8, 0xc), (16, 4, 0xff00), (20, 2, 64), (22, 2, 9), (24, 2, 100), (26, 2, 4), (28, 4, 64), (32, 4, 64)
    , (36, 4, 160), (40, 2, 4), (48, 8, 0x40000), (56, 1, 10), (57, 1, 12), (64, 8, 0x50000), (58, 1, 10), (72, 8, 0x60000), (59, 1, 10)
    , (80, 8, 0x70000), (60, 1, 2), (88, 8, 0x80000), (96, 8, 0x100000003), (104, 8, 0x90000), (192, 8, 0xff)]

theorem test_claims_partition :
    (∃ p, partitionClaims (.create 1) (tabled 1 secondFields) = some p ∧ p.ok)
    ∧ (∃ p, partitionClaims (.update 0) (tabled 0 entryFields) = some p ∧ p.ok)
    ∧ (∃ p, partitionClaims (.destroy 0) tenant = some p ∧ p.ok)
    ∧ (∃ p, partitionClaims (.destroyZeroingDone 0) (tenant.modPart 0 fun p => { p with state := .destroying }) = some p ∧ p.ok)
    ∧ (∃ p, partitionClaims (.generate 31) tenant = some p ∧ p.ok)
    ∧ (∃ p, partitionClaims (.zeroOp 0) tenant = some p ∧ p.ok)
    ∧ (∃ p, partitionClaims .scheduleStart { tenant with tsslots := [(0, 0x30BB8), (1, 0x103E8)] } = some p ∧ p.ok)
    ∧ (∃ p, partitionClaims .scheduleStop tenant = some p ∧ p.ok)
    ∧ (∃ p, partitionClaims .timesliceBoundary { tenant with tsslots := [(0, 0x30BB8), (1, 0x103E8)], tsRunning := true, tsEn := true } = some p ∧ p.ok)
    ∧ (∃ p, partitionClaims (.usageRecordWrite 0) tenant = some p ∧ p.ok) := by
  refine ⟨⟨_, rfl, ?_⟩, ⟨_, rfl, ?_⟩, ⟨_, rfl, ?_⟩, ⟨_, rfl, ?_⟩, ⟨_, rfl, ?_⟩, ⟨_, rfl, ?_⟩, ⟨_, rfl, ?_⟩, ⟨_, rfl, ?_⟩, ⟨_, rfl, ?_⟩, ⟨_, rfl, ?_⟩⟩
    <;> (try dsimp only) <;> decide +kernel

def image : FwImage := { version := 1, svn := 3, header := [1], key := [2], sig := [3], parts := [], digests := [] }
/-- An attestation request at 0x300000 whose report goes to 0x310000. -/
def attesting : State := put { tenant with attreq := 0x300000, hbm := [] } 0x300038 8 0x310000
/-- A context whose dump is on. -/
def dumping : State := (desk 1 7 false true).modCtx 0 fun c => { c with dumping := true, dumpOn := true, dumpbase := 0x200000, dumpsize := 64 }

theorem test_claims_firmware :
    (∃ p, firmwareClaims .moduleReset tenant = some p ∧ p.ok)
    ∧ (∃ p, firmwareClaims (.recoveryImage image) { tenant with recovery := true } = some p ∧ p.ok)
    ∧ (∃ p, firmwareClaims (.firmwareUpdate image) tenant = some p ∧ p.ok)
    ∧ (∃ p, firmwareClaims (.hocpTickLoad 77) { tenant with begun := false } = some p ∧ p.ok)
    ∧ (∃ p, firmwareClaims .attestationRequest attesting = some p ∧ p.ok)
    ∧ (∃ p, firmwareClaims (.attestationRequestHocp 0 []) tenant = some p ∧ p.ok)
    ∧ (∃ p, firmwareClaims (.stoptickArm 4000) tenant = some p ∧ p.ok)
    ∧ (∃ p, firmwareClaims .stoptick { tenant with stopArm := true, stoptick := 9, tick := 9 } = some p ∧ p.ok) := by
  refine ⟨⟨_, rfl, ?_⟩, ⟨_, rfl, ?_⟩, ⟨_, rfl, ?_⟩, ⟨_, rfl, ?_⟩, ⟨_, rfl, plain_of _ rfl rfl (by decide +kernel), ?_⟩, ⟨_, rfl, ?_⟩
    , ⟨_, rfl, ?_⟩, ⟨_, rfl, ?_⟩⟩ <;> (try dsimp only) <;> decide +kernel
theorem test_claims_dump : ∃ p, firmwareClaims (.coreDumpWrite 0) dumping = some p ∧ p.ok := by
  refine ⟨_, rfl, ?_⟩; dsimp only; decide +kernel

/-! ### Ports and the fabric -/

/-- Plane 0's port, and what is known of device 3's path over it. -/
def ported (p : Port) : State := { tenant with ports := [(0, p)], paths := [(3, { timing := true })] }
/-- A word of a link that answers nothing special. -/
def quietWord : LinkWord := { ack := 3, stop := none, go := none, switchTick := none, tagOk := true }

theorem test_claims_port :
    (∃ p, portClaims (.fabidWrite 511) tenant = some p ∧ p.ok)
    ∧ (∃ p, portClaims (.portcfgWrite 0 0x53) tenant = some p ∧ p.ok)
    ∧ (∃ p, portClaims (.lock 0) (ported { en := true }) = some p ∧ p.ok)
    ∧ (∃ p, portClaims (.portStart 0) (ported { en := true, state := .locked, session := true, skew := some 4 }) = some p ∧ p.ok)
    ∧ (∃ p, portClaims (.portStop 0) (ported { state := .run }) = some p ∧ p.ok)
    ∧ (∃ p, portClaims (.keyupdate 0) (ported { state := .run }) = some p ∧ p.ok)
    ∧ (∃ p, portClaims (.linkControlWord 23 quietWord) tenant = some p ∧ p.ok)
    ∧ (∃ p, portClaims (.linkDown 0) { ported { state := .run } with tick := 50000 } = some p ∧ p.ok)
    ∧ (∃ p, portClaims (.spdm 0 .established) (ported { state := .locked, asking := some .finish }) = some p ∧ p.ok)
    ∧ (∃ p, portClaims (.spdm 0 .keyUpdated) (ported { state := .run, keyUpdating := true }) = some p ∧ p.ok)
    ∧ (∃ p, portClaims (.spdm 0 .keyUpdateFailed) (ported { state := .run, keyUpdating := true }) = some p ∧ p.ok)
    ∧ (∃ p, portClaims (.spdm 0 .failed) (ported { state := .locked }) = some p ∧ p.ok)
    ∧ (∃ p, portClaims (.spdm 0 .endSession) (ported { state := .run }) = some p ∧ p.ok)
    ∧ (∃ p, portClaims (.spdm 0 (.algorithms spdmChosen)) (ported { state := .locked, asking := some .negotiateAlgorithms }) = some p ∧ p.ok)
    ∧ (∃ p, portClaims (.spdm 0 .other) (ported {}) = some p ∧ p.ok)
    ∧ (∃ p, portClaims (.pstate 0 8) tenant = some p ∧ p.ok)
    ∧ (∃ p, portClaims (.flitDrop 0) (ported { drops := 0xFFFF }) = some p ∧ p.ok) := by
  refine ⟨⟨_, rfl, ?_⟩, ⟨_, rfl, ?_⟩, ⟨_, rfl, ?_⟩, ⟨_, rfl, ?_⟩, ⟨_, rfl, ?_⟩, ⟨_, rfl, ?_⟩, ⟨_, rfl, ?_⟩, ⟨_, rfl, ?_⟩, ⟨_, rfl, rfl, rfl⟩, ⟨_, rfl, rfl, rfl⟩, ⟨_, rfl, rfl, rfl⟩
    , ⟨_, rfl, .inl rfl⟩, ⟨_, rfl, .inr rfl⟩, ⟨_, rfl, rfl, rfl⟩, ⟨_, rfl, trivial⟩, ⟨_, rfl, ?_⟩, ⟨_, rfl, ?_⟩⟩ <;> (try dsimp only) <;> decide

theorem test_claims_path :
    (∃ p, portClaims (.pathDown 0 3) (ported {}) = some p ∧ p.ok)
    ∧ (∃ p, portClaims (.peerLost 3) (ported {}) = some p ∧ p.ok)
    ∧ (∃ p, portClaims (.peerLostClear 3) (ported { state := .run }) = some p ∧ p.ok) := by
  refine ⟨⟨_, rfl, ?_⟩, ⟨_, rfl, ?_, ?_, ?_, ?_⟩, ⟨_, rfl, 0, ?_⟩⟩
  case refine_3 => intro r h; cases h
  all_goals ((try dsimp only) <;> decide)

/-- A transaction of device 3 over plane 0 to context 16's page. -/
def txn (typ : Nat) : Txn :=
  { typ := typ, src := 3, dst := 0, plane := 0, seq := 4, addr := 0x200000, ten := 7, ctx := 16, aux := 0, op := 0, len := 8, tidx := 0
    resent := false, last := false, payload := [] }
/-- An answer of device 3 over plane 0. -/
def reply (typ : Nat) : Txn := { txn typ with addr := 0, ten := 0, ctx := 0, len := 0 }
/-- The tenant with plane 0 in RUN. -/
def linked : State := ported { state := .run }
/-- Where an owner acts, and the machine after the translation. -/
def owned (x : Txn) : Nat × State :=
  match (linked.receive x).ownerWalk x with
  | .ok pa u => (pa, u)
  | _ => (0, linked)

/-- An owner may serve a request: its claim's premises hold. -/
def OwnerMet (i : Instr) (x : Txn) : Prop := ∃ p, ownerClaims i linked (owned x).1 (owned x).2 = some p ∧ p.ok

theorem test_claims_rd : OwnerMet (.rd (txn 1)) (txn 1) :=
  ⟨_, rfl, ⟨⟨_, rfl, rfl⟩, rfl, by decide, by decide, rfl, plain_of _ (by decide) (by decide) (by decide)⟩, rfl⟩
theorem test_claims_wr : OwnerMet (.wr { txn 3 with payload := [1, 2] }) { txn 3 with payload := [1, 2] } :=
  ⟨_, rfl, ⟨⟨_, rfl, rfl⟩, rfl, by decide, by decide, rfl, plain_of _ (by decide) (by decide) (by decide)⟩, rfl, by decide⟩
theorem test_claims_wrm : OwnerMet (.wrm { txn 4 with payload := List.replicate 144 1 }) { txn 4 with payload := List.replicate 144 1 } :=
  ⟨_, rfl, ⟨⟨_, rfl, rfl⟩, rfl, by decide, by decide, rfl, plain_of _ (by decide) (by decide) (by decide)⟩, rfl, by decide⟩
theorem test_claims_atom : OwnerMet (.fabricAtom { txn 6 with payload := [1, 0, 0, 0, 0, 0, 0, 0] }) { txn 6 with payload := [1, 0, 0, 0, 0, 0, 0, 0] } :=
  ⟨_, rfl, ⟨⟨_, rfl, rfl⟩, rfl, by decide, by decide, rfl, plain_of _ (by decide) (by decide) (by decide)⟩, rfl, by decide⟩

/-- One request to device 3 is unanswered. -/
def asked (typ : Nat) (link : RemoteLink) : Sent := { x := { txn typ with src := 0, dst := 3 }, link := link, core := 0, ord := 2 }
def asking (r : Sent) : State :=
  let s := desk 1 7 false false
  let g := { s.wg 1 with queues := [(0, [{ id := 4, work := .cpyg 1 false false false (2 ^ 49) 16 0, started := true, out := 1 }])] }
  let k : Queue := { state := .active, busy := true, out := 1, waitEv := some (.cond 1), copies := [{ run := 3, idx := 3, out := 1 }] }
  let e : LogEntry :=
    { id := 8, op := { kind := .load false, space := .global, bytes := 4, count := 1, dst := [3], pend := some 9 }
      lanes := [], wait := .remote, out := [{ t := 1, addr := 0x2000000000000 }, { t := 2, addr := 0x2000000000004 }] }
  let s : State := { s with sent := [r], queues := [(1, k)], wgs := [(1, g)], ports := [(0, { state := .run })] }
  let s := s.modWarp 0 fun x => { x with log := [e], pending := [{ id := 9, regs := [3], threads := 6 }] }
  s.modCore 0 fun c => { c with wc := [{ id := 2, ctx := 0, peer := 3, line := 5, sent := true }] }

theorem test_claims_answer :
    (∃ p, answerClaims (.rdata (reply 2)) (asking (asked 1 (.engine 1 0))) (asked 1 (.engine 1 0)) = some p ∧ p.ok)
    ∧ (∃ p, answerClaims (.rdata (reply 2)) (asking (asked 1 (.queue 1))) (asked 1 (.queue 1)) = some p ∧ p.ok)
    ∧ (∃ p, answerClaims (.rdata (reply 2)) (asking (asked 1 (.xcopy 1 3))) (asked 1 (.xcopy 1 3)) = some p ∧ p.ok)
    ∧ (∃ p, answerClaims (.ares (reply 7)) (asking (asked 6 (.engine 1 0))) (asked 6 (.engine 1 0)) = some p ∧ p.ok)
    ∧ (∃ p, answerClaims (.refuse { reply 10 with aux := 13 }) (asking (asked 1 (.engine 1 0))) (asked 1 (.engine 1 0)) = some p ∧ p.ok)
    ∧ (∃ p, answerClaims (.ticket (reply 8)) (asking (asked 1 (.engine 1 0))) (asked 1 (.engine 1 0)) = some p ∧ p.ok)
    ∧ (∃ p, answerClaims (.busy (reply 9)) (asking (asked 1 (.engine 1 0))) (asked 1 (.engine 1 0)) = some p ∧ p.ok) := by
  refine ⟨⟨_, rfl, ?_⟩, ⟨_, rfl, ?_⟩, ⟨_, rfl, ?_⟩, ⟨_, rfl, ?_⟩, ⟨_, rfl, ?_⟩, ⟨_, rfl, ?_⟩, ⟨_, rfl, ?_⟩⟩ <;> (try dsimp only) <;> decide +kernel
theorem test_claims_done : ∃ p, answerClaims (.doneOp (reply 5)) (asking (asked 3 (.wc 0 2))) (asked 3 (.wc 0 2)) = some p ∧ p.ok := by
  refine ⟨_, rfl, ?_⟩; dsimp only; decide +kernel
theorem test_claims_lane : ∃ p, answerClaims (.rdata (reply 2)) (asking (asked 1 (.lane 0 8 1))) (asked 1 (.lane 0 8 1)) = some p ∧ p.ok := by
  refine ⟨_, rfl, ?_⟩; dsimp only; decide +kernel
theorem test_claims_planea : ∃ p, answerClaims (.planea { reply 14 with payload := List.replicate 32 1 }) (asking (asked 13 (.queue 1))) (asked 13 (.queue 1)) = some p ∧ p.ok := by
  refine ⟨_, rfl, ?_⟩; dsimp only; decide +kernel

/-- A chunk of a collective to device 3 is unanswered. -/
def chunk : Sent := { x := { txn 20 with src := 0, dst := 3, aux := 1, addr := 0 }, link := .engine 1 0, core := 0, ord := 8 }

theorem test_claims_fabric :
    (∃ p, fabricClaims (.busyRetry 0 3) linked = some p ∧ p.ok)
    ∧ (∃ p, fabricClaims (.notice { reply 11 with aux := 2 }) linked = some p ∧ p.ok)
    ∧ (∃ p, fabricClaims (.noteack { reply 12 with aux := 2 }) linked = some p ∧ p.ok)
    ∧ (∃ p, fabricClaims (.planeq { reply 13 with op := 1 }) linked = some p ∧ p.ok)
    ∧ (∃ p, fabricClaims (.colld (txn 20)) linked = some p ∧ p.ok)
    ∧ (∃ p, fabricClaims (.doneOp (reply 5)) { linked with sent := [chunk] } = some p ∧ p.ok) := by
  refine ⟨⟨_, rfl, ?_⟩, ⟨_, rfl, ?_⟩, ⟨_, rfl, ?_⟩, ⟨_, rfl, ?_⟩, ⟨_, rfl, ?_, 0, ?_⟩, ⟨_, rfl, ?_⟩⟩ <;> (try dsimp only) <;> decide

/-! ### The general statements -/

theorem test_issuing : issuing (desk 1 7 false false) = true ∧ issuing (desk 1 15 false true) = true ∧ issuing (desk 1 7 true false) = true := by decide
theorem test_issue_resident : (me (desk 1 7 false false)).resident = true ∧ (me (desk 1 7 false false)).run < 8 ∧ encode (.nop false) ≠ [] := by decide
/-- What the statements about memory ask besides. -/
theorem test_plain_desk : plainMemory (desk 1 7 false false) := plain_of _ rfl rfl (by decide +kernel)
theorem test_issue_event : encode (.moduleReset) = [] ∧ 0x300000 + 4 ≤ hbmSize ∧ hbmSize < 0xC000000000 + 1 := by decide
theorem test_issue_nobody : (me State.reset).resident = false := by decide

/-- A window of 32 registers, so that s40 and v40 lie beyond it. -/
def narrow : State := (desk 1 7 false false).modWarp 0 fun x => { x with allot := 32, nsregs := 32 }
theorem test_breach :
    issuing narrow = true ∧ trapsPlainly narrow 0x05 = true
    ∧ ((plainScalar (.addScalar false 5 40 7)).bind fun p => p.breach narrow).isSome = true
    ∧ ((plainVector (.addVector false 5 40 7) narrow).bind fun p => p.breach narrow).isSome = true
    ∧ ((plainVector (.addVector false 5 60 7) (desk 1 7 false false)).bind fun p => p.breach (desk 1 7 false false)).isSome = true := by decide
/-- Under HAZCHK a result of s63 is on its way: a word that names other registers traps HAZARD, after the wait for it. -/
def hazarding : State :=
  ((desk 1 7 false false).modWarp 0 fun x => { x with pending := [{ id := 9, scalar := true, regs := [63], threads := 1 }] }).modCtx 0 fun c =>
    { c with hazchk := true }
theorem test_breach_waits :
    issuing hazarding = true ∧ trapsWaiting hazarding = true
    ∧ ((plainScalar (.addScalar false 5 6 7)).bind fun p => p.breach hazarding) = some 0x06
    ∧ ((plainVector (.addVector false 3 50 5) hazarding).bind fun p => p.breach hazarding) = some 0x06 := by decide
/-- A warp of context 17, which is at level U. -/
def user : State := { tenant with cur := 0, warps := (desk 1 7 false false).warps, wgs := (desk 1 7 false false).wgs
                                  launches := [(2, { (desk 1 7 false false).launch 2 with ctx := 17 })] }
theorem test_below_level :
    user.levelOf (user.ctxOf user.cur) = 0 ∧ issuing user = true ∧ trapsPlainly user 0x02 = true
    ∧ user.levelOf (user.ctxOf user.cur) < (0x400 : BitVec 12).toNat / 1024
    ∧ (debugWords (.wclr false 4) user).any (fun p => decide (user.levelOf (user.ctxOf user.cur) < p.level)) = true
    ∧ (counterReads (.pmread false 4 6) user).any (fun p => decide (user.levelOf (user.ctxOf user.cur) < p.level)) = true
    ∧ (sweeps (.tlbinv false 45) user).any (fun p => decide (user.levelOf (user.ctxOf user.cur) < p.level)) = true := by decide
theorem test_skipped :
    (me (desk 0 7 false false)).active = 0 ∧ issuing (desk 0 7 false false) = true
    ∧ (plainVector (.addVector false 5 6 7) (desk 0 7 false false)).any (fun p => p.breach (desk 0 7 false false) == none) = true := by decide
/-- A long-latency result is outstanding. -/
def outstanding : State := (desk 1 7 false false).modWarp 0 fun x => { x with pending := [{ id := 9, regs := [30], threads := 1 }] }
theorem test_marked :
    (me outstanding).pending ≠ [] ∧ marker (.addScalar true 5 6 7) = true ∧ marker (.addScalar false 5 6 7) = false ∧ issuing outstanding = true
    ∧ (plainScalar (.addScalar true 5 6 7)).any (fun p => p.fits outstanding) = true
    ∧ (plainVector (.addVector true 5 6 7) outstanding).any (fun p => p.fits outstanding) = true
    ∧ (floatSpecial (.frcp true 16 17) outstanding).any (fun p => p.fits outstanding) = true := by decide
theorem test_double_trap :
    issuing (desk 1 7 true false) = true ∧ (me (desk 1 7 true false)).cur.trapm = true ∧ (me (desk 1 7 true false)).step = none
    ∧ settled (desk 1 7 true false) [] [] = true := by decide

/-- The device with one word to run, one step on. -/
def ready (w : Nat) : State := let s := State.reset.withFetchWord 32 w; { s with serial := s.serial + 1 }
/-- Who issues, and what it fetches. -/
noncomputable def issued (w : Nat) : Nat × Nat × State := (ready w).issuer.getD (0, 0, ready w)
noncomputable def running (w : Nat) : State := { (issued w).2.2 with cur := (issued w).2.1 }
noncomputable def gotten (w : Nat) : Word × State :=
  match (running w).fetchPair.1 with
  | .got v r => (v, r)
  | _ => (0, running w)
theorem some_getD {α : Type} (o : Option α) (d : α) (h : o.isSome = true) : o = some (o.getD d) := by
  cases o with
  | none => cases h
  | some a => rfl
theorem gotten_eq (w : Nat) (h : (match (running w).fetchPair.1 with | .got _ _ => true | _ => false) = true) :
    (running w).fetchPair = (.got (gotten w).1 (gotten w).2, (running w).fetchPair.2) := by
  refine Prod.ext ?_ rfl
  show (running w).fetchPair.1 = _
  unfold gotten
  revert h
  split <;> simp_all

theorem test_step_runs :
    (ready 0x10005187).due = none ∧ (ready 0x10005187).stopped = false ∧ (ready 0x10005187).stepping = none
    ∧ (ready 0x10005187).ending = none ∧ (ready 0x10005187).polling = none
    ∧ (ready 0x10005187).issuer = some ((issued 0x10005187).1, (issued 0x10005187).2.1, (issued 0x10005187).2.2)
    ∧ (running 0x10005187).fetchPair = (.got (gotten 0x10005187).1 (gotten 0x10005187).2, (running 0x10005187).fetchPair.2)
    ∧ decode (running 0x10005187).fetchPair.2 = .ok (.addScalar false 5 6 7, []) :=
  ⟨by decide +kernel, by decide +kernel, by decide +kernel, by decide +kernel, by decide +kernel, some_getD (ready 0x10005187).issuer (0, 0, ready 0x10005187) (by decide +kernel), gotten_eq _ (by decide +kernel), by
    have h : (running 0x10005187).fetchPair.2 = [0x87, 0x51, 0x00, 0x10] := by decide +kernel
    rw [h]; rfl⟩
theorem test_step_event : ({ (ready 0) with calendar := [(0, .moduleReset)] } : State).due = some (0, .moduleReset) := by decide +kernel
theorem test_illegal_word :
    (running 0x7FFFFFFF).fetchPair = (.got (gotten 0x7FFFFFFF).1 (gotten 0x7FFFFFFF).2, (running 0x7FFFFFFF).fetchPair.2)
    ∧ (∃ e, decode (running 0x7FFFFFFF).fetchPair.2 = .error e) ∧ (me (gotten 0x7FFFFFFF).2).run < 8 ∧ trapsPlainly (gotten 0x7FFFFFFF).2 0x01 = true :=
  ⟨gotten_eq _ (by decide +kernel), ⟨_, rfl⟩, by decide +kernel, by decide +kernel⟩
theorem test_fetch_from :
    (∀ h ∈ ((desk 1 7 false false).core 0).icache, h.1 ≠ 2) ∧ tlbHit (desk 1 7 false false) 0 0x200000 .fetch = some page ∧ page.sys = false
    ∧ (((desk 1 7 false false).launchOf 0).codebase + ((me (desk 1 7 false false)).pc.setWidth 64 <<< 2)).toNat = 0x200000
    ∧ .frame (page.addr 0x200000 / 8192) ∉ (desk 1 7 false false).zeroing ∧ isLitWord ((desk 1 7 false false).l2Num (page.addr 0x200000) 4) = false := by decide
theorem test_encoded : (Instr.movlScalar true 9 0xBF800000).wellFormed = true ∧ encode (.movlScalar true 9 0xBF800000) ≠ [] := by decide
theorem test_memory_form : Memory.wf (ready 0x10005187) = true := by decide +kernel
theorem test_stopped : ({ tenant with stopped := true } : State).stopped = true ∧ ∀ e ∈ ({ tenant with stopped := true } : State).calendar, e.2 ≠ .moduleReset := by
  decide
/-- Positions and lengths at the ends of their ranges. -/
theorem test_bit_fields :
    bfxW false 0x80000001 0x011F = 1 ∧ bfxW true 0x80000001 0x011F = 0xFFFFFFFF ∧ bfxW false 0x80000001 0x3F00 = 0x80000001 ∧ bfxW true 7 0 = 0
    ∧ bfiW 0 0xFF 0x3F1C = 0xF0000000 ∧ clzW 0 = 32 ∧ clzW 1 = 31 ∧ ctzW 0 = 32 ∧ ctzW 0x80000000 = 31 := by decide
/-- An MMA of 8-bit integers over the desk's tiles. -/
def multiplying : State := desk 1 7 false false
theorem test_matrix_step :
    let m : Mma := { id := 6, wg := 1, dst := 2, a := 4, b := 6, zero := true, running := true }
    (multiplying.tile m.wg m.a).tag = 11 ∧ (multiplying.tile m.wg m.b).tag = 11 ∧ (multiplying.mmaArea m).1 < 4 := by decide
theorem test_whole_register : (0xC20 : BitVec 12).toNat ∈ wholeRegisters := by decide
theorem test_handles :
    (collectiveOpens (.colli false 25 12) (desk 1 7 false false)).any (·.fits (desk 1 7 false false)) = true
    ∧ (collectiveHandles (.colli false 4 1) (desk 1 7 false false)).isSome = true
    ∧ (counterReads (.pmread false 4 45) (desk 1 7 false false)).any (·.fits (desk 1 7 false false)) = true := by decide

/-! ### The spec's worked examples, one step each -/

/-- What holds of the state an instruction answers. -/
def after (i : Instr) (s : State) (q : State → Bool) : Bool :=
  match exec i s with
  | .next t => q t
  | _ => false

/-- A warp with three active threads, some registers, and MODE. -/
def bench (sregs vregs : Store Word) (tags : Store (BitVec 4)) (mode : BitVec 11) : State :=
  (desk 7 7 false false).modWarp 0 fun x => { x with sregs := sregs, vregs := vregs, tags := tags, mode := mode }

-- The worked example of 05_integer.md.
theorem test_worked_movhi : after (.movhiScalar false 10 0x48D1) (bench [(10, 0x1678)] [] [] 0) (fun t => (me t).readS 10 == 0x12345678) = true := by decide +kernel
theorem test_worked_addi : after (.addiVector false 2 1 0xFD0) (bench [] [(97, 1), (98, 2)] [(1, 3)] 0)
    (fun t => (me t).readV 2 0 == 0xFFFFFFD0 && (me t).readV 2 2 == 0xFFFFFFD2 && (me t).tag 2 == 2 && !(me t).uBit 2) = true := by decide +kernel
theorem test_worked_lea : after (.leaVector false 3 4 12 2) (bench [(13, 0x40)] [(192, 0xFFFFFFD0), (193, 0x2F)] [(2, 2)] 0)
    (fun t => (me t).readV 4 0 == 0xFFFFFE80 && (me t).readV 5 0 == 0x3F && (me t).readV 4 1 == 0x178 && (me t).readV 5 1 == 0x40
      && (me t).tag 4 == 14 && (me t).tag 5 == 15) = true := by decide +kernel
theorem test_worked_cmpi : after (.cmpiVector false 0 0 1 2 2 0) (bench [] [(192, 0xFFFFFFD0), (193, 0x2F)] [(2, 2)] 0)
    (fun t => (me t).pred 1 == 1) = true := by decide +kernel
-- The worked example of 06_float.md: narrowing, saturation, and one rounding of an exact sum.
theorem test_worked_cvt : after (.cvt false 0 7 3 1) (bench [] [(96, 0x3FC00000)] [(1, 4)] 0x200) (fun t => (me t).readV 3 0 == 0x3C && (me t).tag 3 == 7) = true := by
  decide +kernel
theorem test_worked_cvt_saturates : after (.cvt false 1 7 3 2) (bench [] [(192, 0x43F00000), (288, 0x3C)] [(2, 4), (3, 7)] 0x200)
    (fun t => (me t).readV 3 0 == 0x7E3C) = true := by decide +kernel
theorem test_worked_cvt_nan : after (.cvt false 1 7 3 2) (bench [] [(192, 0x43F00000), (288, 0x3C)] [(2, 4), (3, 7)] 0)
    (fun t => (me t).readV 3 0 == 0x7F3C) = true := by decide +kernel
theorem test_worked_dot : after (.dot4 false 5 3 4) (bench [] [(288, 0x7E3C), (384, 0x3838), (480, 0x3F800000)] [(3, 7), (4, 7), (5, 4)] 0x200)
    (fun t => (me t).readV 5 0 == 0x43E14000) = true := by decide +kernel

/-- The contract of 13_beat_control.md's five steps. -/
def fiveSteps : Contract :=
  { target := 50, ilog := 10, res := 22, kp := 0x400, ki := 0x200, imax := 0x3000, dfloor := 20, dceil := 26, floors := [2, 4, 2, 4, 8], ceils := [4, 6, 2, 4, 10], activeBit := true }
def loopStep (dprev : Nat) (i : Int) (m : Nat) (q : Loop → Bool) : Bool :=
  after (.controllerStep 16) (looping { contract := some fiveSteps, lcl := m, d := dprev, dprev := dprev, i := i }) fun t => q (t.ctx 16).loop
theorem test_worked_loop_1 : loopStep 22 0 42 (fun l => l.d == 25 && l.i == 4096 && !l.held) = true := by decide +kernel
theorem test_worked_loop_3 : loopStep 24 6656 58 (fun l => l.d == 20 && l.i == 2560) = true := by decide +kernel
theorem test_worked_loop_4 : loopStep 20 2560 30 (fun l => l.d == 26 && l.i == 12288 && !l.held) = true := by decide +kernel
theorem test_worked_loop_5 : loopStep 26 12288 35 (fun l => l.d == 26 && l.i == 12288 && l.held) = true := by decide +kernel
theorem test_worked_actuators : fiveSteps.positions 22 = [4, 4, 2, 4, 8] ∧ fiveSteps.positions 25 = [4, 6, 2, 4, 9] ∧ fiveSteps.positions 20 = [2, 4, 2, 4, 8] := by decide

end Sys2Proof.Tests
end

