-- ==== Sys2Proof/Proofs/Claims.lean ====
section
/-! SUPPORT. The shape that the tables of claims give their obligations, one instruction's claim at a time, and what a fold keeps. -/

namespace Sys2Proof.Machine

open Sys2Proof.Safety

/-- Every claim that a table makes of an instruction holds of it. -/
def KeepsClaims (claims : Instr → State → Option Claim) (i : Instr) : Prop :=
  ∀ (s : State) (p : Claim), claims i s = some p → p.ok → completes i s p.holds

/-- What every step of a fold keeps, the fold keeps. -/
theorem foldl_keeps {σ β γ : Type} (part : σ → γ) (f : σ → β → σ) (h : ∀ s b, part (f s b) = part s) (l : List β) (s : σ) :
    part (l.foldl f s) = part s :=
  List.foldlRecOn (motive := fun t => part t = part s) l f rfl fun t ht b _ => (h t b).trans ht

end Sys2Proof.Machine
end

