-- ==== Sys2Proof/Proofs/ResetState.lean ====
section
/-! STATEMENT PROOFS. What reset leaves (R475). -/

namespace Sys2Proof.Machine

open Sys2Proof.Safety

/-- Settles O55: reset is the record of defaults, so that every listed unit reads as an unlisted key does. -/
theorem resetState : Obligations.ResetState := by
  unfold Obligations.ResetState
  refine ⟨⟨rfl, rfl, rfl, rfl, rfl⟩, fun _ => rfl, fun _ => rfl, fun _ => rfl, fun _ => ⟨rfl, rfl⟩, fun _ => ⟨rfl, rfl⟩, fun _ => ⟨rfl, rfl⟩,
    fun _ => rfl⟩

end Sys2Proof.Machine
end

