-- ==== Sys2Proof/Proofs/BesideL2.lean ====
section
/-! SUPPORT. What writes at the home L2 and the records that go through them leave alone. -/

namespace Sys2Proof.Machine

/-- The machine beside its home L2s and HBM, the queues that a write may ring, and what the partitions keep of their rings (R275, R313,
R340, R376): a write at the home L2, a walk, a record and an event leave all of it alone. -/
def State.besideL2 (s : State) : State :=
  { s with hbm := [], l2 := [], l2Ways := [], l2Misses := 0, hbmMoves := 0, lineGen := [], poisoned := [], written := [], queues := [],
           parts := [], names := 0 }

theorem State.besideL2_foldl {β : Type} (f : State → β → State) (h : ∀ s b, (f s b).besideL2 = s.besideL2) (l : List β) (s : State) :
    (l.foldl f s).besideL2 = s.besideL2 :=
  foldl_keeps State.besideL2 f h l s

section
variable (s : State)

@[simp] theorem State.besideL2_modPart (p : Nat) (f : Part → Part) : (s.modPart p f).besideL2 = s.besideL2 := rfl
@[simp] theorem State.besideL2_fresh : s.fresh.2.besideL2 = s.besideL2 := rfl
@[simp] theorem State.besideL2_recipher (l : Nat) : (s.recipher l).besideL2 = s.besideL2 := rfl

@[simp] theorem State.besideL2_recipherAll (ls : List Nat) : (s.recipherAll ls).besideL2 = s.besideL2 := by
  unfold State.recipherAll
  split
  · rfl
  · exact State.besideL2_foldl _ (fun t l => t.besideL2_recipher l) _ s

@[simp] theorem State.besideL2_l2Clean (p : Nat → Bool) : (s.l2Clean p).besideL2 = s.besideL2 :=
  s.besideL2_recipherAll _

theorem State.besideL2_putWays (m : Store (Nat × Nat)) : ({ s with l2Ways := m } : State).besideL2 = s.besideL2 := rfl

@[simp] theorem State.besideL2_l2Alloc (line hint : Nat) : (s.l2Alloc line hint).besideL2 = s.besideL2 := by
  unfold State.l2Alloc
  dsimp only
  split
  · rfl
  · split
    · rfl
    · split
      · rfl
      · exact (State.besideL2_putWays _ _).trans (State.besideL2_l2Clean _ _)

@[simp] theorem State.besideL2_ring (pa n : Nat) : (s.ring pa n).besideL2 = s.besideL2 := by
  unfold State.ring; split <;> rfl

@[simp] theorem State.besideL2_l2Put (pa : Nat) (bs : List Byte) (hint : Nat) : (s.l2Put pa bs hint).besideL2 = s.besideL2 :=
  (State.besideL2_ring _ _ _).trans (State.besideL2_foldl _ (fun t l => t.besideL2_l2Alloc l hint) _ s)

@[simp] theorem State.besideL2_l2Through (ls : List Nat) : (s.l2Through ls).besideL2 = s.besideL2 := by
  unfold State.l2Through; split
  · rfl
  · exact s.besideL2_l2Clean _

@[simp] theorem State.besideL2_l2WriteAs (pa : Nat) (bs : List Byte) (hint : Nat) : (s.l2WriteAs pa bs hint).besideL2 = s.besideL2 := by
  simp [State.l2WriteAs]
@[simp] theorem State.besideL2_l2Write (pa : Nat) (bs : List Byte) : (s.l2Write pa bs).besideL2 = s.besideL2 :=
  s.besideL2_l2WriteAs pa bs 0
@[simp] theorem State.besideL2_l2SetNum (pa n v : Nat) : (s.l2SetNum pa n v).besideL2 = s.besideL2 := s.besideL2_l2Write _ _

@[simp] theorem State.besideL2_l2Part (id pa : Nat) (bs : List Byte) (hint : Nat) : (s.l2Part id pa bs hint).besideL2 = s.besideL2 :=
  State.besideL2_l2WriteAs _ _ _ _

/-! ### Records, walks and events (R307, R313, R329, R375) -/

@[simp] theorem State.besideL2_bumpRing (p r : Nat) : (s.bumpRing p r).besideL2 = s.besideL2 := rfl

@[simp] theorem State.besideL2_postFault (p va ctx asid : Nat) (k : Access) (engine malformed perm : Bool) (peer : Option Nat) :
    (s.postFault p va ctx asid k engine malformed perm peer).2.besideL2 = s.besideL2 := by
  unfold State.postFault
  dsimp only
  split
  · rfl
  · split
    · rfl
    · simp

@[simp] theorem State.besideL2_postEvicted (p va ctx asid : Nat) (k : Access) (peer : Option Nat) :
    (s.postEvicted p va ctx asid k peer).2.besideL2 = s.besideL2 := by
  unfold State.postEvicted
  dsimp only
  split <;> rfl

@[simp] theorem State.besideL2_markLeaf (slot : Nat) (d : Bool) : (s.markLeaf slot d).besideL2 = s.besideL2 := by
  unfold State.markLeaf
  dsimp only
  split <;> simp

@[simp] theorem State.besideL2_putPhys (p r pa : Nat) (rec : List Byte) : (s.putPhys p r pa rec).besideL2 = s.besideL2 := by
  unfold State.putPhys
  dsimp only
  split
  · split <;> simp
  · simp

@[simp] theorem State.besideL2_logDirty (p : Nat) (e : Tlb) (rctx : Nat) : (s.logDirty p e rctx).2.besideL2 = s.besideL2 := by
  unfold State.logDirty
  dsimp only
  split
  · rfl
  · split
    · split <;> simp
    · simp

@[simp] theorem State.besideL2_marks (p : Nat) (e : Tlb) (slot rctx : Nat) (k : Access) :
    (s.marks p e slot rctx k).2.besideL2 = s.besideL2 := by
  unfold State.marks
  dsimp only
  split
  · split <;> split <;> simp
  · simp

/-- The machine after an access of its own, which is as before where the translation is refused. -/
theorem State.besideL2_ownWalk {ctx va : Nat} {k : Access} {q : Nat × State} (h : s.ownWalk ctx va k = some q) :
    q.2.besideL2 = s.besideL2 := by
  unfold State.ownWalk at h
  dsimp only at h
  split at h
  · cases h
  · split at h
    · split at h
      · cases h
      · split at h
        · cases h; simp
        · cases h
    · cases h
end

theorem State.besideL2_ctxWrite {s t : State} {ctx va : Nat} {bs : List Byte} (h : s.ctxWrite ctx va bs = some t) :
    t.besideL2 = s.besideL2 := by
  unfold State.ctxWrite at h
  have byte : ∀ (l : List (Byte × Nat)) (o : Option State), (∀ u, o = some u → u.besideL2 = s.besideL2) → ∀ t,
      l.foldl (fun os p => os.bind fun s => (s.ownWalk ctx (va + p.2) .write).map fun q => q.2.l2Write q.1 [p.1]) o = some t →
      t.besideL2 = s.besideL2 := by
    intro l
    induction l with
    | nil => exact fun o ho t ht => ho t ht
    | cons p l ih =>
      refine fun o ho => ih _ fun u hu => ?_
      obtain ⟨v, rfl, hv⟩ := Option.bind_eq_some_iff.mp hu
      obtain ⟨q, hq, rfl⟩ := Option.map_eq_some_iff.mp hv
      rw [State.besideL2_l2Write, v.besideL2_ownWalk hq, ho v rfl]
  exact byte _ _ (fun u hu => by cases hu; rfl) t h

section
variable (s : State)

@[simp] theorem State.besideL2_ctxWriteOr (ctx va : Nat) (bs : List Byte) : ((s.ctxWrite ctx va bs).getD s).besideL2 = s.besideL2 := by
  cases h : s.ctxWrite ctx va bs with
  | none => rfl
  | some t => exact State.besideL2_ctxWrite h

theorem State.besideL2_eventSlot {p r : Nat} {q : Nat × State} (h : s.eventSlot p r = some q) : q.2.besideL2 = s.besideL2 := by
  unfold State.eventSlot at h
  dsimp only at h
  split at h
  · exact s.besideL2_ownWalk h
  · cases h; rfl

@[simp] theorem State.besideL2_putEvent (p r : Nat) (rec : List Byte) : (s.putEvent p r rec).besideL2 = s.besideL2 := by
  unfold State.putEvent
  cases h : s.eventSlot p r with
  | none => rfl
  | some q => simp [s.besideL2_eventSlot h]

@[simp] theorem State.besideL2_flushEvents (p r n : Nat) : (s.flushEvents p r n).besideL2 = s.besideL2 := by
  induction n generalizing s with
  | zero => rfl
  | succ n ih =>
    unfold State.flushEvents
    split
    · rfl
    · split
      · rfl
      · split
        · rfl
        · simp [ih]

@[simp] theorem State.besideL2_event (p r code queue ctx warp detail : Nat) (pc : Word) (aux : Nat) :
    (s.event p r code queue ctx warp detail pc aux).besideL2 = s.besideL2 := by
  simp [State.event]
end

/-- The machine that a translation leaves; a refused one changes nothing. -/
def Trans.left (s : State) : Trans → State
  | .ok _ t => t
  | .wait _ t => t
  | .trap _ => s

@[simp] theorem State.besideL2_walk (s : State) (ctx va : Nat) (k : Access) (engine : Bool) (peer : Option Nat) :
    ((s.walk ctx va k engine peer).left s).besideL2 = s.besideL2 := by
  unfold State.walk
  dsimp only
  split
  · rfl
  · rfl
  · split
    · rfl
    · simp [Trans.left]
  · split
    · rfl
    · simp [Trans.left]
  · cases peer <;> dsimp only <;> split <;> simp [Trans.left]

end Sys2Proof.Machine
end

