-- ==== Sys2Proof/Proofs/PortSide.lean ====
section
/-! SUPPORT. The ports under all that a step does but sending: no access, trap or halt touches a port (R405, R424). -/

namespace Sys2Proof.Machine

/-- The ports, and whether a START has been issued (R7, R405). -/
def State.portSide (s : State) : Store Port × Bool := (s.ports, s.begun)

theorem State.portSide_of_besideL2 {s t : State} (h : t.besideL2 = s.besideL2) : t.portSide = s.portSide :=
  show t.besideL2.portSide = s.besideL2.portSide from congrArg State.portSide h

theorem State.portSide_foldl {β : Type} (f : State → β → State) (h : ∀ s b, (f s b).portSide = s.portSide) (l : List β) (s : State) :
    (l.foldl f s).portSide = s.portSide :=
  foldl_keeps State.portSide f h l s

section
variable (s : State)

/-! ### Parts of the state and the calendar -/

@[simp] theorem State.portSide_modWarp (w : Nat) (f : Warp → Warp) : (s.modWarp w f).portSide = s.portSide := rfl
@[simp] theorem State.portSide_modCore (c : Nat) (f : Core → Core) : (s.modCore c f).portSide = s.portSide := rfl
@[simp] theorem State.portSide_modWg (g : Nat) (f : Workgroup → Workgroup) : (s.modWg g f).portSide = s.portSide := rfl
@[simp] theorem State.portSide_modCtx (c : Nat) (f : Ctx → Ctx) : (s.modCtx c f).portSide = s.portSide := rfl
@[simp] theorem State.portSide_modCluster (c : Nat) (f : Cluster → Cluster) : (s.modCluster c f).portSide = s.portSide := rfl
@[simp] theorem State.portSide_after (n : Nat) (e : Instr) : (s.after n e).portSide = s.portSide := rfl
@[simp] theorem State.portSide_soon (e : Instr) : (s.soon e).portSide = s.portSide := rfl
@[simp] theorem State.portSide_cancel (p : Instr → Bool) : (s.cancel p).portSide = s.portSide := rfl
@[simp] theorem State.portSide_onBehalf (ctx : Nat) : (s.onBehalf ctx).portSide = s.portSide := rfl
@[simp] theorem State.portSide_addWork (core : Nat) (x : PowerSample) : (s.addWork core x).portSide = s.portSide := rfl
@[simp] theorem State.portSide_count (ctx core slice id n : Nat) : (s.count ctx core slice id n).portSide = s.portSide := rfl
@[simp] theorem State.portSide_countOps (w vl sr : Nat) : (s.countOps w vl sr).portSide = s.portSide := rfl
@[simp] theorem State.portSide_countL2 (old : State) (w : Nat) : (s.countL2 old w).portSide = s.portSide := by
  unfold State.countL2; dsimp only; split <;> rfl

/-! ### The home L2 and the L1s (R273 to R275) -/

@[simp] theorem State.portSide_l2Clean (p : Nat → Bool) : (s.l2Clean p).portSide = s.portSide :=
  State.portSide_of_besideL2 (s.besideL2_l2Clean p)
@[simp] theorem State.portSide_l2Alloc (line hint : Nat) : (s.l2Alloc line hint).portSide = s.portSide :=
  State.portSide_of_besideL2 (s.besideL2_l2Alloc line hint)
@[simp] theorem State.portSide_l2WriteAs (pa : Nat) (bs : List Byte) (hint : Nat) : (s.l2WriteAs pa bs hint).portSide = s.portSide :=
  State.portSide_of_besideL2 (s.besideL2_l2WriteAs pa bs hint)
@[simp] theorem State.portSide_l2SetNum (pa n v : Nat) : (s.l2SetNum pa n v).portSide = s.portSide :=
  State.portSide_of_besideL2 (s.besideL2_l2SetNum pa n v)
@[simp] theorem State.portSide_l2Part (id pa : Nat) (bs : List Byte) (hint : Nat) : (s.l2Part id pa bs hint).portSide = s.portSide :=
  State.portSide_of_besideL2 (s.besideL2_l2Part id pa bs hint)
@[simp] theorem State.portSide_l2Drop (line : Nat) : (s.l2Drop line).portSide = s.portSide := rfl

@[simp] theorem State.portSide_l1Writeback (core : Nat) (p : Nat → L1Byte → Bool) (drop : Bool) :
    (s.l1Writeback core p drop).portSide = s.portSide := by
  have written : ∀ l : List (Nat × L1Byte), (l.foldl (fun (s : State) e =>
      if e.2.dirty then s.l2WriteAs e.1 [e.2.val] (s.l1Hint core (e.1 / 128)) else s) s).portSide = s.portSide :=
    fun l => State.portSide_foldl _ (fun t e => by split <;> simp) l s
  unfold State.l1Writeback
  dsimp only
  split
  · exact written _
  · exact written _

@[simp] theorem State.portSide_l1Purge (core line : Nat) : (s.l1Purge core line).portSide = s.portSide := s.portSide_l1Writeback _ _ _

@[simp] theorem State.portSide_l1Alloc (core line hint : Nat) : (s.l1Alloc core line hint).portSide = s.portSide := by
  unfold State.l1Alloc
  dsimp only
  split
  · rfl
  · split
    · rfl
    · split <;> simp

@[simp] theorem State.portSide_coreLoad (core pa n hint : Nat) (priv : Bool) : (s.coreLoad core pa n hint priv).2.portSide = s.portSide := by
  unfold State.coreLoad
  dsimp only
  split
  · split <;> simp
  · exact (State.portSide_l1Alloc _ _ _ _).trans (by split <;> simp)

@[simp] theorem State.portSide_coreStore (core id pa : Nat) (bs : List Byte) (hint : Nat) (priv : Bool) :
    (s.coreStore core id pa bs hint priv).portSide = s.portSide := by
  unfold State.coreStore
  dsimp only
  split
  · simp only [State.portSide_l2Part]; rfl
  · split <;> exact (State.portSide_l1Alloc _ _ _ _).trans rfl
end

end Sys2Proof.Machine
end

