-- ==== Sys2Proof/Proofs/PortSideTranslation.lean ====
section
namespace Sys2Proof.Machine

section
variable (s : State)

/-! ### Translation (R309) -/

/-- A translation that begins where the ports are as they were leaves them so. -/
theorem Trans.portSide_left (r : Trans) {s u : State} (hu : u.portSide = s.portSide) (h : (r.left u).portSide = u.portSide) :
    (r.left s).portSide = s.portSide := by
  cases r with
  | ok e t => exact h.trans hu
  | wait w t => exact h.trans hu
  | trap c => rfl

@[simp] theorem State.portSide_walk (ctx va : Nat) (k : Access) (engine : Bool) (peer : Option Nat) :
    ((s.walk ctx va k engine peer).left s).portSide = s.portSide :=
  State.portSide_of_besideL2 (s.besideL2_walk ctx va k engine peer)

@[simp] theorem State.portSide_clusterWalk (core ctx va : Nat) (k : Access) (engine : Bool) :
    ((s.clusterWalk core ctx va k engine).left s).portSide = s.portSide := by
  unfold State.clusterWalk
  dsimp only
  split
  · rfl
  · generalize hs : (if engine = true then s.countCore ctx core 0x103 1 else s) = u
    have hu : u.portSide = s.portSide := by rw [← hs]; split <;> rfl
    have walked := Trans.portSide_left _ hu (u.portSide_walk ctx va k engine none)
    split
    · rename_i hr
      rw [hr] at walked
      exact walked
    · exact walked

@[simp] theorem State.portSide_translate (core lane ctx va : Nat) (k : Access) :
    ((s.translate core lane ctx va k).left s).portSide = s.portSide := by
  unfold State.translate
  dsimp only
  split
  · rfl
  · split
    · rfl
    · have counted : ∀ b : Bool, (if b = true then s.count ctx core (lane / 4) 0x102 1
          else (s.count ctx core (lane / 4) 0x102 1).count ctx core (lane / 4) 0x103 1).portSide = s.portSide := by
        intro b; cases b <;> rfl
      have walked : ∀ (u : State) (r : Trans), u.portSide = s.portSide → u.clusterWalk core ctx va k false = r →
          (r.left s).portSide = s.portSide := by
        rintro u _ hu rfl
        exact Trans.portSide_left _ hu (u.portSide_clusterWalk core ctx va k false)
      split
      · rename_i hr
        have left := walked _ _ (counted _) hr
        exact left
      · exact walked _ _ (counted _) rfl

/-! ### Traces, halts and traps (R133, R258, R429, R441) -/

@[simp] theorem State.portSide_event (p r code queue ctx warp detail : Nat) (pc : Word) (aux : Nat) :
    (s.event p r code queue ctx warp detail pc aux).portSide = s.portSide :=
  State.portSide_of_besideL2 (s.besideL2_event p r code queue ctx warp detail pc aux)

@[simp] theorem State.portSide_trace (ctx : Nat) (rec : List Byte) : (s.trace ctx rec).portSide = s.portSide := by
  unfold State.trace
  dsimp only
  split
  · rfl
  · split
    · rfl
    · exact (State.portSide_modCtx _ _ _).trans (State.portSide_of_besideL2 (s.besideL2_ctxWriteOr _ _ _))

@[simp] theorem State.portSide_partGang (w : Nat) : (s.partGang w).portSide = s.portSide := by
  unfold State.partGang
  dsimp only
  split
  · rfl
  · split
    · exact State.portSide_foldl _ (fun t e => t.portSide_modWarp _ _) _ _
    · rfl

@[simp] theorem State.portSide_haltEvent (w : Nat) : (s.haltEvent w).portSide = s.portSide := by
  unfold State.haltEvent
  dsimp only
  split
  · split <;> simp
  · rfl

@[simp] theorem State.portSide_haltNow (w cause watch slot : Nat) (part : Bool) : (s.haltNow w cause watch slot part).portSide = s.portSide := by
  unfold State.haltNow
  dsimp only
  split
  · exact (State.portSide_foldl _ (fun t m => t.portSide_after _ _) _ _).trans (by simp)
  · simp

@[simp] theorem State.portSide_haltWarp (w cause watch slot : Nat) (part : Bool) : (s.haltWarp w cause watch slot part).portSide = s.portSide := by
  unfold State.haltWarp
  split <;> simp

@[simp] theorem State.portSide_haltThread (w t cause watch : Nat) (pc : Word) : (s.haltThread w t cause watch pc).portSide = s.portSide := by
  simp [State.haltThread]

@[simp] theorem State.portSide_haltFor (w act watch slot : Nat) (part : Bool) : (s.haltFor w act watch slot part).portSide = s.portSide := by
  unfold State.haltFor
  exact (State.portSide_foldl _ (fun t v => by split <;> simp) _ _).trans (by simp)

@[simp] theorem State.portSide_startDump (w : Nat) : (s.startDump w).portSide = s.portSide := by
  have halt : ∀ (t : State) (v : Nat), (if (t.warp v).whalt then t else
      if (t.warp v).thalt != 0 && (t.warp v).haltCause == 1 then t.haltWarp v 1 (t.warp v).haltWatch 0 false
      else t.haltWarp v 2 0 0 false).portSide = t.portSide := by
    intro t v
    split
    · rfl
    · split <;> simp
  unfold State.startDump
  dsimp only
  split
  · split
    · simp only [State.portSide_soon, State.portSide_modCtx, State.portSide_cancel, halt]
    · exact halt s w
  · simp only [State.portSide_soon, State.portSide_modCtx]
    exact (State.portSide_foldl _ (fun t g => t.portSide_modWg _ _) _ _).trans (State.portSide_foldl _ halt _ s)

@[simp] theorem State.portSide_trapEnters (w cause f : Nat) (addr : DWord) (first : Word) (part : Bool) (pc : Word) :
    (s.trapEnters w cause f addr first part pc).portSide = s.portSide := by
  unfold State.trapEnters
  dsimp only
  split <;> split <;> simp

@[simp] theorem State.portSide_takeTrap (w cause f : Nat) (addr : DWord) (first : Word) (part : Bool) (pc : Word) :
    (s.takeTrap w cause f addr first part pc).portSide = s.portSide := by
  unfold State.takeTrap
  dsimp only
  split
  · rfl
  · split
    · split <;> simp
    · split <;> simp

@[simp] theorem State.portSide_deferredFor (w : Nat) (pick : LogEntry → Bool) : (s.deferredFor w pick).portSide = s.portSide := by
  unfold State.deferredFor
  split <;> simp

@[simp] theorem State.portSide_overdue (w : Nat) : (s.overdue w).portSide = s.portSide := by
  unfold State.overdue State.deferredTrap
  dsimp only
  split <;> simp

/-! ### Watches (R252 to R257) -/

@[simp] theorem State.portSide_watchHit (w t n : Nat) (x : Watch) (pc : Word) (v : DWord) : (s.watchHit w t n x pc v).portSide = s.portSide := by
  unfold State.watchHit
  dsimp only
  split <;> split <;> simp

theorem foldl_portSide_fst {β γ : Type} (f : State × γ → β → State × γ) (h : ∀ r b, (f r b).1.portSide = r.1.portSide) (l : List β)
    (r : State × γ) : (l.foldl f r).1.portSide = r.1.portSide := by
  induction l generalizing r with
  | nil => rfl
  | cons b l ih => exact (ih (f r b)).trans (h r b)

@[simp] theorem State.portSide_presentAll (bank : Store Watch) (w t : Nat) (pc : Word) (xs : List Show) :
    (s.presentAll bank w t pc xs).1.portSide = s.portSide := by
  unfold State.presentAll
  dsimp only
  split
  · exact foldl_portSide_fst _ (fun r h => by split <;> simp) _ _
  · exact (State.portSide_trace _ _ _).trans (foldl_portSide_fst _ (fun r h => by split <;> simp) _ _)

end
end Sys2Proof.Machine
end

