-- ==== Sys2Proof/Proofs/PortSideAccess.lean ====
section
namespace Sys2Proof.Machine

section
variable (s : State)

/-! ### One thread's access at the device (R190, R273, R277) -/

@[simp] theorem State.portSide_arrive (w : Nat) (op : MemOp) (t : Nat) (ws : List Word) (po : List Bool) :
    (s.arrive w op t ws po).portSide = s.portSide := by
  unfold State.arrive
  split
  · rfl
  · split
    · rfl
    · exact State.portSide_foldl _ (fun u t => u.portSide_soon _) _ _

@[simp] theorem State.portSide_dropThread (w : Nat) (op : MemOp) (t : Nat) : (s.dropThread w op t).portSide = s.portSide := by
  unfold State.dropThread
  split <;> rfl

theorem State.portSide_raced {w off : Nat} {op : MemOp} {t : State} (h : s.raced w off op = some t) : t.portSide = s.portSide := by
  unfold State.raced at h
  split at h
  · cases h; rfl
  · split at h
    · cases h; rfl
    · unfold State.raceCheck at h
      dsimp only at h
      split at h
      · cases h
      · split at h
        · cases h
        · split at h
          · cases h
          · cases h; rfl

/-- The machine that a thread's access leaves. -/
def LaneOut.left : LaneOut → State
  | .ok s _ _ _ => s
  | .sent s => s
  | .trap s _ _ => s
  | .wait _ _ s => s
  | .full s => s

@[simp] theorem LaneOut.left_ok (d : Option (List Word)) (po : List Bool) (fl : FFlags) : (LaneOut.ok s d po fl).left = s := rfl
@[simp] theorem LaneOut.left_sent : (LaneOut.sent s).left = s := rfl
@[simp] theorem LaneOut.left_trap (c : Nat) (a : DWord) : (LaneOut.trap s c a).left = s := rfl
@[simp] theorem LaneOut.left_wait (w : LogWait) (page : Nat) : (LaneOut.wait w page s).left = s := rfl
@[simp] theorem LaneOut.left_full : (LaneOut.full s).left = s := rfl

@[simp] theorem State.portSide_laneScratch (w : Nat) (earlier : List LogEntry) (op : MemOp) (l : Lane) :
    (s.laneScratch w earlier op l).left.portSide = s.portSide := by
  unfold State.laneScratch
  generalize (if op.count = 4 then 16 else op.total) = align
  dsimp only
  split
  · rfl
  · split
    · rfl
    · split
      · rfl
      · split
        · rfl
        · rename_i u hu
          have raced := s.portSide_raced hu
          split
          · exact raced
          · exact raced
          · exact raced
          · split <;> exact raced

@[simp] theorem State.portSide_laneLine (w id pa n : Nat) (op : MemOp) (data : Nat) :
    (s.laneLine w id pa n op data).1.portSide = s.portSide := by
  unfold State.laneLine
  dsimp only
  split
  · split <;> simp
  · split <;> simp
  · split <;> split <;> simp
  · split <;> simp

@[simp] theorem State.portSide_laneLocal (w id pa n : Nat) (op : MemOp) (data : Nat) :
    (s.laneLocal w id pa n op data).1.portSide = s.portSide := by
  simp [State.laneLocal]

@[simp] theorem State.portSide_laneSys (w lid : Nat) (op : MemOp) (l : Lane) (pa : Nat) :
    (s.laneSys w lid op l pa).left.portSide = s.portSide := by
  unfold State.laneSys
  dsimp only
  split
  · rfl
  · split <;> rfl
  · rfl
  · rfl

/-- The machine after the pieces of an access have been looked for. -/
def Found.left : Found → State
  | .ok _ s => s
  | .stop o => o.left

@[simp] theorem State.portSide_findPieces (w : Nat) (earlier : List LogEntry) (op : MemOp) (l : Lane) (ps : List (Nat × Nat))
    (acc : List (Nat × Nat × Bool)) : (s.findPieces w earlier op l ps acc).left.portSide = s.portSide := by
  induction ps generalizing s acc with
  | nil => rfl
  | cons p ps ih =>
    unfold State.findPieces
    split
    · rfl
    · have walked := s.portSide_translate (coreOf w) (sliceOf w * 4 + l.t % 4) (s.ctxOf w) p.1 op.access
      split
      · rfl
      · rename_i hr
        rw [hr] at walked
        exact walked
      · rename_i hr
        rw [hr] at walked
        split
        · exact walked
        · split
          · exact walked
          · exact (ih _ _).trans walked

@[simp] theorem State.portSide_doPieces (w id : Nat) (op : MemOp) (l : Lane) (ps : List (Nat × Nat × Bool)) (j : Nat) (acc : List Word)
    (po : List Bool) (fl : FFlags) : (s.doPieces w id op l ps j acc po fl).left.portSide = s.portSide := by
  induction ps generalizing s j acc po fl with
  | nil => rfl
  | cons p ps ih => exact (ih _ _ _ _ _).trans (s.portSide_laneLocal _ _ _ _ _ _)

@[simp] theorem State.portSide_lanePieces (w lid : Nat) (earlier : List LogEntry) (op : MemOp) (l : Lane) (ps : List (Nat × Nat)) :
    (s.lanePieces w lid earlier op l ps).left.portSide = s.portSide := by
  have found := s.portSide_findPieces w earlier op l ps []
  unfold State.lanePieces
  split
  · rfl
  · split
    · rename_i hr
      rw [hr] at found
      exact found
    · rename_i hr
      rw [hr] at found
      exact (State.portSide_laneSys _ _ _ _ _ _).trans found
    · rename_i hr
      rw [hr] at found
      exact (State.portSide_doPieces _ _ _ _ _ _ _ _ _ _).trans found


@[simp] theorem State.portSide_holdLink (core : Nat) (t : TicketEntry) (r : Sent) : (s.holdLink core t r).portSide = s.portSide := by
  unfold State.holdLink
  dsimp only
  split <;> rfl

@[simp] theorem State.portSide_settleEntry (w lid : Nat) : (s.settleEntry w lid).portSide = s.portSide := by
  unfold State.settleEntry
  split
  · rfl
  · dsimp only
    split
    · rfl
    · split
      · rfl
      · split
        · split <;> rfl
        · rfl
end

end Sys2Proof.Machine
end

