-- ==== Sys2Proof/Proofs/PortsKept.lean ====
section
/-! SUPPORT. What sending does to the ports: it counts the flits that leave, and nothing else of a port changes (R405, R409). -/

namespace Sys2Proof.Machine

/-- Between two machines only the counts of flits sent have changed at the ports, and no START has been issued. -/
structure PortsKept (s t : State) : Prop where
  begun : t.begun = s.begun
  port : ∀ k, t.port k = { s.port k with sentCnt := (t.port k).sentCnt }
  wf : Store.wf {} s.ports = true → Store.wf {} t.ports = true

theorem PortsKept.refl (s : State) : PortsKept s s := ⟨rfl, fun _ => rfl, id⟩

theorem PortsKept.trans {s t u : State} (h : PortsKept s t) (g : PortsKept t u) : PortsKept s u :=
  ⟨g.begun.trans h.begun, fun k => by rw [g.port k, h.port k], g.wf ∘ h.wf⟩

theorem PortsKept.of_portSide {s t : State} (h : t.portSide = s.portSide) : PortsKept s t := by
  obtain ⟨hp, hb⟩ := Prod.mk.inj h
  exact ⟨hb, fun k => by rw [State.port, hp]; rfl, fun w => hp ▸ w⟩

/-- The ports and the START are read at a machine with the same ones. -/
theorem PortsKept.congr {s t u : State} (h : PortsKept s t) (e : u.portSide = t.portSide) : PortsKept s u :=
  h.trans (.of_portSide e)

theorem PortsKept.after {s t u : State} (h : PortsKept t u) (e : t.portSide = s.portSide) : PortsKept s u :=
  .trans (.of_portSide e) h

theorem PortsKept.foldl {β : Type} {f : State → β → State} (h : ∀ s b, PortsKept s (f s b)) (l : List β) (s : State) :
    PortsKept s (l.foldl f s) :=
  List.foldlRecOn (motive := PortsKept s) l f (.refl s) fun t ht b _ => ht.trans (h t b)

section
variable (s : State)

/-! ### Transactions and requests (R409, R410, R419) -/

theorem State.portsKept_send (x : Txn) : PortsKept s (s.send x) := by
  have counted : PortsKept s (s.modPort x.plane fun p => { p with sentCnt := (s.port x.plane).sentCnt + txnFlits x }) := by
    refine ⟨rfl, fun k => ?_, Store.wf_set _ _ _ _⟩
    rw [State.port_modPort]
    split
    · next h => rw [h]
    · rfl
  unfold State.send
  dsimp only
  split <;> split <;> exact counted.congr rfl

theorem State.portsKept_emit (x : Txn) : PortsKept s (s.emit x) := by
  unfold State.emit
  dsimp only
  split
  · exact .of_portSide rfl
  · split
    · split
      · exact .of_portSide rfl
      · exact .refl s
    · split
      · exact .of_portSide rfl
      · exact s.portsKept_send x

theorem State.portsKept_unstall (k : Nat) : PortsKept s (s.unstall k) := by
  unfold State.unstall
  exact (PortsKept.foldl (fun t x => t.portsKept_emit x) _ _).after rfl

theorem State.portsKept_transmit (r : Sent) : PortsKept s (s.transmit r) := by
  unfold State.transmit
  exact (State.portsKept_emit _ _).after rfl

theorem State.portsKept_request (r : Sent) : PortsKept s (s.request r) := by
  unfold State.request
  split
  · exact .of_portSide (s.portSide_holdLink _ _ _)
  · split
    · exact .of_portSide rfl
    · exact s.portsKept_transmit r

theorem State.portsKept_askPeer (core ctx peer off typ op aux len : Nat) (payload : List Byte) (link : RemoteLink) :
    PortsKept s (s.askPeer core ctx peer off typ op aux len payload link) := s.portsKept_request _

theorem State.portsKept_pump : PortsKept s s.pump := by
  unfold State.pump
  exact (PortsKept.foldl (fun t r => t.portsKept_request r) _ _).after rfl

/-! ### The write-combining buffer (R280, R281) -/

theorem State.portsKept_drainWc (core id : Nat) : PortsKept s (s.drainWc core id) := by
  unfold State.drainWc
  split
  · exact .refl s
  · split
    · exact .refl s
    · split
      · exact .of_portSide rfl
      · exact (State.portsKept_askPeer _ _ _ _ _ _ _ _ _ _ _).after rfl

theorem State.portsKept_drainAll (core : Nat) (p : WcEntry → Bool) : PortsKept s (s.drainAll core p) := by
  unfold State.drainAll
  exact .foldl (fun t e => t.portsKept_drainWc core _) _ s

theorem State.portsKept_wcRoom (core : Nat) : PortsKept s (s.wcRoom core) := by
  unfold State.wcRoom
  dsimp only
  split
  · exact .refl s
  · split
    · exact s.portsKept_drainWc _ _
    · exact .refl s

theorem State.portsKept_wcStore (core ctx peer off : Nat) (bs : List Byte) : PortsKept s (s.wcStore core ctx peer off bs).2 := by
  have full : ∀ (t : State) (id : Nat), PortsKept t
      (if (t.core core).wc.any fun e => e.id == id && e.mask == BitVec.allOnes 128 then t.drainWc core id else t) := by
    intro t id
    split
    · exact t.portsKept_drainWc core id
    · exact .refl t
  unfold State.wcStore
  dsimp only
  split
  · exact (full _ _).after rfl
  · split
    · exact s.portsKept_wcRoom core
    · exact (s.portsKept_wcRoom core).trans ((full _ _).after rfl)

/-! ### Accesses and the operand log (R190, R315 to R320) -/

theorem State.portsKept_lanePeer (w lid : Nat) (op : MemOp) (l : Lane) (peer off : Nat) :
    PortsKept s (s.lanePeer w lid op l peer off).left := by
  have drained := s.portsKept_drainAll (coreOf w) fun e => e.ctx == s.ctxOf w && e.peer == peer && e.line == off / 128
  unfold State.lanePeer
  dsimp only
  split
  · exact .refl s
  · rw [if_neg Bool.false_ne_true]
    split
    · split
      · exact .of_portSide rfl
      · split <;> exact .of_portSide rfl
    · split
      · split <;> exact s.portsKept_wcStore _ _ _ _ _
      · split
        · exact drained.congr (State.portSide_holdLink _ _ _ _)
        · exact drained.trans (State.portsKept_request _ _)

theorem State.portsKept_laneRun (w lid : Nat) (earlier : List LogEntry) (op : MemOp) (l : Lane) :
    PortsKept s (s.laneRun w lid earlier op l).left := by
  unfold State.laneRun
  split
  · exact .refl s
  · split
    · exact .of_portSide (s.portSide_laneScratch _ _ _ _)
    · split
      · exact .refl s
      · exact .of_portSide (s.portSide_lanePieces _ _ _ _ _ _)
    · dsimp only
      split
      · exact .refl s
      · generalize (if op.count = 4 then 16 else op.total) = align
        -- a maintenance word names the whole line
        split
        all_goals
          simp only [↓reduceIte, Bool.false_eq_true]
          split
          · exact .refl s
          · split
            · split
              · exact .refl s
              · split
                · exact .refl s
                · split
                  · exact .refl s
                  · split
                    · exact .refl s
                    · exact s.portsKept_lanePeer _ _ _ _ _ _
            · exact .of_portSide (s.portSide_lanePieces _ _ _ _ _ _)
end

end Sys2Proof.Machine
end

