-- ==== Sys2Proof/Proofs/PortsKeptReplay.lean ====
section
namespace Sys2Proof.Machine

/-- The machine that the watches leave of what a thread shows, be it its addresses alone or all of it (R256). -/
theorem State.portSide_presented (s : State) (c : Prop) [Decidable c] (bank : Store Watch) (w t : Nat) (pc : Word) (xs ys : List Show) :
    (if c then s.presentAll bank w t pc xs else s.presentAll bank w t pc ys).1.portSide = s.portSide := by
  split <;> simp

/-- The machine after what a thread has loaded, if anything, has arrived. -/
theorem State.portSide_taken (s : State) (w : Nat) (op : MemOp) (t : Nat) (d : Option (List Word)) (po : List Bool) :
    (match d with
      | some ws => s.arrive w op t ws po
      | none => s).portSide = s.portSide := by
  cases d with
  | none => rfl
  | some ws => exact s.portSide_arrive w op t ws po

theorem portsKept_runLanes (w lid : Nat) (earlier : List LogEntry) (op : MemOp) (replay : Bool) (ls : List Lane) (r : Run) :
    PortsKept r.s (runLanes w lid earlier op replay ls r).1.s := by
  induction ls generalizing r with
  | nil => exact .refl r.s
  | cons l rest ih =>
    have ran := r.s.portsKept_laneRun w lid earlier op l
    unfold runLanes
    split
    · rename_i hr
      rw [hr] at ran
      exact ran
    · rename_i hr
      rw [hr] at ran
      exact ran
    · dsimp only
      generalize hp : (if (r.s.presentAll (r.s.bank w) w l.t op.pc (r.s.addrShows w op l)).2.1 ≥ 2 then _ else _ : State × Nat × Nat) = p
      have shown : PortsKept r.s p.1 := by
        rw [← hp]
        exact .of_portSide (r.s.portSide_presented _ _ _ _ _ _ _)
      split
      · exact (shown.congr (by simp)).trans (ih _)
      · split
        · exact shown
        · have again := p.1.portsKept_laneRun w lid earlier op l
          split
          · rename_i hr
            rw [hr] at again
            exact shown.trans again
          · rename_i hr
            rw [hr] at again
            exact shown.trans again
          · rename_i hr
            rw [hr] at again
            exact shown.trans again
          · rename_i hr
            rw [hr] at again
            have sent := shown.trans again
            split
            · exact sent
            · split
              · split <;> exact sent.congr (by simp)
              · refine .trans (sent.congr ?_) (ih _)
                split <;> simp
          · rename_i s1 d po fl hr
            rw [hr] at again
            have performed := shown.trans again
            have taken := s1.portSide_taken w op l.t d po
            split
            · exact performed.congr taken
            · split
              · split
                · exact performed.congr ((State.portSide_haltThread _ _ _ _ _ _).trans taken)
                · exact performed.congr taken
              · refine .trans (performed.congr ?_) (ih _)
                split
                · exact (State.portSide_haltThread _ _ _ _ _ _).trans taken
                · exact taken

section
variable (s : State)

theorem State.portsKept_replayEntry (w : Nat) (e : LogEntry) : PortsKept s (s.replayEntry w e) := by
  have ran := portsKept_runLanes w e.id ((s.warp w).log.takeWhile fun x => x.id != e.id) e.op true e.lanes { s := s }
  unfold State.replayEntry
  dsimp only
  split
  · exact ran.congr (State.portSide_settleEntry _ _ _)
  · exact ran.congr rfl
  · exact ran.congr rfl
  · exact ran.congr rfl
  · exact ran.congr ((State.portSide_haltFor _ _ _ _ _ _).trans (State.portSide_settleEntry _ _ _))

theorem State.portsKept_replayWarp (w : Nat) : PortsKept s (s.replayWarp w) := by
  unfold State.replayWarp
  refine .foldl (fun t e => ?_) _ s
  split
  · exact .refl t
  · split
    · split
      · exact t.portsKept_replayEntry w _
      · exact .refl t
    · exact .refl t

theorem State.portsKept_wake (p : LogWait → Bool) : PortsKept s (s.wake p) := by
  unfold State.wake
  refine PortsKept.after (PortsKept.foldl (fun t e => ?_) _ _) rfl
  exact ((State.portsKept_replayWarp _ _).after (t.portSide_modWarp _ _)).congr (State.portSide_overdue _ _)

/-! ### Paths, ports and messages (R419, R420, R422) -/

theorem State.portsKept_flow : PortsKept s s.flow := s.portsKept_pump.trans (State.portsKept_wake _ _)

theorem State.portsKept_leavePlane (k d : Nat) : PortsKept s (s.leavePlane k d) := by
  unfold State.leavePlane
  exact (PortsKept.foldl (fun t x => t.portsKept_emit _) _ _).after rfl

theorem State.portsKept_settlePlane (k d : Nat) : PortsKept s (s.settlePlane k d) := by
  unfold State.settlePlane
  split
  · exact (State.portsKept_request _ _).after rfl
  · exact .refl s

theorem State.portSide_replane (d : Nat) : (s.replane d).portSide = s.portSide := rfl

theorem State.portsKept_remapPlane (k d : Nat) : PortsKept s (s.remapPlane k d) := by
  have remapped : ∀ planes : List Nat, (planes.foldl (fun (s : State) c => match s.standIn c d with
      | some j => { s with remap := Store.set 0 s.remap (d * 24 + c) (if j = c then 0 else j + 1) }
      | none => s) s).portSide = s.portSide :=
    fun planes => State.portSide_foldl _ (fun t c => by split <;> rfl) planes s
  unfold State.remapPlane
  dsimp only
  split
  · exact .of_portSide (remapped _)
  · refine .trans ?_ (State.portsKept_flow _)
    refine .trans ?_ ((State.portsKept_settlePlane _ k d).after (State.portSide_replane _ d))
    exact (State.portsKept_leavePlane _ k d).after (remapped _)

theorem State.portsKept_endRemaps (d : Nat) : PortsKept s (s.endRemaps d) := by
  unfold State.endRemaps
  split
  · exact .refl s
  · dsimp only
    split <;> exact .of_portSide rfl

theorem State.portsKept_endTiming (k d : Nat) : PortsKept s (s.endTiming k d) := by
  unfold State.endTiming
  dsimp only
  refine PortsKept.trans (.trans ?_ (State.portsKept_endRemaps _ d)) (State.portsKept_flow _)
  exact (PortsKept.foldl (fun t c => t.portsKept_remapPlane c d) _ _).after rfl

theorem State.portsKept_beginTiming (k d : Nat) : PortsKept s (s.beginTiming k d) := by
  unfold State.beginTiming
  dsimp only
  split <;> exact .of_portSide rfl

theorem State.portsKept_repath (old : State) (k : Nat) : PortsKept s (s.repath old k) := by
  unfold State.repath
  refine .foldl (fun t d => ?_) _ s
  dsimp only
  split
  · exact t.portsKept_beginTiming k d
  · split
    · exact t.portsKept_endTiming k d
    · exact .refl t

/-- Changing a port brings about no other change of the ports than by what is sent then. -/
theorem State.portsKept_setPort (k : Nat) (f : Port → Port) : PortsKept (s.modPort k f) (s.setPort k f) :=
  State.portsKept_repath _ s k


theorem State.portsKept_sendSpdm (k : Nat) : PortsKept s (s.sendSpdm k) := by
  unfold State.sendSpdm
  exact (State.portsKept_emit _ _).after rfl

theorem State.portsKept_askSpdm (k : Nat) (q : SpdmReq) : PortsKept (s.modPort k fun p => { p with asking := some q }) (s.askSpdm k q) :=
  State.portsKept_sendSpdm _ k

theorem State.portsKept_portError (k cause : Nat) :
    PortsKept (s.modPort k fun p => { p with state := .error, errcause := cause }) (s.portError k cause) :=
  (s.portsKept_setPort k _).trans (State.portsKept_unstall _ k)

end

end Sys2Proof.Machine
end

