-- ==== Sys2Proof/Proofs/PathDown.lean ====
section
/-! SUPPORT. What the device sends, settles and remaps leaves alone while no held access may go on (R408 to R420): memory, the warps, the
contexts, the paths and the peers that are lost. -/

namespace Sys2Proof.Machine

open Sys2Proof.Safety

/-- The machine beside its ports, what waits and goes there, what links requests in the cores, and the calendar. -/
def State.besideFabric (s : State) : State :=
  { s with cores := [], names := 0, free := 0, calendar := [], ports := [], seqs := [], sent := [], unsent := [], stalled := [], fabOut := [],
           remap := [], settling := [], busyHold := [], saves := [] }

theorem State.besideFabric_foldl {β : Type} (f : State → β → State) (h : ∀ s b, (f s b).besideFabric = s.besideFabric) (l : List β)
    (s : State) : (l.foldl f s).besideFabric = s.besideFabric :=
  foldl_keeps State.besideFabric f h l s

/-- What is asked of the machine beside the fabric holds after such a change as before. -/
theorem State.of_besideFabric {α : Sort _} {s t : State} (h : t.besideFabric = s.besideFabric) (f : State → α)
    (hf : ∀ u : State, f u.besideFabric = f u) : f t = f s := by
  rw [← hf t, h, hf s]

section
variable (s : State)

@[simp] theorem State.besideFabric_after (n : Nat) (e : Instr) : (s.after n e).besideFabric = s.besideFabric := rfl
@[simp] theorem State.besideFabric_soon (e : Instr) : (s.soon e).besideFabric = s.besideFabric := rfl

@[simp] theorem State.besideFabric_modPort (k : Nat) (f : Port → Port) : (s.modPort k f).besideFabric = s.besideFabric := rfl

theorem State.besideFabric_counted (k : Nat) (f : Port → Port) (b : Bool) :
    (if b then (s.modPort k f).soon (.keyupdate k) else s.modPort k f).besideFabric = s.besideFabric := by
  split
  · rw [State.besideFabric_soon, State.besideFabric_modPort]
  · rw [State.besideFabric_modPort]
theorem State.besideFabric_putOut (l : List Txn) : ({ s with fabOut := l } : State).besideFabric = s.besideFabric := rfl
theorem State.besideFabric_stall (l : List Txn) : ({ s with stalled := l } : State).besideFabric = s.besideFabric := rfl

@[simp] theorem State.besideFabric_send (x : Txn) : (s.send x).besideFabric = s.besideFabric := by
  unfold State.send
  dsimp only
  split
  · exact State.besideFabric_counted _ _ _ _
  · exact (State.besideFabric_putOut _ _).trans (State.besideFabric_counted _ _ _ _)

@[simp] theorem State.besideFabric_emit (x : Txn) : (s.emit x).besideFabric = s.besideFabric := by
  unfold State.emit
  dsimp only
  split
  · exact s.besideFabric_after _ _
  · split
    · split
      · exact s.besideFabric_stall _
      · rfl
    · split
      · exact s.besideFabric_stall _
      · exact s.besideFabric_send x

@[simp] theorem State.besideFabric_answer (x : Txn) (typ aux : Nat) (payload : List Byte) :
    (s.answer x typ aux payload).besideFabric = s.besideFabric := s.besideFabric_emit _

@[simp] theorem State.besideFabric_answerQuery (x : Txn) : (s.answerQuery x).besideFabric = s.besideFabric := s.besideFabric_answer _ _ _ _

@[simp] theorem State.besideFabric_transmit (r : Sent) : (s.transmit r).besideFabric = s.besideFabric := by
  unfold State.transmit
  dsimp only
  rw [State.besideFabric_emit]
  rfl

@[simp] theorem State.besideFabric_request (r : Sent) : (s.request r).besideFabric = s.besideFabric := by
  unfold State.request
  split
  · unfold State.holdLink
    dsimp only
    split <;> rfl
  · split
    · rfl
    · exact s.besideFabric_transmit r

@[simp] theorem State.besideFabric_pump : s.pump.besideFabric = s.besideFabric := by
  unfold State.pump
  exact State.besideFabric_foldl _ (fun t r => t.besideFabric_request r) _ _

/-- The end of waits that no log entry has moves no warp. -/
theorem State.besideFabric_wake (p : LogWait → Bool) (h : ∀ e ∈ s.warps, ∀ l ∈ e.2.log, p l.wait = false) :
    (s.wake p).besideFabric = s.besideFabric := by
  have none : (s.warps.filter fun e => e.2.log.any fun x => p x.wait) = [] := by
    rw [List.filter_eq_nil_iff]
    intro e he
    simpa using fun l hl => h e he l hl
  rw [State.wake, none]
  rfl

theorem State.noneReady_of_besideFabric {s t : State} (h : t.besideFabric = s.besideFabric) (hs : noneReady s) : noneReady t := by
  have warps : t.warps = s.warps := State.of_besideFabric h State.warps fun _ => rfl
  unfold noneReady
  rw [warps]
  exact hs

theorem State.besideFabric_flow (h : noneReady s) : s.flow.besideFabric = s.besideFabric := by
  refine (State.besideFabric_wake _ _ ?_).trans s.besideFabric_pump
  intro e he l hl
  exact beq_eq_false_iff_ne.mpr (State.noneReady_of_besideFabric s.besideFabric_pump h e he l hl)

theorem State.besideFabric_leavePlane (k d : Nat) : (s.leavePlane k d).besideFabric = s.besideFabric := by
  unfold State.leavePlane
  exact State.besideFabric_foldl _ (fun t x => t.besideFabric_emit _) _ _

theorem State.besideFabric_settlePlane (k d : Nat) : (s.settlePlane k d).besideFabric = s.besideFabric := by
  unfold State.settlePlane
  split
  · exact State.besideFabric_request _ _
  · rfl

/-- What waited for a failed plane goes elsewhere, the plane is settled, and what may go goes. -/
theorem State.besideFabric_leftPlane (k d : Nat) (h : noneReady s) :
    (((s.leavePlane k d).replane d).settlePlane k d).flow.besideFabric = s.besideFabric := by
  have settled := (State.besideFabric_settlePlane ((s.leavePlane k d).replane d) k d).trans (s.besideFabric_leavePlane k d)
  exact (State.besideFabric_flow _ (State.noneReady_of_besideFabric settled h)).trans settled

theorem State.besideFabric_remapPlane (k d : Nat) (h : noneReady s) : (s.remapPlane k d).besideFabric = s.besideFabric := by
  have remapped : ∀ planes : List Nat, (planes.foldl (fun (s : State) c => match s.standIn c d with
      | some j => { s with remap := Store.set 0 s.remap (d * 24 + c) (if j = c then 0 else j + 1) }
      | none => s) s).besideFabric = s.besideFabric :=
    fun planes => State.besideFabric_foldl _ (fun t c => by split <;> rfl) planes s
  unfold State.remapPlane
  dsimp only
  split
  · exact remapped _
  · refine (State.besideFabric_leftPlane _ k d ?_).trans (remapped _)
    exact State.noneReady_of_besideFabric (remapped _) h

theorem sameMemory_trans {s t u : State} (h : sameMemory s t) (g : sameMemory t u) : sameMemory s u :=
  ⟨fun core pa => (g.1 core pa).trans (h.1 core pa), fun pa => (g.2 pa).trans (h.2 pa)⟩

theorem State.sameMemory_of_besideFabric {s t : State} (h : t.besideFabric = s.besideFabric) : sameMemory s t :=
  ⟨fun core pa => State.of_besideFabric h (fun u => u.coreRead core pa) fun _ => rfl,
    fun pa => State.of_besideFabric h (fun u => u.l2Read pa) fun _ => rfl⟩
end

/-- PATH_DOWN takes the path down, and moves nothing beside the fabric. -/
theorem pathDown_holds (s : State) (k d : Nat) (hr : noneReady s) (ht : (s.path k d).timing = true) (hd : (s.path k d).down = false)
    (hp : s.pathTiming k d = true) :
    completes (.pathDown k d) s fun t => (t.path k d).down = true ∧ t.lost = s.lost ∧ sameMemory s t := by
  refine ⟨_, rfl, ?_⟩
  rw [if_pos ⟨ht, by simp [hd], hp⟩]
  generalize hs : ({ s with paths := _, queries := _ } : State) = s1
  have down : (s1.path k d).down = true := by rw [← hs]; simp [State.path]
  have remapped := s1.besideFabric_remapPlane k d (by rw [← hs]; exact hr)
  have left := (State.besideFabric_foldl _ State.besideFabric_answerQuery (s.queries.filter fun x => x.op == k && x.src == d) _).trans remapped
  refine ⟨?_, ?_, ?_⟩
  · rw [State.of_besideFabric left (fun u => u.path k d) fun _ => rfl]
    exact down
  · rw [State.of_besideFabric left State.lost fun _ => rfl, ← hs]
  · refine sameMemory_trans ?_ (State.sameMemory_of_besideFabric left)
    rw [← hs]
    exact ⟨fun _ _ => rfl, fun _ => rfl⟩

end Sys2Proof.Machine
end

