-- ==== Sys2Proof/Proofs/PeerLost.lean ====
section
/-! SUPPORT. The loss of a peer (R298, R421) while nothing else is about to go on: the peer stays lost, and every context that met the
loss notes it, whatever ends with it. -/

namespace Sys2Proof.Machine

open Sys2Proof.Safety

/-- The peers that are lost, the contexts and the warps. -/
def State.lossSide (s : State) : Store Bool × Store Ctx × Store Warp := (s.lost, s.ctxs, s.warps)

/-- A peer is lost, some contexts have noted a loss, and no access is about to go on. -/
def LossNoted (d : Nat) (cs : List Nat) (s : State) : Prop :=
  Store.get false s.lost d = true ∧ (∀ c ∈ cs, (s.ctx c).peerlost = true) ∧ noneReady s

theorem LossNoted.congr {d : Nat} {cs : List Nat} {s t : State} (h : LossNoted d cs s) (e : t.lossSide = s.lossSide) : LossNoted d cs t := by
  obtain ⟨lost, rest⟩ := Prod.mk.inj e
  obtain ⟨ctxs, warps⟩ := Prod.mk.inj rest
  obtain ⟨hl, hc, hr⟩ := h
  refine ⟨lost ▸ hl, fun c hm => ?_, fun w hw => hr w (warps ▸ hw)⟩
  rw [State.ctx, ctxs]
  exact hc c hm

theorem State.lossSide_of_besideFabric {s t : State} (h : t.besideFabric = s.besideFabric) : t.lossSide = s.lossSide :=
  State.of_besideFabric h State.lossSide fun _ => rfl

theorem State.lossSide_foldl {β : Type} (f : State → β → State) (h : ∀ s b, (f s b).lossSide = s.lossSide) (l : List β) (s : State) :
    (l.foldl f s).lossSide = s.lossSide :=
  foldl_keeps State.lossSide f h l s

theorem LossNoted.foldl {β : Type} {d : Nat} {cs : List Nat} {f : State → β → State} (l : List β)
    (h : ∀ s, ∀ b ∈ l, LossNoted d cs s → LossNoted d cs (f s b)) {s : State} (hs : LossNoted d cs s) : LossNoted d cs (l.foldl f s) :=
  List.foldlRecOn (motive := LossNoted d cs) l f hs fun t ht b hb => h t b hb ht

theorem LossNoted.flow {d : Nat} {cs : List Nat} {s : State} (h : LossNoted d cs s) : LossNoted d cs s.flow :=
  h.congr (State.lossSide_of_besideFabric (s.besideFabric_flow h.2.2))

/-! ### What ends with the peer -/

/-- A context that meets the loss notes it, and none forgets it. -/
theorem LossNoted.modCtx {d : Nat} {cs : List Nat} {s : State} (h : LossNoted d cs s) (c : Nat) (f : Ctx → Ctx)
    (hf : ∀ k, (f k).peerlost = true) : LossNoted d (c :: cs) (s.modCtx c f) := by
  obtain ⟨hl, hc, hr⟩ := h
  refine ⟨hl, fun k hk => ?_, hr⟩
  rw [State.ctx_modCtx]
  split
  · exact hf _
  · next hne => exact hc k ((List.mem_cons.mp hk).resolve_left hne)

theorem LossNoted.foldl_modCtx {d : Nat} {f : Ctx → Ctx} (hf : ∀ k, (f k).peerlost = true) (l cs : List Nat) {s : State}
    (h : LossNoted d cs s) : LossNoted d (l ++ cs) (l.foldl (fun s c => s.modCtx c f) s) := by
  induction l generalizing s cs with
  | nil => exact h
  | cons c l ih =>
    have rest := ih (c :: cs) (h.modCtx c f hf)
    exact ⟨rest.1, fun k hk => rest.2.1 k (by simpa [or_left_comm] using hk), rest.2.2⟩

theorem Store.get_eq_or_mem {α : Type} (d : α) (m : Store α) (k : Nat) : Store.get d m k = d ∨ ∃ e ∈ m, e.2 = Store.get d m k := by
  induction m with
  | nil => exact .inl rfl
  | cons e m ih =>
    rw [Store.get_cons]
    split
    · exact .inr ⟨e, .head m, rfl⟩
    · exact ih.imp_right fun ⟨x, hx, hv⟩ => ⟨x, .tail e hx, hv⟩

/-- Changing a warp but not its log makes no access ready. -/
theorem noneReady_modWarp {s : State} (h : noneReady s) (w : Nat) (f : Warp → Warp) (hf : ∀ x, (f x).log = x.log) :
    noneReady (s.modWarp w f) := by
  have own : ∀ l ∈ (s.warp w).log, l.wait ≠ .ready := by
    rcases Store.get_eq_or_mem {} s.warps w with hd | ⟨e, he, hv⟩
    · rw [State.warp, hd]
      exact fun l hl => nomatch hl
    · rw [State.warp, ← hv]
      exact h e he
  intro e he
  have he : e ∈ Store.set {} s.warps w (f (s.warp w)) := he
  unfold Store.set at he
  split at he
  · exact h e (List.mem_of_mem_filter he)
  · rcases Store.mem_insert _ _ _ _ he with rfl | hm
    · rw [hf]
      exact own
    · exact h e hm

theorem State.lossSide_engineAnswer (s : State) (g q addr : Nat) (a : Answer) : (s.engineAnswer g q addr a).lossSide = s.lossSide := by
  unfold State.engineAnswer
  split
  · rfl
  · dsimp only
    split <;> rfl

theorem State.lossSide_queueAnswer (s : State) (q addr : Nat) (a : Answer) : (s.queueAnswer q addr a).lossSide = s.lossSide := by
  unfold State.queueAnswer
  dsimp only
  split
  · rfl
  · split
    · split <;> rfl
    · rfl

/-- A request of an engine or of a queue ends with its peer. -/
theorem LossNoted.answerSent {d : Nat} {cs : List Nat} {s : State} (h : LossNoted d cs s) (r : Sent)
    (hr : (∃ g q, r.link = .engine g q) ∨ ∃ q, r.link = .queue q) : LossNoted d cs (s.answerSent r .lost) := by
  have met : ∀ b : Bool, LossNoted d cs (if b then s.metLost r.x.ctx r.x.dst else s) := by
    intro b
    split
    · obtain ⟨hl, hc, hn⟩ := h.modCtx r.x.ctx (fun k => { k with peerlost := true, lostpeer := if k.peerlost then k.lostpeer else r.x.dst })
        fun _ => rfl
      exact ⟨hl, fun c hm => hc c (.tail _ hm), hn⟩
    · exact h
  unfold State.answerSent State.endRequest
  split
  · exact h
  · rcases hr with ⟨g, q, hr⟩ | ⟨q, hr⟩ <;> rw [hr]
    · exact (met _).congr (State.lossSide_engineAnswer _ _ _ _ _)
    · exact (met _).congr (State.lossSide_queueAnswer _ _ _ _)

theorem State.lossSide_pokeColls (s : State) (p : Nat → Bool) : (s.pokeColls p).lossSide = s.lossSide := by
  unfold State.pokeColls
  refine State.lossSide_foldl _ (fun t w => ?_) _ s
  split
  · refine State.lossSide_foldl _ (fun t q => ?_) _ t
    split
    · split
      · split <;> rfl
      · rfl
    · rfl
  · rfl

theorem State.lossSide_keepNotice (s : State) (ctx : Nat) (n : Nat × Nat × Nat × Nat) : (s.keepNotice ctx n).lossSide = s.lossSide := rfl
theorem State.lossSide_dropWrites (s : State) (m : Store Core) (p : Instr → Bool) :
    (({ s with cores := m } : State).cancel p).lossSide = s.lossSide := rfl

/-- The machine with a peer marked lost, and without what it kept for that peer at the fabric (R421). -/
def State.markLost (s : State) (d : Nat) : State :=
  let mine := fun (k : Nat) => decide (k / 24 = d)
  { s with
    lost := Store.set false s.lost d true
    sent := s.sent.filter fun r => r.x.dst != d
    unsent := s.unsent.filter fun r => r.x.dst != d
    keysOut := s.keysOut.filter fun k => k.src != d
    busyHold := s.busyHold.filter fun e => !mine e.1
    settling := s.settling.filter fun e => !mine e.1
    queries := s.queries.filter fun x => x.src != d
    remap := s.remap.filter fun e => !mine e.1 }

/-- PEER_LOST where what is unanswered belongs to engines and queues, and no ticket names the peer (R421). -/
theorem lossNoted_losePeer (s : State) (d : Nat)
    (hlinks : ∀ r ∈ s.sent ++ s.unsent, r.x.dst = d → (∃ g q, r.link = .engine g q) ∨ ∃ q, r.link = .queue q)
    (htickets : ∀ c ∈ s.cores, ∀ e ∈ c.2.tickets, e.peer ≠ d) (hr : noneReady s) : LossNoted d (s.metLoss d) (s.losePeer d) := by
  have tickets : ((s.cores.flatMap fun c => (c.2.tickets.filter fun t => t.peer == d).map TicketEntry.ticket)).eraseDups = [] := by
    have : (s.cores.flatMap fun c => (c.2.tickets.filter fun t => t.peer == d).map TicketEntry.ticket) = [] := by
      simpa using htickets
    rw [this]; rfl
  unfold State.losePeer
  rw [tickets]
  dsimp only [List.foldl_nil]
  refine LossNoted.flow (LossNoted.congr ?_ (State.lossSide_pokeColls _ _))
  refine LossNoted.congr ?_ (State.lossSide_dropWrites _ _ _)
  refine LossNoted.congr ?_ (State.lossSide_foldl _ (fun t n => t.lossSide_keepNotice _ _) _ _)
  refine LossNoted.foldl _ (fun t r hm h => h.answerSent r ?_) ?_
  · obtain ⟨hm, hd⟩ := List.mem_filter.mp hm
    exact hlinks r hm (by simpa using hd)
  · refine LossNoted.foldl _ (fun t w _ h => ?_) ?_
    · obtain ⟨hl, hc, hn⟩ := h
      exact ⟨hl, hc, noneReady_modWarp hn w _ fun _ => rfl⟩
    have lost := LossNoted.foldl_modCtx (d := d) (f := fun k => { k with peerlost := true, lostpeer := if k.peerlost then k.lostpeer else d })
      (fun _ => rfl) (s.metLoss d).eraseDups [] (s := s.markLost d) ⟨by simp [State.markLost], fun _ h => (List.not_mem_nil h).elim, hr⟩
    exact ⟨lost.1, fun c hc => lost.2.1 c (by simpa using hc), lost.2.2⟩

/-- PEER_LOST: what it schedules after one peer takes nothing back. -/
theorem peerLost_holds (s : State) (d : Nat) (hdue : s.lossDue d = true)
    (hlinks : ∀ r ∈ s.sent ++ s.unsent, r.x.dst = d → (∃ g q, r.link = .engine g q) ∨ ∃ q, r.link = .queue q)
    (htickets : ∀ c ∈ s.cores, ∀ e ∈ c.2.tickets, e.peer ≠ d) (hr : noneReady s) :
    completes (.peerLost d) s fun t => Store.get false t.lost d = true ∧ ∀ c ∈ s.metLoss d, (t.ctx c).peerlost = true := by
  obtain ⟨lost, noted, -⟩ := lossNoted_losePeer s d hlinks htickets hr
  refine ⟨_, rfl, ?_⟩
  rw [if_pos hdue]
  split <;> exact ⟨lost, noted⟩

end Sys2Proof.Machine
end

