-- ==== Sys2Proof/Proofs/PortEvents.lean ====
section
/-! STATEMENT PROOFS. Registers, locks, links, sessions, paths and lost peers at the ports (R7, R409 to R425). -/

namespace Sys2Proof.Machine

open Sys2Proof.Safety

/-! ### The port that changes, and what it hears -/

/-- The changed port once what the change brings about has been sent. -/
theorem PortsKept.changed {s t : State} {k : Nat} {f : Port → Port} (h : PortsKept (s.modPort k f) t) :
    ∃ n, t.port k = { f (s.port k) with sentCnt := n } :=
  ⟨_, by rw [h.port k, State.port_modPort, if_pos rfl]⟩

/-- A port after a good word or transaction of some flits (R418, R420, R425). -/
def Port.hearing (now n : Nat) (p : Port) : Port :=
  { p with rcvdCnt := p.rcvdCnt + n, heard := now, linkup := true, quiet := false, tagFail := 0 }

theorem State.portsKept_hear (s : State) (k n : Nat) : PortsKept (s.modPort k (Port.hearing s.tick.toNat n)) (s.hear k n) := by
  unfold State.hear
  dsimp only
  generalize hs : (if (s.port k).quiet = true then s.setPort k _ else s.modPort k _) = s1
  have heard : PortsKept (s.modPort k (Port.hearing s.tick.toNat n)) s1 := by
    rw [← hs]
    split
    · exact s.portsKept_setPort k _
    · exact .refl _
  split <;> split <;> exact heard.congr rfl

/-! ### What a message to a switch leaves alone (R409, R412) -/

section
variable (s : State)

theorem State.port_send (x : Txn) {j : Nat} (h : j ≠ x.plane) : (s.send x).port j = s.port j := by
  have counted : (s.modPort x.plane fun p => { p with sentCnt := (s.port x.plane).sentCnt + txnFlits x }).port j = s.port j := by
    rw [State.port_modPort, if_neg h]
  unfold State.send
  dsimp only
  split <;> split <;> exact counted

theorem State.port_emit (x : Txn) {j : Nat} (h : j ≠ x.plane) : (s.emit x).port j = s.port j := by
  unfold State.emit
  dsimp only
  split
  · rfl
  · split
    · split <;> rfl
    · split
      · rfl
      · exact s.port_send x h

theorem State.port_sendSpdm (k : Nat) {j : Nat} (h : j ≠ k) : (s.sendSpdm k).port j = s.port j := by
  unfold State.sendSpdm
  exact State.port_emit _ _ h

theorem State.port_watchLink (k n j : Nat) : (s.watchLink k n).port j = s.port j := rfl

theorem State.port_askSpdm (k : Nat) (q : SpdmReq) {j : Nat} (h : j ≠ k) : (s.askSpdm k q).port j = s.port j := by
  rw [State.askSpdm, State.port_sendSpdm _ k h, State.port_modPort, if_neg h]

theorem State.mem_calendar_send (x : Txn) {e : Nat × Instr} (h : e ∈ s.calendar) : e ∈ (s.send x).calendar := by
  unfold State.send
  dsimp only
  split <;> split
  · exact List.mem_append_left _ h
  · exact h
  · exact List.mem_append_left _ h
  · exact h

theorem State.mem_calendar_emit (x : Txn) {e : Nat × Instr} (h : e ∈ s.calendar) : e ∈ (s.emit x).calendar := by
  unfold State.emit
  dsimp only
  split
  · exact List.mem_append_left _ h
  · split
    · split <;> exact h
    · split
      · exact h
      · exact s.mem_calendar_send x h

theorem State.mem_calendar_askSpdm (k : Nat) (q : SpdmReq) {e : Nat × Instr} (h : e ∈ s.calendar) : e ∈ (s.askSpdm k q).calendar := by
  unfold State.askSpdm State.sendSpdm
  exact State.mem_calendar_emit _ _ h
end

/-! ### Writes to the ports' registers (R424, R425) -/

theorem keepsClaims_fabidWrite (n : Nat) : KeepsClaims portClaims (.fabidWrite n) := by
  rintro s _ ⟨⟩ hu
  have unlocked : ((List.range 24).all fun k => (s.port k).state == .unlocked) = true := by simpa using hu
  refine ⟨_, rfl, ?_⟩
  rw [if_pos unlocked]
  dsimp only
  split
  · refine ⟨rfl, by simp [Store.get_erase], fun d hd => by simp [Store.get_erase, hd], fun e he => he⟩
  · refine ⟨rfl, by simp [State.after, State.at, Store.get_erase], fun d hd => by simp [State.after, State.at, Store.get_erase, hd],
      fun e he => List.mem_append_left _ he⟩

theorem keepsClaims_portcfgWrite (k : Nat) (v : Word) : KeepsClaims portClaims (.portcfgWrite k v) := by
  rintro s _ ⟨⟩ hne
  refine ⟨_, rfl, ?_⟩
  obtain ⟨n, hn⟩ := (s.portsKept_portError k 4).changed
  unfold State.writePortcfg
  dsimp only at hne ⊢
  cases hs : (s.port k).state with
  | unlocked => simp [hs]
  | locked => simp [hn]
  | run => simp [hn]
  | error => exact absurd hs hne

theorem keepsClaims_lock (k : Nat) : KeepsClaims portClaims (.lock k) := by
  rintro s _ ⟨⟩ ⟨hs, he⟩
  refine ⟨_, rfl, ?_⟩
  dsimp only at hs he ⊢
  rw [State.lockPort, if_pos ⟨hs, he⟩]
  generalize hu : (s.modPort k fun p => { p with state := .locked, heard := s.tick.toNat, quiet := false, tagFail := 0, stopped := 0 }) = u
  obtain ⟨n, hn⟩ := ((u.watchLink k 4001).portsKept_askSpdm k .getVersion).changed
  have locked : (u.watchLink k 4001).port k =
      { s.port k with state := .locked, heard := s.tick.toNat, quiet := false, tagFail := 0, stopped := 0 } := by
    rw [← hu, State.port_watchLink, State.port_modPort, if_pos rfl]
  rw [hn, locked]
  refine ⟨rfl, he, rfl, State.mem_calendar_askSpdm _ k _ ?_, fun j hj => ?_⟩
  · rw [← hu]; exact List.mem_append_right _ (.head _)
  · rw [State.port_askSpdm _ k _ hj, State.port_watchLink, ← hu, State.port_modPort, if_neg hj]

theorem keepsClaims_portStart (k : Nat) : KeepsClaims portClaims (.portStart k) := by
  rintro s _ ⟨⟩ ⟨hs, hk, ht⟩
  refine ⟨_, rfl, ?_⟩
  dsimp only at hs hk ht ⊢
  rw [State.startPort, if_pos ⟨hs, hk, ht⟩]
  generalize hu : ({ s with begun := true } : State) = u
  have started := ((u.portsKept_setPort k fun p => { p with state := .run, keyAt := p.sentCnt, keyRcvd := p.rcvdCnt }).trans
    (State.portsKept_unstall _ k)).trans (State.portsKept_flow _)
  obtain ⟨n, hn⟩ := started.changed
  rw [hn]
  subst hu
  exact ⟨rfl, rfl, rfl, started.begun⟩

theorem keepsClaims_portStop (k : Nat) : KeepsClaims portClaims (.portStop k) := by
  rintro s _ ⟨⟩ hs
  refine ⟨_, rfl, ?_⟩
  dsimp only at hs ⊢
  rw [State.stopPort, if_neg hs]
  have said : PortsKept s ((if (s.port k).session then s.sendSpdm k else s).cancel fun e => e == .keyupdate k) := by
    split
    · exact (s.portsKept_sendSpdm k).congr rfl
    · exact .of_portSide rfl
  generalize ((if (s.port k).session then s.sendSpdm k else s).cancel fun e => e == .keyupdate k) = u at said ⊢
  obtain ⟨n, hn⟩ := ((u.portsKept_setPort k fun p => { p with
    state := .unlocked, session := false, keyUpdating := false, skew := none, asking := none }).trans (State.portsKept_unstall _ k)).changed
  rw [hn, said.port k]
  exact ⟨rfl, rfl, rfl, rfl, rfl⟩

theorem keepsClaims_keyupdate (k : Nat) : KeepsClaims portClaims (.keyupdate k) := by
  rintro s _ ⟨⟩ hs
  refine ⟨_, rfl, ?_⟩
  dsimp only at hs ⊢
  rw [if_pos hs]
  obtain ⟨n, hn⟩ := ((s.modPort k fun p => { p with keyUpdating := true }).portsKept_askSpdm k .keyUpdate).changed
  rw [hn, State.port_modPort, if_pos rfl]
  refine ⟨rfl, rfl, hs, fun j hj => ?_⟩
  rw [State.port_askSpdm _ k _ hj, State.port_modPort, if_neg hj]

theorem keepsClaims_linkDown (k : Nat) : KeepsClaims portClaims (.linkDown k) := by
  rintro s _ ⟨⟩ hs
  refine ⟨_, rfl, ?_⟩
  dsimp only at hs ⊢
  rw [if_pos (show s.tick.toNat - (s.port k).heard ≥ 50000 by omega), State.port_modPort, if_pos rfl]
  refine ⟨rfl, ?_⟩
  obtain ⟨n, hn⟩ := (s.portsKept_portError k 1).changed
  split
  · rw [hn]; exact ⟨rfl, rfl⟩
  · exact ⟨rfl, rfl⟩

theorem keepsClaims_pstate (k : Nat) (map : BitVec 512) : KeepsClaims portClaims (.pstate k map) := by
  rintro s _ ⟨⟩ -
  refine ⟨_, rfl, ?_⟩
  obtain ⟨n, hn⟩ := (s.portsKept_hear k 1).changed
  obtain ⟨m, hm⟩ := ((s.hear k 1).portsKept_setPort k fun p => { p with pstate := map, pstateSeen := true }).changed
  dsimp only
  rw [hm, hn]
  exact ⟨rfl, rfl, rfl⟩

theorem keepsClaims_flitDrop (k : Nat) : KeepsClaims portClaims (.flitDrop k) := by
  rintro s _ ⟨⟩ -
  refine ⟨_, rfl, ?_⟩
  obtain ⟨n, hn⟩ := (s.portsKept_hear k 1).changed
  dsimp only
  rw [State.dropFlit, State.port_modPort, if_pos rfl, hn]
  exact ⟨rfl, rfl⟩

theorem keepsClaims_pathDown (k d : Nat) : KeepsClaims portClaims (.pathDown k d) := by
  rintro s _ ⟨⟩ ⟨hr, ht, hd, hp⟩
  exact pathDown_holds s k d hr ht hd hp

theorem keepsClaims_peerLost (d : Nat) : KeepsClaims portClaims (.peerLost d) := by
  rintro s _ ⟨⟩ ⟨hdue, hlinks, htickets, hr⟩
  exact peerLost_holds s d hdue hlinks htickets hr

theorem keepsClaims_peerLostClear (d : Nat) : KeepsClaims portClaims (.peerLostClear d) := by
  rintro s _ ⟨⟩ ⟨k, hk, hu⟩
  refine ⟨_, rfl, ?_⟩
  dsimp only
  have up : ((List.range 24).any fun k => s.pathUp k d) = true := List.any_eq_true.mpr ⟨k, List.mem_range.mpr hk, hu⟩
  rw [State.clearLost, if_pos up]
  exact ⟨by simp, fun e he => by simp [he], rfl⟩

/-! ### Link control words (R7, R418, R419) -/

/-- A collection whose every value is rewritten, where the rewriting keeps what an unlisted key reads. -/
theorem Store.get_mapVals {α : Type} [DecidableEq α] (d : α) (m : Store α) (f : Nat → α → α) (k : Nat)
    (hm : Store.wf d m = true) (hd : f k d = d) : Store.get d (Store.mapVals d m f) k = f k (Store.get d m k) := by
  obtain ⟨hp, -⟩ := (Store.wf_iff d m).mp hm
  clear hm
  induction m with
  | nil => exact hd.symm
  | cons e m ih =>
    obtain ⟨j, v⟩ := e
    obtain ⟨above, hp⟩ := List.pairwise_cons.mp hp
    have rest := ih hp
    unfold Store.mapVals at rest ⊢
    rw [List.map_cons, List.filter_cons, Store.get_cons]
    by_cases hj : j = k
    · subst hj
      split
      · rw [Store.get_cons, if_pos rfl, if_pos rfl]
      · rename_i dropped
        rw [rest, Store.get_below d m j above, hd, if_pos rfl]
        exact (by simpa using dropped : f j v = d).symm
    · split
      · rw [Store.get_cons, if_neg hj, rest]
      · exact rest

theorem State.port_moveSkews (s : State) (x : Int) (k : Nat) (h : Store.wf {} s.ports = true) :
    (s.moveSkews x).port k = { s.port k with skew := (s.port k).skew.map (· - x) } :=
  Store.get_mapVals (d := ({} : Port)) s.ports (fun _ p => { p with skew := p.skew.map (· - x) }) k h rfl

/-- The slewing of the tick changes nothing else of a port than the difference that it has heard (R7). -/
theorem State.port_slew (s : State) (k : Nat) (h : Store.wf {} s.ports = true) : ∃ d, s.slew.port k = { s.port k with skew := d } := by
  unfold State.slew
  dsimp only
  split
  · exact ⟨_, rfl⟩
  · split
    · exact ⟨_, rfl⟩
    · split
      · exact ⟨_, s.port_moveSkews 1 k h⟩
      · split
        · exact ⟨_, s.port_moveSkews (-1) k h⟩
        · exact ⟨_, rfl⟩

/-- The stops of the virtual channels after a word's STOP and GO (R419). -/
theorem stopped_after (old : BitVec 4) (stop go : Option Nat) (v : Nat) (hv : v < 4) :
    (let stopped := match stop with
      | some u => old ||| (1#4 <<< u)
      | none => old
     match go with
      | some u => stopped &&& ~~~(1#4 <<< u)
      | none => stopped).getLsbD v
      = if go = some v then false else old.getLsbD v || decide (stop = some v) := by
  have bit : ∀ u, (1#4 <<< u).getLsbD v = decide (u = v) := by
    intro u
    rw [BitVec.getLsbD_shiftLeft, BitVec.getLsbD_one]
    by_cases h : u = v
    · simp [h, hv]
    · simp [h, hv]
      omega
  have stopped : (match stop with
      | some u => old ||| (1#4 <<< u)
      | none => old).getLsbD v = (old.getLsbD v || decide (stop = some v)) := by
    cases stop <;> simp [bit]
  dsimp only
  rw [← stopped]
  cases go with
  | none => simp
  | some u =>
    dsimp only
    rw [BitVec.getLsbD_and, BitVec.getLsbD_not, bit]
    by_cases h : u = v <;> simp [h, hv]

theorem keepsClaims_linkControlWord (k : Nat) (w : LinkWord) : KeepsClaims portClaims (.linkControlWord k w) := by
  rintro s _ ⟨⟩ hw
  refine ⟨_, rfl, ?_⟩
  have heard := s.portsKept_hear k 0
  obtain ⟨n, hn⟩ := heard.changed
  have hwf := heard.wf (Store.wf_set _ _ _ _ hw)
  generalize s.hear k 0 = u at hn hwf ⊢
  dsimp only
  cases w.tagOk with
  | false =>
    simp only [Bool.not_false, ↓reduceIte, Bool.false_eq_true]
    obtain ⟨m, hm⟩ := ((u.modPort k fun p => { p with tagFail := (s.port k).tagFail + 1 }).portsKept_portError k 2).changed
    split
    · rw [hm, State.port_modPort, if_pos rfl]
      exact ⟨rfl, fun _ _ => ⟨rfl, rfl⟩⟩
    · rename_i run
      rw [hn] at run
      rw [State.port_modPort, if_pos rfl]
      exact ⟨rfl, fun hr ht => absurd ⟨hr, ht⟩ run⟩
  | true =>
    simp only [Bool.not_true, ↓reduceIte, Bool.false_eq_true]
    generalize hg : (u.modPort k fun _ => _ : State) = v
    have hv : Store.wf {} v.ports = true := hg ▸ Store.wf_set _ _ _ _ hwf
    have slewed : ∃ d, (if w.switchTick.isSome = true then v.slew else v).port k = { v.port k with skew := d } := by
      split
      · exact v.port_slew k hv
      · exact ⟨_, rfl⟩
    obtain ⟨d, hd⟩ := slewed
    rw [((State.portsKept_unstall _ k).trans (State.portsKept_flow _)).port k, hd, ← hg, State.port_modPort, if_pos rfl, hn]
    exact ⟨rfl, rfl, rfl, stopped_after _ _ _⟩

/-! ### SPDM messages (R422 to R424) -/

/-- A port that fails, once it has heard of it. -/
theorem State.port_portError (s : State) (k cause : Nat) :
    ((s.portError k cause).port k).state = .error ∧ ((s.portError k cause).port k).errcause = cause := by
  obtain ⟨n, hn⟩ := (s.portsKept_portError k cause).changed
  rw [hn]
  exact ⟨rfl, rfl⟩

theorem State.port_askSpdm_self (s : State) (k : Nat) (q : SpdmReq) :
    ∃ n, (s.askSpdm k q).port k = { s.port k with asking := some q, sentCnt := n } :=
  (s.portsKept_askSpdm k q).changed

/-- The next request of a bring-up changes what is asked, and counts what is sent. -/
theorem State.port_advanceSpdm (s : State) (k : Nat) :
    ∃ q n, (s.advanceSpdm k).port k = { s.port k with asking := q, sentCnt := n } := by
  unfold State.advanceSpdm
  split
  · rename_i q _
    exact ⟨some q, s.port_askSpdm_self k q⟩
  · exact ⟨_, _, rfl⟩

theorem keepsClaims_spdm (k : Nat) (msg : SpdmMsg) : KeepsClaims portClaims (.spdm k msg) := by
  rintro s _ ⟨⟩ hm
  refine ⟨_, rfl, ?_⟩
  obtain ⟨n, hn⟩ := (s.portsKept_hear k 1).changed
  generalize s.hear k 1 = u at hn ⊢
  have state : (u.port k).state = (s.port k).state := by rw [hn]; rfl
  have asking : (u.port k).asking = (s.port k).asking := by rw [hn]; rfl
  have updating : (u.port k).keyUpdating = (s.port k).keyUpdating := by rw [hn]; rfl
  dsimp only at hm ⊢
  rw [← state, ← asking, ← updating] at hm
  cases msg with
  | established =>
    dsimp only at hm ⊢
    rw [if_pos hm, State.port_modPort, if_pos rfl]
    exact ⟨rfl, hm.1⟩
  | failed =>
    dsimp only at hm ⊢
    rw [if_pos hm]
    exact u.port_portError k 3
  | endSession =>
    dsimp only at hm ⊢
    rw [if_pos hm]
    exact u.port_portError k 3
  | keyUpdated =>
    dsimp only at hm ⊢
    rw [if_pos hm, (State.portsKept_unstall _ k).port k, State.port_modPort, if_pos rfl]
    exact ⟨rfl, hm.1⟩
  | keyUpdateFailed =>
    dsimp only at hm ⊢
    rw [if_pos hm]
    exact u.port_portError k 5
  | algorithms a =>
    dsimp only at hm ⊢
    rw [if_pos hm]
    by_cases chosen : a = spdmChosen
    · obtain ⟨n, asked⟩ := u.port_askSpdm_self k .getDigests
      rw [if_pos chosen, if_pos chosen, State.advanceSpdm, hm.2]
      dsimp only [Option.bind_some, spdmNext]
      rw [asked]
      exact ⟨hm.1, rfl⟩
    · rw [if_neg chosen, if_neg chosen]
      exact u.port_portError k 3
  | other =>
    dsimp only
    have heard : (u.port k).heard = s.tick.toNat := by rw [hn]; rfl
    rw [← state, ← heard]
    split
    · obtain ⟨q, m, hq⟩ := u.port_advanceSpdm k
      rw [hq]
      exact ⟨rfl, rfl⟩
    · exact ⟨rfl, rfl⟩

/-! ### The family -/

/-- Settles O37: each form of the family keeps its claim. -/
theorem portEvents : Obligations.PortEvents := by
  unfold Obligations.PortEvents
  intro i
  change KeepsClaims portClaims i
  cases i with
  | fabidWrite n => exact keepsClaims_fabidWrite n
  | portcfgWrite k v => exact keepsClaims_portcfgWrite k v
  | lock k => exact keepsClaims_lock k
  | portStart k => exact keepsClaims_portStart k
  | portStop k => exact keepsClaims_portStop k
  | keyupdate k => exact keepsClaims_keyupdate k
  | linkControlWord k w => exact keepsClaims_linkControlWord k w
  | linkDown k => exact keepsClaims_linkDown k
  | spdm k msg => exact keepsClaims_spdm k msg
  | pstate k map => exact keepsClaims_pstate k map
  | flitDrop k => exact keepsClaims_flitDrop k
  | pathDown k d => exact keepsClaims_pathDown k d
  | peerLost d => exact keepsClaims_peerLost d
  | peerLostClear d => exact keepsClaims_peerLostClear d
  | _ => rintro s p ⟨⟩

end Sys2Proof.Machine
end

