-- ==== Sys2Proof/Proofs/FirmwareEvents.lean ====
section
/-! STATEMENT PROOFS. Module reset, images, the tick load, attestation, the stop tick and the core dump (R7, R432, R441, R442, R469 to
R475). -/

namespace Sys2Proof.Machine

open Sys2Proof.Safety

/-! ### Images (R469, R470, R475) -/

theorem keepsClaims_moduleReset : KeepsClaims firmwareClaims .moduleReset := by
  rintro s _ ⟨⟩ -
  refine ⟨_, rfl, ?_⟩
  dsimp only
  cases s.flash with
  | none => exact ⟨rfl, rfl, rfl, rfl, rfl, rfl, rfl, by rintro img ⟨⟩⟩
  | some i =>
    dsimp only
    split
    · rename_i ok
      refine ⟨rfl, rfl, rfl, rfl, rfl, rfl, rfl, ?_⟩
      rintro img ⟨⟩
      rw [if_pos ok]
      exact ⟨rfl, rfl, rfl⟩
    · rename_i bad
      refine ⟨rfl, rfl, rfl, rfl, rfl, rfl, rfl, ?_⟩
      rintro img ⟨⟩
      rw [if_neg bad]
      exact ⟨rfl, rfl⟩

theorem keepsClaims_recoveryImage (img : FwImage) : KeepsClaims firmwareClaims (.recoveryImage img) := by
  rintro s _ ⟨⟩ recovering
  refine ⟨_, rfl, ?_⟩
  dsimp only at recovering ⊢
  by_cases ok : s.imageOk img = true
  · rw [if_pos ⟨recovering, ok⟩, if_pos ok]
    rfl
  · rw [if_neg (fun h => ok h.2), if_neg ok]

theorem keepsClaims_firmwareUpdate (img : FwImage) : KeepsClaims firmwareClaims (.firmwareUpdate img) := by
  rintro s _ ⟨⟩ running
  refine ⟨_, rfl, ?_⟩
  dsimp only at running ⊢
  rw [running, if_neg Bool.false_ne_true]
  split <;> rfl

/-! ### The tick (R7, R432) -/

theorem keepsClaims_hocpTickLoad (v : DWord) : KeepsClaims firmwareClaims (.hocpTickLoad v) := by
  rintro s _ ⟨⟩ may
  refine ⟨_, rfl, ?_⟩
  dsimp only at may ⊢
  rw [State.loadTick, if_neg (by rw [may]; exact Bool.false_ne_true)]
  refine ⟨rfl, rfl, rfl, rfl, ?_⟩
  dsimp only
  rw [List.map_map]
  refine List.map_congr_left fun e _ => ?_
  dsimp only [Function.comp_apply]
  split
  · rfl
  · split <;> rfl
  · rfl
  · rfl

theorem keepsClaims_stoptickArm (v : DWord) : KeepsClaims firmwareClaims (.stoptickArm v) := by
  rintro s _ ⟨⟩ -
  refine ⟨_, rfl, rfl, rfl, ?_, rfl⟩
  have due : max v.toNat (if s.tick.toNat ≤ v.toNat then 0 else s.tick.toNat + 1)
      = if s.tick.toNat ≤ v.toNat then v.toNat else s.tick.toNat + 1 := by
    split <;> omega
  rw [due]
  exact List.mem_append_right _ (.head _)

theorem keepsClaims_stoptick : KeepsClaims firmwareClaims .stoptick := by
  rintro s _ ⟨⟩ past
  exact ⟨_, rfl, if_pos past⟩

/-! ### Attestation (R472, R473) -/

theorem keepsClaims_attestationRequest : KeepsClaims firmwareClaims .attestationRequest := by
  rintro s _ ⟨⟩ ⟨⟨hwf, stand, -⟩, aligned, owned⟩
  refine ⟨_, rfl, ?_⟩
  dsimp only at aligned owned ⊢
  rw [if_pos ⟨aligned, owned⟩]
  generalize bytesField _ 56 8 = out
  generalize List.take 8192 _ = r
  have read : ∀ q, (s.l2Write out r).l2Read q = if out ≤ q ∧ q < out + r.length then r.getD (q - out) 0 else s.l2Read q :=
    fun q => (s.l2Read_l2Write out r stand hwf q).2
  refine ⟨rfl, rfl, fun j hj => ?_, fun pa hpa => (read pa).trans (if_neg hpa)⟩
  refine (read (out + j)).trans ?_
  rw [if_pos ⟨by omega, by omega⟩, Nat.add_sub_cancel_left]

theorem keepsClaims_attestationRequestHocp (p : Nat) (n : List Byte) : KeepsClaims firmwareClaims (.attestationRequestHocp p n) := by
  rintro s _ ⟨⟩ -
  exact ⟨_, rfl, rfl⟩

/-! ### What is resident, as the matrix engines stop and a dump looks at its pages (R247, R441) -/

/-- The warps, the workgroups and the launches. -/
def State.residents (s : State) : Store Warp × Store Workgroup × Store Launch := (s.warps, s.wgs, s.launches)

theorem State.residents_foldl {β : Type} (f : State → β → State) (h : ∀ s b, (f s b).residents = s.residents) (l : List β) (s : State) :
    (l.foldl f s).residents = s.residents :=
  foldl_keeps State.residents f h l s

theorem State.residents_of_besideL2 {s t : State} (h : t.besideL2 = s.besideL2) : t.residents = s.residents :=
  show t.besideL2.residents = s.besideL2.residents from congrArg State.residents h

theorem State.ctxOf_of_residents {s t : State} (h : t.residents = s.residents) (w : Nat) : t.ctxOf w = s.ctxOf w := by
  obtain ⟨hw, hg, hl⟩ : t.warps = s.warps ∧ t.wgs = s.wgs ∧ t.launches = s.launches := by
    simpa only [State.residents, Prod.mk.injEq] using h
  unfold State.ctxOf State.launchOf State.launch State.wg State.warp
  rw [hw, hg, hl]

section
variable (s : State)

theorem State.residents_modCore (c : Nat) (f : Core → Core) : (s.modCore c f).residents = s.residents := rfl

theorem State.residents_modTile (g n : Nat) (f : Tile → Tile) : (s.modTile g n f).residents = s.residents := rfl

theorem State.residents_countCore (ctx core id n : Nat) : (s.countCore ctx core id n).residents = s.residents := rfl

theorem State.residents_addWork (core : Nat) (x : PowerSample) : (s.addWork core x).residents = s.residents := rfl

theorem State.residents_cancel (p : Instr → Bool) : (s.cancel p).residents = s.residents := rfl

theorem State.residents_after (n : Nat) (e : Instr) : (s.after n e).residents = s.residents := rfl

theorem State.residents_kStep (core : Nat) (m : Mma) (r c : Nat) : (s.kStep core m r c).residents = s.residents := rfl

theorem State.residents_finishElem (core id r c k fuel : Nat) : (s.finishElem core id r c k fuel).residents = s.residents := by
  induction fuel generalizing s with
  | zero => rfl
  | succ fuel ih =>
    unfold State.finishElem
    split
    · rfl
    · split
      · exact (ih _).trans (s.residents_kStep _ _ _ _)
      · rfl

theorem State.residents_finishMma (core : Nat) (m : Mma) (k : Nat) : (s.finishMma core m k).residents = s.residents :=
  State.residents_foldl _ (fun t _ => State.residents_foldl _ (fun u _ => u.residents_finishElem _ _ _ _ _ _) _ t) _ s

theorem State.residents_setProg (core : Nat) (m : Mma) (k : Nat) (held : Bool) : (s.setProg core m k held).residents = s.residents := by
  unfold State.setProg
  exact State.residents_foldl _ (fun t _ => t.residents_modCore core _) _ s

theorem State.residents_checkRetire (g : Nat) : (s.checkRetire g).residents = s.residents := by
  unfold State.checkRetire
  split <;> rfl

theorem State.residents_retireMma (core : Nat) (m : Mma) : (s.retireMma core m).residents = s.residents := by
  unfold State.retireMma
  dsimp only
  rw [State.residents_checkRetire, State.residents_addWork, State.residents_countCore, State.residents_modTile, State.residents_modTile,
    State.residents_modTile, State.residents_modCore, State.residents_setProg, State.residents_finishMma]

theorem State.residents_startMmas (core : Nat) : (s.startMmas core).residents = s.residents := by
  unfold State.startMmas
  refine foldl_keeps (fun r : State × Bool => r.1.residents) _ (fun r m => ?_) _ (s, true)
  split
  · rfl
  · split
    · rw [State.residents_after, State.residents_modCore]
    · rfl

theorem State.residents_stopMmas (g : Nat) : (s.stopMmas g).residents = s.residents := by
  unfold State.stopMmas
  refine (State.residents_startMmas _ _).trans (State.residents_foldl _ (fun t m => ?_) _ s)
  dsimp only
  split
  · rw [State.residents_retireMma, State.residents_cancel]
  · rw [State.residents_addWork, State.residents_countCore, State.residents_modCore, State.residents_setProg, State.residents_finishMma,
      State.residents_cancel]

/-- A dump that knows all its pages has done no more than mark them. -/
theorem State.residents_dumpReach (w ctx : Nat) (ps : List Nat) (h : (s.dumpReach w ctx ps).1 = true) :
    (s.dumpReach w ctx ps).2.residents = s.residents := by
  induction ps generalizing s with
  | nil => rfl
  | cons p ps ih =>
    have walked := State.residents_of_besideL2 (s.besideL2_walk ctx (p * 8192) .write false none)
    unfold State.dumpReach at h ⊢
    by_cases window : p ≥ 2 ^ 36
    · rw [if_pos window] at h
      cases h
    · rw [if_neg window] at h ⊢
      split at h
      · rename_i hw
        rw [hw] at walked
        exact (ih _ h).trans walked
      · cases h
      · cases h
      · cases h
end

/-- Nothing of the contexts changes with an event that is reported. -/
theorem State.ctx_event (s : State) (p r code queue ctx warp detail : Nat) (pc : Word) (aux c : Nat) :
    (s.event p r code queue ctx warp detail pc aux).ctx c = s.ctx c :=
  show (s.event p r code queue ctx warp detail pc aux).besideL2.ctx c = s.besideL2.ctx c by rw [State.besideL2_event]

/-- A dump that is written is over (R441). -/
theorem State.ctx_writeDump (s : State) (w : Nat) {c : Nat} (hc : s.ctxOf w = c) :
    ((s.writeDump w).ctx c).dumping = false ∧ ((s.writeDump w).ctx c).dumpBad = [] ∧ ((s.writeDump w).ctx c).dumpWait = none := by
  subst hc
  unfold State.writeDump
  dsimp only
  split
  · rw [State.ctx_event, State.ctx_modCtx, if_pos rfl]
    exact ⟨rfl, rfl, rfl⟩
  · rw [State.ctx_modCtx, if_pos rfl]
    exact ⟨rfl, rfl, rfl⟩

/-- The dump, from what the stopped matrix engines leave, when all its pages are known. -/
theorem State.dump_of_reached (s : State) (w : Nat) {u : State}
    (hu : (s.ctxWgs (s.ctxOf w)).foldl (fun s g => s.stopMmas g) s = u)
    (dumping : (u.ctx (s.ctxOf w)).dumping = true) (unawaited : (u.ctx (s.ctxOf w)).dumpWait = none)
    (reached : (u.dumpReach w (s.ctxOf w) (dumpPages (u.ctx (s.ctxOf w)).dumpBad (u.dumpImage w).1)).1 = true) :
    s.dump w = (u.dumpReach w (s.ctxOf w) (dumpPages (u.ctx (s.ctxOf w)).dumpBad (u.dumpImage w).1)).2.writeDump w := by
  unfold State.dump
  dsimp only
  rw [hu, dumping, unawaited]
  dsimp only
  rw [if_pos reached]
  rfl

theorem keepsClaims_coreDumpWrite (w : Nat) : KeepsClaims firmwareClaims (.coreDumpWrite w) := by
  rintro s _ ⟨⟩ ⟨dumping, unawaited, reached⟩
  refine ⟨_, rfl, ?_⟩
  have stopped : ((s.ctxWgs (s.ctxOf w)).foldl (fun s g => s.stopMmas g) s).residents = s.residents :=
    State.residents_foldl _ (fun t g => t.residents_stopMmas g) _ s
  have looked := State.residents_dumpReach _ _ _ _ reached
  dsimp only
  rw [s.dump_of_reached w rfl dumping unawaited reached]
  exact State.ctx_writeDump _ w (State.ctxOf_of_residents (looked.trans stopped) w)

/-! ### The family -/

/-- Settles O36: each form of the family keeps its claim. -/
theorem firmwareEvents : Obligations.FirmwareEvents := by
  unfold Obligations.FirmwareEvents
  intro i
  change KeepsClaims firmwareClaims i
  cases i with
  | moduleReset => exact keepsClaims_moduleReset
  | recoveryImage img => exact keepsClaims_recoveryImage img
  | firmwareUpdate img => exact keepsClaims_firmwareUpdate img
  | hocpTickLoad v => exact keepsClaims_hocpTickLoad v
  | attestationRequest => exact keepsClaims_attestationRequest
  | attestationRequestHocp p n => exact keepsClaims_attestationRequestHocp p n
  | stoptickArm v => exact keepsClaims_stoptickArm v
  | stoptick => exact keepsClaims_stoptick
  | coreDumpWrite w => exact keepsClaims_coreDumpWrite w
  | _ => rintro s p ⟨⟩

end Sys2Proof.Machine
end

