-- ==== Sys2Proof/Proofs/WordsIssue.lean ====
section
/-! STATEMENT PROOFS. Every word goes through the shared issue, and every event answers a next state (R34, R365). -/

namespace Sys2Proof.Machine

/-- What an instruction answers: a word, as the shared issue asks, a fault without a resident warp that has a running split and a next
state with it; an event its own next state, but for the two accesses of the HOCP, which name an address. -/
inductive Meaning (s : State) : Instr → Prop
  | word {i : Instr} (encoded : encode i ≠ []) (t : State)
      (h : exec i s = if !(s.warp s.cur).resident || decide ((s.warp s.cur).run ≥ 8) then .fault .noWarp else .next t) : Meaning s i
  | event {i : Instr} (unencoded : encode i = []) (t : State) (h : exec i s = .next t) : Meaning s i
  | hocpWrite (pa : Nat) (v : Word) : Meaning s (.hocpWrite pa v)
  | hocpBlockTransfer (pa len : Nat) (data : Option (List Byte)) : Meaning s (.hocpBlockTransfer pa len data)

theorem meaning (i : Instr) (s : State) : Meaning s i := by
  cases i
  case hocpWrite pa v => exact .hocpWrite pa v
  case hocpBlockTransfer pa len data => exact .hocpBlockTransfer pa len data
  case quotaTransferComplete | longLatencyWrite | translationWalk | zeroingComplete | frespAnswer | frespKick | shootdownRequest |
    uncorrectableError | engineEntryStart | copyComplete | mmaStart | mmaComplete | collComplete | seedWrite | controlRegisterWrite |
    moduleReset | recoveryImage | hocpTickLoad | wakeWrite | launch | xcopy | xcopyComplete | signal | cond | condReread | fencePacket |
    fencePacketComplete | waitord | contract | workgroupPlace | workgroupRelease | workgroupRetire | bind | unbind | queueStop |
    queueStart | queueReset | skipOp | qcbAudit | shadowExchange | stagingComplete | loadOp | saveOp | restore | discard | queueHang |
    quiesceDone | writebackDone | zeroDone | replayDone | clusterRetentionExit | joinTimeoutExpiry | regangTimeoutExpiry |
    beatIntervalEnd | controllerStep | equinoxGrant | grantRise | grantFall | wcAgeDrain | l1DirtyAgeWriteback | powerEstimate |
    weightRefit | stepChangeRequest | stepChangeDone | pageAgeScan | usageRecordWrite | timesliceBoundary | scheduleStart |
    scheduleStop | create | update | destroy | destroyZeroingDone | resetpart | generate | zeroOp | attestationRequest |
    attestationRequestHocp | stoptickArm | stoptick | coreDumpWrite | fabidWrite | portcfgWrite | lock | portStart | portStop |
    keyupdate | peerLostClear | linkControlWord | linkDown | spdm | pstate | pathDown | peerLost | rd | rdata | wr | wrm | doneOp |
    fabricAtom | ares | ticket | busy | busyRetry | refuse | notice | noteack | planeq | planea | beatmrg | colld | systemMemoryAnswer |
    schedulerFault | parityError | evictedPageRestore | firmwareUpdate | dbgctlWrite | flitDrop =>
    exact .event rfl _ rfl
  all_goals exact .word (List.cons_ne_nil _ _) _ rfl

theorem execHocpWrite_next (pa : Nat) (v : Word) (s : State) (h : pa + 4 ≤ hbmSize) :
    exec (.hocpWrite pa v) s = .next (s.l2SetNum pa 4 v.toNat) := if_neg (by omega)

theorem execHocpWrite_fault (pa : Nat) (v : Word) (s : State) (h : hbmSize < pa + 4) : exec (.hocpWrite pa v) s = .fault .noMemory := if_pos h

theorem execHocpBlockTransfer_next (pa len : Nat) (data : Option (List Byte)) (s : State) (h : pa + len ≤ hbmSize) :
    ∃ t, exec (.hocpBlockTransfer pa len data) s = .next t := by
  have inside : ¬ pa + len > hbmSize := by omega
  cases data <;> exact ⟨_, if_neg inside⟩

theorem execHocpBlockTransfer_fault (pa len : Nat) (data : Option (List Byte)) (s : State) (h : hbmSize < pa + len) :
    exec (.hocpBlockTransfer pa len data) s = .fault .noMemory := if_pos h

theorem exec_not_refused (i : Instr) (s : State) (r : Refusal) : exec i s ≠ .refused r := by
  cases meaning i s with
  | word _ t h => rw [h]; split <;> exact nofun
  | event _ t h => rw [h]; exact nofun
  | hocpWrite pa v =>
    rcases Nat.lt_or_ge hbmSize (pa + 4) with h | h
    · rw [execHocpWrite_fault pa v s h]; exact nofun
    · rw [execHocpWrite_next pa v s h]; exact nofun
  | hocpBlockTransfer pa len data =>
    rcases Nat.lt_or_ge hbmSize (pa + len) with h | h
    · rw [execHocpBlockTransfer_fault pa len data s h]; exact nofun
    · obtain ⟨t, ht⟩ := execHocpBlockTransfer_next pa len data s h
      rw [ht]; exact nofun

/-- Settles O42: a word is an issue, which asks for a resident warp with a running split and refuses nothing; an event is a next state. -/
theorem wordsIssue : Obligations.WordsIssue := by
  unfold Obligations.WordsIssue
  refine ⟨fun i s he hr hrun => ?_, fun i s he hr => ?_, exec_not_refused, fun i s he hw hb => ?_, fun pa len v data s =>
    ⟨execHocpWrite_fault pa v s, execHocpBlockTransfer_fault pa len data s⟩⟩
  · cases meaning i s with
    | word _ t h => exact ⟨t, by rw [h, if_neg (by simp [hr]; omega)]⟩
    | event none _ _ => exact absurd none he
    | hocpWrite | hocpBlockTransfer => exact absurd rfl he
  · cases meaning i s with
    | word _ t h => rw [h, if_pos (by rcases hr with hr | hr <;> simp [hr])]
    | event none _ _ => exact absurd none he
    | hocpWrite | hocpBlockTransfer => exact absurd rfl he
  · cases meaning i s with
    | word some _ _ => exact absurd he some
    | event _ t h => exact ⟨t, h⟩
    | hocpWrite pa v => exact ⟨_, execHocpWrite_next pa v s (hw pa v rfl)⟩
    | hocpBlockTransfer pa len data => exact execHocpBlockTransfer_next pa len data s (hb pa len data rfl)

end Sys2Proof.Machine
end

