-- ==== Sys2Proof/Proofs/PrivilegeTraps.lean ====
section
/-! STATEMENT PROOFS. PRIV is not the first check of a word (R28, R102, R103). -/

namespace Sys2Proof.Machine

open Sys2Proof.Safety

/-- One thread of a warp of context 16, which belongs to no partition and so is at level U. -/
def userDesk : State :=
  { State.reset with
    warps := [(0, { resident := true, nsregs := 64, splits := [(0, { state := .running, m := 1, a := 1 })] })]
    launches := [(0, { ctx := 16 })] }

theorem userDesk_issuing : issuing userDesk = true ∧ trapsPlainly userDesk 0x02 = true ∧ userDesk.levelOf (userDesk.ctxOf userDesk.cur) = 0 := by
  decide

/-- PMREAD into a pair that starts at s63, which R28 bars from every level, traps ILLEGAL, as R103 puts it before PRIV. -/
theorem pmreadPastS63_traps_illegal : ∃ t, exec (.pmread false 63 0) userDesk = .next t ∧ (me t).trap.cause = 0x01 :=
  ⟨_, rfl, by decide⟩

/-- Refutes O44: PMREAD of level 1 into the pair at s63, issued at level U, names a register past s63, which is ILLEGAL before PRIV. -/
theorem not_privilegeTraps : ¬ Obligations.PrivilegeTraps := by
  unfold Obligations.PrivilegeTraps
  rintro ⟨-, words⟩
  obtain ⟨issues, plain, low⟩ := userDesk_issuing
  obtain ⟨t, ht, cause⟩ := pmreadPastS63_traps_illegal
  obtain ⟨u, hu, entered, -⟩ := words (.pmread false 63 0) userDesk _ (.inr (.inl rfl)) (by rw [low]; decide) issues plain
  obtain ⟨-, priv, -⟩ := entered
  rw [ht] at hu
  cases hu
  exact absurd (cause.symm.trans priv) (by decide)

end Sys2Proof.Machine
end

