-- ==== Sys2Proof/Proofs/Retired.lean ====
section
/-! SUPPORT. What the end of a word leaves of the state: the slot and slice it counts, and the books of its warp (R19, R366, R433). -/

namespace Sys2Proof.Machine

open Sys2Proof.Safety

/-! ### Slots, slices and counts -/

/-- Only deficits, slots and a context's event counts differ. -/
structure Counted (s t : State) : Prop where
  rest : t = { s with slices := t.slices, slots := t.slots, ctxs := t.ctxs }
  ctx : ∀ c, t.ctx c = { s.ctx c with counts := (t.ctx c).counts }

namespace Counted

theorem refl (s : State) : Counted s s := ⟨rfl, fun _ => rfl⟩

theorem trans {s t u : State} (h : Counted s t) (k : Counted t u) : Counted s u where
  rest := k.rest.trans (by rw [h.rest])
  ctx c := by rw [k.ctx c, h.ctx c]

theorem warps {s t : State} (h : Counted s t) : t.warps = s.warps := by rw [h.rest]

theorem count (s : State) (ctx core slice id n : Nat) : Counted s (s.count ctx core slice id n) where
  rest := rfl
  ctx c := by
    unfold State.count
    rw [State.ctx_modCtx]
    split
    · subst c; rfl
    · rfl

theorem countSlot (s : State) (k : Nat) (ctx : Option Nat) (leaf : Nat) : Counted s (s.countSlot k ctx leaf) := by
  unfold State.countSlot
  extract_lets s1
  have h1 : Counted s s1 := ⟨rfl, fun _ => rfl⟩
  cases ctx with
  | none => exact h1
  | some c => exact h1.trans (Counted.count s1 c (k / 16) (k % 16) leaf 1)

theorem countOps (s : State) (w vl sr : Nat) : Counted s (s.countOps w vl sr) := ⟨rfl, fun _ => rfl⟩

theorem charge (s : State) (w leaf n pipe : Nat) : Counted s (s.charge w leaf n pipe) := by
  unfold State.charge
  extract_lets ctx k sl s1
  have h1 : Counted s s1 := ⟨rfl, fun _ => rfl⟩
  split
  · exact h1.trans (Counted.countSlot _ _ _ _)
  · exact h1.trans (Counted.countSlot _ _ _ _)

end Counted

/-- The issue of a word sets when its warp issues next, and counts its slot. -/
theorem issued_counted (s : State) (w : Nat) (f : Form) (x0 : Warp) (sk : Bool) :
    Counted (s.modWarp w fun x => { x with readyAt := s.now w + max 1 (f.cycles x0).2 }) (s.issued w f x0 sk) :=
  (Counted.countOps _ _ _ _).trans (Counted.charge _ _ _ _ _)

theorem State.warp_issued (s : State) (w : Nat) (f : Form) (x0 : Warp) (sk : Bool) (v : Nat) :
    (s.issued w f x0 sk).warp v = if v = w then { s.warp w with readyAt := s.now w + max 1 (f.cycles x0).2 } else s.warp v := by
  rw [State.warp, (issued_counted s w f x0 sk).warps]
  exact State.warp_modWarp s w _ v

/-- Whatever has become of the warps, the rest of the state is as it was before the words' books. -/
theorem Counted.of_warps {u v t : State} (h : Counted v t) (hv : v = { u with warps := v.warps }) :
    t = { u with warps := t.warps, slices := t.slices, slots := t.slots, ctxs := t.ctxs } := by
  rw [h.rest, hv]

theorem State.modWarp_rest (u : State) (w : Nat) (f : Warp → Warp) : u.modWarp w f = { u with warps := (u.modWarp w f).warps } := rfl

/-! ### Retirement -/

/-- `t` is what the retirement of a word of warp `w` makes of the state `u` that its effect gives; `y` is the warp moved past the word. -/
structure Retired (u t : State) (w : Nat) (y : Warp) : Prop where
  rest : t = { u with warps := t.warps, slices := t.slices, slots := t.slots, ctxs := t.ctxs }
  ctx : ctxsKept u t
  other : ∀ v, v ≠ w → t.warp v = u.warp v
  self : t.warp w = { y with rc := y.rc + 1, resumeFrom := 0, readyAt := (t.warp w).readyAt, park := (t.warp w).park }

/-- A refused entry stands or falls with the log and the running split's trap mode (R319, R328). -/
theorem Warp.refusedEntry_congr {x y : Warp} (hl : y.log = x.log) (ht : y.cur.trapm = x.cur.trapm) : y.refusedEntry = x.refusedEntry := by
  unfold Warp.refusedEntry Warp.refusedOf Warp.mayRaise
  rw [hl, ht]

theorem Warp.trapm_setPc (x : Warp) (pc : Word) : (x.setPc pc).cur.trapm = x.cur.trapm := by
  unfold Warp.cur
  rw [Warp.run_setPc]
  unfold Warp.setPc Warp.setCur Warp.cur
  split
  · rw [Warp.split_setSplit, if_pos rfl]
  · rfl

theorem Warp.log_setPc (x : Warp) (pc : Word) : (x.setPc pc).log = x.log := by
  unfold Warp.setPc Warp.setCur
  split <;> rfl

theorem Warp.resumeFrom_setPc (x : Warp) (pc : Word) : (x.setPc pc).resumeFrom = x.resumeFrom := by
  unfold Warp.setPc Warp.setCur
  split <;> rfl

/-- The books of a word that has placed its split: the state's other parts are as its effect left them. -/
theorem retire_retired (u : State) (w : Nat) (f : Form) (x0 : Warp) (sk m : Bool) (hc : f.check = none)
    (hlog : (u.warp w).refusedEntry = none) (hres : (u.warp w).resumeFrom = x0.resumeFrom) :
    Retired u ((u.retire w f x0 sk).marked w m) w (u.warp w) := by
  rw [retire_eq u w f x0 sk hc]
  generalize hv : (u.modWarp w fun x => { x with
    rc := x.rc + 1, resumeFrom := if x.resumeFrom = x0.resumeFrom then 0 else x.resumeFrom
    park := if f.m && !x.pending.isEmpty then x.park.marked else x.park }) = v
  have rest : v = { u with warps := v.warps } := by rw [← hv]; exact State.modWarp_rest u w _
  have books := issued_counted v w f x0 sk
  have self : (v.issued w f x0 sk).warp w = { v.warp w with readyAt := v.now w + max 1 (f.cycles x0).2 } := by
    rw [State.warp_issued, if_pos rfl]
  have other : ∀ k, k ≠ w → (v.issued w f x0 sk).warp k = v.warp k := fun k hk => by rw [State.warp_issued, if_neg hk]
  generalize v.issued w f x0 sk = t at books self other
  have hctx : ctxsKept u t := fun c => (books.ctx c).trans (by rw [State.ctx_modWarp, ← hv, State.ctx_modWarp])
  have hrest : t = { u with warps := t.warps, slices := t.slices, slots := t.slots, ctxs := t.ctxs } :=
    Counted.of_warps books ((State.modWarp_rest v w _).trans (by rw [rest]))
  subst hv
  simp only [State.warp_modWarp, if_true, hres] at self other
  rw [marked_clean t w m ((Warp.refusedEntry_congr (by rw [self]) (by rw [self]; rfl)).trans hlog)]
  exact ⟨hrest, hctx, fun k hk => (other k hk).trans (if_neg hk), by rw [self]⟩

theorem Retired.of_advance {u t : State} {w len : Nat} {y : Warp}
    (h : Retired (u.advance w len) t w y) : Retired u t w y where
  rest := h.rest
  ctx := h.ctx
  other v hv := (h.other v hv).trans (by rw [advance_eq, State.warp_modWarp, if_neg hv])
  self := h.self

/-- A word whose effect is done moves past itself and retires. -/
theorem conclude_done_retired (u : State) (w : Nat) (s : State) (f : Form) (x0 : Warp) (hc : f.check = none)
    (hlog : (u.warp w).refusedEntry = none) (hres : (u.warp w).resumeFrom = x0.resumeFrom) :
    Retired u (s.conclude w f x0 (.done u)) w ((u.warp w).setPc ((u.warp w).pc + BitVec.ofNat 32 f.len)) := by
  have moved : (u.advance w f.len).warp w = (u.warp w).setPc ((u.warp w).pc + BitVec.ofNat 32 f.len) := by
    rw [advance_eq, State.warp_modWarp, if_pos rfl]
  have h := retire_retired (u.advance w f.len) w f x0 false f.m hc
    (by rw [moved, Warp.refusedEntry_congr (Warp.log_setPc _ _) (Warp.trapm_setPc _ _), hlog])
    (by rw [moved, Warp.resumeFrom_setPc, hres])
  rw [moved] at h
  exact h.of_advance

/-! ### The issue of a word -/

/-- What `issuing` asks. -/
structure Issuing (s : State) : Prop where
  resident : (s.warp s.cur).resident = true
  run : (s.warp s.cur).run < 8
  unwatched : ∀ e ∈ s.bank s.cur, e.2.armed = false
  log : (s.warp s.cur).refusedEntry = none
  whole : (s.warp s.cur).rest = []

theorem issuing_iff (s : State) : issuing s = true ↔ Issuing s := by
  unfold issuing Safety.unwatched
  simp only [Bool.and_eq_true, decide_eq_true_eq, Option.isNone_iff_eq_none, List.isEmpty_iff, List.all_eq_true, Bool.not_eq_true']
  exact ⟨fun ⟨⟨⟨⟨a, b⟩, c⟩, d⟩, e⟩ => ⟨a, b, c, d, e⟩, fun h => ⟨⟨⟨⟨h.resident, h.run⟩, h.unwatched⟩, h.log⟩, h.whole⟩⟩

section
variable (s : State) (w : Nat)

@[simp] theorem State.cur_noted : (s.noted w).cur = s.cur := rfl
@[simp] theorem State.ctx_noted (c : Nat) : (s.noted w).ctx c = s.ctx c := rfl
@[simp] theorem State.levelOf_noted (c : Nat) : (s.noted w).levelOf c = s.levelOf c := rfl
@[simp] theorem State.now_noted (v : Nat) : (s.noted w).now v = s.now v := rfl

theorem State.warp_noted_self : (s.noted w).warp w = (s.warp w).noted (s.now w) := by simp

/-- A change of a warp that leaves its workgroup alone leaves every warp its context. -/
theorem State.ctxOf_modWarp (f : Warp → Warp) (h : (f (s.warp w)).wg = (s.warp w).wg) (v : Nat) : (s.modWarp w f).ctxOf v = s.ctxOf v := by
  have hv : ((s.modWarp w f).warp v).wg = (s.warp v).wg := by
    rw [State.warp_modWarp]
    split
    · rename_i e; rw [e, h]
    · rfl
  unfold State.ctxOf State.launchOf
  rw [hv]
  rfl

@[simp] theorem State.ctxOf_noted (v : Nat) : (s.noted w).ctxOf v = s.ctxOf v := State.ctxOf_modWarp s w _ rfl v

@[simp] theorem State.hazardChecks_noted (v : Nat) : (s.noted w).hazardChecks v = s.hazardChecks v := by
  unfold State.hazardChecks
  rw [State.ctxOf_noted]
  rfl

end

/-- The checks of an issuing word, at the level of its warp. -/
def State.checks (s : State) (g : Form) : Option (Nat × Nat × DWord) :=
  g.fails ((me s).noted (s.now s.cur)) (s.levelOf (s.ctxOf s.cur)) (s.hazardChecks s.cur)

section
variable {s : State} {form : Warp → Form} {body : Nat → State → Act} (hi : issuing s = true)
include hi

/-- A word issues with the form that its warp gives it. -/
theorem issue_checked : issue form body s = .next ((s.noted s.cur).checked s.cur (form ((me s).noted (s.now s.cur))) body) := by
  obtain ⟨hres, hrun, hwatch, -, -⟩ := (issuing_iff s).mp hi
  exact issue_plain form body s hres hrun hwatch

theorem rest_noted : ((s.noted s.cur).warp s.cur).rest = [] := by
  rw [State.warp_noted_self]
  exact ((issuing_iff s).mp hi).whole

omit hi in
theorem fails_noted (g : Form) : g.fails ((s.noted s.cur).warp s.cur) ((s.noted s.cur).levelOf ((s.noted s.cur).ctxOf s.cur))
    ((s.noted s.cur).hazardChecks s.cur) = s.checks g := by
  rw [State.warp_noted_self, State.levelOf_noted, State.ctxOf_noted, State.hazardChecks_noted]
  rfl

/-- A word that passes its checks ends as its effect does. -/
theorem issue_performs {g : Form} (hg : form ((me s).noted (s.now s.cur)) = g) (hf : s.checks g = none)
    (hv : g.vector = false ∨ (me s).active ≠ 0) (hc : g.check = none) :
    issue form body s = .next ((s.noted s.cur).conclude s.cur g ((me s).noted (s.now s.cur)) (body s.cur (s.noted s.cur))) := by
  rw [issue_checked hi, hg, checked_performs _ _ _ _ (rest_noted hi) ((fails_noted g).trans hf) ?_ hc, State.warp_noted_self]
  rw [State.warp_noted_self]
  exact hv

/-- A word whose effect is done retires. -/
theorem issue_done {g : Form} {u : State} (hg : form ((me s).noted (s.now s.cur)) = g) (hf : s.checks g = none)
    (hv : g.vector = false ∨ (me s).active ≠ 0) (hc : g.check = none) (hb : body s.cur (s.noted s.cur) = .done u)
    (hlog : (u.warp s.cur).refusedEntry = (me s).refusedEntry) (hres : (u.warp s.cur).resumeFrom = (me s).resumeFrom) :
    ∃ t, issue form body s = .next t ∧ Retired u t s.cur ((u.warp s.cur).setPc ((u.warp s.cur).pc + BitVec.ofNat 32 g.len)) := by
  refine ⟨_, issue_performs hi hg hf hv hc, ?_⟩
  rw [hb]
  exact conclude_done_retired u _ _ g _ hc (hlog.trans ((issuing_iff s).mp hi).log) hres

/-- A vector word with no active thread retires as skipped. -/
theorem issue_skips {g : Form} (hg : form ((me s).noted (s.now s.cur)) = g) (hf : s.checks g = none) (hv : g.vector = true)
    (ha : (me s).active = 0) (hc : g.check = none) :
    ∃ t, issue form body s = .next t
      ∧ Retired (s.noted s.cur) t s.cur (((s.noted s.cur).warp s.cur).setPc (((s.noted s.cur).warp s.cur).pc + BitVec.ofNat 32 g.len)) := by
  have moved : ((s.noted s.cur).advance s.cur g.len).warp s.cur =
      ((me s).noted (s.now s.cur)).setPc ((me s).pc + BitVec.ofNat 32 g.len) := by
    rw [advance_eq, State.warp_modWarp, if_pos rfl, State.warp_noted_self]
    rfl
  refine ⟨_, issue_checked hi, ?_⟩
  rw [hg, checked_skips _ _ _ _ (rest_noted hi) ((fails_noted g).trans hf) hv (by rw [State.warp_noted_self]; exact ha),
    State.warp_noted_self]
  have h := retire_retired ((s.noted s.cur).advance s.cur g.len) s.cur g ((me s).noted (s.now s.cur)) true g.m hc
    (by
      rw [moved, Warp.refusedEntry_congr (Warp.log_setPc _ _) (Warp.trapm_setPc _ _)]
      exact (Warp.refusedEntry_congr rfl rfl).trans ((issuing_iff s).mp hi).log)
    (by rw [moved, Warp.resumeFrom_setPc])
  rw [moved] at h
  have pc : ((me s).noted (s.now s.cur)).pc = (me s).pc := rfl
  rw [pc]
  exact h.of_advance

/-- A word that fails a check traps before its effect. -/
theorem issue_fails {g : Form} {c t : Nat} {a : DWord} (hg : form ((me s).noted (s.now s.cur)) = g) (hf : s.checks g = some (c, t, a)) :
    issue form body s = .next (((s.noted s.cur).trapAt s.cur c t a ((me s).resumedPart c)).issued s.cur g
      ((me s).noted (s.now s.cur)) false) := by
  rw [issue_checked hi, hg, checked_fails _ _ _ _ c t a (rest_noted hi) ((fails_noted g).trans hf), State.warp_noted_self]
  rfl

end

/-! ### What a word leaves alone, seen from the state before it -/

theorem movedTo_setPc {x y : Warp} (hs : y.splits = x.splits) (pc : Word) (z : Warp) (hz : z.splits = (y.setPc pc).splits)
    (hx : x.run < 8) : movedTo x z pc ∧ z.cur.a = x.cur.a := by
  have split : ∀ e, y.split e = x.split e := fun e => by unfold Warp.split; rw [hs]
  have run : y.run = x.run := Warp.run_congr _ _ fun e _ => by rw [split]
  have zrun : z.run = x.run :=
    (Warp.run_congr _ _ fun e _ => by unfold Warp.split; rw [hz]).trans ((Warp.run_setPc y pc).trans run)
  have zsplit : ∀ e, z.split e = if e = x.run then { x.cur with pc := pc } else x.split e := fun e => by
    have : z.split e = (y.setPc pc).split e := by unfold Warp.split; rw [hz]
    rw [this]
    unfold Warp.setPc Warp.setCur Warp.cur
    rw [if_pos (by omega), Warp.split_setSplit, run, split, split]
  have zcur : z.cur = { x.cur with pc := pc } := by
    unfold Warp.cur
    rw [zrun, zsplit, if_pos rfl]
    rfl
  refine ⟨⟨zrun, fun e he => by rw [zsplit, if_neg he], ?_⟩, ?_⟩
  · rw [zcur]
  · rw [zcur]

/-- A state that differs in the parts that every word keeps books in reads the same memory. -/
theorem sameMemory_of_books {s t : State} (h : t = { s with warps := t.warps, slices := t.slices, slots := t.slots, ctxs := t.ctxs }) :
    sameMemory s t := by
  rw [h]
  exact ⟨fun _ _ => rfl, fun _ => rfl⟩

theorem Warp.setPc_rest (x : Warp) (pc : Word) : x.setPc pc = { x with splits := (x.setPc pc).splits } := by
  unfold Warp.setPc Warp.setCur
  split <;> rfl

theorem Warp.pc_congr {x y : Warp} (h : y.splits = x.splits) : y.pc = x.pc := by
  have split : ∀ e, y.split e = x.split e := fun e => by unfold Warp.split; rw [h]
  have run : y.run = x.run := Warp.run_congr _ _ fun e _ => by rw [split]
  unfold Warp.pc Warp.cur
  rw [run, split]

/-- The effect of a word so far is on the warp that issues it. -/
structure OnWarp (s u : State) : Prop where
  rest : u = { s with warps := u.warps }
  other : ∀ v, v ≠ s.cur → u.warp v = s.warp v

namespace OnWarp

variable {s u : State}

theorem refl (s : State) : OnWarp s s := ⟨rfl, fun _ _ => rfl⟩

theorem modWarp (h : OnWarp s u) (f : Warp → Warp) : OnWarp s (u.modWarp s.cur f) where
  rest := (State.modWarp_rest u s.cur f).trans (by rw [h.rest])
  other v hv := by rw [State.warp_modWarp, if_neg hv, h.other v hv]

theorem noted (s : State) : OnWarp s (s.noted s.cur) := (refl s).modWarp _

theorem cur (h : OnWarp s u) : u.cur = s.cur := by rw [h.rest]

theorem ctx (h : OnWarp s u) (c : Nat) : u.ctx c = s.ctx c := by rw [h.rest]; rfl

end OnWarp

namespace Retired

section
variable {s u t : State} {y : Warp}

theorem onlyWarp (h : Retired u t s.cur y) (k : OnWarp s u) : onlyWarp s t :=
  ⟨h.rest.trans (by rw [k.rest]), fun v hv => (h.other v hv).trans (k.other v hv), fun c => (h.ctx c).trans (by rw [k.ctx])⟩

theorem sameMemory (h : Retired u t s.cur y) (k : OnWarp s u) : sameMemory s t := sameMemory_of_books (h.onlyWarp k).1

theorem me_eq (h : Retired u t s.cur y) (k : OnWarp s u) : me t = t.warp s.cur := by
  rw [me, (h.onlyWarp k).1]

end

section
variable {s u t : State} {n : Word} (h : Retired u t s.cur ((u.warp s.cur).setPc ((u.warp s.cur).pc + n))) (k : OnWarp s u)
include h k

/-- The warp after a word whose effect is done. -/
theorem books : me t = { u.warp s.cur with
    rc := (u.warp s.cur).rc + 1, resumeFrom := 0, readyAt := (me t).readyAt, park := (me t).park, splits := (me t).splits } := by
  rw [h.me_eq k]
  have self := h.self
  rw [Warp.setPc_rest] at self
  have splits : (t.warp s.cur).splits = ((u.warp s.cur).setPc ((u.warp s.cur).pc + n)).splits := by rw [self]
  rw [← splits] at self
  exact self

theorem moved (hs : (u.warp s.cur).splits = (me s).splits) (hr : (me s).run < 8) :
    movedTo (me s) (me t) ((me s).pc + n) ∧ (me t).cur.a = (me s).cur.a := by
  refine movedTo_setPc hs _ (me t) ?_ hr
  rw [h.me_eq k, h.self, Warp.pc_congr hs]

end

end Retired

end Sys2Proof.Machine
end

