-- ==== Sys2Proof/Proofs/SharedChecks.lean ====
section
/-! SUPPORT. The shared checks of a word in the terms of the statements: windows, even pairs, tags and hazards (R28, R29, R79, R93, R103). -/

namespace Sys2Proof.Machine

open Sys2Proof.Safety

/-- Lists of the same members agree on what all of them meet. -/
theorem all_congr_mem {α : Type} {l k : List α} (h : ∀ a, a ∈ l ↔ a ∈ k) (p : α → Bool) : l.all p = k.all p := by
  rw [Bool.eq_iff_iff, List.all_eq_true, List.all_eq_true]
  exact forall_congr' fun a => by rw [h a]

theorem any_congr_mem {α : Type} {l k : List α} (h : ∀ a, a ∈ l ↔ a ∈ k) (p : α → Bool) : l.any p = k.any p := by
  rw [Bool.eq_iff_iff, List.any_eq_true, List.any_eq_true]
  exact exists_congr fun a => by rw [h a]

/-- A form that asks for nothing but the registers, pairs and tags it names. -/
structure Form.Plain (g : Form) : Prop where
  illegal : g.illegal = false
  level : g.level = 0
  idle : g.idle = false
  check : g.check = none
  also : g.also = []
  late : ∀ x, g.late x = false

/-- The form names these registers and pairs. -/
structure Form.Names (g : Form) (ss vs even : List Nat) : Prop where
  ss : ∀ r, r ∈ g.s ↔ r ∈ ss
  vs : ∀ r, r ∈ g.v ↔ r ∈ vs
  even : ∀ r, r ∈ g.even ↔ r ∈ even

namespace Form.Names

variable {g : Form} {ss vs even : List Nat} (h : g.Names ss vs even)
include h

theorem pastLast : (g.s.any fun r => decide (r ≥ 64)) = ss.any fun r => decide (64 ≤ r) := any_congr_mem h.ss _

theorem inRange (x : Warp) : g.inRange x = inWindow x ss vs := by
  unfold Form.inRange inWindow
  rw [all_congr_mem h.ss, all_congr_mem h.vs]

theorem odd : (g.even.any fun r => r % 2 == 1) = !even.all fun r => r % 2 == 0 := by
  rw [any_congr_mem h.even, List.not_all_eq_any_not]
  refine congrArg even.any (funext fun r => ?_)
  rcases Nat.mod_two_eq_zero_or_one r with e | e <;> simp [e]

theorem hazard (s : State) (n : Nat) (ha : g.also = []) :
    (s.hazardChecks s.cur && g.hazard ((me s).noted n)) = !settled s ss vs := by
  have member : ∀ (l k : List Nat), (∀ r, r ∈ l ↔ r ∈ k) → ∀ r, l.contains r = k.contains r := fun l k hlk r => by
    rw [Bool.eq_iff_iff, List.contains_iff_mem, List.contains_iff_mem, hlk]
  unfold Form.hazard settled
  rw [Bool.not_or, Bool.not_not, List.not_all_eq_any_not]
  refine congrArg (s.hazardChecks s.cur && ·) (congrArg (List.any (me s).pending) (funext fun p => ?_))
  rw [List.not_all_eq_any_not]
  refine congrArg p.regs.any (funext fun r => ?_)
  rw [member _ _ h.ss, member _ _ h.vs, ha]
  cases p.scalar
  · simp
  · have low : decide (r ≥ 61) = !decide (r < 61) := by rw [← decide_not]; exact decide_eq_decide.mpr (by omega)
    rw [if_pos rfl, if_pos rfl, low, Bool.not_and, Bool.not_not]

end Form.Names

/-! ### Words that fail a check -/

/-- The form names what a scalar word of level U names. -/
structure Form.NamesScalar (g : Form) (p : ScalarSpec) : Prop extends g.Plain, g.Names (p.writes ++ p.reads) p.vs p.even where
  vector : g.vector = false
  src : g.src = []
  tags : ∀ x, g.tags x = true

/-- The form names what a vector word of level U names, and accepts the same tags. -/
structure Form.NamesVector (g : Form) (s : State) (p : VectorSpec) : Prop
    extends g.Plain, g.Names p.sreads (p.writes.map Prod.fst ++ p.vreads) p.even where
  vector : g.vector = true
  len : g.len = p.len
  src : ∀ r, r ∈ g.src ↔ r ∈ p.vreads
  tags : g.tags ((me s).noted (s.now s.cur)) = p.tagsOk

/-- The first check that a scalar word fails is the breach of its names. -/
theorem Form.NamesScalar.checks_of_breach {g : Form} {p : ScalarSpec} (h : g.NamesScalar p) {s : State} {c : Nat} (hb : p.breach s = some c) :
    s.checks g = some (c, (me s).reportSlot, 0) := by
  have names := h.toNames
  unfold ScalarSpec.breach at hb
  unfold State.checks Form.fails
  rw [h.illegal, h.level, h.vector, h.idle, h.src, h.tags, h.late, names.pastLast, names.inRange, names.odd, names.hazard s _ h.also]
  have window : inWindow ((me s).noted (s.now s.cur)) (p.writes ++ p.reads) p.vs = inWindow (me s) (p.writes ++ p.reads) p.vs := rfl
  have slot : ((me s).noted (s.now s.cur)).reportSlot = (me s).reportSlot := rfl
  rw [window, slot]
  simp only [Bool.false_or, Nat.not_lt_zero, if_false, Bool.false_and, Bool.or_false, Bool.false_eq_true, List.any_nil, Bool.not_true]
  grind

section
variable {g : Form} {s : State} {p : VectorSpec} (h : g.NamesVector s p)
include h

/-- The checks of a vector word down to HAZARD, in the words of the statement. -/
theorem Form.NamesVector.checks_eq : s.checks g =
    if p.sreads.any fun r => decide (64 ≤ r) then some (0x01, (me s).reportSlot, 0)
    else if !inWindow (me s) p.sreads (p.writes.map Prod.fst ++ p.vreads) then some (0x03, (me s).reportSlot, 0)
    else if !p.even.all (fun r => r % 2 == 0) then some (0x01, (me s).reportSlot, 0)
    else if (me s).active = 0 then none
    else if !p.vreads.all (fun r => (me s).tag r != 0) then some (0x04, (me s).reportSlot, 0)
    else if !p.tagsOk then some (0x05, (me s).reportSlot, 0)
    else if !settled s p.sreads (p.writes.map Prod.fst ++ p.vreads) then some (0x06, (me s).reportSlot, 0)
    else (g.poison ((me s).noted (s.now s.cur))).map fun q => (0x11, q.1, q.2) := by
  have names := h.toNames
  have none : (g.src.any fun r => ((me s).noted (s.now s.cur)).tag r == 0) = !p.vreads.all fun r => (me s).tag r != 0 := by
    rw [any_congr_mem h.src, List.not_all_eq_any_not]
    exact congrArg p.vreads.any (funext fun r => by rw [bne, Bool.not_not]; rfl)
  unfold State.checks Form.fails
  rw [h.illegal, h.level, h.vector, h.idle, h.tags, h.late, names.pastLast, names.inRange, names.odd, names.hazard s _ h.also, none]
  have window : inWindow ((me s).noted (s.now s.cur)) p.sreads (p.writes.map Prod.fst ++ p.vreads) =
    inWindow (me s) p.sreads (p.writes.map Prod.fst ++ p.vreads) := rfl
  have slot : ((me s).noted (s.now s.cur)).reportSlot = (me s).reportSlot := rfl
  have act : ((me s).noted (s.now s.cur)).active = (me s).active := rfl
  rw [window, slot, act]
  simp only [Bool.false_or, Nat.not_lt_zero, if_false, Bool.true_and, Bool.or_false, Bool.false_eq_true, beq_iff_eq]

theorem Form.NamesVector.checks_of_breach {c : Nat} (hb : p.breach s = some c) : s.checks g = some (c, (me s).reportSlot, 0) := by
  unfold VectorSpec.breach at hb
  rw [h.checks_eq]
  grind

/-- With no active thread a vector word whose names are in order fails no check. -/
theorem Form.NamesVector.checks_of_inactive (ha : (me s).active = 0) (hb : p.breach s = none) : s.checks g = none := by
  unfold VectorSpec.breach at hb
  rw [h.checks_eq]
  grind

end

end Sys2Proof.Machine
end

