-- ==== Sys2Proof/Proofs/TrapEntry.lean ====
section
/-! SUPPORT. What a trap before any effect does to its warp, and what it leaves of the state (R133, R137). -/

namespace Sys2Proof.Machine

open Sys2Proof.Safety

/-! ### Parting from a gang (R38) -/

/-- A warp but for its gang. -/
def Warp.ungang (x : Warp) : Warp := { x with gang := 0, gangPath := [] }

/-- The state but for the gangs of its warps. -/
structure Parted (s t : State) : Prop where
  rest : t = { s with warps := t.warps }
  warp : ∀ v, (t.warp v).ungang = (s.warp v).ungang

namespace Parted

theorem refl (s : State) : Parted s s := ⟨rfl, fun _ => rfl⟩

theorem trans {s t u : State} (h : Parted s t) (k : Parted t u) : Parted s u :=
  ⟨k.rest.trans (by rw [h.rest]), fun v => (k.warp v).trans (h.warp v)⟩

theorem leave (s : State) (w : Nat) : Parted s (s.modWarp w fun x => { x with gang := 0, gangPath := [] }) where
  rest := rfl
  warp v := by
    rw [State.warp_modWarp]
    split
    · subst v; rfl
    · rfl

theorem foldl (l : List (Nat × Warp)) (s : State) :
    Parted s (l.foldl (fun s e => s.modWarp e.1 fun x => { x with gang := 0, gangPath := [] }) s) := by
  induction l generalizing s with
  | nil => exact refl s
  | cons e l ih => exact (leave s e.1).trans (ih _)

end Parted

/-- Leaving a gang changes no warp but for its gang, and nothing else. -/
theorem partGang_parted (s : State) (w : Nat) : Parted s (s.partGang w) := by
  unfold State.partGang
  extract_lets g s1 others
  split
  · exact Parted.refl s
  · split
    · exact (Parted.leave s w).trans (Parted.foldl others s1)
    · exact Parted.leave s w

/-! ### The running entry -/

/-- The running entry is the first that is RUNNING. -/
theorem Warp.run_eq_iff (x : Warp) (r : Nat) (hr : r < 8) :
    x.run = r ↔ (x.split r).state = .running ∧ ∀ e, e < r → (x.split e).state ≠ .running := by
  have found : x.run = r ↔ (List.range 8).find? (fun e => (x.split e).state == .running) = some r := by
    unfold Warp.run
    rw [List.head?_filter]
    cases (List.range 8).find? fun e => (x.split e).state == .running with
    | none => simp; omega
    | some e => simp
  rw [found, List.find?_range_eq_some]
  simp [hr]

/-! ### The split table of a trap -/

/-- Some entries of the table have been suspended, the running one not among them (R133). -/
structure Suspends (x y : Warp) (r : Nat) (es : List Nat) : Prop where
  rest : y = { x with splits := y.splits, trap := { x.trap with susp := y.trap.susp } }
  running : y.split r = x.split r
  others : ∀ e, e ∉ es → y.split e = x.split e
  mask : ∀ e, (y.split e).m = (x.split e).m
  state : ∀ e, e ∈ es → e ≠ r → (y.split e).state = .suspended
  done : ∀ e, (x.split e).state = .suspended → (y.split e).state = .suspended

/-- Suspends one entry, as R133 does for each. -/
def Warp.suspendOne (r : Nat) (x : Warp) (e : Nat) : Warp :=
  if e = r ∨ (x.split e).state = .suspended then x
  else
    (x.setSplit e (if (x.split e).keptCode = 2 then { x.split e with state := .suspended, joinid := 0xFFF, timeout := 0, due := false }
      else { x.split e with state := .suspended })).suspCode e (x.split e).keptCode

theorem Warp.suspendOthers_eq (x : Warp) :
    x.suspendOthers = x.valid.foldl (Warp.suspendOne x.run) { x with trap := { x.trap with susp := 0 } } := rfl

theorem suspendOne_suspends (x : Warp) (r e : Nat) : Suspends x (x.suspendOne r e) r [e] := by
  unfold Warp.suspendOne
  split
  · rename_i h
    refine ⟨rfl, rfl, fun _ _ => rfl, fun _ => rfl, fun k hk hkr => ?_, fun _ h => h⟩
    obtain rfl := List.mem_singleton.mp hk
    exact h.resolve_left hkr
  · rename_i h
    rw [not_or] at h
    generalize hp : (if (x.split e).keptCode = 2 then { x.split e with state := .suspended, joinid := 0xFFF, timeout := 0, due := false }
      else { x.split e with state := .suspended } : Split) = p
    have pm : p.m = (x.split e).m := by rw [← hp]; split <;> rfl
    have ps : p.state = .suspended := by rw [← hp]; split <;> rfl
    have split : ∀ k, ((x.setSplit e p).suspCode e (x.split e).keptCode).split k = if k = e then p else x.split k :=
      fun k => Warp.split_setSplit x e p k
    refine ⟨rfl, ?_, fun k hk => ?_, fun k => ?_, fun k hk _ => ?_, fun k hk => ?_⟩
    · rw [split, if_neg (Ne.symm h.1)]
    · rw [split, if_neg (fun c => hk (List.mem_singleton.mpr c))]
    · rw [split]
      split
      · subst k; exact pm
      · rfl
    · rw [split, if_pos (List.mem_singleton.mp hk)]
      exact ps
    · rw [split]
      split
      · exact ps
      · exact hk

theorem suspendFold_suspends (r : Nat) (es : List Nat) (x : Warp) : Suspends x (es.foldl (Warp.suspendOne r) x) r es := by
  induction es generalizing x with
  | nil => exact ⟨rfl, rfl, fun _ _ => rfl, fun _ => rfl, fun _ h => by simp at h, fun _ h => h⟩
  | cons e es ih =>
    have h := suspendOne_suspends x r e
    have k := ih (x.suspendOne r e)
    rw [List.foldl_cons]
    generalize es.foldl (Warp.suspendOne r) (x.suspendOne r e) = y at k
    refine ⟨?_, k.running.trans h.running, fun f hf => ?_, fun f => (k.mask f).trans (h.mask f), fun f hf hfr => ?_,
      fun f hf => k.done f (h.done f hf)⟩
    · rw [k.rest, h.rest]
    · rw [List.mem_cons, not_or] at hf
      exact (k.others f hf.2).trans (h.others f (fun c => hf.1 (List.mem_singleton.mp c)))
    · by_cases hfe : f ∈ es
      · exact k.state f hfe hfr
      · rw [k.others f hfe]
        exact h.state f (List.mem_singleton.mpr ((List.mem_cons.mp hf).resolve_right hfe)) hfr

/-- The warp in its handler: the running entry at TVEC in trap mode, every other valid entry SUSPENDED. -/
structure Handles (x y : Warp) (tvec : Word) : Prop where
  run : y.run = x.run
  cur : y.cur = { x.cur with trapm := true, pc := tvec, joinid := 0xFFF, timeout := 0 }
  others : ∀ e, e < 8 → e ≠ x.run → (x.split e).state ≠ .invalid → (y.split e).state = .suspended ∧ (y.split e).m = (x.split e).m

theorem enterTrap_handles (x : Warp) (tvec : Word) (c f : Nat) (a : DWord) (first : Word) (part : Bool) (pc : Word) (hr : x.run < 8) :
    Handles x (x.enterTrap tvec c f a first part pc) tvec := by
  unfold Warp.enterTrap
  extract_lets k src w1 w2
  have h : Suspends { w1 with trap := { w1.trap with susp := 0 } } w2 x.run x.valid := suspendFold_suspends _ _ _
  have hx : (x.split x.run).state = .running ∧ ∀ e, e < x.run → (x.split e).state ≠ .running := (Warp.run_eq_iff x x.run hr).mp rfl
  have running : w2.split x.run = x.split x.run := h.running
  have run2 : w2.run = x.run := by
    refine (Warp.run_eq_iff w2 x.run hr).mpr ⟨by rw [running]; exact hx.1, fun e he hs => ?_⟩
    by_cases hv : e ∈ x.valid
    · rw [h.state e hv (by omega)] at hs
      cases hs
    · exact hx.2 e he ((congrArg Split.state (h.others e hv)).symm.trans hs)
  have split : ∀ e, (w2.setCur { k with trapm := true, pc := tvec, joinid := 0xFFF, timeout := 0 }).split e =
      if e = x.run then { k with trapm := true, pc := tvec, joinid := 0xFFF, timeout := 0 } else w2.split e := fun e => by
    unfold Warp.setCur
    rw [if_pos (by omega), Warp.split_setSplit, run2]
  have run : (w2.setCur { k with trapm := true, pc := tvec, joinid := 0xFFF, timeout := 0 }).run = x.run := by
    refine (Warp.run_eq_iff _ x.run hr).mpr ⟨by rw [split, if_pos rfl]; exact hx.1, fun e he => ?_⟩
    rw [split, if_neg (by omega)]
    exact ((Warp.run_eq_iff w2 x.run hr).mp run2).2 e he
  refine ⟨run, ?_, fun e he hne hs => ?_⟩
  · unfold Warp.cur
    rw [run, split, if_pos rfl]
    rfl
  · have hv : e ∈ x.valid := List.mem_filter.mpr ⟨List.mem_range.mpr he, by simpa using hs⟩
    rw [split, if_neg hne]
    exact ⟨h.state e hv hne, h.mask e⟩

theorem enterTrap_rest {x y : Warp} {tvec : Word} {c f : Nat} {a : DWord} {first : Word} {part : Bool} {pc : Word}
    (hy : x.enterTrap tvec c f a first part pc = y) :
    y = { x with
      trap := { x.trap with pc := pc, cause := BitVec.ofNat 8 c, second := 0, addr := a, first := first, slot := BitVec.ofNat 7 f
                            partialBit := part, mask := x.cur.a, mode := x.mode, susp := y.trap.susp }
      mode := 0, resumeFrom := 0, splits := y.splits } := by
  unfold Warp.enterTrap at hy
  extract_lets k src w1 w2 at hy
  have h : Suspends { w1 with trap := { w1.trap with susp := 0 } } w2 x.run x.valid := suspendFold_suspends _ _ _
  have rest := h.rest
  subst hy
  unfold Warp.setCur
  split
  · unfold Warp.setSplit
    rw [rest]
  · rw [rest]

/-! ### A word that traps -/

theorem Parted.warp_eq {s t : State} (h : Parted s t) (v : Nat) :
    t.warp v = { s.warp v with gang := (t.warp v).gang, gangPath := (t.warp v).gangPath } :=
  calc t.warp v = { (t.warp v).ungang with gang := (t.warp v).gang, gangPath := (t.warp v).gangPath } := rfl
    _ = _ := by rw [h.warp v]; rfl

/-- A change of one warp, its parting from its gang and the slot of its word: memory is as before, and the warp but for its gang and its
next issue. -/
theorem parted_issued (u : State) (w : Nat) (f : Warp → Warp) (g : Form) (x0 : Warp) :
    let t := ((u.modWarp w f).partGang w).issued w g x0 false
    t = { u with warps := t.warps, slices := t.slices, slots := t.slots, ctxs := t.ctxs }
    ∧ t.warp w = { f (u.warp w) with gang := (t.warp w).gang, gangPath := (t.warp w).gangPath, readyAt := (t.warp w).readyAt } := by
  intro t
  have parted := partGang_parted (u.modWarp w f) w
  have books := issued_counted ((u.modWarp w f).partGang w) w g x0 false
  have self : t.warp w = { ((u.modWarp w f).partGang w).warp w with readyAt := (t.warp w).readyAt } := by
    have h := State.warp_issued ((u.modWarp w f).partGang w) w g x0 false w
    rw [if_pos rfl] at h
    rw [show t.warp w = _ from h]
  have hp := parted.warp_eq w
  rw [State.warp_modWarp, if_pos rfl] at hp
  have rest : (u.modWarp w f).partGang w = { u with warps := ((u.modWarp w f).partGang w).warps } :=
    parted.rest.trans (by rw [State.modWarp_rest])
  change Counted _ t at books
  generalize t = t at books self
  generalize (u.modWarp w f).partGang w = v at books self hp rest
  refine ⟨books.of_warps ((State.modWarp_rest v w _).trans (by rw [rest])), ?_⟩
  rw [self, hp]

/-- The warp of a trap taken at once, told from the warp before it. -/
theorem entered_of_warp {s t : State} {c f : Nat} {a : DWord} {part : Bool} {pc tvec : Word} {now : Nat} {y : Warp}
    (hr : (me s).run < 8) (hv : (s.ctx (s.ctxOf s.cur)).tvec = tvec) (hy : ((me s).noted now).enterTrap tvec c f a 0 part pc = y)
    (ht : me t = { y with park := .none, gang := (me t).gang, gangPath := (me t).gangPath, readyAt := (me t).readyAt }) :
    entered s t c f a part pc := by
  have handles : Handles ((me s).noted now) y tvec := hy ▸ enterTrap_handles _ tvec c f a 0 part pc hr
  have rest := enterTrap_rest hy
  have run : (me t).run = y.run := by rw [ht]; rfl
  have cur : (me t).cur = { (me s).cur with trapm := true, pc := tvec, joinid := 0xFFF, timeout := 0 } := by
    rw [ht]
    exact handles.cur
  have split : ∀ e, (me t).split e = y.split e := fun e => by rw [ht]; rfl
  have fields : me t = { me s with
      trap := { (me s).trap with pc := pc, cause := BitVec.ofNat 8 c, second := 0, addr := a, first := 0, slot := BitVec.ofNat 7 f
                                 partialBit := part, mask := (me s).cur.a, mode := (me s).mode, susp := (me t).trap.susp }
      mode := 0, resumeFrom := 0, splits := (me t).splits, park := .none, tried := false, issuedAt := now, issuedPc := (me s).pc
      gang := (me t).gang, gangPath := (me t).gangPath, readyAt := (me t).readyAt } := by
    have susp : (me t).trap.susp = y.trap.susp := by rw [ht]
    have splits : (me t).splits = y.splits := by rw [ht]
    rw [susp, splits]
    refine ht.trans ?_
    rw [rest]
    rfl
  have readS : ∀ r, (me t).readS r = (me s).readS r := fun r => by
    have sregs : (me t).sregs = (me s).sregs := by rw [fields]
    unfold Warp.readS
    rw [cur, sregs]
  refine ⟨?_, ?_, ?_, ?_, ?_, ?_, ?_, ?_, ?_, ?_, run.trans handles.run, ?_, ?_, ?_, ?_, fun e he hne hs => ?_, fun r _ => readS r, ?_⟩
  case refine_11 => exact (congrArg Split.pc cur).trans hv.symm
  case refine_12 => rw [cur]
  case refine_13 => rw [cur]
  case refine_14 => rw [cur]
  case refine_15 => rw [split]; exact handles.others e he hne hs
  case refine_16 => rw [fields]; exact ⟨rfl, rfl, rfl, rfl, rfl⟩
  all_goals rw [fields]

theorem noted_rest {s t : State} {w : Nat} (h : t = { s.noted w with warps := t.warps, slices := t.slices, slots := t.slots, ctxs := t.ctxs }) :
    t = { s with warps := t.warps, slices := t.slices, slots := t.slots, ctxs := t.ctxs } := h

/-- A word that fails a shared check traps before any effect: into its handler at once, or after the results that its warp awaits. -/
theorem completes_trap {i : Instr} {s : State} {form : Warp → Form} {body : Nat → State → Act} {g : Form} {c f : Nat}
    (hi : issuing s = true) (hx : exec i s = issue form body s) (hg : form ((me s).noted (s.now s.cur)) = g)
    (hf : s.checks g = some (c, f, 0)) (hc : c ≠ 0x0B) :
    (trapsPlainly s c = true → completes i s fun t => trapped s t c f) ∧
    (trapsWaiting s = true → completes i s fun t => waitsToTrap s t c f) := by
  have hrun := ((issuing_iff s).mp hi).run
  have hnext := hx.trans (issue_fails (body := body) hi hg hf)
  have pcAt : (s.noted s.cur).trapAt s.cur c f 0 ((me s).resumedPart c) =
      (s.noted s.cur).takeTrap s.cur c f 0 0 ((me s).resumedPart c) (me s).pc := by
    unfold State.trapAt
    rw [if_neg hc, State.warp_noted_self]
    rfl
  rw [pcAt] at hnext
  constructor
  · intro ht
    obtain ⟨⟨⟨⟨h1, h2⟩, h3⟩, h4⟩, h5⟩ : ((((me s).cur.trapm = false ∧ (me s).step = none) ∧ (me s).awaits = false) ∧
        (s.ctx (s.ctxOf s.cur)).dumps c = false) ∧ (s.ctx (s.ctxOf s.cur)).trTraps = false := by
      simpa [trapsPlainly] using ht
    rw [takeTrap_plain _ _ _ _ _ _ _ _ (by rw [State.warp_noted_self]; exact h2) (by rw [State.warp_noted_self]; exact h1)
      (by rw [State.ctxOf_noted]; exact h5) (by rw [State.ctxOf_noted]; exact h4) (by rw [State.warp_noted_self]; exact h3)] at hnext
    have h := parted_issued (s.noted s.cur) s.cur (fun x =>
      { x.enterTrap ((s.noted s.cur).ctx ((s.noted s.cur).ctxOf s.cur)).tvec c f 0 0 ((me s).resumedPart c) (me s).pc with park := .none })
      g ((me s).noted (s.now s.cur))
    refine ⟨_, hnext, ?_⟩
    generalize State.issued _ _ _ _ _ = t at h ⊢
    obtain ⟨rest, self⟩ := h
    have cur : t.cur = s.cur := by rw [rest]; rfl
    rw [State.warp_noted_self, State.ctxOf_noted, State.ctx_noted] at self
    generalize hy : ((s.warp s.cur).noted (s.now s.cur)).enterTrap _ _ _ _ _ _ _ = y at self
    have hme : me t = { y with park := .none, gang := (me t).gang, gangPath := (me t).gangPath, readyAt := (me t).readyAt } := by
      rw [me, cur]
      exact self
    exact ⟨entered_of_warp hrun rfl hy hme, sameMemory_of_books (noted_rest rest)⟩
  · intro ht
    obtain ⟨⟨h1, h2⟩, h3⟩ : ((me s).cur.trapm = false ∧ (me s).step = none) ∧ (me s).awaits = true := by
      simpa [trapsWaiting] using ht
    rw [takeTrap_waits _ _ _ _ _ _ _ _ (by rw [State.warp_noted_self]; exact h2) (by rw [State.warp_noted_self]; exact h1)
      (by rw [State.warp_noted_self]; exact h3)] at hnext
    have h := parted_issued (s.noted s.cur) s.cur (fun x => { x with park := .trapEntry c f 0 0 ((me s).resumedPart c) (me s).pc })
      g ((me s).noted (s.now s.cur))
    refine ⟨_, hnext, ?_⟩
    generalize State.issued _ _ _ _ _ = t at h ⊢
    obtain ⟨rest, self⟩ := h
    have cur : t.cur = s.cur := by rw [rest]; rfl
    rw [State.warp_noted_self] at self
    have hme : me t = t.warp s.cur := by rw [me, cur]
    have kept : regsKept (me s) (me t) := by
      rw [hme, self]
      exact ⟨fun _ _ => rfl, rfl, rfl, rfl, rfl, rfl, rfl, rfl⟩
    refine ⟨?_, ?_, ?_, ?_, ?_, kept, sameMemory_of_books (noted_rest rest)⟩ <;> rw [hme, self] <;> rfl

end Sys2Proof.Machine
end

