-- ==== Sys2Proof/Proofs/IntegerChecks.lean ====
section
/-! STATEMENT PROOFS. The integer words name what the rules say, so that their checks trap in order and a vector word with no active
thread is skipped (R18, R28, R29, R79, R93, R103). -/

namespace Sys2Proof.Machine

open Sys2Proof.Safety

/-! ### What each shape of word names -/

/-- The word goes through the shared issue under a form that names what a scalar word names. -/
def NamesScalar (i : Instr) (p : ScalarSpec) : Prop :=
  ∃ g : Form, g.NamesScalar p ∧ ∀ s, ∃ body, exec i s = issue (fun _ => g) body s

/-- The same of a vector word. -/
def NamesVector (i : Instr) (s : State) (p : VectorSpec) : Prop :=
  ∃ g : Form, g.NamesVector s p ∧ ∃ body, exec i s = issue (fun _ => g) body s

/-- A scalar form that only reads its sources and writes its destinations. -/
theorem scalForm_names {m : Bool} {d src : List Nat} {p : ScalarSpec} {even : List Nat} {len cost : Nat}
    (hs : ∀ r, r ∈ d ++ src ↔ r ∈ p.writes ++ p.reads) (hv : p.vs = []) (he : ∀ r, r ∈ even ↔ r ∈ p.even) :
    Form.NamesScalar { scalForm m d src with len := len, even := even, cost := cost } p :=
  { illegal := rfl, level := rfl, idle := rfl, check := rfl, also := rfl, late := fun _ => rfl, vector := rfl, src := rfl
    tags := fun _ => rfl, ss := hs, vs := fun r => by rw [hv]; rfl, even := he }

/-- A vector form that only reads its sources and writes its destinations. -/
theorem vecForm_names {m : Bool} {s : State} {d src ss : List Nat} {p : VectorSpec} {even : List Nat} {len factor : Nat}
    {tags : Warp → Bool} {reads : List Src} {uni : Option (List Nat)}
    (hs : ∀ r, r ∈ ss ↔ r ∈ p.sreads) (hv : ∀ r, r ∈ d ++ src ↔ r ∈ p.writes.map Prod.fst ++ p.vreads)
    (he : ∀ r, r ∈ even ↔ r ∈ p.even) (hl : len = p.len) (hr : ∀ r, r ∈ src ↔ r ∈ p.vreads)
    (ht : tags ((me s).noted (s.now s.cur)) = p.tagsOk) :
    Form.NamesVector { vecForm m d src with s := ss, len := len, even := even, factor := factor, tags := tags, reads := reads, uni := uni } s p :=
  { illegal := rfl, level := rfl, idle := rfl, check := rfl, also := rfl, late := fun _ => rfl, vector := rfl, len := hl, src := hr
    tags := ht, ss := hs, vs := hv, even := he }

section
variable {i : Instr} {m : Bool} {d a b : BitVec 6} {cost : Nat} {v : State → List Word}

theorem alu2S_names {f : Word → Word → Word} (h : ∀ s, exec i s = alu2S cost m d a b f s) :
    NamesScalar i { writes := [d.toNat], reads := [a.toNat, b.toNat], value := v } :=
  ⟨_, scalForm_names (fun _ => Iff.rfl) rfl (fun _ => Iff.rfl), fun s => ⟨_, h s⟩⟩

theorem alu1S_names {f : Word → Word} (h : ∀ s, exec i s = alu1S m d a f s) :
    NamesScalar i { writes := [d.toNat], reads := [a.toNat], value := v } :=
  ⟨_, scalForm_names (fun _ => Iff.rfl) rfl (fun _ => Iff.rfl), fun s => ⟨_, h s⟩⟩

theorem litS_names {f : Word → Word} (h : ∀ s, exec i s = litS m d a f s) :
    NamesScalar i { writes := [d.toNat], reads := [a.toNat], len := 2, value := v } :=
  ⟨_, scalForm_names (fun _ => Iff.rfl) rfl (fun _ => Iff.rfl), fun s => ⟨_, h s⟩⟩

theorem alu3S_names {f : Word → Word → Word → Word} (h : ∀ s, exec i s = alu3S m d a b f s) :
    NamesScalar i { writes := [d.toNat], reads := [a.toNat, b.toNat, d.toNat], value := v } :=
  ⟨_, scalForm_names (by simp) rfl (fun _ => Iff.rfl), fun s => ⟨_, h s⟩⟩

theorem wideS_names {f : Word → Word → DWord} (h : ∀ s, exec i s = wideS m d a b f s) :
    NamesScalar i { writes := pair d, reads := [a.toNat, b.toNat], even := [d.toNat], value := v } :=
  ⟨_, scalForm_names (fun _ => Iff.rfl) rfl (fun _ => Iff.rfl), fun s => ⟨_, h s⟩⟩

theorem pairS_names {f : DWord → DWord → DWord} (h : ∀ s, exec i s = p64S cost true true m d a b f s) :
    NamesScalar i { writes := pair d, reads := pair a ++ pair b, even := [a.toNat, b.toNat, d.toNat], value := v } :=
  ⟨_, scalForm_names (fun _ => Iff.rfl) rfl (fun _ => Iff.rfl), fun s => ⟨_, h s⟩⟩

theorem pairByS_names {f : DWord → DWord → DWord} (h : ∀ s, exec i s = p64S cost false true m d a b f s) :
    NamesScalar i { writes := pair d, reads := pair a ++ [b.toNat], even := [a.toNat, d.toNat], value := v } :=
  ⟨_, scalForm_names (fun _ => Iff.rfl) rfl (fun _ => Iff.rfl), fun s => ⟨_, h s⟩⟩

theorem cmp64Scalar_names {f : DWord → DWord → DWord} (h : ∀ s, exec i s = p64S cost true false m d a b f s) :
    NamesScalar i { writes := [d.toNat], reads := pair a ++ pair b, even := [a.toNat, b.toNat], value := v } :=
  ⟨_, scalForm_names (fun _ => Iff.rfl) rfl (fun _ => Iff.rfl), fun s => ⟨_, h s⟩⟩

theorem leaScalar_names {k : BitVec 3} (h : ∀ s, exec i s = execLeaScalar m k d a b s) :
    NamesScalar i { writes := pair d, reads := pair a ++ [b.toNat], even := [a.toNat, d.toNat], value := v } :=
  ⟨_, scalForm_names (fun _ => Iff.rfl) rfl (fun r => by simp [or_comm]), fun s => ⟨_, h s⟩⟩

end

section
variable {i : Instr} {s : State} {m : Bool} {d a b : BitVec 6} {factor tag : Nat} {v : Nat → List Word}

theorem alu2V_names {f : Word → Word → Word} (h : ∀ s, exec i s = alu2V factor tag m d a b f s) :
    NamesVector i s { vreads := [a.toNat, b.toNat], writes := [(d.toNat, tag)], tagsOk := [a.toNat, b.toNat].all fun r => is32 ((me s).tag r)
                      uni := some [a.toNat, b.toNat], value := v } :=
  ⟨_, vecForm_names (fun _ => Iff.rfl) (fun _ => Iff.rfl) (fun _ => Iff.rfl) rfl (fun _ => Iff.rfl) rfl, _, h s⟩

theorem fieldV_names {f : Word → Word → Word} (h : ∀ s, exec i s = fieldV tag m d a b f s) :
    NamesVector i s { vreads := [a.toNat, b.toNat], writes := [(d.toNat, tag)], tagsOk := [a.toNat, b.toNat].all fun r => is32 ((me s).tag r)
                      uni := some [a.toNat, b.toNat], value := v } :=
  ⟨_, vecForm_names (fun _ => Iff.rfl) (fun _ => Iff.rfl) (fun _ => Iff.rfl) rfl (fun _ => Iff.rfl) rfl, _, h s⟩

theorem alu1V_names {f : Word → Word} (h : ∀ s, exec i s = alu1V tag m d a f s) :
    NamesVector i s { vreads := [a.toNat], writes := [(d.toNat, tag)], tagsOk := [a.toNat].all fun r => is32 ((me s).tag r)
                      uni := some [a.toNat], value := v } :=
  ⟨_, vecForm_names (fun _ => Iff.rfl) (fun _ => Iff.rfl) (fun _ => Iff.rfl) rfl (fun _ => Iff.rfl) rfl, _, h s⟩

theorem litV_names {f : Word → Word} (h : ∀ s, exec i s = litV m d a f s) :
    NamesVector i s { vreads := [a.toNat], writes := [(d.toNat, 2)], len := 2, tagsOk := [a.toNat].all fun r => is32 ((me s).tag r)
                      uni := some [a.toNat], value := v } :=
  ⟨_, vecForm_names (fun _ => Iff.rfl) (fun _ => Iff.rfl) (fun _ => Iff.rfl) rfl (fun _ => Iff.rfl) rfl, _, h s⟩

theorem alu3V_names {f : Word → Word → Word → Word} (h : ∀ s, exec i s = alu3V m d a b f s) :
    NamesVector i s { vreads := [a.toNat, b.toNat, d.toNat], writes := [(d.toNat, 2)]
                      tagsOk := [a.toNat, b.toNat, d.toNat].all fun r => is32 ((me s).tag r)
                      uni := some [a.toNat, b.toNat, d.toNat], value := v } :=
  ⟨_, vecForm_names (fun _ => Iff.rfl) (by simp) (fun _ => Iff.rfl) rfl (fun _ => Iff.rfl) rfl, _, h s⟩

theorem bfiVector_names (h : ∀ s, exec i s = execBfiVector m d a b s) :
    NamesVector i s { vreads := [a.toNat, b.toNat, d.toNat], writes := [(d.toNat, 2)]
                      tagsOk := [a.toNat, b.toNat, d.toNat].all fun r => is32 ((me s).tag r)
                      uni := some [a.toNat, b.toNat, d.toNat], value := v } :=
  ⟨_, vecForm_names (fun _ => Iff.rfl) (by simp) (fun _ => Iff.rfl) rfl (fun _ => Iff.rfl) rfl, _, h s⟩

theorem wideV_names {f : Word → Word → DWord} (h : ∀ s, exec i s = wideV m d a b f s) :
    NamesVector i s { vreads := [a.toNat, b.toNat], writes := [(d.toNat, 14), (d.toNat + 1, 15)], even := [d.toNat]
                      tagsOk := [a.toNat, b.toNat].all fun r => is32 ((me s).tag r)
                      uni := some [a.toNat, b.toNat], value := v } :=
  ⟨_, vecForm_names (fun _ => Iff.rfl) (fun _ => Iff.rfl) (fun _ => Iff.rfl) rfl (fun _ => Iff.rfl) rfl, _, h s⟩

theorem pairV_names {f : DWord → DWord → DWord} (h : ∀ s, exec i s = p64V factor true true m d a b f s) :
    NamesVector i s { vreads := pair a ++ pair b, writes := [(d.toNat, 14), (d.toNat + 1, 15)], even := [a.toNat, b.toNat, d.toNat]
                      tagsOk := isI64 (me s) a.toNat && isI64 (me s) b.toNat, uni := some (pair a ++ pair b), value := v } :=
  ⟨_, vecForm_names (fun _ => Iff.rfl) (fun _ => Iff.rfl) (fun _ => Iff.rfl) rfl (fun _ => Iff.rfl) rfl, _, h s⟩

theorem pairByV_names {f : DWord → DWord → DWord} (h : ∀ s, exec i s = p64V factor false true m d a b f s) :
    NamesVector i s { vreads := pair a ++ [b.toNat], writes := [(d.toNat, 14), (d.toNat + 1, 15)], even := [a.toNat, d.toNat]
                      tagsOk := isI64 (me s) a.toNat && is32 ((me s).tag b.toNat), uni := some (pair a ++ [b.toNat]), value := v } :=
  ⟨_, vecForm_names (fun _ => Iff.rfl) (fun _ => Iff.rfl) (fun _ => Iff.rfl) rfl (fun _ => Iff.rfl) rfl, _, h s⟩

theorem cmp64Vector_names {f : DWord → DWord → DWord} (h : ∀ s, exec i s = p64V factor true false m d a b f s) :
    NamesVector i s { vreads := pair a ++ pair b, writes := [(d.toNat, 2)], even := [a.toNat, b.toNat]
                      tagsOk := isI64 (me s) a.toNat && isI64 (me s) b.toNat, uni := some (pair a ++ pair b), value := v } :=
  ⟨_, vecForm_names (fun _ => Iff.rfl) (fun _ => Iff.rfl) (fun _ => Iff.rfl) rfl (fun _ => Iff.rfl) rfl, _, h s⟩

theorem leaVector_names {k : BitVec 3} (h : ∀ s, exec i s = execLeaVector m k d a b s) :
    NamesVector i s { sreads := pair a, vreads := [b.toNat], writes := [(d.toNat, 14), (d.toNat + 1, 15)], even := [d.toNat, a.toNat]
                      tagsOk := is32 ((me s).tag b.toNat), uni := some [b.toNat], value := v } :=
  ⟨_, vecForm_names (fun _ => Iff.rfl) (fun _ => Iff.rfl) (fun _ => Iff.rfl) rfl (fun _ => Iff.rfl) (Bool.and_true _), _, h s⟩

end

/-! ### Every integer word -/

theorem scalarArith_names {i : Instr} {p : ScalarSpec} (h : scalarArith i = some p) : NamesScalar i p := by
  cases i with
  | addScalar => cases h; exact alu2S_names fun _ => Eq.refl (execAddScalar ..)
  | subScalar => cases h; exact alu2S_names fun _ => Eq.refl (execSubScalar ..)
  | andScalar => cases h; exact alu2S_names fun _ => Eq.refl (execAndScalar ..)
  | orScalar => cases h; exact alu2S_names fun _ => Eq.refl (execOrScalar ..)
  | xorScalar => cases h; exact alu2S_names fun _ => Eq.refl (execXorScalar ..)
  | andnScalar => cases h; exact alu2S_names fun _ => Eq.refl (execAndnScalar ..)
  | ornScalar => cases h; exact alu2S_names fun _ => Eq.refl (execOrnScalar ..)
  | minScalar => cases h; exact alu2S_names fun _ => Eq.refl (execMinScalar ..)
  | maxScalar => cases h; exact alu2S_names fun _ => Eq.refl (execMaxScalar ..)
  | minnScalar => cases h; exact alu2S_names fun _ => Eq.refl (execMinnScalar ..)
  | maxnScalar => cases h; exact alu2S_names fun _ => Eq.refl (execMaxnScalar ..)
  | absScalar => cases h; exact alu1S_names fun _ => Eq.refl (execAbsScalar ..)
  | negScalar => cases h; exact alu1S_names fun _ => Eq.refl (execNegScalar ..)
  | addsatScalar => cases h; exact alu2S_names fun _ => Eq.refl (execAddsatScalar ..)
  | subsatScalar => cases h; exact alu2S_names fun _ => Eq.refl (execSubsatScalar ..)
  | addsatnScalar => cases h; exact alu2S_names fun _ => Eq.refl (execAddsatnScalar ..)
  | subsatnScalar => cases h; exact alu2S_names fun _ => Eq.refl (execSubsatnScalar ..)
  | addiScalar => cases h; exact alu1S_names fun _ => Eq.refl (execAddiScalar ..)
  | addlScalar => cases h; exact litS_names fun _ => Eq.refl (execAddlScalar ..)
  | andlScalar => cases h; exact litS_names fun _ => Eq.refl (execAndlScalar ..)
  | orlScalar => cases h; exact litS_names fun _ => Eq.refl (execOrlScalar ..)
  | _ => cases h

theorem scalarBits_names {i : Instr} {p : ScalarSpec} (h : scalarBits i = some p) : NamesScalar i p := by
  cases i with
  | shlScalar => cases h; exact alu2S_names fun _ => Eq.refl (execShlScalar ..)
  | shrScalar => cases h; exact alu2S_names fun _ => Eq.refl (execShrScalar ..)
  | sraScalar => cases h; exact alu2S_names fun _ => Eq.refl (execSraScalar ..)
  | rotScalar => cases h; exact alu2S_names fun _ => Eq.refl (execRotScalar ..)
  | shliScalar => cases h; exact alu1S_names fun _ => Eq.refl (execShliScalar ..)
  | shriScalar => cases h; exact alu1S_names fun _ => Eq.refl (execShriScalar ..)
  | sraiScalar => cases h; exact alu1S_names fun _ => Eq.refl (execSraiScalar ..)
  | rotiScalar => cases h; exact alu1S_names fun _ => Eq.refl (execRotiScalar ..)
  | popcScalar => cases h; exact alu1S_names fun _ => Eq.refl (execPopcScalar ..)
  | clzScalar => cases h; exact alu1S_names fun _ => Eq.refl (execClzScalar ..)
  | ctzScalar => cases h; exact alu1S_names fun _ => Eq.refl (execCtzScalar ..)
  | brevScalar => cases h; exact alu1S_names fun _ => Eq.refl (execBrevScalar ..)
  | bswapScalar => cases h; exact alu1S_names fun _ => Eq.refl (execBswapScalar ..)
  | bfxScalar => cases h; exact alu2S_names fun _ => Eq.refl (execBfxScalar ..)
  | bfxnScalar => cases h; exact alu2S_names fun _ => Eq.refl (execBfxnScalar ..)
  | bfiScalar => cases h; exact alu3S_names fun _ => Eq.refl (execBfiScalar ..)
  | _ => cases h

theorem scalarMul_names {i : Instr} {p : ScalarSpec} (h : scalarMul i = some p) : NamesScalar i p := by
  cases i with
  | mulScalar => cases h; exact alu2S_names fun _ => Eq.refl (execMulScalar ..)
  | mulhiScalar => cases h; exact alu2S_names fun _ => Eq.refl (execMulhiScalar ..)
  | mulhinScalar => cases h; exact alu2S_names fun _ => Eq.refl (execMulhinScalar ..)
  | madScalar => cases h; exact alu3S_names fun _ => Eq.refl (execMadScalar ..)
  | mulwScalar => cases h; exact wideS_names fun _ => Eq.refl (execMulwScalar ..)
  | mulwnScalar => cases h; exact wideS_names fun _ => Eq.refl (execMulwnScalar ..)
  | divScalar => cases h; exact alu2S_names fun _ => Eq.refl (execDivScalar ..)
  | divnScalar => cases h; exact alu2S_names fun _ => Eq.refl (execDivnScalar ..)
  | remScalar => cases h; exact alu2S_names fun _ => Eq.refl (execRemScalar ..)
  | remnScalar => cases h; exact alu2S_names fun _ => Eq.refl (execRemnScalar ..)
  | _ => cases h

theorem scalarPair_names {i : Instr} {p : ScalarSpec} (h : scalarPair i = some p) : NamesScalar i p := by
  cases i with
  | add64Scalar => cases h; exact pairS_names fun _ => Eq.refl (execAdd64Scalar ..)
  | sub64Scalar => cases h; exact pairS_names fun _ => Eq.refl (execSub64Scalar ..)
  | mul64Scalar => cases h; exact pairS_names fun _ => Eq.refl (execMul64Scalar ..)
  | cmp64Scalar => cases h; exact cmp64Scalar_names fun _ => Eq.refl (execCmp64Scalar ..)
  | shl64Scalar => cases h; exact pairByS_names fun _ => Eq.refl (execShl64Scalar ..)
  | shr64Scalar => cases h; exact pairByS_names fun _ => Eq.refl (execShr64Scalar ..)
  | leaScalar => cases h; exact leaScalar_names fun _ => Eq.refl (execLeaScalar ..)
  | _ => cases h

theorem plainScalar_names {i : Instr} {p : ScalarSpec} (h : plainScalar i = some p) : NamesScalar i p := by
  unfold plainScalar at h
  rw [Option.orElse_eq_some, Option.orElse_eq_some, Option.orElse_eq_some] at h
  rcases h with h | ⟨-, h | ⟨-, h | ⟨-, h⟩⟩⟩
  · exact scalarArith_names h
  · exact scalarBits_names h
  · exact scalarMul_names h
  · exact scalarPair_names h

theorem vectorArith_names {i : Instr} {s : State} {p : VectorSpec} (h : vectorArith i s = some p) : NamesVector i s p := by
  cases i with
  | addVector => cases h; exact alu2V_names fun _ => Eq.refl (execAddVector ..)
  | subVector => cases h; exact alu2V_names fun _ => Eq.refl (execSubVector ..)
  | andVector => cases h; exact alu2V_names fun _ => Eq.refl (execAndVector ..)
  | orVector => cases h; exact alu2V_names fun _ => Eq.refl (execOrVector ..)
  | xorVector => cases h; exact alu2V_names fun _ => Eq.refl (execXorVector ..)
  | andnVector => cases h; exact alu2V_names fun _ => Eq.refl (execAndnVector ..)
  | ornVector => cases h; exact alu2V_names fun _ => Eq.refl (execOrnVector ..)
  | minVector => cases h; exact alu2V_names fun _ => Eq.refl (execMinVector ..)
  | maxVector => cases h; exact alu2V_names fun _ => Eq.refl (execMaxVector ..)
  | minnVector => cases h; exact alu2V_names fun _ => Eq.refl (execMinnVector ..)
  | maxnVector => cases h; exact alu2V_names fun _ => Eq.refl (execMaxnVector ..)
  | absVector => cases h; exact alu1V_names fun _ => Eq.refl (execAbsVector ..)
  | negVector => cases h; exact alu1V_names fun _ => Eq.refl (execNegVector ..)
  | addsatVector => cases h; exact alu2V_names fun _ => Eq.refl (execAddsatVector ..)
  | subsatVector => cases h; exact alu2V_names fun _ => Eq.refl (execSubsatVector ..)
  | addsatnVector => cases h; exact alu2V_names fun _ => Eq.refl (execAddsatnVector ..)
  | subsatnVector => cases h; exact alu2V_names fun _ => Eq.refl (execSubsatnVector ..)
  | addiVector => cases h; exact alu1V_names fun _ => Eq.refl (execAddiVector ..)
  | addlVector => cases h; exact litV_names fun _ => Eq.refl (execAddlVector ..)
  | andlVector => cases h; exact litV_names fun _ => Eq.refl (execAndlVector ..)
  | orlVector => cases h; exact litV_names fun _ => Eq.refl (execOrlVector ..)
  | _ => cases h

theorem vectorBits_names {i : Instr} {s : State} {p : VectorSpec} (h : vectorBits i s = some p) : NamesVector i s p := by
  cases i with
  | shlVector => cases h; exact alu2V_names fun _ => Eq.refl (execShlVector ..)
  | shrVector => cases h; exact alu2V_names fun _ => Eq.refl (execShrVector ..)
  | sraVector => cases h; exact alu2V_names fun _ => Eq.refl (execSraVector ..)
  | rotVector => cases h; exact alu2V_names fun _ => Eq.refl (execRotVector ..)
  | shliVector => cases h; exact alu1V_names fun _ => Eq.refl (execShliVector ..)
  | shriVector => cases h; exact alu1V_names fun _ => Eq.refl (execShriVector ..)
  | sraiVector => cases h; exact alu1V_names fun _ => Eq.refl (execSraiVector ..)
  | rotiVector => cases h; exact alu1V_names fun _ => Eq.refl (execRotiVector ..)
  | popcVector => cases h; exact alu1V_names fun _ => Eq.refl (execPopcVector ..)
  | clzVector => cases h; exact alu1V_names fun _ => Eq.refl (execClzVector ..)
  | ctzVector => cases h; exact alu1V_names fun _ => Eq.refl (execCtzVector ..)
  | brevVector => cases h; exact alu1V_names fun _ => Eq.refl (execBrevVector ..)
  | bswapVector => cases h; exact alu1V_names fun _ => Eq.refl (execBswapVector ..)
  | bfxVector => cases h; exact fieldV_names fun _ => Eq.refl (execBfxVector ..)
  | bfxnVector => cases h; exact fieldV_names fun _ => Eq.refl (execBfxnVector ..)
  | bfiVector => cases h; exact bfiVector_names fun _ => Eq.refl (execBfiVector ..)
  | _ => cases h

theorem vectorMul_names {i : Instr} {s : State} {p : VectorSpec} (h : vectorMul i s = some p) : NamesVector i s p := by
  cases i with
  | mulVector => cases h; exact alu2V_names fun _ => Eq.refl (execMulVector ..)
  | mulhiVector => cases h; exact alu2V_names fun _ => Eq.refl (execMulhiVector ..)
  | mulhinVector => cases h; exact alu2V_names fun _ => Eq.refl (execMulhinVector ..)
  | madVector => cases h; exact alu3V_names fun _ => Eq.refl (execMadVector ..)
  | mulwVector => cases h; exact wideV_names fun _ => Eq.refl (execMulwVector ..)
  | mulwnVector => cases h; exact wideV_names fun _ => Eq.refl (execMulwnVector ..)
  | divVector => cases h; exact alu2V_names fun _ => Eq.refl (execDivVector ..)
  | divnVector => cases h; exact alu2V_names fun _ => Eq.refl (execDivnVector ..)
  | remVector => cases h; exact alu2V_names fun _ => Eq.refl (execRemVector ..)
  | remnVector => cases h; exact alu2V_names fun _ => Eq.refl (execRemnVector ..)
  | _ => cases h

theorem vectorPair_names {i : Instr} {s : State} {p : VectorSpec} (h : vectorPair i s = some p) : NamesVector i s p := by
  cases i with
  | add64Vector => cases h; exact pairV_names fun _ => Eq.refl (execAdd64Vector ..)
  | sub64Vector => cases h; exact pairV_names fun _ => Eq.refl (execSub64Vector ..)
  | mul64Vector => cases h; exact pairV_names fun _ => Eq.refl (execMul64Vector ..)
  | cmp64Vector => cases h; exact cmp64Vector_names fun _ => Eq.refl (execCmp64Vector ..)
  | shl64Vector => cases h; exact pairByV_names fun _ => Eq.refl (execShl64Vector ..)
  | shr64Vector => cases h; exact pairByV_names fun _ => Eq.refl (execShr64Vector ..)
  | leaVector => cases h; exact leaVector_names fun _ => Eq.refl (execLeaVector ..)
  | _ => cases h

theorem plainVector_names {i : Instr} {s : State} {p : VectorSpec} (h : plainVector i s = some p) : NamesVector i s p := by
  unfold plainVector at h
  rw [Option.orElse_eq_some, Option.orElse_eq_some, Option.orElse_eq_some] at h
  rcases h with h | ⟨-, h | ⟨-, h | ⟨-, h⟩⟩⟩
  · exact vectorArith_names h
  · exact vectorBits_names h
  · exact vectorMul_names h
  · exact vectorPair_names h

/-! ### The statements -/

/-- No breach of a word's names is USER, whose trap would point past the word (R136). -/
theorem ScalarSpec.breach_ne_user {p : ScalarSpec} {s : State} {c : Nat} (h : p.breach s = some c) : c ≠ 0x0B := by
  unfold ScalarSpec.breach at h
  grind

theorem VectorSpec.breach_ne_user {p : VectorSpec} {s : State} {c : Nat} (h : p.breach s = some c) : c ≠ 0x0B := by
  unfold VectorSpec.breach at h
  grind

/-- Settles O43: the form of every integer word names what the statement names, so that the first breach is the check that fails. -/
theorem checkTraps : Obligations.CheckTraps := by
  unfold Obligations.CheckTraps
  constructor
  · intro i s p c hp hb hi
    obtain ⟨g, hg, hx⟩ := plainScalar_names hp
    obtain ⟨body, hx⟩ := hx s
    exact completes_trap hi hx rfl (hg.checks_of_breach hb) (ScalarSpec.breach_ne_user hb)
  · intro i s p c hp hb hi
    obtain ⟨g, hg, body, hx⟩ := plainVector_names hp
    exact completes_trap hi hx rfl (hg.checks_of_breach hb) (VectorSpec.breach_ne_user hb)

/-- What a skipped word leaves. -/
theorem skips_of_retired {s t : State} {len : Nat} (hr : (me s).run < 8)
    (h : Retired (s.noted s.cur) t s.cur (((s.noted s.cur).warp s.cur).setPc (((s.noted s.cur).warp s.cur).pc + BitVec.ofNat 32 len))) :
    skips s t len := by
  have alone := OnWarp.noted s
  have splits : ((s.noted s.cur).warp s.cur).splits = (me s).splits := by rw [State.warp_noted_self]; rfl
  obtain ⟨moved, mask⟩ := h.moved alone splits hr
  refine ⟨h.onlyWarp alone, h.sameMemory alone, ?_, moved, mask⟩
  have books := h.books alone
  rw [State.warp_noted_self] at books
  generalize me t = z at books
  rw [books]
  rfl

/-- Settles O45: its form fails no check, and the shared issue skips it. -/
theorem skippedWords : Obligations.SkippedWords := by
  unfold Obligations.SkippedWords
  intro i s p hp ha hb hi
  obtain ⟨g, hg, body, hx⟩ := plainVector_names hp
  obtain ⟨t, ht, retired⟩ := issue_skips (body := body) hi (form := fun _ => g) rfl (hg.checks_of_inactive ha hb) hg.vector ha hg.check
  rw [hg.len] at retired
  exact ⟨t, hx.trans ht, skips_of_retired ((issuing_iff s).mp hi).run retired⟩

end Sys2Proof.Machine
end

