-- ==== Sys2Proof/Proofs/PassedChecks.lean ====
section
/-! SUPPORT. When a word fails no shared check: its registers lie in the windows, its sources hold no poison, nothing it names is pending
(R28, R29, R79, R93, R103, R334). -/

namespace Sys2Proof.Machine

open Sys2Proof.Safety

/-- The form names no scalar register but `ss`, no vector register but `vs`, and reads none but these. -/
structure Form.Within (g : Form) (ss vs : List Nat) : Prop where
  names : ∀ r ∈ g.s, r ∈ ss ∧ r < 64
  vnames : ∀ r ∈ g.v, r ∈ vs
  also : ∀ r ∈ g.also, r ∈ vs

theorem Form.Within.inRange {g : Form} {ss vs : List Nat} (h : g.Within ss vs) {x : Warp} (hw : inWindow x ss vs = true) : g.inRange x = true := by
  unfold inWindow at hw
  rw [Bool.and_eq_true, List.all_eq_true, List.all_eq_true] at hw
  unfold Form.inRange
  rw [Bool.and_eq_true, List.all_eq_true, List.all_eq_true]
  exact ⟨fun r hr => hw.1 r (h.names r hr).1, fun r hr => hw.2 r (h.vnames r hr)⟩

theorem Form.Within.hazard {g : Form} {ss vs : List Nat} (h : g.Within ss vs) {s : State} (hs : settled s ss vs = true) (n : Nat) :
    (s.hazardChecks s.cur && g.hazard ((me s).noted n)) = false := by
  unfold settled at hs
  rw [Bool.or_eq_true, Bool.not_eq_true', List.all_eq_true] at hs
  rcases hs with hs | hs
  · rw [hs, Bool.false_and]
  · rw [Bool.and_eq_false_iff]
    refine Or.inr ?_
    unfold Form.hazard
    rw [List.any_eq_false]
    intro p hp
    have hp := List.all_eq_true.mp (hs p hp)
    rw [Bool.not_eq_true, List.any_eq_false]
    intro r hr
    have hr := hp r hr
    split at hr
    · have hr : r < 61 ∧ r ∉ ss := by simpa using hr
      rw [Bool.not_eq_true, if_pos ‹_›, Bool.or_eq_false_iff, decide_eq_false_iff_not]
      exact ⟨by omega, by simpa using fun hm => hr.2 (h.names r hm).1⟩
    · have hr : r ∉ vs := by simpa using hr
      rw [Bool.not_eq_true, if_neg ‹_›, Bool.or_eq_false_iff]
      exact ⟨by simpa using fun hm => hr (h.vnames r hm), by simpa using fun hm => hr (h.also r hm)⟩

theorem mem_threads {m : Mask} {t : Nat} : t ∈ threads m ↔ t < 96 ∧ m.getLsbD t = true := by
  unfold threads
  rw [List.mem_filter, List.mem_range]

theorem nodup_threads (m : Mask) : (threads m).Nodup := List.nodup_range.filter _

/-- The lowest thread of a mask that is not empty is one of its own. -/
theorem lowest_mem {m : Mask} (h : m ≠ 0) : lowest m ∈ threads m := by
  unfold lowest
  cases hl : threads m with
  | nil =>
    refine absurd (BitVec.eq_of_getLsbD_eq fun i hi => ?_) h
    have : i ∉ threads m := by rw [hl]; exact List.not_mem_nil
    rw [mem_threads, not_and] at this
    simpa using this hi
  | cons t ts => simp

/-- The sources of a form hold no poison: the scalar ones among `ss`, the vector ones, of a vector word, among `vs`. -/
theorem Form.poison_none {g : Form} {ss vs : List Nat} {x : Warp} (hr : ∀ a ∈ g.reads, if a.scalar then a.reg ∈ ss else g.vector = true ∧ a.reg ∈ vs)
    (hs : cleanS x ss = true) (hv : cleanV x vs = true) : g.poison x = none := by
  have scalar : ∀ a ∈ g.reads, a.scalar = true → ∀ t, a.bad x t = false := fun a ha hsc t => by
    have h := hr a ha
    rw [if_pos hsc] at h
    have := List.all_eq_true.mp hs _ h
    unfold Src.bad
    rw [if_pos hsc]
    simpa using this
  have vector : ∀ a ∈ g.reads, a.scalar = false → ∀ t ∈ threads x.active, a.bad x t = false := fun a ha hsc t ht => by
    have h := hr a ha
    rw [if_neg (by simp [hsc])] at h
    have := List.all_eq_true.mp (List.all_eq_true.mp hv _ h.2) t ht
    rw [Bool.and_eq_true, Bool.not_eq_true', Bool.not_eq_true'] at this
    unfold Src.bad
    rw [if_neg (by simp [hsc]), this.1, this.2]
    simp
  have good : ∀ a ∈ g.reads, ∀ t ∈ threads x.active, a.bad x t = false := fun a ha t ht => by
    cases hsc : a.scalar
    · exact vector a ha hsc t ht
    · exact scalar a ha hsc t
  unfold Form.poison
  split
  · rfl
  rename_i hact
  split
  · rename_i hvec
    rw [List.find?_eq_none.mpr]
    · rfl
    intro a ha
    cases hsc : a.scalar
    · have h := hr a ha
      rw [if_neg (by simp [hsc])] at h
      simp [h.1] at hvec
    · simp [scalar a ha hsc 0]
  · extract_lets ts
    have sub : ∀ t ∈ ts, t ∈ threads x.active := by
      intro t ht
      unfold ts at ht
      split at ht
      · rw [List.mem_singleton.mp ht]
        exact lowest_mem hact
      · exact ht
    rw [List.find?_eq_none.mpr]
    · rfl
    intro t ht
    rw [Bool.not_eq_true, List.any_eq_false]
    intro a ha
    simp [good a ha t (sub t ht)]

/-- What a word asks of the checks that come before its effect. -/
structure Form.Passes (g : Form) (s : State) (ss vs : List Nat) : Prop extends g.Within ss vs where
  illegal : g.illegal = false
  level : g.level ≤ s.levelOf (s.ctxOf s.cur)
  even : ∀ r ∈ g.even, r % 2 = 0
  src : ∀ r ∈ g.src, (me s).tag r ≠ 0
  tags : g.tags ((me s).noted (s.now s.cur)) = true
  late : g.late ((me s).noted (s.now s.cur)) = false

/-- A word whose registers are in its windows, settled and free of poison performs. -/
theorem Form.Passes.checks {g : Form} {s : State} {ss vs cs cv : List Nat} (h : g.Passes s ss vs) (hw : inWindow (me s) ss vs = true)
    (hs : settled s ss vs = true) (hr : ∀ a ∈ g.reads, if a.scalar then a.reg ∈ cs else g.vector = true ∧ a.reg ∈ cv)
    (hcs : cleanS (me s) cs = true) (hcv : cleanV (me s) cv = true) : s.checks g = none := by
  have range : g.inRange ((me s).noted (s.now s.cur)) = true := h.inRange (x := (me s).noted (s.now s.cur)) hw
  have past : (g.s.any fun r => decide (r ≥ 64)) = false := by
    rw [List.any_eq_false]
    intro r hr
    have := (h.names r hr).2
    simp; omega
  have odd : (g.even.any fun r => r % 2 == 1) = false := by
    rw [List.any_eq_false]
    intro r hr
    simp [h.even r hr]
  have none : (g.src.any fun r => ((me s).noted (s.now s.cur)).tag r == 0) = false := by
    rw [List.any_eq_false]
    intro r hr e
    exact h.src r hr (eq_of_beq e)
  have poison : g.poison ((me s).noted (s.now s.cur)) = Option.none :=
    Form.poison_none (x := (me s).noted (s.now s.cur)) hr hcs hcv
  unfold State.checks Form.fails
  rw [h.illegal, past, range, odd, none, h.tags, h.late, h.hazard hs, poison, if_neg (Nat.not_lt.mpr h.level)]
  simp

end Sys2Proof.Machine
end

