-- ==== Sys2Proof/Proofs/PredicateWords.lean ====
section
/-! STATEMENT PROOFS. Compares, predicate moves and votes write one q, or one p for the active threads (R31, R151, R152, R169, R198). -/

namespace Sys2Proof.Machine

open Sys2Proof.Safety

/-! ### Threads in turn, with no watch armed -/

/-- Where no watch is armed, threads that step no generator perform one after another. -/
theorem sweepThreads_plain {w len : Nat} {fn : Warp → Nat → Elem} {put : State → Nat → List Word → State}
    (hb : ∀ s t ws, (put s t ws).bank w = s.bank w) (hg : ∀ x t, (fn x t).gen = none) (ts : List Nat) (s : State)
    (hs : ∀ e ∈ s.bank w, e.2.armed = false) :
    sweepThreads w len fn put ts s = { s := ts.foldl (fun s t => put s t (fn (s.warp w) t).words) s } := by
  induction ts generalizing s with
  | nil => rfl
  | cons t ts ih =>
    have next := ih (put s t (fn (s.warp w) t).words) (by rw [hb]; exact hs)
    unfold sweepThreads
    extract_lets e p s1 s2 s3
    have hp : p = (s, 0, 0) := by
      unfold p
      split
      · exact present_unwatched s w t 4 0 0 _ hs
      · rfl
    have hgen : e.gen = none := hg _ _
    have hs1 : s1 = s := by
      unfold s1
      rw [hgen, hp]
    have hs3 : s3 = put s t e.words := by
      unfold s3 s2
      rw [if_neg (show ¬p.2.1 = 2 by rw [hp]; simp), hs1]
    rw [if_neg (show ¬p.2.1 ≥ 3 by rw [hp]; simp), hs3]
    exact next

/-- A change of the issuing warp for each of some threads. -/
theorem OnWarp.foldl {s u : State} (h : OnWarp s u) (g : Nat → Warp → Warp) (ts : List Nat) :
    OnWarp s (ts.foldl (fun s' t => s'.modWarp s.cur (g t)) u)
    ∧ (ts.foldl (fun s' t => s'.modWarp s.cur (g t)) u).warp s.cur = ts.foldl (fun x t => g t x) (u.warp s.cur) := by
  induction ts generalizing u with
  | nil => exact ⟨h, rfl⟩
  | cons t ts ih =>
    have next := ih (h.modWarp (g t))
    rw [State.warp_modWarp, if_pos rfl] at next
    exact next

/-! ### Predicates -/

/-- One thread's new bit of a predicate. -/
def Warp.combinePred (d rule : Nat) (c : Nat → Bool) (t : Nat) (x : Warp) : Warp :=
  x.setPred d (if combine rule ((x.pred d).getLsbD t) (c t) then x.pred d ||| bit t else x.pred d &&& ~~~(bit t))

theorem getLsbD_bit (t k : Nat) (hk : k < 96) : (bit t).getLsbD k = decide (k = t) := by
  unfold bit
  rw [BitVec.getLsbD_shiftLeft, BitVec.getLsbD_one]
  have h : (k - t = 0 ∧ ¬ k < t) ↔ k = t := by omega
  grind

theorem Warp.pred_combinePred (x : Warp) (d rule : Nat) (c : Nat → Bool) (t j k : Nat) (hk : k < 96) :
    ((x.combinePred d rule c t).pred j).getLsbD k =
      if j = d ∧ k = t then combine rule ((x.pred d).getLsbD t) (c t) else (x.pred j).getLsbD k := by
  unfold Warp.combinePred
  rw [Warp.pred_setPred]
  by_cases hj : j = d
  · subst hj
    have := getLsbD_bit t k hk
    by_cases hc : combine rule ((x.pred j).getLsbD t) (c t) = true <;> grind
  · simp [hj]

/-- A predicate after each of some threads has combined its bit. -/
theorem Warp.pred_foldl_combinePred (d rule : Nat) (c : Nat → Bool) (ts : List Nat) (hn : ts.Nodup) (x : Warp) (j k : Nat) (hk : k < 96) :
    ((ts.foldl (fun x t => x.combinePred d rule c t) x).pred j).getLsbD k =
      if j = d ∧ k ∈ ts then combine rule ((x.pred d).getLsbD k) (c k) else (x.pred j).getLsbD k := by
  induction ts generalizing x with
  | nil => simp
  | cons t ts ih =>
    rw [List.nodup_cons] at hn
    rw [List.foldl_cons, ih hn.2, Warp.pred_combinePred x d rule c t j k hk, Warp.pred_combinePred x d rule c t d k hk]
    by_cases hkt : k = t
    · subst k
      simp [hn.1]
    · simp [hkt]

theorem Warp.foldl_combinePred_rest (d rule : Nat) (c : Nat → Bool) (ts : List Nat) (x : Warp) :
    ts.foldl (fun x t => x.combinePred d rule c t) x = { x with preds := (ts.foldl (fun x t => x.combinePred d rule c t) x).preds } := by
  induction ts generalizing x with
  | nil => rfl
  | cons t ts ih => exact (ih (x.combinePred d rule c t)).trans rfl

theorem Warp.q_setQ (x : Warp) (d j : Nat) (b : Bool) (hj : j < 8) : (x.setQ d b).q.getLsbD j = if j = d then b else x.q.getLsbD j := by
  unfold Warp.setQ
  have h : (1#8 <<< d).getLsbD j = decide (j = d) := by
    rw [BitVec.getLsbD_shiftLeft, BitVec.getLsbD_one]
    have h : (j - d = 0 ∧ ¬ j < d) ↔ j = d := by omega
    grind
  cases b
  · simp only [Bool.false_eq_true, if_false, BitVec.getLsbD_and, BitVec.getLsbD_not, h]
    grind
  · simp only [if_true, BitVec.getLsbD_or, h]
    grind

/-- A predicate word writes a q, or the bits of a p for its active threads. -/
theorem predOp_done {f : Form} {q all : Bool} {d rule : Nat} {fn : Warp → Nat → Bool × Option FFlags} {s : State} {w : Nat} {x : Warp}
    (hx : s.warp w = x) (hs : ∀ e ∈ s.bank w, e.2.armed = false) :
    let at' := fun t => (fn x (if f.uniform x then lowest x.active else t)).1
    predOp f q all d rule fn w s = .done (
      if q then s.modWarp w fun y => y.setQ d (combine rule (x.q.getLsbD d) (if all then (threads x.active).all at' else (threads x.active).any at'))
      else (threads x.active).foldl (fun s t => s.modWarp w fun y => y.combinePred d rule at' t) s) := by
  intro at'
  subst hx
  unfold predOp
  extract_lets x0 act at2 elem put r
  have run : r = { s := (threads act).foldl (fun s t => put s t (elem (s.warp w) t).words) s } :=
    sweepThreads_plain (fun s t ws => by unfold put; split <;> rfl) (fun _ _ => rfl) _ s hs
  rw [run]
  cases q
  · rfl
  · have still : ∀ (ts : List Nat) (u : State), ts.foldl (fun s t => put s t (elem (s.warp w) t).words) u = u := fun ts u => by
      induction ts generalizing u with
      | nil => rfl
      | cons t ts ih => exact ih u
    simp only [still]
    rfl

/-! ### The end of a predicate word -/

/-- A word whose effect is a q or a p of its warp. -/
theorem completes_pred {i : Instr} {s u : State} {p : PredSpec} {form : Warp → Form} {body : Nat → State → Act} {g : Form}
    {ps : Store Mask} {q : BitVec 8}
    (hi : issuing s = true) (hx : exec i s = issue form body s) (hg : form ((me s).noted (s.now s.cur)) = g) (hf : s.checks g = none)
    (hv : g.vector = false ∨ (me s).active ≠ 0) (hc : g.check = none) (hl : g.len = p.len)
    (hb : body s.cur (s.noted s.cur) = .done u) (hu : OnWarp s u)
    (hw : u.warp s.cur = { (me s).noted (s.now s.cur) with preds := ps, q := q })
    (hp : if p.toQ then ps = (me s).preds ∧ ∀ j, j < 8 → q.getLsbD j = if j = p.d then p.value 0 else (me s).q.getLsbD j
      else q = (me s).q ∧ ∀ j k, j < 8 → k < 96 → (Store.get 0 ps j).getLsbD k =
        if j = p.d && (me s).active.getLsbD k then p.value k else ((me s).pred j).getLsbD k) :
    completes i s (p.done s) := by
  have hrun := ((issuing_iff s).mp hi).run
  obtain ⟨t, ht, retired⟩ := issue_done hi hg hf hv hc hb
    (by rw [hw]; exact Warp.refusedEntry_congr rfl rfl) (by rw [hw]; rfl)
  refine ⟨t, hx.trans ht, retired.onlyWarp hu, retired.sameMemory hu, ?_⟩
  have books := retired.books hu
  rw [hl] at retired
  obtain ⟨moved, mask⟩ := retired.moved hu (by rw [hw]; rfl) hrun
  refine ⟨moved, mask, ?_⟩
  rw [hw] at books
  generalize me t = z at books
  have zq : z.q = q := by rw [books]
  have zp : z.preds = ps := by rw [books]
  split at hp
  · obtain ⟨hps, hq⟩ := hp
    rw [if_pos ‹_›, zq]
    subst hps
    refine ⟨?_, hq⟩
    rw [books]
    rfl
  · obtain ⟨hq, hps⟩ := hp
    rw [if_neg ‹_›, zp]
    subst hq
    refine ⟨?_, ?_⟩
    · rw [books]
      rfl
    · intro j k hj hk
      unfold Warp.pred
      rw [zp]
      exact hps j k hj hk

/-- What `PredSpec.fits` asks. -/
structure PredFits (p : PredSpec) (s : State) : Prop where
  window : inWindow (me s) p.sreads p.vreads = true
  even : ∀ r ∈ p.even, r % 2 = 0
  active : p.vector = false ∨ (me s).active ≠ 0
  src : ∀ r ∈ p.vreads, (me s).tag r ≠ 0
  tags : p.tagsOk = true
  cleanS : cleanS (me s) p.sreads = true
  cleanV : cleanV (me s) p.vreads = true
  settled : settled s p.sreads p.vreads = true

theorem predFits {p : PredSpec} {s : State} (h : p.fits s = true) : PredFits p s := by
  unfold PredSpec.fits at h
  simp only [Bool.and_eq_true, Bool.or_eq_true, Bool.not_eq_true', decide_eq_true_eq, List.all_eq_true, beq_iff_eq, bne_iff_ne] at h
  obtain ⟨⟨⟨⟨⟨⟨⟨window, even⟩, active⟩, src⟩, tags⟩, cs⟩, cv⟩, settled⟩ := h
  exact ⟨window, even, active, src, tags, cs, cv, settled⟩

/-- A word that writes one q. -/
theorem completes_q {i : Instr} {s : State} {p : PredSpec} {g : Form} {body : Nat → State → Act} {f : Warp → Warp}
    (hi : issuing s = true) (hx : exec i s = issue (fun _ => g) body s) (hf : s.checks g = none)
    (hv : g.vector = false ∨ (me s).active ≠ 0) (hc : g.check = none) (hl : g.len = p.len)
    (hb : ∀ u : State, body s.cur u = .done (u.modWarp s.cur f))
    (hfx : f ((me s).noted (s.now s.cur)) = ((me s).noted (s.now s.cur)).setQ p.d (p.value 0)) (hq : p.toQ = true) :
    completes i s (p.done s) := by
  refine completes_pred hi hx rfl hf hv hc hl (hb _) ((OnWarp.noted s).modWarp f) (ps := (me s).preds)
    (q := (((me s).noted (s.now s.cur)).setQ p.d (p.value 0)).q) ?_ ?_
  · rw [State.warp_modWarp, if_pos rfl, State.warp_noted_self, hfx]
    rfl
  · rw [if_pos hq]
    exact ⟨rfl, fun j hj => Warp.q_setQ _ _ _ _ hj⟩

/-- A word that writes one p for its active threads, or one q over them. -/
theorem completes_predOp {i : Instr} {s : State} {p : PredSpec} {form : Warp → Form} {g : Form} {body : Nat → State → Act} {q all : Bool} {d rule : Nat}
    {fn : Warp → Nat → Bool × Option FFlags}
    (hi : issuing s = true) (hx : exec i s = issue form body s) (hg : form ((me s).noted (s.now s.cur)) = g) (hf : s.checks g = none)
    (hv : (me s).active ≠ 0) (hc : g.check = none) (hl : g.len = p.len)
    (hd : p.d = d)
    (hb : body s.cur (s.noted s.cur) = predOp g q all d rule fn s.cur (s.noted s.cur)) (hq : p.toQ = q)
    (hval : ∀ t, p.value t =
      let x := (me s).noted (s.now s.cur)
      let at' := fun t => (fn x (if g.uniform x then lowest x.active else t)).1
      if q then combine rule (x.q.getLsbD p.d) (if all then (threads x.active).all at' else (threads x.active).any at')
      else combine rule ((x.pred p.d).getLsbD t) (at' t)) :
    completes i s (p.done s) := by
  subst hd
  have hbank : ∀ e ∈ (s.noted s.cur).bank s.cur, e.2.armed = false := ((issuing_iff s).mp hi).unwatched
  have done := predOp_done (f := g) (q := q) (all := all) (d := p.d) (rule := rule) (fn := fn) (State.warp_noted_self s s.cur) hbank
  cases q with
  | true =>
    simp only [if_true] at done
    refine completes_pred hi hx hg hf (Or.inr hv) hc hl (hb.trans done) ((OnWarp.noted s).modWarp _) (ps := (me s).preds)
      (q := (((me s).noted (s.now s.cur)).setQ p.d (p.value 0)).q) ?_ ?_
    · rw [State.warp_modWarp, if_pos rfl, State.warp_noted_self, hval]
      rfl
    · rw [if_pos hq]
      exact ⟨rfl, fun j hj => Warp.q_setQ _ _ _ _ hj⟩
  | false =>
    simp only [Bool.false_eq_true, if_false] at done
    obtain ⟨alone, warp⟩ := (OnWarp.noted s).foldl (fun t x => x.combinePred p.d rule
      (fun t => (fn ((me s).noted (s.now s.cur)) (if g.uniform ((me s).noted (s.now s.cur)) then lowest (me s).active else t)).1) t)
      (threads (me s).active)
    rw [State.warp_noted_self, Warp.foldl_combinePred_rest] at warp
    refine completes_pred hi hx hg hf (Or.inr hv) hc hl (hb.trans done) alone (q := (me s).q) warp ?_
    rw [if_neg (by simp [hq])]
    refine ⟨rfl, fun j k hj hk => (Warp.pred_foldl_combinePred p.d rule _ _ (nodup_threads _) _ j k hk).trans ?_⟩
    rw [hval]
    by_cases hj : j = p.d <;> simp [hj, mem_threads, hk] <;> rfl

/-! ### The checks of predicate words -/

section
variable {p : PredSpec} {s : State} (hp : PredFits p s)
include hp

/-- A scalar form that names its sources alone. -/
theorem scalForm_checks {m : Bool} {src : List Nat} {len : Nat} (hs : p.sreads = src) (h64 : ∀ r ∈ src, r < 64) :
    s.checks { scalForm m [] src with len := len } = none := by
  subst hs
  have passes : Form.Passes { scalForm m [] p.sreads with len := len } s p.sreads p.vreads :=
    { names := fun r hr => ⟨hr, h64 r hr⟩, vnames := by simp [scalForm], also := by simp [scalForm], illegal := rfl, level := Nat.zero_le _
      even := by simp [scalForm], src := by simp [scalForm], tags := rfl, late := rfl }
  refine passes.checks hp.window hp.settled (fun a ha => ?_) hp.cleanS hp.cleanV
  obtain ⟨r, hr, rfl⟩ := List.mem_map.mp ha
  rw [if_pos rfl]
  exact hr

/-- A vector form that names its sources alone. -/
theorem vecForm_checks {m : Bool} {src : List Nat} {len : Nat} {uni : Option (List Nat)} (hs : p.vreads = src)
    (ht : p.tagsOk = src.all fun r => is32 ((me s).tag r)) : s.checks { vecForm m [] src with len := len, uni := uni } = none := by
  subst hs
  have passes : Form.Passes { vecForm m [] p.vreads with len := len, uni := uni } s p.sreads p.vreads :=
    { names := by simp [vecForm], vnames := fun r hr => hr, also := by simp [vecForm], illegal := rfl, level := Nat.zero_le _
      even := by simp [vecForm], src := hp.src, tags := ht.symm.trans hp.tags, late := rfl }
  refine passes.checks hp.window hp.settled (fun a ha => ?_) hp.cleanS hp.cleanV
  obtain ⟨r, hr, rfl⟩ := List.mem_map.mp ha
  rw [if_neg (by simp)]
  exact ⟨rfl, hr⟩

end

/-! ### Compares (R150 to R152, R169) -/

section
variable {i : Instr} {s : State} {p : PredSpec} {m : Bool} {len rule cc : Nat} {d : BitVec 3} {a : BitVec 6} {bs : List Nat}

/-- A scalar compare writes its q. -/
theorem cmpS_done {y : Warp → Word} (hi : issuing s = true) (hp : PredFits p s) (hx : exec i s = cmpS m len rule cc d a bs y s)
    (hs : p.sreads = a.toNat :: bs) (hb : ∀ r ∈ bs, r < 64) (hl : len = p.len) (hq : p.toQ = true) (hd : p.d = d.toNat)
    (hv : p.value 0 = combine rule ((me s).q.getLsbD d.toNat) (intCond cc ((me s).readS a.toNat) (y ((me s).noted (s.now s.cur))))) :
    completes i s (p.done s) := by
  have checks := scalForm_checks hp (m := m) (len := len) hs (by
    intro r hr
    rcases List.mem_cons.mp hr with rfl | hr
    · exact a.isLt
    · exact hb r hr)
  refine completes_q hi hx checks (Or.inl rfl) rfl hl (fun _ => rfl) ?_ hq
  rw [hv, hd]
  rfl

/-- A vector compare writes its p, or its q. -/
theorem cmpV_done {p0 : PredSpec} {r k : BitVec 1} {y : Warp → Nat → Word} {c : Nat → Bool} (hi : issuing s = true)
    (hp : PredFits (comparing s p0 (a.toNat :: bs) r k rule c) s) (hx : exec i s = cmpV m len rule cc r k d a bs y s)
    (hs : p0.vreads = a.toNat :: bs) (ht : p0.tagsOk = (a.toNat :: bs).all fun r => is32 ((me s).tag r)) (hv : p0.vector = true)
    (hl : len = p0.len) (hd : p0.d = d.toNat)
    (hc : ∀ t, c t = intCond cc ((me s).readV a.toNat t) (y ((me s).noted (s.now s.cur)) t)) :
    completes i s ((comparing s p0 (a.toNat :: bs) r k rule c).done s) := by
  have act : (me s).active ≠ 0 := hp.active.resolve_left (by rw [show (comparing s p0 _ r k rule c).vector = p0.vector from rfl, hv]; simp)
  unfold cmpV at hx
  obtain rfl : c = fun t => intCond cc ((me s).readV a.toNat t) (y ((me s).noted (s.now s.cur)) t) := funext hc
  refine completes_predOp (q := k == 1#1) (all := r == 1#1) hi hx rfl (vecForm_checks hp hs ht) act rfl hl hd rfl rfl fun t => ?_
  simp only [beq_iff_eq]
  rfl

end

/-- The form of FCMP on the tags it accepts. -/
def fcmpForm (m : Bool) (a b : BitVec 6) (x : Warp) : Form :=
  let f := floatForm m [] [a.toNat, b.toNat] true (if x.tag a.toNat = 13 then 2 else 1) x
  if tagCount (x.tag a.toNat).toNat = 2 then { f with reads := f.reads.map fun q => { q with halves := 1 } } else f

theorem fcmpForm_congr (m : Bool) (a b : BitVec 6) (x : Warp) :
    let g := fcmpForm m a b x
    let f := floatForm m [] [a.toNat, b.toNat] true (if x.tag a.toNat = 13 then 2 else 1) x
    g = { f with reads := g.reads } ∧ ∀ q ∈ g.reads, q.scalar = false ∧ q.reg ∈ f.src := by
  intro g f
  unfold g fcmpForm
  have reads : ∀ q ∈ f.reads, q.scalar = false ∧ q.reg ∈ f.src := by
    intro q hq
    obtain ⟨r, hr, rfl⟩ := List.mem_map.mp hq
    exact ⟨rfl, hr⟩
  extract_lets
  split
  · refine ⟨rfl, fun q hq => ?_⟩
    obtain ⟨r, hr, rfl⟩ := List.mem_map.mp hq
    exact reads r hr
  · exact ⟨rfl, reads⟩

theorem fcmpForm_checks {m : Bool} {a b : BitVec 6} {p : PredSpec} {s : State} (hp : PredFits p s)
    (hv : p.vreads = regsOf ((me s).tag a.toNat).toNat a.toNat ++ regsOf ((me s).tag a.toNat).toNat b.toNat)
    (he : p.even = if ((me s).tag a.toNat).toNat = 13 then [a.toNat, b.toNat] else [])
    (ht : p.tagsOk = (isArith ((me s).tag a.toNat).toNat && (me s).tag b.toNat == (me s).tag a.toNat
      && (((me s).tag a.toNat).toNat != 13 || ((me s).tag (a.toNat + 1) == 15 && (me s).tag (b.toNat + 1) == 15)))) :
    s.checks (fcmpForm m a b ((me s).noted (s.now s.cur))) = none := by
  obtain ⟨form, reads⟩ := fcmpForm_congr m a b ((me s).noted (s.now s.cur))
  obtain ⟨⟨arith, tagB⟩, high⟩ : (isArith ((me s).tag a.toNat).toNat = true ∧ (me s).tag b.toNat = (me s).tag a.toNat)
      ∧ (((me s).tag a.toNat).toNat = 13 → (me s).tag (a.toNat + 1) = 15 ∧ (me s).tag (b.toNat + 1) = 15) := by
    have tags := ht.symm.trans hp.tags
    simp only [Bool.and_eq_true, Bool.or_eq_true, beq_iff_eq, bne_iff_ne] at tags
    exact ⟨tags.1, fun h => tags.2.resolve_left fun c => c h⟩
  generalize hx : (me s).noted (s.now s.cur) = x at form reads
  have tag : ∀ r, x.tag r = (me s).tag r := fun r => by rw [← hx]; rfl
  have src : (floatForm m [] [a.toNat, b.toNat] true (if x.tag a.toNat = 13 then 2 else 1) x).src = p.vreads := by
    rw [hv]
    simp [floatForm, tag, tagB]
  have first : ∀ t r : Nat, r ∈ regsOf t r := fun t r => by unfold regsOf; split <;> simp
  have passes : Form.Passes (fcmpForm m a b x) s p.sreads p.vreads := by
    rw [form]
    refine { names := by simp [floatForm], vnames := fun r hr => ?_, also := fun r hr => ?_, illegal := rfl, level := Nat.zero_le _
             even := by simp [floatForm], src := by rw [src]; exact hp.src, tags := ?_, late := ?_ }
    · rw [hv, List.mem_append]
      have hr : r = a.toNat ∨ r = b.toNat := by simpa [floatForm] using hr
      rcases hr with rfl | rfl
      · exact Or.inl (first _ _)
      · exact Or.inr (first _ _)
    · have hr : ((me s).tag a.toNat).toNat = 13 ∧ (r = a.toNat + 1 ∨ r = b.toNat + 1) := by
        simpa [floatForm, tag, apply_ite] using hr
      rw [hv, hr.1]
      rcases hr.2 with rfl | rfl <;> simp [regsOf, isPair]
    · rw [hx]
      have pairs : ((me s).tag a.toNat).toNat ≠ 13 ∨ ((me s).tag (a.toNat + 1) = 15 ∧ (me s).tag (b.toNat + 1) = 15) := by tauto
      have one : ((me s).tag a.toNat).toNat ≠ 13 ∨ (me s).tag (a.toNat + 1) = 15 := pairs.imp_right And.left
      have two : ((me s).tag a.toNat).toNat ≠ 13 ∨ (me s).tag (b.toNat + 1) = 15 := pairs.imp_right And.right
      simpa [floatForm, tag, tagB, arith] using ⟨one, two⟩
    · have even : ((me s).tag a.toNat).toNat = 13 → a.toNat % 2 = 0 ∧ b.toNat % 2 = 0 := fun h => by
        have := hp.even
        rw [he, if_pos h] at this
        exact ⟨this _ (by simp), this _ (by simp)⟩
      simp only [floatForm, tag, List.headD_cons, List.nil_append, Bool.and_eq_false_iff, beq_eq_false_iff_ne]
      by_cases h : ((me s).tag a.toNat).toNat = 13
      · refine Or.inr ?_
        simp [even h]
      · exact Or.inl h
  refine passes.checks hp.window hp.settled (fun q hq => ?_) hp.cleanS hp.cleanV
  obtain ⟨scalar, reg⟩ := reads q hq
  rw [if_neg (by simp [scalar]), form, ← src]
  exact ⟨rfl, reg⟩

/-- What FCMP finds of a thread's first elements, of sources of a tag. -/
def fcmpElem (cc tag a b : Nat) (x : Warp) (n : Nat) : Bool × Option FFlags :=
  let u := (tagFmt tag).input (modeFtz x.mode) ((x.elemsV tag a n).getD 0 0)
  let v := (tagFmt tag).input (modeFtz x.mode) ((x.elemsV tag b n).getD 0 0)
  (floatCond cc u v, some { nv := u.isSig || v.isSig || ((u.isNan || v.isNan) && decide (2 ≤ cc ∧ cc ≤ 5)) })

/-- FCMP writes its p, or its q. -/
theorem fcmp_done {i : Instr} {s : State} {m : Bool} {mm : BitVec 2} {cc : BitVec 4} {r k : BitVec 1} {d : BitVec 3} {a b : BitVec 6}
    {p0 : PredSpec} {regs : List Nat} {c : Nat → Bool} (hi : issuing s = true) (hp : PredFits (comparing s p0 regs r k mm.toNat c) s)
    (hx : exec i s = execFcmp m mm cc r k d a b s)
    (hregs : regs = regsOf ((me s).tag a.toNat).toNat a.toNat ++ regsOf ((me s).tag a.toNat).toNat b.toNat) (hs : p0.vreads = regs)
    (he : p0.even = if ((me s).tag a.toNat).toNat = 13 then [a.toNat, b.toNat] else [])
    (ht : p0.tagsOk = (isArith ((me s).tag a.toNat).toNat && (me s).tag b.toNat == (me s).tag a.toNat
      && (((me s).tag a.toNat).toNat != 13 || ((me s).tag (a.toNat + 1) == 15 && (me s).tag (b.toNat + 1) == 15))))
    (hv : p0.vector = true) (hl : p0.len = 1) (hd : p0.d = d.toNat)
    (hc : ∀ t, c t = floatCond cc.toNat
      ((tagFmt ((me s).tag a.toNat).toNat).input (modeFtz (me s).mode) (((me s).elemsV ((me s).tag a.toNat).toNat a.toNat t).getD 0 0))
      ((tagFmt ((me s).tag a.toNat).toNat).input (modeFtz (me s).mode) (((me s).elemsV ((me s).tag a.toNat).toNat b.toNat t).getD 0 0))) :
    completes i s ((comparing s p0 regs r k mm.toNat c).done s) := by
  have checks := fcmpForm_checks (m := m) (a := a) (b := b) hp (hs.trans hregs) he ht
  obtain ⟨form, -⟩ := fcmpForm_congr m a b ((me s).noted (s.now s.cur))
  have act : (me s).active ≠ 0 := hp.active.resolve_left (by rw [show (comparing s p0 _ r k _ c).vector = p0.vector from rfl, hv]; simp)
  have tagB : (me s).tag b.toNat = (me s).tag a.toNat := by
    have tags := ht.symm.trans hp.tags
    simp only [Bool.and_eq_true, beq_iff_eq] at tags
    exact tags.1.2
  have uni : (fcmpForm m a b ((me s).noted (s.now s.cur))).uniform ((me s).noted (s.now s.cur)) = regs.all (me s).uBit := by
    have tag : ∀ r, ((me s).noted (s.now s.cur)).tag r = (me s).tag r := fun _ => rfl
    rw [form, hregs]
    simp only [floatForm, Form.uniform, tag, tagB, List.flatMap_cons, List.flatMap_nil, List.append_nil]
    rfl
  obtain rfl : c = _ := funext hc
  refine completes_predOp (q := k == 1#1) (all := r == 1#1) (rule := mm.toNat) (form := fcmpForm m a b)
    (fn := fcmpElem cc.toNat ((me s).tag a.toNat).toNat a.toNat b.toNat) hi hx rfl checks act
    (by rw [form]; rfl) (by rw [form]; exact hl.symm) hd ?_ rfl fun t => ?_
  · dsimp only
    rw [State.warp_noted_self]
    rfl
  · simp only [uni, beq_iff_eq]
    rfl

/-! ### Predicate moves and votes (R155, R156, R198) -/

section
variable {i : Instr} {s : State} {p : PredSpec} {m : Bool} {d a : BitVec 3} {n k : BitVec 1}

theorem movpScalar_done (hi : issuing s = true) (hp : PredFits p s) (hx : exec i s = execMovpScalar m d a n s) (hs : p.sreads = [])
    (hl : p.len = 1) (hq : p.toQ = true) (hd : p.d = d.toNat) (hv : p.value 0 = ((me s).q.getLsbD a.toNat != (n == 1#1))) :
    completes i s (p.done s) := by
  refine completes_q hi hx (scalForm_checks hp (len := 1) hs (by simp)) (Or.inl rfl) rfl hl.symm (fun _ => rfl) ?_ hq
  rw [hv, hd]
  rfl

theorem movpVector_done (hi : issuing s = true) (hp : PredFits p s) (hx : exec i s = execMovpVector m d k a n s) (hs : p.vreads = [])
    (ht : p.tagsOk = true) (hvec : p.vector = true) (hl : p.len = 1) (hq : p.toQ = false) (hd : p.d = d.toNat)
    (hv : ∀ t, p.value t = ((if k = 1#1 then (me s).q.getLsbD a.toNat else ((me s).pred a.toNat).getLsbD t) != (n == 1#1))) :
    completes i s (p.done s) := by
  have act : (me s).active ≠ 0 := hp.active.resolve_left (by simp [hvec])
  unfold execMovpVector at hx
  refine completes_predOp (q := false) (all := false) hi hx rfl (vecForm_checks hp (len := 1) hs ht) act rfl hl.symm hd rfl hq fun t => ?_
  rw [hv]
  by_cases hk : k = 1#1 <;> simp [hk, combine, Form.uniform] <;> rfl

theorem voteForm_checks (hp : PredFits p s) : s.checks (voteForm m []) = none := by
  have passes : Form.Passes (voteForm m []) s p.sreads p.vreads :=
    { names := by simp [voteForm], vnames := by simp [voteForm], also := by simp [voteForm], illegal := rfl, level := Nat.zero_le _
      even := by simp [voteForm], src := by simp [voteForm], tags := rfl, late := rfl }
  exact passes.checks hp.window hp.settled (by simp [voteForm]) hp.cleanS hp.cleanV

/-- A thread's vote. -/
theorem getLsbD_voteMask (x : Warp) (a t : Nat) (ht : t < 96) :
    (voteMask x n a).getLsbD t = (((x.pred a).getLsbD t != (n == 1#1)) && x.active.getLsbD t) := by
  unfold voteMask
  rw [BitVec.getLsbD_and]
  by_cases h : n = 1#1
  · simp [h, ht]
  · rw [if_neg h, beq_false_of_ne h, Bool.bne_false]

theorem voteMask_ne_zero (x : Warp) (a : Nat) :
    (voteMask x n a != 0) = (threads x.active).any fun t => (x.pred a).getLsbD t != (n == 1#1) := by
  rw [Bool.eq_iff_iff, bne_iff_ne, List.any_eq_true]
  constructor
  · intro h
    obtain ⟨hlt, hset⟩ := mem_threads.mp (lowest_mem h)
    rw [getLsbD_voteMask x a _ hlt, Bool.and_eq_true] at hset
    exact ⟨_, mem_threads.mpr ⟨hlt, hset.2⟩, hset.1⟩
  · rintro ⟨t, ht, hv⟩ h
    obtain ⟨hlt, hact⟩ := mem_threads.mp ht
    have := getLsbD_voteMask (n := n) x a t hlt
    rw [h, hv, hact] at this
    simp at this

theorem voteMask_eq_active (x : Warp) (a : Nat) :
    (voteMask x n a == x.active) = (threads x.active).all fun t => (x.pred a).getLsbD t != (n == 1#1) := by
  rw [Bool.eq_iff_iff, beq_iff_eq, List.all_eq_true]
  constructor
  · intro h t ht
    obtain ⟨hlt, hact⟩ := mem_threads.mp ht
    have := getLsbD_voteMask (n := n) x a t hlt
    rw [h, hact] at this
    simpa using this
  · intro h
    refine BitVec.eq_of_getLsbD_eq fun t ht => ?_
    rw [getLsbD_voteMask x a t ht]
    by_cases hact : x.active.getLsbD t = true
    · rw [h t (mem_threads.mpr ⟨ht, hact⟩), hact]
      rfl
    · simp [hact]

theorem voteAny_done {a : BitVec 6} (hi : issuing s = true) (hp : PredFits p s) (hx : exec i s = execVoteAny m n d a s) (hvec : p.vector = true)
    (hl : p.len = 1) (hq : p.toQ = true) (hd : p.d = d.toNat)
    (hv : p.value 0 = (threads (me s).active).any fun t => ((me s).pred a.toNat).getLsbD t != (n == 1#1)) : completes i s (p.done s) := by
  have act : (me s).active ≠ 0 := hp.active.resolve_left (by simp [hvec])
  refine completes_q hi hx (voteForm_checks hp) (Or.inr act) rfl hl.symm (fun _ => rfl) ?_ hq
  rw [hv, hd, ← voteMask_ne_zero]
  rfl

theorem voteAll_done {a : BitVec 6} (hi : issuing s = true) (hp : PredFits p s) (hx : exec i s = execVoteAll m n d a s) (hvec : p.vector = true)
    (hl : p.len = 1) (hq : p.toQ = true) (hd : p.d = d.toNat)
    (hv : p.value 0 = (threads (me s).active).all fun t => ((me s).pred a.toNat).getLsbD t != (n == 1#1)) : completes i s (p.done s) := by
  have act : (me s).active ≠ 0 := hp.active.resolve_left (by simp [hvec])
  refine completes_q hi hx (voteForm_checks hp) (Or.inr act) rfl hl.symm (fun _ => rfl) ?_ hq
  rw [hv, hd, ← voteMask_eq_active]
  rfl

end

/-- Settles O7: each form names its sources, and its effect sets one q or combines one p thread by thread. -/
theorem predicateWords : Obligations.PredicateWords := by
  unfold Obligations.PredicateWords
  intro i s p hp _ hi hf
  have fits := predFits hf
  cases i with
  | cmpScalar m mm c d a b =>
    cases hp
    exact cmpS_done hi fits rfl rfl (by simp [b.isLt]) rfl rfl rfl rfl
  | cmpiScalar m d a c n =>
    cases hp
    exact cmpS_done hi fits rfl rfl (by simp) rfl rfl rfl rfl
  | cmplScalar m d a mm c lit =>
    cases hp
    exact cmpS_done hi fits rfl rfl (by simp) rfl rfl rfl rfl
  | cmpVector m mm c r k d a b =>
    cases hp
    exact cmpV_done hi fits rfl rfl (by simp) rfl rfl rfl fun _ => rfl
  | cmpiVector m r k d a c n =>
    cases hp
    exact cmpV_done hi fits rfl rfl (by simp) rfl rfl rfl fun _ => rfl
  | cmplVector m r k d a mm c lit =>
    cases hp
    exact cmpV_done hi fits rfl rfl (by simp) rfl rfl rfl fun _ => rfl
  | fcmp m mm c r k d a b =>
    cases hp
    exact fcmp_done hi fits rfl rfl rfl rfl rfl rfl rfl rfl fun _ => rfl
  | movpScalar m d a n => cases hp; exact movpScalar_done hi fits rfl rfl rfl rfl rfl rfl
  | movpVector m d k a n => cases hp; exact movpVector_done hi fits rfl rfl rfl rfl rfl rfl rfl fun _ => rfl
  | voteAny m n d a => cases hp; exact voteAny_done hi fits rfl rfl rfl rfl rfl rfl
  | voteAll m n d a => cases hp; exact voteAll_done hi fits rfl rfl rfl rfl rfl rfl
  | _ => cases hp

end Sys2Proof.Machine
end

