-- ==== Sys2Proof/Proofs/RegisterWords.lean ====
section
/-! STATEMENT PROOFS. A slot of a halting core counts for the incoming context (R433, R436), which a word of another context does not
leave as it was. -/

namespace Sys2Proof.Machine

open Sys2Proof.Safety

/-- A warp of context 16 on a core that exchanges with its shadow bank, which holds context 17. -/
def swappingDesk : State := { userDesk with cores := [(0, { swapping := true, shadow := 18 })] }

theorem swappingDesk_issuing : issuing swappingDesk = true ∧ swappingDesk.ctxOf swappingDesk.cur = 16
    ∧ (swappingDesk.ctx 17).counts = [] := by decide

/-- WRC of DEMOTE's register, whose slot counts as SWAP for context 17. -/
theorem wrc_counts_incoming : ∃ t, exec (.wrc false 0 0x040) swappingDesk = .next t ∧ (t.ctx 17).counts ≠ [] := ⟨_, rfl, by decide⟩

/-- What the statement asks of that word: no other context changes. -/
theorem wrc_spec_keeps_others : ∃ p, registerWrites (.wrc false 0 0x040) swappingDesk = some p ∧ p.fits swappingDesk = true
    ∧ ∀ t, p.holds t → t.ctx 17 = swappingDesk.ctx 17 := by
  refine ⟨_, rfl, by decide, fun t h => ?_⟩
  obtain ⟨-, -, -, others⟩ := h
  exact others 17 (by decide)

/-- Refutes O16: where a warp issues WRC on a core that exchanges with its shadow bank, the slot is counted for the incoming context, and
the statement has every context but the warp's own as it was. -/
theorem not_registerWords : ¬ Obligations.RegisterWords := by
  unfold Obligations.RegisterWords
  intro h
  obtain ⟨p, hp, fits, kept⟩ := wrc_spec_keeps_others
  obtain ⟨issues, -, none⟩ := swappingDesk_issuing
  obtain ⟨t, ht, holds⟩ := h _ swappingDesk p (Or.inl hp) (by decide) issues fits
  obtain ⟨u, hu, counts⟩ := wrc_counts_incoming
  rw [hu] at ht
  cases ht
  exact counts ((congrArg Ctx.counts (kept _ holds)).trans none)

end Sys2Proof.Machine
end

