-- ==== Sys2Proof/Proofs/TileWords.lean ====
section
/-! STATEMENT PROOFS. A word that writes s61 confines the whole of A to M (R22), which the statement does not ask of the state before. -/

namespace Sys2Proof.Machine

open Sys2Proof.Safety

/-- A warp of a workgroup with one tile, whose running split has a thread of the second mask word in A that M has not. -/
def strayDesk : State :=
  { userDesk with
    wgs := [(0, { tcount := 1 })]
    warps := [(0, { resident := true, nsregs := 64, splits := [(0, { state := .running, m := 1, a := 1 ||| bit 40 })] })] }

theorem strayDesk_issuing : issuing strayDesk = true ∧ (me strayDesk).readS 62 = 0x100 := by decide

/-- TSTATE into s61 clears the thread that A had outside M. -/
theorem tstate_confines_mask : ∃ t, exec (.tstate false 61 0) strayDesk = .next t ∧ (me t).readS 62 = 0 := ⟨_, rfl, by decide⟩

/-- What the statement asks of that word: s62 reads as before. -/
theorem tstate_spec_keeps_s62 : ∃ p, tileWords (.tstate false 61 0) strayDesk = some p ∧ p.fits strayDesk = true
    ∧ ∀ t, p.holds t → (me t).readS 62 = (me strayDesk).readS 62 := by
  refine ⟨_, rfl, by decide, fun t h => ?_⟩
  obtain ⟨-, -, -, -, -, -, reads⟩ := h
  exact reads 62 (by decide)

/-- Refutes O17: TSTATE into s61 where A holds a thread outside M changes s62 as well. -/
theorem not_tileWords : ¬ Obligations.TileWords := by
  unfold Obligations.TileWords
  intro h
  obtain ⟨p, hp, fits, kept⟩ := tstate_spec_keeps_s62
  obtain ⟨issues, before⟩ := strayDesk_issuing
  obtain ⟨t, ht, holds⟩ := h _ strayDesk p hp (by decide) issues fits
  obtain ⟨u, hu, after⟩ := tstate_confines_mask
  rw [hu] at ht
  cases ht
  exact absurd (after.symm.trans ((kept _ holds).trans before)) (by decide)

end Sys2Proof.Machine
end


-- ==== Sys2Proof/Proofs/PlacementEvents.lean ====
section
/-! STATEMENT PROOFS. A resident grid of which a part was placed before: packing it ends at its total, where the statement asks for
the whole total more (R57, R360). -/

namespace Sys2Proof.Machine

open Sys2Proof.Safety

/-- Of one core that may take the next workgroup, the dispatcher chooses this one. -/
theorem getD_filter_singleton {α : Type} (p : α → Bool) (a : α) (n : Nat) : ([a].filter p).getD n a = a := by
  cases h : p a <;> cases n <;> simp [List.filter, h]

/-- Where one core alone may take the next workgroup, it goes there, whatever the dispatcher chooses. -/
theorem State.placeNext_of_one (s : State) (l c : Nat)
    (one : (((s.choose 16).2.coresOf (s.launch l).ctx).filter fun d =>
      !((s.choose 16).2.core d).swapping && ((s.choose 16).2.fitOn (s.launch l) d (s.choose 16).1).isSome) = [c]) :
    s.placeNext l = (((s.choose 16).2.choose ((s.choose 16).2.lighter [c]).length).2.fitOn (s.launch l) c (s.choose 16).1).map fun ps =>
      let r := ((s.choose 16).2.choose ((s.choose 16).2.lighter [c]).length).2.reserveWg l (s.launch l).next c ps
      (r.1, r.2.modLaunch l fun k => { k with next := k.next + 1 }) := by
  simp only [State.placeNext, one]
  unfold State.lighter
  rw [getD_filter_singleton]

/-- A resident launch of context 16, with one core and three accumulators for each of its two workgroups, one of which is counted
as placed. -/
def gridDesk : State :=
  { ({} : State) with
    parts := [(0, { state := .active, entry := [(8, 1), (36, 16), (40, 1)] })]
    ctxs := [(16, { loop := { contract := some {}, cores := [0] } })]
    launches := [(0, { active := true, ctx := 16, isResident := true, gridX := 2, gridY := 1, gridZ := 1, next := 1
                       tiles := [{ kind := 2, lacc := 0 }, { kind := 2, lacc := 1 }, { kind := 2, lacc := 2 }] })] }

/-- The one workgroup that packing places, and the machine then. -/
def gridPacked : List Nat × State := (gridDesk.packWhole 0).getD ([], gridDesk)

theorem gridDesk_packWhole : gridDesk.packWhole 0 = some gridPacked := by
  have h : (gridDesk.packWhole 0).isSome = true := by decide
  obtain ⟨p, hp⟩ := Option.isSome_iff_exists.mp h
  simp [gridPacked, hp]

/-- Two more workgroups do not fit. -/
theorem gridDesk_placeWhole : gridDesk.placeWhole 0 2 = none := by
  have first := State.placeNext_of_one gridDesk 0 0 rfl
  unfold State.placeWhole
  rw [first]
  rfl

theorem gridDesk_placeAll : gridDesk.placeAll 0 = some gridPacked := by
  have total : (gridDesk.launch 0).total = 2 := rfl
  unfold State.placeAll
  rw [total, gridDesk_placeWhole]
  exact gridDesk_packWhole

/-- WORKGROUP_PLACE places it, and both workgroups of the launch then count as placed. -/
theorem gridDesk_places : ∃ t, exec (.workgroupPlace 0) gridDesk = .next t ∧ (t.launch 0).next = 2 := by
  refine ⟨gridDesk.placeStep 0, rfl, ?_⟩
  have h : gridDesk.placeStep 0
      = ((gridPacked.1.foldl (fun (s : State) g => s.soonFor 0 3000 (.workgroupRelease g)) gridPacked.2).placedAll 0).keepRoom 0 := by
    show (match gridDesk.placeAll 0 with
      | some p => ((p.1.foldl (fun (s : State) g => s.soonFor 0 3000 (.workgroupRelease g)) p.2).placedAll 0).keepRoom 0
      | none => (gridDesk.makeRoom 0).blockPlace 0) = _
    rw [gridDesk_placeAll]
  rw [h]
  decide

/-- The statement asks for the whole grid more than was placed before. -/
theorem gridDesk_claim : ∃ p, placeClaims (.workgroupPlace 0) gridDesk = some p ∧ p.ok ∧ ∀ t, p.holds t → (t.launch 0).next = 3 := by
  have h : placeClaims (.workgroupPlace 0) gridDesk = (gridDesk.placeAll 0).map _ := rfl
  rw [gridDesk_placeAll] at h
  exact ⟨_, h, ⟨rfl, rfl, rfl, by decide⟩, fun t ht => ht.1⟩

/-- Refutes O29: where a workgroup of a resident grid counts as placed, the rest is packed up to the grid's total. -/
theorem not_placementEvents : ¬ Obligations.PlacementEvents := by
  unfold Obligations.PlacementEvents
  intro h
  obtain ⟨p, hp, ok, asks⟩ := gridDesk_claim
  obtain ⟨t, ht, holds⟩ := h _ gridDesk p hp ok
  obtain ⟨u, hu, total⟩ := gridDesk_places
  rw [hu] at ht
  cases ht
  exact absurd (total.symm.trans (asks _ holds)) (by decide)

end Sys2Proof.Machine
end


-- ==== Sys2Proof/Proofs/ServiceErrors.lean ====
section
/-! STATEMENT PROOFS. Walks, sweeps and errors: what the TLBs keep (R309 to R311) and what an error strikes (R334). -/

namespace Sys2Proof.Machine

open Sys2Proof.Safety

theorem sameMemory_refl (s : State) : sameMemory s s := ⟨fun _ _ => rfl, fun _ => rfl⟩

/-! ### Translations (R309 to R311) -/

/-- What both TLBs take of a walk that ends in a translation. -/
def State.takesWalk (s : State) (core va : Nat) (e : Tlb) : State :=
  (s.modCore core fun k => { k with tlb := (e :: k.tlb.filter fun x => !x.covers e.part e.asid va).take 1024 }).modCluster
    (clusterOf core) fun k => { k with tlb := (e :: k.tlb.filter fun x => !x.covers e.part e.asid va).take 4096 }

theorem exec_translationWalk_ok {s t : State} {ctx : Nat} {va : DWord} {k : Access} {e : Tlb} (core : Nat)
    (h : s.walk ctx va.toNat k false none = .ok e t) : exec (.translationWalk core ctx va k) s = .next (t.takesWalk core va.toNat e) := by
  show execTranslationWalk core ctx va k s = _
  unfold execTranslationWalk
  rw [h]
  rfl

theorem State.takesWalk_head (s : State) (core va : Nat) (e : Tlb) :
    ((s.takesWalk core va e).core core).tlb.head? = some e ∧ ((s.takesWalk core va e).cluster (clusterOf core)).tlb.head? = some e := by
  unfold State.takesWalk
  constructor
  · rw [State.core_modCluster, State.core_modCore, if_pos rfl]; rfl
  · rw [State.cluster_modCluster, if_pos rfl]; rfl

theorem keepsClaims_translationWalk (core ctx : Nat) (va : DWord) (k : Access) : KeepsClaims serviceClaims (.translationWalk core ctx va k) := by
  intro s p hp ok
  obtain rfl := Option.some.inj hp
  dsimp only at ok ⊢
  cases h : s.walk ctx va.toNat k false none with
  | ok e t =>
    obtain ⟨core', cluster'⟩ := t.takesWalk_head core va.toNat e
    exact ⟨_, exec_translationWalk_ok core h, core', cluster', rfl, rfl⟩
  | wait q t => rw [h] at ok; exact ok.elim
  | trap c => rw [h] at ok; exact ok.elim

/-- The generation after a sweep. -/
theorem State.sweep_gen (s : State) (p : Tlb → Bool) : (s.sweep p).gen = if s.gen ≥ 0xFFFF then 0 else s.gen + 1 := by
  unfold State.sweep
  dsimp only
  split <;> rfl

theorem State.cores_sweep (s : State) (p : Tlb → Bool) (h : Store.wf {} s.cores = true) (c : Nat) :
    ((s.sweep p).core c).tlb = (s.core c).tlb.filter fun e => !p e := by
  unfold State.sweep State.core
  dsimp only
  split
  · rw [Store.get_mapVals _ _ _ _ (Store.wf_mapVals _ _ _ h) rfl, Store.get_mapVals _ _ _ _ h rfl]
  · rw [Store.get_mapVals _ _ _ _ h rfl]

theorem State.clusters_sweep (s : State) (p : Tlb → Bool) (h : Store.wf {} s.clusters = true) (c : Nat) :
    ((s.sweep p).cluster c).tlb = (s.cluster c).tlb.filter fun e => !p e := by
  unfold State.sweep State.cluster
  dsimp only
  split <;> rw [Store.get_mapVals _ _ _ _ h rfl]

theorem State.sweep_rest (s : State) (p : Tlb → Bool) :
    s.sweep p = { s with gen := (s.sweep p).gen, cores := (s.sweep p).cores, clusters := (s.sweep p).clusters } := by
  unfold State.sweep
  dsimp only
  split <;> rfl

theorem keepsClaims_shootdownRequest (part : Nat) (asid : Option Nat) (va : Option DWord) :
    KeepsClaims serviceClaims (.shootdownRequest part asid va) := by
  rintro s p ⟨⟩ ⟨cores, clusters⟩
  refine ⟨_, rfl, ?_⟩
  generalize hit : (fun e : Tlb => e.part == part && (match asid with
    | some a => e.asid == a
    | none => true) && (match va with
    | some v => e.vpage == v.toNat / 2 ^ e.size
    | none => true)) = f
  have meets : ∀ e, f e = true ↔ e.part = part ∧ (∀ a, asid = some a → e.asid = a) ∧ ∀ v, va = some v → e.vpage = v.toNat / 2 ^ e.size := by
    intro e
    rw [← hit]
    cases asid <;> cases va <;> simp [and_assoc]
  dsimp only
  refine ⟨fun c e => ?_, fun c e => ?_, s.sweep_gen f, ?_, ?_⟩
  · rw [s.cores_sweep f cores, List.mem_filter, Bool.not_eq_true', ← Bool.not_eq_true, meets]
  · rw [s.clusters_sweep f clusters, List.mem_filter, Bool.not_eq_true', ← Bool.not_eq_true, meets]
  · rw [s.sweep_rest f]
  · rw [s.sweep_rest f]
    exact sameMemory_refl s

/-! ### Errors (R311, R334) -/

theorem keepsClaims_parityError (tgt : ParityTarget) : KeepsClaims serviceClaims (.parityError tgt) := by
  cases tgt with
  | lastPage c l =>
    rintro s p ⟨⟩ -
    refine ⟨_, rfl, ?_, fun d hd => ?_, ?_, sameMemory_refl s⟩
    · rw [State.core_modCore, if_pos rfl]
      exact (Store.get_erase none _ l l).trans (if_pos rfl)
    · rw [State.core_modCore, if_neg hd]
    · rw [State.core_modCore, if_pos rfl]
  | coreTlb c g =>
    rintro s p ⟨⟩ -
    refine ⟨_, rfl, fun e => ?_, fun d hd => ?_, sameMemory_refl s⟩
    · rw [State.core_modCore, if_pos rfl]; simp
    · rw [State.core_modCore, if_neg hd]
  | clusterTlb c g =>
    rintro s p ⟨⟩ -
    refine ⟨_, rfl, fun e => ?_, fun d hd => ?_, sameMemory_refl s⟩
    · rw [State.cluster_modCluster, if_pos rfl]; simp
    · rw [State.cluster_modCluster, if_neg hd]

end Sys2Proof.Machine
end


-- ==== Sys2Proof/Proofs/MemoryKept.lean ====
section
/-! SUPPORT. What a write at the home L2 leaves alone, field for field, that memory stays plain under it, and what a write-back of an
L1 does to what is read (R274, R275, R340). -/

namespace Sys2Proof.Machine

open Sys2Proof.Safety

/-- The machine beside the home L2s, HBM and the queues: what a write at the home L2 can touch at all is left out, and no more. -/
def State.besideMemory (s : State) : State :=
  { s with hbm := [], l2 := [], l2Ways := [], l2Misses := 0, hbmMoves := 0, lineGen := [], poisoned := [], queues := [] }

theorem State.besideMemory_foldl {β : Type} (f : State → β → State) (h : ∀ s b, (f s b).besideMemory = s.besideMemory) (l : List β)
    (s : State) : (l.foldl f s).besideMemory = s.besideMemory :=
  foldl_keeps State.besideMemory f h l s

/-- What is asked of the machine beside memory holds after such a change as before. -/
theorem State.of_besideMemory {α : Sort _} {s t : State} (h : t.besideMemory = s.besideMemory) (f : State → α)
    (hf : ∀ u : State, f u.besideMemory = f u) : f t = f s := by
  rw [← hf t, h, hf s]

/-- The fields that such a change may touch. -/
theorem State.eq_of_besideMemory {s t : State} (h : t.besideMemory = s.besideMemory) :
    t = { s with l2 := t.l2, hbm := t.hbm, hbmMoves := t.hbmMoves, l2Misses := t.l2Misses, l2Ways := t.l2Ways, lineGen := t.lineGen
                 poisoned := t.poisoned, queues := t.queues } := by
  have back : t = { t.besideMemory with l2 := t.l2, hbm := t.hbm, hbmMoves := t.hbmMoves, l2Misses := t.l2Misses, l2Ways := t.l2Ways
                                        lineGen := t.lineGen, poisoned := t.poisoned, queues := t.queues } := rfl
  rw [h] at back
  exact back

section
variable (s : State)

@[simp] theorem State.besideMemory_recipherAll (ls : List Nat) : (s.recipherAll ls).besideMemory = s.besideMemory := by
  unfold State.recipherAll
  split
  · rfl
  · exact State.besideMemory_foldl State.recipher (fun _ _ => rfl) _ s

@[simp] theorem State.besideMemory_l2Clean (p : Nat → Bool) : (s.l2Clean p).besideMemory = s.besideMemory :=
  s.besideMemory_recipherAll _

theorem State.besideMemory_putWays (m : Store (Nat × Nat)) : ({ s with l2Ways := m } : State).besideMemory = s.besideMemory := rfl

@[simp] theorem State.besideMemory_l2Alloc (line hint : Nat) : (s.l2Alloc line hint).besideMemory = s.besideMemory := by
  unfold State.l2Alloc
  dsimp only
  split
  · rfl
  · split
    · rfl
    · split
      · rfl
      · exact (State.besideMemory_putWays _ _).trans (State.besideMemory_l2Clean _ _)

@[simp] theorem State.besideMemory_ring (pa n : Nat) : (s.ring pa n).besideMemory = s.besideMemory := by
  unfold State.ring; split <;> rfl

@[simp] theorem State.besideMemory_l2WriteAs (pa : Nat) (bs : List Byte) (hint : Nat) :
    (s.l2WriteAs pa bs hint).besideMemory = s.besideMemory := by
  have put : (s.l2Put pa bs hint).besideMemory = s.besideMemory :=
    (State.besideMemory_ring _ _ _).trans (State.besideMemory_foldl _ (fun t l => t.besideMemory_l2Alloc l hint) _ s)
  unfold State.l2WriteAs State.l2Through
  split
  · exact put
  · exact (State.besideMemory_l2Clean _ _).trans put
@[simp] theorem State.besideMemory_l2Write (pa : Nat) (bs : List Byte) : (s.l2Write pa bs).besideMemory = s.besideMemory :=
  s.besideMemory_l2WriteAs pa bs 0
@[simp] theorem State.besideMemory_l2SetNum (pa n v : Nat) : (s.l2SetNum pa n v).besideMemory = s.besideMemory :=
  s.besideMemory_l2Write _ _

/-! ### Queues that a write rings (R340) -/

@[simp] theorem State.queues_l2Clean (p : Nat → Bool) : (s.l2Clean p).queues = s.queues := by
  show (s.recipherAll _).queues = _
  unfold State.recipherAll
  split
  · rfl
  · exact foldl_keeps State.queues State.recipher (fun _ _ => rfl) _ s

theorem State.queues_putWays (m : Store (Nat × Nat)) : ({ s with l2Ways := m } : State).queues = s.queues := rfl

@[simp] theorem State.queues_l2Alloc (line hint : Nat) : (s.l2Alloc line hint).queues = s.queues := by
  unfold State.l2Alloc
  dsimp only
  split
  · rfl
  · split
    · rfl
    · split
      · rfl
      · exact (State.queues_putWays _ _).trans (State.queues_l2Clean _ _)

/-- A write rings the queues whose TAIL it touches, and changes no more of them. -/
theorem State.queues_l2WriteAs (pa : Nat) (bs : List Byte) (hint : Nat) : (s.l2WriteAs pa bs hint).queues = (s.ring pa bs.length).queues := by
  have put : (s.l2Put pa bs hint).queues = (s.ring pa bs.length).queues := by
    show (((linesOf pa bs.length).foldl (fun s l => s.l2Alloc l hint) s).ring pa bs.length).queues = _
    have kept := foldl_keeps State.queues (fun (s : State) l => s.l2Alloc l hint) (fun t l => t.queues_l2Alloc l hint) (linesOf pa bs.length) s
    unfold State.ring
    rw [kept]
    split
    · exact kept
    · rfl
  unfold State.l2WriteAs State.l2Through
  split
  · exact put
  · rw [State.queues_l2Clean]; exact put

/-- A queue that a write of some bytes rings where they touch its TAIL. -/
def Queue.rungBy (pa n : Nat) (k : Queue) : Queue :=
  if k.state ≠ .unbound ∧ pa < k.qcb + 12 ∧ k.qcb + 8 < pa + n then { k with rung := true } else k

theorem Queue.rungBy_rest (pa n : Nat) (k : Queue) : k.rungBy pa n = { k with rung := (k.rungBy pa n).rung } := by
  unfold Queue.rungBy; split <;> rfl
theorem Queue.rungBy_unlisted (pa n : Nat) : Queue.rungBy pa n {} = {} := if_neg fun c => c.1 rfl

theorem State.queues_ring (pa n : Nat) :
    (s.ring pa n).queues = if s.queues.isEmpty then s.queues else Store.mapVals {} s.queues fun _ k => k.rungBy pa n := by
  unfold State.ring; split <;> rfl

theorem State.wf_queues_ring (pa n : Nat) (h : Store.wf {} s.queues = true) : Store.wf {} (s.ring pa n).queues = true := by
  rw [State.queues_ring]
  split
  · exact h
  · exact Store.wf_mapVals _ _ _ h

theorem State.queue_ring (pa n q : Nat) (h : Store.wf {} s.queues = true) :
    (s.ring pa n).queue q = { s.queue q with rung := ((s.ring pa n).queue q).rung } := by
  unfold State.queue
  rw [State.queues_ring]
  split
  · rfl
  · rw [Store.get_mapVals _ _ (fun _ k => Queue.rungBy pa n k) _ h (Queue.rungBy_unlisted pa n)]
    exact Queue.rungBy_rest _ _ _

theorem State.queuesRung_l2WriteAs (pa : Nat) (bs : List Byte) (hint : Nat) (h : Store.wf {} s.queues = true) :
    queuesRung s (s.l2WriteAs pa bs hint) := by
  intro q
  have rung : (s.l2WriteAs pa bs hint).queue q = (s.ring pa bs.length).queue q := by
    unfold State.queue; rw [State.queues_l2WriteAs]
  rw [rung]
  exact s.queue_ring pa bs.length q h
end

/-! ### Plain memory -/

section
variable {s : State} (h : plainMemory s)
include h

theorem plainMemory_l2WriteAs (pa : Nat) (bs : List Byte) (hint : Nat) : plainMemory (s.l2WriteAs pa bs hint) := by
  obtain ⟨wf, keys, queues⟩ := h
  refine ⟨Memory.wf_l2WriteAs s pa bs hint wf, (State.l2Read_l2WriteAs s pa bs hint keys wf 0).1, ?_⟩
  rw [State.queues_l2WriteAs]
  exact s.wf_queues_ring pa bs.length queues
theorem plainMemory_l2Write (pa : Nat) (bs : List Byte) : plainMemory (s.l2Write pa bs) := plainMemory_l2WriteAs h pa bs 0

/-- A byte of the home L2 after a write there. -/
theorem l2Read_l2WriteAs_of_plain (pa : Nat) (bs : List Byte) (hint q : Nat) :
    (s.l2WriteAs pa bs hint).l2Read q = if pa ≤ q ∧ q < pa + bs.length then bs.getD (q - pa) 0 else s.l2Read q :=
  (State.l2Read_l2WriteAs s pa bs hint h.2.1 h.1 q).2
theorem l2Read_l2Write_of_plain (pa : Nat) (bs : List Byte) (q : Nat) :
    (s.l2Write pa bs).l2Read q = if pa ≤ q ∧ q < pa + bs.length then bs.getD (q - pa) 0 else s.l2Read q :=
  l2Read_l2WriteAs_of_plain h pa bs 0 q
end

end Sys2Proof.Machine
end


-- ==== Sys2Proof/Proofs/L1Writeback.lean ====
section
/-! SUPPORT. What a write-back of a core's L1 does to the bytes that are read (R274). -/

namespace Sys2Proof.Machine

open Sys2Proof.Safety

/-! ### Entries of a collection in canonical form -/

theorem Store.get_of_mem {α : Type} [DecidableEq α] {d : α} {m : Store α} (h : Store.wf d m = true) {e : Nat × α} (he : e ∈ m) :
    Store.get d m e.1 = e.2 := by
  obtain ⟨sorted, -⟩ := (Store.wf_iff d m).mp h
  clear h
  induction m with
  | nil => cases he
  | cons f m ih =>
    obtain ⟨below, rest⟩ := List.pairwise_cons.mp sorted
    rw [show f = (f.1, f.2) from rfl, Store.get_cons]
    rcases List.mem_cons.mp he with rfl | he
    · exact if_pos rfl
    · rw [if_neg (Nat.ne_of_lt (below e he)), ih he rest]

theorem Store.mem_of_get {α : Type} (d : α) {m : Store α} {k : Nat} (h : Store.get d m k ≠ d) : (k, Store.get d m k) ∈ m := by
  induction m with
  | nil => exact absurd rfl h
  | cons f m ih =>
    rw [show f = (f.1, f.2) from rfl, Store.get_cons] at h ⊢
    split at h
    · rename_i hk
      subst hk
      simp
    · rename_i hk
      rw [if_neg hk]
      exact List.mem_cons_of_mem _ (ih h)

/-! ### The bytes that a write-back takes -/

theorem l1Key_inj {core a b : Nat} (h : l1Key core a = l1Key core b) : a = b := Nat.add_left_cancel h

/-- The bytes of a core's L1 that satisfy a test, by their addresses. -/
def State.l1Mine (s : State) (core : Nat) (p : Nat → L1Byte → Bool) : List (Nat × L1Byte) :=
  s.l1.filterMap fun e => match e.2 with
    | some b => if e.1 / 2 ^ 40 = core ∧ p (e.1 % 2 ^ 40) b then some (e.1 % 2 ^ 40, b) else none
    | none => none

section
variable {s : State} {core : Nat} {p : Nat → L1Byte → Bool}

/-- The entry of a byte that is taken. -/
theorem State.l1Mine_entry {e : Nat × Option L1Byte} {x : Nat × L1Byte}
    (h : (match e.2 with
      | some b => if e.1 / 2 ^ 40 = core ∧ p (e.1 % 2 ^ 40) b then some (e.1 % 2 ^ 40, b) else none
      | none => none) = some x) : e = (l1Key core x.1, some x.2) ∧ x.1 < 2 ^ 40 ∧ p x.1 x.2 = true := by
  obtain ⟨k, v⟩ := e
  cases v with
  | none => cases h
  | some b =>
    dsimp only at h
    split at h
    · rename_i hc
      cases h
      refine ⟨?_, Nat.mod_lt _ (by decide), hc.2⟩
      have key : l1Key core (k % 2 ^ 40) = k := by
        rw [← hc.1, l1Key, Nat.mul_comm]
        exact Nat.div_add_mod k _
      rw [key]
    · cases h

theorem State.mem_l1Mine (h : Store.wf none s.l1 = true) (x : Nat × L1Byte) :
    x ∈ s.l1Mine core p ↔ x.1 < 2 ^ 40 ∧ Store.get none s.l1 (l1Key core x.1) = some x.2 ∧ p x.1 x.2 = true := by
  unfold State.l1Mine
  rw [List.mem_filterMap]
  constructor
  · rintro ⟨e, he, hx⟩
    obtain ⟨rfl, low, meets⟩ := State.l1Mine_entry hx
    exact ⟨low, Store.get_of_mem h he, meets⟩
  · rintro ⟨low, listed, meets⟩
    refine ⟨(l1Key core x.1, some x.2), ?_, ?_⟩
    · rw [← listed]
      exact Store.mem_of_get none (by rw [listed]; simp)
    · have mod : l1Key core x.1 % 2 ^ 40 = x.1 := by unfold l1Key; omega
      have div : l1Key core x.1 / 2 ^ 40 = core := by unfold l1Key; omega
      dsimp only
      rw [mod, div, if_pos ⟨rfl, meets⟩]

/-- No address is taken twice. -/
theorem State.l1Mine_nodup (h : Store.wf none s.l1 = true) : (s.l1Mine core p).Pairwise fun x y => x.1 ≠ y.1 := by
  obtain ⟨sorted, -⟩ := (Store.wf_iff _ _).mp h
  refine List.Pairwise.filterMap _ (fun a b hab x hx y hy => ?_) sorted
  obtain ⟨rfl, -⟩ := State.l1Mine_entry hx
  obtain ⟨rfl, -⟩ := State.l1Mine_entry hy
  intro same
  rw [same] at hab
  exact Nat.lt_irrefl _ hab
end

/-! ### The home L2 after it -/

/-- The dirty ones of some bytes are written at the home L2. -/
def State.putBack (s : State) (core : Nat) (l : List (Nat × L1Byte)) : State :=
  l.foldl (fun s e => if e.2.dirty then s.l2WriteAs e.1 [e.2.val] (s.l1Hint core (e.1 / 128)) else s) s

theorem State.besideMemory_putBack (s : State) (core : Nat) (l : List (Nat × L1Byte)) : (s.putBack core l).besideMemory = s.besideMemory :=
  State.besideMemory_foldl _ (fun t e => by split <;> simp) l s

theorem State.l2Read_putBack_other {s : State} (h : plainMemory s) (core : Nat) (l : List (Nat × L1Byte)) (q : Nat)
    (hq : ∀ e ∈ l, e.1 = q → e.2.dirty = false) : (s.putBack core l).l2Read q = s.l2Read q := by
  induction l generalizing s with
  | nil => rfl
  | cons e l ih =>
    have rest := fun {s : State} (h : plainMemory s) => ih h fun x hx => hq x (List.mem_cons_of_mem _ hx)
    show State.l2Read (State.putBack (if _ then _ else _) core l) q = _
    split
    · rename_i dirty
      have away : e.1 ≠ q := fun c => by rw [hq e List.mem_cons_self c] at dirty; cases dirty
      rw [rest (plainMemory_l2WriteAs h _ _ _), l2Read_l2WriteAs_of_plain h, if_neg (by simp only [List.length_singleton]; omega)]
    · exact rest h

theorem State.l2Read_putBack {s : State} (h : plainMemory s) (core : Nat) (l : List (Nat × L1Byte)) (once : l.Pairwise fun x y => x.1 ≠ y.1)
    {e : Nat × L1Byte} (he : e ∈ l) (dirty : e.2.dirty = true) : (s.putBack core l).l2Read e.1 = e.2.val := by
  induction l generalizing s with
  | nil => cases he
  | cons f l ih =>
    obtain ⟨apart, once⟩ := List.pairwise_cons.mp once
    rcases List.mem_cons.mp he with rfl | he
    · show State.l2Read (State.putBack (if _ then _ else _) core l) e.1 = _
      rw [if_pos dirty, State.l2Read_putBack_other (plainMemory_l2WriteAs h _ _ _) core l e.1 fun x hx c => absurd c.symm (apart x hx),
        l2Read_l2WriteAs_of_plain h, if_pos (by simp)]
      simp
    · show State.l2Read (State.putBack (if _ then _ else _) core l) e.1 = _
      split
      · exact ih (plainMemory_l2WriteAs h _ _ _) once he
      · exact ih h once he

/-! ### The L1 after it -/

/-- Some bytes of a core's L1 turn clean. -/
def cleaned (core : Nat) (l : List (Nat × L1Byte)) (m : Store (Option L1Byte)) : Store (Option L1Byte) :=
  l.foldl (fun m e => Store.insert m (l1Key core e.1) (some { e.2 with dirty := false, whole := false })) m

theorem cleaned_other (core : Nat) (l : List (Nat × L1Byte)) (m : Store (Option L1Byte)) (k : Nat) (hk : ∀ e ∈ l, l1Key core e.1 ≠ k) :
    Store.get none (cleaned core l m) k = Store.get none m k := by
  refine List.foldlRecOn (motive := fun n => Store.get none n k = Store.get none m k) l _ rfl fun n hn e he => ?_
  rw [Store.get_insert, if_neg (hk e he).symm, hn]

theorem cleaned_mine (core : Nat) (l : List (Nat × L1Byte)) (m : Store (Option L1Byte)) (once : l.Pairwise fun x y => x.1 ≠ y.1)
    {e : Nat × L1Byte} (he : e ∈ l) :
    Store.get none (cleaned core l m) (l1Key core e.1) = some { e.2 with dirty := false, whole := false } := by
  induction l generalizing m with
  | nil => cases he
  | cons f l ih =>
    obtain ⟨apart, once⟩ := List.pairwise_cons.mp once
    rcases List.mem_cons.mp he with rfl | he
    · refine (cleaned_other core l _ _ fun x hx c => apart x hx (l1Key_inj c).symm).trans ?_
      rw [Store.get_insert, if_pos rfl]
    · exact ih _ once he

/-! ### A write-back -/

/-- A write-back that forgets nothing, by its parts. -/
theorem State.l1Writeback_parts (s : State) (core : Nat) (p : Nat → L1Byte → Bool) :
    (s.l1Writeback core p false).l1 = cleaned core (s.l1Mine core p) s.l1 ∧ (s.l1Writeback core p false).warps = s.warps
      ∧ ∀ q, (s.l1Writeback core p false).l2Read q = (s.putBack core (s.l1Mine core p)).l2Read q := by
  have beside := s.besideMemory_putBack core (s.l1Mine core p)
  have l1 : (s.putBack core (s.l1Mine core p)).l1 = s.l1 := State.of_besideMemory beside State.l1 fun _ => rfl
  have warps : (s.putBack core (s.l1Mine core p)).warps = s.warps := State.of_besideMemory beside State.warps fun _ => rfl
  have step : ∃ x us, s.l1Writeback core p false = { ((if (s.putBack core (s.l1Mine core p)).poisoned.isEmpty then s.putBack core (s.l1Mine core p)
      else (s.putBack core (s.l1Mine core p)).clearUnits us).addWork core x) with
        l1 := cleaned core (s.l1Mine core p) (if (s.putBack core (s.l1Mine core p)).poisoned.isEmpty then s.putBack core (s.l1Mine core p)
          else (s.putBack core (s.l1Mine core p)).clearUnits us).l1 } := ⟨_, _, rfl⟩
  obtain ⟨x, us, step⟩ := step
  rw [step]
  generalize s.putBack core (s.l1Mine core p) = t at l1 warps
  rw [← l1, ← warps]
  split <;> exact ⟨rfl, rfl, fun _ => rfl⟩

end Sys2Proof.Machine
end


-- ==== Sys2Proof/Proofs/AgedLines.lean ====
section
/-! STATEMENT PROOFS. The age of dirty lines in an L1 (R274). -/

namespace Sys2Proof.Machine

open Sys2Proof.Safety

/-- A byte of a core's L1 that is dirty and not its own alone, by its address. -/
def State.ageing (s : State) (core pa : Nat) (b : L1Byte) : Prop :=
  Store.get none s.l1 (l1Key core pa) = some b ∧ b.dirty = true ∧ b.priv = false

/-- The least of some numbers, none where there are none. -/
def LeastOf (P : Nat → Prop) : Option Nat → Prop
  | none => ∀ n, ¬ P n
  | some t => P t ∧ ∀ n, P n → t ≤ n

/-- The least of one number more. -/
theorem LeastOf.insert {P Q : Nat → Prop} {b : Option Nat} (h : LeastOf P b) (n : Nat) (hQ : ∀ k, Q k ↔ P k ∨ k = n) :
    LeastOf Q (some (min n (b.getD n))) := by
  cases b with
  | none =>
    refine ⟨(hQ _).mpr (.inr (by simp)), fun k hk => ?_⟩
    rcases (hQ k).mp hk with hk | rfl
    · exact absurd hk (h k)
    · simp
  | some t =>
    obtain ⟨at', least⟩ := h
    refine ⟨(hQ _).mpr ?_, fun k hk => ?_⟩
    · rcases Nat.le_total n t with c | c
      · exact .inr (by simpa using c)
      · exact .inl (by simpa [Nat.min_eq_right c] using at')
    · rcases (hQ k).mp hk with hk | rfl
      · exact Nat.le_trans (Nat.min_le_right _ _) (least k hk)
      · exact Nat.min_le_left _ _

theorem LeastOf.congr {P Q : Nat → Prop} {b : Option Nat} (h : LeastOf P b) (hQ : ∀ k, Q k ↔ P k) : LeastOf Q b := by
  rwa [funext fun k => propext (hQ k)]

/-- The moment that the model looks for is the least at which a byte of the line turned dirty. -/
theorem State.oldestDirty_least (s : State) (core line : Nat) :
    LeastOf (fun n => ∃ i b, i < 128 ∧ s.ageing core (line * 128 + i) b ∧ b.since = n) (s.oldestDirty core line) := by
  have upto : ∀ m, LeastOf (fun n => ∃ i b, i < m ∧ s.ageing core (line * 128 + i) b ∧ b.since = n)
      ((List.range m).foldl (fun b i => match Store.get none s.l1 (l1Key core (line * 128 + i)) with
        | some x => if x.dirty && !x.priv then some (min x.since (b.getD x.since)) else b
        | none => b) none) := by
    intro m
    induction m with
    | zero => rintro n ⟨i, b, hi, -⟩; cases hi
    | succ m ih =>
      rw [List.range_succ, List.foldl_append, List.foldl_cons, List.foldl_nil]
      have skip : (∀ b, ¬ s.ageing core (line * 128 + m) b) → ∀ n,
          (∃ i b, i < m + 1 ∧ s.ageing core (line * 128 + i) b ∧ b.since = n)
            ↔ ∃ i b, i < m ∧ s.ageing core (line * 128 + i) b ∧ b.since = n := by
        intro none n
        constructor
        · rintro ⟨i, b, hi, hb, hn⟩
          rcases Nat.lt_succ_iff_lt_or_eq.mp hi with hi | rfl
          · exact ⟨i, b, hi, hb, hn⟩
          · exact absurd hb (none b)
        · rintro ⟨i, b, hi, hb⟩
          exact ⟨i, b, Nat.lt_succ_of_lt hi, hb⟩
      split
      · rename_i x hx
        split
        · rename_i dirty
          simp only [Bool.and_eq_true, Bool.not_eq_true'] at dirty
          refine ih.insert x.since fun n => ?_
          constructor
          · rintro ⟨i, b, hi, hb, hn⟩
            rcases Nat.lt_succ_iff_lt_or_eq.mp hi with hi | rfl
            · exact .inl ⟨i, b, hi, hb, hn⟩
            · obtain rfl : x = b := Option.some.inj (hx.symm.trans hb.1)
              exact .inr hn.symm
          · rintro (⟨i, b, hi, hb⟩ | rfl)
            · exact ⟨i, b, Nat.lt_succ_of_lt hi, hb⟩
            · exact ⟨m, x, Nat.lt_succ_self m, ⟨hx, dirty⟩, rfl⟩
        · rename_i clean
          refine ih.congr (skip fun b hb => clean ?_)
          obtain rfl : x = b := Option.some.inj (hx.symm.trans hb.1)
          simp [hb.2]
      · rename_i hx
        exact ih.congr (skip fun b hb => by cases hx.symm.trans hb.1)
  exact upto 128

/-- A line has an old dirty byte where the oldest is old. -/
theorem State.aged_iff (s : State) (core line : Nat) :
    (∃ pa b, (pa / 128 = line ∧ s.ageing core pa b) ∧ b.since + 50000 ≤ s.time) ↔ ∃ t, s.oldestDirty core line = some t ∧ t + 50000 ≤ s.time := by
  have least := s.oldestDirty_least core line
  constructor
  · rintro ⟨pa, b, ⟨rfl, hb⟩, old⟩
    have place : pa / 128 * 128 + pa % 128 = pa := by omega
    have found : ∃ i c, i < 128 ∧ s.ageing core (pa / 128 * 128 + i) c ∧ c.since = b.since :=
      ⟨pa % 128, b, by omega, by rw [place]; exact hb, rfl⟩
    cases h : s.oldestDirty core (pa / 128) with
    | none => rw [h] at least; exact absurd found (least _)
    | some t =>
      rw [h] at least
      exact ⟨t, rfl, Nat.le_trans (Nat.add_le_add_right (least.2 _ found) _) old⟩
  · rintro ⟨t, h, old⟩
    rw [h] at least
    obtain ⟨i, b, hi, hb, rfl⟩ := least.1
    exact ⟨line * 128 + i, b, ⟨by omega, hb⟩, old⟩

/-- The line's old dirty bytes go to their home L2. -/
theorem State.l1Writeback_line {s : State} (h : plainMemory s) (core : Nat) {line : Nat} (hl : line < 2 ^ 33) :
    let t := s.l1Writeback core (fun pa b => pa / 128 == line && b.dirty && !b.priv) false
    (∀ pa b, pa / 128 = line → s.ageing core pa b → t.l2Read pa = b.val ∧ Store.get none t.l1 (l1Key core pa) = some { b with dirty := false, whole := false })
      ∧ ∀ pa, pa < 2 ^ 40 → (∀ b, ¬ (pa / 128 = line ∧ s.ageing core pa b)) → t.l2Read pa = s.l2Read pa := by
  obtain ⟨l1, -, reads⟩ := s.l1Writeback_parts core (fun pa b => pa / 128 == line && b.dirty && !b.priv)
  obtain ⟨-, -, wf⟩ := (Memory.wf_iff s).mp h.1
  dsimp only
  rw [l1]
  have once := State.l1Mine_nodup (core := core) (p := fun pa b => pa / 128 == line && b.dirty && !b.priv) wf
  have taken := State.mem_l1Mine (core := core) (p := fun pa b => pa / 128 == line && b.dirty && !b.priv) wf
  generalize s.l1Mine core (fun pa b => pa / 128 == line && b.dirty && !b.priv) = mine at once taken reads
  refine ⟨fun pa b hpa hb => ?_, fun pa hpa none => ?_⟩
  · obtain ⟨listed, dirty, priv⟩ := hb
    have mem : (pa, b) ∈ mine := (taken _).mpr ⟨by dsimp only; omega, listed, by simp [hpa, dirty, priv]⟩
    exact ⟨(reads pa).trans (State.l2Read_putBack h core mine once mem dirty), cleaned_mine core mine s.l1 once mem⟩
  · refine (reads pa).trans (State.l2Read_putBack_other h core mine pa fun e he hq => ?_)
    subst hq
    obtain ⟨-, listed, meets⟩ := (taken e).mp he
    simp only [Bool.and_eq_true, Bool.not_eq_true', beq_iff_eq] at meets
    exact absurd ⟨meets.1.1, listed, meets.1.2, meets.2⟩ (none e.2)

theorem keepsClaims_l1DirtyAgeWriteback (core line : Nat) : KeepsClaims serviceClaims (.l1DirtyAgeWriteback core line) := by
  intro s p hp ok
  obtain rfl := Option.some.inj hp
  obtain ⟨plain, low⟩ := ok
  have aged := s.aged_iff core line
  refine ⟨_, rfl, ?_⟩
  dsimp only
  have old : (∃ pa b, (pa / 128 = line ∧ Store.get none s.l1 (l1Key core pa) = some b ∧ b.dirty = true ∧ b.priv = false)
      ∧ b.since + 50000 ≤ s.time) ↔ _ := aged
  rw [old]
  cases h : s.oldestDirty core line with
  | none =>
    dsimp only
    refine ⟨rfl, ?_, fun _ => ⟨rfl, sameMemory_refl s⟩⟩
    rintro ⟨t, none, -⟩
    cases none
  | some t =>
    dsimp only
    by_cases due : t + 50000 ≤ s.time
    · rw [if_pos due]
      obtain ⟨took, rest⟩ := State.l1Writeback_line plain core low
      exact ⟨(s.l1Writeback_parts core _).2.1, fun _ => ⟨fun pa b hb => took pa b hb.1 hb.2, rest⟩, fun c => absurd ⟨t, rfl, due⟩ c⟩
    · rw [if_neg due]
      refine ⟨rfl, ?_, fun _ => ⟨rfl, sameMemory_refl s⟩⟩
      rintro ⟨u, hu, old⟩
      exact absurd (Option.some.inj hu ▸ old) due

end Sys2Proof.Machine
end


-- ==== Sys2Proof/Proofs/ControlNode.lean ====
section
/-! STATEMENT PROOFS. What comes over HOCP (R275, R276, R340), and errors of memory and state (R334, R378). -/

namespace Sys2Proof.Machine

open Sys2Proof.Safety

/-! ### Numbers at the home L2 (R10) -/

theorem length_leBytes (n v : Nat) : (leBytes n v).length = n := by
  induction n generalizing v with
  | zero => rfl
  | succ n ih => rw [leBytes, List.length_cons, ih]

theorem leNat_leBytes (n v : Nat) : leNat (leBytes n v) = v % 256 ^ n := by
  induction n generalizing v with
  | zero => simp [leBytes, leNat, Nat.mod_one]
  | succ n ih =>
    rw [leBytes, leNat, ih, BitVec.toNat_ofNat, show 256 ^ (n + 1) = 256 * 256 ^ n from Nat.pow_succ', Nat.mod_mul]

/-- The bytes of a write read back. -/
theorem l2Bytes_l2Write_of_plain {s : State} (h : plainMemory s) (pa : Nat) (bs : List Byte) :
    (s.l2Write pa bs).l2Bytes pa bs.length = bs := by
  refine List.ext_getElem (by simp [State.l2Bytes]) fun i hi hb => ?_
  simp only [State.l2Bytes, List.getElem_map, List.getElem_range]
  rw [l2Read_l2Write_of_plain h, if_pos (by omega), Nat.add_sub_cancel_left, List.getD_eq_getElem _ _ hb]

theorem l2Num_l2SetNum_of_plain {s : State} (h : plainMemory s) (pa n v : Nat) : (s.l2SetNum pa n v).l2Num pa n = v % 256 ^ n := by
  have bytes := l2Bytes_l2Write_of_plain h pa (leBytes n v)
  rw [length_leBytes] at bytes
  rw [State.l2Num, State.l2SetNum, bytes, leNat_leBytes]

/-! ### HOCP (R275, R276, R340) -/

theorem keepsClaims_hocpWrite (pa : Nat) (v : Word) : KeepsClaims serviceClaims (.hocpWrite pa v) := by
  intro s p hp ok
  obtain rfl := Option.some.inj hp
  obtain ⟨plain, inside⟩ := ok
  refine ⟨s.l2SetNum pa 4 v.toNat, if_neg (by omega), ?_, fun q hq => ?_, ?_, ?_⟩
  · rw [l2Num_l2SetNum_of_plain plain]
    exact Nat.mod_eq_of_lt v.isLt
  · rw [State.l2SetNum, l2Read_l2Write_of_plain plain, length_leBytes, if_neg hq]
  · exact s.queuesRung_l2WriteAs pa _ 0 plain.2.2
  · exact State.eq_of_besideMemory (s.besideMemory_l2SetNum pa 4 v.toNat)

/-- Bytes written one after another in HBM. -/
theorem Store.get_setRun (pa : Nat) (bs : List Byte) (n : Nat) (m : Store Byte) (q : Nat) :
    Store.get 0 ((bs.zipIdx n).foldl (fun m p => Store.set 0 m (pa + p.2) p.1) m) q
      = if pa + n ≤ q ∧ q < pa + n + bs.length then bs.getD (q - (pa + n)) 0 else Store.get 0 m q := by
  induction bs generalizing n m with
  | nil => rw [if_neg (by simp)]; rfl
  | cons b bs ih =>
    rw [List.zipIdx_cons, List.foldl_cons, ih, Store.get_set, List.length_cons]
    by_cases here : q = pa + n
    · subst here
      rw [if_neg (by omega), if_pos rfl, if_pos (by omega), Nat.sub_self]
      rfl
    · rw [if_neg here]
      by_cases later : pa + (n + 1) ≤ q ∧ q < pa + (n + 1) + bs.length
      · rw [if_pos later, if_pos (by omega), show q - (pa + n) = (q - (pa + (n + 1))) + 1 by omega]
        rfl
      · rw [if_neg later, if_neg (by omega)]

/-- HBM after a block is written to it, under keys that stand. -/
def State.putBlock (s : State) (pa n : Nat) (bs : List Byte) : State :=
  ({ s with hbmMoves := s.hbmMoves + (linesOf pa (min n bs.length)).length
            hbm := (bs.take n).zipIdx.foldl (fun m p => Store.set 0 m (pa + p.2) p.1) s.hbm } : State).clearReport pa (min n bs.length)

theorem exec_hocpBlockTransfer_write {s : State} (h : s.keysStand) {pa n : Nat} (inside : pa + n ≤ hbmSize) (bs : List Byte) :
    exec (.hocpBlockTransfer pa n (some bs)) s = .next (s.putBlock pa n bs) := by
  show execHocpBlockTransfer pa n (some bs) s = _
  unfold execHocpBlockTransfer
  rw [if_neg (by omega)]
  dsimp only
  rw [State.recipherAll_eq s h]
  rfl

theorem keepsClaims_hocpBlockTransfer (pa n : Nat) (data : Option (List Byte)) : KeepsClaims serviceClaims (.hocpBlockTransfer pa n data) := by
  cases data with
  | none =>
    intro s p hp inside
    obtain rfl := Option.some.inj hp
    dsimp only at inside
    refine ⟨_, if_neg (by omega), (List.range n).map fun i => s.hbmRead (pa + i), by simp, fun i hi => by simp [hi], rfl⟩
  | some bs =>
    intro s p hp ok
    obtain rfl := Option.some.inj hp
    obtain ⟨keys, inside⟩ := ok
    refine ⟨_, exec_hocpBlockTransfer_write keys inside bs, fun i hi => ?_, fun q hq => ?_, rfl⟩
    · refine (Store.get_setRun pa (bs.take n) 0 s.hbm (pa + i)).trans ?_
      rw [if_pos (by rw [List.length_take]; omega), Nat.add_zero, Nat.add_sub_cancel_left]
      simp [List.getD_eq_getElem?_getD, Nat.lt_of_lt_of_le hi (Nat.min_le_left _ _)]
    · refine (Store.get_setRun pa (bs.take n) 0 s.hbm q).trans (if_neg ?_)
      rw [List.length_take, Nat.add_zero]
      exact hq

theorem keepsClaims_systemMemoryAnswer (id : Nat) (a : SysAnswer) : KeepsClaims serviceClaims (.systemMemoryAnswer id a) := by
  intro s p hp posted
  obtain ⟨r, hr, rfl⟩ := Option.map_eq_some_iff.mp hp
  have step : exec (.systemMemoryAnswer id a) s = .next (({ s with sysReqs := s.sysReqs.filter fun x => x.id != id } : State).modCtx r.ctx
      fun c => { c with sysOut := c.sysOut - 1
                        sysFault := if a == .refuse && c.sysFault.isNone then some (0x0F, r.addr) else c.sysFault }) := by
    show execSystemMemoryAnswer id a s = _
    unfold execSystemMemoryAnswer
    rw [hr]
    dsimp only at posted ⊢
    rw [if_pos posted]
  refine ⟨_, step, fun x hx => ?_, ?_, ?_, rfl, sameMemory_refl s⟩
  · simpa using (List.mem_filter.mp hx).2
  · rw [State.ctx_modCtx, if_pos rfl]
    rfl
  · rw [State.ctx_modCtx, if_pos rfl]
    refine if_congr ?_ rfl rfl
    rw [Bool.and_eq_true, beq_iff_eq, Option.isNone_iff_eq_none]
    rfl

/-! ### Errors (R334, R378) -/

/-- A bit more of a mask of scalar registers. -/
theorem getLsbD_or_one_shift (m : BitVec 64) {r : Nat} (hr : r < 64) (k : Nat) :
    (m ||| (1#64 <<< r)).getLsbD k = (m.getLsbD k || decide (k = r)) := by
  rw [BitVec.getLsbD_or, BitVec.getLsbD_shiftLeft, BitVec.getLsbD_one]
  congr 1
  by_cases hk : k = r
  · subst hk; simp [hr]
  · simp [hk]; omega

theorem keepsClaims_vectorError (w r th h : Nat) : KeepsClaims serviceClaims (.uncorrectableError (.vreg w r th h)) := by
  rintro s p ⟨⟩ -
  refine ⟨_, rfl, ?_⟩
  dsimp only
  rw [State.warp_modWarp, if_pos rfl]
  refine ⟨?_, fun k hk => ?_, rfl, fun v hv => ?_, sameMemory_refl s⟩
  · rw [Warp.markV, Store.get_set, if_pos rfl]
  · rw [Warp.markV, Store.get_set, if_neg hk]
  · rw [State.warp_modWarp, if_neg hv]

theorem keepsClaims_scalarError (w r : Nat) : KeepsClaims serviceClaims (.uncorrectableError (.sreg w r)) := by
  rintro s p ⟨⟩ hr
  refine ⟨_, rfl, ?_⟩
  dsimp only at hr ⊢
  rw [State.warp_modWarp, if_pos rfl]
  dsimp only
  refine ⟨?_, fun k hk => ?_, rfl, fun v hv => ?_, sameMemory_refl s⟩
  · rw [getLsbD_or_one_shift _ hr]; simp
  · rw [getLsbD_or_one_shift _ hr]; simp [hk]
  · rw [State.warp_modWarp, if_neg hv]

theorem keepsClaims_memoryError (pa : Nat) : KeepsClaims serviceClaims (.uncorrectableError (.memory pa)) := by
  rintro s p ⟨⟩ -
  exact ⟨_, rfl, by rw [Store.get_set, if_pos rfl], rfl⟩

/-- What a reset asks of the queues leaves the partitions alone, and takes no time. -/
theorem State.abandonQueue_keeps (s : State) (q : Nat) : ((s.abandonQueue q).parts, (s.abandonQueue q).tick) = (s.parts, s.tick) := by
  have written : ∀ (t : State) (pa n v : Nat), ((t.l2SetNum pa n v).parts, (t.l2SetNum pa n v).tick) = (t.parts, t.tick) := fun t pa n v =>
    State.of_besideMemory (t.besideMemory_l2SetNum pa n v) (fun u => (u.parts, u.tick)) fun _ => rfl
  unfold State.abandonQueue
  dsimp only
  split
  · rfl
  · unfold State.setQueue State.syncQueue
    dsimp only
    rw [written, written, written, written, written]
    rfl

/-- An event at an open distance is due. -/
theorem dueFrom_soon (s : State) (e : Instr) : dueFrom (s.soon e) (s.tick.toNat + 1) e :=
  ⟨_, Nat.le_add_right _ _, List.mem_append_right _ List.mem_cons_self⟩

theorem keepsClaims_stateError (p : Nat) : KeepsClaims serviceClaims (.uncorrectableError (.state p)) := by
  intro s c hc ok
  obtain rfl := Option.some.inj hc
  obtain ⟨active, run⟩ := ok
  refine ⟨_, rfl, ?_⟩
  show (((s.causeReset p 3).part p).state = _ ∧ ((s.causeReset p 3).part p).reset = _ ∧ ((s.causeReset p 3).part p).cause = _
    ∧ dueFrom (s.causeReset p 3) _ _)
  unfold State.causeReset
  dsimp only
  rw [if_neg (by simp [active]), run]
  dsimp only
  generalize hs : (s.eventBoth p 7 0 0 3 0).modPart p _ = s1
  have reset : (s1.part p).state = .resetting ∧ (s1.part p).reset = .quiesce ∧ (s1.part p).cause = 3 := by
    rw [← hs, State.part_modPart, if_pos rfl]
    exact ⟨rfl, rfl, rfl⟩
  have tick : s1.tick = s.tick := by
    have posted : (s.eventBoth p 7 0 0 3 0).besideL2 = s.besideL2 := by simp [State.eventBoth]
    have tick := congrArg State.tick posted
    rw [← hs]
    exact tick
  have kept := foldl_keeps (fun u : State => (u.parts, u.tick)) State.abandonQueue State.abandonQueue_keeps (s.queuesOf p)
    (s1.abandonLaunches (s.part p))
  generalize (s.queuesOf p).foldl State.abandonQueue (s1.abandonLaunches (s.part p)) = s2 at kept
  obtain ⟨parts, later⟩ := Prod.mk.inj kept
  have part : (s2.soon (.quiesceDone p)).part p = s1.part p := by
    show Store.get {} s2.parts p = _
    rw [parts]
    rfl
  rw [part]
  refine ⟨reset.1, reset.2.1, reset.2.2, ?_⟩
  rw [← tick]
  have due := dueFrom_soon s2 (.quiesceDone p)
  rw [later] at due
  exact due

end Sys2Proof.Machine
end


-- ==== Sys2Proof/Proofs/EndOfWaits.lean ====
section
/-! SUPPORT. The end of waits: what the answer of a record that nothing awaits leaves alone, and what a stalled queue does when its
ring is tried again (R314, R343). -/

namespace Sys2Proof.Machine

open Sys2Proof.Safety

/-- A fold whose steps each leave the state alone. -/
theorem foldl_fixed {σ β : Type} (f : σ → β → σ) (l : List β) (s : σ) (h : ∀ b ∈ l, f s b = s) : l.foldl f s = s :=
  List.foldlRecOn (motive := fun t => t = s) l f rfl fun t ht b hb => by rw [ht, h b hb]

/-! ### Nothing waits -/

/-- The end of waits that no log entry has changes no more than what is saved. -/
theorem State.wake_unheld (s : State) (p : LogWait → Bool) (h : ∀ e ∈ s.warps, ∀ l ∈ e.2.log, p l.wait = false) :
    ∃ m, s.wake p = { s with saves := m } := by
  have none : (s.warps.filter fun e => e.2.log.any fun x => p x.wait) = [] := by
    rw [List.filter_eq_nil_iff]
    intro e he
    simpa using fun l hl => h e he l hl
  rw [State.wake, none]
  exact ⟨_, rfl⟩

theorem State.wake_noneReady (s : State) (h : noneReady s) : ∃ m, s.wake (fun w => w == .ready) = { s with saves := m } :=
  s.wake_unheld _ fun e he l hl => beq_eq_false_iff_ne.mpr (h e he l hl)

theorem State.refuseLogs_unheld (s : State) (p : LogWait → Bool) (h : ∀ e ∈ s.warps, ∀ l ∈ e.2.log, p l.wait = false) :
    ∃ m, s.refuseLogs p = { s with saves := m } := by
  have none : (s.warps.filter fun e => e.2.log.any fun x => p x.wait) = [] := by
    rw [List.filter_eq_nil_iff]
    intro e he
    simpa using fun l hl => h e he l hl
  rw [State.refuseLogs, none]
  exact ⟨_, rfl⟩

theorem State.answerFetch_unawaited (s : State) (part idx : Nat) (refuse : Bool)
    (h : ∀ w p i va b, (s.warp w).park = .fetch p i va b → ¬ (p = part ∧ i = idx)) : ∃ m, s.answerFetch part idx refuse = { s with saves := m } := by
  unfold State.answerFetch
  refine ⟨_, foldl_fixed _ _ _ fun w _ => ?_⟩
  split
  · rename_i p i va first hp
    exact if_neg (h w p i va first hp)
  · rfl

/-- An entry of an engine queue stands in the collection of workgroups. -/
theorem State.mem_engine {s : State} {g q : Nat} {e : EngineEntry} (h : e ∈ s.engine g q) : ∃ x ∈ s.wgs, ∃ l ∈ x.2.queues, e ∈ l.2 := by
  unfold State.engine at h
  rcases Store.get_eq_or_mem [] (s.wg g).queues q with none | ⟨l, hl, listed⟩
  · rw [none] at h; cases h
  · rw [← listed] at h
    unfold State.wg at hl
    rcases Store.get_eq_or_mem {} s.wgs g with none | ⟨x, hx, same⟩
    · rw [none] at hl; cases hl
    · exact ⟨x, hx, l, same ▸ hl, h⟩

theorem State.answerEngines_unawaited (s : State) (pick : Nat → Nat → Bool) (refuse : Bool)
    (h : ∀ g ∈ s.wgs, ∀ q ∈ g.2.queues, ∀ e ∈ q.2, ∀ r, e.waitRec = some r → pick r.1 r.2 = false) : s.answerEngines pick refuse = s := by
  unfold State.answerEngines
  refine foldl_fixed _ _ _ fun g _ => foldl_fixed _ _ _ fun q _ => ?_
  split
  · rename_i e rest he
    obtain ⟨x, hx, l, hl, mem⟩ := State.mem_engine (e := e) (by rw [he]; exact List.mem_cons_self)
    split
    · rename_i part idx waits
      rw [if_neg (by rw [h x hx l hl e mem _ waits]; exact Bool.false_ne_true)]
    · rfl
  · rfl

/-! ### Queues and copies that wait (R343) -/

/-- Whether a wait is one that a test picks. -/
def picked (pick : Nat → Nat → Bool) (r : Option (Nat × Nat)) : Bool := r.any fun x => pick x.1 x.2

/-- What an answer does for one queue, as it was before it. -/
def State.answerPacket (pick : Nat → Nat → Bool) (refuse : Bool) (s : State) (e : Nat × Queue) : State :=
  match e.2.waitEv with
  | some ev => if picked pick e.2.waitRec then
      (s.modQueue e.1 fun k => { k with waitRec := none, waitEv := none, refused := refuse }).soon ev else s
  | none => s
def State.answerCopies (pick : Nat → Nat → Bool) (refuse : Bool) (s : State) (e : Nat × Queue) : State :=
  e.2.copies.foldl (fun s c => if picked pick c.waitRec then
    (s.modXCopy e.1 c.run fun c => { c with waitRec := none, refused := refuse }).soon (.xcopyComplete e.1 c.run) else s) s

theorem State.answerQueues_eq (s : State) (pick : Nat → Nat → Bool) (refuse : Bool) :
    s.answerQueues pick refuse = s.queues.foldl (fun s e => (s.answerPacket pick refuse e).answerCopies pick refuse e) s := rfl

theorem State.answerQueues_unawaited (s : State) (pick : Nat → Nat → Bool) (refuse : Bool)
    (h : ∀ q ∈ s.queues, picked pick q.2.waitRec = false ∧ ∀ c ∈ q.2.copies, picked pick c.waitRec = false) : s.answerQueues pick refuse = s := by
  rw [State.answerQueues_eq]
  refine foldl_fixed _ _ _ fun e he => ?_
  obtain ⟨packet, copies⟩ := h e he
  have first : s.answerPacket pick refuse e = s := by
    unfold State.answerPacket
    split
    · rw [packet]; rfl
    · rfl
  rw [first]
  exact foldl_fixed _ _ _ fun c hc => by rw [copies c hc]; rfl

theorem State.queue_soon (s : State) (e : Instr) (q : Nat) : (s.soon e).queue q = s.queue q := rfl

/-- A queue whose packet no longer waits for a record, with an event due for it. -/
def Retried (q n : Nat) (ev : Instr) (s : State) : Prop := (s.queue q).waitRec = none ∧ dueFrom s n ev

theorem dueFrom_mono {s t : State} {n : Nat} {ev : Instr} (h : dueFrom s n ev) (kept : ∀ e ∈ s.calendar, e ∈ t.calendar) : dueFrom t n ev := by
  obtain ⟨m, hm, mem⟩ := h
  exact ⟨m, hm, kept _ mem⟩

section
variable (pick : Nat → Nat → Bool) (refuse : Bool)

theorem State.tick_answerPacket (s : State) (e : Nat × Queue) : (s.answerPacket pick refuse e).tick = s.tick := by
  unfold State.answerPacket
  split
  · split <;> rfl
  · rfl
theorem State.tick_answerCopies (s : State) (e : Nat × Queue) : (s.answerCopies pick refuse e).tick = s.tick :=
  foldl_keeps State.tick _ (fun t c => by split <;> rfl) _ s

theorem Retried.answerPacket {q n : Nat} {ev : Instr} {s : State} (h : Retried q n ev s) (e : Nat × Queue) :
    Retried q n ev (s.answerPacket pick refuse e) := by
  obtain ⟨none, due⟩ := h
  unfold State.answerPacket
  split
  · split
    · refine ⟨?_, dueFrom_mono due fun x hx => List.mem_append_left _ hx⟩
      rw [State.queue_soon, State.queue_modQueue]
      split
      · rfl
      · exact none
    · exact ⟨none, due⟩
  · exact ⟨none, due⟩

theorem Retried.answerCopies {q n : Nat} {ev : Instr} {s : State} (h : Retried q n ev s) (e : Nat × Queue) :
    Retried q n ev (s.answerCopies pick refuse e) := by
  refine List.foldlRecOn (motive := Retried q n ev) e.2.copies _ h fun t ht c _ => ?_
  obtain ⟨none, due⟩ := ht
  split
  · refine ⟨?_, dueFrom_mono due fun x hx => List.mem_append_left _ hx⟩
    rw [State.queue_soon, State.modXCopy, State.queue_modQueue]
    split
    · rename_i same; subst same; exact none
    · exact none
  · exact ⟨none, due⟩

/-- A packet whose wait a test picks is tried again. -/
theorem State.answerQueues_retries (s : State) {q : Nat} {ev : Instr} (hev : (s.queue q).waitEv = some ev)
    (hit : picked pick (s.queue q).waitRec = true) : Retried q (s.tick.toNat + 1) ev (s.answerQueues pick refuse) := by
  have listed : (q, s.queue q) ∈ s.queues := Store.mem_of_get ({} : Queue) fun c => by
    have none : (s.queue q).waitEv = none := by rw [State.queue, c]
    rw [none] at hev
    cases hev
  obtain ⟨before, after, split⟩ := List.append_of_mem listed
  rw [State.answerQueues_eq, split, List.foldl_append, List.foldl_cons]
  have tick := foldl_keeps State.tick (fun s e => State.answerCopies pick refuse (State.answerPacket pick refuse s e) e)
    (fun t e => (State.tick_answerCopies pick refuse _ e).trans (State.tick_answerPacket pick refuse t e)) before s
  generalize before.foldl _ s = u at tick
  refine List.foldlRecOn (motive := Retried q (s.tick.toNat + 1) ev) after _ ?_ fun t ht e _ => (ht.answerPacket pick refuse e).answerCopies pick refuse e
  refine Retried.answerCopies pick refuse ?_ _
  unfold State.answerPacket
  rw [hev]
  dsimp only
  rw [if_pos hit, ← tick]
  refine ⟨?_, dueFrom_soon _ _⟩
  rw [State.queue_soon, State.queue_modQueue, if_pos rfl]
end

/-! ### A record that nothing awaits is closed (R314) -/

theorem State.endService_unawaited {s : State} {part idx : Nat} (h : unawaited s part idx) (refuse : Bool) :
    ∃ m, s.endService part idx refuse = { s.modPart part (fun x => { x with faults := x.faults.filter fun f => f.1 != idx }) with saves := m } := by
  obtain ⟨-, logs, fetches, engines, queues, keys⟩ := h
  unfold State.endService
  dsimp only
  generalize hs : s.modPart part _ = s1
  have held : ∀ e ∈ s1.warps, ∀ l ∈ e.2.log, (fun w : LogWait => w == .service part idx) l.wait = false := by
    rw [← hs]
    exact fun e he l hl => beq_eq_false_iff_ne.mpr (logs e he l hl)
  have ended : ∃ m, (if refuse then s1.refuseLogs fun w => w == .service part idx else s1.wake fun w => w == .service part idx)
      = { s1 with saves := m } := by
    split
    · exact s1.refuseLogs_unheld _ held
    · exact s1.wake_unheld _ held
  obtain ⟨m, ended⟩ := ended
  rw [ended]
  obtain ⟨m, fetched⟩ := State.answerFetch_unawaited { s1 with saves := m } part idx refuse (by rw [← hs]; exact fetches)
  rw [fetched, State.answerEngines_unawaited _ _ _ (by
      rw [← hs]
      intro g hg q hq e he r hr
      have other := engines g hg q hq e he
      rw [hr] at other
      have : ¬ (r.1 = part ∧ r.2 = idx) := fun c => other (by rw [← c.1, ← c.2])
      simpa using this),
    State.answerQueues_unawaited _ _ _ (by
      rw [← hs]
      have miss : ∀ r : Option (Nat × Nat), r ≠ some (part, idx) → picked (fun p i => p == part && i == idx) r = false := by
        intro r hr
        cases r with
        | none => rfl
        | some r =>
          have : ¬ (r.1 = part ∧ r.2 = idx) := fun c => hr (by rw [← c.1, ← c.2])
          simpa [picked] using this
      exact fun q hq => ⟨miss _ (queues q hq).1, fun c hc => miss _ ((queues q hq).2 c hc)⟩)]
  refine ⟨m, ?_⟩
  have none : (s1.keysOut.filter fun k => k.part == part && k.record == idx && !k.noticed) = [] := by
    rw [← hs, List.filter_eq_nil_iff]
    intro k hk
    have := keys k hk
    simp only [Bool.and_eq_true, beq_iff_eq]
    exact fun c => this c.1
  show List.foldl _ _ (s1.keysOut.filter _) = _
  rw [none]
  rfl

end Sys2Proof.Machine
end


-- ==== Sys2Proof/Proofs/FramesKept.lean ====
section
/-! SUPPORT. Frames that pass to another owner or are zeroed: memory stays plain, under the keys of the new owners (R53, R304, R465). -/

namespace Sys2Proof.Machine

open Sys2Proof.Safety

/-! ### Notes of whole frames -/

/-- The key changes of some whole frames, in a collection of such notes. -/
def noteFrames (f : Nat → Nat) (fs : List Nat) (m : Store Nat) : Store Nat := fs.foldl (fun m n => Store.set 0 m (2 * n + 1) (f n)) m

theorem noteFrames_other (f : Nat → Nat) (fs : List Nat) (m : Store Nat) (k : Nat) (h : ∀ n ∈ fs, k ≠ 2 * n + 1) :
    Store.get 0 (noteFrames f fs m) k = Store.get 0 m k :=
  List.foldlRecOn (motive := fun u => Store.get 0 u k = Store.get 0 m k) fs _ rfl fun u hu n hn => by
    rw [Store.get_set, if_neg (h n hn), hu]

theorem noteFrames_mem (f : Nat → Nat) (fs : List Nat) (m : Store Nat) {n : Nat} (h : n ∈ fs) :
    Store.get 0 (noteFrames f fs m) (2 * n + 1) = f n := by
  induction fs generalizing m with
  | nil => cases h
  | cons a fs ih =>
    by_cases later : n ∈ fs
    · exact ih _ later
    · obtain rfl : n = a := (List.mem_cons.mp h).resolve_right later
      refine (noteFrames_other f fs _ _ fun k hk c => later ?_).trans ?_
      · obtain rfl : n = k := by omega
        exact hk
      · rw [Store.get_set, if_pos rfl]

/-- Owners written one after another. -/
theorem get_setFrames (code : Nat) (fs : List Nat) (m : Store Nat) (k : Nat) :
    Store.get 0 (fs.foldl (fun m n => Store.set 0 m n code) m) k = if k ∈ fs then code else Store.get 0 m k := by
  induction fs generalizing m with
  | nil => simp
  | cons a fs ih =>
    rw [List.foldl_cons, ih, Store.get_set]
    by_cases later : k ∈ fs
    · simp [later]
    · by_cases here : k = a <;> simp [later, here]

/-! ### The keys of a byte, by its line and its frame -/

theorem State.keysStand_of_noKeys {s : State} (h : s.keyGen.isEmpty = true) (pa : Nat) : s.keyNow pa = 0 := by
  unfold State.keyNow
  rw [List.isEmpty_iff.mp h]
  rfl

/-- The keys stand after the notes of some whole frames are set to the keys of their owners, and their lines' own notes are dropped. -/
theorem keysStand_of_noted {s t : State} (h : s.keysStand) (fs : List Nat) (f : Nat → Nat) (keep : Nat × Nat → Bool)
    (notes : t.lineGen = noteFrames f fs (s.lineGen.filter fun e => keep e))
    (odd : ∀ e, e.1 % 2 = 1 → keep e = true) (dropped : ∀ e, e.1 % 2 = 0 → e.1 / 128 ∈ fs → keep e = false)
    (kept : ∀ e, e.1 % 2 = 0 → e.1 / 128 ∉ fs → keep e = true) (byKey : ∀ a b, a.1 = b.1 → keep a = keep b)
    (mine : ∀ pa, pa / 8192 ∈ fs → t.keyNow pa = f (pa / 8192)) (others : ∀ pa, pa / 8192 ∉ fs → t.keyNow pa = s.keyNow pa) :
    t.keysStand := by
  have filtered : ∀ k, Store.get 0 (s.lineGen.filter fun e => keep e) k = if keep (k, 0) then Store.get 0 s.lineGen k else 0 := by
    intro k
    have same : (s.lineGen.filter fun e => keep e) = s.lineGen.filter fun e => keep (e.1, 0) :=
      List.filter_congr fun e _ => byKey _ _ rfl
    rw [same]
    exact Store.get_filterKeys 0 s.lineGen (fun k => keep (k, 0)) k
  intro pa
  have line : Store.get 0 t.lineGen (2 * (pa / 128)) = if pa / 8192 ∈ fs then 0 else Store.get 0 s.lineGen (2 * (pa / 128)) := by
    have page : 2 * (pa / 128) / 128 = pa / 8192 := by omega
    rw [notes, noteFrames_other _ _ _ _ fun n _ => by omega, filtered]
    by_cases hm : pa / 8192 ∈ fs
    · rw [if_pos hm, dropped _ (by dsimp only; omega) (by dsimp only; rw [page]; exact hm)]
      rfl
    · rw [if_neg hm, kept _ (by dsimp only; omega) (by dsimp only; rw [page]; exact hm)]
      rfl
  have frame : Store.get 0 t.lineGen (2 * (pa / 8192) + 1) = if pa / 8192 ∈ fs then f (pa / 8192) else Store.get 0 s.lineGen (2 * (pa / 8192) + 1) := by
    rw [notes]
    by_cases hm : pa / 8192 ∈ fs
    · rw [if_pos hm, noteFrames_mem _ _ _ hm]
    · rw [if_neg hm, noteFrames_other _ _ _ _ fun n hn c => hm (by rwa [show pa / 8192 = n by omega]), filtered, odd _ (by dsimp only; omega)]
      rfl
  unfold State.keyThen
  rw [line, frame]
  by_cases hm : pa / 8192 ∈ fs
  · rw [if_pos hm, if_pos hm, mine pa hm, Nat.zero_max]
  · rw [if_neg hm, if_neg hm, others pa hm]
    exact h pa

/-! ### Frames that pass (R304, R331) -/

theorem State.ownerOf_passFrames (s : State) {code : Nat} (hc : code ≠ 0) (fs : List Nat) (n : Nat) :
    (s.passFrames code fs).ownerOf n = if n ∈ fs then code else s.ownerOf n := by
  unfold State.ownerOf State.passFrames
  dsimp only
  rw [get_setFrames]
  by_cases hn : n ∈ fs
  · rw [if_pos hn, if_pos hn]
    cases code with
    | zero => exact absurd rfl hc
    | succ c => rfl
  · rw [if_neg hn, if_neg hn]

theorem keysStand_passFrames {s : State} (h : s.keysStand) {code : Nat} (hc : code ≠ 0) (fs : List Nat) : (s.passFrames code fs).keysStand := by
  by_cases hk : s.keyGen.isEmpty = true
  · intro pa
    have same : (s.passFrames code fs).keyThen pa = s.keyThen pa := by
      unfold State.keyThen State.passFrames
      dsimp only
      rw [if_pos hk]
    rw [same, ← h pa, State.keysStand_of_noKeys hk]
    exact State.keysStand_of_noKeys (s := s.passFrames code fs) hk pa
  · have now : ∀ pa, (s.passFrames code fs).keyNow pa = Store.get 0 s.keyGen (if pa / 8192 ∈ fs then code else s.ownerOf (pa / 8192)) :=
      fun pa => congrArg (Store.get 0 s.keyGen) (s.ownerOf_passFrames hc fs (pa / 8192))
    refine keysStand_of_noted (fs := fs) (f := fun _ => Store.get 0 s.keyGen code) (keep := fun e => e.1 % 2 == 1 || !fs.contains (e.1 / 128)) h
      ?_ ?_ ?_ ?_ ?_ ?_ ?_
    · exact if_neg hk
    · intro e he; simp [he]
    · intro e he hm; simp [he, hm]
    · intro e _ hm; simp [hm]
    · intro a b hab; simp only [hab]
    · intro pa hm; rw [now, if_pos hm]
    · intro pa hm; rw [now, if_neg hm]; rfl

theorem State.l2Read_of_keysStand {s t : State} (hs : s.keysStand) (ht : t.keysStand) (l2 : t.l2 = s.l2) (hbm : t.hbm = s.hbm) (pa : Nat) :
    t.l2Read pa = s.l2Read pa := by
  unfold State.l2Read
  rw [State.homeByte_eq _ hs, State.homeByte_eq _ ht, l2, hbm]

theorem plainMemory_passFrames {s : State} (h : plainMemory s) {code : Nat} (hc : code ≠ 0) (fs : List Nat) : plainMemory (s.passFrames code fs) :=
  ⟨h.1, keysStand_passFrames h.2.1 hc fs, h.2.2⟩

theorem sameMemory_passFrames {s : State} (h : s.keysStand) {code : Nat} (hc : code ≠ 0) (fs : List Nat) : sameMemory s (s.passFrames code fs) := by
  have home := State.l2Read_of_keysStand h (keysStand_passFrames h hc fs) rfl rfl
  refine ⟨fun core pa => ?_, home⟩
  unfold State.coreRead
  rw [home]
  rfl

/-! ### Frames that are zeroed (R53) -/

theorem mem_run (lo n k : Nat) : k ∈ (List.range n).map (lo + ·) ↔ lo ≤ k ∧ k < lo + n := by
  simp only [List.mem_map, List.mem_range]
  exact ⟨fun ⟨i, hi, h⟩ => by omega, fun h => ⟨k - lo, by omega, by omega⟩⟩

theorem keysStand_zeroRange {s : State} (h : s.keysStand) (frame n : Nat) : (s.zeroRange (frame * 8192) (n * 8192)).keysStand := by
  by_cases hk : s.keyGen.isEmpty = true
  · intro pa
    have same : (s.zeroRange (frame * 8192) (n * 8192)).keyThen pa = s.keyThen pa := by
      unfold State.keyThen
      show max (Store.get 0 (if _ then _ else _) _) (Store.get 0 (if _ then _ else _) _) = _
      rw [if_pos hk]
    rw [same]
    exact h pa
  · refine keysStand_of_noted (fs := (List.range n).map (frame + ·)) (f := fun k => s.keyNow (k * 8192))
      (keep := fun e => e.1 % 2 == 1 || !decide (frame * 8192 ≤ e.1 / 2 * 128 ∧ e.1 / 2 * 128 < frame * 8192 + n * 8192)) h ?_ ?_ ?_ ?_ ?_ ?_ ?_
    · have pages : n * 8192 / 8192 = n := Nat.mul_div_cancel n (by decide)
      have first : frame * 8192 / 8192 = frame := Nat.mul_div_cancel frame (by decide)
      refine (if_neg hk).trans ?_
      rw [pages, first]
      rfl
    · intro e he; simp [he]
    · intro e he hm
      rw [mem_run] at hm
      simp only [Bool.or_eq_false_iff, beq_eq_false_iff_ne, Bool.not_eq_false', decide_eq_true_eq]
      omega
    · intro e he hm
      rw [mem_run] at hm
      simp only [Bool.or_eq_true, beq_iff_eq, Bool.not_eq_true', decide_eq_false_iff_not]
      omega
    · intro a b hab; simp only [hab]
    · intro pa hm
      have page : pa / 8192 * 8192 / 8192 = pa / 8192 := by omega
      show Store.get 0 s.keyGen (s.ownerOf (pa / 8192)) = Store.get 0 s.keyGen (s.ownerOf (pa / 8192 * 8192 / 8192))
      rw [page]
    · intro pa _; rfl

theorem plainMemory_zeroRange {s : State} (h : plainMemory s) (frame n : Nat) : plainMemory (s.zeroRange (frame * 8192) (n * 8192)) := by
  obtain ⟨wf, keys, queues⟩ := h
  refine ⟨?_, keysStand_zeroRange keys frame n, queues⟩
  rw [Memory.wf_iff] at wf ⊢
  exact ⟨Store.wf_filter _ _ _ wf.1, Store.wf_filter _ _ _ wf.2.1, Store.wf_filter _ _ _ wf.2.2⟩

/-- Zeroed bytes read zero, and no others change. -/
theorem l2Read_zeroRange {s : State} (h : s.keysStand) (frame n q : Nat) :
    (s.zeroRange (frame * 8192) (n * 8192)).l2Read q = if frame * 8192 ≤ q ∧ q < (frame + n) * 8192 then 0 else s.l2Read q := by
  unfold State.l2Read
  rw [State.homeByte_eq _ h, State.homeByte_eq _ (keysStand_zeroRange h frame n)]
  have l2 := Store.get_filterKeys none s.l2 (fun k => !decide (frame * 8192 ≤ k ∧ k < frame * 8192 + n * 8192)) q
  have hbm := Store.get_filterKeys 0 s.hbm (fun k => !decide (frame * 8192 ≤ k ∧ k < frame * 8192 + n * 8192)) q
  show (match Store.get none (s.l2.filter fun e => !decide (frame * 8192 ≤ e.1 ∧ e.1 < frame * 8192 + n * 8192)) q with
    | some b => b
    | none => Store.get 0 (s.hbm.filter fun e => !decide (frame * 8192 ≤ e.1 ∧ e.1 < frame * 8192 + n * 8192)) q) = _
  rw [l2, hbm]
  by_cases hq : frame * 8192 ≤ q ∧ q < (frame + n) * 8192
  · have zeroed : frame * 8192 ≤ q ∧ q < frame * 8192 + n * 8192 := Nat.add_mul frame n 8192 ▸ hq
    rw [if_pos hq, decide_eq_true zeroed]
    rfl
  · have away : ¬ (frame * 8192 ≤ q ∧ q < frame * 8192 + n * 8192) := Nat.add_mul frame n 8192 ▸ hq
    rw [if_neg hq, decide_eq_false away]
    cases Store.get none s.l2 q <;> rfl

end Sys2Proof.Machine
end


-- ==== Sys2Proof/Proofs/PagesRestored.lean ====
section
/-! STATEMENT PROOFS. The ages of pages and the return of an evicted one (R332, R333). -/

namespace Sys2Proof.Machine

open Sys2Proof.Safety

/-! ### Ages (R332) -/

theorem State.agePage_ages (s : State) (x : Nat × Nat × Nat) :
    (s.agePage x).ages = Store.set 0 s.ages (x.2.2 / 8192) (if s.l2Read x.1 &&& 0x40 = 0 then min 255 (Store.get 0 s.ages (x.2.2 / 8192) + 1) else 0) := by
  unfold State.agePage
  dsimp only
  split <;> rfl

theorem State.ages_agePage (s : State) (x : Nat × Nat × Nat) (f : Nat) :
    Store.get 0 (s.agePage x).ages f = if f = x.2.2 / 8192 then
      (if s.l2Read x.1 &&& 0x40 = 0 then min 255 (Store.get 0 s.ages (x.2.2 / 8192) + 1) else 0) else Store.get 0 s.ages f := by
  rw [State.agePage_ages, Store.get_set]

theorem plainMemory_agePage {s : State} (h : plainMemory s) (x : Nat × Nat × Nat) : plainMemory (s.agePage x) := by
  unfold State.agePage
  dsimp only
  split
  · exact h
  · exact plainMemory_l2Write h x.1 _

theorem l2Read_agePage {s : State} (h : plainMemory s) (x : Nat × Nat × Nat) (q : Nat) :
    (s.agePage x).l2Read q = if q = x.1 ∧ s.l2Read x.1 &&& 0x40 ≠ 0 then s.l2Read x.1 &&& 0xBF else s.l2Read q := by
  unfold State.agePage
  dsimp only
  split
  · rename_i unread
    rw [if_neg fun c => c.2 unread]
    rfl
  · rename_i read
    refine (l2Read_l2Write_of_plain h x.1 [s.l2Read x.1 &&& 0xBF] q).trans ?_
    by_cases hq : q = x.1
    · subst hq
      rw [if_pos (by simp), if_pos ⟨rfl, read⟩, Nat.sub_self]
      rfl
    · rw [if_neg (by simp only [List.length_singleton]; omega), if_neg fun c => hq c.1]

theorem State.agePage_keeps (s : State) (x : Nat × Nat × Nat) : ((s.agePage x).calendar, (s.agePage x).tick) = (s.calendar, s.tick) := by
  unfold State.agePage
  dsimp only
  split
  · rfl
  · exact State.of_besideMemory (s.besideMemory_l2Write x.1 _) (fun u => (u.calendar, u.tick)) fun _ => rfl

/-- A scan of some pages, whose entries and frames are each one page's. -/
theorem agePages_result (ls : List (Nat × Nat × Nat)) {s : State} (h : plainMemory s)
    (apart : ls.Pairwise fun a b => a.1 ≠ b.1 ∧ a.2.2 / 8192 ≠ b.2.2 / 8192) :
    (∀ x ∈ ls, if s.l2Read x.1 &&& 0x40 = 0
        then Store.get 0 (ls.foldl State.agePage s).ages (x.2.2 / 8192) = min 255 (Store.get 0 s.ages (x.2.2 / 8192) + 1)
        else Store.get 0 (ls.foldl State.agePage s).ages (x.2.2 / 8192) = 0
          ∧ (ls.foldl State.agePage s).l2Read x.1 = s.l2Read x.1 &&& 0xBF)
      ∧ (∀ q, (∀ x ∈ ls, x.1 ≠ q) → (ls.foldl State.agePage s).l2Read q = s.l2Read q)
      ∧ ∀ f, (∀ x ∈ ls, x.2.2 / 8192 ≠ f) → Store.get 0 (ls.foldl State.agePage s).ages f = Store.get 0 s.ages f := by
  induction ls generalizing s with
  | nil => exact ⟨fun x hx => (by cases hx), fun _ _ => rfl, fun _ _ => rfl⟩
  | cons x ls ih =>
    obtain ⟨far, apart⟩ := List.pairwise_cons.mp apart
    obtain ⟨each, bytes, ages⟩ := ih (plainMemory_agePage h x) apart
    rw [List.foldl_cons]
    generalize ls.foldl State.agePage (s.agePage x) = t at each bytes ages
    refine ⟨fun y hy => ?_, fun q hq => ?_, fun f hf => ?_⟩
    · rcases List.mem_cons.mp hy with rfl | hy
      · rw [ages _ fun z hz => (far z hz).2.symm, bytes _ fun z hz => (far z hz).1.symm, State.ages_agePage, if_pos rfl, l2Read_agePage h]
        split
        · rename_i unread; rfl
        · rename_i read; exact ⟨rfl, if_pos ⟨rfl, read⟩⟩
      · have there := each y hy
        have unread : (s.agePage x).l2Read y.1 = s.l2Read y.1 := by
          rw [l2Read_agePage h, if_neg fun c => (far y hy).1 c.1.symm]
        rwa [State.ages_agePage, if_neg (far y hy).2.symm, unread] at there
    · rw [bytes q fun z hz => hq z (List.mem_cons_of_mem _ hz), l2Read_agePage h, if_neg fun c => hq x List.mem_cons_self c.1.symm]
    · rw [ages f fun z hz => hf z (List.mem_cons_of_mem _ hz), State.ages_agePage, if_neg fun c => hf x List.mem_cons_self c.symm]

theorem keepsClaims_pageAgeScan : KeepsClaims serviceClaims .pageAgeScan := by
  intro s p hp ok
  obtain rfl := Option.some.inj hp
  obtain ⟨plain, apart⟩ := ok
  refine ⟨_, rfl, ?_⟩
  dsimp only at apart ⊢
  generalize ((List.range 16).flatMap s.partLeaves).eraseDups = ls at apart ⊢
  obtain ⟨each, bytes, -⟩ := agePages_result ls plain apart
  obtain ⟨calendar, tick⟩ := Prod.mk.inj (foldl_keeps (fun u : State => (u.calendar, u.tick)) State.agePage State.agePage_keeps ls s)
  generalize hu : ls.foldl State.agePage s = u at each bytes calendar tick
  have after : ∃ c, (if u.calendar.any fun e => e.2 == .pageAgeScan then u else u.after 4000000 .pageAgeScan) = { u with calendar := c }
      ∧ ((∀ e ∈ s.calendar, e.2 ≠ .pageAgeScan) → (s.tick.toNat + 4000000, Instr.pageAgeScan) ∈ c) := by
    split
    · rename_i listed
      refine ⟨_, rfl, fun none => ?_⟩
      rw [calendar] at listed
      obtain ⟨e, he, same⟩ := List.any_eq_true.mp listed
      exact absurd (beq_iff_eq.mp same) (none e he)
    · refine ⟨_, rfl, fun _ => List.mem_append_right _ ?_⟩
      rw [tick]
      exact List.mem_cons_self
  obtain ⟨c, step, due⟩ := after
  rw [step]
  exact ⟨each, bytes, fun none => ⟨_, Nat.le_refl _, due none⟩⟩

/-! ### An evicted page comes back (R333) -/

theorem State.l2Num_lt (s : State) (pa : Nat) : s.l2Num pa 8 < 2 ^ 64 := by
  have bound : ∀ bs : List Byte, leNat bs < 256 ^ bs.length := by
    intro bs
    induction bs with
    | nil => exact Nat.one_pos
    | cons b bs ih =>
      have low := b.isLt
      rw [leNat, List.length_cons, Nat.pow_succ]
      omega
  have h := bound (s.l2Bytes pa 8)
  rw [State.l2Bytes, List.length_map, List.length_range] at h
  exact h

/-- The entry of an evicted page is not present. -/
theorem State.evictedSlot_absent {s : State} {va fuel table slot shift : Nat} (h : s.evictedSlot va fuel table = some (slot, shift)) :
    s.l2Num slot 8 % 2 = 0 := by
  induction fuel generalizing table with
  | zero => cases h
  | succ fuel ih =>
    unfold State.evictedSlot at h
    dsimp only at h
    split at h
    · rename_i absent
      split at h
      · obtain ⟨rfl, -⟩ := Prod.mk.inj (Option.some.inj h)
        exact absent
      · cases h
    · split at h
      · cases h
      · exact ih h

theorem l2Num_congr {s t : State} {pa n : Nat} (h : ∀ i, i < n → t.l2Read (pa + i) = s.l2Read (pa + i)) : t.l2Num pa n = s.l2Num pa n := by
  unfold State.l2Num State.l2Bytes
  rw [List.map_congr_left fun i hi => h i (List.mem_range.mp hi)]

/-- An entry that names a frame, and is present. -/
theorem entry_names {e frame : Nat} (low : e < 2 ^ 64) (absent : e % 2 = 0) (hf : frame < 2 ^ 39) :
    let e' := e - e / 2 ^ 13 % 2 ^ 39 * 2 ^ 13 + frame * 8192 + 1
    e' % 256 ^ 8 % 2 = 1 ∧ e' % 256 ^ 8 / 2 ^ 13 % 2 ^ 39 = frame := by
  dsimp only
  have h : (256 : Nat) ^ 8 = 2 ^ 64 := by decide
  rw [h]
  constructor <;> omega

/-- The wait of a record is unaffected by writes at the home L2 and by what passes frames. -/
theorem unawaited_l2WriteAs {s : State} {part idx : Nat} (h : unawaited s part idx) (pa : Nat) (bs : List Byte) (hint : Nat) :
    unawaited (s.l2WriteAs pa bs hint) part idx := by
  have beside := s.besideMemory_l2WriteAs pa bs hint
  have warps : (s.l2WriteAs pa bs hint).warps = s.warps := State.of_besideMemory beside State.warps fun _ => rfl
  have wgs : (s.l2WriteAs pa bs hint).wgs = s.wgs := State.of_besideMemory beside State.wgs fun _ => rfl
  have keys : (s.l2WriteAs pa bs hint).keysOut = s.keysOut := State.of_besideMemory beside State.keysOut fun _ => rfl
  have warp : ∀ w, (s.l2WriteAs pa bs hint).warp w = s.warp w := fun w => by unfold State.warp; rw [warps]
  have queue : ∀ q ∈ (s.l2WriteAs pa bs hint).queues, ∃ k ∈ s.queues, q.2.waitRec = k.2.waitRec ∧ q.2.copies = k.2.copies := by
    intro q hq
    rw [State.queues_l2WriteAs, State.queues_ring] at hq
    split at hq
    · exact ⟨q, hq, rfl, rfl⟩
    · obtain ⟨k, hk, rfl⟩ := List.mem_map.mp (List.mem_of_mem_filter hq)
      exact ⟨k, hk, by dsimp only; rw [Queue.rungBy_rest], by dsimp only; rw [Queue.rungBy_rest]⟩
  obtain ⟨logs, listed, fetches, engines, queues, keysOut⟩ := h
  refine ⟨fun w => by rw [warp]; exact logs w, by rw [warps]; exact listed, fun w => by rw [warp]; exact fetches w, by rw [wgs]; exact engines,
    fun q hq => ?_, by rw [keys]; exact keysOut⟩
  obtain ⟨k, hk, waits, copies⟩ := queue q hq
  rw [waits, copies]
  exact queues k hk

/-- The machine once a page's frames are its partition's, and its bytes and its entry are written. -/
def State.pageBack (s0 : State) (part slot n frame : Nat) (data : List Byte) : State :=
  let s := (s0.zeroRange (frame * 8192) (n * 8192)).passFrames (part + 1) ((List.range n).map (frame + ·))
  let e := s.l2Num slot 8
  (s.l2Write (frame * 8192) (data.take (n * 8192))).l2SetNum slot 8 (e - e / 2 ^ 13 % 2 ^ 39 * 2 ^ 13 + frame * 8192 + 1)

theorem State.fillPage_eq (s0 : State) (part idx slot n frame : Nat) (data : List Byte) :
    s0.fillPage part idx slot n frame data
      = ({ s0.pageBack part slot n frame data with ages := Store.erase (s0.pageBack part slot n frame data).ages frame } : State).endService part idx false :=
  rfl

section
variable {s0 : State} (h : plainMemory s0) {part idx slot n frame : Nat} (data : List Byte)
include h

/-- The page holds its bytes, and its entry names it. -/
theorem pageBack_memory (low : frame < 2 ^ 39) (absent : s0.l2Num slot 8 % 2 = 0) (away : slot + 8 ≤ frame * 8192 ∨ (frame + n) * 8192 ≤ slot) :
    (∀ i, i < n * 8192 → (s0.pageBack part slot n frame data).l2Read (frame * 8192 + i) = data.getD i 0)
      ∧ (s0.pageBack part slot n frame data).l2Num slot 8 % 2 = 1
      ∧ (s0.pageBack part slot n frame data).l2Num slot 8 / 2 ^ 13 % 2 ^ 39 = frame := by
  have zeroed := plainMemory_zeroRange h frame n
  have passed := plainMemory_passFrames zeroed (Nat.succ_ne_zero part) ((List.range n).map (frame + ·))
  have reads := fun q => (sameMemory_passFrames zeroed.2.1 (Nat.succ_ne_zero part) ((List.range n).map (frame + ·))).2 q
  have entry : (State.passFrames (s0.zeroRange (frame * 8192) (n * 8192)) (part + 1) ((List.range n).map (frame + ·))).l2Num slot 8
      = s0.l2Num slot 8 := l2Num_congr fun i hi => by
    rw [reads, l2Read_zeroRange h.2.1, if_neg (by omega)]
  unfold State.pageBack
  dsimp only
  rw [entry]
  generalize State.passFrames _ (part + 1) _ = s at passed reads
  have filled := plainMemory_l2Write passed (frame * 8192) (data.take (n * 8192))
  refine ⟨fun i hi => ?_, ?_⟩
  · have zero : s.l2Read (frame * 8192 + i) = 0 := by rw [reads, l2Read_zeroRange h.2.1, if_pos (by omega)]
    rw [State.l2SetNum, l2Read_l2Write_of_plain filled, length_leBytes, if_neg (by omega), l2Read_l2Write_of_plain passed, zero,
      Nat.add_sub_cancel_left, List.length_take]
    by_cases listed : i < data.length
    · rw [if_pos (by omega), List.getD_eq_getElem _ _ (by rw [List.length_take]; omega), List.getElem_take, List.getD_eq_getElem _ _ listed]
    · rw [if_neg (by omega), List.getD_eq_default _ _ (by omega)]
  · rw [l2Num_l2SetNum_of_plain filled]
    exact entry_names (s0.l2Num_lt slot) absent low
end

theorem State.besideMemory_pageBack (s0 : State) (part slot n frame : Nat) (data : List Byte) :
    (s0.pageBack part slot n frame data).besideMemory
      = ((s0.zeroRange (frame * 8192) (n * 8192)).passFrames (part + 1) ((List.range n).map (frame + ·))).besideMemory :=
  (State.besideMemory_l2SetNum _ _ _ _).trans (State.besideMemory_l2Write _ _ _)

theorem State.ownerOf_pageBack (s0 : State) (part slot n frame : Nat) (data : List Byte) (g : Nat) :
    (s0.pageBack part slot n frame data).ownerOf g = if frame ≤ g ∧ g < frame + n then part + 1 else s0.ownerOf g := by
  rw [State.of_besideMemory (s0.besideMemory_pageBack part slot n frame data) (fun u => u.ownerOf g) fun _ => rfl,
    State.ownerOf_passFrames _ (Nat.succ_ne_zero part)]
  exact if_congr (mem_run frame n g) rfl rfl

theorem State.parts_pageBack (s0 : State) (part slot n frame : Nat) (data : List Byte) : (s0.pageBack part slot n frame data).parts = s0.parts :=
  State.of_besideMemory (s0.besideMemory_pageBack part slot n frame data) State.parts fun _ => rfl

theorem unawaited_pageBack {s0 : State} {part idx : Nat} (h : unawaited s0 part idx) (slot n frame : Nat) (data : List Byte) :
    unawaited (s0.pageBack part slot n frame data) part idx :=
  unawaited_l2WriteAs (unawaited_l2WriteAs (s := (s0.zeroRange (frame * 8192) (n * 8192)).passFrames (part + 1) ((List.range n).map (frame + ·))) h _ _ _) _ _ _

theorem keepsClaims_evictedPageRestore (part idx frame : Nat) (data : List Byte) : KeepsClaims serviceClaims (.evictedPageRestore part idx frame data) := by
  intro s p hp ok
  obtain ⟨f, hf, hp⟩ := Option.bind_eq_some_iff.mp hp
  obtain ⟨⟨slot, shift⟩, hslot, rfl⟩ := Option.map_eq_some_iff.mp hp
  obtain ⟨plain, waits, small, fits, free, away⟩ := ok
  have room : s.frameUse part + 2 ^ (shift - 13) ≤ (s.part part).bound := fits
  have some' : 0 < 2 ^ (shift - 13) := Nat.two_pow_pos _
  have run : s.freeRun frame (2 ^ (shift - 13)) = some frame := by
    unfold State.freeRun
    dsimp only
    rw [if_pos]
    rw [List.all_eq_true]
    intro i hi
    obtain ⟨owner, inside⟩ := free i (List.mem_range.mp hi)
    simp [owner, inside]
  have step : exec (.evictedPageRestore part idx frame data) s = .next (s.fillPage part idx slot (2 ^ (shift - 13)) frame data) := by
    show execEvictedPageRestore part idx frame data s = _
    unfold execEvictedPageRestore State.restorePage
    rw [hf]
    dsimp only
    rw [hslot]
    dsimp only
    rw [if_pos room, run]
  have low : frame < 2 ^ 39 := by
    have inside := (free 0 some').2
    have size : hbmSize / 8192 < 2 ^ 39 := by decide
    omega
  refine ⟨_, step, ?_⟩
  dsimp only at away ⊢
  generalize 2 ^ (shift - 13) = n at *
  obtain ⟨m, ended⟩ := State.endService_unawaited (s := { s.pageBack part slot n frame data with ages := Store.erase (s.pageBack part slot n frame data).ages frame })
    (unawaited_pageBack waits slot n frame data) false
  obtain ⟨bytes, present, names⟩ := pageBack_memory (part := part) plain data low (State.evictedSlot_absent hslot) away
  have owner := s.ownerOf_pageBack part slot n frame data
  have parts := s.parts_pageBack part slot n frame data
  rw [State.fillPage_eq, ended]
  generalize s.pageBack part slot n frame data = u at bytes present names owner parts
  refine ⟨fun i hi => (owner _).trans (if_pos (by omega)), fun g hg => (owner g).trans (if_neg hg), bytes, present, names, fun g => ?_⟩
  have part' : u.part part = s.part part := by
    unfold State.part
    rw [parts]
  show g ∈ (Store.get {} (Store.set {} u.parts part _) part).faults ↔ _
  rw [Store.get_set, if_pos rfl]
  show g ∈ (u.part part).faults.filter _ ↔ _
  rw [part', List.mem_filter, bne_iff_ne]

end Sys2Proof.Machine
end


-- ==== Sys2Proof/Proofs/ServiceEvents.lean ====
section
/-! STATEMENT PROOFS. The service of memory (R54, R274 to R281, R309 to R340): answers, kicks, zeroing and drains, and the family. -/

namespace Sys2Proof.Machine

open Sys2Proof.Safety

theorem keepsClaims_zeroingComplete (b : ZeroBuf) : KeepsClaims serviceClaims (.zeroingComplete b) := by
  rintro s p ⟨⟩ ready
  refine ⟨_, rfl, ?_⟩
  obtain ⟨m, woken⟩ := State.wake_noneReady { s with zeroing := s.zeroing.filter fun z => z != b } ready
  rw [woken]
  exact ⟨fun c => by simp, rfl, rfl, rfl, rfl⟩

/-! ### Drains (R281) -/

theorem State.emit_keeps (s : State) (x : Txn) : ((s.emit x).cores, (s.emit x).sent, (s.emit x).unsent) = (s.cores, s.sent, s.unsent) := by
  have sent : ∀ y, ((s.send y).cores, (s.send y).sent, (s.send y).unsent) = (s.cores, s.sent, s.unsent) := fun y => by
    unfold State.send
    dsimp only
    split <;> split <;> rfl
  unfold State.emit
  dsimp only
  split
  · rfl
  · split
    · split <;> rfl
    · split
      · rfl
      · exact sent x

/-- A request that no ticket holds is sent or waits to be. -/
theorem State.request_goes {s : State} {r : Sent} (free : s.ticketFor r = none) :
    (s.request r).cores = s.cores ∧ ∃ o ∈ (s.request r).sent ++ (s.request r).unsent, o.link = r.link ∧ o.x.dst = r.x.dst ∧ o.x.payload = r.x.payload := by
  unfold State.request
  rw [free]
  dsimp only
  split
  · exact ⟨rfl, r, by simp, rfl, rfl, rfl⟩
  · unfold State.transmit
    dsimp only
    generalize ht : ({ s.fresh.2 with seqs := _, sent := _ } : State) = t
    obtain ⟨cores, outgoing⟩ := Prod.mk.inj (t.emit_keeps { r.x with seq := if r.x.typ = 20 then (Store.get 0 s.seqs (r.x.dst * 24 + r.x.plane) + 2 ^ 15) % 2 ^ 16 else Store.get 0 s.seqs (r.x.dst * 24 + r.x.plane) })
    obtain ⟨sent, unsent⟩ := Prod.mk.inj outgoing
    rw [cores, sent, unsent, ← ht]
    exact ⟨rfl, _, List.mem_append_left _ (List.mem_append_right _ List.mem_cons_self), rfl, rfl, rfl⟩

theorem keepsClaims_wcAgeDrain (core id : Nat) : KeepsClaims serviceClaims (.wcAgeDrain core id) := by
  intro s p hp ok
  obtain ⟨e, he, rfl⟩ := Option.map_eq_some_iff.mp hp
  obtain ⟨ready, unsent, loose, near, free⟩ := ok
  generalize hs : (s.modCore core fun c => { c with wc := c.wc.map fun x => if x.id = id then { x with sent := true } else x }) = s1
  have drained : s.drainWc core id = s1.request (s1.mkSent core e.ctx e.peer (e.line * 128) e.payload.1 0 0 e.payload.2.length e.payload.2 (.wc core id)) := by
    unfold State.drainWc
    rw [he]
    dsimp only
    rw [if_neg (by simp [unsent, loose]), if_neg (by simp [near]), hs]
    rfl
  have marked : ∀ x ∈ (s1.core core).wc, x.id = id → x.sent = true := by
    rw [← hs, State.core_modCore, if_pos rfl]
    intro x hx named
    obtain ⟨y, -, rfl⟩ := List.mem_map.mp hx
    split
    · rfl
    · rename_i other
      rw [if_neg other] at named
      exact absurd named other
  have beside : s1.besideFabric = s.besideFabric := by rw [← hs]; rfl
  generalize hr : s1.mkSent core e.ctx e.peer (e.line * 128) e.payload.1 0 0 e.payload.2.length e.payload.2 (.wc core id) = r at drained
  have link : r.link = .wc core id ∧ r.x.dst = e.peer ∧ r.x.payload = e.payload.2 := by rw [← hr]; exact ⟨rfl, rfl, rfl⟩
  have unticketed : s1.ticketFor r = none := by
    unfold State.ticketFor
    split
    · rfl
    · have tickets : (s1.core core).tickets = (s.core core).tickets := by rw [← hs, State.core_modCore, if_pos rfl]
      rw [← hr]
      show (s1.core core).tickets.find? (fun t => t.ctx == e.ctx && t.peer == e.peer && t.page == e.line * 128 / 8192) = none
      rw [tickets, show e.line * 128 / 8192 = e.line / 64 by omega]
      exact free
  obtain ⟨cores, o, mem, same⟩ := State.request_goes unticketed
  have sent := (s1.besideFabric_request r).trans beside
  obtain ⟨m, woken⟩ := (s1.request r).wake_noneReady (State.noneReady_of_besideFabric sent ready)
  have step : exec (.wcAgeDrain core id) s = .next { s1.request r with saves := m } := by
    show execWcAgeDrain core id s = _
    rw [execWcAgeDrain, drained, woken]
  have core' : ({ s1.request r with saves := m } : State).core core = s1.core core := by
    show Store.get {} (s1.request r).cores core = _
    rw [cores]
    rfl
  refine ⟨_, step, ?_, ⟨o, mem, same.1.trans link.1, same.2.1.trans link.2.1, same.2.2.trans link.2.2⟩, ?_⟩
  · rw [core']
    exact marked
  · exact State.sameMemory_of_besideFabric (t := { s1.request r with saves := m }) sent

/-! ### Answers and kicks (R314) -/

theorem sameMemory_claimTables {s : State} (h : s.keysStand) (ctx : Nat) : sameMemory s (s.claimTables ctx) := by
  unfold State.claimTables
  split
  · exact sameMemory_passFrames h (Nat.succ_ne_zero _) _
  · exact sameMemory_refl s

/-- Frames that pass change the owners, and the notes of their keys. -/
theorem State.claimTables_rest (s : State) (ctx : Nat) :
    ∃ f l, s.claimTables ctx = { s with frames := f, lineGen := l } := by
  unfold State.claimTables
  split
  · exact ⟨_, _, rfl⟩
  · exact ⟨s.frames, s.lineGen, rfl⟩

theorem keepsClaims_frespAnswer (part idx : Nat) (refuse : Bool) : KeepsClaims serviceClaims (.frespAnswer part idx refuse) := by
  intro s p hp ok
  obtain rfl := Option.some.inj hp
  obtain ⟨plain, ⟨f, hf, named⟩, waits⟩ := ok
  obtain ⟨g, hg⟩ : ∃ g, ((s.part part).faults.find? fun f => f.1 == idx) = some g :=
    Option.isSome_iff_exists.mp (List.find?_isSome.mpr ⟨f, hf, by simp [named]⟩)
  have claimed : ∃ f l, (if refuse then s else s.claimTables g.2.2.2.1) = { s with frames := f, lineGen := l } := by
    split
    · exact ⟨s.frames, s.lineGen, rfl⟩
    · exact s.claimTables_rest _
  have kept : sameMemory s (if refuse then s else s.claimTables g.2.2.2.1) := by
    split
    · exact sameMemory_refl s
    · exact sameMemory_claimTables plain.2.1 _
  obtain ⟨frames, notes, claimed⟩ := claimed
  have step : exec (.frespAnswer part idx refuse) s = .next ((if refuse then s else s.claimTables g.2.2.2.1).endService part idx refuse) := by
    show execFrespAnswer part idx refuse s = _
    rw [execFrespAnswer, hg]
  rw [claimed] at step kept
  obtain ⟨m, ended⟩ := State.endService_unawaited (s := { s with frames := frames, lineGen := notes }) waits refuse
  rw [ended] at step
  refine ⟨_, step, fun f => ?_, fun q hq => ?_, rfl, sameMemory_trans kept ⟨fun _ _ => rfl, fun _ => rfl⟩⟩
  · show f ∈ (Store.get {} (Store.set {} s.parts part _) part).faults ↔ _
    rw [Store.get_set, if_pos rfl]
    show f ∈ (s.part part).faults.filter _ ↔ _
    rw [List.mem_filter, bne_iff_ne]
  · show Store.get {} (Store.set {} s.parts part _) q = _
    rw [Store.get_set, if_neg hq]
    rfl

/-- Fetches and engines that go on touch no queue and no key, and take no time. -/
theorem State.answerFetch_keeps (s : State) (part idx : Nat) :
    ((s.answerFetch part idx false).queues, (s.answerFetch part idx false).tick, (s.answerFetch part idx false).keysOut) = (s.queues, s.tick, s.keysOut) := by
  unfold State.answerFetch
  refine foldl_keeps (fun u : State => (u.queues, u.tick, u.keysOut)) _ (fun t w => ?_) _ _
  split
  · split <;> rfl
  · rfl

theorem State.answerEngines_keeps (s : State) (pick : Nat → Nat → Bool) (refuse : Bool) :
    ((s.answerEngines pick refuse).queues, (s.answerEngines pick refuse).tick, (s.answerEngines pick refuse).keysOut) = (s.queues, s.tick, s.keysOut) := by
  unfold State.answerEngines
  refine foldl_keeps (fun u : State => (u.queues, u.tick, u.keysOut)) _ (fun t g => ?_) _ _
  refine foldl_keeps (fun u : State => (u.queues, u.tick, u.keysOut)) _ (fun t q => ?_) _ _
  split
  · split
    · split <;> rfl
    · rfl
  · rfl

theorem State.keysOut_answerQueues (s : State) (pick : Nat → Nat → Bool) (refuse : Bool) : (s.answerQueues pick refuse).keysOut = s.keysOut := by
  rw [State.answerQueues_eq]
  refine foldl_keeps State.keysOut _ (fun t e => ?_) _ _
  refine (foldl_keeps State.keysOut _ (fun u c => by split <;> rfl) _ _ : (State.answerCopies pick refuse _ e).keysOut = _).trans ?_
  unfold State.answerPacket
  split
  · split <;> rfl
  · rfl

theorem keepsClaims_frespKick (part : Nat) : KeepsClaims serviceClaims (.frespKick part) := by
  intro s p hp ok
  obtain rfl := Option.some.inj hp
  obtain ⟨held, keys⟩ := ok
  refine ⟨_, rfl, fun q ev hev hrec => ?_⟩
  obtain ⟨m, woken⟩ := s.wake_unheld (fun w => w == .service part unposted || w == .dirty part) fun e he l hl => by
    simpa using held e he l hl
  rw [woken]
  generalize hs : State.answerEngines _ _ _ = s1
  have kept : (s1.queues, s1.tick, s1.keysOut) = (s.queues, s.tick, s.keysOut) := by
    rw [← hs]
    exact (State.answerEngines_keeps _ _ _).trans (State.answerFetch_keeps { s with saves := m } part unposted)
  obtain ⟨queues, rest⟩ := Prod.mk.inj kept
  obtain ⟨tick, keysOut⟩ := Prod.mk.inj rest
  have queue : s1.queue q = s.queue q := by unfold State.queue; rw [queues]
  have retried := State.answerQueues_retries (fun p i => p == part && (i == unposted || i == dirtyWait)) false s1 (q := q) (ev := ev)
    (by rw [queue]; exact hev) (by rw [queue, hrec]; simp [picked])
  have none : ((s1.answerQueues (fun p i => p == part && (i == unposted || i == dirtyWait)) false).keysOut.filter
      fun k => k.part == part && k.record == unposted && !k.noticed) = [] := by
    rw [State.keysOut_answerQueues, keysOut, List.filter_eq_nil_iff]
    intro k hk
    simp [keys k hk]
  rw [none, ← tick]
  exact retried

/-! ### The family -/

/-- Settles O22: each form of the family keeps its claim. -/
theorem serviceEvents : Obligations.ServiceEvents := by
  unfold Obligations.ServiceEvents
  intro i
  change KeepsClaims serviceClaims i
  cases i with
  | translationWalk core ctx va k => exact keepsClaims_translationWalk core ctx va k
  | zeroingComplete b => exact keepsClaims_zeroingComplete b
  | frespAnswer part idx refuse => exact keepsClaims_frespAnswer part idx refuse
  | frespKick part => exact keepsClaims_frespKick part
  | shootdownRequest part asid va => exact keepsClaims_shootdownRequest part asid va
  | uncorrectableError tgt => cases tgt with
    | vreg w r th h => exact keepsClaims_vectorError w r th h
    | sreg w r => exact keepsClaims_scalarError w r
    | memory pa => exact keepsClaims_memoryError pa
    | state p => exact keepsClaims_stateError p
  | parityError tgt => exact keepsClaims_parityError tgt
  | wcAgeDrain core id => exact keepsClaims_wcAgeDrain core id
  | l1DirtyAgeWriteback core line => exact keepsClaims_l1DirtyAgeWriteback core line
  | pageAgeScan => exact keepsClaims_pageAgeScan
  | evictedPageRestore part idx frame data => exact keepsClaims_evictedPageRestore part idx frame data
  | systemMemoryAnswer id a => exact keepsClaims_systemMemoryAnswer id a
  | hocpWrite pa v => exact keepsClaims_hocpWrite pa v
  | hocpBlockTransfer pa n data => exact keepsClaims_hocpBlockTransfer pa n data
  | _ => rintro s p ⟨⟩

end Sys2Proof.Machine
end


-- ==== Sys2Proof/Proofs/LateResults.lean ====
section
/-! SUPPORT. What a late result writes, and what the entry of a trap that waited for it leaves alone (R92, R133). -/

namespace Sys2Proof.Machine

open Sys2Proof.Safety

/-! ### A result lands (R92) -/

/-- One register of a late result, for one thread. -/
def Pending.land (p : Pending) (t : Nat) (x : Warp) (r : Nat) : Warp :=
  let v := Store.get 0 p.data (r * 96 + t)
  let po := Store.get false p.poison (r * 96 + t)
  if p.scalar then
    let y := x.writeS r v
    if po ∧ r ≠ 0 then { y with spoison := y.spoison ||| (1#64 <<< r) } else y
  else
    let y := x.writeV r t v
    if po then (y.markV r t 0).markV r t 1 else y

/-- The results that a warp awaits once those of one thread of a record are there. -/
def stillAwaited (id t : Nat) (ps : List Pending) : List Pending :=
  (ps.map fun q => if q.id = id then { q with threads := q.threads &&& ~~~(bit t) } else q).filter fun q => q.threads != 0

theorem Warp.landed_eq {x : Warp} {id t : Nat} {p : Pending} (h : x.pending.find? (fun p => p.id == id) = some p)
    (waits : p.threads.getLsbD t = true) (free : p.held.getLsbD t = false) :
    x.landed id t = { p.regs.foldl (p.land t) x with pending := stillAwaited id t (p.regs.foldl (p.land t) x).pending } := by
  unfold Warp.landed
  rw [h]
  dsimp only
  rw [if_neg (by simp [waits, free])]
  rfl

/-- A warp but for its registers and their poison. -/
def Warp.besideRegs (x : Warp) : Warp := { x with sregs := [], spoison := 0, vregs := [], vpoison := [] }

section
variable (p : Pending) (t : Nat) (x : Warp) (r : Nat)

theorem Pending.besideRegs_land (hr : r < 61) : (p.land t x r).besideRegs = x.besideRegs := by
  have written : ∀ v, (x.writeS r v).besideRegs = x.besideRegs := fun v => by
    unfold Warp.writeS
    split
    · rfl
    · rw [if_neg (by omega)]; rfl
  unfold Pending.land
  dsimp only
  split
  · split
    · exact written _
    · exact written _
  · split <;> rfl

theorem Pending.sregs_land (hp : p.scalar = true) (hr : r < 61) :
    (p.land t x r).vregs = x.vregs ∧
    ∀ k, Store.get 0 (p.land t x r).sregs k = if k = r ∧ r ≠ 0 then Store.get 0 p.data (r * 96 + t) else Store.get 0 x.sregs k := by
  have written : ∀ v, (x.writeS r v).vregs = x.vregs ∧
      ∀ k, Store.get 0 (x.writeS r v).sregs k = if k = r ∧ r ≠ 0 then v else Store.get 0 x.sregs k := fun v => by
    unfold Warp.writeS
    by_cases h0 : r = 0
    · rw [if_pos h0]
      exact ⟨rfl, fun k => by rw [if_neg fun c => c.2 h0]⟩
    · rw [if_neg h0, if_neg (by omega)]
      refine ⟨rfl, fun k => ?_⟩
      rw [Store.get_set]
      exact if_congr (by simp [h0]) rfl rfl
  unfold Pending.land
  rw [if_pos hp]
  dsimp only
  split <;> exact written _

theorem Pending.vregs_land (hp : p.scalar = false) :
    (p.land t x r).sregs = x.sregs ∧
    ∀ k, Store.get 0 (p.land t x r).vregs k = if k = r * 96 + t then Store.get 0 p.data (r * 96 + t) else Store.get 0 x.vregs k := by
  unfold Pending.land
  rw [if_neg (by simp [hp])]
  dsimp only
  split <;> exact ⟨rfl, fun k => by exact Store.get_set 0 x.vregs _ _ k⟩
end

section
variable (p : Pending) (t : Nat) (rs : List Nat)

theorem Pending.besideRegs_lands (h : ∀ r ∈ rs, r < 61) (x : Warp) : (rs.foldl (p.land t) x).besideRegs = x.besideRegs :=
  List.foldlRecOn (motive := fun y => y.besideRegs = x.besideRegs) rs _ rfl fun y hy r hr => (p.besideRegs_land t y r (h r hr)).trans hy

/-- A scalar result reaches its registers, but for s0. -/
theorem Pending.sregs_lands (hp : p.scalar = true) (h : ∀ r ∈ rs, r < 61) (x : Warp) :
    (rs.foldl (p.land t) x).vregs = x.vregs ∧
    ∀ k, Store.get 0 (rs.foldl (p.land t) x).sregs k = if k ∈ rs ∧ k ≠ 0 then Store.get 0 p.data (k * 96 + t) else Store.get 0 x.sregs k := by
  induction rs generalizing x with
  | nil => exact ⟨rfl, fun k => by simp⟩
  | cons r rs ih =>
    obtain ⟨vregs, sregs⟩ := ih (fun k hk => h k (List.mem_cons_of_mem _ hk)) (p.land t x r)
    obtain ⟨vregs', sregs'⟩ := p.sregs_land t x r hp (h r List.mem_cons_self)
    refine ⟨vregs.trans vregs', fun k => ?_⟩
    rw [List.foldl_cons, sregs, sregs']
    by_cases later : k ∈ rs ∧ k ≠ 0
    · rw [if_pos later, if_pos ⟨List.mem_cons_of_mem _ later.1, later.2⟩]
    · rw [if_neg later]
      by_cases here : k = r ∧ r ≠ 0
      · obtain ⟨rfl, h0⟩ := here
        rw [if_pos ⟨rfl, h0⟩, if_pos ⟨List.mem_cons_self, h0⟩]
      · rw [if_neg here, if_neg]
        rintro ⟨hk, h0⟩
        rcases List.mem_cons.mp hk with rfl | hk
        · exact here ⟨rfl, h0⟩
        · exact later ⟨hk, h0⟩

/-- A vector result reaches its registers of its thread. -/
theorem Pending.vregs_lands (hp : p.scalar = false) (ht : t < 96) (x : Warp) :
    (rs.foldl (p.land t) x).sregs = x.sregs ∧
    ∀ k j, j < 96 → Store.get 0 (rs.foldl (p.land t) x).vregs (k * 96 + j)
      = if k ∈ rs ∧ j = t then Store.get 0 p.data (k * 96 + t) else Store.get 0 x.vregs (k * 96 + j) := by
  induction rs generalizing x with
  | nil => exact ⟨rfl, fun k j _ => by simp⟩
  | cons r rs ih =>
    obtain ⟨sregs, vregs⟩ := ih (p.land t x r)
    obtain ⟨sregs', vregs'⟩ := p.vregs_land t x r hp
    refine ⟨sregs.trans sregs', fun k j hj => ?_⟩
    rw [List.foldl_cons, vregs k j hj, vregs']
    by_cases later : k ∈ rs ∧ j = t
    · rw [if_pos later, if_pos ⟨List.mem_cons_of_mem _ later.1, later.2⟩]
    · rw [if_neg later]
      by_cases here : k = r ∧ j = t
      · obtain ⟨rfl, rfl⟩ := here
        rw [if_pos rfl, if_pos ⟨List.mem_cons_self, rfl⟩]
      · rw [if_neg (by omega), if_neg]
        rintro ⟨hk, rfl⟩
        rcases List.mem_cons.mp hk with rfl | hk
        · exact here ⟨rfl, rfl⟩
        · exact later ⟨hk, rfl⟩
end

/-! ### What a trap's entry, a halt and a dump leave of every warp -/

/-- What of a warp neither its gang, a halt nor a park touches: its registers, its results, its splits, its trap state and its mode. -/
def Warp.insides (x : Warp) : Store Word × Store Word × List Pending × Store Split × TrapRegs × BitVec 11 :=
  (x.sregs, x.vregs, x.pending, x.splits, x.trap, x.mode)

/-- The same of every warp. -/
def State.insides (s : State) (v : Nat) : Store Word × Store Word × List Pending × Store Split × TrapRegs × BitVec 11 := (s.warp v).insides

theorem State.insides_of_warps {s t : State} (h : t.warps = s.warps) : t.insides = s.insides := by
  funext v
  unfold State.insides State.warp
  rw [h]

section
variable (s : State) (w : Nat)

theorem State.insides_modWarp (f : Warp → Warp) (hf : (f (s.warp w)).insides = (s.warp w).insides) : (s.modWarp w f).insides = s.insides := by
  funext v
  unfold State.insides
  rw [State.warp_modWarp]
  split
  · rename_i same; rw [same, hf]
  · rfl

theorem State.insides_partGang : (s.partGang w).insides = s.insides := by
  funext v
  unfold State.insides
  rw [(partGang_parted s w).warp_eq v]
  rfl

theorem State.warps_event (p r code queue ctx warp detail : Nat) (pc : Word) (aux : Nat) :
    (s.event p r code queue ctx warp detail pc aux).warps = s.warps := by
  have beside := s.besideL2_event p r code queue ctx warp detail pc aux
  have warps := congrArg State.warps beside
  exact warps

theorem State.warps_haltEvent : (s.haltEvent w).warps = s.warps := by
  unfold State.haltEvent
  dsimp only
  split
  · split
    · rw [State.warps_event]; rfl
    · rfl
  · rfl

theorem State.warps_trace (ctx : Nat) (rec : List Byte) : (s.trace ctx rec).warps = s.warps := by
  unfold State.trace
  dsimp only
  split
  · rfl
  · split
    · rfl
    · have warps := congrArg State.warps (s.besideL2_ctxWriteOr ctx ((s.ctx ctx).tracebase.toNat / 8192 * 8192 + (s.ctx ctx).traceptr.toNat % 2 ^ (s.ctx ctx).trlog * 32) rec)
      exact warps

theorem State.insides_haltNow (cause watch slot : Nat) (part : Bool) : (s.haltNow w cause watch slot part).insides = s.insides := by
  unfold State.haltNow
  dsimp only
  generalize hm : (s.modWarp w fun x => { x with whalt := true, haltCause := cause, haltWatch := watch, haltSlot := slot, haltPartial := part }) = s1
  have halted : (((s1.partGang w).haltEvent w)).insides = s.insides := by
    rw [State.insides_of_warps (State.warps_haltEvent _ _), State.insides_partGang, ← hm]
    exact s.insides_modWarp w _ rfl
  split
  · refine Eq.trans ?_ halted
    exact State.insides_of_warps (foldl_keeps State.warps (fun (s : State) (m : Mma) => s.after 1 (.mmaComplete (coreOf w) m.id)) (fun _ _ => rfl) _ _)
  · exact halted

theorem State.insides_haltWarp (cause watch slot : Nat) (part : Bool) : (s.haltWarp w cause watch slot part).insides = s.insides := by
  unfold State.haltWarp
  split
  · exact s.insides_haltNow w cause watch slot part
  · exact s.insides_modWarp w _ rfl

theorem State.insides_startDump : (s.startDump w).insides = s.insides := by
  unfold State.startDump
  extract_lets ctx halt s1 by' s2 s3
  have halted : ∀ (s : State) (v : Nat), (halt s v).insides = s.insides := fun s v => by
    unfold halt
    dsimp only
    split
    · rfl
    · split <;> exact s.insides_haltWarp v _ _ _ _
  have one : s1.insides = s.insides := halted s w
  have all : s2.insides = s.insides := foldl_keeps State.insides halt halted (s.ctxWarps ctx) s
  have stopped : s3.warps = s2.warps :=
    foldl_keeps State.warps (fun (s : State) g => s.modWg g fun x => { x with engHalt := true }) (fun _ _ => rfl) _ _
  clear_value s1 s2 s3
  split
  · split <;> exact one
  · exact (State.insides_of_warps (t := (s3.modCtx _ _).soon _) stopped).trans all

/-- The warp whose trap is entered, but for its gang, its park and a halt. -/
theorem State.insides_trapEnters (cause f : Nat) (addr : DWord) (first : Word) (part : Bool) (pc : Word) :
    ((s.trapEnters w cause f addr first part pc).warp w).insides
      = ((s.warp w).enterTrap (s.ctx (s.ctxOf w)).tvec cause f addr first part pc).insides := by
  have self : ∀ t : State, t.insides w = (t.warp w).insides := fun _ => rfl
  rw [← self]
  unfold State.trapEnters
  dsimp only
  generalize hm : (s.modWarp w fun x => { x.enterTrap (s.ctx (s.ctxOf w)).tvec cause f addr first part pc with park := .none }) = s1
  have entered : (s1.partGang w).insides w = ((s.warp w).enterTrap (s.ctx (s.ctxOf w)).tvec cause f addr first part pc).insides := by
    rw [State.insides_partGang, self, ← hm, State.warp_modWarp, if_pos rfl]
    generalize (s.warp w).enterTrap _ _ _ _ _ _ _ = y
    rfl
  have traced : ∀ rec, (if (s.ctx (s.ctxOf w)).trTraps then (s1.partGang w).trace (s.ctxOf w) rec else s1.partGang w).insides = (s1.partGang w).insides := by
    intro rec
    split
    · exact State.insides_of_warps (State.warps_trace _ _ _)
    · rfl
  split
  · rw [State.insides_startDump, traced, entered]
  · rw [traced, entered]
end

/-- A warp has no running entry where none of its entries is RUNNING. -/
theorem Warp.run_none_iff (x : Warp) : ¬ x.run < 8 ↔ ∀ e, e < 8 → (x.split e).state ≠ .running := by
  constructor
  · intro none e he running
    have some : ∃ r, (x.split r).state = .running := ⟨e, running⟩
    obtain ⟨r, hr, first⟩ : ∃ r, (x.split r).state = .running ∧ ∀ e, e < r → (x.split e).state ≠ .running :=
      ⟨Nat.find some, Nat.find_spec some, fun _ h => Nat.find_min some h⟩
    have low : r < 8 := Nat.lt_of_le_of_lt (Nat.le_of_not_lt fun c => first e c running) he
    exact none ((x.run_eq_iff r low).mpr ⟨hr, first⟩ ▸ low)
  · intro none low
    exact none _ low ((x.run_eq_iff _ low).mp rfl).1

theorem Warp.run_of_none {x : Warp} (h : ¬ x.run < 8) : x.run = 8 := by
  have none := (x.run_none_iff).mp h
  unfold Warp.run
  rw [List.filter_eq_nil_iff.mpr fun e he => by simpa using none e (List.mem_range.mp he)]
  rfl

/-- The handler of a trap runs with the threads that its word had, whatever split ran. -/
theorem Warp.enterTrap_active (x : Warp) (tvec : Word) (c f : Nat) (a : DWord) (first : Word) (part : Bool) (pc : Word) :
    (x.enterTrap tvec c f a first part pc).cur.a = x.cur.a := by
  by_cases hr : x.run < 8
  · rw [(enterTrap_handles x tvec c f a first part pc hr).cur]
  · unfold Warp.enterTrap
    extract_lets k src w1 w2
    have h : Suspends { w1 with trap := { w1.trap with susp := 0 } } w2 x.run x.valid := suspendFold_suspends _ _ _
    have none : ¬ w2.run < 8 := (w2.run_none_iff).mpr fun e he => by
      by_cases hv : e ∈ x.valid
      · rw [h.state e hv (by omega)]
        exact fun c => by cases c
      · exact fun c => (x.run_none_iff).mp hr e he ((congrArg Split.state (h.others e hv)).symm.trans c)
    have same : w2.split x.run = x.split x.run := h.running
    have stays : w2.setCur { k with trapm := true, pc := tvec, joinid := 0xFFF, timeout := 0 } = w2 := by
      unfold Warp.setCur
      rw [if_neg none]
    rw [stays]
    unfold Warp.cur
    rw [Warp.run_of_none none, ← Warp.run_of_none hr, same]

end Sys2Proof.Machine
end


-- ==== Sys2Proof/Proofs/LateWrites.lean ====
section
/-! STATEMENT PROOFS. A late result reaches its registers, and the wait that ends with it ends (R91, R92, R94). -/

namespace Sys2Proof.Machine

open Sys2Proof.Safety

/-- A warp has taken one thread's late result, and no other register of it has changed. -/
structure TookResult (p : Pending) (id th : Nat) (x y : Warp) : Prop where
  taken : ∀ r ∈ p.regs, if p.scalar then y.readS r = if r = 0 then 0 else Store.get 0 p.data (r * 96 + th)
    else y.readV r th = Store.get 0 p.data (r * 96 + th)
  vectors : ∀ r k, k < 96 → (p.scalar = true ∨ k ≠ th ∨ r ∉ p.regs) → y.readV r k = x.readV r k
  scalars : ∀ r, (p.scalar = false ∨ r ∉ p.regs) → y.readS r = x.readS r
  ended : ∀ q ∈ y.pending, q.id = id → q.threads.getLsbD th = false

theorem Warp.readS_congr {x y : Warp} (sregs : ∀ k, Store.get 0 y.sregs k = Store.get 0 x.sregs k) (active : y.cur.a = x.cur.a) (r : Nat) :
    y.readS r = x.readS r := by
  unfold Warp.readS
  rw [sregs, active]

theorem TookResult.congr {p : Pending} {id th : Nat} {x y z : Warp} (h : TookResult p id th x y) (sregs : z.sregs = y.sregs)
    (vregs : z.vregs = y.vregs) (pending : z.pending = y.pending) (active : z.cur.a = y.cur.a) : TookResult p id th x z := by
  have readS := Warp.readS_congr (x := y) (y := z) (fun k => by rw [sregs]) active
  have readV : ∀ r k, z.readV r k = y.readV r k := fun r k => by unfold Warp.readV; rw [vregs]
  refine ⟨fun r hr => ?_, fun r k hk away => (readV r k).trans (h.vectors r k hk away), fun r away => (readS r).trans (h.scalars r away), ?_⟩
  · rw [readS, readV]
    exact h.taken r hr
  · rw [pending]
    exact h.ended

/-- The threads of a record once one of them has its result. -/
theorem getLsbD_clear_bit (m : Mask) {t : Nat} (ht : t < 96) : (m &&& ~~~(bit t)).getLsbD t = false := by
  rw [BitVec.getLsbD_and, BitVec.getLsbD_not, getLsbD_bit t t ht]
  simp

theorem Warp.landed_took {x : Warp} {id th : Nat} {p : Pending} (h : x.pending.find? (fun p => p.id == id) = some p)
    (low : ∀ r ∈ p.regs, r < 61) (waits : p.threads.getLsbD th = true) (free : p.held.getLsbD th = false) (ht : th < 96) :
    TookResult p id th x (x.landed id th) ∧ ∃ ps, (x.landed id th).besideRegs = { x.besideRegs with pending := ps } := by
  have beside := p.besideRegs_lands th p.regs low x
  have active : (p.regs.foldl (p.land th) x).besideRegs.cur.a = x.besideRegs.cur.a := by rw [beside]
  have gone : ∀ l, ∀ q ∈ stillAwaited id th l, q.id = id → q.threads.getLsbD th = false := by
    intro l q hq named
    obtain ⟨k, -, rfl⟩ := List.mem_map.mp (List.mem_of_mem_filter hq)
    split
    · exact getLsbD_clear_bit _ ht
    · rename_i other
      rw [if_neg other] at named
      exact absurd named other
  rw [Warp.landed_eq h waits free]
  have scal := fun hp => p.sregs_lands th p.regs hp low x
  have vect := fun hp => p.vregs_lands th p.regs hp ht x
  generalize p.regs.foldl (p.land th) x = y at beside active scal vect
  refine ⟨TookResult.congr (y := { y with pending := _ }) ?_ rfl rfl rfl rfl, _, by rw [← beside]; rfl⟩
  have active : y.cur.a = x.cur.a := active
  have readS : ∀ r, ({ y with pending := stillAwaited id th y.pending } : Warp).readS r = y.readS r := fun _ => rfl
  cases hp : p.scalar with
  | true =>
    obtain ⟨vregs, sregs⟩ := scal hp
    have readV : ∀ r k, y.readV r k = x.readV r k := fun r k => by unfold Warp.readV; rw [vregs]
    refine ⟨fun r hr => ?_, fun r k _ _ => readV r k, fun r away => ?_, gone y.pending⟩
    · rw [if_pos hp, readS]
      unfold Warp.readS
      by_cases h0 : r = 0
      · rw [if_pos h0, if_pos h0]
      · rw [if_neg h0, if_neg h0, if_neg (by have := low r hr; omega), sregs, if_pos ⟨hr, h0⟩]
    · rw [readS]
      rw [hp] at away
      have out : r ∉ p.regs := away.resolve_left (by simp)
      have unwritten : Store.get 0 y.sregs r = Store.get 0 x.sregs r := by rw [sregs, if_neg fun c => out c.1]
      unfold Warp.readS
      rw [active, unwritten]
  | false =>
    obtain ⟨sregs, vregs⟩ := vect hp
    refine ⟨fun r hr => ?_, fun r k hk away => ?_, fun r _ => ?_, gone y.pending⟩
    · rw [if_neg (by simp [hp])]
      exact (vregs r th ht).trans (if_pos ⟨hr, rfl⟩)
    · rw [hp] at away
      refine (vregs r k hk).trans (if_neg fun c => ?_)
      rcases away with away | away | away
      · cases away
      · exact away c.2
      · exact away c.1
    · exact (readS r).trans (Warp.readS_congr (fun k => by rw [sregs]) active r)

/-! ### The wait that ends (R94) -/

/-- No more of a state than the park of one warp, its readiness and what no warp and no memory holds has changed. -/
structure Parks (w : Nat) (s t : State) : Prop where
  self : ∃ q n, t.warp w = { s.warp w with park := q, readyAt := n }
  others : ∀ v, v ≠ w → t.warp v = s.warp v
  memory : sameMemory s t

theorem Parks.of_modWarp (s : State) (w : Nat) (f : Warp → Warp) (hf : ∃ q n, f (s.warp w) = { s.warp w with park := q, readyAt := n }) :
    Parks w s (s.modWarp w f) := by
  obtain ⟨q, n, hf⟩ := hf
  refine ⟨⟨q, n, ?_⟩, fun v hv => ?_, fun _ _ => rfl, fun _ => rfl⟩
  · rw [State.warp_modWarp, if_pos rfl, hf]
  · rw [State.warp_modWarp, if_neg hv]

theorem Parks.scheduleGift {w : Nat} {s t : State} (h : Parks w s t) : Parks w s (t.scheduleGift w) :=
  ⟨h.self, h.others, sameMemory_trans h.memory ⟨fun _ _ => rfl, fun _ => rfl⟩⟩

theorem Parks.goOn (s : State) (w : Nat) : Parks w s (s.goOn w) := by
  unfold State.goOn
  exact Parks.of_modWarp s w _ ⟨.none, max (s.warp w).readyAt (s.now w + 1), rfl⟩

/-- Where a warp awaits no trap, no more than its park and its readiness change. -/
theorem Parks.endPark (s : State) (w : Nat) (h : entering (s.warp w).park = false) : Parks w s (s.endPark w) := by
  have marker : Parks w s (s.modWarp w fun x => { x with park := .marker }) := Parks.of_modWarp s w _ ⟨.marker, (s.warp w).readyAt, rfl⟩
  have goes := Parks.goOn s w
  unfold State.endPark
  split
  · rename_i hp
    rw [hp] at h
    cases h
  · refine Parks.scheduleGift ?_
    split
    · exact marker
    · exact goes
  · exact goes

/-- Where it awaits one, the trap is entered: its registers and its results are as before. -/
theorem State.endPark_enters (s : State) (w : Nat) {c f : Nat} {a : DWord} {first : Word} {part : Bool} {pc : Word}
    (h : (s.warp w).park = .trapEntry c f a first part pc) :
    ∃ tvec, ((s.endPark w).warp w).insides = ((s.warp w).enterTrap tvec c f a first part pc).insides := by
  refine ⟨_, Eq.trans ?_ (s.insides_trapEnters w c f a first part pc)⟩
  unfold State.endPark
  rw [h]
  dsimp only
  unfold State.goOn
  rw [State.warp_modWarp, if_pos rfl]
  rfl

theorem Warp.cur_congr {x y : Warp} (h : y.splits = x.splits) : y.cur = x.cur := by
  unfold Warp.cur Warp.run Warp.split
  rw [h]

/-- The wait of a warp ends, if what it awaits has come. -/
def State.waitEnded (s : State) (w : Nat) : State := if s.waitOver w then s.endPark w else s

section
variable {s : State} {w : Nat}

theorem Parks.waitEnded (h : entering (s.warp w).park = false) : Parks w s (s.waitEnded w) := by
  unfold State.waitEnded
  split
  · exact Parks.endPark s w h
  · exact ⟨⟨(s.warp w).park, (s.warp w).readyAt, rfl⟩, fun _ _ => rfl, fun _ _ => rfl, fun _ => rfl⟩

theorem State.waitEnded_held {c f : Nat} {a : DWord} {first : Word} {part : Bool} {pc : Word}
    (h : (s.warp w).park = .trapEntry c f a first part pc) (more : (s.warp w).awaits = true) : s.waitEnded w = s := by
  have held : s.waitOver w = false := by
    unfold State.waitOver
    dsimp only
    rw [h]
    dsimp only
    rw [more]
    rfl
  unfold State.waitEnded
  rw [held]
  rfl

theorem State.waitEnded_enters {c f : Nat} {a : DWord} {first : Word} {part : Bool} {pc : Word}
    (h : (s.warp w).park = .trapEntry c f a first part pc) (done : (s.warp w).awaits = false) :
    ∃ tvec, ((s.waitEnded w).warp w).insides = ((s.warp w).enterTrap tvec c f a first part pc).insides := by
  have ended : s.waitOver w = true := by
    unfold State.waitOver
    dsimp only
    rw [h]
    dsimp only
    rw [done]
    rfl
  unfold State.waitEnded
  rw [if_pos ended]
  exact s.endPark_enters w h
end

/-- A warp in its handler, told from what the entry of its trap leaves it. -/
theorem entered_insides {x z : Warp} {tvec : Word} {c f : Nat} {a : DWord} {first : Word} {part : Bool} {pc : Word}
    (h : z.insides = (x.enterTrap tvec c f a first part pc).insides) :
    z.sregs = x.sregs ∧ z.vregs = x.vregs ∧ z.pending = x.pending ∧ z.cur.a = x.cur.a
      ∧ z.trap.cause = BitVec.ofNat 8 c ∧ z.trap.slot = BitVec.ofNat 7 f ∧ z.trap.addr = a ∧ z.trap.pc = pc ∧ z.mode = 0 := by
  have active := x.enterTrap_active tvec c f a first part pc
  have rest := enterTrap_rest (x := x) (tvec := tvec) (c := c) (f := f) (a := a) (first := first) (part := part) (pc := pc) rfl
  generalize x.enterTrap tvec c f a first part pc = y at h active rest
  unfold Warp.insides at h
  simp only [Prod.mk.injEq] at h
  obtain ⟨sregs, vregs, pending, splits, trap, mode⟩ := h
  rw [sregs, vregs, pending, Warp.cur_congr splits, trap, mode, active, rest]
  exact ⟨rfl, rfl, rfl, rfl, rfl, rfl, rfl, rfl, rfl⟩

theorem TookResult.waitEnded {p : Pending} {id th : Nat} {x : Warp} {s : State} {w : Nat} (took : TookResult p id th x (s.warp w)) :
    TookResult p id th x ((s.waitEnded w).warp w) := by
  cases hp : (s.warp w).park with
  | trapEntry c f a first part pc =>
    cases ha : (s.warp w).awaits with
    | true => rw [State.waitEnded_held hp ha]; exact took
    | false =>
      obtain ⟨tvec, h⟩ := State.waitEnded_enters hp ha
      obtain ⟨sregs, vregs, pending, active, -⟩ := entered_insides h
      exact took.congr sregs vregs pending active
  | _ =>
    obtain ⟨q, n, me⟩ := (Parks.waitEnded (s := s) (w := w) (by rw [hp]; rfl)).self
    rw [me]
    exact took.congr rfl rfl rfl rfl

theorem keepsClaims_longLatencyWrite (w id th : Nat) : KeepsClaims warpClaims (.longLatencyWrite w id th) := by
  intro s c hc ok
  obtain ⟨p, hp, rfl⟩ := Option.map_eq_some_iff.mp hc
  obtain ⟨-, low, waits, free, ht⟩ := ok
  obtain ⟨took, ps, beside⟩ := Warp.landed_took hp low waits free ht
  have park : ((s.warp w).landed id th).park = (s.warp w).park := by
    have same : ((s.warp w).landed id th).besideRegs.park = _ := congrArg Warp.park beside
    exact same
  have landed : ∀ v, (s.modWarp w fun x => x.landed id th).warp v = if v = w then (s.warp w).landed id th else s.warp v :=
    fun v => State.warp_modWarp s w _ v
  have self : (s.modWarp w fun x => x.landed id th).warp w = (s.warp w).landed id th := (landed w).trans (if_pos rfl)
  have memory : sameMemory s (s.modWarp w fun x => x.landed id th) := ⟨fun _ _ => rfl, fun _ => rfl⟩
  rw [← self] at took park
  refine ⟨(s.modWarp w fun x => x.landed id th).waitEnded w, rfl, ?_⟩
  dsimp only
  rw [← self]
  generalize (s.modWarp w fun x => x.landed id th) = s1 at *
  have took' := took.waitEnded
  refine ⟨took'.taken, took'.vectors, took'.scalars, took'.ended, fun plain => ?_, fun c f a first part pc hp done => ?_⟩
  · have parks := Parks.waitEnded (s := s1) (w := w) (by rw [park]; exact plain)
    exact ⟨fun v hv => (parks.others v hv).trans ((landed v).trans (if_neg hv)), sameMemory_trans memory parks.memory⟩
  · obtain ⟨tvec, h⟩ := State.waitEnded_enters (park.trans hp) done
    obtain ⟨-, -, -, -, cause, slot, addr, pc, mode⟩ := entered_insides h
    exact ⟨cause, slot, addr, pc, mode⟩

end Sys2Proof.Machine
end


-- ==== Sys2Proof/Proofs/WarpTimers.lean ====
section
/-! STATEMENT PROOFS. A gift arrives (R131), a seed is written (R70), and a wait to join or to form a gang expires (R122, R126). -/

namespace Sys2Proof.Machine

open Sys2Proof.Safety

section
variable (s : State) (k : Nat)

theorem sameMemory_modWarp (f : Warp → Warp) : sameMemory s (s.modWarp k f) := ⟨fun _ _ => rfl, fun _ => rfl⟩

theorem sameMemory_modWg (f : Workgroup → Workgroup) : sameMemory s (s.modWg k f) := ⟨fun _ _ => rfl, fun _ => rfl⟩

theorem sameMemory_modCtx (f : Ctx → Ctx) : sameMemory s (s.modCtx k f) := ⟨fun _ _ => rfl, fun _ => rfl⟩
end

/-! ### A gift of registers (R131) -/

section
variable (x : Warp) (r k q th : Nat)

/-- The registers of a cleared window read zero, with no tag. -/
theorem Warp.readV_clearRegs (hth : th < 96) : (x.clearRegs r k).readV q th = if r ≤ q ∧ q < r + k then 0 else x.readV q th := by
  unfold Warp.readV Warp.clearRegs
  dsimp only
  rw [Store.get_filterKeys 0 x.vregs (fun e => !(decide (r * 96 ≤ e ∧ e < (r + k) * 96)))]
  by_cases inside : r ≤ q ∧ q < r + k
  · rw [if_pos inside, if_neg]
    simp only [Bool.not_eq_true', decide_eq_false_iff_not, not_not]
    omega
  · rw [if_neg inside, if_pos]
    simp only [Bool.not_eq_true', decide_eq_false_iff_not]
    omega

theorem Warp.tag_clearRegs : (x.clearRegs r k).tag q = if r ≤ q ∧ q < r + k then 0 else x.tag q := by
  unfold Warp.tag Warp.clearRegs
  dsimp only
  rw [Store.get_filterKeys 0 x.tags (fun e => !(decide (r ≤ e ∧ e < r + k)))]
  by_cases inside : r ≤ q ∧ q < r + k
  · rw [if_pos inside, if_neg (by simp [inside])]
  · rw [if_neg inside, if_pos (by rw [decide_eq_false inside]; rfl)]
end

theorem keepsClaims_quotaTransferComplete (w : Nat) : KeepsClaims warpClaims (.quotaTransferComplete w) := by
  rintro s _ ⟨⟩ ⟨hk, away⟩
  refine ⟨s.transferGift w, rfl, ?_⟩
  dsimp only
  unfold State.transferGift
  dsimp only
  rw [if_neg hk]
  have memory := sameMemory_trans (sameMemory_modWarp s w fun x => { x.clearRegs x.allot (s.warp w).giveK with giveK := 0, giveTo := 0 })
    (sameMemory_modWarp _ (s.warp w).giveTo fun y => { y.clearRegs y.allot (s.warp w).giveK with allot := y.allot + (s.warp w).giveK })
  have giver : ∀ v, (s.modWarp w fun x => { x.clearRegs x.allot (s.warp w).giveK with giveK := 0, giveTo := 0 }).warp v
      = if v = w then { (s.warp w).clearRegs (s.warp w).allot (s.warp w).giveK with giveK := 0, giveTo := 0 } else s.warp v :=
    State.warp_modWarp s w _
  generalize (s.modWarp w fun x => { x.clearRegs x.allot (s.warp w).giveK with giveK := 0, giveTo := 0 }) = s1 at giver memory ⊢
  have taker : ∀ v, (s1.modWarp (s.warp w).giveTo fun y => { y.clearRegs y.allot (s.warp w).giveK with allot := y.allot + (s.warp w).giveK }).warp v
      = if v = (s.warp w).giveTo then { (s1.warp (s.warp w).giveTo).clearRegs (s1.warp (s.warp w).giveTo).allot (s.warp w).giveK with
          allot := (s1.warp (s.warp w).giveTo).allot + (s.warp w).giveK } else s1.warp v := State.warp_modWarp s1 _ _
  generalize (s1.modWarp (s.warp w).giveTo fun y => { y.clearRegs y.allot (s.warp w).giveK with allot := y.allot + (s.warp w).giveK }) = t at taker memory ⊢
  rw [taker w, if_neg away.symm, giver w, if_pos rfl, taker (s.warp w).giveTo, if_pos rfl, giver (s.warp w).giveTo, if_neg away]
  generalize s.warp (s.warp w).giveTo = y
  refine ⟨rfl, rfl, rfl, fun r th hth low high => ⟨?_, ?_⟩, fun r th hth low => ?_, fun v hw hg => ?_, memory⟩
  · exact (y.readV_clearRegs _ _ r th hth).trans (if_pos ⟨low, high⟩)
  · exact (y.tag_clearRegs _ _ r).trans (if_pos ⟨low, high⟩)
  · exact (y.readV_clearRegs _ _ r th hth).trans (if_neg (by omega))
  · rw [taker, if_neg hg, giver, if_neg hw]

/-! ### A seed (R70) -/

theorem keepsClaims_seedWrite (w : Nat) (v : Word) : KeepsClaims warpClaims (.seedWrite w v) := by
  rintro s _ ⟨⟩ -
  refine ⟨s.writeSeed w v, rfl, ?_⟩
  have memory : sameMemory s (s.writeSeed w v) := sameMemory_trans (sameMemory_trans (sameMemory_modCtx s (s.ctxOf w) fun c => { c with seed := v })
    (sameMemory_modWarp _ w fun x => { x with seedBase := v, lfsr := [] })) (sameMemory_modWg _ (s.warp w).wg fun g => { g with seed := v, lfsr := [] })
  have self : (s.writeSeed w v).warp w = { s.warp w with seedBase := v, lfsr := [] } := by
    unfold State.writeSeed
    rw [State.warp_modWg, State.warp_modWarp, if_pos rfl, State.warp_modCtx]
  have wg : (s.writeSeed w v).wg (s.warp w).wg = { s.wg (s.warp w).wg with seed := v, lfsr := [] } := by
    unfold State.writeSeed
    rw [State.wg_modWg, if_pos rfl, State.wg_modWarp, State.wg_modCtx]
  have ctx : (s.writeSeed w v).ctx (s.ctxOf w) = { s.ctx (s.ctxOf w) with seed := v } := by
    unfold State.writeSeed
    rw [State.ctx_modWg, State.ctx_modWarp, State.ctx_modCtx, if_pos rfl]
  have others : ∀ u, u ≠ w → (s.writeSeed w v).warp u = s.warp u := fun u hu => by
    unfold State.writeSeed
    rw [State.warp_modWg, State.warp_modWarp, if_neg hu, State.warp_modCtx]
  generalize s.writeSeed w v = t at *
  dsimp only
  rw [self, wg, ctx]
  exact ⟨rfl, rfl, rfl, rfl, rfl, others, memory⟩

/-! ### An entry that waits becomes READY (R122, R126) -/

/-- An entry that does not run becomes READY: the running one, if there is one, goes on. -/
theorem Warp.resume_wake {x : Warp} {e : Nat} (now later : Nat) (runs : x.run < 8) (waits : (x.split e).state ≠ .running) :
    (x.setSplit e ((x.split e).wake now)).resume later = x.setSplit e ((x.split e).wake now) := by
  have running := (x.run_eq_iff x.run runs).mp rfl
  have stays : (x.setSplit e ((x.split e).wake now)).run = x.run := by
    refine ((x.setSplit e ((x.split e).wake now)).run_eq_iff x.run runs).mpr ⟨?_, fun f hf => ?_⟩
    · rw [Warp.split_setSplit, if_neg fun c => waits ((congrArg (fun f => (x.split f).state) c).symm.trans running.1)]
      exact running.1
    · rw [Warp.split_setSplit]
      split
      · exact fun c => by cases c
      · exact running.2 f hf
  generalize x.setSplit e ((x.split e).wake now) = y at stays
  have low : y.run < 8 := stays ▸ runs
  unfold Warp.resume Warp.nextSplit
  dsimp only
  rw [if_pos low, if_neg (by omega)]

theorem Warp.split_wake (x : Warp) (e now f : Nat) :
    (x.setSplit e ((x.split e).wake now)).split f = if f = e then (x.split e).wake now else x.split f := Warp.split_setSplit x e _ f

theorem keepsClaims_joinTimeoutExpiry (w e : Nat) : KeepsClaims warpClaims (.joinTimeoutExpiry w e) := by
  rintro s _ ⟨⟩ ⟨waits, runs⟩
  refine ⟨s.expireJoin w e, rfl, ?_⟩
  dsimp only
  unfold State.expireJoin
  dsimp only
  rw [if_pos waits]
  have me : (s.modWarp w fun x => (x.setSplit e (((s.warp w).split e).wake s.serial)).resume (s.now w)).warp w
      = (s.warp w).setSplit e (((s.warp w).split e).wake s.serial) := by
    rw [State.warp_modWarp, if_pos rfl, Warp.resume_wake _ _ runs (by rw [waits]; exact fun c => by cases c)]
  rw [me]
  refine ⟨?_, ?_, fun f hf => ?_, fun v hv => ?_, fun _ _ => rfl, fun _ => rfl⟩
  · rw [Warp.split_wake, if_pos rfl]; rfl
  · rw [Warp.split_wake, if_pos rfl]; rfl
  · rw [Warp.split_wake, if_neg hf]
  · rw [State.warp_modWarp, if_neg hv]

/-! ### The waits for a gang (R126) -/

/-- Some waiting entries have become READY, and no other warp and no memory has changed. -/
structure Freed (s t : State) (l : List (Nat × Nat)) : Prop where
  awake : ∀ q ∈ l, ∃ n, t.warp q.1 = (s.warp q.1).setSplit q.2 (((s.warp q.1).split q.2).wake n)
  others : ∀ v, v ∉ l.map Prod.fst → t.warp v = s.warp v
  memory : sameMemory s t

/-- An entry of a warp outside a gang is released from its wait. -/
theorem Freed.freeGangWait (s : State) (w e : Nat) (alone : (s.warp w).gang = 0) (runs : (s.warp w).run < 8)
    (waits : ((s.warp w).split e).state = .gangWait) : Freed s (s.freeGangWait w e) [(w, e)] := by
  have free : s.freeGangWait w e = s.modWarp w fun x => x.setSplit e ((x.split e).wake s.serial) := by
    have woken : ∀ f : Warp → Warp, f (s.warp w) = (s.warp w).setSplit e (((s.warp w).split e).wake s.serial) →
        (s.modWarp w f).partGang w = s.modWarp w fun x => x.setSplit e ((x.split e).wake s.serial) := fun f hf => by
      unfold State.modWarp
      rw [hf]
      unfold State.partGang
      dsimp only
      rw [if_pos]
      have self := State.warp_modWarp s w (fun _ => (s.warp w).setSplit e (((s.warp w).split e).wake s.serial)) w
      rw [if_pos rfl] at self
      exact (congrArg Warp.gang self).trans alone
    unfold State.freeGangWait
    refine woken _ ?_
    dsimp only
    rw [if_neg (by rw [waits]; exact fun c => by cases c), Warp.resume_wake _ _ runs (by rw [waits]; exact fun c => by cases c)]
  rw [free]
  refine ⟨fun q hq => ⟨s.serial, ?_⟩, fun v hv => ?_, fun _ _ => rfl, fun _ => rfl⟩
  · obtain rfl := List.mem_singleton.mp hq
    rw [State.warp_modWarp, if_pos rfl]
  · rw [State.warp_modWarp, if_neg fun c => hv (by simp [c])]

/-- Each of several warps is released from its wait. -/
theorem Freed.freeAll (l : List (Nat × Nat)) (s : State) (apart : (l.map Prod.fst).Nodup)
    (waits : ∀ q ∈ l, (s.warp q.1).gang = 0 ∧ (s.warp q.1).run < 8 ∧ ((s.warp q.1).split q.2).state = .gangWait) :
    Freed s (l.foldl (fun s q => s.freeGangWait q.1 q.2) s) l := by
  induction l generalizing s with
  | nil => exact ⟨fun _ hq => absurd hq List.not_mem_nil, fun _ _ => rfl, sameMemory_refl s⟩
  | cons q l ih =>
    rw [List.map_cons, List.nodup_cons] at apart
    obtain ⟨alone, runs, waiting⟩ := waits q List.mem_cons_self
    have one := Freed.freeGangWait s q.1 q.2 alone runs waiting
    have other : ∀ p ∈ l, p.1 ≠ q.1 := fun p hp c => apart.1 (c ▸ List.mem_map_of_mem hp)
    have kept : ∀ p ∈ l, (s.freeGangWait q.1 q.2).warp p.1 = s.warp p.1 := fun p hp => one.others p.1 (by simpa using other p hp)
    have rest := ih (s.freeGangWait q.1 q.2) apart.2 fun p hp => by
      rw [kept p hp]
      exact waits p (List.mem_cons_of_mem _ hp)
    rw [List.foldl_cons]
    refine ⟨fun p hp => ?_, fun v hv => ?_, sameMemory_trans one.memory rest.memory⟩
    · rcases List.mem_cons.mp hp with rfl | hp
      · rw [rest.others p.1 apart.1]
        exact one.awake p (List.mem_singleton.mpr rfl)
      · rw [← kept p hp]
        exact rest.awake p hp
    · rw [List.map_cons, List.mem_cons, not_or] at hv
      exact (rest.others v hv.2).trans (one.others v (by simpa using hv.1))

/-- Each waiting warp is listed with one entry. -/
theorem gangWaiters_fst_nodup {s : State} {g : Nat} {id : BitVec 12} {n : Word} {same : Bool} (h : (s.gangWaiters g id n same).Nodup) :
    ((s.gangWaiters g id n same).map Prod.fst).Nodup := by
  refine List.Nodup.map_on (fun p hp q hq eq => ?_) h
  have entry : ∀ p ∈ s.gangWaiters g id n same, (s.warp p.1).gangWaiter id (if same then some n else none) = some p.2 := by
    intro p hp
    obtain ⟨w, -, hw⟩ := List.mem_filterMap.mp hp
    dsimp only at hw
    split at hw
    · obtain ⟨e, he, rfl⟩ := Option.map_eq_some_iff.mp hw
      exact he
    · cases hw
  have one := entry p hp
  rw [eq, entry q hq] at one
  exact Prod.ext eq (Option.some.inj one).symm

theorem keepsClaims_regangTimeoutExpiry (w e : Nat) : KeepsClaims warpClaims (.regangTimeoutExpiry w e) := by
  rintro s _ ⟨⟩ ⟨state, -, nodup, waits⟩
  refine ⟨s.expireRegang w e, rfl, ?_⟩
  have code : (s.warp w).codeOf e = 5 := by
    unfold Warp.codeOf
    rw [if_neg (by rw [state]; exact fun c => by cases c), state]
    rfl
  have freed := Freed.freeAll _ s (gangWaiters_fst_nodup nodup) waits
  dsimp only
  unfold State.expireRegang
  dsimp only
  rw [if_pos code]
  refine ⟨fun q hq => ?_, freed.others, freed.memory⟩
  obtain ⟨n, woken⟩ := freed.awake q hq
  rw [woken, Warp.split_wake, if_pos rfl]
  exact ⟨rfl, rfl⟩

end Sys2Proof.Machine
end


-- ==== Sys2Proof/Proofs/EngineHalt.lean ====
section
/-! STATEMENT PROOFS. A write of DBGCTL stops or starts engines, and writes no other context's register (R264, R267). -/

namespace Sys2Proof.Machine

open Sys2Proof.Safety

/-- DBGCTL of every context. -/
def State.dbgctls (s : State) (c : Nat) : BitVec 4 := (s.ctx c).dbgctl

theorem State.dbgctls_of_ctxs {s t : State} (h : t.ctxs = s.ctxs) : t.dbgctls = s.dbgctls := by
  funext c
  unfold State.dbgctls State.ctx
  rw [h]

section
variable (s : State)

theorem State.dbgctls_modCtx (c : Nat) (f : Ctx → Ctx) (hf : (f (s.ctx c)).dbgctl = (s.ctx c).dbgctl) : (s.modCtx c f).dbgctls = s.dbgctls := by
  funext d
  unfold State.dbgctls
  rw [State.ctx_modCtx]
  split
  · rename_i same; rw [same, hf]
  · rfl

theorem State.dbgctls_countCore (ctx core id n : Nat) : (s.countCore ctx core id n).dbgctls = s.dbgctls :=
  s.dbgctls_modCtx ctx _ rfl

/-! ### The matrix engines (R235, R264) -/

theorem State.ctxs_kStep (core : Nat) (m : Mma) (r c : Nat) : (s.kStep core m r c).ctxs = s.ctxs := rfl

theorem State.ctxs_modCore (core : Nat) (f : Core → Core) : (s.modCore core f).ctxs = s.ctxs := rfl

theorem State.ctxs_addWork (core : Nat) (x : PowerSample) : (s.addWork core x).ctxs = s.ctxs := rfl

theorem State.ctxs_finishElem (core id r c k fuel : Nat) : (s.finishElem core id r c k fuel).ctxs = s.ctxs := by
  induction fuel generalizing s with
  | zero => rfl
  | succ fuel ih =>
    unfold State.finishElem
    split
    · rfl
    · split
      · exact (ih _).trans (s.ctxs_kStep _ _ _ _)
      · rfl

theorem State.ctxs_finishMma (core : Nat) (m : Mma) (k : Nat) : (s.finishMma core m k).ctxs = s.ctxs :=
  foldl_keeps State.ctxs _ (fun t _ => foldl_keeps State.ctxs _ (fun u _ => u.ctxs_finishElem _ _ _ _ _ _) _ t) _ s

theorem State.ctxs_setProg (core : Nat) (m : Mma) (k : Nat) (held : Bool) : (s.setProg core m k held).ctxs = s.ctxs := by
  unfold State.setProg
  refine foldl_keeps State.ctxs _ (fun t _ => ?_) _ s
  rfl

theorem State.ctxs_checkRetire (g : Nat) : (s.checkRetire g).ctxs = s.ctxs := by
  unfold State.checkRetire
  split <;> rfl

theorem State.ctxs_startMmas (core : Nat) : (s.startMmas core).ctxs = s.ctxs := by
  unfold State.startMmas
  refine foldl_keeps (fun r : State × Bool => r.1.ctxs) _ (fun r m => ?_) _ (s, true)
  split
  · rfl
  · split <;> rfl

/-- The elements of an MMA and its counters go on, and no context changes. -/
theorem State.ctxs_ran (core : Nat) (m : Mma) (k n : Nat) (held : Bool) : ((s.finishMma core m k).setProg core m n held).ctxs = s.ctxs :=
  (State.ctxs_setProg _ core m n held).trans (s.ctxs_finishMma core m k)

theorem State.dbgctls_retireMma (core : Nat) (m : Mma) : (s.retireMma core m).dbgctls = s.dbgctls := by
  have ran := State.dbgctls_of_ctxs (s.ctxs_ran core m 128 0 false)
  have left : ∀ f : Core → Core, (((s.finishMma core m 128).setProg core m 0 false).modCore core f).dbgctls = s.dbgctls :=
    fun f => (State.dbgctls_of_ctxs rfl).trans ran
  unfold State.retireMma
  extract_lets s1 s2
  have told : s2.dbgctls = s.dbgctls := (State.dbgctls_of_ctxs (t := s2) (s := s1) rfl).trans (left _)
  clear_value s2
  refine (State.dbgctls_of_ctxs (State.ctxs_checkRetire _ _)).trans (Eq.trans ?_ told)
  exact (State.dbgctls_of_ctxs (State.ctxs_addWork _ _ _)).trans (State.dbgctls_countCore _ _ _ _ _)

theorem State.dbgctls_stopMmas (g : Nat) : (s.stopMmas g).dbgctls = s.dbgctls := by
  unfold State.stopMmas
  refine (State.dbgctls_of_ctxs (State.ctxs_startMmas _ _)).trans (foldl_keeps State.dbgctls _ (fun t m => ?_) _ s)
  dsimp only
  generalize hu : t.cancel (fun e => e == .mmaComplete (s.wg g).core m.id) = u
  have cancelled : u.dbgctls = t.dbgctls := by rw [← hu]; rfl
  refine Eq.trans ?_ cancelled
  split
  · exact u.dbgctls_retireMma _ m
  · refine (State.dbgctls_of_ctxs (State.ctxs_addWork _ _ _)).trans ((State.dbgctls_countCore _ _ _ _ _).trans (State.dbgctls_of_ctxs ?_))
    exact (State.ctxs_modCore _ _ _).trans (u.ctxs_ran _ m _ _ true)

/-! ### The engines of a workgroup go on (R264) -/

theorem State.ctxs_kick (g q : Nat) : (s.kick g q).ctxs = s.ctxs := by
  unfold State.kick
  split
  · split <;> rfl
  · rfl

theorem State.ctxs_engGo (g : Nat) : (s.engGo g).ctxs = s.ctxs := by
  unfold State.engGo
  split
  · rfl
  · refine (foldl_keeps State.ctxs _ (fun t q => t.ctxs_kick g q) _ _).trans (foldl_keeps State.ctxs _ (fun t _ => ?_) _ _)
    rfl

/-- What a write of DBGCTL does beside the write leaves DBGCTL of every context as it is. -/
theorem State.dbgctls_writeDbgctl (ctx : Nat) (v : Word) :
    (s.writeDbgctl ctx v).dbgctls = (s.modCtx ctx fun c => { c with dbgctl := v.setWidth 4 }).dbgctls := by
  unfold State.writeDbgctl
  extract_lets s1 halted
  split
  · rfl
  · split
    · refine foldl_keeps State.dbgctls _ (fun t g => ?_) halted s1
      exact (State.dbgctls_stopMmas _ g).trans (State.dbgctls_of_ctxs rfl)
    · exact State.dbgctls_of_ctxs (foldl_keeps State.ctxs _ (fun t g => t.ctxs_engGo g) _ s1)
end

theorem keepsClaims_dbgctlWrite (c : Nat) (v : Word) : KeepsClaims warpClaims (.dbgctlWrite c v) := by
  rintro s _ ⟨⟩ -
  refine ⟨s.writeDbgctl c v, rfl, ?_⟩
  have kept : ∀ d, ((s.writeDbgctl c v).ctx d).dbgctl = ((s.modCtx c fun x => { x with dbgctl := v.setWidth 4 }).ctx d).dbgctl :=
    congrFun (s.dbgctls_writeDbgctl c v)
  generalize s.writeDbgctl c v = t at kept
  dsimp only
  refine ⟨?_, fun d hd => ?_⟩
  · rw [kept, State.ctx_modCtx, if_pos rfl]
  · rw [kept, State.ctx_modCtx, if_neg hd]

end Sys2Proof.Machine
end


-- ==== Sys2Proof/Proofs/RegisterWrites.lean ====
section
/-! STATEMENT PROOFS. A write of a control register reaches the warp, the context or the device that holds it, and no more (R50, R52,
R137). -/

namespace Sys2Proof.Machine

open Sys2Proof.Safety

/-- The mode that a write of TRAPMODE leaves, as R137 tells it. -/
theorem cleanMode_setWidth (v : Word) :
    cleanMode (v.setWidth 11) = if v.toNat / 32 % 8 ≥ 5 then BitVec.setWidth 11 v &&& 0x71F#11 else BitVec.setWidth 11 v := by
  have code : (BitVec.setWidth 11 v >>> 5).toNat % 8 = v.toNat / 32 % 8 := by
    rw [BitVec.toNat_ushiftRight, BitVec.toNat_setWidth, Nat.shiftRight_eq_div_pow]
    omega
  unfold cleanMode
  rw [code]
  rfl

section
variable {s : State} {w n : Nat} {v : Word}

/-- A number that names no register of its view writes nothing. -/
theorem State.writeReg_none (h : viewHolds (n / 1024) (n % 1024) = false) : s.writeReg w n v = s := by
  unfold State.writeReg
  dsimp only
  rw [h]
  rfl

section
variable (h : viewHolds (n / 1024) (n % 1024) = true)
include h

/-- The registers of a warp. -/
theorem State.writeReg_warp (low : n % 1024 < 0x040) : s.writeReg w n v = s.writeWarpReg w (n / 1024) (n % 1024) v := by
  unfold State.writeReg
  dsimp only
  rw [h, if_neg (by decide), if_pos low]

/-- The registers of a context. -/
theorem State.writeReg_ctx (from' : 0x040 ≤ n % 1024) (group : n % 1024 < 0x070 ∨ (0x0B0 ≤ n % 1024 ∧ n % 1024 < 0x0C0)) :
    s.writeReg w n v = s.writeCtxReg (s.ctxOf w) (n / 1024) (n % 1024) v := by
  unfold State.writeReg
  dsimp only
  rw [h, if_neg (by decide), if_neg (by omega), if_pos group]

/-- A trap register of the warp takes the value, and no more. -/
theorem State.writeReg_trap {f : TrapRegs → TrapRegs} (hf : trapRegister (n % 1024) v = some f) :
    s.writeReg w n v = s.modWarp w fun x => { x with trap := f x.trap } := by
  have low : n % 1024 < 0x040 := by
    unfold trapRegister at hf
    split at hf
    · omega
    split at hf
    · omega
    split at hf
    · omega
    split at hf
    · omega
    · cases hf
  rw [State.writeReg_warp h low]
  generalize n % 1024 = r at hf
  generalize n / 1024 = view
  unfold trapRegister at hf
  unfold State.writeWarpReg
  extract_lets trap
  split at hf
  · rename_i hr; subst hr; cases hf; rfl
  split at hf
  · rename_i hr; subst hr; cases hf; rfl
  split at hf
  · rename_i hr
    cases hf
    rw [if_neg (by omega), if_neg (by omega), if_neg (by omega), if_neg (by omega), if_neg (by omega), if_pos hr]
  split at hf
  · rename_i hr
    subst hr
    cases hf
    rw [← cleanMode_setWidth]
    rfl
  · cases hf
end
end

/-- A table of cases, one by one. -/
theorem of_ite_some {α : Type} {p : Prop} [Decidable p] {a f : α} {o : Option α} (P : α → Prop) (here : p → P a) (later : o = some f → P f) :
    (if p then some a else o) = some f → P f := by
  split
  · rintro ⟨⟩
    exact here ‹_›
  · exact later

/-! ### The registers of a context -/

/-- A context is written, and no other context, no warp and no memory. -/
structure CtxWritten (c : Nat) (f : Ctx → Ctx) (s t : State) : Prop where
  self : t.ctx c = f (s.ctx c)
  others : ∀ d, d ≠ c → t.ctx d = s.ctx d
  warps : t.warps = s.warps
  memory : sameMemory s t

theorem CtxWritten.of_modCtx (s : State) (c : Nat) (f : Ctx → Ctx) : CtxWritten c f s (s.modCtx c f) where
  self := by rw [State.ctx_modCtx, if_pos rfl]
  others d hd := by rw [State.ctx_modCtx, if_neg hd]
  warps := rfl
  memory := sameMemory_modCtx s c f

theorem CtxWritten.of_unchanged {s : State} {c : Nat} {f : Ctx → Ctx} (h : f (s.ctx c) = s.ctx c) : CtxWritten c f s s :=
  ⟨h.symm, fun _ _ => rfl, rfl, sameMemory_refl s⟩

/-- The numbers of the registers of a context: two stand among those of a warp. -/
theorem ctxRegister_number {time w view r : Nat} {v : Word} {f : Ctx → Ctx} :
    ctxRegister time w view r v = some f → r = 0x010 ∨ r = 0x020 ∨ 0x040 ≤ r ∧ (r < 0x070 ∨ 0x0B0 ≤ r ∧ r < 0x0C0) := by
  unfold ctxRegister
  iterate 16 refine of_ite_some (fun _ => _) (fun hr => by omega) ?_
  exact nofun

theorem State.writeCtxReg_eq {time w view r : Nat} {v : Word} {f : Ctx → Ctx} (high : 0x040 ≤ r) (s : State) (c : Nat) :
    ctxRegister time w view r v = some f → s.writeCtxReg c view r v = s.modCtx c f := by
  unfold ctxRegister
  rw [if_neg (by omega), if_neg (by omega)]
  iterate 14 refine of_ite_some (fun f => s.writeCtxReg c view r v = s.modCtx c f) (fun hr => by rw [hr]; rfl) ?_
  exact nofun

/-- A register of a context takes the value, and no more. -/
theorem ctxWritten_writeReg {s : State} {w n : Nat} {v : Word} {f : Ctx → Ctx} (h : viewHolds (n / 1024) (n % 1024) = true)
    (hf : ctxRegister s.time w (n / 1024) (n % 1024) v = some f) : CtxWritten (s.ctxOf w) f s (s.writeReg w n v) := by
  rcases ctxRegister_number hf with hr | hr | ⟨high, group⟩
  · rw [State.writeReg_warp h (by omega), hr]
    rw [hr] at hf
    cases hf
    exact CtxWritten.of_modCtx s _ _
  · rw [State.writeReg_warp h (by omega), hr]
    rw [hr] at hf
    cases hf
    show CtxWritten _ _ s (if n / 1024 = 0 then s else s.modCtx (s.ctxOf w) fun c => { c with tvec := v })
    split
    · exact CtxWritten.of_unchanged rfl
    · exact CtxWritten.of_modCtx s _ _
  · rw [State.writeReg_ctx h high group, State.writeCtxReg_eq high s _ hf]
    exact CtxWritten.of_modCtx s _ _

/-! ### The registers of the device -/

/-- No more than the selecting registers of the device differ. -/
def Selects (s t : State) : Prop :=
  t = { s with qsel := t.qsel, qbase := t.qbase, qpriv0 := t.qpriv0, qpriv1 := t.qpriv1, portsel := t.portsel, peersel := t.peersel, pwrsel := t.pwrsel,
               pwrcap := t.pwrcap, ctxsel := t.ctxsel, ringsel := t.ringsel, ptbase := t.ptbase }

section
variable {s t : State} (h : Selects s t)
include h

theorem Selects.warp (w : Nat) : t.warp w = s.warp w := by
  unfold Selects at h
  rw [h]
  rfl

theorem Selects.ctx (c : Nat) : t.ctx c = s.ctx c := by
  unfold Selects at h
  rw [h]
  rfl

theorem Selects.memory : sameMemory s t := by
  unfold Selects at h
  rw [h]
  exact ⟨fun _ _ => rfl, fun _ => rfl⟩
end

theorem deviceRegister_number {r : Nat} {v : Word} {f : State → State} :
    deviceRegister r v = some f → 0x090 ≤ r ∧ (r < 0x0B0 ∨ 0x0C0 ≤ r) := by
  unfold deviceRegister
  dsimp only
  iterate 13 refine of_ite_some (fun _ => _) (fun hr => by omega) ?_
  exact nofun

theorem selects_deviceRegister {r : Nat} {v : Word} {f : State → State} (s : State) : deviceRegister r v = some f → Selects s (f s) := by
  unfold deviceRegister
  dsimp only
  iterate 13 refine of_ite_some (fun f : State → State => Selects s (f s)) (fun _ => rfl) ?_
  exact nofun

/-- A selecting register of the device takes the value, and no more. -/
theorem State.writeReg_device {s : State} {w n : Nat} {v : Word} {f : State → State} (h : viewHolds (n / 1024) (n % 1024) = true)
    (hf : deviceRegister (n % 1024) v = some f) : s.writeReg w n v = f s := by
  have number := deviceRegister_number hf
  unfold State.writeReg
  dsimp only
  rw [h, if_neg (by decide), if_neg (by omega), if_neg (by omega), if_neg (by omega)]
  generalize n % 1024 = r at hf
  generalize n / 1024 = view
  revert hf
  unfold deviceRegister
  dsimp only
  iterate 13 refine of_ite_some (fun f : State → State => _ = f s) (fun hr => by rw [hr]; rfl) ?_
  exact nofun

/-! ### The write -/

theorem keepsClaims_controlRegisterWrite (w : Nat) (n : BitVec 12) (v : Word) : KeepsClaims warpClaims (.controlRegisterWrite w n v) := by
  rintro s _ ⟨⟩ named
  refine ⟨s.writeReg w n.toNat v, rfl, ?_⟩
  dsimp only at named ⊢
  cases hv : viewHolds (n.toNat / 1024) (n.toNat % 1024) with
  | false =>
    rw [State.writeReg_none hv]
    exact ⟨sameMemory_refl s, fun _ _ => rfl, fun _ _ => rfl, rfl, rfl⟩
  | true =>
    cases ht : trapRegister (n.toNat % 1024) v with
    | some f =>
      rw [State.writeReg_trap hv ht]
      refine ⟨sameMemory_modWarp s w _, fun u hu => ?_, fun _ _ => rfl, ?_, rfl⟩
      · rw [State.warp_modWarp, if_neg hu]
      · rw [State.warp_modWarp, if_pos rfl]
    | none =>
      cases hc : ctxRegister s.time w (n.toNat / 1024) (n.toNat % 1024) v with
      | some f =>
        have written := ctxWritten_writeReg hv hc
        have warp : ∀ u, (s.writeReg w n.toNat v).warp u = s.warp u := fun u => by unfold State.warp; rw [written.warps]
        exact ⟨written.memory, fun u _ => warp u, written.others, warp w, written.self⟩
      | none =>
        cases hd : deviceRegister (n.toNat % 1024) v with
        | some f =>
          have selects := selects_deviceRegister s hd
          rw [State.writeReg_device hv hd]
          exact ⟨selects.memory, fun u _ => selects.warp u, fun c _ => selects.ctx c, rfl⟩
        | none =>
          rw [hv, ht, hc, hd] at named
          simp at named

end Sys2Proof.Machine
end


-- ==== Sys2Proof/Proofs/WarpEvents.lean ====
section
/-! STATEMENT PROOFS. The timed ends of a warp's own waits, form by form. -/

namespace Sys2Proof.Machine

open Sys2Proof.Safety

/-- Settles O21: each form of the family keeps its claim. -/
theorem warpEvents : Obligations.WarpEvents := by
  unfold Obligations.WarpEvents
  intro i
  change KeepsClaims warpClaims i
  cases i with
  | quotaTransferComplete w => exact keepsClaims_quotaTransferComplete w
  | longLatencyWrite w id th => exact keepsClaims_longLatencyWrite w id th
  | seedWrite w v => exact keepsClaims_seedWrite w v
  | joinTimeoutExpiry w e => exact keepsClaims_joinTimeoutExpiry w e
  | regangTimeoutExpiry w e => exact keepsClaims_regangTimeoutExpiry w e
  | dbgctlWrite c v => exact keepsClaims_dbgctlWrite c v
  | controlRegisterWrite w n v => exact keepsClaims_controlRegisterWrite w n v
  | _ => rintro s p ⟨⟩

end Sys2Proof.Machine
end

