-- ==== Sys2Proof/Proofs/IntegerMatrixStep.lean ====
section
/-! STATEMENT PROOFS. One K step of an integer MMA: its products are exact integers, and it writes one element of the accumulators. -/

namespace Sys2Proof.Machine

open Sys2Proof.Safety

/-! ### Exact integers (R80) -/

/-- A magnitude with exponent 0, in units of 1. -/
theorem Val.units_fin (neg : Bool) (m : Nat) : (Val.fin neg m 0).units 0 = if neg then -(m : Int) else m := by
  cases neg <;> simp [Val.units]

/-- In units of 1 an exact integer is that integer. -/
theorem Val.units_ofInt (x : Int) : (Val.ofInt x).units 0 = x := by
  rw [Val.ofInt, Val.units_fin]
  by_cases negative : x < 0 <;> simp only [negative, decide_true, decide_false, if_true, Bool.false_eq_true, if_false] <;> omega

/-- The product of two exact integers is exact: a zero factor gives a zero, and two others multiply magnitudes and signs. -/
theorem Val.units_mul_ofInt (x y : Int) : ((Val.ofInt x).mul (Val.ofInt y)).units 0 = x * y := by
  unfold Val.ofInt Val.mul
  by_cases zero : x.natAbs = 0 ∨ y.natAbs = 0
  · have product : x * y = 0 := by simpa using zero
    simp only [if_pos zero, Val.zero, Val.units_fin, product]
    split <;> rfl
  · simp only [if_neg zero, Int.add_zero, Val.units_fin, Nat.cast_mul]
    rcases lt_or_ge x 0 with hx | hx <;> rcases lt_or_ge y 0 with hy | hy <;>
      simp [hx, hy, hx.not_gt, hy.not_gt, abs_of_neg, abs_of_nonneg]

/-- The exact value of an element of an I8 tile (R213). -/
theorem State.tileVal_i8 (s : State) {g n : Nat} (r c : Nat) (tag : (s.tile g n).tag = 11) :
    s.tileVal g n r c = .ofInt (toSigned 8 (s.tileElem g n r c)) := by
  simp only [State.tileVal, tag]
  rfl

/-! ### One element of the accumulators -/

/-- The keys of elements inside the accumulator tiles are distinct. -/
theorem accKey_inj {p r c p' r' c' : Nat} (hr : r < 96) (hc : c < 192) (hr' : r' < 96) (hc' : c' < 192) (h : accKey p r c = accKey p' r' c') :
    p = p' ∧ r = r' ∧ c = c' := by
  unfold accKey at h
  have tile : p = p' := by omega
  have row : r = r' := by omega
  exact ⟨tile, row, by omega⟩

/-- What a K step of an I8 MMA leaves in its element. -/
def State.i8Step (s : State) (core : Nat) (m : Mma) (r c : Nat) : Word :=
  let a := s.mmaArea m
  let k := m.done (accKey a.1 r c)
  let prod := fun (j : Nat) => toSigned 8 (s.tileElem m.wg m.a r (k * kPer 11 + j)) * toSigned 8 (s.tileElem m.wg m.b (c - a.2.1) (k * kPer 11 + j))
  (if m.zero = true ∧ k = 0 then 0 else s.accAt core a.1 r c) + BitVec.ofInt 32 ((List.range (kPer 11)).map prod).sum

/-- The value a K step computes for two I8 tiles: the products are exact, and their sum wraps once. -/
theorem State.kStep_i8 (s : State) (core : Nat) (m : Mma) (r c : Nat) (a : (s.tile m.wg m.a).tag = 11) (b : (s.tile m.wg m.b).tag = 11) :
    s.kStep core m r c = (s.setAcc core (s.mmaArea m).1 r c (s.i8Step core m r c)).modCore core fun h => { h with
      mmas := h.mmas.map fun x => if x.id = m.id then { x with
        ahead := Store.set 0 x.ahead (accKey (s.mmaArea m).1 r c) (m.done (accKey (s.mmaArea m).1 r c) + 1) } else x } := by
  have sum : ∀ l : List Val, l.foldl (fun t p => t + p.units 0) 0 = (l.map (Val.units 0)).sum := fun l => by
    rw [List.sum_eq_foldl, List.foldl_map]
  unfold State.kStep
  simp only [a, if_true, s.tileVal_i8 _ _ a, s.tileVal_i8 _ _ b, sum, List.map_map, Function.comp_def, Val.units_mul_ofInt]
  congr 2
  unfold State.i8Step
  by_cases fresh : m.zero = true ∧ m.done (accKey (s.mmaArea m).1 r c) = 0 <;> simp [fresh]

/-- A K step of an I8 MMA writes its own element. -/
theorem State.accAt_kStep_i8 (s : State) (core : Nat) (m : Mma) (r c p r' c' : Nat) (a : (s.tile m.wg m.a).tag = 11)
    (b : (s.tile m.wg m.b).tag = 11) : (s.kStep core m r c).accAt core p r' c'
      = if accKey p r' c' = accKey (s.mmaArea m).1 r c then s.i8Step core m r c else s.accAt core p r' c' := by
  rw [s.kStep_i8 core m r c a b]
  simp only [State.accAt, State.setAcc, State.core_modCore, if_true, Store.get_set]

/-- Settles O59: the step is one write of the element, whose key no other element of the four tiles has. -/
theorem integerMatrixStep : Obligations.IntegerMatrixStep := by
  intro s n m r c area k per prod a b _ hr hc
  refine ⟨?_, fun p r' c' _ hr' hc' other => ?_, fun _ _ => rfl, fun _ => rfl⟩
  · rw [s.accAt_kStep_i8 n m r c _ _ _ a b, if_pos rfl]
    rfl
  · rw [s.accAt_kStep_i8 n m r c _ _ _ a b, if_neg fun h => other (accKey_inj hr' hc' hr hc h)]

end Sys2Proof.Machine
end

