-- ==== Sys2Proof/Proofs/CollectiveSide.lean ====
section
/-! SUPPORT. What a collective finds again after its accesses to memory and its writes into a tile: the entries behind the head of its
queue, where its workgroup lies, the peers that are lost, the handles, and the work that tiles await (R224, R227, R242). -/

namespace Sys2Proof.Machine

/-! ### The side of the machine that a collective's end reads -/

/-- What the end of a collective reads, apart from memory. -/
structure CollSide where
  /-- The entries behind the head of each engine queue. -/
  behind : Nat → Nat → List EngineEntry
  /-- The core, the tile window and the launch of each workgroup. -/
  place : Nat → Nat × Nat × Nat
  launches : Store Launch
  lost : Store Bool
  handles : Nat → Store Handle
  /-- The copies and collectives that each tile of each core awaits. -/
  work : Nat → Nat → Nat

/-- The work that the tiles of a core await. -/
def Core.work (k : Core) (n : Nat) : Nat := (Store.get {} k.tiles n).work

def State.collSide (s : State) : CollSide where
  behind g q := (s.engine g q).tail
  place g := ((s.wg g).core, (s.wg g).tbase, (s.wg g).launch)
  launches := s.launches
  lost := s.lost
  handles c := (s.ctx c).handles
  work c := (s.core c).work

theorem State.collSide_foldl {β : Type} (f : State → β → State) (h : ∀ s b, (f s b).collSide = s.collSide) (l : List β) (s : State) :
    (l.foldl f s).collSide = s.collSide :=
  foldl_keeps State.collSide f h l s

theorem State.collSide_of_besideL2 {s t : State} (h : t.besideL2 = s.besideL2) : t.collSide = s.collSide :=
  show t.besideL2.collSide = s.besideL2.collSide from congrArg State.collSide h

section
variable {s t : State} (h : t.collSide = s.collSide) (g : Nat)
include h

theorem core_of_collSide : (t.wg g).core = (s.wg g).core := congrArg (fun x : CollSide => (x.place g).1) h
theorem wgCtx_of_collSide : t.wgCtx g = s.wgCtx g := by
  have launch : (t.wg g).launch = (s.wg g).launch := congrArg (fun x : CollSide => (x.place g).2.2) h
  have launches : t.launches = s.launches := congrArg CollSide.launches h
  simp only [State.wgCtx, State.launch, launch, launches]
theorem lost_of_collSide : t.lost = s.lost := congrArg CollSide.lost h
theorem behind_of_collSide (q : Nat) : (t.engine g q).tail = (s.engine g q).tail := congrArg (fun x : CollSide => x.behind g q) h
theorem handles_of_collSide (c : Nat) : (t.ctx c).handles = (s.ctx c).handles := congrArg (fun x : CollSide => x.handles c) h
theorem work_of_collSide (n : Nat) : (t.tile g n).work = (s.tile g n).work := by
  have base : (t.wg g).tbase = (s.wg g).tbase := congrArg (fun x : CollSide => (x.place g).2.1) h
  unfold State.tile
  rw [core_of_collSide h, base]
  exact congrArg (fun x : CollSide => x.work (s.wg g).core ((s.wg g).tbase + n)) h
end

/-! ### Parts of the state -/

section
variable (s : State)

@[simp] theorem State.collSide_soon (e : Instr) : (s.soon e).collSide = s.collSide := rfl
@[simp] theorem State.collSide_fresh : s.fresh.2.collSide = s.collSide := rfl
@[simp] theorem State.collSide_onBehalf (ctx : Nat) : (s.onBehalf ctx).collSide = s.collSide := rfl
@[simp] theorem State.collSide_addWork (core : Nat) (x : PowerSample) : (s.addWork core x).collSide = s.collSide := rfl
@[simp] theorem State.collSide_modCluster (c : Nat) (f : Cluster → Cluster) : (s.modCluster c f).collSide = s.collSide := rfl

theorem State.collSide_modCtx (c : Nat) (f : Ctx → Ctx) (hf : (f (s.ctx c)).handles = (s.ctx c).handles) :
    (s.modCtx c f).collSide = s.collSide := by
  have handles : ∀ k, ((s.modCtx c f).ctx k).handles = (s.ctx k).handles := fun k => by
    rw [State.ctx_modCtx]
    split
    · next here => rw [here, hf]
    · rfl
  exact congrArg (fun m => { s.collSide with handles := m }) (funext handles)

theorem State.collSide_modCore (c : Nat) (f : Core → Core) (hf : (f (s.core c)).work = (s.core c).work) :
    (s.modCore c f).collSide = s.collSide := by
  have work : ∀ k, ((s.modCore c f).core k).work = (s.core k).work := fun k => by
    rw [State.core_modCore]
    split
    · next here => rw [here, hf]
    · rfl
  exact congrArg (fun m => { s.collSide with work := m }) (funext work)

theorem State.collSide_modWg (g : Nat) (f : Workgroup → Workgroup)
    (place : ((f (s.wg g)).core, (f (s.wg g)).tbase, (f (s.wg g)).launch) = ((s.wg g).core, (s.wg g).tbase, (s.wg g).launch))
    (behind : ∀ q, (Store.get [] (f (s.wg g)).queues q).tail = (Store.get [] (s.wg g).queues q).tail) :
    (s.modWg g f).collSide = s.collSide := by
  have placed : ∀ k, (((s.modWg g f).wg k).core, ((s.modWg g f).wg k).tbase, ((s.modWg g f).wg k).launch)
      = ((s.wg k).core, (s.wg k).tbase, (s.wg k).launch) := fun k => by
    rw [State.wg_modWg]
    split
    · next here => rw [here, place]
    · rfl
  have follow : ∀ k q, ((s.modWg g f).engine k q).tail = (s.engine k q).tail := fun k q => by
    unfold State.engine
    rw [State.wg_modWg]
    split
    · next here => rw [here, behind]
    · rfl
  exact congrArg₂ (fun a b => { s.collSide with place := a, behind := b }) (funext placed) (funext fun k => funext (follow k))

@[simp] theorem State.collSide_countCore (ctx core id n : Nat) : (s.countCore ctx core id n).collSide = s.collSide := s.collSide_modCtx _ _ rfl

@[simp] theorem State.collSide_metLost (ctx peer : Nat) : (s.metLost ctx peer).collSide = s.collSide := s.collSide_modCtx _ _ rfl

@[simp] theorem State.collSide_countL2Core (old : State) (ctx core : Nat) : (s.countL2Core old ctx core).collSide = s.collSide := by
  unfold State.countL2Core
  dsimp only
  split
  · rfl
  · simp

/-- A change of a tile that leaves its outstanding work. -/
theorem State.collSide_modTile (g n : Nat) (f : Tile → Tile) (hf : ∀ t, (f t).work = t.work) : (s.modTile g n f).collSide = s.collSide := by
  refine s.collSide_modCore _ _ (funext fun k => ?_)
  simp only [Core.work, Store.get_set]
  split
  · next here => rw [here, hf]
  · rfl

/-- A change of the entry at the head of a queue. -/
@[simp] theorem State.collSide_modHead (g q : Nat) (f : EngineEntry → EngineEntry) : (s.modHead g q f).collSide = s.collSide := by
  refine s.collSide_modWg g _ rfl fun k => ?_
  rw [Store.get_set]
  split
  · next here => subst here; cases Store.get [] (s.wg g).queues k <;> rfl
  · rfl

/-! ### The home L2 and the L1s -/

@[simp] theorem State.collSide_l2Alloc (line hint : Nat) : (s.l2Alloc line hint).collSide = s.collSide :=
  State.collSide_of_besideL2 (s.besideL2_l2Alloc line hint)
@[simp] theorem State.collSide_l2WriteAs (pa : Nat) (bs : List Byte) (hint : Nat) : (s.l2WriteAs pa bs hint).collSide = s.collSide :=
  State.collSide_of_besideL2 (s.besideL2_l2WriteAs pa bs hint)
@[simp] theorem State.collSide_l2SetNum (pa n v : Nat) : (s.l2SetNum pa n v).collSide = s.collSide :=
  State.collSide_of_besideL2 (s.besideL2_l2SetNum pa n v)
@[simp] theorem State.collSide_l2Part (id pa : Nat) (bs : List Byte) (hint : Nat) : (s.l2Part id pa bs hint).collSide = s.collSide :=
  State.collSide_of_besideL2 (s.besideL2_l2Part id pa bs hint)

@[simp] theorem State.collSide_l1Purge (core line : Nat) : (s.l1Purge core line).collSide = s.collSide := by
  have written : ∀ l : List (Nat × L1Byte), (l.foldl (fun (s : State) e =>
      if e.2.dirty then s.l2WriteAs e.1 [e.2.val] (s.l1Hint core (e.1 / 128)) else s) s).collSide = s.collSide :=
    fun l => State.collSide_foldl _ (fun t e => by split <;> simp) l s
  unfold State.l1Purge State.l1Writeback
  dsimp only
  split
  · exact written _
  · exact written _

@[simp] theorem State.collSide_putRuns (ctx core : Nat) (ps : List PageAt) (xs : List (Nat × List Byte)) :
    (s.putRuns ctx core ps xs).collSide = s.collSide := by
  unfold State.putRuns
  dsimp only
  rw [State.collSide_countL2Core, State.collSide_foldl _ (fun t x => t.collSide_l2Part _ _ _ _),
    State.collSide_foldl _ (fun t l => t.collSide_l1Purge _ _), State.collSide_fresh]

/-! ### An engine's translations and reads (R232, R309) -/

theorem collSide_walk {s t : State} {ctx va : Nat} {k : Access} {engine : Bool} {peer : Option Nat} {e : Tlb}
    (h : s.walk ctx va k engine peer = .ok e t) : t.collSide = s.collSide := by
  have left := s.besideL2_walk ctx va k engine peer
  rw [h] at left
  exact State.collSide_of_besideL2 left

theorem collSide_clusterWalk {s t : State} {core ctx va : Nat} {k : Access} {engine : Bool} {e : Tlb}
    (h : s.clusterWalk core ctx va k engine = .ok e t) : t.collSide = s.collSide := by
  unfold State.clusterWalk at h
  dsimp only at h
  split at h
  · cases h; rfl
  · have counted : (if engine = true then s.countCore ctx core 0x103 1 else s).collSide = s.collSide := by split <;> simp
    split at h
    · next walked => cases h; exact (collSide_walk walked).trans counted
    · next other => exact absurd h (other _ _)

theorem collSide_engineWalk {s t : State} {core : Option Nat} {ctx va : Nat} {k : Access} {e : Tlb}
    (h : s.engineWalk core ctx va k = .ok e t) : t.collSide = s.collSide := by
  unfold State.engineWalk at h
  split at h
  · exact collSide_clusterWalk h
  · exact (collSide_walk h).trans (State.collSide_countCore _ _ _ _ _)

theorem collSide_reach {core : Option Nat} {ctx : Nat} {k : Access} {vas : List Nat} {s t : State} {ps qs : List PageAt}
    (h : s.reach core ctx k vas ps = .ok qs t) : t.collSide = s.collSide := by
  induction vas generalizing s ps with
  | nil => cases h; rfl
  | cons va rest ih =>
    unfold State.reach at h
    extract_lets peerBad at h
    clear_value peerBad
    split at h
    · cases h
    · split at h
      · cases h
      · split at h
        · refine (ih h).trans ?_
          split <;> simp
        · split at h
          · exact ih h
          · split at h
            · cases h
            · cases h
            · cases h
            · next walked => exact (ih h).trans (collSide_engineWalk walked)

@[simp] theorem State.collSide_touchLines (ctx core : Nat) (ps : List PageAt) (xs : List Span) :
    (s.touchLines ctx core ps xs).collSide = s.collSide := by
  unfold State.touchLines
  rw [State.collSide_countL2Core]
  refine State.collSide_foldl _ (fun t l => ?_) _ s
  rw [State.collSide_addWork]
  split <;> simp

theorem collSide_collGather {s t : State} {g q : Nat} {e : EngineEntry} {xs : List Span} {bs : List (List Byte)}
    (h : s.collGather g q e xs = .inl (some bs, t)) : t.collSide = s.collSide := by
  unfold State.collGather at h
  dsimp only at h
  split at h
  · cases h
  · cases h
  · next reached =>
    split at h
    · cases h
    · split at h
      · cases h
      · split at h
        · cases h
        · cases h
          exact (State.collSide_touchLines _ _ _ _ _).trans (collSide_reach reached)

/-! ### Requests to a peer (R410) -/

@[simp] theorem State.collSide_emit (x : Txn) : (s.emit x).collSide = s.collSide := by
  have beside : { (s.emit x).collSide with work := s.collSide.work } = s.collSide :=
    congrArg (fun u : State => { u.collSide with work := s.collSide.work }) (s.besideFabric_emit x)
  have cores : (s.emit x).cores = s.cores := congrArg Prod.fst (s.emit_keeps x)
  have work : (s.emit x).collSide.work = s.collSide.work := by
    simp only [State.collSide, State.core, cores]
  rw [← work] at beside
  exact beside

@[simp] theorem State.collSide_askPeer (core ctx peer off typ op aux len : Nat) (payload : List Byte) (link : RemoteLink) :
    (s.askPeer core ctx peer off typ op aux len payload link).collSide = s.collSide := by
  unfold State.askPeer State.request
  split
  · unfold State.holdLink
    dsimp only
    split
    · rw [State.collSide_modCore _ _ _ rfl, State.collSide_modCore _ _ _ rfl, State.collSide_fresh]
    · rw [State.collSide_modCore _ _ _ rfl, State.collSide_fresh]
  · split
    · rfl
    · unfold State.transmit
      dsimp only
      rw [State.collSide_emit]
      rfl

end

end Sys2Proof.Machine
end

