-- ==== Sys2Proof/Proofs/CollectiveEvent.lean ====
section
/-! STATEMENT PROOFS. A collective whose accesses all succeed: its writes into a tile, its end, and the SIGNAL update (R224, R244 to R246). -/

namespace Sys2Proof.Machine

open Sys2Proof.Safety

/-! ### Writes into a tile (R224, R236) -/

/-- What writes into a tile leave alone: what the end of a collective reads, and memory. -/
def State.besideTiles (s : State) : CollSide × (Nat → Byte) := (s.collSide, s.l2Read)

theorem collSide_of_besideTiles {s t : State} (h : t.besideTiles = s.besideTiles) : t.collSide = s.collSide := congrArg Prod.fst h
theorem l2Read_of_besideTiles {s t : State} (h : t.besideTiles = s.besideTiles) : t.l2Read = s.l2Read := congrArg Prod.snd h

theorem State.besideTiles_foldl {β : Type} (f : State → β → State) (h : ∀ s b, (f s b).besideTiles = s.besideTiles) (l : List β) (s : State) :
    (l.foldl f s).besideTiles = s.besideTiles :=
  foldl_keeps State.besideTiles f h l s

section
variable (s : State)

theorem State.besideTiles_modCore (c : Nat) (f : Core → Core) (hf : (f (s.core c)).work = (s.core c).work) :
    (s.modCore c f).besideTiles = s.besideTiles :=
  congrArg (·, s.l2Read) (s.collSide_modCore c f hf)

theorem State.besideTiles_modTile (g n : Nat) (f : Tile → Tile) (hf : ∀ t, (f t).work = t.work) :
    (s.modTile g n f).besideTiles = s.besideTiles :=
  congrArg (·, s.l2Read) (s.collSide_modTile g n f hf)

theorem State.besideTiles_scratch (g : Nat) (f : Workgroup → Store Byte) :
    (s.modWg g fun h => { h with scratch := f h }).besideTiles = s.besideTiles :=
  congrArg (·, s.l2Read) (s.collSide_modWg g _ rfl fun _ => rfl)

@[simp] theorem State.besideTiles_touchAcc (g p : Nat) : (s.touchAcc g p).besideTiles = s.besideTiles := by
  unfold State.touchAcc
  dsimp only
  split
  · rfl
  · exact s.besideTiles_modCore _ _ rfl

@[simp] theorem State.besideTiles_kStep (core : Nat) (m : Mma) (r c : Nat) : (s.kStep core m r c).besideTiles = s.besideTiles :=
  (State.besideTiles_modCore _ _ _ rfl).trans (s.besideTiles_modCore _ _ rfl)

theorem State.besideTiles_settle (core p r c fuel : Nat) : (s.settle core p r c fuel).besideTiles = s.besideTiles := by
  induction fuel generalizing s with
  | zero => rfl
  | succ fuel ih =>
    unfold State.settle
    split
    · rfl
    · dsimp only
      split
      · rw [ih, State.besideTiles_kStep]; rfl
      · rfl

@[simp] theorem State.besideTiles_settled (core p r c : Nat) : (s.settled core p r c).besideTiles = s.besideTiles := by
  unfold State.settled
  split
  · rfl
  · exact s.besideTiles_settle _ _ _ _ _

@[simp] theorem State.besideTiles_setElem (g n r c v : Nat) : (s.setElem g n r c v).besideTiles = s.besideTiles := by
  unfold State.setElem
  dsimp only
  split
  · exact s.besideTiles_scratch _ _
  · exact s.besideTiles_modCore _ _ rfl
  · exact s.besideTiles_modCore _ _ rfl

@[simp] theorem State.besideTiles_setBlock (g n r b v : Nat) : (s.setBlock g n r b v).besideTiles = s.besideTiles := by
  unfold State.setBlock
  dsimp only
  split
  · exact s.besideTiles_scratch _ _
  · exact s.besideTiles_modCore _ _ rfl

@[simp] theorem State.besideTiles_writeElem (g n r c v : Nat) : (s.writeElem g n r c v).besideTiles = s.besideTiles := by
  unfold State.writeElem
  dsimp only
  rw [State.besideTiles_setElem]
  split <;> simp

@[simp] theorem State.besideTiles_zeroTile (g n : Nat) : (s.zeroTile g n).besideTiles = s.besideTiles := by
  have elements : ∀ (k : Nat) (l : List Nat) (t : State),
      (l.foldl (fun t r => (List.range k).foldl (fun t c => t.writeElem g n r c 0) t) t).besideTiles = t.besideTiles :=
    fun k => State.besideTiles_foldl _ fun t r => State.besideTiles_foldl _ (fun u c => u.besideTiles_writeElem _ _ _ _ _) _ t
  have blocks : ∀ (k : Nat) (l : List Nat) (t : State),
      (l.foldl (fun t r => (List.range k).foldl (fun t b => t.setBlock g n r b 0) t) t).besideTiles = t.besideTiles :=
    fun k => State.besideTiles_foldl _ fun t r => State.besideTiles_foldl _ (fun u b => u.besideTiles_setBlock _ _ _ _ _) _ t
  unfold State.zeroTile
  dsimp only
  split
  · rw [blocks, elements]
  · rw [elements]

@[simp] theorem State.besideTiles_openFill (g n : Nat) : (s.openFill g n).besideTiles = s.besideTiles := by
  have opened : (s.openTile g n).besideTiles = s.besideTiles := by
    unfold State.openTile
    dsimp only
    split <;> simp
  unfold State.openFill
  dsimp only
  split
  · have begun := State.besideTiles_modTile ((s.openTile g n).zeroTile g n) g n (fun t => { t with fresh := false }) fun _ => rfl
    rw [begun, State.besideTiles_zeroTile, opened]
  · exact opened

/-! ### Results and residuals (R84, R245) -/

/-- Where no run of a collective leaves the device, its writes go to memory and then to its tile. -/
theorem State.besideTiles_writeColl (g q : Nat) (tile : Option Nat) (res : Nat × List Word) (ps : List PageAt)
    (runs : List (Nat × List Byte) × List (Nat × List Byte)) (here : (s.writeColl g q tile res ps runs).1 = []) :
    (s.writeColl g q tile res ps runs).2.besideTiles = (s.collSide, (s.putRuns (s.wgCtx g) (s.wg g).core ps (runs.1 ++ runs.2)).l2Read) := by
  have away : (s.putRuns (s.wgCtx g) (s.wg g).core ps (runs.1 ++ runs.2)).awayRuns ps runs.1 = [] := here
  have put : ((s.putRuns (s.wgCtx g) (s.wg g).core ps (runs.1 ++ runs.2)).modHead g q fun x => { x with stored := true, out := 0 }).besideTiles
      = (s.collSide, (s.putRuns (s.wgCtx g) (s.wg g).core ps (runs.1 ++ runs.2)).l2Read) := by
    refine Prod.ext ?_ rfl
    exact (State.collSide_modHead _ _ _ _).trans (s.collSide_putRuns _ _ _ _)
  unfold State.writeColl
  simp only [away, List.foldl_nil, List.length_nil]
  split
  · rw [State.besideTiles_foldl _ (fun t p => t.besideTiles_writeElem _ _ _ _ _), State.besideTiles_openFill, put]
  · exact put

/-! ### The end of a collective (R246) -/

theorem State.wgs_kick (g q : Nat) : (s.kick g q).wgs = s.wgs := by
  unfold State.kick
  split
  · split <;> rfl
  · rfl

@[simp] theorem State.besideTiles_kick (g q : Nat) : (s.kick g q).besideTiles = s.besideTiles := by
  unfold State.kick
  split
  · split <;> rfl
  · rfl

theorem State.wgs_checkRetire (g : Nat) : (s.checkRetire g).wgs = s.wgs := by
  unfold State.checkRetire; split <;> rfl

@[simp] theorem State.besideTiles_checkRetire (g : Nat) : (s.checkRetire g).besideTiles = s.besideTiles := by
  unfold State.checkRetire; split <;> rfl

theorem State.engine_popHead (g q : Nat) : (s.popHead g q).engine g q = (s.engine g q).tail := by
  have kicked : (s.popHead g q).wgs = (s.modEngine g q List.tail).wgs :=
    (State.wgs_checkRetire _ _).trans (foldl_keeps State.wgs _ (fun t k => t.wgs_kick g k) _ _)
  have popped : (s.popHead g q).engine g q = (s.modEngine g q List.tail).engine g q := by
    simp only [State.engine, State.wg, kicked]
  rw [popped]
  simp only [State.engine, State.modEngine, State.wg_modWg, if_true, Store.get_set]

theorem State.besideTiles_popHead (g q : Nat) : (s.popHead g q).besideTiles = (s.modEngine g q List.tail).besideTiles :=
  (State.besideTiles_checkRetire _ _).trans (State.besideTiles_foldl _ (fun t k => t.besideTiles_kick g k) _ _)

/-- Taking the head off a queue moves no handle. -/
theorem State.handles_popHead (g q c : Nat) : ((s.popHead g q).ctx c).handles = (s.ctx c).handles :=
  handles_of_collSide (collSide_of_besideTiles (s.besideTiles_popHead g q)) c

/-- It moves no tile. -/
theorem State.work_popHead (g q n : Nat) : ((s.popHead g q).tile g n).work = (s.tile g n).work := by
  have popped : (s.modEngine g q List.tail).tile g n = s.tile g n := by
    simp only [State.tile, State.modEngine, State.wg_modWg, if_true, State.core, State.modWg_cores]
  rw [← popped]
  exact work_of_collSide (collSide_of_besideTiles (s.besideTiles_popHead g q)) g n

/-- It moves no byte. -/
theorem State.l2Read_popHead (g q : Nat) : (s.popHead g q).l2Read = s.l2Read := by
  rw [l2Read_of_besideTiles (s.besideTiles_popHead g q)]
  rfl

/-- What a collective's end leaves: its entry is off the queue, its handle counts one fewer posted, its tile awaits one fewer, and memory is
as it was. -/
structure CollEnded (g q h : Nat) (tile : Option Nat) (s t : State) : Prop where
  engine : t.engine g q = (s.engine g q).tail
  posted : (Store.get ({} : Handle) (t.ctx (s.wgCtx g)).handles h).posted = (Store.get ({} : Handle) (s.ctx (s.wgCtx g)).handles h).posted - 1
  work : ∀ n, tile = some n → (t.tile g n).work = (s.tile g n).work - 1
  read : t.l2Read = s.l2Read

/-- A collective's end before its entry leaves the queue: its chunks go, its handle counts, its tile's fill ends. -/
def State.freeColl (s : State) (g h round : Nat) (tile : Option Nat) : State :=
  let ctx := s.wgCtx g
  let s1 := ({ s with collIn := s.collIn.filter fun c => !(c.ctx == ctx && c.handle == h && c.round == round) } : State).modCtx ctx fun c =>
    let k := Store.get ({} : Handle) c.handles h
    { c with handles := Store.set {} c.handles h { k with posted := k.posted - 1 } }
  match tile with
  | some n => s1.modTile g n Tile.endFill
  | none => s1

theorem State.endColl_eq (g q h round : Nat) (tile : Option Nat) : s.endColl g q h round tile = (s.freeColl g h round tile).popHead g q := by
  cases tile <;> rfl

theorem State.wgs_freeColl (g h round : Nat) (tile : Option Nat) : (s.freeColl g h round tile).wgs = s.wgs := by
  unfold State.freeColl
  cases tile <;> rfl

theorem State.l2Read_freeColl (g h round : Nat) (tile : Option Nat) : (s.freeColl g h round tile).l2Read = s.l2Read := by
  unfold State.freeColl
  cases tile with
  | none => rfl
  | some n => exact funext (State.l2Read_modCore _ _ _)

theorem State.posted_freeColl (g h round : Nat) (tile : Option Nat) :
    (Store.get ({} : Handle) ((s.freeColl g h round tile).ctx (s.wgCtx g)).handles h).posted
      = (Store.get ({} : Handle) (s.ctx (s.wgCtx g)).handles h).posted - 1 := by
  have ctxs : (s.freeColl g h round tile).ctxs = (s.freeColl g h round none).ctxs := by cases tile <;> rfl
  rw [State.ctx, ctxs, ← State.ctx]
  simp only [State.freeColl, State.ctx_modCtx, if_true, Store.get_set]
  rfl

theorem State.work_freeColl (g h round n : Nat) : ((s.freeColl g h round (some n)).tile g n).work = (s.tile g n).work - 1 := by
  simp only [State.tile, State.freeColl, State.modTile, State.wg, State.core_modCore, if_true, State.modCore_wgs, State.modCtx_wgs, Store.get_set]
  rfl

theorem State.endColl_ended (g q h round : Nat) (tile : Option Nat) : CollEnded g q h tile s (s.endColl g q h round tile) := by
  rw [State.endColl_eq]
  refine ⟨?_, ?_, fun n hn => ?_, ?_⟩
  · rw [State.engine_popHead]
    simp only [State.engine, State.wg, State.wgs_freeColl]
  · rw [State.handles_popHead, State.posted_freeColl]
  · rw [State.work_popHead, hn, State.work_freeColl]
  · rw [State.l2Read_popHead, State.l2Read_freeColl]

/-! ### SIGNAL (R246) -/

theorem State.collSide_signalColl (g ctx sig n : Nat) (refused : Bool) (ps : List PageAt) :
    (s.signalColl g ctx sig n refused ps).collSide = s.collSide := by
  unfold State.signalColl
  split
  · rfl
  · split
    · simp
    · split
      · split
        · rfl
        · simp
      · rfl

/-- Where SIGNAL lies in this device's memory, it counts on, and no other byte changes. -/
theorem signalColl_counts {s : State} (plain : plainMemory s) (g ctx : Nat) {sig pa n : Nat} {ps : List PageAt} (aligned : sig % 4 = 0)
    (here : byteAt ps sig = some pa) :
    (s.signalColl g ctx sig n false ps).l2Num pa 4 = (s.l2Num pa 4 + n) % 2 ^ 32 ∧
      ∀ a, ¬ (pa ≤ a ∧ a < pa + 4) → (s.signalColl g ctx sig n false ps).l2Read a = s.l2Read a := by
  have counted : s.signalColl g ctx sig n false ps = s.l2SetNum pa 4 ((s.l2Num pa 4 + n) % 2 ^ 32) := by
    unfold State.signalColl
    rw [if_neg (by simp [aligned]), here]
  rw [counted]
  refine ⟨?_, fun a away => ?_⟩
  · rw [l2Num_l2SetNum_of_plain plain]
    omega
  · rw [State.l2SetNum, l2Read_l2Write_of_plain plain, length_leBytes, if_neg away]

end

/-! ### The way of a collective that nothing holds up (R243 to R246) -/

theorem finishColl_signals {s z : State} {g q h round : Nat} {tile : Option Nat} {sig : Nat} {ps : List PageAt} (aligned : sig % 4 = 0)
    (reached : s.reach (some (s.wg g).core) (s.wgCtx g) .atomic [sig] [] = .ok ps z) (clean : z.dirtyFrame ps = false) :
    s.finishColl g q h round tile sig false = (z.signalColl g (s.wgCtx g) sig 1 false ps).endColl g q h round tile := by
  unfold State.finishColl
  simp only [aligned, ne_eq, not_true, Bool.false_eq_true, or_self, if_false, reached, clean]

theorem performColl_writes {s w : State} {g q h round : Nat} {tile : Option Nat} {d : CollDesc} {e : EngineEntry} {ds : List (List Word)}
    {ps : List PageAt}
    (reached : s.reach (some (s.wg g).core) (s.wgCtx g) .write (pageStarts
      (((d.runs tile (collResult d ds) e.res).1 ++ (d.runs tile (collResult d ds) e.res).2).map fun r => ({ va := r.1, len := 4 } : Span))) []
        = .ok ps w)
    (clean : w.dirtyFrame ps = false)
    (here : (w.writeColl g q tile (collResult d ds) ps (d.runs tile (collResult d ds) e.res)).1 = []) :
    s.performColl g q h round tile d e ds
      = (w.writeColl g q tile (collResult d ds) ps (d.runs tile (collResult d ds) e.res)).2.finishColl g q h round tile d.signal false := by
  unfold State.performColl
  simp only [reached, clean, here, Bool.false_eq_true, if_false, List.isEmpty_nil, if_true]

/-- A collective that has given its part, and has its descriptor, its members and every contribution, goes on to its results. -/
theorem completeColl_performs {s u v : State} {g q h round : Nat} {tile : Option Nat} {e : EngineEntry} {bs ms : List Byte} {desc : Nat}
    {d : CollDesc} {peers : List Nat} {ds : List (List Word)} (unrefused : e.refused = none) (asked : e.asked = true) (unstored : e.stored = false)
    (named : (Store.get ({} : Handle) (s.ctx (s.wgCtx g)).handles h).desc.toNat = desc) (aligned : desc % 64 = 0)
    (descriptor : s.collGather g q e [{ va := desc, len := 64 }] = .inl (some [bs], u)) (described : CollDesc.ofBytes bs = d)
    (valid : d.ok (tile.map fun n => s.tile g n) = true)
    (members : u.collGather g q e [{ va := d.peers, len := 2 * d.gsize }] = .inl (some [ms], v))
    (listed : ((List.range d.gsize).map fun j => leNat ((ms.drop (2 * j)).take 2)) = peers)
    (present : ∀ p ∈ peers.zipIdx, p.2 ≠ d.rank → Store.get false s.lost p.1 = false)
    (device : (d.res && v.onSys g { va := d.resbuf, len := 4 * d.count }) = false)
    (contributions : v.collect (s.wgCtx g) h round d peers e.own = some ds) :
    s.completeColl g q h round tile e = v.performColl g q h round tile d e ds := by
  have unwritten : ¬ e.stored = true := by simp [unstored]
  have accepted : ¬ (decide (desc % 64 ≠ 0) || !d.ok (tile.map fun n => s.tile g n)) = true := by simp [aligned, valid]
  have reachable : ¬ ((peers.zipIdx.any fun p => p.2 != d.rank && Store.get false s.lost p.1)
      || (d.res && v.onSys g { va := d.resbuf, len := 4 * d.count })) = true := by
    rw [device, Bool.or_false, Bool.not_eq_true, List.any_eq_false]
    intro p hp
    by_cases own : p.2 = d.rank
    · simp [own]
    · simp [present p hp own]
  have given : ¬ (!e.asked) = true := by simp [asked]
  -- each answer is put in before the match on it is reduced, so that nothing has to look into the access that gives it
  unfold State.completeColl
  extract_lets ctx va stop
  rw [unrefused, show va = desc from named, descriptor]
  dsimp -zeta only [Option.filter_none]
  extract_lets desc' noSig fail resbuf want
  have same : desc' = d := described
  clear_value desc'
  subst same
  refine (if_neg unwritten).trans ((if_neg accepted).trans ?_)
  rw [members]
  dsimp -zeta only
  extract_lets peers'
  have same : peers' = peers := listed
  clear_value peers'
  subst same
  refine (if_neg reachable).trans ((if_neg given).trans ?_)
  rw [contributions]

/-- COLL_COMPLETE of a collective that has started and waits for nothing. -/
theorem exec_collComplete {s : State} {g q h round : Nat} {tile : Option Nat} {e : EngineEntry} (head : (s.engine g q).head? = some e)
    (work : e.work = .coll h round tile) (started : e.started = true) (unheld : e.waitRec = none) (running : (s.wg g).engHalt = false) :
    exec (.collComplete g q) s = .next (s.completeColl g q h round tile e) := by
  obtain ⟨rest, queue⟩ := List.head?_eq_some_iff.mp head
  change execCollComplete g q s = _
  unfold execCollComplete
  rw [queue]
  simp only [started, unheld, running, work, Bool.not_true, Option.isSome_none, Bool.or_self, Bool.false_eq_true, if_false]

/-- Settles O41: the head entry's way is descriptor, members, contributions, results, SIGNAL, end, and what the end reads is as it was at
the start. -/
theorem collectiveEvent : Obligations.CollectiveEvent := by
  intro g q s bs u ms v ds pages w sig z p made ok
  obtain ⟨e, head, made⟩ := Option.bind_eq_some_iff.mp made
  split at made
  · next h round tile work =>
    cases made
    obtain ⟨started, unheld, unrefused, asked, unstored, running, aligned, descriptor, valid, members, present, device, contributions, written,
      clean, here, signalled, reached, plain, cleanSignal⟩ := ok
    have toV : v.collSide = s.collSide := (collSide_collGather members).trans (collSide_collGather descriptor)
    have toW : w.collSide = s.collSide := (collSide_reach written).trans toV
    have wrote := w.besideTiles_writeColl g q tile _ pages _ here
    have toDone := (congrArg Prod.fst wrote).trans toW
    have toZ : z.collSide = s.collSide := (collSide_reach reached).trans toDone
    have toSignal := (z.collSide_signalColl g (s.wgCtx g) (CollDesc.ofBytes bs).signal 1 false sig).trans toZ
    have performs := completeColl_performs (h := h) (round := round) unrefused asked unstored rfl aligned descriptor rfl valid members rfl
      (lost_of_collSide toV ▸ present) device contributions
    rw [← core_of_collSide toV g, ← wgCtx_of_collSide toV g] at written
    rw [← core_of_collSide toDone g, ← wgCtx_of_collSide toDone g] at reached
    have ended := (z.signalColl g (s.wgCtx g) (CollDesc.ofBytes bs).signal 1 false sig).endColl_ended g q h round tile
    have writes := performColl_writes (q := q) (h := h) (round := round) written clean here
    have signals := finishColl_signals (q := q) (h := h) (round := round) (tile := tile) signalled reached cleanSignal
    have answers := exec_collComplete head work started unheld running
    refine ⟨_, answers.trans (congrArg Host.Outcome.next (performs.trans (writes.trans signals))), ?_⟩
    have posted := ended.posted
    rw [wgCtx_of_collSide toSignal g, handles_of_collSide (z.collSide_signalColl _ _ _ _ _ _)] at posted
    rw [wgCtx_of_collSide toDone g]
    refine ⟨ended.engine.trans (behind_of_collSide toSignal g q), posted, fun n into => ?_, fun a => ?_, fun pa within => ?_⟩
    · exact (ended.work n into).trans (congrArg (· - 1) (work_of_collSide toSignal g n))
    · rw [← wgCtx_of_collSide toW g, ← core_of_collSide toW g]
      exact congrFun (congrArg Prod.snd wrote) a
    · obtain ⟨counts, keeps⟩ := signalColl_counts plain g (s.wgCtx g) (n := 1) signalled within
      exact ⟨(l2Num_congr fun i _ => congrFun ended.read _).trans counts, fun a away => (congrFun ended.read a).trans (keeps a away)⟩
  · cases made

end Sys2Proof.Machine
end

