-- ==== Sys2Proof/Proofs/LongLatencyWords.lean ====
section
/-! STATEMENT PROOFS. The data of a long-latency word go to every record that carries its name (R91), which the statement does not keep
from the records that are outstanding before. -/

namespace Sys2Proof.Machine

open Sys2Proof.Safety

/-- A warp with a load outstanding for s2, whose record carries the name that the machine hands out next. -/
def takenNameDesk : State :=
  { userDesk with
    names := 7
    warps := [(0, { resident := true, nsregs := 64, splits := [(0, { state := .running, m := 1, a := 1 })]
                    pending := [{ id := 7, scalar := true, regs := [2], threads := 1, held := 1 }] })] }

theorem takenNameDesk_issuing : issuing takenNameDesk = true ∧ (me takenNameDesk).pending.head?.map Pending.held = some 1 := by decide

/-- TICK into s4 and s5 opens a record of the same name, and its data reach the load's record too, whose thread then awaits none. -/
theorem tick_fills_outstanding : ∃ t, exec (.sysvTick false 4) takenNameDesk = .next t ∧ (me t).pending.head?.map Pending.held = some 0 :=
  ⟨_, rfl, by decide⟩

/-- What the statement asks of that word: the records before its own are as they were. -/
theorem tick_spec_keeps_outstanding : ∃ p, scalarLong (.sysvTick false 4) = some p ∧ p.fits takenNameDesk = true
    ∧ ∀ base t, p.posted base takenNameDesk t → (me t).pending.head? = (me takenNameDesk).pending.head? := by
  refine ⟨_, rfl, by decide, fun base t h => ?_⟩
  obtain ⟨-, ⟨q, posted, -⟩, -⟩ := h
  rw [posted]
  rfl

/-- Refutes O6: where an outstanding record carries the name that the machine hands out next, the data of TICK reach that record as well,
and the statement has every record before the word's own as it was. -/
theorem not_longLatencyWords : ¬ Obligations.LongLatencyWords := by
  unfold Obligations.LongLatencyWords
  rintro ⟨-, scalar⟩
  obtain ⟨p, hp, fits, kept⟩ := tick_spec_keeps_outstanding
  obtain ⟨issues, awaits⟩ := takenNameDesk_issuing
  obtain ⟨t, ht, holds⟩ := scalar _ takenNameDesk p hp (by decide) issues fits
  obtain ⟨u, hu, filled⟩ := tick_fills_outstanding
  rw [hu] at ht
  cases ht
  rw [kept _ _ holds, awaits] at filled
  exact absurd filled (by decide)

end Sys2Proof.Machine
end

