-- ==== Sys2Proof/Proofs/StrayMask.lean ====
section
/-! STATEMENT PROOFS. The statements of the scalar moves and of the calls keep s62 when a word writes s61; but the write confines the whole
of A to M (R22), of which A may stray in the state before. -/

namespace Sys2Proof.Machine

open Sys2Proof.Safety

/-- A word that clears the stray thread of A does not keep s62 as it was. -/
theorem not_completes_of_confined {i : Instr} {holds : State → Prop} (confined : ∃ t, exec i strayDesk = .next t ∧ (me t).readS 62 = 0)
    (kept : ∀ t, holds t → (me t).readS 62 = (me strayDesk).readS 62) : ¬ completes i strayDesk holds := by
  rintro ⟨t, ht, h⟩
  obtain ⟨u, hu, after⟩ := confined
  rw [hu] at ht
  cases ht
  rw [kept _ h, strayDesk_issuing.2] at after
  exact absurd after (by decide)

/-- MOVI into s61 clears the thread that A had outside M. -/
theorem movi_confines_mask : ∃ t, exec (.moviScalar false 61 1) strayDesk = .next t ∧ (me t).readS 62 = 0 := ⟨_, rfl, by decide⟩

/-- What the statement asks of that word: s62 reads as before. -/
theorem movi_spec_keeps_s62 : ∃ p, scalarMove (.moviScalar false 61 1) = some p ∧ p.fits strayDesk = true
    ∧ ∀ t, p.done strayDesk t → (me t).readS 62 = (me strayDesk).readS 62 := by
  refine ⟨_, rfl, by decide, fun t h => ?_⟩
  obtain ⟨-, -, -, -, reads, -⟩ := h
  exact reads 62 (by decide)

/-- Refutes O3: MOVI into s61 where A holds a thread outside M changes s62 as well. -/
theorem not_scalarOtherWords : ¬ Obligations.ScalarOtherWords := by
  unfold Obligations.ScalarOtherWords
  rintro ⟨words, -⟩
  obtain ⟨p, hp, fits, kept⟩ := movi_spec_keeps_s62
  exact not_completes_of_confined movi_confines_mask kept (words _ strayDesk p (Or.inl hp) (by decide) strayDesk_issuing.1 fits)

/-- CALLX with its link in s61 clears the thread that A had outside M. -/
theorem callx_confines_mask : ∃ t, exec (.callx false 61 0) strayDesk = .next t ∧ (me t).readS 62 = 0 := ⟨_, rfl, by decide⟩

/-- What the statement asks of that word: s62 reads as before. -/
theorem callx_spec_keeps_s62 : ∃ p, jumps (.callx false 61 0) = some p ∧ p.link.fits strayDesk = true
    ∧ ∀ t, p.done strayDesk t → (me t).readS 62 = (me strayDesk).readS 62 := by
  refine ⟨_, rfl, by decide, fun t h => ?_⟩
  obtain ⟨-, -, -, -, -, -, -, reads⟩ := h
  exact reads 62 (by decide)

/-- Refutes O8: CALLX with its link in s61 where A holds a thread outside M changes s62 as well. -/
theorem not_jumpWords : ¬ Obligations.JumpWords := by
  unfold Obligations.JumpWords
  intro words
  obtain ⟨p, hp, fits, kept⟩ := callx_spec_keeps_s62
  exact not_completes_of_confined callx_confines_mask kept (words _ strayDesk p hp (by decide) strayDesk_issuing.1 fits)

end Sys2Proof.Machine
end

