-- ==== Sys2Proof/Proofs/RegistersReadBack.lean ====
section
/-! STATEMENT PROOFS. A register that firmware writes whole gives the value back (R137, R430, R431, R441). -/

namespace Sys2Proof.Machine

open Sys2Proof.Safety

/-! ### Words of wider values -/

theorem DWord.lo_ofWords (a b : Word) : (DWord.ofWords a b).lo = a := by
  unfold DWord.lo DWord.ofWords
  ext i hi
  simp

theorem DWord.hi_ofWords (a b : Word) : (DWord.ofWords a b).hi = b := by
  unfold DWord.hi DWord.ofWords
  ext i hi
  have : 32 + i < 64 := by omega
  have : i < 64 := by omega
  simp [*]

/-- The 32 threads of a mask from 32k on, after they have been replaced. -/
theorem maskWord_maskSet (m : Mask) {k : Nat} (hk : k < 3) (v : Word) : maskWord (maskSet m k v) k = v := by
  unfold maskWord maskSet
  ext i hi
  have : 32 * k + i < 96 := by omega
  have : i < 96 := by omega
  have ones : (4294967295#96)[i] = true := by
    change (BitVec.setWidth 96 (BitVec.allOnes 32))[i] = true
    rw [BitVec.getElem_setWidth, BitVec.getLsbD_allOnes]
    simpa using hi
  simp [*]

/-! ### A write, then a read -/

section
variable {s : State} {w n : Nat} {v : Word}

/-- A register that shows a part of the context, and whose write sets that part. -/
theorem State.readReg_writeReg_ctx {f : Ctx → Ctx} (part : Ctx → Word) (hw : s.writeReg w n v = s.modCtx (s.ctxOf w) f)
    (hr : ∀ t : State, t.readReg w n = BitVec.ofNat 32 (part (t.ctx (t.ctxOf w))).toNat) (hp : ∀ c, part (f c) = v) :
    (s.writeReg w n v).readReg w n = v := by
  have ctxOf : (s.modCtx (s.ctxOf w) f).ctxOf w = s.ctxOf w := rfl
  rw [hr, hw, ctxOf, State.ctx_modCtx, if_pos rfl, hp]
  simp

/-- A register that shows a part of the warp's trap registers, and whose write sets that part. -/
theorem State.readReg_writeReg_trap {f : TrapRegs → TrapRegs} (part : TrapRegs → Word)
    (hw : s.writeReg w n v = s.modWarp w fun x => { x with trap := f x.trap })
    (hr : ∀ t : State, t.readReg w n = BitVec.ofNat 32 (part (t.warp w).trap).toNat) (hp : ∀ k, part (f k) = v) :
    (s.writeReg w n v).readReg w n = v := by
  rw [hr, hw, State.warp_modWarp, if_pos rfl, hp]
  simp

/-- The write of a register that stands among those of a context. -/
theorem State.writeReg_ctxRegister {f : Ctx → Ctx} (h : viewHolds (n / 1024) (n % 1024) = true)
    (group : 0x0B0 ≤ n % 1024 ∧ n % 1024 < 0x0C0) (hf : ctxRegister s.time w (n / 1024) (n % 1024) v = some f) :
    s.writeReg w n v = s.modCtx (s.ctxOf w) f :=
  (State.writeReg_ctx h (by omega) (Or.inr group)).trans (State.writeCtxReg_eq (by omega) s _ hf)

end

/-- Each register that firmware writes whole reads as it was written. -/
theorem State.readReg_writeReg_whole (s : State) (w : Nat) {n : Nat} (v : Word) (hn : n ∈ wholeRegisters) :
    (s.writeReg w n v).readReg w n = v := by
  simp only [wholeRegisters, List.mem_cons, List.not_mem_nil, or_false] at hn
  rcases hn with rfl | rfl | rfl | rfl | rfl | rfl | rfl | rfl | rfl | rfl | rfl | rfl
  · exact State.readReg_writeReg_ctx (f := fun c => { c with tvec := v }) Ctx.tvec (State.writeReg_warp rfl (by decide)) (fun _ => rfl) fun _ => rfl
  · exact State.readReg_writeReg_trap TrapRegs.pc (State.writeReg_trap rfl rfl) (fun _ => rfl) fun _ => rfl
  · exact State.readReg_writeReg_trap (fun k => maskWord k.mask 0) (State.writeReg_trap rfl rfl) (fun _ => rfl)
      fun k => maskWord_maskSet k.mask (by decide) v
  · exact State.readReg_writeReg_trap (fun k => maskWord k.mask 1) (State.writeReg_trap rfl rfl) (fun _ => rfl)
      fun k => maskWord_maskSet k.mask (by decide) v
  · exact State.readReg_writeReg_trap (fun k => maskWord k.mask 2) (State.writeReg_trap rfl rfl) (fun _ => rfl)
      fun k => maskWord_maskSet k.mask (by decide) v
  · exact State.readReg_writeReg_ctx (fun c => c.tracebase.lo) (State.writeReg_ctxRegister rfl (by decide) rfl) (fun _ => rfl)
      fun _ => DWord.lo_ofWords ..
  · exact State.readReg_writeReg_ctx (fun c => c.tracebase.hi) (State.writeReg_ctxRegister rfl (by decide) rfl) (fun _ => rfl)
      fun _ => DWord.hi_ofWords ..
  · exact State.readReg_writeReg_ctx (fun c => c.rrarea.lo) (State.writeReg_ctxRegister rfl (by decide) rfl) (fun _ => rfl)
      fun _ => DWord.lo_ofWords ..
  · exact State.readReg_writeReg_ctx (fun c => c.rrarea.hi) (State.writeReg_ctxRegister rfl (by decide) rfl) (fun _ => rfl)
      fun _ => DWord.hi_ofWords ..
  · exact State.readReg_writeReg_ctx (fun c => c.dumpbase.lo) (State.writeReg_ctxRegister rfl (by decide) rfl) (fun _ => rfl)
      fun _ => DWord.lo_ofWords ..
  · exact State.readReg_writeReg_ctx (fun c => c.dumpbase.hi) (State.writeReg_ctxRegister rfl (by decide) rfl) (fun _ => rfl)
      fun _ => DWord.hi_ofWords ..
  · exact State.readReg_writeReg_ctx Ctx.dumpsize (State.writeReg_ctxRegister rfl (by decide) rfl) (fun _ => rfl) fun _ => rfl

/-- Settles O60: the read shows the very part of the context, or of the trap registers, that the write sets. -/
theorem registersReadBack : Obligations.RegistersReadBack := by
  unfold Obligations.RegistersReadBack
  intro w n v s hn
  exact ⟨s.writeReg w n.toNat v, rfl, (s.readReg_writeReg_whole w v hn).trans (by simp)⟩

end Sys2Proof.Machine
end

