-- ==== Sys2Proof/Proofs/DoubleTrap.lean ====
section
/-! STATEMENT PROOFS. A trap in a handler halts the warp: what the double trap keeps, and what its report leaves alone (R133, R138, R375). -/

namespace Sys2Proof.Machine

open Sys2Proof.Safety

/-- A context's partition is told from the partitions alone (R455). -/
theorem State.partOf_of_parts {s t : State} (h : t.parts = s.parts) (ctx : Nat) : t.partOf ctx = s.partOf ctx := by
  unfold State.partOf State.part
  rw [h]

/-! ### The report of a halt (R259) -/

section
variable (s : State)

theorem State.cur_event (p r code queue ctx warp detail : Nat) (pc : Word) (aux : Nat) :
    (s.event p r code queue ctx warp detail pc aux).cur = s.cur :=
  show (s.event p r code queue ctx warp detail pc aux).besideL2.cur = s.besideL2.cur by rw [State.besideL2_event]

theorem State.cur_haltEvent (w : Nat) : (s.haltEvent w).cur = s.cur := by
  unfold State.haltEvent
  dsimp only
  split
  · split
    · rw [State.cur_event]; rfl
    · rfl
  · rfl

/-- HALTEV stands in the context's status after a halt. -/
theorem State.dbgstat_haltEvent (w : Nat) : ((s.haltEvent w).ctx (s.ctxOf w)).dbgstat = (s.ctx (s.ctxOf w)).dbgstat ||| 16#5 := by
  have noted : ((s.modCtx (s.ctxOf w) fun c => { c with dbgstat := c.dbgstat ||| 16#5 }).ctx (s.ctxOf w)).dbgstat =
      (s.ctx (s.ctxOf w)).dbgstat ||| 16#5 := by
    rw [State.ctx_modCtx, if_pos rfl]
  unfold State.haltEvent
  dsimp only
  split
  · split
    · rw [State.ctx_event, noted]
    · exact noted
  · exact noted

/-- A halt in a context of no partition is reported nowhere. -/
theorem State.haltEvent_unowned (w : Nat) (h : s.partOf (s.ctxOf w) = none) :
    s.haltEvent w = s.modCtx (s.ctxOf w) fun c => { c with dbgstat := c.dbgstat ||| 16#5 } := by
  have unowned : (s.modCtx (s.ctxOf w) fun c => { c with dbgstat := c.dbgstat ||| 16#5 }).partOf (s.ctxOf w) = none := h
  unfold State.haltEvent
  dsimp only
  rw [unowned]
  split <;> rfl

end

/-! ### The double trap -/

/-- Leaving a gang leaves every warp its context. -/
theorem Parted.ctxOf {s t : State} (h : Parted s t) (w : Nat) : t.ctxOf w = s.ctxOf w := by
  have wg : (t.warp w).wg = (s.warp w).wg := by rw [h.warp_eq]
  unfold State.ctxOf State.launchOf
  rw [wg, h.rest]
  rfl

/-- A warp in its handler has trapped again: it is halted, HALTEV is set, and only the rings of its partition may have been written. -/
structure DoubleTrapped (s t : State) (w c : Nat) : Prop where
  cur : t.cur = s.cur
  warp : t.warp w = { (s.warp w).doubleTrap c with
    gang := (t.warp w).gang, gangPath := (t.warp w).gangPath, readyAt := (t.warp w).readyAt }
  ctx : (t.ctx (s.ctxOf w)).dbgstat = (s.ctx (s.ctxOf w)).dbgstat ||| 16#5
  unowned : s.partOf (s.ctxOf w) = none → sameMemory s t ∧ t.partOf (s.ctxOf w) = none

/-- The report of a double trap (R375). -/
theorem DoubleTrapped.event {s t : State} {w c : Nat} (h : DoubleTrapped s t w c) (p r code queue ctx warp detail : Nat) (pc : Word) (aux : Nat)
    (owned : s.partOf (s.ctxOf w) ≠ none) : DoubleTrapped s (t.event p r code queue ctx warp detail pc aux) w c := by
  have self : (t.event p r code queue ctx warp detail pc aux).warp w = t.warp w := by
    unfold State.warp
    rw [State.warps_event]
  exact ⟨(State.cur_event ..).trans h.cur, by rw [self]; exact h.warp, by rw [State.ctx_event, h.ctx], fun unowned => absurd unowned owned⟩

/-- The slot of the word that traps. -/
theorem DoubleTrapped.issued {s t : State} {w c : Nat} (h : DoubleTrapped s t w c) (g : Form) (x0 : Warp) :
    DoubleTrapped s (t.issued w g x0 false) w c := by
  have counted := issued_counted t w g x0 false
  have self := State.warp_issued t w g x0 false w
  rw [if_pos rfl] at self
  generalize t.issued w g x0 false = u at counted self
  have memory : sameMemory t u := sameMemory_of_books (counted.of_warps (State.modWarp_rest t w _))
  refine ⟨by rw [counted.rest]; exact h.cur, by rw [self, h.warp], ?_, fun unowned => ⟨sameMemory_trans (h.unowned unowned).1 memory, ?_⟩⟩
  · rw [counted.ctx, State.ctx_modWarp]
    exact h.ctx
  · have parts : u.parts = t.parts := by rw [counted.rest]; rfl
    exact (State.partOf_of_parts parts _).trans (h.unowned unowned).2

/-- The halt of a double trap, before its own report. -/
theorem haltEvent_doubleTrapped (s : State) (w c : Nat) :
    DoubleTrapped s (((s.modWarp w fun x => x.doubleTrap c).partGang w).haltEvent w) w c := by
  have parted := partGang_parted (s.modWarp w fun x => x.doubleTrap c) w
  have warp := parted.warp_eq w
  have ctxOf : ((s.modWarp w fun x => x.doubleTrap c).partGang w).ctxOf w = s.ctxOf w :=
    (parted.ctxOf w).trans (State.ctxOf_modWarp s w _ rfl w)
  have rest := parted.rest
  rw [State.warp_modWarp, if_pos rfl] at warp
  generalize (s.modWarp w fun x => x.doubleTrap c).partGang w = u at warp ctxOf rest
  have ctx : ∀ k, u.ctx k = s.ctx k := fun k => by rw [rest]; rfl
  have parts : u.parts = s.parts := by rw [rest]; rfl
  have self : (u.haltEvent w).warp w = u.warp w := by
    unfold State.warp
    rw [State.warps_haltEvent]
  refine ⟨(State.cur_haltEvent u w).trans (by rw [rest]; rfl), ?_, ?_, fun unowned => ?_⟩
  · rw [self, warp]
  · rw [← ctxOf, State.dbgstat_haltEvent, ctx]
  · rw [State.haltEvent_unowned u w (by rw [State.partOf_of_parts parts, ctxOf, unowned])]
    have memory : sameMemory s u := sameMemory_of_books (by rw [rest]; rfl)
    exact ⟨sameMemory_trans memory (sameMemory_modCtx u _ _), (State.partOf_of_parts parts _).trans unowned⟩

/-- The trap of a warp that is in its handler and that no debugger steps. -/
theorem takeTrap_doubleTrapped {s : State} {w : Nat} (c f : Nat) (a : DWord) (first : Word) (part : Bool) (pc : Word)
    (unstepped : (s.warp w).step = none) (handler : (s.warp w).cur.trapm = true) :
    DoubleTrapped s (s.takeTrap w c f a first part pc) w c := by
  have halted := haltEvent_doubleTrapped s w c
  unfold State.takeTrap
  simp only [unstepped, handler, Option.any_none, Bool.false_eq_true, if_false, if_true]
  split
  · rename_i owned
    refine halted.event _ _ _ _ _ _ _ _ _ fun unowned => ?_
    rw [(halted.unowned unowned).2] at owned
    cases owned
  · exact halted

/-! ### TRAP in a handler -/

/-- TRAP names no register, so that only a result due in the mask may stand in its way (R58). -/
theorem trap_checks {s : State} {m : Bool} (hs : settled s [] [] = true) : s.checks (ctlForm m [] []) = none := by
  have passes : Form.Passes (ctlForm m [] []) s [] [] :=
    { names := by simp [ctlForm], vnames := by simp [ctlForm], also := by simp [ctlForm], illegal := rfl, level := Nat.zero_le _
      even := by simp [ctlForm], src := by simp [ctlForm], tags := rfl, late := rfl }
  exact passes.checks (cs := []) (cv := []) rfl hs (by simp [ctlForm]) rfl rfl

/-- TRAP of a warp in its handler. -/
theorem execTrap_doubleTrapped {s : State} (m : Bool) (v : BitVec 18) (hi : issuing s = true) (handler : (me s).cur.trapm = true)
    (unstepped : (me s).step = none) (hs : settled s [] [] = true) :
    ∃ t, exec (.trap m v) s = .next t ∧ DoubleTrapped (s.noted s.cur) t s.cur 0x0B := by
  have hnext := issue_performs (form := fun _ => ctlForm m [] []) (body := fun w s => .trap 0x0B (s.warp w).reportSlot (v.setWidth 64) false s)
    hi rfl (trap_checks hs) (Or.inl rfl) rfl
  rw [conclude_trap] at hnext
  refine ⟨_, hnext, (takeTrap_doubleTrapped _ _ _ _ _ _ ?_ ?_).issued _ _⟩
  · rw [State.warp_noted_self]
    exact unstepped
  · rw [State.warp_noted_self]
    exact handler

/-- Settles O48: TRAP passes its checks, and the trap that it takes finds the warp in its handler. -/
theorem doubleTrap : Obligations.DoubleTrap := by
  unfold Obligations.DoubleTrap
  intro m v s hi handler unstepped hs
  obtain ⟨t, ht, trapped⟩ := execTrap_doubleTrapped m v hi handler unstepped hs
  have self : me t = t.warp s.cur := by rw [me, trapped.cur]; rfl
  have warp := trapped.warp
  have ctx := trapped.ctx
  have unowned := trapped.unowned
  rw [State.warp_noted_self, ← self] at warp
  rw [State.ctxOf_noted] at ctx unowned
  refine ⟨t, ht, by rw [warp]; rfl, by rw [warp]; rfl, by rw [warp]; rfl, ?_, fun h => (unowned h).1⟩
  rw [ctx, BitVec.getLsbD_or]
  exact Bool.or_true _

end Sys2Proof.Machine
end

