-- ==== Sys2Proof/Proofs/VectorWrites.lean ====
section
/-! SUPPORT. What a vector word of fixed latency writes: its destinations' elements, thread by thread, and then their tags and U bits
(R20, R21, R25, R30, R335). -/

namespace Sys2Proof.Machine

open Sys2Proof.Safety

/-! ### One thread's elements -/

/-- Writes a thread's elements of some registers. -/
def Warp.writeElems (x : Warp) (t : Nat) (l : List (Nat × Word)) : Warp := l.foldl (fun x d => x.writeV d.1 t d.2) x

theorem Warp.poisonV_writeV (x : Warp) {d t r k h : Nat} (v : Word) (ht : t < 96) (hk : k < 96) (hh : h < 2) :
    (x.writeV d t v).poisonV r k h = if r = d ∧ k = t then false else x.poisonV r k h := by
  unfold Warp.poisonV Warp.writeV
  rw [Store.get_erase, Store.get_erase]
  split
  · rw [if_pos (by omega)]
  · split
    · rw [if_pos (by omega)]
    · rw [if_neg (by omega)]

/-- A warp but for its vector registers' elements and their marks. -/
def Warp.besideElems (x : Warp) : Warp := { x with vregs := [], vpoison := [] }

theorem Warp.eq_of_besideElems {x y : Warp} (h : y.besideElems = x.besideElems) : y = { x with vregs := y.vregs, vpoison := y.vpoison } :=
  calc y = { y.besideElems with vregs := y.vregs, vpoison := y.vpoison } := rfl
    _ = _ := by rw [h]; rfl

theorem Warp.besideElems_writeElems (x : Warp) (t : Nat) (l : List (Nat × Word)) : (x.writeElems t l).besideElems = x.besideElems := by
  unfold Warp.writeElems
  exact foldl_keeps Warp.besideElems (fun x (d : Nat × Word) => x.writeV d.1 t d.2) (fun _ _ => rfl) l x

theorem lookup_eq_none_of_notMem {β : Type} {l : List (Nat × β)} {r : Nat} (h : r ∉ l.map Prod.fst) : l.lookup r = none := by
  rw [List.lookup_eq_none_iff]
  intro p hp
  rw [bne_iff_ne]
  rintro rfl
  exact h (List.mem_map_of_mem hp)

theorem Warp.readV_writeElems {l : List (Nat × Word)} (hl : (l.map Prod.fst).Nodup) (x : Warp) {t k : Nat} (r : Nat) (ht : t < 96) (hk : k < 96) :
    (x.writeElems t l).readV r k = if k = t then (l.lookup r).getD (x.readV r k) else x.readV r k := by
  induction l generalizing x with
  | nil => simp [Warp.writeElems]
  | cons d l ih =>
    obtain ⟨fresh, hl⟩ := List.nodup_cons.mp hl
    have step := ih hl (x.writeV d.1 t d.2)
    rw [Warp.readV_writeV] at step
    rw [show x.writeElems t (d :: l) = (x.writeV d.1 t d.2).writeElems t l from rfl, step, List.lookup_cons]
    by_cases hr : r = d.1
    · subst hr
      rw [lookup_eq_none_of_notMem fresh]
      by_cases hk' : k = t <;> simp [hk']
    · have apart : ¬ r * 96 + k = d.1 * 96 + t := by omega
      rw [beq_false_of_ne hr, if_neg apart]

theorem Warp.poisonV_writeElems (l : List (Nat × Word)) (x : Warp) {t k h : Nat} (r : Nat) (ht : t < 96) (hk : k < 96) (hh : h < 2) :
    (x.writeElems t l).poisonV r k h = if k = t ∧ (l.lookup r).isSome then false else x.poisonV r k h := by
  induction l generalizing x with
  | nil => simp [Warp.writeElems]
  | cons d l ih =>
    have step := ih (x.writeV d.1 t d.2)
    rw [Warp.poisonV_writeV x d.2 ht hk hh] at step
    rw [show x.writeElems t (d :: l) = (x.writeV d.1 t d.2).writeElems t l from rfl, step, List.lookup_cons]
    by_cases hr : r = d.1
    · subst hr
      by_cases hkt : k = t <;> simp [hkt]
    · rw [beq_false_of_ne hr]
      simp [hr]

/-! ### The elements of threads in turn -/

/-- Writes the elements of some registers for threads in turn. -/
def Warp.fill (regs : List Nat) (v : Nat → List Word) (ts : List Nat) (x : Warp) : Warp :=
  ts.foldl (fun x t => x.writeElems t (regs.zip (v t))) x

theorem Warp.besideElems_fill (regs : List Nat) (v : Nat → List Word) (ts : List Nat) (x : Warp) :
    (x.fill regs v ts).besideElems = x.besideElems := by
  unfold Warp.fill
  exact foldl_keeps Warp.besideElems _ (fun y t => y.besideElems_writeElems t _) ts x

theorem nodup_zip_keys {regs : List Nat} (h : regs.Nodup) (ws : List Word) : ((regs.zip ws).map Prod.fst).Nodup := by
  induction regs generalizing ws with
  | nil => simp
  | cons r regs ih =>
    obtain ⟨fresh, h⟩ := List.nodup_cons.mp h
    cases ws with
    | nil => simp
    | cons v ws =>
      refine List.nodup_cons.mpr ⟨fun hm => fresh ?_, ih h ws⟩
      obtain ⟨p, hp, rfl⟩ := List.mem_map.mp hm
      exact (List.of_mem_zip hp).1

theorem Warp.readV_fill {regs : List Nat} (hr : regs.Nodup) (v : Nat → List Word) {ts : List Nat} (hn : ts.Nodup) (ht : ∀ t ∈ ts, t < 96)
    (x : Warp) (r : Nat) {k : Nat} (hk : k < 96) :
    (x.fill regs v ts).readV r k = if k ∈ ts then ((regs.zip (v k)).lookup r).getD (x.readV r k) else x.readV r k := by
  induction ts generalizing x with
  | nil => simp [Warp.fill]
  | cons t ts ih =>
    obtain ⟨fresh, hn⟩ := List.nodup_cons.mp hn
    obtain ⟨h96, ht⟩ := List.forall_mem_cons.mp ht
    rw [show x.fill regs v (t :: ts) = (x.writeElems t (regs.zip (v t))).fill regs v ts from rfl, ih hn ht,
      Warp.readV_writeElems (nodup_zip_keys hr _) x r h96 hk]
    by_cases hkt : k = t
    · subst hkt
      simp [fresh]
    · simp [hkt]

theorem Warp.poisonV_fill (regs : List Nat) (v : Nat → List Word) {ts : List Nat} (ht : ∀ t ∈ ts, t < 96)
    (x : Warp) (r : Nat) {k h : Nat} (hk : k < 96) (hh : h < 2) :
    (x.fill regs v ts).poisonV r k h = if k ∈ ts ∧ ((regs.zip (v k)).lookup r).isSome then false else x.poisonV r k h := by
  induction ts generalizing x with
  | nil => simp [Warp.fill]
  | cons t ts ih =>
    obtain ⟨h96, ht⟩ := List.forall_mem_cons.mp ht
    rw [show x.fill regs v (t :: ts) = (x.writeElems t (regs.zip (v t))).fill regs v ts from rfl, ih ht,
      Warp.poisonV_writeElems _ x r h96 hk hh]
    by_cases hkt : k = t
    · subst hkt
      grind
    · simp [hkt]

/-! ### Tags and U bits (R30) -/

/-- Sets the tags of some registers and their U bits. -/
def Warp.label (dst : List (Nat × Nat)) (b : Bool) (x : Warp) : Warp :=
  dst.foldl (fun x d => (x.setTag d.1 (BitVec.ofNat 4 d.2)).setU d.1 b) x

theorem Warp.label_rest (dst : List (Nat × Nat)) (b : Bool) (x : Warp) :
    x.label dst b = { x with tags := (x.label dst b).tags, u := (x.label dst b).u } := by
  induction dst generalizing x with
  | nil => rfl
  | cons d dst ih => exact (ih ((x.setTag d.1 (BitVec.ofNat 4 d.2)).setU d.1 b)).trans rfl

theorem Warp.label_of_live (dst : List (Nat × Nat)) (b : Bool) (m : Mask) (x : Warp) :
    dst.foldl (fun x d => (x.setTag d.1 (BitVec.ofNat 4 d.2)).setU d.1 (b && m == x.live)) x = x.label dst (b && m == x.live) := by
  induction dst generalizing x with
  | nil => rfl
  | cons d dst ih => exact ih _

theorem Warp.uBit_setU (x : Warp) (d : Nat) (b : Bool) {r : Nat} (hr : r < 64) : (x.setU d b).uBit r = if r = d then b else x.uBit r := by
  unfold Warp.uBit Warp.setU
  have one : (1#64 <<< d).getLsbD r = decide (r = d) := by
    rw [BitVec.getLsbD_shiftLeft, BitVec.getLsbD_one]
    have h : (r - d = 0 ∧ ¬ r < d) ↔ r = d := by omega
    grind
  cases b
  · simp only [Bool.false_eq_true, if_false, BitVec.getLsbD_and, BitVec.getLsbD_not, one]
    grind
  · simp only [if_true, BitVec.getLsbD_or, one]
    grind

/-- The tag and the U bit of a register after the labels of some. -/
theorem Warp.label_tag_uBit {dst : List (Nat × Nat)} (hn : (dst.map Prod.fst).Nodup) (b : Bool) (x : Warp) {r : Nat} (hr : r < 64) :
    match dst.lookup r with
    | some g => (x.label dst b).tag r = BitVec.ofNat 4 g ∧ (x.label dst b).uBit r = b
    | none => (x.label dst b).tag r = x.tag r ∧ (x.label dst b).uBit r = x.uBit r := by
  induction dst generalizing x with
  | nil => exact ⟨rfl, rfl⟩
  | cons d dst ih =>
    obtain ⟨fresh, hn⟩ := List.nodup_cons.mp hn
    have step := ih hn ((x.setTag d.1 (BitVec.ofNat 4 d.2)).setU d.1 b)
    rw [Warp.uBit_setU _ _ _ hr] at step
    rw [show x.label (d :: dst) b = ((x.setTag d.1 (BitVec.ofNat 4 d.2)).setU d.1 b).label dst b from rfl, List.lookup_cons]
    by_cases hd : r = d.1
    · subst hd
      rw [lookup_eq_none_of_notMem fresh, if_pos rfl] at step
      rw [beq_self_eq_true]
      have written : ((x.setTag d.1 (BitVec.ofNat 4 d.2)).setU d.1 b).tag d.1 = BitVec.ofNat 4 d.2 :=
        (Warp.tag_setTag ..).trans (if_pos rfl)
      exact ⟨step.1.trans written, step.2⟩
    · rw [if_neg hd] at step
      rw [beq_false_of_ne hd]
      have kept : ((x.setTag d.1 (BitVec.ofNat 4 d.2)).setU d.1 b).tag r = x.tag r := by
        rw [show ((x.setTag d.1 (BitVec.ofNat 4 d.2)).setU d.1 b).tag r = (x.setTag d.1 (BitVec.ofNat 4 d.2)).tag r from rfl,
          Warp.tag_setTag, if_neg hd]
      rw [kept] at step
      exact step

/-! ### Threads in turn (R20, R25) -/

/-- The warp as a thread of a word finds it: other threads' elements may have been written. -/
structure Warp.TurnOf (x0 : Warp) (t : Nat) (x : Warp) : Prop where
  beside : x.besideElems = x0.besideElems
  reads : ∀ r, x.readV r t = x0.readV r t

theorem Warp.TurnOf.refl (x : Warp) (t : Nat) : x.TurnOf t x := ⟨rfl, fun _ => rfl⟩

theorem Warp.readV_writeElems_other (l : List (Nat × Word)) (x : Warp) {t k : Nat} (ht : t < 96) (hk : k < 96) (apart : k ≠ t) (r : Nat) :
    (x.writeElems t l).readV r k = x.readV r k := by
  unfold Warp.writeElems
  refine foldl_keeps (fun y : Warp => y.readV r k) (fun x (d : Nat × Word) => x.writeV d.1 t d.2) (fun y d => ?_) l x
  rw [Warp.readV_writeV, if_neg (by omega)]

theorem Warp.TurnOf.writeElems {x0 x : Warp} {t k : Nat} (h : x0.TurnOf k x) (l : List (Nat × Word)) (ht : t < 96) (hk : k < 96) (apart : k ≠ t) :
    x0.TurnOf k (x.writeElems t l) :=
  ⟨(x.besideElems_writeElems t l).trans h.beside, fun r => (x.readV_writeElems_other l ht hk apart r).trans (h.reads r)⟩

/-- Where each thread's words rest on what it finds, threads in turn write what they would write at once. -/
theorem Warp.foldl_eq_fill {x0 : Warp} {regs : List Nat} {words : Warp → Nat → List Word} {v : Nat → List Word} {ts : List Nat}
    (hw : ∀ x t, t ∈ ts → x0.TurnOf t x → words x t = v t) (hn : ts.Nodup) (ht : ∀ t ∈ ts, t < 96)
    (x : Warp) (hx : ∀ t ∈ ts, x0.TurnOf t x) :
    ts.foldl (fun x t => x.writeElems t (regs.zip (words x t))) x = x.fill regs v ts := by
  induction ts generalizing x with
  | nil => rfl
  | cons t ts ih =>
    obtain ⟨fresh, hn⟩ := List.nodup_cons.mp hn
    obtain ⟨h96, ht⟩ := List.forall_mem_cons.mp ht
    rw [List.foldl_cons, hw x t List.mem_cons_self (hx t List.mem_cons_self)]
    refine ih (fun x k hk => hw x k (List.mem_cons_of_mem t hk)) hn ht _ fun k hk => ?_
    exact (hx k (List.mem_cons_of_mem t hk)).writeElems _ h96 (ht k hk) fun e => fresh (e ▸ hk)

/-- The warp after a vector word that some threads have performed: a uniform word takes the lowest thread's values. -/
def Warp.computed (x : Warp) (uni : Bool) (dst : List (Nat × Nat)) (v : Nat → List Word) : Warp :=
  (x.fill (dst.map Prod.fst) (fun t => v (if uni then lowest x.active else t)) (threads x.active)).label dst (uni && x.active == x.live)

/-- Where no watch is armed, a vector word that steps no generator writes its values and its labels, and no more. -/
theorem vecOp_done {f : Form} {dst : List (Nat × Nat)} {fn : Warp → Nat → Elem} {v : Nat → List Word} {s u : State} (h : OnWarp s u)
    (hs : ∀ e ∈ u.bank s.cur, e.2.armed = false) (hg : ∀ x t, (fn x t).gen = none) (ha : (u.warp s.cur).active ≠ 0)
    (hv : ∀ x t, t ∈ threads (u.warp s.cur).active → (u.warp s.cur).TurnOf t x → (fn x t).words = v t) :
    ∃ z, vecOp f dst false fn s.cur u = .done z ∧ OnWarp s z
      ∧ z.warp s.cur = (u.warp s.cur).computed (f.uniform (u.warp s.cur)) dst v := by
  generalize hx : u.warp s.cur = x0 at ha hv
  unfold vecOp
  extract_lets x uni act src e0 fn' regs mark longRecord longRun put r
  obtain rfl : x = x0 := hx
  have run : r = { s := (threads act).foldl (fun s' t => s'.modWarp s.cur fun y => y.writeElems t (regs.zip (fn' y t).words)) u } := by
    refine sweepThreads_plain (fn := fn') (put := put) (fun s t ws => rfl) (fun x t => ?_) _ u hs
    unfold fn'
    split
    · split
      · exact hg _ _
      · rfl
    · exact hg _ _
  have words : ∀ y t, t ∈ threads act → x.TurnOf t y → (fn' y t).words = v (if uni then src else t) := fun y t ht hy => by
    unfold fn'
    split
    · have low : (fn x src).words = v src := hv x src (lowest_mem ha) (Warp.TurnOf.refl x src)
      split <;> exact low
    · exact hv y t ht hy
  have filled := Warp.foldl_eq_fill (regs := regs) words (nodup_threads act) (fun t ht => (mem_threads.mp ht).1) x fun t _ => Warp.TurnOf.refl x t
  obtain ⟨alone, warp⟩ := h.foldl (fun t y => y.writeElems t (regs.zip (fn' y t).words)) (threads act)
  rw [if_neg (by simp), run]
  refine ⟨_, rfl, alone.modWarp _, ?_⟩
  rw [State.warp_modWarp, if_pos rfl]
  refine (Warp.label_of_live dst uni act _).trans ?_
  have written := warp.trans filled
  have live : (x.fill regs (fun t => v (if uni = true then src else t)) (threads act)).live = x.live := by
    rw [Warp.eq_of_besideElems (Warp.besideElems_fill regs _ (threads act) x)]
  dsimp only at written ⊢
  rw [written, live]
  rfl

/-! ### The warp after a word -/

section
variable (x : Warp) (uni : Bool) (dst : List (Nat × Nat)) (v : Nat → List Word)

theorem Warp.computed_rest : x.computed uni dst v =
    { x with vregs := (x.computed uni dst v).vregs, vpoison := (x.computed uni dst v).vpoison
             tags := (x.computed uni dst v).tags, u := (x.computed uni dst v).u } := by
  unfold Warp.computed
  generalize hf : x.fill _ _ _ = y
  have fill : y = { x with vregs := y.vregs, vpoison := y.vpoison } := Warp.eq_of_besideElems (by rw [← hf, Warp.besideElems_fill])
  have label := Warp.label_rest dst (uni && x.active == x.live) y
  generalize Warp.label dst _ y = z at label
  rw [label]
  rw [fill]

theorem Warp.readV_label (b : Bool) (r k : Nat) : (x.label dst b).readV r k = x.readV r k := by
  rw [Warp.label_rest]
  rfl

theorem Warp.poisonV_label (b : Bool) (r k h : Nat) : (x.label dst b).poisonV r k h = x.poisonV r k h := by
  rw [Warp.label_rest]
  rfl

/-- The values that a word delivers to a thread, by register. -/
def Warp.delivered (k : Nat) : List (Nat × Word) := (dst.map Prod.fst).zip (v (if uni then lowest x.active else k))

theorem Warp.readV_computed (hn : (dst.map Prod.fst).Nodup) (r : Nat) {k : Nat} (hk : k < 96) :
    (x.computed uni dst v).readV r k =
      if x.active.getLsbD k then ((x.delivered uni dst v k).lookup r).getD (x.readV r k) else x.readV r k := by
  unfold Warp.computed
  rw [Warp.readV_label, Warp.readV_fill hn _ (nodup_threads x.active) (fun t ht => (mem_threads.mp ht).1) x r hk]
  simp [mem_threads, hk, Warp.delivered]

theorem Warp.poisonV_computed (r : Nat) {k h : Nat} (hk : k < 96) (hh : h < 2) :
    (x.computed uni dst v).poisonV r k h =
      if x.active.getLsbD k ∧ ((x.delivered uni dst v k).lookup r).isSome then false else x.poisonV r k h := by
  unfold Warp.computed
  rw [Warp.poisonV_label, Warp.poisonV_fill _ _ (fun t ht => (mem_threads.mp ht).1) x r hk hh]
  simp [mem_threads, hk, Warp.delivered]

theorem Warp.tag_uBit_computed (hn : (dst.map Prod.fst).Nodup) {r : Nat} (hr : r < 64) :
    match dst.lookup r with
    | some g => (x.computed uni dst v).tag r = BitVec.ofNat 4 g ∧ (x.computed uni dst v).uBit r = (uni && x.active == x.live)
    | none => (x.computed uni dst v).tag r = x.tag r ∧ (x.computed uni dst v).uBit r = x.uBit r := by
  have labelled := Warp.label_tag_uBit hn (uni && x.active == x.live)
    (x.fill (dst.map Prod.fst) (fun t => v (if uni then lowest x.active else t)) (threads x.active)) hr
  have rest := Warp.eq_of_besideElems
    (Warp.besideElems_fill (dst.map Prod.fst) (fun t => v (if uni then lowest x.active else t)) (threads x.active) x)
  unfold Warp.computed
  generalize x.fill _ _ _ = y at labelled rest
  have tag : y.tag r = x.tag r := by rw [rest]; rfl
  have uBit : y.uBit r = x.uBit r := by rw [rest]; rfl
  rw [tag, uBit] at labelled
  exact labelled
end

section
variable {i : Instr} {s : State} {p : VectorSpec} {g : Form} {body : Nat → State → Act}

/-- A vector word whose effect is that of its values ends as the statements ask. -/
theorem completes_computed {u : State} (hi : issuing s = true) (hx : exec i s = issue (fun _ => g) body s) (names : g.NamesVector s p)
    (hf : s.checks g = none) (ha : (me s).active ≠ 0) (hb : body s.cur (s.noted s.cur) = .done u) (hu : OnWarp s u)
    (hw : u.warp s.cur = ((me s).noted (s.now s.cur)).computed (p.uniform s) p.writes p.value)
    (hn : (p.writes.map Prod.fst).Nodup) (hg : p.gens = none) : completes i s (p.done s) := by
  have rest := Warp.computed_rest ((me s).noted (s.now s.cur)) (p.uniform s) p.writes p.value
  rw [← hw] at rest
  obtain ⟨t, ht, retired⟩ := issue_done (form := fun _ => g) hi rfl hf (Or.inr ha) names.check hb
    (by rw [rest]; exact Warp.refusedEntry_congr rfl rfl) (by rw [rest]; rfl)
  have books := retired.books hu
  rw [names.len] at retired
  obtain ⟨moved, mask⟩ := retired.moved hu (by rw [rest]; rfl) ((issuing_iff s).mp hi).run
  have onlyWarp := retired.onlyWarp hu
  have memory := retired.sameMemory hu
  have readV : ∀ r k, (me t).readV r k = (u.warp s.cur).readV r k := fun r k => by rw [books]; rfl
  have poisonV : ∀ r k h, (me t).poisonV r k h = (u.warp s.cur).poisonV r k h := fun r k h => by rw [books]; rfl
  have tag : ∀ r, (me t).tag r = (u.warp s.cur).tag r := fun r => by rw [books]; rfl
  have uBit : ∀ r, (me t).uBit r = (u.warp s.cur).uBit r := fun r => by rw [books]; rfl
  refine ⟨t, hx.trans ht, onlyWarp, memory, ?_, moved, mask, fun r hr => ?_, fun r k _ hk => ?_, fun _ h => by rw [hg] at h; cases h⟩
  · rw [hg]
    generalize me t = z at books
    rw [books, rest]
    rfl
  · rw [tag, uBit, hw]
    exact Warp.tag_uBit_computed ((me s).noted (s.now s.cur)) (p.uniform s) p.writes p.value hn hr
  · have reads := Warp.readV_computed ((me s).noted (s.now s.cur)) (p.uniform s) p.writes p.value hn r hk
    have marks := fun h hh => Warp.poisonV_computed ((me s).noted (s.now s.cur)) (p.uniform s) p.writes p.value r (h := h) hk hh
    have values : (p.writes.map Prod.fst).zip (p.value (p.from' s k)) =
      ((me s).noted (s.now s.cur)).delivered (p.uniform s) p.writes p.value k := rfl
    have active : ((me s).noted (s.now s.cur)).active = (me s).active := rfl
    rw [active] at reads marks
    simp only [readV, poisonV, hw, values]
    cases hact : (me s).active.getLsbD k with
    | false =>
      simp only [hact, Bool.false_eq_true, if_false, false_and] at reads marks ⊢
      exact ⟨reads, marks⟩
    | true =>
      simp only [hact, if_true, true_and] at reads marks ⊢
      cases hl : (((me s).noted (s.now s.cur)).delivered (p.uniform s) p.writes p.value k).lookup r with
      | none =>
        simp only [hl, Option.getD_none, Option.isSome_none, Bool.false_eq_true, if_false] at reads marks
        exact ⟨reads, marks⟩
      | some w =>
        simp only [hl, Option.getD_some, Option.isSome_some, if_true] at reads marks
        exact ⟨reads, fun _ => marks⟩
end

/-! ### The checks of a word whose operands fit -/

/-- What `VectorSpec.fits` asks. -/
structure VectorFits (p : VectorSpec) (s : State) : Prop where
  window : inWindow (me s) p.sreads (p.writes.map Prod.fst ++ p.vreads) = true
  even : (p.even.all fun r => r % 2 == 0) = true
  active : (me s).active ≠ 0
  src : (p.vreads.all fun r => (me s).tag r != 0) = true
  tags : p.tagsOk = true
  cleanS : cleanS (me s) p.sreads = true
  cleanV : cleanV (me s) p.vreads = true
  settled : settled s p.sreads (p.writes.map Prod.fst ++ p.vreads) = true

theorem vectorFits {p : VectorSpec} {s : State} (h : p.fits s = true) : VectorFits p s := by
  unfold VectorSpec.fits at h
  simp only [Bool.and_eq_true, decide_eq_true_eq] at h
  obtain ⟨⟨⟨⟨⟨⟨⟨window, even⟩, active⟩, src⟩, tags⟩, cs⟩, cv⟩, settled⟩ := h
  exact ⟨window, even, active, src, tags, cs, cv, settled⟩

/-- The sources whose poison the shared checks test are sources of the word. -/
def Form.ReadsOf (g : Form) (p : VectorSpec) : Prop := ∀ a ∈ g.reads, if a.scalar then a.reg ∈ p.sreads else a.reg ∈ p.vreads

section
variable {i : Instr} {s : State} {p : VectorSpec} {g : Form} {body : Nat → State → Act}

theorem Form.NamesVector.checks_of_fits (h : g.NamesVector s p) (hp : VectorFits p s) (h64 : ∀ r ∈ p.sreads, r < 64) (hr : g.ReadsOf p) :
    s.checks g = none := by
  have low : (p.sreads.any fun r => decide (64 ≤ r)) = false := by
    rw [List.any_eq_false]
    intro r hm
    have := h64 r hm
    simp; omega
  have clean : g.poison ((me s).noted (s.now s.cur)) = none := by
    refine Form.poison_none (ss := p.sreads) (vs := p.vreads) (fun a ha => ?_) hp.cleanS hp.cleanV
    have := hr a ha
    split
    · rwa [if_pos ‹_›] at this
    · rw [if_neg ‹_›] at this
      exact ⟨h.vector, this⟩
  rw [h.checks_eq, low, hp.window, hp.even, hp.src, hp.tags, hp.settled, clean, if_neg hp.active]
  rfl

/-- A word whose effect is `vecOp`, over what each thread finds. -/
theorem completes_vecOp {f : Form} {fn : Warp → Nat → Elem} (hi : issuing s = true) (hp : VectorFits p s)
    (hx : exec i s = issue (fun _ => g) body s)
    (names : g.NamesVector s p) (h64 : ∀ r ∈ p.sreads, r < 64) (hr : g.ReadsOf p) (hn : (p.writes.map Prod.fst).Nodup)
    (hu : f.uni = p.uni) (hg : p.gens = none)
    (hb : body s.cur (s.noted s.cur) = vecOp f p.writes false fn s.cur (s.noted s.cur))
    (hgen : ∀ x t, (fn x t).gen = none)
    (hv : ∀ x t, t ∈ threads (me s).active → ((me s).noted (s.now s.cur)).TurnOf t x → (fn x t).words = p.value t) :
    completes i s (p.done s) := by
  have unwatched : ∀ e ∈ (s.noted s.cur).bank s.cur, e.2.armed = false := ((issuing_iff s).mp hi).unwatched
  have self := State.warp_noted_self s s.cur
  obtain ⟨u, done, alone, warp⟩ := vecOp_done (f := f) (dst := p.writes) (fn := fn) (v := p.value) (OnWarp.noted s) unwatched hgen
    (by rw [self]; exact hp.active) (by rw [self]; exact hv)
  have uniform : f.uniform ((me s).noted (s.now s.cur)) = p.uniform s := by
    unfold Form.uniform VectorSpec.uniform
    rw [hu]
    rfl
  rw [self, uniform] at warp
  exact completes_computed hi hx names (names.checks_of_fits hp h64 hr) hp.active (hb.trans done) alone warp hn hg
end

end Sys2Proof.Machine
end

