-- ==== Sys2Proof/Proofs/VectorMoveWords.lean ====
section
/-! STATEMENT PROOFS. Vector moves and selections, vector system values and the cross-thread exchanges (R132, R153 to R156, R181, R194 to R199). -/

namespace Sys2Proof.Machine

open Sys2Proof.Safety

/-! ### What a thread finds in its turn -/

namespace Warp.TurnOf

variable {x0 x : Warp} {t : Nat} (h : x0.TurnOf t x)
include h

theorem q : x.q = x0.q := by rw [Warp.eq_of_besideElems h.beside]
theorem pred (p : Nat) : x.pred p = x0.pred p := by rw [Warp.eq_of_besideElems h.beside]; rfl
theorem readS (r : Nat) : x.readS r = x0.readS r := by rw [Warp.eq_of_besideElems h.beside]; rfl

end Warp.TurnOf

/-! ### Moves and selections -/

section
variable {i : Instr} {s : State} {p : VectorSpec} {g : Form} {m : Bool} {d a b : BitVec 6}

/-- A form whose tested sources are vector sources of the word. -/
theorem readsOf_map {src : List Nat} {halves : Nat} (hr : g.reads = src.map fun r => { reg := r, halves := halves }) (hs : p.vreads = src) :
    g.ReadsOf p := by
  intro q hq
  rw [hr] at hq
  obtain ⟨r, hm, rfl⟩ := List.mem_map.mp hq
  rw [if_neg (by simp), hs]
  exact hm

theorem readsOf_nil (hr : g.reads = []) : g.ReadsOf p := by
  intro q hq
  rw [hr] at hq
  cases hq

/-- MOVHI keeps the low 14 bits. -/
theorem movhiW_eq (x : Word) (n : BitVec 18) : movhiW x n = (BitVec.extractLsb 13 0 x).setWidth 32 ||| (n.setWidth 32 <<< 14) := by
  have low : x.toNat &&& 16383 = x.toNat % 2 ^ 14 := Nat.and_two_pow_sub_one_eq_mod _ 14
  unfold movhiW
  refine congrArg (· ||| _) (BitVec.eq_of_toNat_eq ?_)
  simp [low]
  omega

/-- A word of one destination and of vector sources alone, over what each thread finds. -/
theorem vecForm_done (tag : Warp → Nat) {src : List Nat} {len : Nat} {tags : Warp → Bool} {ok : Bool} {uni : Option (List Nat)}
    {fn : Warp → Nat → Elem} {v : Nat → List Word} (hi : issuing s = true)
    (hp : VectorFits { vreads := src, writes := [(d.toNat, tag (me s))], len := len, tagsOk := ok, uni := uni, value := v } s)
    (hx : exec i s = issue (fun _ => { vecForm m [d.toNat] src with len := len, tags := tags, uni := uni })
      (fun w s => vecOp { vecForm m [d.toNat] src with len := len, tags := tags, uni := uni } [(d.toNat, tag (s.warp w))] false fn w s) s)
    (htag : tag ((me s).noted (s.now s.cur)) = tag (me s)) (ht : tags ((me s).noted (s.now s.cur)) = ok) (hgen : ∀ x t, (fn x t).gen = none)
    (hv : ∀ x t, ((me s).noted (s.now s.cur)).TurnOf t x → (fn x t).words = v t) :
    completes i s
      (VectorSpec.done { vreads := src, writes := [(d.toNat, tag (me s))], len := len, tagsOk := ok, uni := uni, value := v } s) := by
  refine completes_vecOp (f := { vecForm m [d.toNat] src with len := len, tags := tags, uni := uni }) hi hp hx
    (vecForm_names (fun _ => Iff.rfl) (fun _ => Iff.rfl) (fun _ => Iff.rfl) rfl (fun _ => Iff.rfl) ht) nofun
    (readsOf_map rfl rfl) (List.nodup_singleton _) rfl rfl ?_ hgen fun x t _ => hv x t
  rw [State.warp_noted_self, htag]

/-- A system value's form. -/
theorem sysVec_names {v : Nat → List Word} : Form.NamesVector { m := m, vector := true, v := [d.toNat], leaf := 6 } s
    { vreads := [], writes := [(d.toNat, 3)], tagsOk := true, uni := none, value := v } :=
  { illegal := rfl, level := rfl, idle := rfl, check := rfl, also := rfl, late := fun _ => rfl, vector := rfl, len := rfl
    src := fun _ => Iff.rfl, tags := rfl, ss := fun _ => Iff.rfl, vs := fun _ => Iff.rfl, even := fun _ => Iff.rfl }

theorem sysVec_done {f : Nat → Nat} {v : Nat → List Word} (hi : issuing s = true) (hx : exec i s = sysVec m d f s)
    (hp : VectorFits { vreads := [], writes := [(d.toNat, 3)], tagsOk := true, uni := none, value := v } s)
    (hv : ∀ t, v t = [BitVec.ofNat 32 (f t)]) :
    completes i s (VectorSpec.done { vreads := [], writes := [(d.toNat, 3)], tagsOk := true, uni := none, value := v } s) :=
  completes_vecOp hi hp hx sysVec_names nofun (readsOf_nil rfl) (List.nodup_singleton _) rfl rfl rfl (fun _ _ => rfl) fun _ t _ _ => (hv t).symm
end

/-! ### RETAG (R181) -/

/-- Copies a thread's elements with their marks, from another warp's state. -/
def Warp.copyElems (x0 : Warp) (u t : Nat) (l : List (Nat × Nat)) (x : Warp) : Warp :=
  l.foldl (fun x p =>
    let y := x.writeV p.1 t (x0.readV p.2 u)
    let y := if x0.poisonV p.2 u 0 then y.markV p.1 t 0 else y
    if x0.poisonV p.2 u 1 then y.markV p.1 t 1 else y) x

/-- Elements without marks are copied as values are written. -/
theorem Warp.copyElems_clean {x0 : Warp} {u t : Nat} {l : List (Nat × Nat)}
    (hl : ∀ p ∈ l, x0.poisonV p.2 u 0 = false ∧ x0.poisonV p.2 u 1 = false) (x : Warp) :
    x0.copyElems u t l x = x.writeElems t (l.map fun p => (p.1, x0.readV p.2 u)) := by
  induction l generalizing x with
  | nil => rfl
  | cons p l ih =>
    obtain ⟨⟨h0, h1⟩, hl⟩ := List.forall_mem_cons.mp hl
    have step := ih hl (x.writeV p.1 t (x0.readV p.2 u))
    unfold Warp.copyElems at step ⊢
    rw [List.foldl_cons, h0, h1]
    exact step

/-- What RETAG makes of its warp. -/
def Warp.retagged (x0 : Warp) (uni : Bool) (tag d a : Nat) : Warp :=
  ((threads x0.active).foldl (fun x t => x0.copyElems (if uni then lowest x0.active else t) t ((regsOf tag d).zip (regsOf tag a)) x) x0).label
    (dstOf tag d) (uni && x0.active == x0.live)

theorem map_fst_dstOf (tag d : Nat) : (dstOf tag d).map Prod.fst = regsOf tag d := by
  unfold dstOf regsOf
  split <;> rfl

theorem Warp.retagged_eq_computed {x0 : Warp} {tag a : Nat} (ha : x0.active ≠ 0)
    (hc : ∀ r ∈ regsOf tag a, ∀ t ∈ threads x0.active, x0.poisonV r t 0 = false ∧ x0.poisonV r t 1 = false) (uni : Bool) (d : Nat) :
    x0.retagged uni tag d a = x0.computed uni (dstOf tag d) fun t => (regsOf tag a).map fun r => x0.readV r t := by
  unfold Warp.retagged Warp.computed Warp.fill
  rw [map_fst_dstOf]
  refine congrArg (Warp.label _ _) (List.foldl_ext _ _ _ fun x t ht => ?_)
  have from' : (if uni = true then lowest x0.active else t) ∈ threads x0.active := by
    split
    · exact lowest_mem ha
    · exact ht
  rw [Warp.copyElems_clean fun p hp => hc _ (List.of_mem_zip hp).2 _ from', List.zip_map_right]
  rfl

/-- The form of RETAG. -/
def retagForm (m : Bool) (tag d a : Nat) : Form :=
  { m := m, vector := true, v := regsOf tag d ++ regsOf tag a, even := if isPair tag then [d, a] else [], src := regsOf tag a
    uni := some (regsOf tag a) }

theorem execRetag_eq (m : Bool) (d a : BitVec 6) (g : BitVec 4) (s : State) : execRetag m d a g s =
    issue (fun _ => retagForm m g.toNat d.toNat a.toNat) (fun w s =>
      .done (s.modWarp w fun x => x.retagged ((retagForm m g.toNat d.toNat a.toNat).uniform x) g.toNat d.toNat a.toNat)) s := by
  have regs : ∀ r, (List.range (if isPair g.toNat then 2 else 1)).map (r + ·) = regsOf g.toNat r := fun r => by
    unfold regsOf
    cases isPair g.toNat <;> rfl
  unfold execRetag
  dsimp only
  rw [regs, regs]
  rfl

/-- RETAG as a word of values: the registers of the tag, and those of its source. -/
def retagSpec (s : State) (tag d a : Nat) : VectorSpec :=
  { vreads := regsOf tag a, writes := dstOf tag d, even := if isPair tag then [d, a] else [], tagsOk := true, uni := some (regsOf tag a)
    value := fun t => (regsOf tag a).map fun r => (me s).readV r t }

theorem vectorMove_retag (m : Bool) (d a : BitVec 6) (g : BitVec 4) (s : State) :
    vectorMove (.retag m d a g) s = some (retagSpec s g.toNat d.toNat a.toNat) := by
  unfold vectorMove retagSpec regsOf dstOf
  dsimp only
  cases isPair g.toNat <;> rfl

theorem retagForm_names (m : Bool) (tag d a : Nat) (s : State) : (retagForm m tag d a).NamesVector s (retagSpec s tag d a) where
  illegal := rfl
  level := rfl
  idle := rfl
  check := rfl
  also := rfl
  late _ := rfl
  vector := rfl
  len := rfl
  src _ := Iff.rfl
  tags := rfl
  ss _ := Iff.rfl
  vs r := by unfold retagSpec; rw [map_fst_dstOf]; rfl
  even _ := Iff.rfl

theorem retag_done {i : Instr} {s : State} {m : Bool} {d a : BitVec 6} {g : BitVec 4} (hi : issuing s = true)
    (hx : exec i s = execRetag m d a g s) (hp : VectorFits (retagSpec s g.toNat d.toNat a.toNat) s) :
    completes i s ((retagSpec s g.toNat d.toNat a.toNat).done s) := by
  have names := retagForm_names m g.toNat d.toNat a.toNat s
  have clean : ∀ r ∈ regsOf g.toNat a.toNat, ∀ t ∈ threads (me s).active, (me s).poisonV r t 0 = false ∧ (me s).poisonV r t 1 = false :=
    fun r hr t ht => by simpa using List.all_eq_true.mp (List.all_eq_true.mp hp.cleanV r hr) t ht
  refine completes_computed hi (hx.trans (execRetag_eq m d a g s)) names (names.checks_of_fits hp nofun (readsOf_nil rfl)) hp.active rfl
    ((OnWarp.noted s).modWarp _) ?_ ?_ rfl
  · rw [State.warp_modWarp, if_pos rfl, State.warp_noted_self]
    exact Warp.retagged_eq_computed (x0 := (me s).noted (s.now s.cur)) hp.active clean _ _
  · unfold retagSpec
    rw [map_fst_dstOf]
    unfold regsOf
    split <;> simp

/-! ### Exchanges (R194 to R199) -/

theorem xPoison_none {x : Warp} {a : Nat} {src : Nat → Option Nat} {b : Option Src}
    (ha : ∀ t ∈ threads x.active, ∀ u, src t = some u → ({ reg := a } : Src).bad x u = false)
    (hb : ∀ k, b = some k → ∀ t ∈ threads x.active, k.bad x t = false) : xPoison x a src b = none := by
  unfold xPoison
  rw [List.findSome?_eq_none_iff]
  intro t ht
  cases hs : src t with
  | none =>
    cases b with
    | none => simp
    | some k => simp [hb k rfl t ht]
  | some u =>
    cases b with
    | none => simp [ha t ht u hs]
    | some k => simp [ha t ht u hs, hb k rfl t ht]

/-- A source of the word is free of marks where its registers are. -/
theorem Src.bad_of_clean {x : Warp} {r u : Nat} {halves : Nat} (h : x.poisonV r u 0 = false ∧ x.poisonV r u 1 = false) :
    ({ reg := r, halves := halves } : Src).bad x u = false := by
  simp [Src.bad, h]

/-- What an exchange delivers to a thread. -/
def exchanged (x : Warp) (a : Nat) (src : Nat → Option Nat) (t : Nat) : Elem :=
  { words := [match src t with
      | some u => x.readV a u
      | none => 0] }

theorem xForm_names {m : Bool} {s : State} {d src ss : List Nat} {p : VectorSpec} {uni : Option (List Nat)}
    (hs : ∀ r, r ∈ ss ↔ r ∈ p.sreads) (hv : ∀ r, r ∈ d ++ src ↔ r ∈ p.writes.map Prod.fst ++ p.vreads)
    (he : p.even = []) (hl : p.len = 1) (hr : ∀ r, r ∈ src ↔ r ∈ p.vreads) (ht : (src.all fun r => is32 ((me s).tag r)) = p.tagsOk) :
    Form.NamesVector { xForm m d src with s := ss, uni := uni } s p :=
  { illegal := rfl, level := rfl, idle := rfl, check := rfl, also := rfl, late := fun _ => rfl, vector := rfl, len := hl.symm, src := hr
    tags := ht, ss := hs, vs := hv, even := fun r => by rw [he]; rfl }

section
variable {i : Instr} {s : State} {m : Bool} {d a : BitVec 6} {srcs ss : List Nat} {u : Nat → Option Nat} {uni : Option (List Nat)}

/-- An exchange delivers to each active thread the element of the thread that the statement names. -/
theorem xMove_done {b : Option Src} {src : Warp → Nat → Option Nat} {p : VectorSpec} (hi : issuing s = true)
    (hx : exec i s = xMove { xForm m [d.toNat] srcs with s := ss, uni := uni } d.toNat a.toNat b src s)
    (hq : (moveFrom s d a srcs ss u).map (fun p => { p with uni := uni }) = some p) (hp : VectorFits p s) (h64 : ∀ r ∈ ss, r < 64)
    (hu : ∀ t ∈ threads (me s).active, src ((me s).noted (s.now s.cur)) t = u t) (low : ∀ t < 96, ∀ k, u t = some k → k < 96)
    (hb : ∀ k, b = some k → if k.scalar then k.reg ∈ ss else k.reg ∈ srcs) : completes i s (p.done s) := by
  cases hq
  obtain ⟨tags, clean⟩ := Bool.and_eq_true_iff.mp hp.tags
  have marks : ∀ t < 96, (me s).poisonV a.toNat t 0 = false ∧ (me s).poisonV a.toNat t 1 = false := fun t ht => by
    simpa using List.all_eq_true.mp clean t (List.mem_range.mpr ht)
  have poison : xPoison ((me s).noted (s.now s.cur)) a.toNat (src ((me s).noted (s.now s.cur))) b = none := by
    refine xPoison_none (fun t ht k hk => Src.bad_of_clean (marks k (low t (mem_threads.mp ht).1 k ((hu t ht).symm.trans hk)))) fun k hk t ht => ?_
    have named := hb k hk
    unfold Src.bad
    split
    · rw [if_pos ‹_›] at named
      have clean : (me s).spoison.getLsbD k.reg = false := by simpa using List.all_eq_true.mp hp.cleanS k.reg named
      exact clean
    · rw [if_neg ‹_›] at named
      have clean := List.all_eq_true.mp (List.all_eq_true.mp hp.cleanV k.reg named) t ht
      simp only [Bool.and_eq_true, Bool.not_eq_true'] at clean
      have low : ((me s).noted (s.now s.cur)).poisonV k.reg t 0 = false := clean.1
      have high : ((me s).noted (s.now s.cur)).poisonV k.reg t 1 = false := clean.2
      simp [low, high]
  refine completes_vecOp (f := { xForm m [d.toNat] srcs with s := ss, uni := uni })
    (fn := fun _ => exchanged ((me s).noted (s.now s.cur)) a.toNat (src ((me s).noted (s.now s.cur)))) hi hp hx
    (xForm_names (fun _ => Iff.rfl) (fun _ => Iff.rfl) rfl rfl (fun _ => Iff.rfl) (tags.trans hp.tags.symm)) h64 (readsOf_nil rfl)
    (List.nodup_singleton _) rfl rfl ?_ (fun _ _ => rfl) fun x t ht _ => ?_
  · dsimp only
    rw [State.warp_noted_self, poison]
    rfl
  · unfold exchanged
    dsimp only
    rw [hu t ht]
    cases u t <;> rfl

theorem scanPoison_none {x : Warp} {a : Nat} (reach : Nat → Nat → Bool)
    (ha : ∀ t ∈ threads x.active, ({ reg := a } : Src).bad x t = false) : scanPoison x a reach = none := by
  have none' : ∀ t, ((threads x.active).any fun u => reach t u && ({ reg := a } : Src).bad x u) = false := fun t => by
    rw [List.any_eq_false]
    intro u hu
    simp [ha u hu]
  unfold scanPoison
  rw [List.find?_eq_none.mpr fun t _ => by simp [none' t]]
  rfl

/-- MATCH and MATCHF deliver to each active thread the count or the lowest of the threads that match it. -/
theorem matchWord_done {fl : Bool} {c : BitVec 1} {ok : Bool} {v : Nat → List Word} (hi : issuing s = true) (hx : exec i s = matchWord fl m d a c s)
    (hp : VectorFits { vreads := [a.toNat], writes := [(d.toNat, 3)], tagsOk := ok, uni := none, value := v } s)
    (ht : (if fl then (me s).tag a.toNat == 4 else is32 ((me s).tag a.toNat)) = ok)
    (hv : ∀ t, v t = [BitVec.ofNat 32 (if c = 1#1 then (matchList fl (me s) a.toNat t).length else (matchList fl (me s) a.toNat t).headD 0)]) :
    completes i s (VectorSpec.done { vreads := [a.toNat], writes := [(d.toNat, 3)], tagsOk := ok, uni := none, value := v } s) := by
  have poison : scanPoison ((me s).noted (s.now s.cur)) a.toNat (fun _ _ => true) = none := by
    refine scanPoison_none _ fun t ht => Src.bad_of_clean ?_
    have clean : (me s).poisonV a.toNat t 0 = false ∧ (me s).poisonV a.toNat t 1 = false := by
      simpa using List.all_eq_true.mp (List.all_eq_true.mp hp.cleanV a.toNat (List.mem_singleton_self _)) t ht
    exact clean
  have names : Form.NamesVector { vecForm m [d.toNat] [a.toNat] with
      tags := fun x => if fl then x.tag a.toNat == 4 else is32 (x.tag a.toNat), uni := none, mem := true, reads := [] } s
      { vreads := [a.toNat], writes := [(d.toNat, 3)], tagsOk := ok, uni := none, value := v } :=
    { illegal := rfl, level := rfl, idle := rfl, check := rfl, also := rfl, late := fun _ => rfl, vector := rfl, len := rfl
      src := fun _ => Iff.rfl, tags := ht, ss := fun _ => Iff.rfl, vs := fun _ => Iff.rfl, even := fun _ => Iff.rfl }
  refine completes_vecOp
    (f := { vecForm m [d.toNat] [a.toNat] with
      tags := fun x => if fl then x.tag a.toNat == 4 else is32 (x.tag a.toNat), uni := none, mem := true })
    (fn := fun _ t => { words := [BitVec.ofNat 32 (if c = 1#1 then (matchList fl ((me s).noted (s.now s.cur)) a.toNat t).length
      else (matchList fl ((me s).noted (s.now s.cur)) a.toNat t).headD 0)] })
    hi hp hx names nofun (readsOf_nil rfl) (List.nodup_singleton _) rfl rfl ?_ (fun _ _ => rfl) fun _ t _ _ => (hv t).symm
  dsimp only
  rw [State.warp_noted_self, poison]

end

/-- The thread whose element XPREV gives to a thread (R195): with C the n-th active one below it, otherwise the n-th below. -/
def threadBefore (x : Warp) (counted : Prop) [Decidable counted] (n t : Nat) : Option Nat :=
  if counted then if n = 0 then some t else (((threads x.active).filter fun u => decide (u < t)).reverse)[n - 1]?
  else if n ≤ t then some (t - n) else none

theorem threadBefore_lt {x : Warp} {counted : Prop} [Decidable counted] {n t k : Nat} (ht : t < 96) (hk : threadBefore x counted n t = some k) :
    k < 96 := by
  unfold threadBefore at hk
  split at hk
  · split at hk
    · cases hk
      exact ht
    · have := List.mem_of_getElem? hk
      rw [List.mem_reverse, List.mem_filter] at this
      exact (mem_threads.mp this.1).1
  · split at hk
    · cases hk
      omega
    · cases hk

section
variable {s : State} {m : Bool} {d a b : BitVec 6} {p : VectorSpec} (hi : issuing s = true) (hp : VectorFits p s)
include hi hp

theorem xbc_done {l : BitVec 1} (h : exchanges (.xbc m l d a b) s = some p) : completes (.xbc m l d a b) s (p.done s) := by
  have active : lowest (me s).active < 96 := (mem_threads.mp (lowest_mem hp.active)).1
  by_cases hl : l = 1#1
  · have form : execXbc m l d a b s = xMove { xForm m [d.toNat] [a.toNat] with s := [], uni := some [a.toNat] } d.toNat a.toNat none
        (fun x _ => some (lowest x.active)) s := by
      unfold execXbc
      simp only [hl, beq_self_eq_true, if_true]
    have spec : (moveFrom s d a [a.toNat] [] fun _ => some (lowest (me s).active)).map (fun p => { p with uni := some [a.toNat] }) = some p := by
      rw [← h]
      unfold exchanges
      simp only [hl, if_true]
    exact xMove_done hi form spec hp nofun (fun t _ => rfl) (fun t _ k hk => by cases hk; exact active) nofun
  · have form : execXbc m l d a b s = xMove { xForm m [d.toNat] [a.toNat] with s := [b.toNat], uni := some [a.toNat] } d.toNat a.toNat
        (some { scalar := true, reg := b.toNat })
        (fun x _ => if (x.readS b.toNat).toNat < 96 then some (x.readS b.toNat).toNat else none) s := by
      unfold execXbc
      simp only [hl, beq_iff_eq, if_false]
    have spec : (moveFrom s d a [a.toNat] [b.toNat] fun _ => if ((me s).readS b.toNat).toNat < 96 then some ((me s).readS b.toNat).toNat
        else none).map (fun p => { p with uni := some [a.toNat] }) = some p := by
      rw [← h]
      unfold exchanges
      simp only [hl, if_false]
    exact xMove_done hi form spec hp (by simp [b.isLt]) (fun t _ => rfl) (fun t _ k hk => by
      split at hk
      · cases hk; assumption
      · cases hk) (fun k hk => by cases hk; simp)

theorem xprev_done {c : BitVec 1} (h : exchanges (.xprev m c d a b) s = some p) : completes (.xprev m c d a b) s (p.done s) := by
  have spec : (moveFrom s d a [a.toNat] [b.toNat] (threadBefore (me s) (c = 1#1) ((me s).readS b.toNat).toNat)).map
      (fun p => { p with uni := none }) = some p := by
    rw [← h]
    rfl
  have form : execXprev m c d a b s = xMove { xForm m [d.toNat] [a.toNat] with s := [b.toNat], uni := none } d.toNat a.toNat
      (some { scalar := true, reg := b.toNat }) (fun x t =>
        if c = 1#1 then activeBelow x t (x.readS b.toNat).toNat
        else if t < (x.readS b.toNat).toNat then none else some (t - (x.readS b.toNat).toNat)) s := rfl
  refine xMove_done hi form spec hp (by simp [b.isLt]) (fun t _ => ?_) (fun t ht k hk => threadBefore_lt ht hk)
    (fun k hk => by cases hk; simp)
  unfold threadBefore
  by_cases hc : c = 1#1
  · simp only [hc, if_true]
    rfl
  · have count : ((me s).noted (s.now s.cur)).readS b.toNat = (me s).readS b.toNat := rfl
    simp only [hc, if_false, count]
    by_cases hn : ((me s).readS b.toNat).toNat ≤ t
    · rw [if_pos hn, if_neg (Nat.not_lt.mpr hn)]
    · rw [if_neg hn, if_pos (Nat.not_le.mp hn)]
end

/-- Every exchange and match. -/
theorem exchanges_done {i : Instr} {s : State} {p : VectorSpec} (h : exchanges i s = some p) (hi : issuing s = true) (hp : VectorFits p s) :
    completes i s (p.done s) := by
  cases i with
  | xswzLane m d a l =>
    exact xMove_done (u := fun t => some (4 * (t / 4) + l.toNat / 4 ^ (t % 4) % 4)) hi (Eq.refl (execXswzLane ..)) h hp
      nofun (fun t _ => by rw [Nat.mul_comm]) (fun t ht k hk => by cases hk; omega) nofun
  | xswzRx m d a n =>
    exact xMove_done hi (Eq.refl (execXswzRx ..)) h hp nofun (fun t _ => rfl) (fun t ht k hk => by
      split at hk
      · cases hk; omega
      · cases hk) nofun
  | xswzRev m d a =>
    exact xMove_done (u := fun t => some (95 - t)) hi (Eq.refl (execXswzRev ..)) h hp
      nofun (fun t _ => rfl) (fun t ht k hk => by cases hk; omega) nofun
  | xidx m d a b =>
    exact xMove_done hi (Eq.refl (execXidx ..)) h hp nofun (fun t _ => rfl) (fun t ht k hk => by
      split at hk
      · cases hk; assumption
      · cases hk) (fun k hk => by cases hk; simp)
  | xbc m l d a b => exact xbc_done hi hp h
  | xprev m c d a b => exact xprev_done hi hp h
  | matchOp m d a c =>
    cases h
    refine matchWord_done hi (Eq.refl (execMatchOp ..)) hp rfl fun t => ?_
    have same : ∀ u, ((me s).readV a.toNat u == (me s).readV a.toNat t) = ((me s).readV a.toNat t == (me s).readV a.toNat u) :=
      fun u => BEq.comm
    dsimp only
    simp only [same]
    rfl
  | matchf m d a c =>
    cases h
    exact matchWord_done hi (Eq.refl (execMatchf ..)) hp rfl fun t => rfl
  | _ => cases h

/-- Every move, selection and system value. -/
theorem vectorMove_done {i : Instr} {s : State} {p : VectorSpec} (h : vectorMove i s = some p) (hi : issuing s = true) (hp : VectorFits p s) :
    completes i s (p.done s) := by
  cases i with
  | movVector m d a =>
    cases h
    exact vecForm_done (fun x => (x.tag a.toNat).toNat) hi hp (Eq.refl (execMovVector ..)) rfl rfl (fun _ _ => rfl)
      fun x t h => congrArg (fun v => [v]) (h.reads _)
  | moviVector m d n =>
    cases h
    exact vecForm_done (fun _ => 2) hi hp (Eq.refl (execMoviVector ..)) rfl rfl (fun _ _ => rfl) fun _ _ _ => rfl
  | movhiVector m d n =>
    cases h
    exact completes_vecOp hi hp (Eq.refl (execMovhiVector ..))
      (vecForm_names (fun _ => Iff.rfl) (by simp) (fun _ => Iff.rfl) rfl (fun _ => Iff.rfl) rfl) nofun
      (readsOf_map (src := [d.toNat]) (halves := 1) rfl rfl) (List.nodup_singleton _) rfl rfl rfl (fun _ _ => rfl)
      fun x t _ h => congrArg (fun v => [v]) ((congrArg (movhiW · n) (h.reads _)).trans (movhiW_eq _ n))
  | movlVector m d g n =>
    cases h
    exact vecForm_done (fun _ => g.toNat) hi hp (Eq.refl (execMovlVector ..)) rfl rfl (fun _ _ => rfl) fun _ _ _ => rfl
  | movsv m d a g =>
    cases h
    refine completes_vecOp hi hp (Eq.refl (execMovsv ..))
      (vecForm_names (fun _ => Iff.rfl) (fun _ => Iff.rfl) (fun _ => Iff.rfl) rfl (fun _ => Iff.rfl) rfl) (by simp [a.isLt]) (fun q hq => ?_)
      (List.nodup_singleton _) rfl rfl rfl (fun _ _ => rfl) fun x t _ h => congrArg (fun v => [v]) (h.readS _)
    obtain rfl := List.mem_singleton.mp hq
    exact List.mem_singleton_self _
  | selVector m n k q d a b =>
    cases h
    refine vecForm_done (fun x => (x.tag a.toNat).toNat) hi hp (Eq.refl (execSelVector ..)) rfl rfl (fun _ _ => rfl) fun x t h => ?_
    dsimp only
    rw [h.q, h.pred, h.reads, h.reads]
    rfl
  | sysvTid m d => cases h; exact sysVec_done hi (Eq.refl (execSysvTid ..)) hp fun _ => rfl
  | sysvLane m d => cases h; exact sysVec_done hi (Eq.refl (execSysvLane ..)) hp fun _ => rfl
  | sysvRank m d => cases h; exact sysVec_done hi (Eq.refl (execSysvRank ..)) hp fun _ => rfl
  | retag m d a g =>
    cases (vectorMove_retag m d a g s).symm.trans h
    exact retag_done hi (Eq.refl (execRetag ..)) hp
  | _ => cases h

/-- Settles O4: every word of the two families writes, thread by thread, what each thread finds in its turn, and then its labels. -/
theorem vectorMoveWords : Obligations.VectorMoveWords := by
  unfold Obligations.VectorMoveWords
  intro i s p h _ hi hf
  exact h.elim (fun h => vectorMove_done h hi (vectorFits hf)) fun h => exchanges_done h hi (vectorFits hf)

end Sys2Proof.Machine
end

