-- ==== Sys2Proof/Proofs/IntegerResults.lean ====
section
/-! SUPPORT. The results of the integer words agree with the tables of the statements (R60, R145 to R148, R158). -/

namespace Sys2Proof.Machine

open Sys2Proof.Safety

/-! ### Minima, maxima and magnitudes (R146) -/

theorem sMin_eq (x y : Word) : sMin x y = if x.toInt ≤ y.toInt then x else y := by
  simp only [sMin, BitVec.sle_eq_decide, decide_eq_true_eq]

theorem sMax_eq (x y : Word) : sMax x y = if x.toInt ≤ y.toInt then y else x := by
  simp only [sMax, BitVec.sle_eq_decide, decide_eq_true_eq]

theorem uMin_eq (x y : Word) : uMin x y = if x.toNat ≤ y.toNat then x else y := by
  simp only [uMin, BitVec.ule_eq_decide, decide_eq_true_eq]

theorem uMax_eq (x y : Word) : uMax x y = if x.toNat ≤ y.toNat then y else x := by
  simp only [uMax, BitVec.ule_eq_decide, decide_eq_true_eq]

theorem absW_eq (x : Word) : absW x = if x.toInt < 0 then -x else x := by
  simp only [absW, BitVec.msb_eq_toInt, decide_eq_true_eq]

/-! ### Saturation (R60) -/

theorem clampS_eq (v : Int) : clampS v = satS v := by
  unfold clampS satS
  split
  · rw [max_eq_left (by omega)]; rfl
  · split
    · rw [min_eq_left (by omega)]; rfl
    · rw [min_eq_right (by omega), max_eq_right (by omega)]

theorem clampU_eq (v : Int) : clampU v = satU v := by
  unfold clampU satU
  split
  · rw [max_eq_left (by omega)]; rfl
  · split
    · rw [min_eq_left (by omega)]; rfl
    · rw [min_eq_right (by omega), max_eq_right (by omega)]

/-! ### Shifts (R145) -/

theorem shlW_eq (x y : Word) : shlW x y = leftBy x y := by
  unfold shlW leftBy
  simp only [← Nat.not_lt, ite_not]

theorem shrW_eq (x y : Word) : shrW x y = rightBy x y := by
  unfold shrW rightBy
  simp only [← Nat.not_lt, ite_not]

/-- A shift by 31 leaves copies of the sign. -/
theorem sshiftRight_31 (x : Word) : x.sshiftRight 31 = if x.msb then 0xFFFFFFFF else 0 := by
  refine BitVec.eq_of_getLsbD_eq fun i hi => ?_
  have sign : (x.sshiftRight 31).getLsbD i = x.msb := by
    rw [BitVec.getLsbD_sshiftRight, BitVec.msb_eq_getLsbD_last]
    rcases Nat.eq_zero_or_pos i with rfl | hi'
    · simp
    · rw [if_neg (by omega)]
      simp [hi]
  have ones : (0xFFFFFFFF#32).getLsbD i = true := by interval_cases i <;> rfl
  rw [sign]
  cases x.msb with
  | true => exact ones.symm
  | false => exact BitVec.getLsbD_zero.symm

theorem sraW_eq (x y : Word) : sraW x y = arithBy x y := by
  unfold sraW arithBy
  by_cases h : 32 ≤ y.toNat
  · rw [if_pos h, min_eq_right (by omega), sshiftRight_31]
  · rw [if_neg h, min_eq_left (by omega)]

/-- The immediate amounts are below 32. -/
theorem shlW_setWidth (x : Word) (n : BitVec 5) : shlW x (n.setWidth 32) = x <<< n.toNat := by
  have := n.isLt
  simp [shlW, show n.toNat % 4294967296 = n.toNat by omega, show n.toNat < 32 by omega]

theorem shrW_setWidth (x : Word) (n : BitVec 5) : shrW x (n.setWidth 32) = x >>> n.toNat := by
  have := n.isLt
  simp [shrW, show n.toNat % 4294967296 = n.toNat by omega, show n.toNat < 32 by omega]

theorem sraW_setWidth (x : Word) (n : BitVec 5) : sraW x (n.setWidth 32) = x.sshiftRight n.toNat := by
  have := n.isLt
  simp [sraW, show n.toNat % 4294967296 = n.toNat by omega, show min n.toNat 31 = n.toNat by omega]

theorem rotW_setWidth (x : Word) (n : BitVec 5) : rotW x (n.setWidth 32) = x.rotateLeft n.toNat := by
  have := n.isLt
  simp [rotW, show n.toNat % 4294967296 = n.toNat by omega, show n.toNat % 32 = n.toNat by omega]

/-! ### Products and quotients (R60, R147, R148) -/

theorem mulS_eq (x y : Word) : mulS x y = prodS x y := by
  unfold mulS prodS
  rw [BitVec.ofInt_mul, ← BitVec.toInt_signExtend_of_le (x := x) (show 32 ≤ 64 by decide),
    ← BitVec.toInt_signExtend_of_le (x := y) (show 32 ≤ 64 by decide), BitVec.ofInt_toInt, BitVec.ofInt_toInt]

theorem mulU_eq (x y : Word) : mulU x y = prodU x y := by
  unfold mulU prodU
  refine BitVec.eq_of_toNat_eq ?_
  simp

theorem divS_eq (x y : Word) : divS x y = quotS x y := by
  unfold divS quotS
  refine ite_congr rfl (fun _ => rfl) fun _ => BitVec.eq_of_toInt_eq ?_
  rw [BitVec.toInt_sdiv, BitVec.toInt_ofInt]

theorem divU_eq (x y : Word) : divU x y = quotU x y := by
  unfold divU quotU
  refine ite_congr rfl (fun _ => rfl) fun _ => ?_
  rw [← BitVec.toNat_udiv, BitVec.ofNat_toNat, BitVec.setWidth_eq]

theorem remS_eq (x y : Word) : remS x y = restS x y := by
  unfold remS restS
  refine ite_congr rfl (fun _ => rfl) fun _ => ?_
  rw [← BitVec.toInt_srem, BitVec.ofInt_toInt]

theorem remU_eq (x y : Word) : remU x y = restU x y := by
  unfold remU restU
  refine ite_congr rfl (fun _ => rfl) fun _ => ?_
  rw [← BitVec.toNat_umod, BitVec.ofNat_toNat, BitVec.setWidth_eq]

/-! ### 64-bit forms (R158) -/

theorem cmp64W_lo (a b : DWord) : (cmp64W a b).lo = compare64 a b := by
  unfold cmp64W compare64 DWord.lo
  simp only [BitVec.slt_eq_decide, BitVec.ult_eq_decide, decide_eq_true_eq]
  split <;> split <;> split <;> rfl

theorem shl64W_setWidth (a : DWord) (n : Word) : shl64W a (n.setWidth 64) = leftBy64 a n := by
  have := n.isLt
  unfold shl64W leftBy64
  rw [BitVec.toNat_setWidth, Nat.mod_eq_of_lt (by omega)]
  simp only [← Nat.not_lt, ite_not]

theorem shr64W_setWidth (a : DWord) (n : Word) : shr64W a (n.setWidth 64) = rightBy64 a n := by
  have := n.isLt
  unfold shr64W rightBy64
  rw [BitVec.toNat_setWidth, Nat.mod_eq_of_lt (by omega)]
  simp only [← Nat.not_lt, ite_not]

end Sys2Proof.Machine
end

