-- ==== Sys2Proof/Proofs/IntegerWords.lean ====
section
/-! STATEMENT PROOFS. Vector integer words give each thread its tabulated result (R20, R25, R30, R144 to R149, R155, R157, R158); a scalar
one that writes s61 confines the whole of A to M (R22), which its statement does not ask of the state before. -/

namespace Sys2Proof.Machine

open Sys2Proof.Safety

/-! ### A scalar word that writes s61 (R22) -/

/-- ADDI into s61 clears the thread that A had outside M. -/
theorem addi_confines_mask : ∃ t, exec (.addiScalar false 61 0 1) strayDesk = .next t ∧ (me t).readS 62 = 0 := ⟨_, rfl, by decide⟩

/-- What the statement asks of that word: s62 reads as before. -/
theorem addi_spec_keeps_s62 : ∃ p, plainScalar (.addiScalar false 61 0 1) = some p ∧ p.fits strayDesk = true
    ∧ ∀ t, p.done strayDesk t → (me t).readS 62 = (me strayDesk).readS 62 := by
  refine ⟨_, rfl, by decide, fun t h => ?_⟩
  obtain ⟨-, -, -, -, reads, -⟩ := h
  exact reads 62 (by decide)

/-- Refutes O1: ADDI into s61 where A holds a thread outside M changes s62 as well. -/
theorem not_scalarIntegerWords : ¬ Obligations.ScalarIntegerWords := by
  unfold Obligations.ScalarIntegerWords
  intro words
  obtain ⟨p, hp, fits, kept⟩ := addi_spec_keeps_s62
  exact not_completes_of_confined addi_confines_mask kept (words _ strayDesk p hp (by decide) strayDesk_issuing.1 fits)

/-! ### Vector words over what each thread finds (R20, R140) -/

theorem Warp.TurnOf.readV2 {x0 x : Warp} {t : Nat} (h : x0.TurnOf t x) (r : Nat) : x.readV2 r t = x0.readV2 r t :=
  congrArg₂ DWord.ofWords (h.reads r) (h.reads (r + 1))

theorem Warp.TurnOf.readS2 {x0 x : Warp} {t : Nat} (h : x0.TurnOf t x) (r : Nat) : x.readS2 r = x0.readS2 r :=
  congrArg₂ DWord.ofWords (h.readS r) (h.readS (r + 1))

/-- A 64-bit value as the words of a pair. -/
def DWord.words (d : DWord) : List Word := [d.lo, d.hi]

theorem nodup_pair (d : Nat) {g h : Nat} : (([(d, g), (d + 1, h)] : List (Nat × Nat)).map Prod.fst).Nodup := by simp

section
variable {i : Instr} {s : State} {p : VectorSpec} {m : Bool} {d a b : BitVec 6} {factor tag : Nat}

/-- A word that reads vector registers alone, over what each thread finds. -/
theorem vectorWord_done {dl src even : List Nat} {dst : List (Nat × Nat)} {len : Nat} {reads : List Src} {tags : Warp → Bool} {ok : Bool}
    {fn : Warp → Nat → Elem} {v : Nat → List Word} (hi : issuing s = true)
    (hp : VectorFits { vreads := src, writes := dst, even := even, len := len, tagsOk := ok, uni := some src, value := v } s)
    (hx : exec i s = issue (fun _ => { vecForm m dl src with len := len, even := even, factor := factor, tags := tags, reads := reads })
      (vecOp { vecForm m dl src with len := len, even := even, factor := factor, tags := tags, reads := reads } dst false fn) s)
    (hd : ∀ r, r ∈ dl ++ src ↔ r ∈ dst.map Prod.fst ++ src) (hr : ∀ q ∈ reads, q.scalar = false ∧ q.reg ∈ src)
    (hn : (dst.map Prod.fst).Nodup) (ht : tags ((me s).noted (s.now s.cur)) = ok) (hgen : ∀ x t, (fn x t).gen = none)
    (hv : ∀ x t, ((me s).noted (s.now s.cur)).TurnOf t x → (fn x t).words = v t) :
    completes i s (VectorSpec.done
      { vreads := src, writes := dst, even := even, len := len, tagsOk := ok, uni := some src, value := v } s) := by
  refine completes_vecOp hi hp hx (vecForm_names (fun _ => Iff.rfl) hd (fun _ => Iff.rfl) rfl (fun _ => Iff.rfl) ht) nofun
    (fun q hq => ?_) hn rfl rfl rfl hgen fun x t _ => hv x t
  obtain ⟨vector, named⟩ := hr q hq
  rw [if_neg (by simp [vector])]
  exact named

/-- Sources that are vector registers, whole. -/
theorem vectorSources_map {src : List Nat} : ∀ q ∈ src.map fun r => ({ reg := r } : Src), q.scalar = false ∧ q.reg ∈ src := by simp

theorem alu2V_done {f g : Word → Word → Word} (hi : issuing s = true) (hp : VectorFits p s)
    (hx : exec i s = alu2V factor tag m d a b f s) (hfg : ∀ x y, f x y = g x y) (h : vBin s tag d a b g = some p) : completes i s (p.done s) := by
  cases h
  exact vectorWord_done hi hp hx (fun _ => Iff.rfl) vectorSources_map (List.nodup_singleton _) rfl (fun _ _ => rfl) fun x t turn =>
    congrArg (fun v => [v]) ((congrArg₂ f (turn.reads _) (turn.reads _)).trans (hfg _ _))

theorem fieldV_done {f : Word → Word → Word} (hi : issuing s = true) (hp : VectorFits p s)
    (hx : exec i s = fieldV tag m d a b f s) (h : vBin s tag d a b f = some p) : completes i s (p.done s) := by
  cases h
  exact vectorWord_done hi hp hx (fun _ => Iff.rfl) (by simp) (List.nodup_singleton _) rfl (fun _ _ => rfl) fun x t turn =>
    congrArg (fun v => [v]) (congrArg₂ f (turn.reads _) (turn.reads _))

theorem alu1V_done {f g : Word → Word} (hi : issuing s = true) (hp : VectorFits p s)
    (hx : exec i s = alu1V tag m d a f s) (hfg : ∀ x, f x = g x) (h : vUn s tag d a g = some p) : completes i s (p.done s) := by
  cases h
  exact vectorWord_done hi hp hx (fun _ => Iff.rfl) vectorSources_map (List.nodup_singleton _) rfl (fun _ _ => rfl) fun x t turn =>
    congrArg (fun v => [v]) ((congrArg f (turn.reads _)).trans (hfg _))

theorem litV_done {f : Word → Word} (hi : issuing s = true) (hp : VectorFits p s)
    (hx : exec i s = litV m d a f s) (h : vLit s d a f = some p) : completes i s (p.done s) := by
  cases h
  exact vectorWord_done hi hp hx (fun _ => Iff.rfl) vectorSources_map (List.nodup_singleton _) rfl (fun _ _ => rfl) fun x t turn =>
    congrArg (fun v => [f v]) (turn.reads _)

/-- MAD, which reads D. -/
theorem alu3V_done {f : Word → Word → Word → Word} (hi : issuing s = true) (hp : VectorFits p s)
    (hx : exec i s = alu3V m d a b f s) (h : vTri s d a b f = some p) : completes i s (p.done s) := by
  cases h
  refine vectorWord_done hi hp hx (by simp) vectorSources_map (List.nodup_singleton _) rfl (fun _ _ => rfl) fun x t turn => ?_
  dsimp only
  rw [turn.reads, turn.reads, turn.reads]
  rfl

/-- BFI, which reads D and the low half of B. -/
theorem bfiVector_done (hi : issuing s = true) (hp : VectorFits p s) (hx : exec i s = execBfiVector m d a b s)
    (h : vTri s d a b (fun x c z => bfiW z x c) = some p) : completes i s (p.done s) := by
  cases h
  refine vectorWord_done hi hp hx (by simp) (by simp) (List.nodup_singleton _) rfl (fun _ _ => rfl) fun x t turn => ?_
  dsimp only
  rw [turn.reads, turn.reads, turn.reads]
  rfl

theorem wideV_done {f g : Word → Word → DWord} (hi : issuing s = true) (hp : VectorFits p s)
    (hx : exec i s = wideV m d a b f s) (hfg : ∀ x y, f x y = g x y) (h : vWide s d a b g = some p) : completes i s (p.done s) := by
  cases h
  exact vectorWord_done hi hp hx (fun _ => Iff.rfl) vectorSources_map (nodup_pair _) rfl (fun _ _ => rfl) fun x t turn =>
    congrArg DWord.words ((congrArg₂ f (turn.reads _) (turn.reads _)).trans (hfg _ _))

/-! ### 64-bit forms (R157, R158) -/

theorem pairV_done {f : DWord → DWord → DWord} (hi : issuing s = true) (hp : VectorFits p s)
    (hx : exec i s = p64V factor true true m d a b f s) (h : vPair s d a b f = some p) : completes i s (p.done s) := by
  cases h
  exact vectorWord_done hi hp hx (fun _ => Iff.rfl) vectorSources_map (nodup_pair _) rfl (fun _ _ => rfl) fun x t turn =>
    congrArg DWord.words (congrArg₂ f (turn.readV2 _) (turn.readV2 _))

theorem pairByV_done {f : DWord → DWord → DWord} {g : DWord → Word → DWord} (hi : issuing s = true) (hp : VectorFits p s)
    (hx : exec i s = p64V factor false true m d a b f s) (hfg : ∀ x y, f x (y.setWidth 64) = g x y)
    (h : vPairBy s d a b g = some p) : completes i s (p.done s) := by
  cases h
  exact vectorWord_done hi hp hx (fun _ => Iff.rfl) vectorSources_map (nodup_pair _) rfl (fun _ _ => rfl) fun x t turn =>
    congrArg DWord.words ((congrArg₂ (fun v w => f v (BitVec.setWidth 64 w)) (turn.readV2 _) (turn.reads _)).trans (hfg _ _))

theorem cmp64Vector_done (h : vectorPair (.cmp64Vector m d a b) s = some p) (hi : issuing s = true) (hp : VectorFits p s) :
    completes (.cmp64Vector m d a b) s (p.done s) := by
  cases h
  exact vectorWord_done hi hp (Eq.refl (execCmp64Vector ..)) (fun _ => Iff.rfl) vectorSources_map (List.nodup_singleton _) rfl (fun _ _ => rfl)
    fun x t turn => congrArg (fun v => [v]) ((congrArg₂ (fun v w => (cmp64W v w).lo) (turn.readV2 _) (turn.readV2 _)).trans (cmp64W_lo _ _))

theorem leaVector_done {k : BitVec 3} (h : vectorPair (.leaVector m k d a b) s = some p) (hi : issuing s = true) (hp : VectorFits p s) :
    completes (.leaVector m k d a b) s (p.done s) := by
  cases h
  have even : a.toNat % 2 = 0 := by simpa using List.all_eq_true.mp hp.even a.toNat (by simp)
  have low := a.isLt
  refine completes_vecOp hi hp (Eq.refl (execLeaVector ..))
    (vecForm_names (fun _ => Iff.rfl) (fun _ => Iff.rfl) (fun _ => Iff.rfl) rfl (fun _ => Iff.rfl) (Bool.and_true _))
    (fun r hr => ?_) ?_ (nodup_pair _) rfl rfl rfl (fun _ _ => rfl) fun x t _ turn => ?_
  · simp only [pair, List.mem_cons, List.not_mem_nil, or_false] at hr
    omega
  · simp [Form.ReadsOf, pair]
  · exact congrArg DWord.words
      (congrArg₂ (fun v w => v + (BitVec.signExtend 64 w <<< k.toNat)) (turn.readS2 _) (turn.reads _))

end

/-! ### The families -/

theorem vectorArith_done {i : Instr} {s : State} {p : VectorSpec} (h : vectorArith i s = some p) (hi : issuing s = true) (hp : VectorFits p s) :
    completes i s (p.done s) := by
  cases i with
  | addVector => exact alu2V_done hi hp (Eq.refl (execAddVector ..)) (fun _ _ => rfl) h
  | subVector => exact alu2V_done hi hp (Eq.refl (execSubVector ..)) (fun _ _ => rfl) h
  | andVector => exact alu2V_done hi hp (Eq.refl (execAndVector ..)) (fun _ _ => rfl) h
  | orVector => exact alu2V_done hi hp (Eq.refl (execOrVector ..)) (fun _ _ => rfl) h
  | xorVector => exact alu2V_done hi hp (Eq.refl (execXorVector ..)) (fun _ _ => rfl) h
  | andnVector => exact alu2V_done hi hp (Eq.refl (execAndnVector ..)) (fun _ _ => rfl) h
  | ornVector => exact alu2V_done hi hp (Eq.refl (execOrnVector ..)) (fun _ _ => rfl) h
  | minVector => exact alu2V_done hi hp (Eq.refl (execMinVector ..)) sMin_eq h
  | maxVector => exact alu2V_done hi hp (Eq.refl (execMaxVector ..)) sMax_eq h
  | minnVector => exact alu2V_done hi hp (Eq.refl (execMinnVector ..)) uMin_eq h
  | maxnVector => exact alu2V_done hi hp (Eq.refl (execMaxnVector ..)) uMax_eq h
  | absVector => exact alu1V_done hi hp (Eq.refl (execAbsVector ..)) absW_eq h
  | negVector => exact alu1V_done hi hp (Eq.refl (execNegVector ..)) (fun _ => rfl) h
  | addsatVector => exact alu2V_done hi hp (Eq.refl (execAddsatVector ..)) (fun _ _ => clampS_eq _) h
  | subsatVector => exact alu2V_done hi hp (Eq.refl (execSubsatVector ..)) (fun _ _ => clampS_eq _) h
  | addsatnVector => exact alu2V_done hi hp (Eq.refl (execAddsatnVector ..)) (fun _ _ => clampU_eq _) h
  | subsatnVector => exact alu2V_done hi hp (Eq.refl (execSubsatnVector ..)) (fun _ _ => clampU_eq _) h
  | addiVector => exact alu1V_done hi hp (Eq.refl (execAddiVector ..)) (fun _ => rfl) h
  | addlVector => exact litV_done hi hp (Eq.refl (execAddlVector ..)) h
  | andlVector => exact litV_done hi hp (Eq.refl (execAndlVector ..)) h
  | orlVector => exact litV_done hi hp (Eq.refl (execOrlVector ..)) h
  | _ => cases h

theorem vectorBits_done {i : Instr} {s : State} {p : VectorSpec} (h : vectorBits i s = some p) (hi : issuing s = true) (hp : VectorFits p s) :
    completes i s (p.done s) := by
  cases i with
  | shlVector => exact alu2V_done hi hp (Eq.refl (execShlVector ..)) shlW_eq h
  | shrVector => exact alu2V_done hi hp (Eq.refl (execShrVector ..)) shrW_eq h
  | sraVector => exact alu2V_done hi hp (Eq.refl (execSraVector ..)) sraW_eq h
  | rotVector => exact alu2V_done hi hp (Eq.refl (execRotVector ..)) (fun _ _ => rfl) h
  | shliVector => exact alu1V_done hi hp (Eq.refl (execShliVector ..)) (shlW_setWidth · _) h
  | shriVector => exact alu1V_done hi hp (Eq.refl (execShriVector ..)) (shrW_setWidth · _) h
  | sraiVector => exact alu1V_done hi hp (Eq.refl (execSraiVector ..)) (sraW_setWidth · _) h
  | rotiVector => exact alu1V_done hi hp (Eq.refl (execRotiVector ..)) (rotW_setWidth · _) h
  | popcVector => exact alu1V_done hi hp (Eq.refl (execPopcVector ..)) (fun _ => rfl) h
  | clzVector => exact alu1V_done hi hp (Eq.refl (execClzVector ..)) (fun _ => rfl) h
  | ctzVector => exact alu1V_done hi hp (Eq.refl (execCtzVector ..)) (fun _ => rfl) h
  | brevVector => exact alu1V_done hi hp (Eq.refl (execBrevVector ..)) (fun _ => rfl) h
  | bswapVector => exact alu1V_done hi hp (Eq.refl (execBswapVector ..)) (fun _ => rfl) h
  | bfxVector => exact fieldV_done hi hp (Eq.refl (execBfxVector ..)) h
  | bfxnVector => exact fieldV_done hi hp (Eq.refl (execBfxnVector ..)) h
  | bfiVector => exact bfiVector_done hi hp (Eq.refl (execBfiVector ..)) h
  | _ => cases h

theorem vectorMul_done {i : Instr} {s : State} {p : VectorSpec} (h : vectorMul i s = some p) (hi : issuing s = true) (hp : VectorFits p s) :
    completes i s (p.done s) := by
  cases i with
  | mulVector => exact alu2V_done hi hp (Eq.refl (execMulVector ..)) (fun _ _ => rfl) h
  | mulhiVector => exact alu2V_done hi hp (Eq.refl (execMulhiVector ..)) (fun _ _ => congrArg DWord.hi (mulS_eq _ _)) h
  | mulhinVector => exact alu2V_done hi hp (Eq.refl (execMulhinVector ..)) (fun _ _ => congrArg DWord.hi (mulU_eq _ _)) h
  | madVector => exact alu3V_done hi hp (Eq.refl (execMadVector ..)) h
  | mulwVector => exact wideV_done hi hp (Eq.refl (execMulwVector ..)) mulS_eq h
  | mulwnVector => exact wideV_done hi hp (Eq.refl (execMulwnVector ..)) mulU_eq h
  | divVector => exact alu2V_done hi hp (Eq.refl (execDivVector ..)) divS_eq h
  | divnVector => exact alu2V_done hi hp (Eq.refl (execDivnVector ..)) divU_eq h
  | remVector => exact alu2V_done hi hp (Eq.refl (execRemVector ..)) remS_eq h
  | remnVector => exact alu2V_done hi hp (Eq.refl (execRemnVector ..)) remU_eq h
  | _ => cases h

theorem vectorPair_done {i : Instr} {s : State} {p : VectorSpec} (h : vectorPair i s = some p) (hi : issuing s = true) (hp : VectorFits p s) :
    completes i s (p.done s) := by
  cases i with
  | add64Vector => exact pairV_done hi hp (Eq.refl (execAdd64Vector ..)) h
  | sub64Vector => exact pairV_done hi hp (Eq.refl (execSub64Vector ..)) h
  | mul64Vector => exact pairV_done hi hp (Eq.refl (execMul64Vector ..)) h
  | cmp64Vector => exact cmp64Vector_done h hi hp
  | shl64Vector => exact pairByV_done hi hp (Eq.refl (execShl64Vector ..)) shl64W_setWidth h
  | shr64Vector => exact pairByV_done hi hp (Eq.refl (execShr64Vector ..)) shr64W_setWidth h
  | leaVector => exact leaVector_done h hi hp
  | _ => cases h

/-- Settles O2: each thread's words are the tabulated results of what it finds in its turn, which is what it held before the word. -/
theorem vectorIntegerWords : Obligations.VectorIntegerWords := by
  unfold Obligations.VectorIntegerWords
  intro i s p h _ hi hf
  unfold plainVector at h
  rw [Option.orElse_eq_some, Option.orElse_eq_some, Option.orElse_eq_some] at h
  have hp := vectorFits hf
  rcases h with h | ⟨-, h | ⟨-, h | ⟨-, h⟩⟩⟩
  · exact vectorArith_done h hi hp
  · exact vectorBits_done h hi hp
  · exact vectorMul_done h hi hp
  · exact vectorPair_done h hi hp

end Sys2Proof.Machine
end

