-- ==== Sys2Proof/Proofs/BitResults.lean ====
section
/-! STATEMENT PROOFS. The bit words' results, bit by bit (R149). -/

namespace Sys2Proof.Machine

/-! ### Counts -/

theorem mem_ones {x : Word} {i : Nat} : i ∈ ones x ↔ i < 32 ∧ x.getLsbD i = true := by
  rw [ones, List.mem_filter, List.mem_range]

theorem popcW_toNat (x : Word) : (popcW x).toNat = (ones x).length := by
  have few : (ones x).length ≤ 32 := (List.length_filter_le _ _).trans_eq List.length_range
  rw [popcW, BitVec.toNat_ofNat, Nat.mod_eq_of_lt (by omega)]

/-- CLZ counts from the highest bit that is 1. -/
theorem clzW_toNat_of_ne {x : Word} (h : x ≠ 0) : (clzW x).toNat = 31 - Nat.log2 x.toNat := by
  rw [clzW, if_neg h, BitVec.toNat_ofNat, Nat.mod_eq_of_lt (by omega), Nat.add_zero]

theorem log2_toNat_lt {x : Word} (h : x ≠ 0) : Nat.log2 x.toNat < 32 :=
  (Nat.log2_lt (BitVec.toNat_ne.mp h)).mpr x.isLt

theorem clzW_spec (x : Word) : (clzW x).toNat ≤ 32 ∧ (∀ i, i < 32 → 31 - (clzW x).toNat < i → x.getLsbD i = false)
    ∧ ((clzW x).toNat < 32 → x.getLsbD (31 - (clzW x).toNat) = true) ∧ ((clzW x).toNat = 32 → x = 0) := by
  by_cases h : x = 0
  · subst h
    have all : (clzW 0).toNat = 32 := by decide
    rw [all]
    exact ⟨Nat.le_refl _, fun _ _ _ => BitVec.getLsbD_zero, fun no => absurd no (Nat.lt_irrefl _), fun _ => rfl⟩
  · have high := log2_toNat_lt h
    rw [clzW_toNat_of_ne h, show 31 - (31 - Nat.log2 x.toNat) = Nat.log2 x.toNat by omega]
    refine ⟨by omega, fun i _ above => ?_, fun _ => Nat.testBit_log2 (BitVec.toNat_ne.mp h), by omega⟩
    exact Nat.testBit_lt_two_pow (Nat.lt_log2_self.trans_le (Nat.pow_le_pow_right (by decide) above))

theorem ctzW_spec (x : Word) : (ctzW x).toNat ≤ 32 ∧ (∀ i, i < (ctzW x).toNat → x.getLsbD i = false)
    ∧ ((ctzW x).toNat < 32 → x.getLsbD (ctzW x).toNat = true) := by
  unfold ctzW ones
  rw [List.head?_filter]
  cases first : (List.range 32).find? fun i => x.getLsbD i with
  | none =>
    have zeros := List.find?_range_eq_none.mp first
    exact ⟨Nat.le_refl _, fun i hi => by simpa using zeros i hi, fun no => absurd no (Nat.lt_irrefl _)⟩
  | some n =>
    obtain ⟨one, range, zeros⟩ := List.find?_range_eq_some.mp first
    have low := List.mem_range.mp range
    rw [Option.getD_some, BitVec.toNat_ofNat, Nat.mod_eq_of_lt (by omega)]
    exact ⟨by omega, fun i hi => by simpa using zeros i hi, fun _ => one⟩

/-! ### Bits and bytes turned round -/

/-- Setting the mirrored bits of a list of places. -/
theorem getLsbD_setMirrored (l : List Nat) (r : Word) {k : Nat} (hk : k < 32) :
    (l.foldl (fun r i => r ||| (1#32 <<< (31 - i))) r).getLsbD k = (r.getLsbD k || l.any fun i => decide (31 - i = k)) := by
  induction l generalizing r with
  | nil => simp
  | cons i l ih =>
    have one : (1#32 <<< (31 - i)).getLsbD k = decide (31 - i = k) := by
      rw [BitVec.getLsbD_shiftLeft, BitVec.getLsbD_one]
      have place : (k - (31 - i) = 0 ∧ ¬ k < 31 - i) ↔ 31 - i = k := by omega
      grind
    rw [List.foldl_cons, ih, BitVec.getLsbD_or, one, List.any_cons, Bool.or_assoc]

theorem getLsbD_brevW (x : Word) {i : Nat} (hi : i < 32) : (brevW x).getLsbD i = x.getLsbD (31 - i) := by
  have mirrored : ((ones x).any fun j => decide (31 - j = i)) = x.getLsbD (31 - i) := by
    rw [Bool.eq_iff_iff, List.any_eq_true]
    constructor
    · rintro ⟨j, hj, place⟩
      obtain ⟨low, one⟩ := mem_ones.mp hj
      rw [← of_decide_eq_true place, show 31 - (31 - j) = j by omega]
      exact one
    · intro one
      exact ⟨31 - i, mem_ones.mpr ⟨by omega, one⟩, decide_eq_true (by omega)⟩
  rw [brevW, getLsbD_setMirrored _ _ hi, mirrored]
  simp

/-- The mask of the second byte. -/
theorem getLsbD_secondByte : ∀ i < 32, (0xFF00 : Word).getLsbD i = decide (8 ≤ i ∧ i < 16) := by decide

theorem getLsbD_bswapW (x : Word) {i : Nat} (hi : i < 32) : (bswapW x).getLsbD i = x.getLsbD (8 * (3 - i / 8) + i % 8) := by
  have above : ∀ j, 32 ≤ j → x.getLsbD j = false := fun j => BitVec.getLsbD_of_ge x j
  have shape : bswapW x = (x <<< 24) ||| ((x &&& 0xFF00) <<< 8) ||| ((x >>> 8) &&& (0xFF00 : Word)) ||| (x >>> 24) := rfl
  rw [shape, BitVec.getLsbD_or, BitVec.getLsbD_or, BitVec.getLsbD_or, BitVec.getLsbD_shiftLeft, BitVec.getLsbD_shiftLeft, BitVec.getLsbD_and,
    BitVec.getLsbD_and, BitVec.getLsbD_ushiftRight, BitVec.getLsbD_ushiftRight, getLsbD_secondByte i hi, getLsbD_secondByte (i - 8) (by omega)]
  obtain h | h | h | h : i / 8 = 0 ∨ i / 8 = 1 ∨ i / 8 = 2 ∨ i / 8 = 3 := by omega
  · rw [h, show 8 * (3 - 0) + i % 8 = 24 + i by omega]
    simp [show i < 8 by omega, show i < 24 by omega]
  · rw [h, show 8 * (3 - 1) + i % 8 = 8 + i by omega, above (24 + i) (by omega)]
    simp [hi, show ¬ i < 8 by omega, show i < 24 by omega, show 8 ≤ i by omega, show i < 16 by omega, show i - 8 < 8 by omega]
  · rw [h, show 8 * (3 - 2) + i % 8 = i - 8 by omega, above (24 + i) (by omega)]
    simp [hi, show ¬ i < 8 by omega, show i < 24 by omega, show ¬ i < 16 by omega, show 8 ≤ i - 8 by omega, show i - 8 < 16 by omega]
  · rw [h, show 8 * (3 - 3) + i % 8 = i - 24 by omega, above (24 + i) (by omega)]
    simp [hi, show ¬ i < 24 by omega, show ¬ i < 16 by omega, show ¬ i - 8 < 16 by omega]

/-! ### Fields -/

/-- The bits of an unsigned field. -/
theorem testBit_field (x : Word) (pos l i : Nat) :
    (x.toNat / 2 ^ pos % 2 ^ l).testBit i = (decide (i < l) && x.getLsbD (pos + i)) := by
  rw [Nat.testBit_mod_two_pow, Nat.testBit_div_two_pow, Nat.add_comm]
  rfl

theorem fieldOf_eq (c : Word) : fieldOf c = (c.toNat % 32, min (c.toNat / 256 % 64) (32 - c.toNat % 32)) := rfl

theorem getLsbD_bfxW_unsigned (x c : Word) {i : Nat} (hi : i < 32) :
    (bfxW false x c).getLsbD i = (decide (i < (fieldOf c).2) && x.getLsbD ((fieldOf c).1 + i)) := by
  rw [bfxW, Bool.false_and, Bool.false_and, if_neg Bool.false_ne_true, BitVec.getLsbD_ofNat, testBit_field, decide_eq_true hi, Bool.true_and]

/-- A field's highest bit is its sign. -/
theorem two_pow_le_iff_testBit {v l : Nat} (hl : 0 < l) (hv : v < 2 ^ l) : 2 ^ (l - 1) ≤ v ↔ v.testBit (l - 1) = true := by
  constructor
  · intro high
    exact Nat.testBit_of_two_pow_le_and_two_pow_add_one_gt high (by rwa [Nat.sub_add_cancel hl])
  · exact Nat.ge_two_pow_of_testBit

/-- Copies of the sign stand above a negative field. -/
theorem testBit_signExtended {v l i : Nat} (hv : v < 2 ^ l) (hl : l ≤ 32) (hi : i < 32) :
    (2 ^ 32 + v - 2 ^ l).testBit i = (decide (l ≤ i) || v.testBit i) := by
  have split : 2 ^ 32 + v - 2 ^ l = 2 ^ l * (2 ^ (32 - l) - 1) + v := by
    have whole : 2 ^ l * 2 ^ (32 - l) = 2 ^ 32 := by rw [← Nat.pow_add, Nat.add_sub_cancel' hl]
    have := Nat.pow_le_pow_right (n := 2) (by decide) hl
    rw [Nat.mul_sub, whole]
    omega
  rw [split, Nat.testBit_two_pow_mul_add _ hv, Nat.testBit_two_pow_sub_one]
  by_cases h : i < l
  · rw [if_pos h, decide_eq_false (Nat.not_le.mpr h), Bool.false_or]
  · rw [if_neg h, decide_eq_true (Nat.not_lt.mp h), Bool.true_or, decide_eq_true (by omega)]

/-- A field of `l` bits, taken as a signed number: above its sign stand copies of it. -/
theorem getLsbD_signedField {v l i : Nat} (hv : v < 2 ^ l) (pos : 0 < l) (hl : l ≤ 32) (hi : i < 32) :
    (if 2 ^ (l - 1) ≤ v then BitVec.ofNat 32 (2 ^ 32 + v - 2 ^ l) else BitVec.ofNat 32 v).getLsbD i = v.testBit (min i (l - 1)) := by
  have sign := two_pow_le_iff_testBit pos hv
  have bits : ∀ n, (BitVec.ofNat 32 n).getLsbD i = n.testBit i := fun n => by
    rw [BitVec.getLsbD_ofNat, decide_eq_true hi, Bool.true_and]
  split
  case isTrue negative =>
    rw [bits, testBit_signExtended hv hl hi]
    by_cases inside : i < l
    · rw [min_eq_left (by omega), decide_eq_false (by omega), Bool.false_or]
    · rw [min_eq_right (by omega), decide_eq_true (by omega), Bool.true_or, sign.mp negative]
  case isFalse positive =>
    rw [bits]
    by_cases inside : i < l
    · rw [min_eq_left (by omega)]
    · rw [min_eq_right (by omega), Bool.eq_false_iff.mpr (mt sign.mpr positive)]
      exact Nat.testBit_lt_two_pow (hv.trans_le (Nat.pow_le_pow_right (by decide) (by omega)))

theorem getLsbD_bfxW_signed (x c : Word) {i : Nat} (hi : i < 32) :
    (bfxW true x c).getLsbD i = (decide (0 < (fieldOf c).2) && x.getLsbD ((fieldOf c).1 + min i ((fieldOf c).2 - 1))) := by
  have bits := testBit_field x (fieldOf c).1 (fieldOf c).2
  have low : (fieldOf c).2 ≤ 32 := by rw [fieldOf_eq]; omega
  unfold bfxW
  dsimp only
  generalize (fieldOf c).1 = pos at bits ⊢
  generalize (fieldOf c).2 = l at bits low ⊢
  have hv : x.toNat / 2 ^ pos % 2 ^ l < 2 ^ l := Nat.mod_lt _ (Nat.two_pow_pos l)
  generalize x.toNat / 2 ^ pos % 2 ^ l = v at bits hv ⊢
  rcases Nat.eq_zero_or_pos l with rfl | hl
  · simp [show v = 0 by omega]
  · have signed := getLsbD_signedField hv hl low hi
    rw [bits, decide_eq_true (by omega), Bool.true_and] at signed
    rw [decide_eq_true hl, Bool.true_and, Bool.true_and, Bool.true_and, ← signed]
    simp only [ge_iff_le, decide_eq_true_eq]

theorem getLsbD_bfiW (z x c : Word) {i : Nat} (hi : i < 32) :
    (bfiW z x c).getLsbD i =
      if (fieldOf c).1 ≤ i ∧ i < (fieldOf c).1 + (fieldOf c).2 then x.getLsbD (i - (fieldOf c).1) else z.getLsbD i := by
  unfold bfiW
  dsimp only
  generalize (fieldOf c).1 = pos
  generalize (fieldOf c).2 = l
  have mask : (BitVec.ofNat 32 ((2 ^ l - 1) * 2 ^ pos)).getLsbD i = decide (pos ≤ i ∧ i < pos + l) := by
    rw [BitVec.getLsbD_ofNat, Nat.testBit_mul_two_pow, Nat.testBit_two_pow_sub_one, decide_eq_true hi, Bool.true_and, ← Bool.decide_and]
    exact decide_eq_decide.mpr (by omega)
  simp only [BitVec.getLsbD_or, BitVec.getLsbD_and, BitVec.getLsbD_not, BitVec.getLsbD_shiftLeft, mask, hi, decide_true, Bool.true_and]
  by_cases field : pos ≤ i ∧ i < pos + l
  · simp [field]
  · simp [field]

/-- Settles O57: the counts end at the first bit that is 1, and every other result is told bit by bit. -/
theorem bitResults : Obligations.BitResults := by
  unfold Obligations.BitResults
  intro x c z pos l
  exact ⟨popcW_toNat x, fun _ => getLsbD_brevW x, fun _ => getLsbD_bswapW x, clzW_spec x, ctzW_spec x, fun _ => getLsbD_bfxW_unsigned x c,
    fun _ => getLsbD_bfxW_signed x c, fun _ => getLsbD_bfiW z x c⟩

end Sys2Proof.Machine
end

