-- ==== Sys2Proof/Proofs/FloatWords.lean ====
section
/-! STATEMENT PROOFS. A conversion that narrows into a part of D reads the bits of D that it keeps (R174), so a poisoned half that holds
some of them traps POISON (R335); the statement asks that A be free of marks, and not D. -/

namespace Sys2Proof.Machine

open Sys2Proof.Safety

/-- One thread of a warp that holds FP32 in v2, and a poisoned high half in v1. -/
def markedHalfWarp : Warp :=
  Warp.markV { resident := true, allot := 64, splits := [(0, { state := .running, m := 1, a := 1 })], tags := [(2, 4)] } 1 0 1

/-- That warp, about to issue. -/
def markedHalfDesk : State := { userDesk with warps := [(0, markedHalfWarp)] }

theorem markedHalfDesk_issuing : issuing markedHalfDesk = true ∧ (me markedHalfDesk).trap.cause = 0 := by decide

/-- CVT of v2 into the low element of v1 as BF16X2 keeps the poisoned high half, and traps POISON. -/
theorem cvt_traps_kept_poison : ∃ t, exec (.cvt false 0 5 1 2) markedHalfDesk = .next t ∧ (me t).trap.cause = 0x11 := ⟨_, rfl, by decide⟩

/-- What the statement asks of that word: the trap registers are as before. -/
theorem cvt_spec_keeps_trap : ∃ p, conversions (.cvt false 0 5 1 2) markedHalfDesk = some p ∧ p.fits markedHalfDesk = true
    ∧ ∀ t, p.done markedHalfDesk t → (me t).trap = (me markedHalfDesk).trap := by
  refine ⟨_, rfl, by decide, fun t h => ?_⟩
  obtain ⟨-, -, done, -⟩ := h
  rw [done]
  rfl

/-- Refutes O5: CVT from FP32 into one element of a BF16X2 register whose other half is poisoned traps POISON, and the statement has it
complete. -/
theorem not_floatWords : ¬ Obligations.FloatWords := by
  unfold Obligations.FloatWords
  intro words
  obtain ⟨p, hp, fits, kept⟩ := cvt_spec_keeps_trap
  obtain ⟨issues, before⟩ := markedHalfDesk_issuing
  obtain ⟨t, ht, holds⟩ := words _ markedHalfDesk p (.inr (.inr hp)) (by decide) issues fits
  obtain ⟨u, hu, poison⟩ := cvt_traps_kept_poison
  rw [hu] at ht
  cases ht
  rw [kept _ holds, before] at poison
  exact absurd poison (by decide)

end Sys2Proof.Machine
end
